-- ==== Sys2Proof/Word.lean ====
section
/-! DEFINITION. The word types of the NYM-9840 (spec/02 R24, R40; spec/06 R14). -/

namespace Sys2Proof

/-- One byte of memory. -/
abbrev Byte := BitVec 8
/-- A 32-bit register value or instruction word (R24, R40). -/
abbrev Word := BitVec 32
/-- A 64-bit value, held in an even and odd register pair (R27). -/
abbrev DWord := BitVec 64
/-- A 52-bit virtual or physical address (R14). -/
abbrev Addr := BitVec 52
/-- A tile descriptor of 128 bits (R30). -/
abbrev Desc := BitVec 128
/-- A lane mask: bit l for lane l of a warp (R242). -/
abbrev Mask := BitVec 32

end Sys2Proof
end

