-- ==== Sys2Proof/Syntax.lean ====
section
/-! DEFINITION. The instructions and steps of the NYM-9840: one constructor per row of
spec/opcode_table.json. The first 122 are instruction words (spec/02 R41, R44); the rest are the
steps of the engines, the control plane, the host, the firmware and the links. -/

namespace Sys2Proof

/-! ### Operand kinds -/

/-- Integer type code T (R80). -/
inductive IType where | s32 | z32 | s64 | z64
  deriving DecidableEq, Repr
/-- LOGIC functions (R89). -/
inductive LogicFn where | and | or | xor | andn | orn | xnor | not
  deriving DecidableEq, Repr
/-- SHIFT functions (R90). -/
inductive ShiftFn where | shl | shr | sra | rot
  deriving DecidableEq, Repr
/-- BITS functions (R91). -/
inductive BitsFn where | popc | clz | ctz | brev | bfeS | bfeZ | bfi
  deriving DecidableEq, Repr
/-- ISET comparisons (R92). -/
inductive Cmp where | eq | ne | lt | le | gt | ge
  deriving DecidableEq, Repr
/-- Format code F of the floating-point majors (R97). -/
inductive FFmt where | f32 | f64 | f16 | bf16
  deriving DecidableEq, Repr
/-- The rounding code RND (R81); `dflt` takes RMODE.RM. -/
inductive Rnd where | dflt | rn | rz | rp | rm
  deriving DecidableEq, Repr
/-- FMNX functions (R99). -/
inductive FmnxFn where | min | max | neg | abs | csgn
  deriving DecidableEq, Repr
/-- FSET comparisons (R100). -/
inductive FCmp where | eq | ne | lt | le | gt | ge | num | nan
  deriving DecidableEq, Repr
/-- FCVT types (R102). -/
inductive CvtType where
  | s32 | z32 | s64 | z64 | f64 | f32 | f16 | bf16 | e4m3 | e5m2 | s16 | z16 | s8 | z8
  deriving DecidableEq, Repr
/-- SFU functions (R104). -/
inductive SfuFn where | rcp | rsq | sqrt | lg2 | ex2 | sinpi | cospi | tanh | div
  deriving DecidableEq, Repr
/-- HOP2 operations (R105). -/
inductive Hop2Op where | add | mul | fma
  deriving DecidableEq, Repr
/-- HOP2 roundings (R105). -/
inductive Hop2Rnd where | dflt | rn | rz
  deriving DecidableEq, Repr
/-- DOT element types (R106). -/
inductive DotType where | f16 | bf16 | e4m3 | e5m2 | s8 | z8 | s8z8
  deriving DecidableEq, Repr
/-- SHFL modes (R107). -/
inductive ShflMode where | idx | up | dn | xor
  deriving DecidableEq, Repr
/-- SHFL segment sizes (R107). -/
inductive ShflSeg where | w32 | w16 | w8 | w4
  deriving DecidableEq, Repr
/-- The SHFL index: a vector register or an immediate (R107). -/
inductive ShflIdx where | reg (b : BitVec 7) | imm (k : BitVec 5)
  deriving DecidableEq, Repr
/-- VOTE operations (R108). -/
inductive VoteOp where | all | any | uni | ballot | mtch
  deriving DecidableEq, Repr
/-- WRED operations (R109). -/
inductive WredOp where
  | addB32 | addS32sat | addZ32sat | minS32 | minZ32 | maxS32 | maxZ32 | andB32 | orB32 | xorB32
  | faddF32 | fminF32 | fmaxF32 | minidxS32 | minidxZ32 | maxidxS32 | maxidxZ32
  deriving DecidableEq, Repr
/-- PLOG operations (R111). -/
inductive PlogOp where | and | or | xor | andn | orn | not
  deriving DecidableEq, Repr
/-- XMOV kinds (R112). -/
inductive XmovKind where | vv | vs | sv | ss | pv | vp | sp | ts | st | tt
  deriving DecidableEq, Repr
/-- Load kinds (R192). -/
inductive LdKind where | z8 | s8 | z16 | s16 | b32 | b64 | b128
  deriving DecidableEq, Repr
/-- Store kinds (R192). -/
inductive StKind where | b8 | b16 | b32 | b64 | b128
  deriving DecidableEq, Repr
/-- ATOM operations (R200). -/
inductive AtomOp where
  | add | and | or | xor | exch | cas | minS | minZ | maxS | maxZ | fadd | fmin | fmax
  deriving DecidableEq, Repr
/-- ACPY functions (R206). -/
inductive CopyFn where | raw | cvt | cvtSat | pack | zero
  deriving DecidableEq, Repr
/-- BLEND operations (R311). -/
inductive BlendOp where | rep | over | add | mul
  deriving DecidableEq, Repr
/-- The special registers (R32). -/
inductive SReg where
  | lane | tid | wid | gid | core | grove | die | lvl | clock | ts | cause | trappc | traplanes
  | trapmask | age | budget | deadline | job | profile | lscap | fpstat | rmode | winbase
  deriving DecidableEq, Repr
/-- A selector of MFS and MTS: register, instance and the .d64 bit (R390, R394). -/
structure Sel where
  reg : SReg
  inst : BitVec 3
  w64 : Bool
  deriving DecidableEq, Repr
/-- A token operand: a uniform register, or none (NOTOK). -/
abbrev Token := Option (BitVec 6)
/-- A meld operand mk, or none. -/
abbrev MeldOp := Option (BitVec 3)

/-! ### Operands of the steps that are not instruction words -/

/-- Who sends a mailbox command (R326). -/
inductive Caller where | host | runtime
  deriving DecidableEq, Repr
/-- The scope of a pre-emption request (R348). -/
inductive Scope where
  | gang (ctx gid : Nat) | job (ctx job : Nat) | core (c : Nat) | package
  deriving DecidableEq, Repr
/-- What the supervisor kills on the package: a resident group, or the job of a draw (R278, R341). -/
inductive KillTarget where
  | group (core gk : Nat) | draw (draw : Nat)
  deriving DecidableEq, Repr
/-- The engines of a core that can stand stopped on a translation fault (R133). -/
inductive EngUnit where | matrix | copy (q : Nat) | restore (slot : Nat) | reload (gk : Nat)
  deriving DecidableEq, Repr
/-- A link: the die-to-die link of a compute die, or a Rolik port (R385). -/
inductive Link where | d2d (die : Nat) | rolik (port : Nat)
  deriving DecidableEq, Repr
/-- The traffic classes of a link (R386). -/
inductive TClass where | request | response | enqueue | management
  deriving DecidableEq, Repr
/-- Power states of a compute die (R438). -/
inductive PState where | d0 | d1 | d2
  deriving DecidableEq, Repr
/-- The kinds of request a peer sends (R329). -/
inductive PeerKind where
  | load (len : Nat) | store (bytes : List Byte) | atom (op : AtomOp) (w64 : Bool) (v new : DWord)
  deriving DecidableEq, Repr
/-- The images that a boot verifies (R323). -/
inductive BootImage where | secondStage | runtime | talon | scheduler
  deriving DecidableEq, Repr

/-- An update image handed to FW_STAGE: what root firmware's checks of R323 read from it. -/
structure FwImage where
  which : BootImage
  version : Nat
  digest : BitVec 512
  sigOk : Bool
  deriving DecidableEq, Repr
/-- The requests outside SPDM support (R325). -/
inductive SpdmUnsupported where | session | keyExchange | mutualAuth
  deriving DecidableEq, Repr

/-- One constructor per row of the opcode table. -/
inductive Instr where
  -- SYS, op 0x00 (spec/17 R390)
  | nop
  | brk (code : BitVec 7)
  | trap (code : BitVec 7)
  | trapEsc (code : BitVec 7)
  | tret
  | mfs (d : BitVec 7) (sel : Sel)
  | mts (d : BitVec 7) (sel : Sel)
  | causeclr (a : BitVec 6)
  | icinv
  | halt
  -- integer, ops 0x01-0x11 (spec/04 R87-R96)
  | iadd (t : IType) (sat : Bool) (d a b : BitVec 7)
  | isub (t : IType) (sat : Bool) (d a b : BitVec 7)
  | imul (t : IType) (sat hi : Bool) (d a b : BitVec 7)
  | imad (t : IType) (sat wide : Bool) (d a b : BitVec 7)
  | imnx (t : IType) (max : Bool) (d a b : BitVec 7)
  | logic (fn : LogicFn) (w64 : Bool) (d a b : BitVec 7)
  | shift (fn : ShiftFn) (w64 : Bool) (d a b : BitVec 7)
  | bits (fn : BitsFn) (w64 : Bool) (d a b : BitVec 7)
  | iset (c : Cmp) (t : IType) (d : BitVec 4) (a b : BitVec 7)
  | sel (inv : Bool) (p : BitVec 4) (d a b : BitVec 7)
  | lea (sgn : Bool) (sh : BitVec 3) (d a b : BitVec 7)
  | iaddi (d a : BitVec 7) (imm : BitVec 12)
  | andi (d a : BitVec 7) (imm : BitVec 12)
  | ori (d a : BitVec 7) (imm : BitVec 12)
  | xori (d a : BitVec 7) (imm : BitVec 12)
  | movl (d : BitVec 7) (imm : BitVec 19)
  | lui (d : BitVec 7) (imm : BitVec 19)
  -- floating point, ops 0x12-0x1B (spec/04 R97-R106)
  | fadd (f : FFmt) (r : Rnd) (d a b : BitVec 7)
  | fmul (f : FFmt) (r : Rnd) (d a b : BitVec 7)
  | ffma (f : FFmt) (r : Rnd) (d a b : BitVec 7)
  | fmnx (f : FFmt) (fn : FmnxFn) (d a b : BitVec 7)
  | fset (f : FFmt) (c : FCmp) (d : BitVec 4) (a b : BitVec 7)
  | fcvt (dst src : CvtType) (sat : Bool) (r : Rnd) (d a : BitVec 7)
  | sfu (half : Bool) (fn : SfuFn) (d a b : BitVec 7)
  | frnd (f : FFmt) (r : Rnd) (d a : BitVec 7)
  | hop2 (bf : Bool) (op : Hop2Op) (r : Hop2Rnd) (d a b : BitVec 7)
  | dot (t : DotType) (sat : Bool) (d a b : BitVec 7)
  -- cross-lane, predicates, moves, ops 0x1C-0x20 (spec/04 R107-R112)
  | shfl (mode : ShflMode) (w : ShflSeg) (d a : BitVec 7) (idx : ShflIdx)
  | vote (op : VoteOp) (neg : Bool) (d a : BitVec 7)
  | wred (op : WredOp) (d : BitVec 6) (a b : BitVec 7)
  | plog (op : PlogOp) (d a b : BitVec 4)
  | xmov (k : XmovKind) (w64 : Bool) (d a : BitVec 7)
  -- matrix engine, ops 0x21-0x25 (spec/05 R137-R142)
  | meldDecl (k : BitVec 3) (a : BitVec 6)
  | meldSign (k : BitVec 3) (tok : Token)
  | meldCancel (k : BitVec 3)
  | meldQry (d : BitVec 6) (k : BitVec 3)
  | ldw (t : BitVec 5) (tok : Token) (mk : MeldOp)
  | ldwSwap (tok : Token) (mk : MeldOp)
  | mstr (c : BitVec 4) (t : BitVec 5) (cg init : Bool) (tok : Token) (mk : MeldOp)
  | accAcq (c : BitVec 4) (mk : MeldOp)
  | accRel (c : BitVec 4) (mk : MeldOp)
  | accZ (c : BitVec 4) (tok : Token) (mk : MeldOp)
  | accRd (c : BitVec 4) (t : BitVec 5) (tok : Token) (mk : MeldOp)
  | accWr (c : BitVec 4) (t : BitVec 5) (tok : Token) (mk : MeldOp)
  | tilePlane (t : BitVec 5) (a : BitVec 6) (p : BitVec 6)
  | tileHnd (t : BitVec 5) (a : BitVec 6)
  | tileDim (t : BitVec 5) (a : BitVec 6)
  | tileAdv (t : BitVec 5) (a : BitVec 6)
  -- memory, ops 0x26-0x31 (spec/08)
  | ld (k : LdKind) (d a : BitVec 7) (off : BitVec 9)
  | st (k : StKind) (d a : BitVec 7) (off : BitVec 9)
  | ldx (k : LdKind) (ub ua : Bool) (d a b : BitVec 7)
  | stx (k : StKind) (ub ua : Bool) (d a b : BitVec 7)
  | lde (nf : BitVec 4) (h : Bool) (d a b : BitVec 7)
  | ste (nf : BitVec 4) (sat : Bool) (d a b : BitVec 7)
  | atom (op : AtomOp) (w64 : Bool) (d a b : BitVec 7)
  | acpy (fn : CopyFn) (q : BitVec 2) (d a : BitVec 5) (tok : Token)
  | tagLook (d a : BitVec 7)
  | tagSet (a b : BitVec 7)
  | tagInv (b : BitVec 7)
  | tagRd (d b : BitVec 7)
  | tagWr (a b : BitVec 7)
  | splfSt (d a : BitVec 7) (k : BitVec 7)
  | splfLd (d a : BitVec 7) (k : BitVec 7)
  | fencM
  | fencQImm (q : BitVec 6)
  | fencQReg (a : BitVec 6)
  | fencR (a : BitVec 6)
  | fencRcommit (a b : BitVec 6)
  | futFill (d a b : BitVec 7)
  | futWait (d a : BitVec 7)
  | futTake (d a : BitVec 7)
  | futClr (a : BitVec 7)
  -- control, ops 0x32-0x3B, 0x3E (spec/12)
  | bra (disp : BitVec 19)
  | braPred (sense : Bool) (p : BitVec 4) (disp : BitVec 19)
  | braU (sense : Bool) (p : BitVec 4) (disp : BitVec 19)
  | jmpr (ub : Bool) (a : BitVec 7)
  | jmprLink (ub : Bool) (d a : BitVec 7)
  | call (d : BitVec 7) (imm : BitVec 19)
  | spawn (d : BitVec 7) (a : BitVec 6) (b : BitVec 7)
  | reform
  | rcv
  | exit
  | yield
  | handoff (a b : BitVec 6)
  | bar (k : BitVec 3)
  | syncw (a : BitVec 7)
  | syncwU (a : BitVec 6)
  | wbase (n : BitVec 7)
  | rpf (start : BitVec 7) (count : BitVec 5)
  | acqB (a : BitVec 6)
  | acqT (d a : BitVec 6)
  | rel (a : BitVec 6)
  | qry (d : BitVec 6)
  | forkMx (w : BitVec 6) (a : BitVec 6) (tok : Token)
  | forkCp (w : BitVec 6) (a : BitVec 6) (tok : Token)
  | forkBoth (w : BitVec 6) (a : BitVec 6) (tok : Token)
  | rdv (n : BitVec 3)
  | tq (a : BitVec 6)
  | enq (d a b : BitVec 7)
  -- tape, op 0x3C (spec/17 R401)
  | tapeArm (d a b : BitVec 6)
  | tapeOff (d b : BitVec 6)
  | tapeQry (d b : BitVec 6)
  -- graphics, op 0x3D (spec/12 R306)
  | bin (d : BitVec 7) (a : BitVec 6) (b : BitVec 7)
  | pld (d a : BitVec 7) (p : BitVec 4)
  | pst (d a : BitVec 7) (p : BitVec 4)
  | sample (clamp lin : Bool) (d : BitVec 7) (t : BitVec 5) (b : BitVec 7)
  | blend (op : BlendOp) (a b : BitVec 7)
  | tdone
  | dcmp (a : BitVec 6) (b : BitVec 7)
  -- pipes, op 0x3E (spec/12 R305)
  | pipeMap (k : BitVec 3)
  | pipeUnmap (k : BitVec 3)
  | pipeQry (d : BitVec 6) (k : BitVec 3)
  -- engine steps (spec/05, spec/08, spec/11)
  | meldEntry (core : Nat)
  | matrixOperation (core : Nat)
  | copyProbe (core q : Nat)
  | copyChunk (core q : Nat)
  | sequencerEntry (core : Nat) (copy : Bool)
  | engineFaultRetry (core : Nat) (u : EngUnit)
  -- Shuffler, scheduler, Banker steps (spec/09, spec/10)
  | binTimer (core bin : Nat)
  | warpLaunch (core gk : Nat)
  | injection (core bin : Nat)
  | pathAge (core wid : Nat)
  | warpAge (core sched : Nat)
  | budget (core gk : Nat)
  | head (core : Nat)
  | grant (core : Nat)
  | futAttempt (core wid : Nat)
  | barrierArrival (core gk : Nat)
  | barrierComplete (core gk : Nat) (k : BitVec 3) (thread : Nat)
  | icinvCompletion (core wid : Nat)
  | groupEnd (core gk : Nat)
  -- tasks (spec/11)
  | recordCheck (q : Nat)
  | admission (q : Nat)
  | taskCompletion (task : Nat)
  -- tile pipeline (spec/11)
  | commit (draw : Nat)
  | flushComplete (draw : Nat)
  | flushStall (draw : Nat)
  | binningStall (draw : Nat)
  | tileIssue (draw tile core : Nat)
  | visibilityWave (core gk : Nat)
  | shadingWave (core gk : Nat)
  | writeBack (core gk : Nat)
  -- pre-emption and context switch (spec/14)
  | preemption (sc : Scope)
  | quiesce
  | acknowledgement (core : Nat)
  | swapOut (core gang : Nat)
  | restore (slot core : Nat)
  | kill (slot : Nat)
  | rangeCommitCheck
  | rangeSwap
  -- Talon operations and replay commands (spec/15)
  | arm (grove tape base cap : Nat) (blk : BitVec 256)
  | off (grove tape : Nat)
  | query (grove tape : Nat)
  | engCommand (replay : Nat)
  | memCommand (replay : Nat)
  | enqCommand (replay : Nat)
  | bankCommand (replay : Nat)
  | rfenceCommand (replay : Nat)
  -- root mailbox and SPDM (spec/13 R325, R326)
  | logRead (who : Caller) (index : Nat)
  | apertureSet (who : Caller) (n : BitVec 9) (r : DWord)
  | exportSet (who : Caller) (n : BitVec 8) (r : BitVec 128)
  | fwStage (who : Caller) (img : FwImage)
  | status (who : Caller)
  | mailboxRefused (who : Caller) (code : Nat)
  | getVersion
  | getCapabilities
  | negotiateAlgorithms
  | getDigests
  | getCertificate
  | challenge (nonce : List Byte)
  | getMeasurements
  | unsupportedRequest (r : SpdmUnsupported)
  -- host, dies and links (spec/07 R168, spec/16)
  | hostCxlMemRead (addr len : Nat)
  | hostCxlMemWrite (addr : Nat) (bytes : List Byte)
  | hostSnoop (die line : Nat)
  | tWake (die : Nat)
  | tDead (die : Nat)
  | linkUp (die : Nat)
  | retryRequest (l : Link) (seq : Nat)
  | linkDown (l : Link)
  | pause (l : Link) (c : TClass)
  | resume (l : Link) (c : TClass)
  | peerRequest (endpoint : BitVec 18) (addr : Nat) (k : PeerKind)
  | remotePush (endpoint : BitVec 18) (q : BitVec 9) (record : List Byte)
  | pushAcknowledgement (accepted : Bool)
  | scrub (addr : Nat) (correctable : Bool)
  -- management (spec/23)
  | telemetry
  | reset
  | powerState (die : Nat) (p : PState)
  | temperatureAbove95 (die : Nat)
  | temperatureBelow90 (die : Nat)
  | temperatureAbove110 (die : Nat)
  | currentAbove85a
  | currentBelow80a
  | flowBelow15
  -- fetch and background steps
  | wordNotAnInstruction
  | instructionFetchFault (page : Bool)
  | spillWrite (core : Nat)
  | cleanAcknowledgement
  | flitAcknowledgement (l : Link) (seq : Nat)
  | quiesceEnd
  | killOfResidentGroup (t : KillTarget)
  deriving DecidableEq, Repr

end Sys2Proof
end

