-- ==== Sys2Proof/WellFormed.lean ====
section
/-! DEFINITION. Which instructions a word can denote: the static part of check 2 to 4 of R46
(subcode combinations, reserved fields, register classes, pairs). The checks that need the state
(holdings R26 R29, descriptors R30, privilege) stand in Machine/Operands.lean. -/

namespace Sys2Proof

/-- Why the decoder refuses a word; every one is cause ILLOP (R46). -/
inductive Reject where
  /-- major 0x3F (R44) -/
  | reservedMajor
  /-- a subcode its chapter does not assign (R46 check 2) -/
  | unassignedSubcode
  /-- a nonzero reserved field or bit (R46 check 3) -/
  | reservedField
  /-- a uniform field of 64 or more (R25) -/
  | uniformRange
  /-- a predicate field of 16 or more (R25) -/
  | predicateRange
  /-- a tile field of 32 or more (R25) -/
  | tileRange
  /-- an odd field that names a pair (R27) -/
  | oddPair
  /-- a run that must start at a multiple of 4 (R112, R192, R200, R401) -/
  | misalignedRun
  /-- a combination of modifiers its chapter forbids (R87, R91, R102, R106, R112, R196, R200) -/
  | modifiers
  /-- a selector R32 does not list, or a W64 it does not take (R394) -/
  | selector
  /-- an illegal c field of a branch (R43) -/
  | condition
  /-- an operand beyond its chapter's limit (R291, R297, R299) -/
  | limit
  deriving DecidableEq, Repr

namespace IType
/-- The width of T is 64 (R80). -/
def is64 : IType → Bool
  | .s64 | .z64 => true
  | .s32 | .z32 => false
/-- T is signed (R88). -/
def signed : IType → Bool
  | .s32 | .s64 => true
  | .z32 | .z64 => false
/-- The width n of T (R80). -/
def width (t : IType) : Nat := if t.is64 then 64 else 32
end IType

namespace CvtType
/-- An integer type of R102. -/
def isInt : CvtType → Bool
  | .s32 | .z32 | .s64 | .z64 | .s16 | .z16 | .s8 | .z8 => true
  | .f64 | .f32 | .f16 | .bf16 | .e4m3 | .e5m2 => false
/-- A 64-bit type, held in a pair (R102). -/
def is64 : CvtType → Bool
  | .s64 | .z64 | .f64 => true
  | .s32 | .z32 | .s16 | .z16 | .s8 | .z8 | .f32 | .f16 | .bf16 | .e4m3 | .e5m2 => false
end CvtType

namespace WredOp
/-- The four index forms of R109. -/
def isIdx : WredOp → Bool
  | .minidxS32 | .minidxZ32 | .maxidxS32 | .maxidxZ32 => true
  | .addB32 | .addS32sat | .addZ32sat | .minS32 | .minZ32 | .maxS32 | .maxZ32 | .andB32 | .orB32
  | .xorB32 | .faddF32 | .fminF32 | .fmaxF32 => false
end WredOp

namespace AtomOp
/-- The floating-point forms of R200. -/
def isFloat : AtomOp → Bool
  | .fadd | .fmin | .fmax => true
  | .add | .and | .or | .xor | .exch | .cas | .minS | .minZ | .maxS | .maxZ => false
end AtomOp

namespace SReg
/-- How many instances R32 lists for the register. -/
def instances : SReg → Nat
  | .lvl => 8
  | .clock | .deadline => 2
  | .lane | .tid | .wid | .gid | .core | .grove | .die | .ts | .cause | .trappc | .traplanes
  | .trapmask | .age | .budget | .job | .profile | .lscap | .fpstat | .rmode | .winbase => 1
/-- The registers R32 marks RW. -/
def writable : SReg → Bool
  | .trappc | .traplanes | .trapmask | .fpstat | .rmode | .winbase => true
  | .lane | .tid | .wid | .gid | .core | .grove | .die | .lvl | .clock | .ts | .cause | .age
  | .budget | .deadline | .job | .profile | .lscap => false
/-- The registers whose write privilege is Supervisor (R32). -/
def writeSup : SReg → Bool
  | .trappc | .traplanes | .trapmask => true
  | .lane | .tid | .wid | .gid | .core | .grove | .die | .lvl | .clock | .ts | .cause | .age
  | .budget | .deadline | .job | .profile | .lscap | .fpstat | .rmode | .winbase => false
end SReg

/-- An even register number (R27). -/
def even {n : Nat} (x : BitVec n) : Bool := x.toNat % 2 == 0
/-- A multiple of 4. -/
def quad {n : Nat} (x : BitVec n) : Bool := x.toNat % 4 == 0

/-- The first rejection of a list of checks, in order. -/
def firstReject : List (Bool × Reject) → Option Reject
  | [] => none
  | (ok, r) :: rest => if ok then firstReject rest else some r

/-- The selector part of R394; the write of an RO register is refused with ILLOP by the meaning of
MTS, which stands at the same order of R46. -/
def Sel.reject (s : Sel) (isMts : Bool) (d : BitVec 7) : Option Reject :=
  firstReject [
    (decide (s.inst.toNat < s.reg.instances), .selector),
    (!s.w64 || (s.inst == 0 && (s.reg == .trappc || (!isMts && (s.reg == .clock || s.reg == .deadline)))),
      .selector),
    (!s.w64 || even d, .oddPair)]

/-- Pairs of a 64-bit type: d, a and b even (R80). -/
def pairs (w : Bool) (l : List (BitVec 7)) : Option Reject :=
  firstReject (l.map fun x => (!w || even x, Reject.oddPair))

/-- The base pair of a memory form with a UB bit (R188). -/
def baseReject (ub : Bool) (a : BitVec 7) : Option Reject :=
  firstReject [(!ub || decide (a.toNat < 64), .uniformRange), (even a, .oddPair)]

/-- The data register of a load or store of the given size in bytes (R192). -/
def dataReject (size : Nat) (d : BitVec 7) : Option Reject :=
  firstReject [(decide (size ≠ 8) || even d, .oddPair), (decide (size ≠ 16) || quad d, .misalignedRun)]

/-- Access size of a load kind (R192). -/
def LdKind.size : LdKind → Nat
  | .z8 | .s8 => 1 | .z16 | .s16 => 2 | .b32 => 4 | .b64 => 8 | .b128 => 16
/-- Access size of a store kind (R192). -/
def StKind.size : StKind → Nat
  | .b8 => 1 | .b16 => 2 | .b32 => 4 | .b64 => 8 | .b128 => 16

/-- Two rejections: the first that is present. -/
def Reject.or (x y : Option Reject) : Option Reject := match x with | some r => some r | none => y

/-- Classes of the fields of XMOV, and its W64 (R112). -/
def xmovReject (k : XmovKind) (w64 : Bool) (d a : BitVec 7) : Option Reject :=
  let u (x : BitVec 7) := (decide (x.toNat < 64), Reject.uniformRange)
  let p (x : BitVec 7) := (decide (x.toNat < 16), Reject.predicateRange)
  let t (x : BitVec 7) := (decide (x.toNat < 32), Reject.tileRange)
  let pr (x : BitVec 7) := (!w64 || even x, Reject.oddPair)
  match k with
  | .vv => firstReject [pr d, pr a]
  | .vs => firstReject [u d, pr d, pr a]
  | .sv => firstReject [u a, pr d, pr a]
  | .ss => firstReject [u d, u a, pr d, pr a]
  | .pv => firstReject [(!w64, .modifiers), p a]
  | .vp => firstReject [(!w64, .modifiers), p d]
  | .sp => firstReject [(!w64, .modifiers), p d, u a]
  | .ts => firstReject [(!w64, .modifiers), u d, t a, (quad d, .misalignedRun)]
  | .st => firstReject [(!w64, .modifiers), t d, u a, (quad a, .misalignedRun)]
  | .tt => firstReject [(!w64, .modifiers), t d, t a]

/-- Classes of the fields of VOTE (R108). -/
def voteReject (op : VoteOp) (neg : Bool) (d a : BitVec 7) : Option Reject :=
  let p (x : BitVec 7) := (decide (x.toNat < 16), Reject.predicateRange)
  match op with
  | .all | .any | .uni => firstReject [p d, p a]
  | .ballot => firstReject [(decide (d.toNat < 64), .uniformRange), p a]
  | .mtch => firstReject [(!neg, .modifiers)]

/-- The static check of an instruction: none when a word can denote it. The steps that are not
words carry no static check. -/
def Instr.reject : Instr → Option Reject
  | .mfs d s => s.reject false d
  | .mts d s => s.reject true d
  | .iadd t _ d a b | .isub t _ d a b | .imnx t _ d a b => pairs t.is64 [d, a, b]
  | .imul t sat hi d a b =>
    Reject.or (firstReject [(!(sat && hi), .modifiers)]) (pairs t.is64 [d, a, b])
  | .imad t _ wide d a b =>
    Reject.or (firstReject [(!(wide && t.is64), .modifiers)])
      (Reject.or (pairs wide [d]) (pairs t.is64 [d, a, b]))
  | .logic fn w d a b =>
    Reject.or (pairs w [d, a, b]) (firstReject [(fn != .not || b == 0, .reservedField)])
  | .shift _ w d a _ => pairs w [d, a]
  | .bits fn w d a b =>
    match fn with
    | .popc | .clz | .ctz => Reject.or (pairs w [a]) (firstReject [(b == 0, .reservedField)])
    | .brev => Reject.or (pairs w [d, a]) (firstReject [(b == 0, .reservedField)])
    | .bfeS | .bfeZ | .bfi => firstReject [(!w, .modifiers)]
  | .iset _ t _ a b => pairs t.is64 [a, b]
  | .lea _ _ d a _ => pairs true [d, a]
  | .fadd f _ d a b | .fmul f _ d a b | .ffma f _ d a b => pairs (f == .f64) [d, a, b]
  | .fmnx f fn d a b =>
    Reject.or (pairs (f == .f64) [d, a, b])
      (firstReject [((fn != .neg && fn != .abs) || b == 0, .reservedField)])
  | .fset f _ _ a b => pairs (f == .f64) [a, b]
  | .fcvt dst src sat r d a =>
    Reject.or (firstReject [
      (!sat || dst == .e5m2 || (dst.isInt && src.isInt), .modifiers),
      (!(dst.isInt && src.isInt) || r == .dflt, .modifiers)])
      (Reject.or (pairs dst.is64 [d]) (pairs src.is64 [a]))
  | .sfu _ fn _ _ b => firstReject [(fn == .div || b == 0, .reservedField)]
  | .frnd f _ d a => pairs (f == .f64) [d, a]
  | .dot t sat _ _ _ => firstReject [(!sat || t == .s8 || t == .z8 || t == .s8z8, .modifiers)]
  | .vote op neg d a => voteReject op neg d a
  | .wred op d _ b =>
    firstReject [(!op.isIdx || even d, .oddPair), (op.isIdx || b == 0, .reservedField)]
  | .plog op _ _ b => firstReject [(op != .not || b == 0, .reservedField)]
  | .xmov k w d a => xmovReject k w d a
  | .ld k d a _ => Reject.or (dataReject k.size d) (pairs true [a])
  | .st k d a _ => Reject.or (dataReject k.size d) (pairs true [a])
  | .ldx k ub _ d a _ => Reject.or (dataReject k.size d) (baseReject ub a)
  | .stx k ub _ d a _ => Reject.or (dataReject k.size d) (baseReject ub a)
  | .lde nf h d a _ =>
    Reject.or (firstReject [(decide (nf.toNat ≤ 8), .unassignedSubcode)])
      (Reject.or (pairs (nf == 1 && !h) [d]) (pairs true [a]))
  | .ste nf sat d a _ =>
    Reject.or (firstReject [(decide (nf.toNat ≤ 8), .unassignedSubcode),
      (!sat || nf == 0 || nf == 6, .modifiers)])
      (Reject.or (pairs (nf == 1) [d]) (pairs true [a]))
  | .atom op w d a b =>
    Reject.or (firstReject [(!(w && op.isFloat), .modifiers)])
      (Reject.or (pairs true [a]) (Reject.or (pairs w [d, b])
        (firstReject [(op != .cas || even b, .oddPair), (op != .cas || !w || quad b, .misalignedRun)])))
  | .acpy fn _ _ a _ => firstReject [(fn != .zero || a == 0, .reservedField)]
  | .tagLook _ a => pairs true [a]
  | .tagSet a _ => pairs true [a]
  | .tagRd d _ => pairs true [d]
  | .splfSt _ a _ | .splfLd _ a _ => pairs true [a]
  | .fencR a => firstReject [(even a, .oddPair)]
  | .fencRcommit a _ => firstReject [(even a, .oddPair)]
  | .futFill _ a _ => pairs true [a]
  | .futWait _ a | .futTake _ a => pairs true [a]
  | .futClr a => pairs true [a]
  | .jmpr ub a => baseReject ub a
  | .jmprLink ub d a => Reject.or (pairs true [d]) (baseReject ub a)
  | .call d _ => pairs true [d]
  | .spawn _ a b => firstReject [(decide (b.toNat ≤ 120), .limit), (even a, .oddPair)]
  | .rpf s c => firstReject [(decide (c.toNat ≤ 16), .limit), (decide (s.toNat + c.toNat ≤ 128), .limit)]
  | .qry d => firstReject [(even d, .oddPair)]
  | .forkMx w _ _ | .forkCp w _ _ => firstReject [(decide (w.toNat ≤ 32), .limit)]
  | .forkBoth w a _ => firstReject [(decide (w.toNat ≤ 32), .limit), (even a, .oddPair)]
  | .tq a => firstReject [(even a, .oddPair)]
  | .enq _ a _ => pairs true [a]
  | .tapeArm _ a b => firstReject [(even a, .oddPair), (even b, .oddPair)]
  | .tapeQry d _ => firstReject [(quad d, .misalignedRun)]
  | .bin _ a b => Reject.or (firstReject [(even a, .oddPair)]) (pairs true [b])
  | .sample _ _ _ _ b => pairs true [b]
  | .dcmp a _ => firstReject [(even a, .oddPair)]
  | .nop | .brk _ | .trap _ | .trapEsc _ | .tret | .causeclr _ | .icinv | .halt | .sel _ _ _ _ _
  | .iaddi _ _ _ | .andi _ _ _ | .ori _ _ _ | .xori _ _ _ | .movl _ _ | .lui _ _ | .hop2 _ _ _ _ _ _
  | .shfl _ _ _ _ _ | .meldDecl _ _ | .meldSign _ _ | .meldCancel _ | .meldQry _ _ | .ldw _ _ _
  | .ldwSwap _ _ | .mstr _ _ _ _ _ _ | .accAcq _ _ | .accRel _ _ | .accZ _ _ _ | .accRd _ _ _ _
  | .accWr _ _ _ _ | .tilePlane _ _ _ | .tileHnd _ _ | .tileDim _ _ | .tileAdv _ _ | .tagInv _
  | .tagWr _ _ | .fencM | .fencQImm _ | .fencQReg _ | .bra _ | .braPred _ _ _ | .braU _ _ _
  | .reform | .rcv | .exit | .yield | .handoff _ _ | .bar _ | .syncw _ | .syncwU _ | .wbase _
  | .acqB _ | .acqT _ _ | .rel _ | .rdv _ | .tapeOff _ _ | .pld _ _ _ | .pst _ _ _ | .blend _ _ _
  | .tdone | .pipeMap _ | .pipeUnmap _ | .pipeQry _ _ => none
  | .meldEntry _ | .matrixOperation _ | .copyProbe _ _ | .copyChunk _ _ | .sequencerEntry _ _
  | .engineFaultRetry _ _ | .binTimer _ _ | .warpLaunch _ _ | .injection _ _ | .pathAge _ _
  | .warpAge _ _ | .budget _ _ | .head _ | .grant _ | .futAttempt _ _ | .barrierArrival _ _
  | .barrierComplete _ _ _ _ | .icinvCompletion _ _ | .groupEnd _ _ | .recordCheck _
  | .admission _ | .taskCompletion _ | .commit _ | .flushComplete _ | .flushStall _
  | .binningStall _ | .tileIssue _ _ _ | .visibilityWave _ _ | .shadingWave _ _ | .writeBack _ _
  | .preemption _ | .quiesce | .acknowledgement _ | .swapOut _ _ | .restore _ _ | .kill _
  | .rangeCommitCheck | .rangeSwap | .arm _ _ _ _ _ | .off _ _ | .query _ _ | .engCommand _
  | .memCommand _ | .enqCommand _ | .bankCommand _ | .rfenceCommand _ | .logRead _ _
  | .apertureSet _ _ _ | .exportSet _ _ _ | .fwStage _ _ | .status _ | .mailboxRefused _ _
  | .getVersion | .getCapabilities | .negotiateAlgorithms | .getDigests | .getCertificate
  | .challenge _ | .getMeasurements | .unsupportedRequest _ | .hostCxlMemRead _ _
  | .hostCxlMemWrite _ _ | .hostSnoop _ _ | .tWake _ | .tDead _ | .linkUp _ | .retryRequest _ _
  | .linkDown _ | .pause _ _ | .resume _ _ | .peerRequest _ _ _ | .remotePush _ _ _
  | .pushAcknowledgement _ | .scrub _ _ | .telemetry | .reset | .powerState _ _
  | .temperatureAbove95 _ | .temperatureBelow90 _ | .temperatureAbove110 _ | .currentAbove85a
  | .currentBelow80a | .flowBelow15 | .wordNotAnInstruction | .instructionFetchFault _
  | .spillWrite _ | .cleanAcknowledgement | .flitAcknowledgement _ _ | .quiesceEnd
  | .killOfResidentGroup _ => none

/-- A well-formed instruction: no static check refuses it. -/
def Instr.wellFormed (i : Instr) : Bool := i.reject.isNone

end Sys2Proof
end

