-- ==== Sys2Proof/Decode.lean ====
section
/-! DEFINITION. The decoder (spec/02 R41-R46 and each owning chapter's encodings) and, after it, the
encoder. The decoder is total on every word; what it refuses it refuses by name. -/

namespace Sys2Proof

/-! ### Codes of the operand kinds -/

/-- The code of R80. -/
def IType.code : IType → BitVec 2
  | .s32 => 0
  | .z32 => 1
  | .s64 => 2
  | .z64 => 3

/-- The reading of a code of R80; none where it is unassigned. -/
def IType.ofCode (c : BitVec 2) : Option IType :=
  match c.toNat with
  | 0 => some .s32
  | 1 => some .z32
  | 2 => some .s64
  | 3 => some .z64
  | _ => none

/-- The code of R89. -/
def LogicFn.code : LogicFn → BitVec 3
  | .and => 0
  | .or => 1
  | .xor => 2
  | .andn => 3
  | .orn => 4
  | .xnor => 5
  | .not => 6

/-- The reading of a code of R89; none where it is unassigned. -/
def LogicFn.ofCode (c : BitVec 3) : Option LogicFn :=
  match c.toNat with
  | 0 => some .and
  | 1 => some .or
  | 2 => some .xor
  | 3 => some .andn
  | 4 => some .orn
  | 5 => some .xnor
  | 6 => some .not
  | _ => none

/-- The code of R90. -/
def ShiftFn.code : ShiftFn → BitVec 2
  | .shl => 0
  | .shr => 1
  | .sra => 2
  | .rot => 3

/-- The reading of a code of R90; none where it is unassigned. -/
def ShiftFn.ofCode (c : BitVec 2) : Option ShiftFn :=
  match c.toNat with
  | 0 => some .shl
  | 1 => some .shr
  | 2 => some .sra
  | 3 => some .rot
  | _ => none

/-- The code of R91. -/
def BitsFn.code : BitsFn → BitVec 3
  | .popc => 0
  | .clz => 1
  | .ctz => 2
  | .brev => 3
  | .bfeS => 4
  | .bfeZ => 5
  | .bfi => 6

/-- The reading of a code of R91; none where it is unassigned. -/
def BitsFn.ofCode (c : BitVec 3) : Option BitsFn :=
  match c.toNat with
  | 0 => some .popc
  | 1 => some .clz
  | 2 => some .ctz
  | 3 => some .brev
  | 4 => some .bfeS
  | 5 => some .bfeZ
  | 6 => some .bfi
  | _ => none

/-- The code of R92. -/
def Cmp.code : Cmp → BitVec 3
  | .eq => 0
  | .ne => 1
  | .lt => 2
  | .le => 3
  | .gt => 4
  | .ge => 5

/-- The reading of a code of R92; none where it is unassigned. -/
def Cmp.ofCode (c : BitVec 3) : Option Cmp :=
  match c.toNat with
  | 0 => some .eq
  | 1 => some .ne
  | 2 => some .lt
  | 3 => some .le
  | 4 => some .gt
  | 5 => some .ge
  | _ => none

/-- The code of R97. -/
def FFmt.code : FFmt → BitVec 2
  | .f32 => 0
  | .f64 => 1
  | .f16 => 2
  | .bf16 => 3

/-- The reading of a code of R97; none where it is unassigned. -/
def FFmt.ofCode (c : BitVec 2) : Option FFmt :=
  match c.toNat with
  | 0 => some .f32
  | 1 => some .f64
  | 2 => some .f16
  | 3 => some .bf16
  | _ => none

/-- The code of R99. -/
def FmnxFn.code : FmnxFn → BitVec 3
  | .min => 0
  | .max => 1
  | .neg => 2
  | .abs => 3
  | .csgn => 4

/-- The reading of a code of R99; none where it is unassigned. -/
def FmnxFn.ofCode (c : BitVec 3) : Option FmnxFn :=
  match c.toNat with
  | 0 => some .min
  | 1 => some .max
  | 2 => some .neg
  | 3 => some .abs
  | 4 => some .csgn
  | _ => none

/-- The code of R100. -/
def FCmp.code : FCmp → BitVec 3
  | .eq => 0
  | .ne => 1
  | .lt => 2
  | .le => 3
  | .gt => 4
  | .ge => 5
  | .num => 6
  | .nan => 7

/-- The reading of a code of R100; none where it is unassigned. -/
def FCmp.ofCode (c : BitVec 3) : Option FCmp :=
  match c.toNat with
  | 0 => some .eq
  | 1 => some .ne
  | 2 => some .lt
  | 3 => some .le
  | 4 => some .gt
  | 5 => some .ge
  | 6 => some .num
  | 7 => some .nan
  | _ => none

/-- The code of R102. -/
def CvtType.code : CvtType → BitVec 4
  | .s32 => 0
  | .z32 => 1
  | .s64 => 2
  | .z64 => 3
  | .f64 => 4
  | .f32 => 5
  | .f16 => 6
  | .bf16 => 7
  | .e4m3 => 8
  | .e5m2 => 9
  | .s16 => 10
  | .z16 => 11
  | .s8 => 12
  | .z8 => 13

/-- The reading of a code of R102; none where it is unassigned. -/
def CvtType.ofCode (c : BitVec 4) : Option CvtType :=
  match c.toNat with
  | 0 => some .s32
  | 1 => some .z32
  | 2 => some .s64
  | 3 => some .z64
  | 4 => some .f64
  | 5 => some .f32
  | 6 => some .f16
  | 7 => some .bf16
  | 8 => some .e4m3
  | 9 => some .e5m2
  | 10 => some .s16
  | 11 => some .z16
  | 12 => some .s8
  | 13 => some .z8
  | _ => none

/-- The code of R104. -/
def SfuFn.code : SfuFn → BitVec 4
  | .rcp => 0
  | .rsq => 1
  | .sqrt => 2
  | .lg2 => 3
  | .ex2 => 4
  | .sinpi => 5
  | .cospi => 6
  | .tanh => 7
  | .div => 8

/-- The reading of a code of R104; none where it is unassigned. -/
def SfuFn.ofCode (c : BitVec 4) : Option SfuFn :=
  match c.toNat with
  | 0 => some .rcp
  | 1 => some .rsq
  | 2 => some .sqrt
  | 3 => some .lg2
  | 4 => some .ex2
  | 5 => some .sinpi
  | 6 => some .cospi
  | 7 => some .tanh
  | 8 => some .div
  | _ => none

/-- The code of R105. -/
def Hop2Op.code : Hop2Op → BitVec 2
  | .add => 0
  | .mul => 1
  | .fma => 2

/-- The reading of a code of R105; none where it is unassigned. -/
def Hop2Op.ofCode (c : BitVec 2) : Option Hop2Op :=
  match c.toNat with
  | 0 => some .add
  | 1 => some .mul
  | 2 => some .fma
  | _ => none

/-- The code of R105. -/
def Hop2Rnd.code : Hop2Rnd → BitVec 2
  | .dflt => 0
  | .rn => 1
  | .rz => 2

/-- The reading of a code of R105; none where it is unassigned. -/
def Hop2Rnd.ofCode (c : BitVec 2) : Option Hop2Rnd :=
  match c.toNat with
  | 0 => some .dflt
  | 1 => some .rn
  | 2 => some .rz
  | _ => none

/-- The code of R106. -/
def DotType.code : DotType → BitVec 3
  | .f16 => 0
  | .bf16 => 1
  | .e4m3 => 2
  | .e5m2 => 3
  | .s8 => 4
  | .z8 => 5
  | .s8z8 => 6

/-- The reading of a code of R106; none where it is unassigned. -/
def DotType.ofCode (c : BitVec 3) : Option DotType :=
  match c.toNat with
  | 0 => some .f16
  | 1 => some .bf16
  | 2 => some .e4m3
  | 3 => some .e5m2
  | 4 => some .s8
  | 5 => some .z8
  | 6 => some .s8z8
  | _ => none

/-- The code of R107. -/
def ShflMode.code : ShflMode → BitVec 2
  | .idx => 0
  | .up => 1
  | .dn => 2
  | .xor => 3

/-- The reading of a code of R107; none where it is unassigned. -/
def ShflMode.ofCode (c : BitVec 2) : Option ShflMode :=
  match c.toNat with
  | 0 => some .idx
  | 1 => some .up
  | 2 => some .dn
  | 3 => some .xor
  | _ => none

/-- The code of R107. -/
def ShflSeg.code : ShflSeg → BitVec 2
  | .w32 => 0
  | .w16 => 1
  | .w8 => 2
  | .w4 => 3

/-- The reading of a code of R107; none where it is unassigned. -/
def ShflSeg.ofCode (c : BitVec 2) : Option ShflSeg :=
  match c.toNat with
  | 0 => some .w32
  | 1 => some .w16
  | 2 => some .w8
  | 3 => some .w4
  | _ => none

/-- The code of R108. -/
def VoteOp.code : VoteOp → BitVec 3
  | .all => 0
  | .any => 1
  | .uni => 2
  | .ballot => 3
  | .mtch => 4

/-- The reading of a code of R108; none where it is unassigned. -/
def VoteOp.ofCode (c : BitVec 3) : Option VoteOp :=
  match c.toNat with
  | 0 => some .all
  | 1 => some .any
  | 2 => some .uni
  | 3 => some .ballot
  | 4 => some .mtch
  | _ => none

/-- The code of R109. -/
def WredOp.code : WredOp → BitVec 5
  | .addB32 => 0
  | .addS32sat => 1
  | .addZ32sat => 2
  | .minS32 => 3
  | .minZ32 => 4
  | .maxS32 => 5
  | .maxZ32 => 6
  | .andB32 => 7
  | .orB32 => 8
  | .xorB32 => 9
  | .faddF32 => 10
  | .fminF32 => 11
  | .fmaxF32 => 12
  | .minidxS32 => 13
  | .minidxZ32 => 14
  | .maxidxS32 => 15
  | .maxidxZ32 => 16

/-- The reading of a code of R109; none where it is unassigned. -/
def WredOp.ofCode (c : BitVec 5) : Option WredOp :=
  match c.toNat with
  | 0 => some .addB32
  | 1 => some .addS32sat
  | 2 => some .addZ32sat
  | 3 => some .minS32
  | 4 => some .minZ32
  | 5 => some .maxS32
  | 6 => some .maxZ32
  | 7 => some .andB32
  | 8 => some .orB32
  | 9 => some .xorB32
  | 10 => some .faddF32
  | 11 => some .fminF32
  | 12 => some .fmaxF32
  | 13 => some .minidxS32
  | 14 => some .minidxZ32
  | 15 => some .maxidxS32
  | 16 => some .maxidxZ32
  | _ => none

/-- The code of R111. -/
def PlogOp.code : PlogOp → BitVec 3
  | .and => 0
  | .or => 1
  | .xor => 2
  | .andn => 3
  | .orn => 4
  | .not => 5

/-- The reading of a code of R111; none where it is unassigned. -/
def PlogOp.ofCode (c : BitVec 3) : Option PlogOp :=
  match c.toNat with
  | 0 => some .and
  | 1 => some .or
  | 2 => some .xor
  | 3 => some .andn
  | 4 => some .orn
  | 5 => some .not
  | _ => none

/-- The code of R112. -/
def XmovKind.code : XmovKind → BitVec 4
  | .vv => 0
  | .vs => 1
  | .sv => 2
  | .ss => 3
  | .pv => 4
  | .vp => 5
  | .sp => 6
  | .ts => 7
  | .st => 8
  | .tt => 9

/-- The reading of a code of R112; none where it is unassigned. -/
def XmovKind.ofCode (c : BitVec 4) : Option XmovKind :=
  match c.toNat with
  | 0 => some .vv
  | 1 => some .vs
  | 2 => some .sv
  | 3 => some .ss
  | 4 => some .pv
  | 5 => some .vp
  | 6 => some .sp
  | 7 => some .ts
  | 8 => some .st
  | 9 => some .tt
  | _ => none

/-- The code of R200. -/
def AtomOp.code : AtomOp → BitVec 4
  | .add => 0
  | .and => 1
  | .or => 2
  | .xor => 3
  | .exch => 4
  | .cas => 5
  | .minS => 6
  | .minZ => 7
  | .maxS => 8
  | .maxZ => 9
  | .fadd => 10
  | .fmin => 11
  | .fmax => 12

/-- The reading of a code of R200; none where it is unassigned. -/
def AtomOp.ofCode (c : BitVec 4) : Option AtomOp :=
  match c.toNat with
  | 0 => some .add
  | 1 => some .and
  | 2 => some .or
  | 3 => some .xor
  | 4 => some .exch
  | 5 => some .cas
  | 6 => some .minS
  | 7 => some .minZ
  | 8 => some .maxS
  | 9 => some .maxZ
  | 10 => some .fadd
  | 11 => some .fmin
  | 12 => some .fmax
  | _ => none

/-- The code of R206. -/
def CopyFn.code : CopyFn → BitVec 3
  | .raw => 0
  | .cvt => 1
  | .cvtSat => 2
  | .pack => 3
  | .zero => 4

/-- The reading of a code of R206; none where it is unassigned. -/
def CopyFn.ofCode (c : BitVec 3) : Option CopyFn :=
  match c.toNat with
  | 0 => some .raw
  | 1 => some .cvt
  | 2 => some .cvtSat
  | 3 => some .pack
  | 4 => some .zero
  | _ => none

/-- The code of R311. -/
def BlendOp.code : BlendOp → BitVec 2
  | .rep => 0
  | .over => 1
  | .add => 2
  | .mul => 3

/-- The reading of a code of R311; none where it is unassigned. -/
def BlendOp.ofCode (c : BitVec 2) : Option BlendOp :=
  match c.toNat with
  | 0 => some .rep
  | 1 => some .over
  | 2 => some .add
  | 3 => some .mul
  | _ => none

/-- The code of R81. -/
def Rnd.code : Rnd → BitVec 3
  | .dflt => 0
  | .rn => 4
  | .rz => 5
  | .rp => 6
  | .rm => 7

/-- The reading of a code of R81; none where it is unassigned. -/
def Rnd.ofCode (c : BitVec 3) : Option Rnd :=
  match c.toNat with
  | 0 => some .dflt
  | 4 => some .rn
  | 5 => some .rz
  | 6 => some .rp
  | 7 => some .rm
  | _ => none

/-- The code of R192. -/
def LdKind.code : LdKind → BitVec 3
  | .z8 => 0
  | .s8 => 1
  | .z16 => 2
  | .s16 => 3
  | .b32 => 4
  | .b64 => 5
  | .b128 => 6

/-- The reading of a code of R192; none where it is unassigned. -/
def LdKind.ofCode (c : BitVec 3) : Option LdKind :=
  match c.toNat with
  | 0 => some .z8
  | 1 => some .s8
  | 2 => some .z16
  | 3 => some .s16
  | 4 => some .b32
  | 5 => some .b64
  | 6 => some .b128
  | _ => none

/-- The code of R192. -/
def StKind.code : StKind → BitVec 3
  | .b8 => 0
  | .b16 => 2
  | .b32 => 4
  | .b64 => 5
  | .b128 => 6

/-- The reading of a code of R192; none where it is unassigned. -/
def StKind.ofCode (c : BitVec 3) : Option StKind :=
  match c.toNat with
  | 0 => some .b8
  | 2 => some .b16
  | 4 => some .b32
  | 5 => some .b64
  | 6 => some .b128
  | _ => none

/-- The code of R32. -/
def SReg.code : SReg → BitVec 7
  | .lane => 0
  | .tid => 1
  | .wid => 2
  | .gid => 3
  | .core => 4
  | .grove => 5
  | .die => 6
  | .lvl => 7
  | .clock => 8
  | .ts => 9
  | .cause => 10
  | .trappc => 11
  | .traplanes => 12
  | .trapmask => 13
  | .age => 14
  | .budget => 15
  | .deadline => 16
  | .job => 17
  | .profile => 18
  | .lscap => 19
  | .fpstat => 20
  | .rmode => 21
  | .winbase => 22

/-- The reading of a code of R32; none where it is unassigned. -/
def SReg.ofCode (c : BitVec 7) : Option SReg :=
  match c.toNat with
  | 0 => some .lane
  | 1 => some .tid
  | 2 => some .wid
  | 3 => some .gid
  | 4 => some .core
  | 5 => some .grove
  | 6 => some .die
  | 7 => some .lvl
  | 8 => some .clock
  | 9 => some .ts
  | 10 => some .cause
  | 11 => some .trappc
  | 12 => some .traplanes
  | 13 => some .trapmask
  | 14 => some .age
  | 15 => some .budget
  | 16 => some .deadline
  | 17 => some .job
  | 18 => some .profile
  | 19 => some .lscap
  | 20 => some .fpstat
  | 21 => some .rmode
  | 22 => some .winbase
  | _ => none

/-! ### The fields of a word (R41) -/

/-- The five fields of the R format; the other formats read them together. -/
structure Fields where
  op : BitVec 6
  d : BitVec 7
  a : BitVec 7
  b : BitVec 7
  m : BitVec 5
  deriving DecidableEq, Repr

/-- The fields of a word (R41). -/
def Fields.ofWord (w : Word) : Fields where
  op := w.extractLsb' 26 6
  d := w.extractLsb' 19 7
  a := w.extractLsb' 12 7
  b := w.extractLsb' 5 7
  m := w.extractLsb' 0 5

/-- The word of five fields (R41). -/
def Fields.toWord (f : Fields) : Word := f.op ++ f.d ++ f.a ++ f.b ++ f.m

/-- imm12 of the I format (R41). -/
def Fields.imm12 (f : Fields) : BitVec 12 := f.b ++ f.m
/-- imm19 of the L format and disp19 of the B format (R41). -/
def Fields.imm19 (f : Fields) : BitVec 19 := f.a ++ f.b ++ f.m

/-- An I-format word's fields. -/
def Fields.i (op : BitVec 6) (d a : BitVec 7) (imm : BitVec 12) : Fields :=
  ⟨op, d, a, imm.extractLsb' 5 7, imm.extractLsb' 0 5⟩
/-- An L-format or B-format word's fields. -/
def Fields.l (op : BitVec 6) (d : BitVec 7) (imm : BitVec 19) : Fields :=
  ⟨op, d, imm.extractLsb' 12 7, imm.extractLsb' 5 7, imm.extractLsb' 0 5⟩

/-- Bit i of a field. -/
def fbit {n : Nat} (x : BitVec n) (i : Nat) : Bool := x.getLsbD i
/-- A field of one bit. -/
def bit1 (b : Bool) : BitVec 1 := BitVec.ofBool b

/-- What a decoder answers: an instruction, or the reason of the refusal. -/
abbrev Dec := Except Reject Instr

/-- A required reading of a code. -/
def need {α : Type} (x : Option α) (k : α → Dec) : Dec :=
  match x with
  | some a => k a
  | none => .error .unassignedSubcode
/-- A field that must be zero (R46 check 3). -/
def zero {n : Nat} (x : BitVec n) (k : Dec) : Dec := if x = 0 then k else .error .reservedField
/-- A uniform register field (R25). -/
def uni (x : BitVec 7) (k : BitVec 6 → Dec) : Dec :=
  if fbit x 6 then .error .uniformRange else k (x.extractLsb' 0 6)
/-- A predicate register field (R25). -/
def pred (x : BitVec 7) (k : BitVec 4 → Dec) : Dec :=
  if x.extractLsb' 4 3 = 0 then k (x.extractLsb' 0 4) else .error .predicateRange
/-- A token field: [5:0] a uniform register, [6] NOTOK (spec/05, the instructions; R205, R299). With NOTOK set, bits
[5:0] are accepted at any value and name nothing: the spec does not say (log 74). -/
def token (x : BitVec 7) : Token := if fbit x 6 then none else some (x.extractLsb' 0 6)
/-- A meld operand: the MELD bit and d[6:4], which is zero without it (R138-R140). -/
def meldOp (x : Bool) (k : BitVec 3) (f : MeldOp → Dec) : Dec :=
  if x then f (some k) else zero k (f none)
/-- A 6-bit field below a reserved bit. -/
def low6 (x : BitVec 7) (k : BitVec 6 → Dec) : Dec :=
  if fbit x 6 then .error .reservedField else k (x.extractLsb' 0 6)

/-! ### The decoders of the majors (R44) -/

/-- SYS (R390). -/
def decSys (f : Fields) : Dec :=
  let sel (k : Sel → Dec) : Dec :=
    match SReg.ofCode f.a with
    | none => .error .selector
    | some r => zero (f.b.extractLsb' 3 3) (k ⟨r, f.b.extractLsb' 0 3, fbit f.b 6⟩)
  let none3 (i : Instr) : Dec := zero f.d (zero f.a (zero f.b (.ok i)))
  match f.m.toNat with
  | 1 => none3 .nop
  | 2 => zero f.d (zero f.a (.ok (.brk f.b)))
  | 3 => zero f.d (zero f.a (.ok (.trap f.b)))
  | 4 => zero f.d (zero f.a (.ok (.trapEsc f.b)))
  | 5 => none3 .tret
  | 6 => sel fun s => .ok (.mfs f.d s)
  | 7 => sel fun s => .ok (.mts f.d s)
  | 8 => zero f.d (zero f.b (uni f.a fun a => .ok (.causeclr a)))
  | 9 => none3 .icinv
  | 10 => none3 .halt
  | _ => .error .unassignedSubcode

/-- T of an integer major (R80, R87). -/
def itype (f : Fields) (k : IType → Dec) : Dec := need (IType.ofCode (f.m.extractLsb' 3 2)) k
/-- F of a floating-point major (R97). -/
def ffmt (f : Fields) (k : FFmt → Dec) : Dec := need (FFmt.ofCode (f.m.extractLsb' 3 2)) k
/-- RND in m[2:0] (R81, R97). -/
def rnd (f : Fields) (k : Rnd → Dec) : Dec := need (Rnd.ofCode (f.m.extractLsb' 0 3)) k
/-- Bits [hi:lo] of m that must be zero. -/
def mzero (f : Fields) (lo len : Nat) (k : Dec) : Dec := zero (f.m.extractLsb' lo len) k

/-- The integer majors 0x01-0x0B (R87). -/
def decInt (f : Fields) : Dec :=
  match f.op.toNat with
  | 0x01 => mzero f 0 2 (itype f fun t => .ok (.iadd t (fbit f.m 2) f.d f.a f.b))
  | 0x02 => mzero f 0 2 (itype f fun t => .ok (.isub t (fbit f.m 2) f.d f.a f.b))
  | 0x03 => mzero f 0 1 (itype f fun t => .ok (.imul t (fbit f.m 2) (fbit f.m 1) f.d f.a f.b))
  | 0x04 => mzero f 0 1 (itype f fun t => .ok (.imad t (fbit f.m 2) (fbit f.m 1) f.d f.a f.b))
  | 0x05 => mzero f 0 2 (itype f fun t => .ok (.imnx t (fbit f.m 2) f.d f.a f.b))
  | 0x06 => mzero f 4 1 (need (LogicFn.ofCode (f.m.extractLsb' 0 3)) fun n =>
      .ok (.logic n (fbit f.m 3) f.d f.a f.b))
  | 0x07 => mzero f 3 2 (need (ShiftFn.ofCode (f.m.extractLsb' 0 2)) fun n =>
      .ok (.shift n (fbit f.m 2) f.d f.a f.b))
  | 0x08 => mzero f 4 1 (need (BitsFn.ofCode (f.m.extractLsb' 0 3)) fun n =>
      .ok (.bits n (fbit f.m 3) f.d f.a f.b))
  | 0x09 => itype f fun t => need (Cmp.ofCode (f.m.extractLsb' 0 3)) fun c =>
      pred f.d fun d => .ok (.iset c t d f.a f.b)
  | 0x0A => .ok (.sel (fbit f.m 4) (f.m.extractLsb' 0 4) f.d f.a f.b)
  | 0x0B => mzero f 4 1 (.ok (.lea (fbit f.m 3) (f.m.extractLsb' 0 3) f.d f.a f.b))
  | _ => .error .unassignedSubcode

/-- The floating-point majors 0x12-0x1B (R97, R102, R104-R106). -/
def decFloat (f : Fields) : Dec :=
  match f.op.toNat with
  | 0x12 => ffmt f fun t => rnd f fun r => .ok (.fadd t r f.d f.a f.b)
  | 0x13 => ffmt f fun t => rnd f fun r => .ok (.fmul t r f.d f.a f.b)
  | 0x14 => ffmt f fun t => rnd f fun r => .ok (.ffma t r f.d f.a f.b)
  | 0x15 => ffmt f fun t => need (FmnxFn.ofCode (f.m.extractLsb' 0 3)) fun n =>
      .ok (.fmnx t n f.d f.a f.b)
  | 0x16 => ffmt f fun t => need (FCmp.ofCode (f.m.extractLsb' 0 3)) fun c =>
      pred f.d fun d => .ok (.fset t c d f.a f.b)
  | 0x17 => need (CvtType.ofCode (f.m.extractLsb' 0 4)) fun dst =>
      need (CvtType.ofCode (f.b.extractLsb' 0 4)) fun src =>
      need (Rnd.ofCode (f.b.extractLsb' 4 3)) fun r => .ok (.fcvt dst src (fbit f.m 4) r f.d f.a)
  | 0x18 => need (SfuFn.ofCode (f.m.extractLsb' 0 4)) fun n => .ok (.sfu (fbit f.m 4) n f.d f.a f.b)
  | 0x19 => ffmt f fun t => rnd f fun r => zero f.b (.ok (.frnd t r f.d f.a))
  | 0x1A => need (Hop2Op.ofCode (f.m.extractLsb' 2 2)) fun o =>
      need (Hop2Rnd.ofCode (f.m.extractLsb' 0 2)) fun r =>
      .ok (.hop2 (fbit f.m 4) o r f.d f.a f.b)
  | 0x1B => mzero f 4 1 (need (DotType.ofCode (f.m.extractLsb' 0 3)) fun t =>
      .ok (.dot t (fbit f.m 3) f.d f.a f.b))
  | _ => .error .unassignedSubcode

/-- The cross-lane, predicate and move majors 0x1C-0x20 (R107-R112). -/
def decCross (f : Fields) : Dec :=
  match f.op.toNat with
  | 0x1C => need (ShflMode.ofCode (f.m.extractLsb' 0 2)) fun md =>
      need (ShflSeg.ofCode (f.m.extractLsb' 3 2)) fun w =>
      if fbit f.m 2 then zero (f.b.extractLsb' 5 2) (.ok (.shfl md w f.d f.a (.imm (f.b.extractLsb' 0 5))))
      else .ok (.shfl md w f.d f.a (.reg f.b))
  | 0x1D => mzero f 4 1 (need (VoteOp.ofCode (f.m.extractLsb' 0 3)) fun o =>
      zero f.b (.ok (.vote o (fbit f.m 3) f.d f.a)))
  | 0x1E => need (WredOp.ofCode f.m) fun o => uni f.d fun d => .ok (.wred o d f.a f.b)
  | 0x1F => mzero f 3 2 (need (PlogOp.ofCode (f.m.extractLsb' 0 3)) fun o =>
      pred f.d fun d => pred f.a fun a => pred f.b fun b => .ok (.plog o d a b))
  | 0x20 => need (XmovKind.ofCode (f.m.extractLsb' 0 4)) fun k =>
      zero f.b (.ok (.xmov k (fbit f.m 4) f.d f.a))
  | _ => .error .unassignedSubcode

/-- MELD (R137). -/
def decMeld (f : Fields) : Dec :=
  let k3 (x : BitVec 7) (g : BitVec 3 → Dec) : Dec := zero (x.extractLsb' 3 4) (g (x.extractLsb' 0 3))
  match f.m.toNat with
  | 1 => zero f.b (k3 f.d fun k => uni f.a fun a => .ok (.meldDecl k a))
  | 2 => zero f.b (k3 f.d fun k => .ok (.meldSign k (token f.a)))
  | 3 => zero f.b (zero f.a (k3 f.d fun k => .ok (.meldCancel k)))
  | 4 => zero f.b (k3 f.a fun k => uni f.d fun d => .ok (.meldQry d k))
  | _ => .error .unassignedSubcode

/-- A tile register in [4:0], [6:5] reserved (R138, R140, R142, R205, R306). -/
def tile (x : BitVec 7) (k : BitVec 5 → Dec) : Dec := zero (x.extractLsb' 5 2) (k (x.extractLsb' 0 5))

/-- LDW (R138). -/
def decLdw (f : Fields) : Dec :=
  let mk := meldOp (fbit f.m 0) (f.d.extractLsb' 4 3)
  mzero f 3 2 (zero (f.d.extractLsb' 0 4)
    (match (f.m.extractLsb' 1 2).toNat with
     | 0 => tile f.a fun t => mk fun m => .ok (.ldw t (token f.b) m)
     | 1 => zero f.a (mk fun m => .ok (.ldwSwap (token f.b) m))
     | _ => .error .unassignedSubcode))

/-- MSTR (R139). -/
def decMstr (f : Fields) : Dec :=
  mzero f 2 3 (zero (f.a.extractLsb' 6 1) (meldOp (fbit f.m 0) (f.d.extractLsb' 4 3) fun mk =>
    .ok (.mstr (f.d.extractLsb' 0 4) (f.a.extractLsb' 0 5) (fbit f.a 5) (fbit f.m 1) (token f.b) mk)))

/-- ACC (R140). -/
def decAcc (f : Fields) : Dec :=
  let c := f.d.extractLsb' 0 4
  let mk := meldOp (fbit f.m 4) (f.d.extractLsb' 4 3)
  mzero f 3 1 (match (f.m.extractLsb' 0 3).toNat with
    | 1 => zero f.a (zero f.b (mk fun k => .ok (.accAcq c k)))
    | 2 => zero f.a (zero f.b (mk fun k => .ok (.accRel c k)))
    | 3 => zero f.a (mk fun k => .ok (.accZ c (token f.b) k))
    | 4 => tile f.a fun t => mk fun k => .ok (.accRd c t (token f.b) k)
    | 5 => tile f.a fun t => mk fun k => .ok (.accWr c t (token f.b) k)
    | _ => .error .unassignedSubcode)

/-- TILE (R142). -/
def decTile (f : Fields) : Dec :=
  match f.m.toNat with
  | 1 => tile f.d fun t => uni f.a fun a => low6 f.b fun p => .ok (.tilePlane t a p)
  | 2 => zero f.b (tile f.d fun t => uni f.a fun a => .ok (.tileHnd t a))
  | 3 => zero f.b (tile f.d fun t => uni f.a fun a => .ok (.tileDim t a))
  | 4 => zero f.b (tile f.d fun t => uni f.a fun a => .ok (.tileAdv t a))
  | _ => .error .unassignedSubcode

/-- ACPY (R205). -/
def decAcpy (f : Fields) : Dec :=
  need (CopyFn.ofCode (f.m.extractLsb' 2 3)) fun n => tile f.d fun d => tile f.a fun a =>
    .ok (.acpy n (f.m.extractLsb' 0 2) d a (token f.b))

/-- TAG (R210). -/
def decTag (f : Fields) : Dec :=
  match f.m.toNat with
  | 1 => zero f.b (.ok (.tagLook f.d f.a))
  | 2 => zero f.d (.ok (.tagSet f.a f.b))
  | 3 => zero f.d (zero f.a (.ok (.tagInv f.b)))
  | 4 => zero f.a (.ok (.tagRd f.d f.b))
  | 5 => zero f.d (.ok (.tagWr f.a f.b))
  | _ => .error .unassignedSubcode

/-- FENC (R213). -/
def decFenc (f : Fields) : Dec :=
  match f.m.toNat with
  | 1 => zero f.d (zero f.a (zero f.b (.ok .fencM)))
  | 2 => zero f.d (zero f.a (low6 f.b fun q => .ok (.fencQImm q)))
  | 3 => zero f.d (zero f.b (uni f.a fun a => .ok (.fencQReg a)))
  | 4 => zero f.d (zero f.b (uni f.a fun a => .ok (.fencR a)))
  | 5 => zero f.d (uni f.a fun a => low6 f.b fun b => .ok (.fencRcommit a b))
  | _ => .error .unassignedSubcode

/-- FUT (R203). -/
def decFut (f : Fields) : Dec :=
  match f.m.toNat with
  | 1 => .ok (.futFill f.d f.a f.b)
  | 2 => zero f.b (.ok (.futWait f.d f.a))
  | 3 => zero f.b (.ok (.futTake f.d f.a))
  | 4 => zero f.d (zero f.b (.ok (.futClr f.a)))
  | _ => .error .unassignedSubcode

/-- The memory majors 0x26-0x31 (spec/08). -/
def decMem (f : Fields) : Dec :=
  match f.op.toNat with
  | 0x26 => need (LdKind.ofCode (f.imm12.extractLsb' 9 3)) fun k => .ok (.ld k f.d f.a (f.imm12.extractLsb' 0 9))
  | 0x27 => need (StKind.ofCode (f.imm12.extractLsb' 9 3)) fun k => .ok (.st k f.d f.a (f.imm12.extractLsb' 0 9))
  | 0x28 => need (LdKind.ofCode (f.m.extractLsb' 0 3)) fun k => .ok (.ldx k (fbit f.m 3) (fbit f.m 4) f.d f.a f.b)
  | 0x29 => need (StKind.ofCode (f.m.extractLsb' 0 3)) fun k => .ok (.stx k (fbit f.m 3) (fbit f.m 4) f.d f.a f.b)
  | 0x2A => .ok (.lde (f.m.extractLsb' 0 4) (fbit f.m 4) f.d f.a f.b)
  | 0x2B => .ok (.ste (f.m.extractLsb' 0 4) (fbit f.m 4) f.d f.a f.b)
  | 0x2C => need (AtomOp.ofCode (f.m.extractLsb' 0 4)) fun o => .ok (.atom o (fbit f.m 4) f.d f.a f.b)
  | 0x2D => decAcpy f
  | 0x2E => decTag f
  | 0x2F => match f.m.toNat with
    | 1 => .ok (.splfSt f.d f.a f.b)
    | 2 => .ok (.splfLd f.d f.a f.b)
    | _ => .error .unassignedSubcode
  | 0x30 => decFenc f
  | 0x31 => decFut f
  | _ => .error .unassignedSubcode

/-- BRA (R43, R287): c is the d field of the word. -/
def decBra (f : Fields) : Dec :=
  let sense := fbit f.d 6
  let p := f.d.extractLsb' 0 4
  match (f.d.extractLsb' 4 2).toNat with
  | 0 => .ok (.braPred sense p f.imm19)
  | 1 => .ok (.braU sense p f.imm19)
  | 2 => if sense then .error .condition else if p = 0 then .ok (.bra f.imm19) else .error .condition
  | _ => .error .condition

/-- JMPR (R289). -/
def decJmpr (f : Fields) : Dec :=
  mzero f 2 3 (zero f.b (if fbit f.m 0 then .ok (.jmprLink (fbit f.m 1) f.d f.a)
    else zero f.d (.ok (.jmpr (fbit f.m 1) f.a))))

/-- THRD (R290). -/
def decThrd (f : Fields) : Dec :=
  let none3 (i : Instr) : Dec := zero f.d (zero f.a (zero f.b (.ok i)))
  match f.m.toNat with
  | 1 => uni f.a fun a => .ok (.spawn f.d a f.b)
  | 2 => none3 .reform
  | 3 => none3 .rcv
  | 4 => none3 .exit
  | 5 => none3 .yield
  | 6 => zero f.d (uni f.a fun a => uni f.b fun b => .ok (.handoff a b))
  | _ => .error .unassignedSubcode

/-- BAR (R295). -/
def decBar (f : Fields) : Dec :=
  if f.m.toNat < 8 then zero f.d (zero f.a (zero f.b (.ok (.bar (f.m.extractLsb' 0 3)))))
  else if f.m.toNat = 8 then zero f.d (zero f.b (.ok (.syncw f.a)))
  else if f.m.toNat = 9 then zero f.d (zero f.b (uni f.a fun a => .ok (.syncwU a)))
  else .error .unassignedSubcode

/-- BANK (R298). -/
def decBank (f : Fields) : Dec :=
  match f.m.toNat with
  | 1 => zero f.d (zero f.b (uni f.a fun a => .ok (.acqB a)))
  | 2 => zero f.b (uni f.d fun d => uni f.a fun a => .ok (.acqT d a))
  | 3 => zero f.d (zero f.b (uni f.a fun a => .ok (.rel a)))
  | 4 => zero f.a (zero f.b (uni f.d fun d => .ok (.qry d)))
  | _ => .error .unassignedSubcode

/-- ENG (R299). -/
def decEng (f : Fields) : Dec :=
  let fork (g : BitVec 6 → BitVec 6 → Token → Instr) : Dec :=
    low6 f.d fun w => uni f.a fun a => .ok (g w a (token f.b))
  match f.m.toNat with
  | 1 => fork .forkMx
  | 2 => fork .forkCp
  | 3 => fork .forkBoth
  | 4 => zero f.d (zero f.a (zero (f.b.extractLsb' 3 4) (.ok (.rdv (f.b.extractLsb' 0 3)))))
  | 5 => zero f.d (zero f.b (uni f.a fun a => .ok (.tq a)))
  | _ => .error .unassignedSubcode

/-- TAPE (R401). -/
def decTape (f : Fields) : Dec :=
  match f.m.toNat with
  | 1 => uni f.d fun d => uni f.a fun a => uni f.b fun b => .ok (.tapeArm d a b)
  | 2 => zero f.a (uni f.d fun d => uni f.b fun b => .ok (.tapeOff d b))
  | 3 => zero f.a (uni f.d fun d => uni f.b fun b => .ok (.tapeQry d b))
  | _ => .error .unassignedSubcode

/-- GFX (R306). -/
def decGfx (f : Fields) : Dec :=
  let p4 (g : BitVec 4 → Dec) : Dec := zero (f.b.extractLsb' 4 3) (g (f.b.extractLsb' 0 4))
  match (f.m.extractLsb' 0 3).toNat with
  | 1 => mzero f 3 2 (uni f.a fun a => .ok (.bin f.d a f.b))
  | 2 => mzero f 3 2 (p4 fun p => .ok (.pld f.d f.a p))
  | 3 => mzero f 3 2 (p4 fun p => .ok (.pst f.d f.a p))
  | 4 => tile f.a fun t => .ok (.sample (fbit f.m 4) (fbit f.m 3) f.d t f.b)
  | 5 => zero f.d (need (BlendOp.ofCode (f.m.extractLsb' 3 2)) fun o => .ok (.blend o f.a f.b))
  | 6 => mzero f 3 2 (zero f.d (zero f.a (zero f.b (.ok .tdone))))
  | 7 => mzero f 3 2 (zero f.d (uni f.a fun a => .ok (.dcmp a f.b)))
  | _ => .error .unassignedSubcode

/-- PIPE (R305). -/
def decPipe (f : Fields) : Dec :=
  zero f.a (zero (f.b.extractLsb' 3 4) (match f.m.toNat with
    | 1 => zero f.d (.ok (.pipeMap (f.b.extractLsb' 0 3)))
    | 2 => zero f.d (.ok (.pipeUnmap (f.b.extractLsb' 0 3)))
    | 3 => uni f.d fun d => .ok (.pipeQry d (f.b.extractLsb' 0 3))
    | _ => .error .unassignedSubcode))

/-- The remaining majors 0x32-0x3E (R44). -/
def decCtl (f : Fields) : Dec :=
  match f.op.toNat with
  | 0x32 => decBra f
  | 0x33 => decJmpr f
  | 0x34 => .ok (.call f.d f.imm19)
  | 0x35 => decThrd f
  | 0x36 => decBar f
  | 0x37 => zero f.d (zero (f.imm19.extractLsb' 7 12) (.ok (.wbase (f.imm19.extractLsb' 0 7))))
  | 0x38 => zero f.d (zero (f.imm19.extractLsb' 12 7)
      (.ok (.rpf (f.imm19.extractLsb' 0 7) (f.imm19.extractLsb' 7 5))))
  | 0x39 => decBank f
  | 0x3A => decEng f
  | 0x3B => if f.m = 1 then .ok (.enq f.d f.a f.b) else .error .unassignedSubcode
  | 0x3C => decTape f
  | 0x3D => decGfx f
  | 0x3E => decPipe f
  | _ => .error .reservedMajor

/-- The instruction the fields denote, before the checks of `Instr.reject` (R44). -/
def decodeFields (f : Fields) : Dec :=
  if f.op.toNat = 0 then decSys f
  else if f.op.toNat < 0x0C then decInt f
  else if f.op.toNat < 0x12 then
    match f.op.toNat with
    | 0x0C => .ok (.iaddi f.d f.a f.imm12)
    | 0x0D => .ok (.andi f.d f.a f.imm12)
    | 0x0E => .ok (.ori f.d f.a f.imm12)
    | 0x0F => .ok (.xori f.d f.a f.imm12)
    | 0x10 => .ok (.movl f.d f.imm19)
    | _ => .ok (.lui f.d f.imm19)
  else if f.op.toNat < 0x1C then decFloat f
  else if f.op.toNat < 0x21 then decCross f
  else
    match f.op.toNat with
    | 0x21 => decMeld f
    | 0x22 => decLdw f
    | 0x23 => decMstr f
    | 0x24 => decAcc f
    | 0x25 => decTile f
    | _ => if f.op.toNat < 0x32 then decMem f else decCtl f

/-- The decoder: fields, then the static check of the instruction they denote (R46). -/
def decode (w : Word) : Dec :=
  match decodeFields (Fields.ofWord w) with
  | .error r => .error r
  | .ok i => match i.reject with
    | some r => .error r
    | none => .ok i

/-! ### The encoder -/

/-- A uniform field (R25). -/
def eU (x : BitVec 6) : BitVec 7 := 0#1 ++ x
/-- A predicate field (R25). -/
def eP (x : BitVec 4) : BitVec 7 := 0#3 ++ x
/-- A tile register field. -/
def eT (x : BitVec 5) : BitVec 7 := 0#2 ++ x
/-- A token field. -/
def eTok : Token → BitVec 7
  | some s => 0#1 ++ s
  | none => 64
/-- d of an engine operation: meld number over the accumulator (R138-R140). -/
def eMeld (mk : MeldOp) (c : BitVec 4) : BitVec 7 := mk.getD 0 ++ c
/-- The MELD bit. -/
def eMk (mk : MeldOp) : BitVec 1 := bit1 mk.isSome
/-- A meld number field (R137). -/
def eK (k : BitVec 3) : BitVec 7 := 0#4 ++ k
/-- b of MFS and MTS (R390). -/
def Sel.bField (s : Sel) : BitVec 7 := bit1 s.w64 ++ 0#3 ++ s.inst

/-- The fields of an instruction; none for a step that is no word. -/
def fields : Instr → Option Fields
  | .nop => some ⟨0x00, 0, 0, 0, 1⟩
  | .brk c => some ⟨0x00, 0, 0, c, 2⟩
  | .trap c => some ⟨0x00, 0, 0, c, 3⟩
  | .trapEsc c => some ⟨0x00, 0, 0, c, 4⟩
  | .tret => some ⟨0x00, 0, 0, 0, 5⟩
  | .mfs d s => some ⟨0x00, d, s.reg.code, s.bField, 6⟩
  | .mts d s => some ⟨0x00, d, s.reg.code, s.bField, 7⟩
  | .causeclr a => some ⟨0x00, 0, eU a, 0, 8⟩
  | .icinv => some ⟨0x00, 0, 0, 0, 9⟩
  | .halt => some ⟨0x00, 0, 0, 0, 10⟩
  | .iadd t s d a b => some ⟨0x01, d, a, b, t.code ++ bit1 s ++ 0#2⟩
  | .isub t s d a b => some ⟨0x02, d, a, b, t.code ++ bit1 s ++ 0#2⟩
  | .imul t s h d a b => some ⟨0x03, d, a, b, t.code ++ bit1 s ++ bit1 h ++ 0#1⟩
  | .imad t s w d a b => some ⟨0x04, d, a, b, t.code ++ bit1 s ++ bit1 w ++ 0#1⟩
  | .imnx t m d a b => some ⟨0x05, d, a, b, t.code ++ bit1 m ++ 0#2⟩
  | .logic n w d a b => some ⟨0x06, d, a, b, 0#1 ++ bit1 w ++ n.code⟩
  | .shift n w d a b => some ⟨0x07, d, a, b, 0#2 ++ bit1 w ++ n.code⟩
  | .bits n w d a b => some ⟨0x08, d, a, b, 0#1 ++ bit1 w ++ n.code⟩
  | .iset c t d a b => some ⟨0x09, eP d, a, b, t.code ++ c.code⟩
  | .sel i p d a b => some ⟨0x0A, d, a, b, bit1 i ++ p⟩
  | .lea g s d a b => some ⟨0x0B, d, a, b, 0#1 ++ bit1 g ++ s⟩
  | .iaddi d a i => some (.i 0x0C d a i)
  | .andi d a i => some (.i 0x0D d a i)
  | .ori d a i => some (.i 0x0E d a i)
  | .xori d a i => some (.i 0x0F d a i)
  | .movl d i => some (.l 0x10 d i)
  | .lui d i => some (.l 0x11 d i)
  | .fadd f r d a b => some ⟨0x12, d, a, b, f.code ++ r.code⟩
  | .fmul f r d a b => some ⟨0x13, d, a, b, f.code ++ r.code⟩
  | .ffma f r d a b => some ⟨0x14, d, a, b, f.code ++ r.code⟩
  | .fmnx f n d a b => some ⟨0x15, d, a, b, f.code ++ n.code⟩
  | .fset f c d a b => some ⟨0x16, eP d, a, b, f.code ++ c.code⟩
  | .fcvt dst src s r d a => some ⟨0x17, d, a, r.code ++ src.code, bit1 s ++ dst.code⟩
  | .sfu h n d a b => some ⟨0x18, d, a, b, bit1 h ++ n.code⟩
  | .frnd f r d a => some ⟨0x19, d, a, 0, f.code ++ r.code⟩
  | .hop2 bf o r d a b => some ⟨0x1A, d, a, b, bit1 bf ++ o.code ++ r.code⟩
  | .dot t s d a b => some ⟨0x1B, d, a, b, 0#1 ++ bit1 s ++ t.code⟩
  | .shfl md w d a (.reg b) => some ⟨0x1C, d, a, b, w.code ++ 0#1 ++ md.code⟩
  | .shfl md w d a (.imm k) => some ⟨0x1C, d, a, 0#2 ++ k, w.code ++ 1#1 ++ md.code⟩
  | .vote o n d a => some ⟨0x1D, d, a, 0, 0#1 ++ bit1 n ++ o.code⟩
  | .wred o d a b => some ⟨0x1E, eU d, a, b, o.code⟩
  | .plog o d a b => some ⟨0x1F, eP d, eP a, eP b, 0#2 ++ o.code⟩
  | .xmov k w d a => some ⟨0x20, d, a, 0, bit1 w ++ k.code⟩
  | .meldDecl k a => some ⟨0x21, eK k, eU a, 0, 1⟩
  | .meldSign k t => some ⟨0x21, eK k, eTok t, 0, 2⟩
  | .meldCancel k => some ⟨0x21, eK k, 0, 0, 3⟩
  | .meldQry d k => some ⟨0x21, eU d, eK k, 0, 4⟩
  | .ldw t tk mk => some ⟨0x22, eMeld mk 0, eT t, eTok tk, 0#4 ++ eMk mk⟩
  | .ldwSwap tk mk => some ⟨0x22, eMeld mk 0, 0, eTok tk, 0#2 ++ 1#2 ++ eMk mk⟩
  | .mstr c t g i tk mk => some ⟨0x23, eMeld mk c, 0#1 ++ bit1 g ++ t, eTok tk, 0#3 ++ bit1 i ++ eMk mk⟩
  | .accAcq c mk => some ⟨0x24, eMeld mk c, 0, 0, eMk mk ++ 1#4⟩
  | .accRel c mk => some ⟨0x24, eMeld mk c, 0, 0, eMk mk ++ 2#4⟩
  | .accZ c tk mk => some ⟨0x24, eMeld mk c, 0, eTok tk, eMk mk ++ 3#4⟩
  | .accRd c t tk mk => some ⟨0x24, eMeld mk c, eT t, eTok tk, eMk mk ++ 4#4⟩
  | .accWr c t tk mk => some ⟨0x24, eMeld mk c, eT t, eTok tk, eMk mk ++ 5#4⟩
  | .tilePlane t a p => some ⟨0x25, eT t, eU a, eU p, 1⟩
  | .tileHnd t a => some ⟨0x25, eT t, eU a, 0, 2⟩
  | .tileDim t a => some ⟨0x25, eT t, eU a, 0, 3⟩
  | .tileAdv t a => some ⟨0x25, eT t, eU a, 0, 4⟩
  | .ld k d a o => some (.i 0x26 d a (k.code ++ o))
  | .st k d a o => some (.i 0x27 d a (k.code ++ o))
  | .ldx k ub ua d a b => some ⟨0x28, d, a, b, bit1 ua ++ bit1 ub ++ k.code⟩
  | .stx k ub ua d a b => some ⟨0x29, d, a, b, bit1 ua ++ bit1 ub ++ k.code⟩
  | .lde nf h d a b => some ⟨0x2A, d, a, b, bit1 h ++ nf⟩
  | .ste nf s d a b => some ⟨0x2B, d, a, b, bit1 s ++ nf⟩
  | .atom o w d a b => some ⟨0x2C, d, a, b, bit1 w ++ o.code⟩
  | .acpy n q d a tk => some ⟨0x2D, eT d, eT a, eTok tk, n.code ++ q⟩
  | .tagLook d a => some ⟨0x2E, d, a, 0, 1⟩
  | .tagSet a b => some ⟨0x2E, 0, a, b, 2⟩
  | .tagInv b => some ⟨0x2E, 0, 0, b, 3⟩
  | .tagRd d b => some ⟨0x2E, d, 0, b, 4⟩
  | .tagWr a b => some ⟨0x2E, 0, a, b, 5⟩
  | .splfSt d a k => some ⟨0x2F, d, a, k, 1⟩
  | .splfLd d a k => some ⟨0x2F, d, a, k, 2⟩
  | .fencM => some ⟨0x30, 0, 0, 0, 1⟩
  | .fencQImm q => some ⟨0x30, 0, 0, eU q, 2⟩
  | .fencQReg a => some ⟨0x30, 0, eU a, 0, 3⟩
  | .fencR a => some ⟨0x30, 0, eU a, 0, 4⟩
  | .fencRcommit a b => some ⟨0x30, 0, eU a, eU b, 5⟩
  | .futFill d a b => some ⟨0x31, d, a, b, 1⟩
  | .futWait d a => some ⟨0x31, d, a, 0, 2⟩
  | .futTake d a => some ⟨0x31, d, a, 0, 3⟩
  | .futClr a => some ⟨0x31, 0, a, 0, 4⟩
  | .bra i => some (.l 0x32 0x20 i)
  | .braPred s p i => some (.l 0x32 (bit1 s ++ 0#2 ++ p) i)
  | .braU s p i => some (.l 0x32 (bit1 s ++ 1#2 ++ p) i)
  | .jmpr u a => some ⟨0x33, 0, a, 0, 0#3 ++ bit1 u ++ 0#1⟩
  | .jmprLink u d a => some ⟨0x33, d, a, 0, 0#3 ++ bit1 u ++ 1#1⟩
  | .call d i => some (.l 0x34 d i)
  | .spawn d a b => some ⟨0x35, d, eU a, b, 1⟩
  | .reform => some ⟨0x35, 0, 0, 0, 2⟩
  | .rcv => some ⟨0x35, 0, 0, 0, 3⟩
  | .exit => some ⟨0x35, 0, 0, 0, 4⟩
  | .yield => some ⟨0x35, 0, 0, 0, 5⟩
  | .handoff a b => some ⟨0x35, 0, eU a, eU b, 6⟩
  | .bar k => some ⟨0x36, 0, 0, 0, 0#2 ++ k⟩
  | .syncw a => some ⟨0x36, 0, a, 0, 8⟩
  | .syncwU a => some ⟨0x36, 0, eU a, 0, 9⟩
  | .wbase n => some (.l 0x37 0 (0#12 ++ n))
  | .rpf s c => some (.l 0x38 0 (0#7 ++ c ++ s))
  | .acqB a => some ⟨0x39, 0, eU a, 0, 1⟩
  | .acqT d a => some ⟨0x39, eU d, eU a, 0, 2⟩
  | .rel a => some ⟨0x39, 0, eU a, 0, 3⟩
  | .qry d => some ⟨0x39, eU d, 0, 0, 4⟩
  | .forkMx w a tk => some ⟨0x3A, eU w, eU a, eTok tk, 1⟩
  | .forkCp w a tk => some ⟨0x3A, eU w, eU a, eTok tk, 2⟩
  | .forkBoth w a tk => some ⟨0x3A, eU w, eU a, eTok tk, 3⟩
  | .rdv n => some ⟨0x3A, 0, 0, eK n, 4⟩
  | .tq a => some ⟨0x3A, 0, eU a, 0, 5⟩
  | .enq d a b => some ⟨0x3B, d, a, b, 1⟩
  | .tapeArm d a b => some ⟨0x3C, eU d, eU a, eU b, 1⟩
  | .tapeOff d b => some ⟨0x3C, eU d, 0, eU b, 2⟩
  | .tapeQry d b => some ⟨0x3C, eU d, 0, eU b, 3⟩
  | .bin d a b => some ⟨0x3D, d, eU a, b, 1⟩
  | .pld d a p => some ⟨0x3D, d, a, eP p, 2⟩
  | .pst d a p => some ⟨0x3D, d, a, eP p, 3⟩
  | .sample c l d t b => some ⟨0x3D, d, eT t, b, bit1 c ++ bit1 l ++ 4#3⟩
  | .blend o a b => some ⟨0x3D, 0, a, b, o.code ++ 5#3⟩
  | .tdone => some ⟨0x3D, 0, 0, 0, 6⟩
  | .dcmp a b => some ⟨0x3D, 0, eU a, b, 7⟩
  | .pipeMap k => some ⟨0x3E, 0, 0, eK k, 1⟩
  | .pipeUnmap k => some ⟨0x3E, 0, 0, eK k, 2⟩
  | .pipeQry d k => some ⟨0x3E, eU d, 0, eK k, 3⟩
  | _ => none

/-- The word of an instruction; none for a step that is no word. -/
def encode (i : Instr) : Option Word := (fields i).map Fields.toWord

/-! ### Reading words from bytes -/

/-- A word of four bytes, the first at the lowest address (R40). -/
def wordOfBytes (b0 b1 b2 b3 : Byte) : Word := b3 ++ b2 ++ b1 ++ b0
/-- The four bytes of a word, in address order (R40). -/
def bytesOfWord (w : Word) : List Byte :=
  [w.extractLsb' 0 8, w.extractLsb' 8 8, w.extractLsb' 16 8, w.extractLsb' 24 8]

/-- The instruction read from bytes: one 32-bit word, whatever the first four bytes are; the rest
of the bytes with it. Fewer than four bytes hold no word. -/
def decodeBytes : List Byte → Except Reject (Instr × List Byte)
  | b0 :: b1 :: b2 :: b3 :: rest => match decode (wordOfBytes b0 b1 b2 b3) with
    | .ok i => .ok (i, rest)
    | .error r => .error r
  | _ => .error .limit

/-- The instruction the decoder reads from the opcode table's word `w` of `nbits` bits: the bits
above are zero, and every instruction is one word (R40). -/
def decodeTableWord (nbits w : Nat) : Option Instr :=
  match decodeBytes (bytesOfWord (BitVec.ofNat 32 (w % 2 ^ nbits))) with
  | .ok (i, _) => some i
  | .error _ => none

end Sys2Proof
end

