-- ==== Sys2Proof/Config.lean ====
section
/-! DEFINITION. What an implementation fixes, and the free values: what the spec leaves open.
A free value is an opaque constant with no body, applied to the step counter `State.stepNo` (log 1). -/

namespace Sys2Proof.Config

/-- A free choice of the source values alone: a number nothing constrains (log 44). -/
opaque freeOf : (values : List Nat) → (salt : Nat) → Nat

/-- A free choice: a number nothing constrains, for the step `n` and the purpose `salt` (log 1). -/
opaque freeNat : (n salt : Nat) → Nat

/-- TS periods that pass during step `n`: the phase and rate between steps are open (R15, log 3). -/
opaque tsAdvance : (n : Nat) → Nat

/-- Whether the host accepts the access to its address `a` during step `n` (R147, log 7). -/
opaque hostAccepts : (n a : Nat) → Bool

/-- Whether the peer `endpoint` exports byte `off` to the module of endpoint `own` for the access kind during
step `n` (R148, log 7). -/
opaque peerAccepts : (n : Nat) → (own : BitVec 18) → (endpoint off : Nat) → (write : Bool) → Bool

/-- The flits of a traffic class that a link's receiver holds when it reaches its pause threshold, less one (R386, log 59). -/
opaque pauseAt : (cls : Nat) → Nat

/-- Bases root firmware fixes at boot (R266, R316, R148, R329, R344); log 5. -/
def queueTable : Nat := 0x017FFE000000
def contextTable : Nat := 0x017FFE100000
def apertureTable : Nat := 0x017FFE800000
def exportTable : Nat := 0x017FFE801000
def poolBase : Nat := 0x017FF0000000
def poolSlots : Nat := 8
/-- The management area lies in the top 16 MiB of device LPDDR (R439). -/
def mgmtArea : Nat := 0x017FFF000000

/-- The digest of a boot image as the measurement log records it (R324); log 6. -/
opaque bootDigest : (image : Nat) → BitVec 512
/-- The version counter of a boot image (R323, R324); log 6. -/
opaque bootVersion : (image : Nat) → Nat
/-- The signature of a boot image passes (R323); log 6. -/
opaque bootSigned : (image : Nat) → Bool
/-- The fused anti-rollback counter (R323); log 6. -/
opaque antiRollback : Nat
/-- The fused device's certificate chain, slot 0 (R325); log 8. -/
opaque certificate : List (BitVec 8)
/-- The SHA-512 digest of a message (R325); log 8. -/
opaque sha512 : (msg : List (BitVec 8)) → BitVec 512
/-- A signature by the device-identity key over `msg` (R325); log 8. -/
opaque sign : (msg : List (BitVec 8)) → List (BitVec 8)
/-- The module's own Rolik endpoint identifier, from the carrier's pins (R328); log 5. -/
opaque ownEndpoint : BitVec 18

end Sys2Proof.Config
end

