-- ==== Sys2Proof/Machine/State.lean ====
section
/-! DEFINITION. The state of the NYM-9840 as plain data, the reasons a step can stop, and the state
after reset. INVENTORY.md '## State' lists every piece with the rule that names it. -/

namespace Sys2Proof.Machine

/-- A sparse table: keys strictly rising, an absent key at the table's default. -/
abbrev Sparse (α : Type) := List (Nat × α)

/-! ### Threads and warps (spec/09 R217, R218) -/

/-- The wait states of R240, each with what its end needs. -/
inductive Wait where
  /-- not waiting -/
  | none
  /-- at an RCV (R241); the address is the thread's pc -/
  | rcv
  /-- arrived at BAR.Lk (R234), with whether the arrival is counted: one in a unit above the core is when its
  message arrives (R236) -/
  | bar (k : Nat) (counted : Bool)
  /-- arrived at SYNCW with its mask (R237) -/
  | syncw (m : Mask)
  /-- at FUT.WAIT (take = false) or FUT.TAKE with its d and a fields (R204) -/
  | fut (take : Bool) (d a : BitVec 7)
  /-- at a blocking Banker request (R252) -/
  | bank
  /-- at RDV n, with the order of the RDV among all arrivals (R301) -/
  | rdv (n stamp : Nat)
  /-- at TDONE (R312) -/
  | tdone
  /-- at ICINV (R398) -/
  | icinv
  /-- at FENC.R with its list address, until its cleaning `id` is acknowledged (R183) -/
  | fencR (id list : Nat)
  /-- on pipe registers (R37, R39): the instruction, the pipes it names, and the step of its latest attempt -/
  | pipe (i : Instr) (ks : List Nat) (stamp : Nat)
  /-- at an instruction that is tried again: ACC.ACQ (R124), SPLF.st (R212), FENC.Q (R175), BLEND (R311); with the
  step of its set's latest attempt, which keeps the sets at one address apart -/
  | retry (i : Instr) (stamp : Nat)
  deriving DecidableEq, Repr

/-- The identity of a fragment thread (R281). -/
structure Frag where
  q : Nat
  seq : Nat
  deriving DecidableEq, Repr

/-- A thread, by its thread slot (R217). -/
structure Thread where
  pc : Addr
  tid : Word
  lvl : List Word
  fpstat : BitVec 5
  rmode : BitVec 2
  winbase : BitVec 7
  /-- physical vector registers, sparse, default 0 (R248) -/
  vr : Sparse Word
  /-- predicates; bit 0 is never read (R29) -/
  pr : BitVec 16
  /-- poisoned vector registers (R381, R382) -/
  vpoison : List Nat
  /-- vector registers awaiting a remote ENQ's result (R304) -/
  vpend : List Nat
  wait : Wait
  frag : Option Frag
  deriving DecidableEq, Repr

/-- A primitive as submitted (R307, R308). -/
structure Prim where
  s : Nat
  record : BitVec 512
  deriving DecidableEq, Repr

/-- What BIN reads of a draw (R308). -/
structure DrawRead where
  desc : BitVec 2048
  record : BitVec 1024
  torders : List Nat
  forders : List Nat
  deriving DecidableEq, Repr

/-- A lane of a BIN that is stalled on a full buffer, with what its issue read (R277, R308). -/
structure BinLane where
  lane : Nat
  /-- the draw it waits for, and the address of the descriptor -/
  draw : Nat
  addr : Nat
  /-- what was read, or the cause that the lane raises -/
  read : Option (DrawRead × Prim)
  cause : Nat
  deriving DecidableEq, Repr

/-- A parked sub-warp (R332). -/
structure Sub where
  /-- TRAPLANES -/
  lanes : Mask
  cause : Word
  /-- TRAPPC -/
  pc : Addr
  /-- the handler has issued an instruction (R346 class 0x0A) -/
  begun : Bool
  deriving DecidableEq, Repr

/-- What a path that is stalled at issue waits for (R238-R240). -/
inductive Stall where
  /-- a token or a result of its warp that is still to be written (R38, R131) -/
  | token
  /-- room in the matrix queue (R172) -/
  | matrix
  /-- room in a copy queue (R172) -/
  | copy (q : Nat)
  /-- the matrix or the copy sequencer, still running an earlier fork (R300) -/
  | seq (copy : Bool)
  /-- what a step of the package may end: a page being moved (R321), a link (R386), a full buffer of an LCE (R277) -/
  | other
  deriving DecidableEq, Repr

/-- A TQ that is stalled on a full queue: its address, the lanes of its path, and the operations it has entered
(R172, R302). -/
structure TqStall where
  pc : Addr
  lanes : Mask
  made : Nat
  deriving DecidableEq, Repr

/-- A warp slot of a group (R218). -/
structure Warp where
  wid : Nat
  /-- lane to thread slot; none for a free or absent lane -/
  lanes : List (Option Nat)
  /-- uniform registers, sparse, default 0 -/
  ur : Sparse Word
  /-- tile registers, sparse, default 0 (R30) -/
  tr : Sparse Desc
  upoison : List Nat
  /-- the warp's own CAUSE (R333) -/
  cause : Word
  trappc : Addr
  trapmask : Word
  age : Word
  /-- CLOCK capture (R33) -/
  cap : Option DWord
  /-- path age of each lane, sparse, default 0 (R239) -/
  ages : Sparse Nat
  /-- the clock in which the warp last issued (R239) -/
  issuedAt : Option Nat
  subs : List Sub
  /-- token registers not yet written (R131, R40) -/
  upend : List Nat
  /-- tokens written with a failure not yet raised: register and cause bit (R132) -/
  failTok : List (Nat × Nat)
  /-- pending token registers some instruction has stalled on (R132) -/
  upstall : List Nat
  /-- token registers that hold a written token: a read sets the sync flag (R365) -/
  tokw : List Nat
  /-- failures of operations that named no token: lanes and cause bit (R132) -/
  failLanes : List (Mask × Nat)
  /-- causes of the failed plane reloads, for the first instruction after a restore (R135) -/
  firstFail : Word
  /-- BUDGET to be delivered at the next issue (R270, R337) -/
  budgetDue : Bool
  /-- the BUDGET bit in CAUSE is that of the deferred event, not one that a TRET carried over: it moves with the event
  (R336, R337) -/
  budgetMoves : Bool
  /-- prefetched set of the fast operand buffer (R36, R297) -/
  rpf : Nat × Nat
  /-- order of the last launch of the slot (R238) -/
  stamp : Nat
  /-- the sets of lanes stepped by a TRET with SSTEP (R339) -/
  stepping : List Mask
  /-- the recorder's sync flag (R365) -/
  sync : Bool
  /-- clocks the ready warp has been passed over (R239) -/
  passed : Nat
  /-- lanes of the set being issued that waited before (R365) -/
  waited : Mask
  /-- the lanes whose path was stalled at its last issue, and what it waits for (R238-R240) -/
  stalls : List (Mask × Stall)
  /-- lanes of a BIN that is stalled on a full buffer (R277, R280, R308) -/
  binStall : List BinLane
  /-- the stalled TQs of the warp's paths (R172, R302) -/
  tqs : List TqStall
  deriving DecidableEq, Repr

/-! ### Groups (spec/05 R127, spec/09, spec/10, spec/11) -/

/-- A holding or a claim (R245, R247): VREG in units of 8, SREG in units of 16. -/
structure Hold where
  vreg : Nat
  sreg : Nat
  pages : Nat
  slots : Nat
  plane : Nat
  deriving DecidableEq, Repr

/-- A token register of a warp slot; register 64 stands for one that was released while the token was pending (R248). -/
abbrev Tok := Nat × Nat

/-- An engine operation with what it captured (R126, R127). -/
structure Op where
  instr : Instr
  /-- the tile descriptor it names, or the destination of a copy -/
  desc : Desc
  /-- the source of a copy -/
  src : Desc
  deriving DecidableEq, Repr

/-- What stands in a signed set for a thread that has exited: no thread slot has the number (R127). -/
def noThread : Nat := 1024

/-- A meld register (R127). -/
structure Meld where
  opened : Bool
  expect : Nat
  /-- thread slots that have signed; a thread that has exited since stands as `noThread` (R175) -/
  signed : List Nat
  op : Option Op
  toks : List Tok
  /-- lanes that signed, by warp slot, for R132 -/
  lanes : List (Nat × Mask)
  deriving DecidableEq, Repr

/-- A declared pipe of a gang (R272). While it is mapped, both members' registers of the range hold the
same values; it stays with the core until the gang ends (R434). -/
structure Pipe where
  gang : Nat
  /-- pipe number -/
  k : Nat
  src : Nat
  dst : Nat
  fstart : Nat
  tstart : Nat
  count : Nat
  /-- mapped warp slots with the full lanes of each register, by register index -/
  maps : Sparse (Sparse Mask)
  deriving DecidableEq, Repr

/-- An owned screen tile (R279, R281, R312). -/
structure Own where
  draw : Nat
  tile : Nat
  final : Bool
  /-- the visibility wave has run -/
  visDone : Bool
  /-- fragments still to be spawned: pixel q, record index, entry, sequence number, pixel number -/
  pending : List (Nat × Addr × Nat × Nat)
  /-- the shading wave has been set out -/
  waveDone : Bool
  /-- TDONE has been issued (R312) -/
  tdone : Bool
  /-- the ownership has ended: its group owns no tile any more (R312) -/
  closed : Bool
  /-- virtual address of the draw descriptor (R346) -/
  addr : Nat
  /-- engine entries that TDONE waits for, taken when its threads are all in (R312) -/
  drain : Option (List Nat)
  /-- a reload of a PARTIAL tile still to be made (R279) -/
  reload : Bool
  /-- the address a fault stopped the reload at (R133) -/
  stopped : Option Nat
  deriving DecidableEq, Repr

/-- Why a gang is stopping (R338, R341, R348, R373). -/
structure Stop where
  reason : Nat
  cause : Word
  pc : Addr
  /-- DISP of the image to be written: 1 enters it again by itself (R293), 2 kills it (R341) -/
  disp : Nat
  /-- the clock of the reason, and the member it came from (R353) -/
  clk : Nat
  member : Nat
  deriving DecidableEq, Repr

/-! ### Engine entries -/

/-- A weight plane (R113): format code, extents, elements with their block and superblock scales
as stored bits, row k by row, and the descriptor of the LDW (R135). -/
structure Plane where
  fmt : Nat
  kw : Nat
  nw : Nat
  elems : List (List (Nat × Nat × Nat))
  desc : Desc
  deriving DecidableEq, Repr

/-- Who an engine entry answers to when it ends. -/
inductive Origin where
  /-- issued or signed by lanes of warp slots (R132) -/
  | lanes (l : List (Nat × Mask))
  /-- entered by the matrix or the copy sequencer of a fork (R274) -/
  | seq (fork : Nat) (copy : Bool)
  /-- entered by a replay, with its command's index (R371, R373) -/
  | replay (r idx : Nat)
  deriving DecidableEq, Repr

/-- What the probe of a copy has found (R208): of source and destination the plane of a LAYOUT 2 tile (offset,
channels, format) and the format, and where a pack's blocks lie. -/
structure Probe where
  srcPlane : Option (Nat × Nat × Nat)
  dstPlane : Option (Nat × Nat × Nat)
  srcFmt : Nat
  dstFmt : Nat
  /-- the blocks that a pack writes, in order: unit base, unit size, number in the unit -/
  blocks : List (Nat × Nat × Nat)
  deriving DecidableEq, Repr

/-- An entry of the matrix queue or of a copy queue (R171). -/
structure Entry where
  eid : Nat
  gk : Nat
  op : Op
  toks : List Tok
  origin : Origin
  melded : Bool
  /-- thread slots that issued or signed it (R175) -/
  threads : List Nat
  /-- physical pages behind the group's logical pages when it entered (R154, R294) -/
  pages : List Nat
  /-- physical pages of the core that a copy names (R154) -/
  named : List Nat
  /-- copy queue number -/
  q : Nat
  /-- what the probe of a copy found, once it has passed (R208) -/
  probed : Option Probe
  /-- destination bytes of a copy done (R208) -/
  done : Nat
  /-- stopped on a translation fault at this address (R133) -/
  stopped : Option Nat
  deriving DecidableEq, Repr

/-- A resident group. -/
structure Group where
  /-- the group's key on the package -/
  gk : Nat
  gid : Word
  ctx : Nat
  sup : Bool
  /-- ROOT, HTAB and JTAB as read at admission (R316) -/
  root : Nat
  htab : Nat
  jtab : Nat
  /-- the task record as admitted (R262) -/
  record : BitVec 1024
  /-- key of the task; none for a tile group (R279) -/
  task : Option Nat
  /-- key of the gang: the members share it -/
  gang : Nat
  member : Nat
  /-- vector holding per thread and uniform holding per warp, in registers -/
  vh : Nat
  uh : Nat
  claim : Hold
  /-- physical page of each logical page (R149) -/
  pages : List Nat
  /-- matrix slots held, 0 being the plane slot (R123) -/
  slots : List Nat
  warps : List Warp
  /-- live threads by thread slot -/
  threads : Sparse Thread
  budget : Nat
  /-- the counter has raised BUDGET since it was last loaded (R270) -/
  budgetRaised : Bool
  spawnCount : BitVec 16
  melds : List Meld
  tile : Option Own
  stop : Option Stop
  /-- clock of its latest admission or re-entry (R280) -/
  entered : Nat
  /-- a replaying group has no thread (R369) -/
  replay : Bool
  /-- saved entries that wait for room in their queue after a restore (R135, R208) -/
  backlog : List Entry
  /-- planes still to be reloaded after a restore: shadow, descriptor, the address a fault stopped it at
  (R133, R135) -/
  planeLoads : List (Bool × Desc × Option Nat)
  deriving DecidableEq, Repr

/-! ### Cores -/

/-- A running engine-program sequencer (R274, R300). -/
structure Seq where
  gk : Nat
  wslot : Nat
  /-- program offset in the forking group's window -/
  off : Nat
  /-- entry index, 0xFFFF once the last entry has been performed -/
  idx : Nat
  /-- the current entry as it was read when it was reached; none before that (R300) -/
  cur : Option Nat
  /-- performances of the current entry still to be made; none before it is read -/
  rep : Option Nat
  copy : Bool
  /-- its fork within the group: the sequencers of one FORK.both share it -/
  fork : Nat
  /-- at the rendezvous with this number -/
  atRdv : Option Nat
  /-- finished, waiting for its partner -/
  finished : Bool
  /-- first failure's cause bit -/
  failed : Option Nat
  /-- token register; 64 for one that was released meanwhile (R248) -/
  tok : Option Nat
  w : Nat
  /-- lanes and thread slots that issued the FORK (R132, R175) -/
  lanes : Mask
  threads : List Nat
  /-- the forking warp's sync flag was set at the FORK (R365) -/
  fence : Bool
  /-- its program has passed a rendezvous (R365) -/
  met : Bool
  deriving DecidableEq, Repr

/-- A bin of the Shuffler (R223, R224). -/
structure Bin where
  /-- 0-63, or none for a group's mixed bin -/
  idx : Option Nat
  gk : Nat
  pc : Addr
  /-- thread slots in filing order, each with its order among all filings -/
  threads : List (Nat × Nat)
  timer : Nat
  /-- the timer has reached 0 -/
  expired : Bool
  deriving DecidableEq, Repr

/-- A waiting blocking request (R252). -/
structure Req where
  gk : Nat
  wslot : Nat
  lanes : Mask
  word : Word
  since : Nat
  isHead : Bool
  /-- the warp's sync flag was set at the request (R435) -/
  fence : Bool
  deriving DecidableEq, Repr

/-- A pending spill: the group's key and the bytes of its lanes, by memory key (R178). -/
structure Spill where
  gk : Nat
  cells : List (Nat × Word)
  deriving DecidableEq, Repr

/-- A core at other than its reset state. -/
structure Core where
  groups : List Group
  act : Option Plane
  shd : Option Plane
  /-- accumulator positions: 4096 a + 64 i + j, sparse, default 0 (R115, R123) -/
  acc : Sparse Word
  apoison : List Nat
  /-- ownership tokens held by groups: accumulator and group key (R124) -/
  owner : Sparse Nat
  mq : List Entry
  cq : List Entry
  seqs : List Seq
  bins : List Bin
  /-- tag entries by physical page, sparse, default 0 apart from PPN (R152) -/
  tags : Sparse DWord
  /-- physical pages whose tag entry is poisoned (R379, R381) -/
  tpoison : List Nat
  /-- physical pages and matrix slots being reclaimed (R254) -/
  recPages : List Nat
  recSlots : List Nat
  reqs : List Req
  /-- declared pipes of the resident gangs -/
  pipes : List Pipe
  spills : List Spill
  /-- ended groups whose vector granules stay held for a pipe partner: gang, member, granules (R434) -/
  linger : List (Nat × Nat × Nat)
  /-- steps before this one are behind the core's last restore barrier (R343, R399) -/
  fetchFloor : Nat
  /-- the warp each scheduler issued last (R238) -/
  last : Sparse Nat
  /-- the clock of the latest warp launch (R225) -/
  launched : Option Nat
  deriving DecidableEq, Repr

/-! ### The package -/

/-- The records that cross meeting point 2 (R20, R342). -/
inductive Event where
  | trap (r : BitVec 256)
  | complete (q index job : Nat)
  | tileEnd (draw tile : Nat)
  | job (ctx j : Nat)
  | refuse (q index : Nat)
  /-- a record, descriptor, ring, gate or signal held by the scheduler (R266, R268, R316, R382) -/
  | hold (q index : Nat)
  | tileHold (draw tile : Nat)
  | edge (q index : Nat) (cause : Word)
  | binStall (draw s : Nat)
  | flushStuck (draw s : Nat)
  | tileFault (draw tile cause : Nat)
  | rangeStage (img : Nat)
  | errorLog (seq : Nat)
  /-- an image that holds a poisoned unit stays in its slot (R382) -/
  | imageHold (slot : Nat)
  /-- a gang of a lost die was killed (R388) -/
  | killed (core gang : Nat)
  deriving DecidableEq, Repr

/-- A range entry (R156) is kept as its 256 bits. -/
abbrev RangeEntry := BitVec 256

/-- A range commit on its way (R158). -/
structure Commit where
  img : DWord
  ctx : Nat
  /-- the issuer's page-table root as read at its admission (R316) -/
  root : Nat
  core : Nat
  gk : Nat
  wslot : Nat
  /-- token register; 64 for one that was released meanwhile (R248) -/
  tok : Nat
  /-- image-pool slot and member once the issuer is swapped out (R160) -/
  saved : Option (Nat × Nat)
  /-- the verdict, once root firmware has checked it -/
  verdict : Option Word
  deriving DecidableEq, Repr

/-- An L2 copy of a line of host or peer memory (R180, R181). -/
structure EdgeLine where
  die : Nat
  /-- line number: address over 128 -/
  line : Nat
  /-- bytes held, by offset -/
  bytes : Sparse Byte
  /-- offsets written and not cleaned -/
  dirty : List Nat
  /-- 8-byte words of the copy that are poisoned, 0-15 (R380, R381) -/
  bad : List Nat
  deriving DecidableEq, Repr

/-- A cleaning whose acknowledgement is outstanding (R180, R184). -/
structure Clean where
  id : Nat
  /-- bytes on their way to the host or the peer -/
  bytes : List (Nat × Byte)
  /-- 8-byte units of the home that arrive poisoned, address over 8 (R381) -/
  bad : List Nat
  /-- lines to be invalidated when it is acknowledged -/
  inv : List Nat
  deriving DecidableEq, Repr

/-- A task whose record has been taken (R264, R267). -/
structure Task where
  key : Nat
  q : Nat
  index : Nat
  ctx : Nat
  lead : BitVec 1024
  /-- records of members 1-3 (R271) -/
  members : List (BitVec 1024)
  pipes : List Pipe
  /-- groups admitted, per member -/
  next : Nat
  /-- groups in the task, per member -/
  total : Nat
  /-- resident or swapped-out groups not yet ended -/
  live : Nat
  /-- 0 admitting or running; 1 cleaning; 2 after the completion record -/
  stage : Nat
  /-- the cleaning that stage 1 waits for -/
  cid : Nat
  deriving DecidableEq, Repr

/-- Tile states of R279. -/
inductive TileState where | unseen | binned | partialSaved | ownedFlush | ownedFinal | retired
  deriving DecidableEq, Repr

/-- A tile of a draw. -/
structure Tile where
  state : TileState
  /-- records committed since the tile's last flush, in commit order -/
  recs : List Prim
  /-- the pool blocks of its list, by number from POOL on, in the order taken: eight records each (R432) -/
  blocks : List Nat
  /-- it has been saved once: a later issue reloads (R279) -/
  saved : Bool
  deriving DecidableEq, Repr

/-- A flush in progress (R280, R433). -/
structure Flush where
  /-- tiles issued or to be issued for flush -/
  tiles : List Nat
  /-- tiles not yet issued -/
  todo : List Nat
  /-- the primitive and the tiles whose allocation is held -/
  prim : Prim
  held : List Nat
  since : Nat
  stuck : Bool
  deriving DecidableEq, Repr

/-- An accepted submission of a draw: its sequence number, the thread that submitted it (R277), and that
thread's task (R175). -/
structure Accepted where
  s : Nat
  gid : Word
  tid : Word
  task : Option Nat
  deriving DecidableEq, Repr

/-- A draw bound by its first accepted BIN (R275, R277). -/
structure Draw where
  key : Nat
  /-- virtual address of the descriptor -/
  addr : Nat
  ctx : Nat
  desc : BitVec 2048
  /-- TASK record as taken -/
  record : BitVec 1024
  /-- tile-order and flush-order tables as taken -/
  torders : List Nat
  forders : List Nat
  next : Nat
  accepted : List Accepted
  /-- uncommitted submissions: sequence number, die and record; die 8 marks one past the buffer -/
  buf : List (Nat × Nat × Prim)
  tiles : Sparse Tile
  used : Nat
  flush : Option Flush
  since : Nat
  killed : Bool
  /-- virtual address in the pool at which the LCEs stand on a translation fault, its event record sent (R133, R322) -/
  stopped : Option Nat
  deriving DecidableEq, Repr

/-- A replaying gang (R369-R376). -/
structure Replay where
  key : Nat
  core : Nat
  gang : Nat
  /-- grove and tape whose USERS it holds; none once restored from an image -/
  store : Option (Nat × Nat)
  /-- header, guards, patch slots: 384 bytes as read at launch or from the image -/
  header : List Byte
  /-- the commands' bytes from index `first` on -/
  cmds : List Byte
  first : Nat
  /-- next command to enter -/
  e : Nat
  count : Nat
  nir : Bool
  /-- entered ENG commands not yet completed -/
  open_ : Nat
  /-- a command waits on a fault at this address, its event record sent (R371) -/
  waitOn : Option Nat
  /-- the cleaning that an RFENCE waits for -/
  clean : Option Nat
  /-- an acquire has been requested of the Banker -/
  asked : Bool
  /-- an ENQ awaits a remote acknowledgement -/
  pushing : Bool
  /-- poisoned 8-byte units of a tape read from an image, counted from the tape's header on (R376, R382) -/
  bad : List Nat
  deriving DecidableEq, Repr

/-- A recording gang (R363). -/
structure Recorder where
  gang : Nat
  grove : Nat
  tape : Nat
  task : Nat
  deriving DecidableEq, Repr

/-- The die-to-die link of a compute die (R387). -/
inductive DLink where
  | up | asleep | waking | unresponsive | lost
  deriving DecidableEq, Repr

/-- A host request that needs an answer from a compute die (R168, R387). -/
inductive HeldReq where
  /-- a snoop of a line of host memory -/
  | snoop (line : Nat)
  | read (addr len : Nat)
  | write (addr : Nat) (bytes : List Byte)
  deriving DecidableEq, Repr

/-- A compute die (R438, R387). -/
structure Die where
  want : PState
  /-- forced D1 by temperature -/
  hot : Bool
  link : DLink
  /-- host requests held by the base die -/
  held : List HeldReq
  /-- TS of the first answer that the unresponsive die missed (R387, R389) -/
  missed : Option Nat
  /-- TS at which the wake of a waking die started (R387) -/
  woken : Option Nat
  deriving DecidableEq, Repr

/-- A flit that has been sent and not yet acknowledged (R385, R386). -/
structure Flit where
  seq : Nat
  cls : TClass
  /-- the times it has been sent again -/
  resent : Nat
  deriving DecidableEq, Repr

/-- One link's sender and receiver (R385, R386). -/
structure LinkState where
  id : Link
  /-- sequence number of the next new flit -/
  next : Nat
  /-- the replay buffer: every flit sent and not yet acknowledged, oldest first -/
  buf : List Flit
  /-- TS of the latest acknowledgement, or of the oldest flit sent since -/
  acked : Nat
  /-- paused classes, each with the TS of its PAUSE -/
  paused : List (TClass × Nat)
  /-- sequence number the receiver expects next -/
  expect : Nat
  /-- flits that are on the wire to the receiver, in the order sent -/
  wire : List Nat
  /-- the receiver's buffers: the class of each flit taken and not yet drained, oldest first -/
  held : List TClass
  /-- classes for which the receiver has sent PAUSE and not yet RESUME -/
  stopped : List TClass
  down : Bool
  deriving DecidableEq, Repr

/-- A remote push awaiting its acknowledgement (R267, R304). -/
structure Push where
  endpoint : BitVec 18
  q : Nat
  record : BitVec 1024
  ctx : Nat
  /-- the issuer's page-table root and job table, as read at its admission (R267, R316) -/
  root : Nat
  jtab : Nat
  core : Nat
  gk : Nat
  slot : Nat
  /-- physical destination register -/
  d : Nat
  /-- warp slot, source address and queue word, for its recording (R363) -/
  wslot : Nat
  src : Nat
  qword : Nat
  /-- the thread that issued it lives and holds its destination register (R222, R248) -/
  live : Bool
  /-- the answer: taken (true), or refused, as one lost with its link is (R267, R328); none while it is awaited. An
  answered push stays while the job entry it counts in is being moved (R321) -/
  answer : Option Bool
  deriving DecidableEq, Repr

/-- A request at meeting point 3 (R21): POWER_STATE, PREEMPTION, QUIESCE, and the end of a quiesce. -/
inductive Request where
  | power (die : Nat) (p : PState)
  | preempt (scope : Scope)
  | quiesce
  | quiesceEnd
  /-- a die that is forced no more returns to its requested state (R438) -/
  | follow (die : Nat)
  deriving DecidableEq, Repr

/-- The directory operations of R357 as a TAPE word sends them (R402). -/
inductive TapeKind where
  | arm (base cap : Nat) (blk : BitVec 256)
  | off
  | query
  deriving DecidableEq, Repr

/-- A directory operation that a TAPE word has sent to its grove's Talon (R402). -/
structure TapeOp where
  grove : Nat
  tape : Nat
  kind : TapeKind
  core : Nat
  gk : Nat
  wslot : Nat
  /-- first destination register; 64 once it was released (R248) -/
  d : Nat
  deriving DecidableEq, Repr

/-- A pre-emption in progress: cores still to acknowledge (R349). -/
structure Preempt where
  cores : List Nat
  /-- address space that the request named, 0 for none -/
  ctx : Nat
  /-- what was asked to stop: no tile of it is issued meanwhile (R348) -/
  scopes : List Scope
  deriving DecidableEq, Repr

/-- What the device keeps of a member whose state an image holds: the image has no place for it, and where
the image has one, its bytes count (R343, R258, log 30). -/
structure SavedMember where
  /-- the group as it left: task, tile, fragments, stepping, failures not yet raised, barrier arrivals -/
  group : Group
  /-- its sequencers: the lanes of the FORK -/
  seqs : List Seq
  /-- its queued entries in image order: whom they answer to -/
  entries : List Entry
  deriving DecidableEq, Repr

/-- An image of the pool that a gang's state was written to (R341). -/
structure Saved where
  slot : Nat
  pipes : List Pipe
  /-- the members that had not ended -/
  members : List SavedMember
  deriving DecidableEq, Repr

/-- The requests the SPDM responder answers (R325). -/
inductive SpdmRequest where
  | getVersion | getCapabilities | negotiateAlgorithms | getDigests | getCertificate | challenge | getMeasurements
  deriving DecidableEq, Repr

/-- An entry of the measurement log (R324). -/
structure LogEntry where
  stage : Nat
  version : Nat
  digest : BitVec 512
  deriving DecidableEq, Repr

/-- Answers of the root mailbox (R326). -/
inductive MailAnswer where
  | log (entries : List LogEntry)
  | done
  | fw (status : Nat)
  | status (stage : Nat) (recovery : Option Nat) (lastCommit : Word)
  | refused
  deriving DecidableEq, Repr

/-- What the SPDM responder answers (R325), apart from the signature. -/
inductive SpdmBody where
  | versions (l : List Nat)
  /-- the requests that are answered -/
  | capabilities (l : List SpdmRequest)
  /-- bits of the one RSASSA key, and bits of the one SHA-2 digest, that are offered -/
  | algorithms (rsassa sha : Nat)
  /-- slot and SHA-512 digest of its chain -/
  | digests (l : List (Nat × BitVec 512))
  | certificate (slot : Nat) (chain : List Byte)
  | challengeAuth (nonce : List Byte)
  | measurements (l : List LogEntry)
  | unsupportedRequest
  deriving DecidableEq, Repr

/-- An answer of the SPDM responder with root firmware's signature (R325). -/
structure SpdmAnswer where
  body : SpdmBody
  signature : List Byte
  deriving DecidableEq, Repr

/-- Answers to host and peer requests for memory (R382, R387, R329). -/
inductive HostAnswer where
  | data (bytes : List Byte) (poison : Bool)
  | ack
  | wakePending
  | refused
  deriving DecidableEq, Repr

/-- Where an error is found as data passes a boundary (R379, R380). -/
inductive ErrAt where
  /-- an 8-byte word of a line in L2 (2) or L3 (3), of the local store (1) or of the Talon store (5) -/
  | word (store key : Nat)
  /-- a block of LPDDR -/
  | block (key : Nat)
  /-- a vector register of a thread: core, group, thread slot, physical register -/
  | vector (core gk slot n : Nat)
  /-- a uniform register of a warp slot -/
  | uniform (core gk slot n : Nat)
  /-- an accumulator position of a core -/
  | accum (core pos : Nat)
  /-- a tag entry of a core, by physical page -/
  | tag (core page : Nat)
  /-- a flit of a link, or of the host link (none): the receiver drops it, and it is sent again (R379, R385) -/
  | link (l : Option Link)
  deriving DecidableEq, Repr

/-- What moves next: a step of the table, an issue of a warp's path, or what befalls a store (log 2). -/
inductive Mover where
  | event (i : Instr)
  /-- a check finds an error, correctable or not (R380, R384) -/
  | found (at_ : ErrAt) (uncorr : Bool)
  /-- a line of device LPDDR is written back or evicted (R442) -/
  | evict (line : Nat)
  /-- boot stage 0, 2, 3 or 4 does not come to its end, or is sound again (R437) -/
  | bootFault (stage : Option Nat)
  | issue (core wid : Nat) (lanes : Mask)
  /-- a set that waits at an instruction which is tried again makes its next attempt (R39, R124, R175, R212, R311) -/
  | retry (core wid : Nat) (lanes : Mask)
  deriving DecidableEq, Repr

/-- The issuing set of the instruction being executed (R50, R238). -/
structure Issue where
  core : Nat
  wid : Nat
  lanes : Mask
  pc : Addr
  deriving DecidableEq, Repr

/-- The state of the package. -/
structure State where
  /-- every store, one list in canonical form (Machine/Mem.lean) -/
  mem : List Host.Cell
  /-- poisoned 8-byte units: memory key over 8, rising (R381, R442) -/
  poison : List Nat
  /-- lines of device LPDDR, key over 128, whose newest bytes a die's L2 may hold alone: the die that wrote last
  (R170, R387) -/
  owned : Sparse Nat
  /-- the last issuing set -/
  issue : Option Issue
  agenda : List Mover
  stepNo : Nat
  /-- words replaced since the last ICINV completion: address, step, old word (R399) -/
  stale : List (Nat × Nat × Word)
  clk : Nat
  ts : DWord
  cores : Sparse Core
  /-- range registers, sparse, default 0 (R156) -/
  ranges : Sparse RangeEntry
  rgen : Word
  commits : List Commit
  /-- upper SRAM dies present, bit d for compute die d (R10) -/
  upper : BitVec 8
  edge : List EdgeLine
  cleans : List Clean
  tasks : List Task
  draws : List Draw
  replays : List Replay
  recorders : List Recorder
  pushes : List Push
  /-- directory operations sent and not yet performed, oldest first (R402) -/
  tapeOps : List TapeOp
  events : List Event
  mp1Open : Bool
  preempt : Option Preempt
  /-- requests at meeting point 3 not yet taken, oldest first (R21) -/
  mp3 : List Request
  dies : List Die
  forcedCurrent : Bool
  forcedFlow : Bool
  powered : Bool
  links : List LinkState
  bootStage : Nat
  recovery : Option Nat
  /-- the stage, of 0, 2, 3 and 4, that does not come to its end at the next reset: set from outside (R437, log 6) -/
  bootFault : Option Nat
  mlog : List LogEntry
  /-- update images stored for the next reset, at most one of each kind (R326) -/
  staged : List FwImage
  lastCommit : Word
  verdictSeq : Word
  logSeq : Word
  /-- TS of the latest telemetry update (R439) -/
  telemetryAt : Nat
  mailOut : List MailAnswer
  spdmOut : List SpdmAnswer
  hostOut : List HostAnswer
  /-- pushes of peers that wait for a page being moved: sender, queue and record, in arrival order (R267, R321) -/
  heldPushes : List (BitVec 18 × BitVec 9 × List Byte)
  /-- the images that gangs of this module were written to (R341, R344) -/
  images : List Saved
  /-- order counters: keys of groups, gangs, tasks, entries and launches -/
  fresh : Nat
  deriving DecidableEq, Repr

/-! ### Why a step can stop -/

/-- Faults of a step. -/
inductive Fault where
  /-- An instruction was given to `exec` with no issuing set of live lanes selected: raised by every
  instruction word's meaning when `State.issue` is none or names no live lane. Step never does this:
  it selects the set first. Safe: the hardware issues nothing there. -/
  | noIssuingSet
  deriving DecidableEq, Repr

/-- Refusals of a step. -/
inductive Refusal where
  /-- the instruction has no meaning in this model yet: raised by an arm of exec only. Safe. -/
  | notModelled (mnemonic : String)
  deriving DecidableEq, Repr

/-! ### Reset (spec/23 R437) -/

/-- A compute die after reset: D0, link up (R438; log 6). -/
def Die.reset : Die := ⟨.d0, false, .up, [], none, none⟩

/-- Boot stage in which an image is verified and started (R323, R437). -/
def imageStage : BootImage → Nat
  | .secondStage => 1
  | .runtime | .talon | .scheduler => 4

/-- Number of a boot image in `Config`. -/
def imageNum : BootImage → Nat
  | .secondStage => 0
  | .runtime => 1
  | .talon => 2
  | .scheduler => 3

/-- The boot images in the order they run (R323). -/
def bootImages : List BootImage := [.secondStage, .runtime, .talon, .scheduler]

/-- The image the module carries. -/
def carriedImage (b : BootImage) : FwImage :=
  ⟨b, Config.bootVersion (imageNum b), Config.bootDigest (imageNum b), Config.bootSigned (imageNum b)⟩

/-- The log entry of an image: the stage number, its version counter and its digest (R324). -/
def imageEntry (i : FwImage) : LogEntry := ⟨imageStage i.which, i.version, i.digest⟩

/-- The measurement log after a boot of the images the module carries: one entry for each (R324). -/
def bootLog : List LogEntry := bootImages.map fun b => imageEntry (carriedImage b)

/-- The machine right after reset: stages 0 to 5 have ended with every image verified (log 6), and no task has been
admitted. TS, which counts from stage 0 (R15, R437), stands at 0 here: how many periods the stages take is open, and 0
is the model's choice (log 3). -/
def State.reset : State where
  mem := []
  poison := []
  owned := []
  issue := none
  agenda := []
  stepNo := 0
  stale := []
  clk := 0
  ts := 0
  cores := []
  ranges := []
  rgen := 0
  commits := []
  upper := 0xFF
  edge := []
  cleans := []
  tasks := []
  draws := []
  replays := []
  recorders := []
  pushes := []
  tapeOps := []
  events := []
  mp1Open := true
  preempt := none
  mp3 := []
  dies := List.replicate 8 Die.reset
  forcedCurrent := false
  forcedFlow := false
  powered := true
  links := []
  bootStage := 5
  recovery := none
  bootFault := none
  mlog := bootLog
  staged := []
  lastCommit := 0
  verdictSeq := 0
  logSeq := 0
  telemetryAt := 0
  mailOut := []
  spdmOut := []
  hostOut := []
  heldPushes := []
  images := []
  fresh := 1

end Sys2Proof.Machine
end

