-- ==== Sys2Proof/Machine/Bits.lean ====
section
/-! DEFINITION. Bit fields, signed readings, byte order and sparse tables (spec/02 R40, R55). -/

namespace Sys2Proof.Machine

/-- bits(x, hi, lo) of a natural number (R55). -/
def nbits (x hi lo : Nat) : Nat := (x >>> lo) % 2 ^ (hi + 1 - lo)

/-- Bit i of a natural number. -/
def nbit (x i : Nat) : Bool := (x >>> i) % 2 == 1

/-- sx(x, n) of a natural number (R55). -/
def sx (x n : Nat) : Int :=
  let y := x % 2 ^ n
  if n = 0 then 0 else if y < 2 ^ (n - 1) then (y : Int) else (y : Int) - (2 ^ n : Nat)

/-- zx(x, n) of an integer: wrap(x, n) (R55). -/
def wrap (x : Int) (n : Nat) : Nat := (x % ((2 ^ n : Nat) : Int)).toNat

/-- sat_s(x, n) (R55). -/
def satS (x : Int) (n : Nat) : Int :=
  let hi : Int := (2 ^ (n - 1) : Nat)
  if x < -hi then -hi else if x ≥ hi then hi - 1 else x

/-- sat_z(x, n) (R55). -/
def satZ (x : Int) (n : Nat) : Int :=
  let hi : Int := (2 ^ n : Nat)
  if x < 0 then 0 else if x ≥ hi then hi - 1 else x

/-- The field [hi:lo] of a bit vector as a number. -/
def fld {w : Nat} (x : BitVec w) (hi lo : Nat) : Nat := nbits x.toNat hi lo

/-- A bit of a bit vector. -/
def bitAt {w : Nat} (x : BitVec w) (i : Nat) : Bool := x.getLsbD i

/-- Replace the field [hi:lo] of a number. -/
def setField (x hi lo v : Nat) : Nat :=
  let n := hi + 1 - lo
  x - (nbits x hi lo) * 2 ^ lo + (v % 2 ^ n) * 2 ^ lo

/-- A number from little-endian bytes (R40). -/
def leNat : List Byte → Nat
  | [] => 0
  | b :: r => b.toNat + 256 * leNat r

/-- The n low bytes of a number, little-endian. -/
def leBytes : (n : Nat) → Nat → List Byte
  | 0, _ => []
  | n + 1, v => BitVec.ofNat 8 v :: leBytes n (v / 256)

/-- A pair's 64-bit value, low half first (R27). -/
def join64 (lo hi : Word) : DWord := hi ++ lo
/-- Low half of a 64-bit value. -/
def lo64 (x : DWord) : Word := x.extractLsb' 0 32
/-- High half of a 64-bit value. -/
def hi64 (x : DWord) : Word := x.extractLsb' 32 32

/-! ### Sparse tables -/

/-- The entry of a key, or the default. -/
def sget {α : Type} (l : Sparse α) (k : Nat) (dflt : α) : α :=
  match l with
  | [] => dflt
  | (j, v) :: r => if j = k then v else sget r k dflt

/-- The entry of a key, if listed. -/
def sfind {α : Type} (l : Sparse α) (k : Nat) : Option α :=
  match l with
  | [] => none
  | (j, v) :: r => if j = k then some v else sfind r k

/-- Remove a key. -/
def sdel {α : Type} (l : Sparse α) (k : Nat) : Sparse α :=
  match l with
  | [] => []
  | (j, v) :: r => if j = k then r else (j, v) :: sdel r k

/-- Put an entry, keeping the keys rising. -/
def sput {α : Type} (l : Sparse α) (k : Nat) (v : α) : Sparse α :=
  match l with
  | [] => [(k, v)]
  | (j, u) :: r => if k < j then (k, v) :: (j, u) :: r
    else if k = j then (k, v) :: r else (j, u) :: sput r k v

/-- Put an entry, or remove it when it equals the default. -/
def sset {α : Type} [DecidableEq α] (l : Sparse α) (k : Nat) (v dflt : α) : Sparse α :=
  if v = dflt then sdel l k else sput l k v

/-- Keys strictly rising from a bound on. -/
def risingFrom {α : Type} : Nat → Sparse α → Bool
  | _, [] => true
  | lo, (j, _) :: r => decide (lo ≤ j) && risingFrom (j + 1) r

/-! ### Lists -/

/-- Change the element at an index. -/
def modAt {α : Type} (l : List α) (n : Nat) (f : α → α) : List α :=
  match l, n with
  | [], _ => []
  | a :: r, 0 => f a :: r
  | a :: r, n + 1 => a :: modAt r n f

/-- Index of the first element that satisfies a test. -/
def indexOf? {α : Type} (l : List α) (p : α → Bool) : Option Nat :=
  match l with
  | [] => none
  | a :: r => if p a then some 0 else (indexOf? r p).map (· + 1)

/-- Insert by a key, after the entries of a smaller or equal key. -/
def insertBy {α : Type} (key : α → Nat) (a : α) : List α → List α
  | [] => [a]
  | b :: r => if key a < key b then a :: b :: r else b :: insertBy key a r

/-- Sort by a key, stable. -/
def sortBy {α : Type} (key : α → Nat) (l : List α) : List α := l.foldl (fun acc a => insertBy key a acc) []

/-- The element with the least key, the first on a tie. -/
def minBy {α : Type} (key : α → Nat) : List α → Option α
  | [] => none
  | a :: r => match minBy key r with
    | none => some a
    | some b => if key a ≤ key b then some a else some b

/-- Numbers lo to lo + n − 1. -/
def upto (lo n : Nat) : List Nat := (List.range n).map (lo + ·)

/-! ### Lane masks -/

/-- The lanes of a mask, rising (R242). -/
def maskLanes (m : Mask) : List Nat := (List.range 32).filter fun l => m.getLsbD l

/-- The mask of one lane. -/
def laneBit (l : Nat) : Mask := 1#32 <<< l

/-- The mask of a list of lanes. -/
def maskOf (ls : List Nat) : Mask := ls.foldl (fun m l => m ||| laneBit l) 0

end Sys2Proof.Machine
end

