-- ==== Sys2Proof/Machine/Fp.lean ====
section
/-! DEFINITION. Number formats bit by bit (spec/03 R59-R72) and the rounding helpers of R55 with the
refinements of R86. A finite value is kept exactly, as a natural number times a power of two. -/

namespace Sys2Proof.Machine

/-- A value: a NaN, an infinity, or (−1)^neg × m × 2^e exactly; m = 0 is a zero of that sign. -/
inductive FVal where
  | nan
  | inf (neg : Bool)
  | fin (neg : Bool) (m : Nat) (e : Int)
  deriving DecidableEq, Repr

/-- The IEEE flags of R34 that an operation sets. -/
structure Flags where
  nv : Bool := false
  dz : Bool := false
  of : Bool := false
  uf : Bool := false
  nx : Bool := false
  deriving DecidableEq, Repr

namespace Flags
/-- No flag. -/
def none : Flags := {}
/-- NV alone. -/
def invalid : Flags := { nv := true }
/-- DZ alone. -/
def divZero : Flags := { dz := true }
/-- Both sets of flags. -/
def or (a b : Flags) : Flags := ⟨a.nv || b.nv, a.dz || b.dz, a.of || b.of, a.uf || b.uf, a.nx || b.nx⟩
/-- The bits of FPSTAT[4:0] (R34). -/
def bits (f : Flags) : BitVec 5 :=
  BitVec.ofBool f.nx ++ BitVec.ofBool f.uf ++ BitVec.ofBool f.of ++ BitVec.ofBool f.dz ++ BitVec.ofBool f.nv
end Flags

/-- The four roundings (R55). -/
inductive RM where | rn | rz | rp | rm
  deriving DecidableEq, Repr

/-- RMODE.RM (R34). -/
def RM.ofBits (b : BitVec 2) : RM :=
  match b.toNat with | 0 => .rn | 1 => .rz | 2 => .rp | _ => .rm

/-- A floating-point layout (R61): fraction bits w, exponent bits, bias. `e4m3` has no infinity. -/
structure Fmt where
  w : Nat
  eb : Nat
  bias : Nat
  noInf : Bool
  deriving DecidableEq, Repr

namespace Fmt
def f64 : Fmt := ⟨52, 11, 1023, false⟩
def f32 : Fmt := ⟨23, 8, 127, false⟩
def f16 : Fmt := ⟨10, 5, 15, false⟩
def bf16 : Fmt := ⟨7, 8, 127, false⟩
def e4m3 : Fmt := ⟨3, 4, 7, true⟩
def e5m2 : Fmt := ⟨2, 5, 15, false⟩
/-- Bits of an element (R61). -/
def size (f : Fmt) : Nat := 1 + f.eb + f.w
/-- The all-ones exponent field. -/
def emax (f : Fmt) : Nat := 2 ^ f.eb - 1
/-- The canonical NaN (R61, R63). -/
def canon (f : Fmt) : Nat :=
  if f.noInf then 2 ^ (f.eb + f.w) - 1 else f.emax * 2 ^ f.w + 2 ^ (f.w - 1)
/-- The bits of the largest finite magnitude (R61). -/
def maxFin (f : Fmt) : Nat := if f.noInf then f.canon - 1 else f.emax * 2 ^ f.w - 1
/-- The bits of +∞ (R61). -/
def infBits (f : Fmt) : Nat := f.emax * 2 ^ f.w
/-- The sign bit's value. -/
def signBit (f : Fmt) : Nat := 2 ^ (f.eb + f.w)
/-- A sign put on magnitude bits. -/
def withSign (f : Fmt) (neg : Bool) (x : Nat) : Nat := if neg then f.signBit + x else x
/-- The layout of an element-format code 1 to 6 (R59). -/
def ofCode (c : Nat) : Fmt :=
  match c with | 1 => f64 | 2 => f32 | 3 => f16 | 4 => bf16 | 5 => e4m3 | _ => e5m2
end Fmt

/-- The layout of F (R97). -/
def fmtOf (f : FFmt) : Fmt :=
  match f with | .f32 => .f32 | .f64 => .f64 | .f16 => .f16 | .bf16 => .bf16

/-- The value of an element's bits (R62). -/
def Fmt.decode (f : Fmt) (x : Nat) : FVal :=
  let neg := nbit x (f.eb + f.w)
  let e := nbits x (f.eb + f.w - 1) f.w
  let frac := x % 2 ^ f.w
  if e = 0 then .fin neg frac (1 - (f.bias : Int) - f.w)
  else if e = f.emax && f.noInf && frac = 2 ^ f.w - 1 then .nan
  else if e = f.emax && !f.noInf then (if frac = 0 then .inf neg else .nan)
  else .fin neg (2 ^ f.w + frac) ((e : Int) - f.bias - f.w)

/-- Round m × 2^e to a multiple of 2^q: the multiple, and whether it differs. -/
def roundAt (md : RM) (neg : Bool) (m : Nat) (e q : Int) : Nat × Bool :=
  if q ≤ e then (m * 2 ^ (e - q).toNat, false)
  else
    let sh := (q - e).toNat
    let t := m >>> sh
    let r := m - t * 2 ^ sh
    if r = 0 then (t, false)
    else
      let half := 2 ^ (sh - 1)
      let up := match md with
        | .rn => decide (half < r) || (r == half && t % 2 == 1)
        | .rz => false
        | .rp => !neg
        | .rm => neg
      (if up then t + 1 else t, true)

/-- round(x, f, m) of a nonzero finite magnitude m × 2^e with sign (R55, R64, R86): bits and flags.
`sat` saturates an E5M2 overflow (R64). -/
def Fmt.roundFin (f : Fmt) (md : RM) (neg : Bool) (m : Nat) (e : Int) (sat : Bool := false) :
    Nat × Flags :=
  let emin : Int := 1 - (f.bias : Int)
  let top : Int := (Nat.log2 m : Int) + e
  let qn := top - f.w
  let q := max qn (emin - f.w)
  let (t, inexact) := roundAt md neg m e q
  let (tu, _) := roundAt md neg m e qn
  let tiny : Bool := decide (top < emin) &&
    !(decide (top = emin - 1) && decide (2 ^ (f.w + 1) ≤ tu))
  let mag := ((q + f.w + f.bias - 1).toNat) * 2 ^ f.w + t
  if f.maxFin < mag then
    let fl : Flags := { of := true, nx := true }
    if f.noInf || sat then (f.withSign neg f.maxFin, fl)
    else
      let toInf := match md with | .rn => true | .rz => false | .rp => !neg | .rm => neg
      (f.withSign neg (if toInf then f.infBits else f.maxFin), fl)
  else (f.withSign neg mag, { uf := tiny && inexact, nx := inexact })

/-- Encoding a value into a format without block scaling (R64). -/
def Fmt.encode (f : Fmt) (md : RM) (v : FVal) (sat : Bool := false) : Nat × Flags :=
  match v with
  | .nan => (f.canon, .none)
  | .inf neg => if f.noInf then (f.withSign neg f.maxFin, .invalid) else (f.withSign neg f.infBits, .none)
  | .fin neg m e => if m = 0 then (f.withSign neg 0, .none) else f.roundFin md neg m e sat

/-- rne32 and its kin on a value: bits alone (R55). -/
def Fmt.rne (f : Fmt) (v : FVal) : Nat := (f.encode .rn v).1

/-! ### Exact arithmetic -/

/-- A finite value as a signed number times a power of two. -/
structure Ex where
  n : Int
  e : Int
  deriving DecidableEq, Repr

/-- Exact sum. -/
def Ex.add (a b : Ex) : Ex :=
  if a.n = 0 then b else if b.n = 0 then a
  else
    let e := min a.e b.e
    ⟨a.n * (2 ^ (a.e - e).toNat : Nat) + b.n * (2 ^ (b.e - e).toNat : Nat), e⟩

/-- Exact product. -/
def Ex.mul (a b : Ex) : Ex := ⟨a.n * b.n, a.e + b.e⟩

/-- a < b exactly. -/
def Ex.lt (a b : Ex) : Bool := decide ((Ex.add a ⟨-b.n, b.e⟩).n < 0)

namespace FVal
/-- A zero of either sign. -/
def isZero : FVal → Bool
  | .fin _ m _ => m == 0
  | .nan | .inf _ => false
/-- The sign. -/
def sign : FVal → Bool
  | .nan => false
  | .inf n => n
  | .fin n _ _ => n
/-- The exact number of a finite value; zero for the others. -/
def ex : FVal → Ex
  | .fin neg m e => ⟨if neg then -(m : Int) else m, e⟩
  | .nan | .inf _ => ⟨0, 0⟩
/-- The value of an exact number; a zero takes the sign given. -/
def ofEx (x : Ex) (zeroNeg : Bool) : FVal :=
  if x.n = 0 then .fin zeroNeg 0 0 else .fin (decide (x.n < 0)) x.n.natAbs x.e
/-- The negated value. -/
def neg : FVal → FVal
  | .nan => .nan
  | .inf n => .inf (!n)
  | .fin n m e => .fin (!n) m e
/-- Exact product, and whether it is invalid (0 × ∞, R86). -/
def mul (a b : FVal) : FVal × Bool :=
  match a, b with
  | .nan, _ | _, .nan => (.nan, false)
  | .inf s, .inf t => (.inf (s != t), false)
  | .inf s, .fin t m _ => if m = 0 then (.nan, true) else (.inf (s != t), false)
  | .fin s m _, .inf t => if m = 0 then (.nan, true) else (.inf (s != t), false)
  | .fin s m e, .fin t n f => (.fin (s != t) (m * n) (e + f), false)
/-- A value with another power of two. -/
def scale (a : FVal) (k : Int) : FVal :=
  match a with
  | .fin s m e => .fin s m (e + k)
  | .nan => .nan
  | .inf s => .inf s
/-- An integer's value. -/
def ofInt (x : Int) : FVal := .fin (decide (x < 0)) x.natAbs 0
/-- x < y for values that are no NaN; +0 = −0. -/
def lt (a b : FVal) : Bool :=
  match a, b with
  | .nan, _ | _, .nan => false
  | .inf s, .inf t => s && !t
  | .inf s, .fin _ _ _ => s
  | .fin _ _ _, .inf t => !t
  | .fin _ _ _, .fin _ _ _ => Ex.lt a.ex b.ex
/-- x = y for values that are no NaN; +0 = −0. -/
def eqv (a b : FVal) : Bool :=
  match a, b with
  | .nan, _ | _, .nan => false
  | .inf s, .inf t => s == t
  | .inf _, .fin _ _ _ | .fin _ _ _, .inf _ => false
  | .fin _ _ _, .fin _ _ _ => !Ex.lt a.ex b.ex && !Ex.lt b.ex a.ex
end FVal

/-- The exact sum of values: a NaN term gives NaN, opposite infinities give NaN and are invalid, an
infinity gives that infinity; an exact zero is −0 when every term is a zero of negative sign, else
+0 (−0 under rounding down, when the terms do not all have positive sign) (R86, R106, R110, R119). -/
def sumVals (l : List FVal) (md : RM) : FVal × Bool :=
  if l.any (· == .nan) then (.nan, false)
  else
    let p := l.any (· == .inf false)
    let n := l.any (· == .inf true)
    if p && n then (.nan, true)
    else if p then (.inf false, false)
    else if n then (.inf true, false)
    else
      let x := l.foldl (fun a v => Ex.add a v.ex) ⟨0, 0⟩
      let allNeg := l.all fun v => v.isZero && v.sign
      let allPos := l.all fun v => v.isZero && !v.sign
      (.ofEx x (if allNeg then true else if allPos then false else md == .rm), false)

/-- round(v, F, m) with an invalid operation's NV (R86, R98). -/
def finish (f : Fmt) (md : RM) (v : FVal × Bool) : Nat × Flags :=
  if v.2 then (f.canon, .invalid) else f.encode md v.1

/-- FADD (R98). -/
def fpAdd (f : Fmt) (md : RM) (a b : Nat) : Nat × Flags :=
  finish f md (sumVals [f.decode a, f.decode b] md)

/-- FMUL (R98). -/
def fpMul (f : Fmt) (md : RM) (a b : Nat) : Nat × Flags :=
  finish f md (FVal.mul (f.decode a) (f.decode b))

/-- FFMA (R98): NaN with NV for 0 × ∞ whatever d holds. -/
def fpFma (f : Fmt) (md : RM) (a b d : Nat) : Nat × Flags :=
  let p := FVal.mul (f.decode a) (f.decode b)
  if p.2 then (f.canon, .invalid) else finish f md (sumVals [p.1, f.decode d] md)

/-- FMNX.min and .max (R99): one NaN gives the other operand, two give canon. -/
def fpMinMax (f : Fmt) (isMax : Bool) (a b : Nat) : Nat :=
  let x := f.decode a
  let y := f.decode b
  let aIsMin := FVal.lt x y || (!FVal.lt y x && x.sign)
  if x == .nan then (if y == .nan then f.canon else b)
  else if y == .nan then a
  else if aIsMin != isMax then a else b

/-- FMNX (R99). -/
def fpMnx (f : Fmt) (fn : FmnxFn) (a b : Nat) : Nat :=
  let mag (x : Nat) := x % f.signBit
  let sgn (x : Nat) := nbit x (f.eb + f.w)
  let isNan (x : Nat) := f.decode x == .nan
  match fn with
  | .min => fpMinMax f false a b
  | .max => fpMinMax f true a b
  | .neg => if isNan a then f.canon else f.withSign (!sgn a) (mag a)
  | .abs => if isNan a then f.canon else mag a
  | .csgn => if isNan a || isNan b then f.canon else f.withSign (sgn b) (mag a)

/-- FSET (R100). -/
def fpSet (f : Fmt) (c : FCmp) (a b : Nat) : Bool :=
  let x := f.decode a
  let y := f.decode b
  let n := x == .nan || y == .nan
  match c with
  | .eq => FVal.eqv x y
  | .ne => n || !FVal.eqv x y
  | .lt => FVal.lt x y
  | .le => !n && (FVal.lt x y || FVal.eqv x y)
  | .gt => FVal.lt y x
  | .ge => !n && (FVal.lt y x || FVal.eqv x y)
  | .num => !n
  | .nan => n

/-- A finite magnitude rounded to an integer: the integer's magnitude and whether it differs. -/
def roundInt (md : RM) (neg : Bool) (m : Nat) (e : Int) : Nat × Bool := roundAt md neg m e 0

/-- FRND (R101). -/
def fpRnd (f : Fmt) (md : RM) (a : Nat) : Nat :=
  match f.decode a with
  | .nan => f.canon
  | .inf _ => a
  | .fin neg m e =>
    if m = 0 then a
    else
      let (t, _) := roundInt md neg m e
      if t = 0 then f.withSign neg 0 else (f.roundFin md neg t 0).1

/-- Float to integer (R103): result as an integer, and flags. lo and hi bound the destination. -/
def fpToInt (md : RM) (v : FVal) (lo hi : Int) : Int × Flags :=
  match v with
  | .nan => (0, .invalid)
  | .inf neg => (if neg then lo else hi, .invalid)
  | .fin neg m e =>
    let (t, inexact) := roundInt md neg m e
    let x : Int := if neg then -(t : Int) else t
    if x < lo then (lo, .invalid) else if x > hi then (hi, .invalid)
    else (x, { nx := inexact })

/-! ### Block formats -/

/-- E8M0 scale k as an exponent; none for NaN (R65). -/
def e8m0 (k : Nat) : Option Int := if k = 0xFF then none else some ((k : Int) - 127)

/-- An MXFP8 element's exact value (R66). -/
def mxVal (q k : Nat) : FVal :=
  match e8m0 k with
  | none => .nan
  | some x => (Fmt.e4m3.decode q).scale x

/-- The NQ4 levels times 1024 (R69). -/
def nq4Level (i : Nat) : Int :=
  [-1024, -712, -530, -395, -282, -182, -89, 0, 78, 160, 248, 344, 452, 583, 758, 1024].getD i 0

/-- A level as a value: k / 1024 (R69). -/
def nq4LevelVal (i : Nat) : FVal := (FVal.ofInt (nq4Level i)).scale (-10)

/-- e of R70: rne32(S × c × 2^−8). -/
def nq4E (c S : Nat) : Nat :=
  Fmt.f32.rne (FVal.mul (Fmt.f32.decode S) ((FVal.ofInt c).scale (-8))).1

/-- An NQ4 element's value as FP32 bits (R70). -/
def nq4Val (i c S : Nat) : Nat :=
  Fmt.f32.rne (FVal.mul (nq4LevelVal i) (Fmt.f32.decode (nq4E c S))).1

/-- floor(log2 |x|) of a nonzero finite value. -/
def FVal.log2 : FVal → Int
  | .fin _ m e => (Nat.log2 m : Int) + e
  | .nan | .inf _ => 0

/-- |x| as an exact number. -/
def FVal.absEx (v : FVal) : Ex := ⟨(v.ex.n.natAbs : Int), v.ex.e⟩

/-- The greatest magnitude of a list of finite values, as an exact number. -/
def maxAbs (l : List FVal) : Ex :=
  l.foldl (fun a v => if Ex.lt a v.absEx then v.absEx else a) ⟨0, 0⟩

/-- Whether a value is a NaN or an infinity. -/
def FVal.special : FVal → Bool
  | .nan | .inf _ => true
  | .fin _ _ _ => false

/-- Pack an MXFP8 block (R68): scale byte and element bytes. -/
def packMx (l : List FVal) : Nat × List Nat :=
  if l.any FVal.special then (0xFF, l.map fun _ => 0)
  else
    let amax := maxAbs l
    let x : Int := if amax.n = 0 then 0
      else min 127 (max (-127) ((Nat.log2 amax.n.natAbs : Int) + amax.e - 8))
    ((x + 127).toNat, l.map fun v => Fmt.e4m3.rne (v.scale (-x)))

/-- ceil of an exact nonnegative quotient a / b, b > 0. -/
def ceilDiv (a b : Ex) : Nat :=
  let e := min a.e b.e
  let x := a.n.natAbs * 2 ^ (a.e - e).toNat
  let y := b.n.natAbs * 2 ^ (b.e - e).toNat
  if y = 0 then 0 else (x + y - 1) / y

/-- The index that minimises |rne32(level × e) − x|, the lowest on a tie (R72). -/
def nq4Index (e : Nat) (x : FVal) : Nat :=
  let dist (k : Nat) : Ex :=
    let d := Ex.add (Fmt.f32.decode (Fmt.f32.rne (FVal.mul (nq4LevelVal k) (Fmt.f32.decode e)).1)).ex
      ⟨-x.ex.n, x.ex.e⟩
    ⟨(d.n.natAbs : Int), d.e⟩
  (List.range 16).foldl (fun best k => if Ex.lt (dist k) (dist best) then k else best) 0

/-- Pack an NQ4 superblock (R72): S, the scale code of each block, the indices. Where S rounds to zero
the spec states no quotient 256 × mb / S: the code of that block is the free value `free b` (log 1). -/
def packNq4 (free : Nat → Nat) (blocks : List (List FVal)) : Nat × List Nat × List (List Nat) :=
  let sevens := blocks.map fun b => b.map fun _ => 7
  let noCodes := blocks.map fun _ => 0
  if blocks.any (·.any FVal.special) then (0x7FC00000, noCodes, sevens)
  else
    let m := blocks.foldl (fun a b => let x := maxAbs b; if Ex.lt a x then x else a) ⟨0, 0⟩
    if m.n = 0 then (0x3F800000, noCodes, sevens)
    else
      -- rne32(M × 256 / 255): 80 further quotient bits with a sticky bit decide the rounding
      let num := m.n.natAbs * 2 ^ 88
      let quo := num / 255
      let s0 := (Fmt.f32.roundFin .rn false (2 * quo + (if num % 255 = 0 then 0 else 1)) (m.e - 81)).1
      let s := if s0 = 0x7F800000 then 0x7F7FFFFF else s0
      let sEx := (Fmt.f32.decode s).ex
      let one (n : Nat) (b : List FVal) : Nat × List Nat :=
        let mb := maxAbs b
        if mb.n = 0 then (0, b.map fun _ => 7)
        else
          let c := if sEx.n = 0 then free n % 256 else min 255 (ceilDiv ⟨mb.n * 256, mb.e⟩ sEx)
          let e := nq4E c s
          (c, b.map (nq4Index e))
      let r := blocks.mapIdx one
      (s, r.map Prod.fst, r.map Prod.snd)

end Sys2Proof.Machine
end

