-- ==== Sys2Proof/Machine/Mem.lean ====
section
/-! DEFINITION. The memory of the package as one list of cells in canonical form, and poison
(spec/06 R143-R147, spec/15 R354, spec/16 R381-R383, R442).

Memory keys: a physical address of R147 is its own key (device LPDDR, host window); peer memory,
the local stores and the Talon stores lie above the 52-bit space, each in a range of its own. -/

namespace Sys2Proof.Machine

/-! ### Regions -/

/-- First byte beyond device LPDDR (R147). -/
def lpddrEnd : Nat := 0x018000000000
/-- Key of byte `off` of core `c`'s local store (physical page order). -/
def lsKey (c off : Nat) : Nat := 2 ^ 53 + c * 2 ^ 23 + off
/-- Key of byte `off` of grove `g`'s Talon store. -/
def talonKey (g off : Nat) : Nat := 2 ^ 54 + g * 2 ^ 20 + off
/-- Key of byte `off` of the device LPDDR of peer `e` (R148). -/
def peerKey (e off : Nat) : Nat := 2 ^ 55 + e * 2 ^ 41 + off

/-- Device LPDDR (R147). -/
def isLpddr (k : Nat) : Bool := decide (k < lpddrEnd)
/-- Host window or peer memory: edge-ordered (R143). -/
def isEdge (k : Nat) : Bool := (decide (2 ^ 50 ≤ k) && decide (k < 2 ^ 51)) || decide (2 ^ 55 ≤ k)

/-! ### Cells -/

/-- What an unlisted address reads as: zero, the content the boot leaves in every store (R437 stage
2); in the management area the fuse map and the upper-die map that root firmware writes at boot
(R439, log 5). Host and peer bytes read zero by choice (log 4). -/
def unlisted (k : Nat) : Byte :=
  if k < Config.mgmtArea then 0
  else if k < Config.mgmtArea + 0x800 then 0x7F
  else if k < Config.mgmtArea + 0x808 then 1
  else 0

/-- The canonical form: keys strictly rising from `lo`, no entry equal to what its key reads as
unlisted. -/
def Memory.wfFrom : Nat → List Host.Cell → Bool
  | _, [] => true
  | lo, (k, b) :: r => decide (lo ≤ k) && decide (b ≠ unlisted k) && Memory.wfFrom (k + 1) r

/-- The memory is in canonical form. -/
def Memory.wf (m : List Host.Cell) : Bool := Memory.wfFrom 0 m

/-- The byte of a key. -/
def Memory.read (m : List Host.Cell) (k : Nat) : Byte :=
  match m with
  | [] => unlisted k
  | (j, b) :: r => if k < j then unlisted k else if j = k then b else Memory.read r k

/-- Write one byte, keeping the canonical form. -/
def Memory.write (m : List Host.Cell) (k : Nat) (v : Byte) : List Host.Cell :=
  match m with
  | [] => if v = unlisted k then [] else [(k, v)]
  | (j, b) :: r =>
    if k < j then (if v = unlisted k then (j, b) :: r else (k, v) :: (j, b) :: r)
    else if j = k then (if v = unlisted k then r else (k, v) :: r)
    else (j, b) :: Memory.write r k v

/-- Bytes k to k + n − 1, each read at its own key. -/
def Memory.readN (m : List Host.Cell) (k n : Nat) : List Byte :=
  match n with
  | 0 => []
  | n + 1 => Memory.read m k :: Memory.readN m (k + 1) n

/-- Write bytes from a key on. -/
def Memory.writeN (m : List Host.Cell) (k : Nat) : List Byte → List Host.Cell
  | [] => m
  | b :: r => Memory.writeN (Memory.write m k b) (k + 1) r

namespace State

/-- Read one byte. -/
def byte (s : State) (k : Nat) : Byte := Memory.read s.mem k
/-- Read n bytes. -/
def bytes (s : State) (k n : Nat) : List Byte := Memory.readN s.mem k n
/-- Read an n-byte little-endian number. -/
def num (s : State) (k n : Nat) : Nat := leNat (s.bytes k n)

/-! ### Poison -/

/-- The 8-byte units of a span of bytes. -/
def unitsOf (k n : Nat) : List Nat := if n = 0 then [] else upto (k / 8) ((k + n - 1) / 8 - k / 8 + 1)

/-- A unit is poisoned. -/
def unitPoisoned (s : State) (u : Nat) : Bool := s.poison.contains u

/-- Some unit of the span is poisoned. -/
def poisoned (s : State) (k n : Nat) : Bool :=
  !s.poison.isEmpty && (unitsOf k n).any s.unitPoisoned

/-- Poison a unit (R381). -/
def poisonUnit (s : State) (u : Nat) : State :=
  if s.poison.contains u then s else { s with poison := sortBy id (u :: s.poison) }

/-- Poison every unit a span touches; in LPDDR a whole 32-byte block when `block` (R381). -/
def poisonSpan (s : State) (k n : Nat) (block : Bool) : State :=
  let us := if block && isLpddr k then upto (k / 32 * 4) (4 * ((k + n - 1) / 32 - k / 32 + 1))
    else unitsOf k n
  us.foldl poisonUnit s

/-- The 32-byte block of LPDDR that holds a unit (R381). -/
def blockOf (u : Nat) : List Nat := upto (u / 4 * 4) 4

/-- The block of a poisoned unit of LPDDR is written back: it is written poisoned, and read back with all four of
its words poisoned (R442). -/
def writeBackPoison (s : State) (u : Nat) : State :=
  if isLpddr (8 * u) then (blockOf u).foldl poisonUnit s else s

/-- Clear the poison of the units a write of n bytes at k covers wholly (R382). -/
def clearCovered (s : State) (k n : Nat) : State :=
  if s.poison.isEmpty then s
  else { s with poison := s.poison.filter fun u => !(decide (k ≤ 8 * u) && decide (8 * u + 8 ≤ k + n)) }

/-- The word at a 4-byte-aligned key. -/
def wordAt (m : List Host.Cell) (k : Nat) : Word := BitVec.ofNat 32 (leNat (Memory.readN m k 4))

/-- The words a write replaces, with the step, for instruction fetch (R399). -/
def replaced (old new : List Host.Cell) (n k len : Nat) : List (Nat × Nat × Word) :=
  ((upto (k / 4) ((k + len + 3) / 4 - k / 4)).map (4 * ·)).filterMap fun a =>
    if wordAt old a = wordAt new a then none else some (a, n, wordAt old a)

/-- A raw write of bytes at a key: the units it covers wholly lose their poison (R382). -/
def put (s : State) (k : Nat) (bs : List Byte) : State :=
  let m := Memory.writeN s.mem k bs
  { s.clearCovered k bs.length with
    mem := m, stale := s.stale ++ replaced s.mem m s.stepNo k bs.length }

/-- A raw write of an n-byte little-endian number. -/
def putNum (s : State) (k n v : Nat) : State := s.put k (leBytes n v)

/-- A write that covers only part of a poisoned unit is not performed and poisons the unit (R383). -/
def partialPoison (s : State) (k n : Nat) : Bool :=
  !s.poison.isEmpty && (unitsOf k n).any fun u =>
    !(decide (k ≤ 8 * u) && decide (8 * u + 8 ≤ k + n)) && s.unitPoisoned u

end State

end Sys2Proof.Machine
end

