-- ==== Sys2Proof/Machine/Tape.lean ====
section
/-! DEFINITION. The Talon store's directory and tapes, and the recorder that appends commands to a
recording tape (spec/15 R354-R360, R363-R367). -/

namespace Sys2Proof.Machine

/-! ### Directory records (R355) -/

namespace Dir
def state (d : Nat) : Nat := nbits d 2 0
def why (d : Nat) : Nat := nbits d 7 4
def users (d : Nat) : Nat := nbits d 15 8
def base (d : Nat) : Nat := nbits d 31 16
def cap (d : Nat) : Nat := nbits d 48 32
/-- A record from its fields. -/
def mk (state why users base cap : Nat) : Nat :=
  state + why * 2 ^ 4 + users * 2 ^ 8 + base * 2 ^ 16 + cap * 2 ^ 32
/-- Another STATE and WHY. -/
def withState (d state why : Nat) : Nat := mk state why (users d) (base d) (cap d)
/-- Another USERS. -/
def withUsers (d n : Nat) : Nat := mk (state d) (why d) n (base d) (cap d)
end Dir

/-- Key of entry i of grove g's store (R354). -/
def entryKey (g i : Nat) : Nat := talonKey g (16 * i)
/-- Entry i, 128 bits. -/
def State.entry (s : State) (g i : Nat) : Nat := s.num (entryKey g i) 16
/-- Write entry i. -/
def State.setEntry (s : State) (g i v : Nat) : State := s.putNum (entryKey g i) 16 v

/-- A directory record is poisoned: all its fields lie in its first word. -/
def State.dirBad (s : State) (g n : Nat) : Bool := s.poisoned (entryKey g n) 8
/-- Change fields of a directory record: a write of part of a word, not performed on a poisoned one (R383). -/
def State.setDir (s : State) (g n v : Nat) : State := if s.dirBad g n then s else s.setEntry g n v

/-- A store to byte `off` of the store is refused: directory, or the space of a tape that is ARMED,
RECORDING or READY or has users (R356). -/
def State.talonGuarded (s : State) (g off : Nat) : Bool :=
  decide (off < 1024) ||
  (List.range 64).any fun n =>
    let d := s.entry g n
    (decide (1 ≤ Dir.state d ∧ Dir.state d ≤ 3) || Dir.users d != 0) &&
      decide (16 * Dir.base d ≤ off) && decide (off < 16 * (Dir.base d + Dir.cap d))

/-! ### Patch slots (R358, R366) -/

/-- Patch slot k of a tape: bound, argument word, base at recording. -/
def State.patchSlot (s : State) (g base k : Nat) : Bool × Nat × Nat :=
  let v := s.num (talonKey g (16 * (base + 8) + 8 * k)) 8
  (nbit v 3, nbits v 2 0, nbits v 63 12)

/-- The slot an address field takes: the greatest base at or below it within 2^32, the lowest slot on a
tie. -/
def State.patchFor (s : State) (g base a : Nat) : Option Nat :=
  let hits := (List.range 32).filterMap fun k =>
    let (v, _, rb) := s.patchSlot g base k
    if v && decide (rb ≤ a) && decide (a < rb + 2 ^ 32) then some (k, rb) else none
  (minBy (fun (_, rb) => 2 ^ 52 - rb) hits).map Prod.fst

/-! ### Commands (R360, R363) -/

/-- What the recorder appends for one event. -/
inductive Cmd where
  /-- word, descriptors (destination first), queue 0 matrix, 1-4 copy -/
  | eng (word : Word) (descs : List Desc) (queue : Nat)
  /-- NI, address, OP, 32-bit operand, 64-bit operands -/
  | mem (ni : Bool) (addr op data : Nat) (xs : List Nat)
  | enq (src qword : Nat)
  | bank (rel : Bool) (hold : Nat)
  | rfence (list : Nat)

/-- A DESC entry (R360). -/
def descEntry (patch : Nat → Option Nat) (d : Desc) : Nat :=
  let b := fld d 51 0
  let p := patch b
  1 + (if p.isSome then 2 ^ 4 else 0) + (p.getD 0) * 2 ^ 5 + (fld d 53 52) * 2 ^ 10 + (fld d 59 56) * 2 ^ 12 +
    b * 2 ^ 16 + (fld d 75 64) * 2 ^ 68 + (fld d 87 76) * 2 ^ 80 + (fld d 111 88) * 2 ^ 92 +
    (fld d 119 112) * 2 ^ 116

/-- A DATA entry (R360). -/
def dataEntry (x : Nat) : Nat := 4 + (x % 2 ^ 64) * 2 ^ 64

/-- The PV, PSLOT and address fields of MEM, ENQ and RFENCE. -/
def addrField (patch : Nat → Option Nat) (a : Nat) : Nat :=
  let b := a % 2 ^ 52
  let p := patch b
  (if p.isSome then 2 ^ 8 else 0) + (p.getD 0) * 2 ^ 9 + b * 2 ^ 16

/-- The entries of a command (R360). -/
def Cmd.entries (patch : Nat → Option Nat) (member : Nat) (fence : Bool) (c : Cmd) : List Nat :=
  let hd (kind : Nat) (ni : Bool) : Nat :=
    kind + (if ni then 2 ^ 4 else 0) + (if fence then 2 ^ 5 else 0) + member * 2 ^ 6
  match c with
  | .eng w ds q =>
      ds.map (descEntry patch) ++ [hd 2 false + w.toNat * 2 ^ 16 + ds.length * 2 ^ 48 + q * 2 ^ 50]
  | .mem ni a op data xs =>
      (hd 3 ni + addrField patch a + op * 2 ^ 68 + (data % 2 ^ 32) * 2 ^ 80 + xs.length * 2 ^ 112) ::
        xs.map dataEntry
  | .enq src q => [hd 5 true + addrField patch src + q * 2 ^ 68]
  | .bank rel h => [hd 6 false + (if rel then 2 ^ 8 else 0) + h * 2 ^ 32]
  | .rfence l => [hd 7 false + addrField patch l]

/-- The recorder of a gang. -/
def State.recorderOf (s : State) (gang : Nat) : Option Recorder := s.recorders.find? fun r => r.gang == gang

/-- The recording of a gang is abandoned (R367). -/
def State.abandon (s : State) (gang why : Nat) : State :=
  match s.recorderOf gang with
  | none => s
  | some r =>
    { s.setDir r.grove r.tape (Dir.withState (s.entry r.grove r.tape) 4 why) with
      recorders := s.recorders.filter fun q => q.gang != gang }

/-- Append entries one after the other from index i on. -/
def State.putEntries (s : State) (g i : Nat) : List Nat → State
  | [] => s
  | e :: r => (s.setEntry g i e).putEntries g (i + 1) r

/-- What the recorder reads of a tape with its base is poisoned: the directory record, COUNT, the patch slots. -/
def State.recorderBad (s : State) (g n base : Nat) : Bool :=
  s.dirBad g n || s.poisoned (entryKey g base) 8 || s.poisoned (entryKey g (base + 8)) 256

/-- Append a command to the tape of a recording gang, or abandon it on overflow (R363, R367), or with WHY 0 where the
recorder meets poison (R382, log 101). -/
def State.append (s : State) (gang member : Nat) (fence : Bool) (c : Cmd) : State :=
  match s.recorderOf gang with
  | none => s
  | some r =>
    let d := s.entry r.grove r.tape
    let h := s.entry r.grove (Dir.base d)
    let count := nbits h 31 0
    let es := c.entries (s.patchFor r.grove (Dir.base d)) member fence
    if s.recorderBad r.grove r.tape (Dir.base d) then s.abandon gang 0
    else if Dir.cap d < count + es.length + 24 then s.abandon gang 1
    else (s.putEntries r.grove (Dir.base d + 24 + count) es).putNum (entryKey r.grove (Dir.base d)) 8
      (setField (h % 2 ^ 64) 31 0 (count + es.length))

end Sys2Proof.Machine
end

