-- ==== Sys2Proof/Machine/Ops.lean ====
section
/-! DEFINITION. The named operations over the state: cores, groups, warps, threads, the issuing set
and its registers, parking (R332), escape (R338), return from a handler (R336, R393), waits and
release of RCV (R240, R241), the token write (R131), event records (R342). -/

namespace Sys2Proof.Machine

/-! ### Cause bits (R330) -/

namespace Cause
def illop : Nat := 0
def illpriv : Nat := 1
def align : Nat := 2
def page : Nat := 3
def prot : Nat := 4
def handle : Nat := 5
def accown : Nat := 6
def claim : Nat := 7
def budget : Nat := 8
def syncmask : Nat := 9
def dataerr : Nat := 10
def fmtstore : Nat := 11
def brk : Nat := 12
def step : Nat := 13
def swtrap : Nat := 14
def tapestale : Nat := 15
def preempt : Nat := 16
def range : Nat := 17
def pipefe : Nat := 18
def meldset : Nat := 19
/-- The bit of a cause. -/
def bit (c : Nat) : Word := 1#32 <<< c
/-- The notes: TAPESTALE and PREEMPT. -/
def notes : Word := 0x00018000
end Cause

/-- The trap entry (R335). -/
def trapEntry : Addr := 0x1000

/-- The next word's address (R40). -/
def nextPc (pc : Addr) : Addr := pc + 4

/-! ### Fresh parts -/

/-- A core at its reset state. -/
def Core.empty : Core where
  groups := []
  act := none
  shd := none
  acc := []
  apoison := []
  owner := []
  mq := []
  cq := []
  seqs := []
  bins := []
  tags := []
  tpoison := []
  recPages := []
  recSlots := []
  reqs := []
  pipes := []
  spills := []
  linger := []
  fetchFloor := 0
  last := []
  launched := none

/-- A thread at its creation (R29, R219, R265). -/
def Thread.new (pc : Addr) (tid : Word) (lvl : List Word) (rmode : BitVec 2) : Thread where
  pc := pc
  tid := tid
  lvl := lvl
  fpstat := 0
  rmode := rmode
  winbase := 0
  vr := []
  pr := 0
  vpoison := []
  vpend := []
  wait := .none
  frag := none

/-- The thread read where no thread is; no rule reads it. -/
def Thread.absent : Thread := Thread.new 0 0 [] 0

/-- A warp slot at admission (R218, R32). -/
def Warp.new (wid : Nat) (lanes : List (Option Nat)) (stamp : Nat) : Warp where
  wid := wid
  lanes := lanes
  ur := []
  tr := []
  upoison := []
  cause := 0
  trappc := 0
  trapmask := 0
  age := 0
  cap := none
  ages := []
  subs := []
  upend := []
  failTok := []
  upstall := []
  tokw := []
  failLanes := []
  firstFail := 0
  budgetDue := false
  budgetMoves := false
  rpf := (0, 0)
  stamp := stamp
  stepping := []
  issuedAt := none
  sync := false
  passed := 0
  waited := 0
  stalls := []
  binStall := []
  tqs := []

/-- An IDLE meld register (R127). -/
def Meld.idle : Meld := ⟨false, 0, [], none, [], []⟩

/-! ### Reaching and changing parts -/

/-- Core c. -/
def State.core (s : State) (c : Nat) : Core := sget s.cores c Core.empty
/-- Put core c. -/
def State.setCore (s : State) (c : Nat) (k : Core) : State :=
  { s with cores := sset s.cores c k Core.empty }
/-- Change core c. -/
def State.modCore (s : State) (c : Nat) (f : Core → Core) : State := s.setCore c (f (s.core c))
/-- The group of a key. -/
def Core.group? (k : Core) (gk : Nat) : Option Group := k.groups.find? fun g => g.gk == gk
/-- Change the group of a key. -/
def Core.modGroup (k : Core) (gk : Nat) (f : Group → Group) : Core :=
  { k with groups := k.groups.map fun g => if g.gk = gk then f g else g }
/-- Change a group. -/
def State.modGroup (s : State) (c gk : Nat) (f : Group → Group) : State :=
  s.modCore c fun k => k.modGroup gk f
/-- Change a warp slot of a group. -/
def Group.modWarp (g : Group) (slot : Nat) (f : Warp → Warp) : Group :=
  { g with warps := modAt g.warps slot f }
/-- Change a warp slot. -/
def State.modWarp (s : State) (c gk slot : Nat) (f : Warp → Warp) : State :=
  s.modGroup c gk fun g => g.modWarp slot f
/-- Change a live thread of a group. -/
def Group.modThread (g : Group) (t : Nat) (f : Thread → Thread) : Group :=
  match sfind g.threads t with
  | some th => { g with threads := sput g.threads t (f th) }
  | none => g
/-- The group of a key on a core. -/
def State.group? (s : State) (c gk : Nat) : Option Group := (s.core c).group? gk
/-- The warp slot of a group. -/
def Group.warp? (g : Group) (slot : Nat) : Option Warp := g.warps[slot]?
/-- The thread slot of a lane. -/
def Warp.tslot (w : Warp) (l : Nat) : Option Nat := (w.lanes[l]?).join
/-- The live thread of a lane. -/
def Group.laneThread (g : Group) (w : Warp) (l : Nat) : Option Thread :=
  (w.tslot l).bind fun t => sfind g.threads t
/-- The lanes of a warp that hold a live thread. -/
def Group.liveLanes (g : Group) (w : Warp) : List Nat :=
  (List.range 32).filter fun l => (g.laneThread w l).isSome
/-- The sub-warp a lane belongs to (R332: at most one). -/
def Warp.subOf (w : Warp) (l : Nat) : Option Sub := w.subs.find? fun b => b.lanes.getLsbD l
/-- The groups of a gang on a core. -/
def Core.gangGroups (k : Core) (gang : Nat) : List Group := k.groups.filter fun g => g.gang == gang
/-- Change every group of a gang. -/
def State.modGang (s : State) (c gang : Nat) (f : Group → Group) : State :=
  s.modCore c fun k => { k with groups := k.groups.map fun g => if g.gang = gang then f g else g }

/-- The holding cost of a group (R245): registers of its threads and warps as granted. -/
def Group.holds (g : Group) : Hold :=
  { vreg := g.vh / 8, sreg := g.uh / 16, pages := g.pages.length,
    slots := (g.slots.filter (· != 0)).length, plane := if g.slots.contains 0 then 1 else 0 }

/-- Clocks a group's record gives a bin (R224). -/
def Group.binTime (g : Group) : Nat :=
  let b := fld g.record 491 480
  if b = 0 then 2048 else b

/-- Move the order counter. -/
def State.bump (s : State) : State := { s with fresh := s.fresh + 1 }

/-! ### Free choices -/

/-- A free choice below n (log 1); 0 when there is nothing to choose. -/
def State.choose (s : State) (salt n : Nat) : Nat :=
  if n ≤ 1 then 0 else Config.freeNat s.stepNo salt % n

/-- Lanes in the order their accesses take: free (R164, R191, log 1). -/
def State.laneOrder (s : State) (ls : List Nat) : List Nat :=
  if ls.length ≤ 1 then ls else sortBy (fun l => Config.freeNat s.stepNo (4096 + l)) ls

/-! ### Event records (R20, R342) -/

/-- A record crosses meeting point 2. -/
def State.emit (s : State) (e : Event) : State := { s with events := s.events ++ [e] }

/-- The 32 bytes of a trap event record (R342). -/
def trapRecord (kind reason ctx slot : Nat) (cause : Word) (pc core : Nat) : BitVec 256 :=
  BitVec.ofNat 256 (kind % 256 + (reason % 256) * 2 ^ 8 + (ctx % 65536) * 2 ^ 16 + (slot % 2 ^ 32) * 2 ^ 32
    + cause.toNat * 2 ^ 64 + (pc % 2 ^ 52) * 2 ^ 96 + (core % 1024) * 2 ^ 160)

/-- The SLOT of a record of KIND 3 or 4. -/
def noSlot : Nat := 0xFFFFFFFF

/-! ### The issuing set -/

/-- The issuing set of an instruction with its group and warp (R50). -/
structure Ctx where
  s : State
  core : Nat
  g : Group
  slot : Nat
  w : Warp
  lanes : Mask
  pc : Addr

/-- The group and warp slot of a core-wide warp number. -/
def Core.findWid (k : Core) (wid : Nat) : Option (Group × Nat × Warp) :=
  k.groups.findSome? fun g =>
    (indexOf? g.warps fun w => w.wid == wid).bind fun i => (g.warps[i]?).map fun w => (g, i, w)

/-- The issuing set as `State.issue` names it, cut to live lanes; none when no live lane is left. -/
def ctxOf (s : State) : Option Ctx :=
  s.issue.bind fun i =>
    ((s.core i.core).findWid i.wid).bind fun (g, slot, w) =>
      let m := maskOf ((maskLanes i.lanes).filter fun l => (g.laneThread w l).isSome)
      if m = 0 then none else some ⟨s, i.core, g, slot, w, m, i.pc⟩

namespace Ctx

/-- The issuing lanes, rising. -/
def ls (x : Ctx) : List Nat := maskLanes x.lanes
/-- The lowest issuing lane. -/
def l0 (x : Ctx) : Nat := x.ls.headD 0
/-- The thread of a lane. -/
def th (x : Ctx) (l : Nat) : Thread := (x.g.laneThread x.w l).getD Thread.absent
/-- The thread slot of a lane. -/
def slotOf (x : Ctx) (l : Nat) : Nat := (x.w.tslot l).getD 0
/-- The sub-warp of the issuing lanes (R333): the lanes of a path share one. -/
def sub? (x : Ctx) : Option Sub := x.w.subOf x.l0
/-- Supervisor mode (R315): the group's mode, or a handler. -/
def sup (x : Ctx) : Bool := x.g.sup || x.sub?.isSome
/-- The die of the core (R11). -/
def die (x : Ctx) : Nat := x.core / 128
/-- The package-wide grove. -/
def grove (x : Ctx) : Nat := x.core / 32

/-- Change the group. -/
def modG (x : Ctx) (s : State) (f : Group → Group) : State := s.modGroup x.core x.g.gk f
/-- Change the warp slot. -/
def modW (x : Ctx) (s : State) (f : Warp → Warp) : State := s.modWarp x.core x.g.gk x.slot f
/-- The group as it stands in s. -/
def g' (x : Ctx) (s : State) : Group := (s.group? x.core x.g.gk).getD x.g
/-- The warp slot as it stands in s. -/
def w' (x : Ctx) (s : State) : Warp := ((x.g' s).warp? x.slot).getD x.w

end Ctx

/-! ### Registers -/

namespace Thread

/-- Vector register n of the window (R26). -/
def v (th : Thread) (n : Nat) : Word := sget th.vr (th.winbase.toNat * 8 + n) 0
/-- The pair n, n + 1 (R27). -/
def v64 (th : Thread) (n : Nat) : DWord := join64 (th.v n) (th.v (n + 1))
/-- Predicate n; p0 reads true (R29). -/
def p (th : Thread) (n : Nat) : Bool := n == 0 || th.pr.getLsbD n
/-- Write vector register n of the window; the write clears its poison (R382). -/
def setV (th : Thread) (n : Nat) (x : Word) : Thread :=
  let k := th.winbase.toNat * 8 + n
  { th with vr := sset th.vr k x 0, vpoison := th.vpoison.filter (· != k) }
/-- Write the pair n, n + 1. -/
def setV64 (th : Thread) (n : Nat) (x : DWord) : Thread := (th.setV n (lo64 x)).setV (n + 1) (hi64 x)
/-- Write predicate n; a write to p0 is discarded (R29). -/
def setP (th : Thread) (n : Nat) (b : Bool) : Thread :=
  if n = 0 then th
  else
    let m : BitVec 16 := 1#16 <<< n
    { th with pr := if b then th.pr ||| m else th.pr &&& ~~~m }
/-- Set FPSTAT flags (R34): they are sticky. -/
def flag (th : Thread) (f : BitVec 5) : Thread := { th with fpstat := th.fpstat ||| f }
/-- The program counter. -/
def goto (th : Thread) (a : Addr) : Thread := { th with pc := a }

end Thread

namespace Warp

/-- Uniform register n. -/
def u (w : Warp) (n : Nat) : Word := sget w.ur n 0
/-- The uniform pair n, n + 1. -/
def u64 (w : Warp) (n : Nat) : DWord := join64 (w.u n) (w.u (n + 1))
/-- Write uniform register n by an instruction: it is no longer a written token (R132, R365). -/
def setU (w : Warp) (n : Nat) (x : Word) : Warp :=
  { w with ur := sset w.ur n x 0, upoison := w.upoison.filter (· != n),
           failTok := w.failTok.filter (fun e => e.1 != n), upstall := w.upstall.filter (· != n),
           tokw := w.tokw.filter (· != n) }
/-- Write the pair n, n + 1. -/
def setU64 (w : Warp) (n : Nat) (x : DWord) : Warp := (w.setU n (lo64 x)).setU (n + 1) (hi64 x)
/-- Tile register n (R30). -/
def t (w : Warp) (n : Nat) : Desc := sget w.tr n 0
/-- Write tile register n. -/
def setT (w : Warp) (n : Nat) (x : Desc) : Warp := { w with tr := sset w.tr n x 0 }

end Warp

namespace Ctx

/-- V(n, l). -/
def v (x : Ctx) (n l : Nat) : Word := (x.th l).v n
/-- V64(n, l). -/
def v64 (x : Ctx) (n l : Nat) : DWord := (x.th l).v64 n
/-- P(n, l). -/
def p (x : Ctx) (n l : Nat) : Bool := (x.th l).p n
/-- S(n). -/
def u (x : Ctx) (n : Nat) : Word := x.w.u n
/-- S64(n). -/
def u64 (x : Ctx) (n : Nat) : DWord := x.w.u64 n
/-- B(b, l): the b operand of a vector ALU instruction (R28). -/
def b (x : Ctx) (n l : Nat) : Word := if n < 112 then x.v n l else x.u (n - 112)
/-- The 64-bit b operand of a vector ALU instruction. -/
def b64 (x : Ctx) (n l : Nat) : DWord := if n < 112 then x.v64 n l else x.u64 (n - 112)

/-! ### Completing an instruction -/

/-- Change the thread of each lane of a list, in one update of the group. -/
def lanesDo (x : Ctx) (s : State) (ls : List Nat) (f : Nat → Thread → Thread) : State :=
  x.modG s fun g => ls.foldl (fun g l => g.modThread (x.slotOf l) (f l)) g

/-- Every lane of the set completes: its thread changes by f and goes to the next word. -/
def done (x : Ctx) (s : State) (f : Nat → Thread → Thread) : State :=
  x.lanesDo s x.ls fun l th => (f l th).goto (nextPc x.pc)

/-- Every lane of the set completes, and the warp slot changes by f. -/
def doneW (x : Ctx) (s : State) (f : Warp → Warp) : State :=
  x.modW (x.done s fun _ th => th) f

/-- The lanes of a list complete with no change but the program counter. -/
def advance (x : Ctx) (s : State) (ls : List Nat) : State :=
  x.lanesDo s ls fun _ th => th.goto (nextPc x.pc)

/-- The path is stalled at issue: nothing is performed, and it issues again (R238-R240). -/
def stall (x : Ctx) (s : State) (why : Stall) : State := x.modW s fun w => { w with stalls := (x.lanes, why) :: w.stalls }

end Ctx

/-! ### Recording (R363, R365) -/

/-- A warp of a recording gang sets its sync flag (R365). -/
def State.sync (s : State) (c : Nat) (g : Group) (slot : Nat) : State :=
  if (s.recorderOf g.gang).isSome then s.modWarp c g.gk slot fun w => { w with sync := true } else s

/-- A command of a warp is recorded: FENCE from the warp's sync flag, which it clears (R363, R365). -/
def State.recordOf (s : State) (c : Nat) (g : Group) (slot : Nat) (cmd : Cmd) : State :=
  if (s.recorderOf g.gang).isSome then
    let fence := ((s.group? c g.gk).bind fun h => h.warp? slot).any (·.sync)
    (s.append g.gang g.member fence cmd).modWarp c g.gk slot fun w => { w with sync := false }
  else s

/-! ### Escape and parking -/

/-- Sets of lanes without the lanes of a mask. -/
def cutMasks (l : List Mask) (m : Mask) : List Mask := (l.map fun k => k &&& ~~~m).filter fun k => k != 0

/-- The reasons that a member's own instruction or handler gives (R341): 1, 3, 4, 5 and 7. -/
def ownReasons : List Nat := [1, 3, 4, 5, 7]

/-- Stalls without the lanes of a mask. -/
def cutStalls (l : List (Mask × Stall)) (m : Mask) : List (Mask × Stall) :=
  (l.map fun e => (e.1 &&& ~~~m, e.2)).filter fun e => e.1 != 0

/-- A lane's path was stalled at its last issue. -/
def Warp.stalledAt (w : Warp) (l : Nat) : Bool := w.stalls.any fun e => e.1.getLsbD l

/-- The gang begins to stop (R338, R341); a later reason is served by the same image. Of two members that escape in
one clock the lower one gives the reason and the cause (R353, R404); a pre-emption or a kill never takes the place of
a reason that stands, nor loses its own. -/
def State.escape (s : State) (c gang member reason : Nat) (cause : Word) (pc : Addr) : State :=
  s.modGang c gang fun g =>
    match g.stop with
    | some p => if p.clk = s.clk ∧ member < p.member ∧ p.reason ∈ ownReasons ∧ reason ∈ ownReasons then
        { g with stop := some { p with reason := reason, cause := cause, pc := pc, member := member } } else g
    | none => { g with stop := some ⟨reason, cause, pc, 0, s.clk, member⟩ }

/-- Lanes of a warp slot raise causes (R332): they leave their path and form a parked sub-warp at the
trap entry in supervisor mode. Lanes that run a handler escape instead (R338). `bits` is the union of
the causes, `pc` the address of the instruction. -/
def State.park (s : State) (c gk slot : Nat) (lanes : Mask) (bits : Word) (pc : Addr) : State :=
  match s.group? c gk with
  | none => s
  | some g =>
    match g.warp? slot with
    | none => s
    | some w =>
      if lanes = 0 then s
      else
        let debug := (bits &&& (Cause.bit Cause.brk ||| Cause.bit Cause.step)) != 0 &&
          w.trapmask.getLsbD 31
        if (w.subOf ((maskLanes lanes).headD 0)).isSome then
          s.escape c g.gang g.member (if debug then 4 else 3) bits
            (if debug then ((w.subOf ((maskLanes lanes).headD 0)).map (·.pc)).getD pc else pc)
        else
          let moved := w.cause &&& Cause.notes
          let cause := bits ||| moved
          let paged := cause.getLsbD Cause.page
          let s := (s.abandon g.gang 3).modGroup c gk fun g =>
            let g := (maskLanes lanes).foldl (fun g l =>
              match w.tslot l with
              | some t => g.modThread t fun th =>
                  { th with pc := if paged || debug then th.pc else trapEntry, wait := .none }
              | none => g) g
            g.modWarp slot fun w =>
              { w with subs := w.subs ++ [⟨lanes, cause, pc, false⟩], cause := w.cause &&& ~~~moved,
                       stepping := cutMasks w.stepping lanes
                       stalls := cutStalls w.stalls lanes
                       binStall := w.binStall.filter fun b => !lanes.getLsbD b.lane }
          if paged then s.escape c g.gang g.member 1 cause pc
          else if debug then s.escape c g.gang g.member 4 cause pc
          else s

namespace Ctx

/-- Lanes of the issuing set raise causes with TRAPPC at the instruction. -/
def park (x : Ctx) (s : State) (lanes : Mask) (bits : Word) : State :=
  s.park x.core x.g.gk x.slot lanes bits x.pc

/-- Every lane of the issuing set raises one cause; nothing is performed (R47, R286). -/
def raise (x : Ctx) (cause : Nat) : State := x.park x.s x.lanes (Cause.bit cause)

/-- The lanes with a cause park together with the union of their causes (R190). -/
def parkAll (x : Ctx) (s : State) (faults : List (Nat × Nat)) : State :=
  x.park s (maskOf (faults.map Prod.fst)) (faults.foldl (fun m f => m ||| Cause.bit f.2) 0)

end Ctx

/-! ### Return from a handler (R336, R393) -/

/-- Lanes leave their sub-warp as by TRET: its CAUSE goes into the warp's, their threads resume at its
TRAPPC, and the sub-warp dissolves when no lane is left. -/
def State.tret (s : State) (c gk slot : Nat) (lanes : Mask) : State :=
  match (s.group? c gk).bind fun g => (g.warp? slot).map fun w => (g, w) with
  | none => s
  | some (_, w) =>
    match w.subOf ((maskLanes lanes).headD 0) with
    | none => s
    | some b =>
      s.modGroup c gk fun g =>
        let g := (maskLanes lanes).foldl (fun g l =>
          match w.tslot l with
          | some t => g.modThread t fun th => { th with pc := b.pc, wait := .none }
          | none => g) g
        g.modWarp slot fun w =>
          { w with
            cause := w.cause ||| b.cause
            budgetMoves := w.budgetMoves && !b.cause.getLsbD Cause.budget
            subs := w.subs.filterMap fun q =>
              if q.lanes = b.lanes then
                (if q.lanes &&& ~~~lanes = 0 then none else some { q with lanes := q.lanes &&& ~~~lanes })
              else some q
            stepping := if w.trapmask.getLsbD 30 then w.stepping ++ [lanes] else w.stepping }

/-- A deferred BUDGET stands in the warp's CAUSE; a bit that a TRET has carried over stays one (R336, R337). -/
def Warp.noteBudget (w : Warp) : Warp :=
  { w with cause := w.cause ||| Cause.bit Cause.budget, budgetMoves := w.budgetMoves || !w.cause.getLsbD Cause.budget }

/-- The bit of a deferred BUDGET moves out of the warp's CAUSE as the event is delivered; one that a TRET has carried
over stays (R336, R337). -/
def Warp.moveBudget (w : Warp) : Warp :=
  { w with cause := if w.budgetMoves then w.cause &&& ~~~Cause.bit Cause.budget else w.cause, budgetMoves := false }

/-! ### Waits -/

/-- A lane of a warp stands at an RCV. -/
def Wait.isRcv : Wait → Bool
  | .rcv => true
  | _ => false

/-- Release of RCV (R241): the waiters at A go on together when every sibling waits at RCV A, or when
every sibling waits and A is the lowest RCV address of the warp. The first case is one of the
second: when all wait at A, A is the lowest. -/
def Group.rcvRelease (g : Group) (slot : Nat) : Group :=
  match g.warp? slot with
  | none => g
  | some w =>
    let live := g.liveLanes w
    let ths := live.filterMap fun l => g.laneThread w l
    if ths.all (fun th => th.wait != .none) then
      match minBy (fun th => th.pc.toNat) (ths.filter fun th => th.wait.isRcv) with
      | none => g
      | some a =>
        live.foldl (fun g l =>
          match w.tslot l with
          | some t => g.modThread t fun th =>
              if th.wait.isRcv && th.pc == a.pc then { th with pc := nextPc th.pc, wait := .none } else th
          | none => g) g
    else g

/-- A wait that ends by trying the instruction again: the instruction and the stamp of its set. -/
def Wait.tries : Wait → Option (Instr × Nat)
  | .retry i n | .pipe i _ n => some (i, n)
  | .none | .rcv | .bar _ _ | .syncw _ | .fut _ _ _ | .bank | .rdv _ _ | .tdone | .icinv | .fencR _ _ => Option.none

/-- The instructions that the lanes of a core have fetched and not issued are discarded: those that wait on pipe registers,
and those that are tried again. Their words are fetched anew (R38, R83, R398; log 102). -/
def Core.unfetched (k : Core) : Core :=
  { k with groups := k.groups.map fun g => { g with threads := g.threads.map fun e =>
      (e.1, if e.2.wait.tries.isSome then { e.2 with wait := .none } else e.2) } }

/-- The lanes of a list begin to wait, their program counters staying, and RCV is released if this is
what it waited for (R241). -/
def Ctx.waitAt (x : Ctx) (s : State) (ls : List Nat) (k : Wait) : State :=
  x.modG (x.lanesDo s ls fun _ th => { th with wait := k }) fun g => g.rcvRelease x.slot

/-- The lanes of a mask in a warp that wait in a state go on to the next word. -/
def Group.resume (g : Group) (slot : Nat) (lanes : Mask) (k : Wait → Bool) : Group :=
  match g.warp? slot with
  | none => g
  | some w => (maskLanes lanes).foldl (fun g l =>
      match w.tslot l with
      | some t => g.modThread t fun th =>
          if k th.wait then { th with pc := nextPc th.pc, wait := .none } else th
      | none => g) g

/-! ### Tokens (R131, R132) -/

/-- Remove one occurrence. -/
def eraseOne (l : List Nat) (n : Nat) : List Nat :=
  match l with
  | [] => []
  | a :: r => if a = n then r else a :: eraseOne r n

/-- A token becomes pending in a warp slot's scoreboard. -/
def State.pendTok (s : State) (c gk : Nat) (t : Tok) : State :=
  s.modWarp c gk t.1 fun w => { w with upend := w.upend ++ [t.2] }

/-- The register that stands for a token register which its group no longer holds (R248). -/
def goneReg : Nat := 64

/-- A token register below a holding, or the one that stands for a released one. -/
def keptReg (uh n : Nat) : Nat := if n < uh then n else goneReg

/-- A token write: the code, and the cause of a failure to raise once (R131, R132). A token whose register was
released while it was pending is dropped, so that a later grant of the register reads as zero (R248). -/
def State.writeTok (s : State) (c gk : Nat) (t : Tok) (code : Word) : State :=
  if t.2 = goneReg then s else
  s.modWarp c gk t.1 fun w =>
    let w1 := { w.setU t.2 code with upend := eraseOne w.upend t.2, tokw := t.2 :: w.tokw.filter (· != t.2),
                                     upstall := w.upstall, stalls := w.stalls.filter fun e => e.2 != .token }
    if code.getLsbD 31 then { w1 with failTok := (t.2, (code &&& 0x7FFFFFFF).toNat) :: w1.failTok }
    else if (eraseOne w.upend t.2).contains t.2 then w1
    else { w1 with upstall := w.upstall.filter (· != t.2) }

/-- The codes of R131. -/
def tokDone : Word := 1
def tokCancelled : Word := 2
def tokFail (c : Nat) : Word := 0x80000000 + BitVec.ofNat 32 c

end Sys2Proof.Machine
end

