-- ==== Sys2Proof/Machine/Operands.lean ====
section
/-! DEFINITION. The registers each instruction word names, and what happens before its effect: the
state-dependent checks of R46 (holdings, descriptors, privilege), the scoreboard (R40, R51, R132),
poison (R382) and register pipes (R37-R39, R434). -/

namespace Sys2Proof.Machine

/-! ### Tile descriptors (R30) -/

namespace Dsc
def base (d : Desc) : Nat := fld d 51 0
def layout (d : Desc) : Nat := fld d 55 52
def fmtsel (d : Desc) : Nat := fld d 59 56
def rows (d : Desc) : Nat := fld d 75 64
def cols (d : Desc) : Nat := fld d 87 76
def stride (d : Desc) : Nat := fld d 111 88
def plane (d : Desc) : Nat := fld d 119 112
/-- A descriptor passes R30. -/
def ok (d : Desc) : Bool :=
  fld d 63 60 == 0 && fld d 127 120 == 0 && decide (layout d < 3) && decide (fmtsel d < 9)
    && !(layout d == 2 && stride d != 0) && !(layout d != 2 && plane d != 0)
/-- A descriptor from its fields. -/
def mk (base layout fmtsel rows cols stride plane : Nat) : Desc :=
  BitVec.ofNat 128 (base % 2 ^ 52 + layout % 16 * 2 ^ 52 + fmtsel % 16 * 2 ^ 56 + rows % 4096 * 2 ^ 64
    + cols % 4096 * 2 ^ 76 + stride % 2 ^ 24 * 2 ^ 88 + plane % 256 * 2 ^ 112)
end Dsc

/-! ### The operand table -/

/-- The registers of a word: vector registers read and written (window-relative), uniform registers
read and written, the token named, tile registers used, and whether the form is privileged. -/
structure Opnds where
  vr : List Nat := []
  vw : List Nat := []
  ur : List Nat := []
  uw : List Nat := []
  tok : Option Nat := none
  tiles : List Nat := []
  priv : Bool := false
  /-- the vector sources are read in the lowest lane of the set only (R112, R396) -/
  low : Bool := false

/-- The registers n to n + k − 1 of a field. -/
def regs {w : Nat} (n : BitVec w) (k : Nat) : List Nat := upto n.toNat k

/-- The b operand of a vector ALU instruction, with its broadcast (R28): vector part. -/
def bVec (b : BitVec 7) (k : Nat) : List Nat := if b.toNat < 112 then regs b k else []
/-- The b operand of a vector ALU instruction: uniform part. -/
def bUni (b : BitVec 7) (k : Nat) : List Nat := if b.toNat < 112 then [] else upto (b.toNat - 112) k

/-- A three-operand vector ALU instruction; `rd` when d is a source too. -/
def alu (d a b : BitVec 7) (nd na nb : Nat) (rd : Bool := false) : Opnds :=
  { vr := regs a na ++ bVec b nb ++ (if rd then regs d nd else []), vw := regs d nd, ur := bUni b nb }

/-- Registers of a format's value (R97). -/
def ffRegs : FFmt → Nat
  | .f64 => 2
  | .f32 | .f16 | .bf16 => 1

/-- Registers of an integer type's value (R80). -/
def itRegs (t : IType) : Nat := if t.is64 then 2 else 1

/-- Registers of a transfer size in bytes (R192). -/
def sizeRegs (n : Nat) : Nat := if n = 8 then 2 else if n = 16 then 4 else 1

/-- A token operand. -/
def tokNum (t : Token) : Option Nat := t.map fun x => x.toNat

/-- Registers of a W64 bit. -/
def wid (w : Bool) : Nat := if w then 2 else 1

/-- The base operand of LDX, STX and JMPR: vector pair or uniform pair (R188, R289). -/
def baseOp (ub : Bool) (a : BitVec 7) (o : Opnds) : Opnds :=
  if ub then { o with ur := regs a 2 ++ o.ur } else { o with vr := regs a 2 ++ o.vr }

/-- The registers of XMOV by kind (R112). -/
def xmovOpnds (k : XmovKind) (w : Bool) (d a : BitVec 7) : Opnds :=
  match k with
  | .vv => { vr := regs a (wid w), vw := regs d (wid w) }
  | .vs => { vr := regs a (wid w), uw := regs d (wid w), low := true }
  | .sv => { ur := regs a (wid w), vw := regs d (wid w) }
  | .ss => { ur := regs a (wid w), uw := regs d (wid w) }
  | .pv => { vw := regs d 1 }
  | .vp => { vr := regs a 1 }
  | .sp => { ur := regs a 1 }
  | .ts => { tiles := regs a 1, uw := regs d 4 }
  | .st => { ur := regs a 4 }
  | .tt => { tiles := regs a 1 }

/-- The registers of each instruction word, as its owning chapter assigns them. Steps that are no
instruction words name none. -/
def opndsOf : Instr → Opnds
  | .nop | .brk _ | .trap _ | .icinv => {}
  | .trapEsc _ | .tret | .halt => { priv := true }
  | .mfs d sel => { vw := regs d (wid sel.w64) }
  | .mts d sel => { vr := regs d (wid sel.w64), priv := sel.reg.writeSup,
                    low := sel.reg == .trapmask || sel.reg == .trappc || sel.reg == .traplanes }
  | .causeclr a => { ur := regs a 1 }
  | .iadd t _ d a b | .isub t _ d a b | .imul t _ _ d a b | .imnx t _ d a b =>
      alu d a b (itRegs t) (itRegs t) (itRegs t)
  | .imad t _ w d a b => if w then alu d a b 2 1 1 true else alu d a b (itRegs t) (itRegs t) (itRegs t) true
  | .logic fn w d a b =>
      match fn with
      | .not => { vr := regs a (wid w), vw := regs d (wid w) }
      | .and | .or | .xor | .andn | .orn | .xnor => alu d a b (wid w) (wid w) (wid w)
  | .shift _ w d a b => alu d a b (wid w) (wid w) 1
  | .bits fn w d a b =>
      match fn with
      | .popc | .clz | .ctz => { vr := regs a (wid w), vw := regs d 1 }
      | .brev => { vr := regs a (wid w), vw := regs d (wid w) }
      | .bfeS | .bfeZ => alu d a b 1 1 1
      | .bfi => alu d a b 1 1 1 true
  | .iset _ t _ a b => { vr := regs a (itRegs t) ++ bVec b (itRegs t), ur := bUni b (itRegs t) }
  | .sel _ _ d a b => alu d a b 1 1 1
  | .lea _ _ d a b => alu d a b 2 2 1
  | .iaddi d a _ | .andi d a _ | .ori d a _ | .xori d a _ => { vr := regs a 1, vw := regs d 1 }
  | .movl d _ => { vw := regs d 1 }
  | .lui d _ => { vr := regs d 1, vw := regs d 1 }
  | .fadd f _ d a b | .fmul f _ d a b => alu d a b (ffRegs f) (ffRegs f) (ffRegs f)
  | .ffma f _ d a b => alu d a b (ffRegs f) (ffRegs f) (ffRegs f) true
  | .fmnx f fn d a b =>
      match fn with
      | .neg | .abs => { vr := regs a (ffRegs f), vw := regs d (ffRegs f) }
      | .min | .max | .csgn => alu d a b (ffRegs f) (ffRegs f) (ffRegs f)
  | .fset f _ _ a b => { vr := regs a (ffRegs f) ++ bVec b (ffRegs f), ur := bUni b (ffRegs f) }
  | .fcvt dst src _ _ d a => { vr := regs a (wid src.is64), vw := regs d (wid dst.is64) }
  | .sfu _ fn d a b =>
      match fn with
      | .div => alu d a b 1 1 1
      | .rcp | .rsq | .sqrt | .lg2 | .ex2 | .sinpi | .cospi | .tanh => { vr := regs a 1, vw := regs d 1 }
  | .frnd f _ d a => { vr := regs a (ffRegs f), vw := regs d (ffRegs f) }
  | .hop2 _ op _ d a b =>
      match op with
      | .fma => alu d a b 1 1 1 true
      | .add | .mul => alu d a b 1 1 1
  | .dot _ _ d a b => alu d a b 1 1 1 true
  | .shfl _ _ d a idx =>
      match idx with
      | .reg b => { vr := regs a 1 ++ regs b 1, vw := regs d 1 }
      | .imm _ => { vr := regs a 1, vw := regs d 1 }
  | .vote op _ d a =>
      match op with
      | .all | .any | .uni => {}
      | .ballot => { uw := regs d 1 }
      | .mtch => { vr := regs a 1, vw := regs d 1 }
  | .wred op d a b =>
      if op.isIdx then { vr := regs a 1 ++ regs b 1, uw := regs d 2 } else { vr := regs a 1, uw := regs d 1 }
  | .plog _ _ _ _ => {}
  | .xmov k w d a => xmovOpnds k w d a
  | .meldDecl _ a => { ur := regs a 1 }
  | .meldSign _ tok => { tok := tokNum tok }
  | .meldCancel _ => {}
  | .meldQry d _ => { uw := regs d 1 }
  | .ldw t tok _ | .mstr _ t _ _ tok _ | .accRd _ t tok _ | .accWr _ t tok _ =>
      { tiles := regs t 1, tok := tokNum tok }
  | .ldwSwap tok _ | .accZ _ tok _ => { tok := tokNum tok }
  | .accAcq _ _ | .accRel _ _ => {}
  | .tilePlane _ a _ | .tileHnd _ a | .tileDim _ a | .tileAdv _ a => { ur := regs a 1 }
  | .ld k d a _ => { vr := regs a 2, vw := regs d (sizeRegs k.size) }
  | .st k d a _ => { vr := regs a 2 ++ regs d (sizeRegs k.size) }
  | .ldx k ub _ d a b => baseOp ub a { vr := regs b 1, vw := regs d (sizeRegs k.size) }
  | .stx k ub _ d a b => baseOp ub a { vr := regs b 1 ++ regs d (sizeRegs k.size) }
  | .lde nf h d a b => { vr := regs a 2 ++ regs b 1, vw := regs d (if nf == 1 && !h then 2 else 1) }
  | .ste nf _ d a b => { vr := regs a 2 ++ regs b 1 ++ regs d (if nf == 1 then 2 else 1) }
  | .atom op w d a b =>
      { vr := regs a 2 ++ regs b (if op == .cas then 2 * wid w else wid w), vw := regs d (wid w) }
  | .acpy fn _ d a tok =>
      { tiles := regs d 1 ++ (if fn == .zero then [] else regs a 1), tok := tokNum tok }
  | .tagLook d a => { vr := regs a 2, vw := regs d 1 }
  | .tagSet a b => { vr := regs a 2 ++ regs b 1 }
  | .tagInv b => { vr := regs b 1 }
  | .tagRd d b => { vr := regs b 1, vw := regs d 2 }
  | .tagWr a b => { vr := regs a 1 ++ regs b 1 }
  | .splfSt d a _ => { vr := regs d 1 ++ regs a 2 }
  | .splfLd d a _ => { vr := regs a 2, vw := regs d 1 }
  | .fencM | .fencQImm _ => {}
  | .fencQReg a => { ur := regs a 1 }
  | .fencR a => { ur := regs a 2 }
  | .fencRcommit a b => { ur := regs a 2, tok := some b.toNat, priv := true }
  | .futFill d a b => { vr := regs a 2 ++ regs b 1, vw := regs d 1 }
  | .futWait d a | .futTake d a => { vr := regs a 2, vw := regs d 1 }
  | .futClr a => { vr := regs a 2 }
  | .bra _ | .braPred _ _ _ | .braU _ _ _ => {}
  | .jmpr ub a => baseOp ub a {}
  | .jmprLink ub d a => baseOp ub a { vw := regs d 2 }
  | .call d _ => { vw := regs d 2 }
  | .spawn d a b => { vr := regs b 8, vw := regs d 1, ur := regs a 2 }
  | .reform | .rcv | .exit | .yield => {}
  | .handoff a b => { ur := regs a 1 ++ regs b 1 }
  | .bar _ => {}
  | .syncw a => { vr := regs a 1 }
  | .syncwU a => { ur := regs a 1 }
  | .wbase _ => {}
  | .rpf _ _ => {}
  | .acqB a | .rel a => { ur := regs a 1 }
  | .acqT d a => { ur := regs a 1, uw := regs d 1 }
  | .qry d => { uw := regs d 2 }
  | .forkMx _ a tok | .forkCp _ a tok => { ur := regs a 1, tok := tokNum tok }
  | .forkBoth _ a tok => { ur := regs a 2, tok := tokNum tok }
  | .rdv _ => {}
  | .tq a => { ur := regs a 2 }
  | .enq d a b => { vr := regs a 2 ++ regs b 1, vw := regs d 1 }
  | .tapeArm d a b => { ur := regs a 2 ++ regs b 2, uw := regs d 1, priv := true }
  | .tapeOff d b => { ur := regs b 1, uw := regs d 1, priv := true }
  | .tapeQry d b => { ur := regs b 1, uw := regs d 4, priv := true }
  | .bin d a b => { vr := regs d 1 ++ regs b 2, ur := regs a 2 }
  | .pld d a _ => { vr := regs a 1, vw := regs d 1 }
  | .pst d a _ => { vr := regs d 1 ++ regs a 1 }
  | .sample _ _ d t b => { vr := regs b 2, vw := regs d 1, tiles := regs t 1 }
  | .blend _ a b => { vr := regs a 1 ++ regs b 1 }
  | .tdone => {}
  | .dcmp a b => { vr := regs b 1, ur := regs a 2 }
  | .pipeMap _ | .pipeUnmap _ => {}
  | .pipeQry d _ => { uw := regs d 1 }
  | .meldEntry _ | .matrixOperation _ | .copyProbe _ _ | .copyChunk _ _ | .sequencerEntry _ _
  | .engineFaultRetry _ _ | .binTimer _ _ | .warpLaunch _ _ | .injection _ _ | .pathAge _ _
  | .warpAge _ _ | .budget _ _ | .head _ | .grant _ | .futAttempt _ _ | .barrierArrival _ _
  | .barrierComplete _ _ _ _ | .icinvCompletion _ _ | .groupEnd _ _ | .recordCheck _ | .admission _
  | .taskCompletion _ | .commit _ | .flushComplete _ | .flushStall _ | .binningStall _
  | .tileIssue _ _ _ | .visibilityWave _ _ | .shadingWave _ _ | .writeBack _ _ | .preemption _
  | .quiesce | .acknowledgement _ | .swapOut _ _ | .restore _ _ | .kill _ | .rangeCommitCheck
  | .rangeSwap | .arm _ _ _ _ _ | .off _ _ | .query _ _ | .engCommand _ | .memCommand _
  | .enqCommand _ | .bankCommand _ | .rfenceCommand _ | .logRead _ _ | .apertureSet _ _ _
  | .exportSet _ _ _ | .fwStage _ _ | .status _ | .mailboxRefused _ _ | .getVersion | .getCapabilities
  | .negotiateAlgorithms | .getDigests | .getCertificate | .challenge _ | .getMeasurements
  | .unsupportedRequest _ | .hostCxlMemRead _ _ | .hostCxlMemWrite _ _ | .hostSnoop _ _ | .tWake _
  | .tDead _ | .linkUp _ | .retryRequest _ _ | .linkDown _ | .pause _ _ | .resume _ _
  | .peerRequest _ _ _ | .remotePush _ _ _ | .pushAcknowledgement _ | .scrub _ _ | .telemetry | .reset
  | .powerState _ _ | .temperatureAbove95 _ | .temperatureBelow90 _ | .temperatureAbove110 _
  | .currentAbove85a | .currentBelow80a | .flowBelow15 | .wordNotAnInstruction
  | .instructionFetchFault _ | .spillWrite _ | .cleanAcknowledgement | .flitAcknowledgement _ _
  | .quiesceEnd | .killOfResidentGroup _ => {}

/-- Every uniform register a word names. -/
def Opnds.uni (o : Opnds) : List Nat := o.ur ++ o.uw ++ o.tok.toList
/-- Every vector register a word names. -/
def Opnds.vec (o : Opnds) : List Nat := o.vr ++ o.vw

/-- The word is a melded form: its signers do not wait for the token they name (R128). -/
def signs : Instr → Bool
  | .meldSign _ _ => true
  | .ldw _ _ mk | .ldwSwap _ mk | .mstr _ _ _ _ _ mk | .accZ _ _ mk | .accRd _ _ _ mk
  | .accWr _ _ _ mk => mk.isSome
  | _ => false

/-! ### Pipes (R37-R39) -/

/-- A register of a warp slot of a group in a mapped pipe: the pipe and the register's index in it. -/
def Core.pipeAt (k : Core) (g : Group) (slot phys : Nat) : Option (Pipe × Nat) :=
  k.pipes.findSome? fun q =>
    if q.gang = g.gang ∧ (sfind q.maps slot).isSome then
      if q.src = g.member ∧ q.fstart ≤ phys ∧ phys < q.fstart + q.count then some (q, phys - q.fstart)
      else if q.dst = g.member ∧ q.tstart ≤ phys ∧ phys < q.tstart + q.count then some (q, phys - q.tstart)
      else none
    else none

/-- A register of a mapped pipe of the issuing warp. -/
def Ctx.pipeReg (x : Ctx) (phys : Nat) : Option (Pipe × Nat) := (x.s.core x.core).pipeAt x.g x.slot phys

/-- The full bit of a pipe register in a lane. -/
def Pipe.isFull (q : Pipe) (slot idx l : Nat) : Bool :=
  (sget (sget q.maps slot []) idx 0).getLsbD l

/-- The pipe accesses of a word: lane, pipe, index, and whether it reads. A register that is read and
written counts as read (R38). A word that reads a vector register in the lowest lane only waits for that lane's bit
and empties it alone: the model's choice (log 92). -/
def Ctx.pipeUses (x : Ctx) (o : Opnds) : List (Nat × Pipe × Nat × Bool) :=
  if (x.s.core x.core).pipes.isEmpty then []
  else x.ls.flatMap fun l =>
    let w := (x.th l).winbase.toNat * 8
    ((o.vr.filter fun _ => !o.low || l == x.l0).filterMap fun n => (x.pipeReg (w + n)).map fun (q, i) => (l, q, i, true)) ++
    ((o.vw.filter fun n => !o.vr.contains n).filterMap fun n =>
      (x.pipeReg (w + n)).map fun (q, i) => (l, q, i, false))

/-- The partner warp of a pipe holds no live thread (R39, R434). -/
def Ctx.partnerGone (x : Ctx) (q : Pipe) : Bool :=
  let m := if q.src = x.g.member then q.dst else q.src
  match (x.s.core x.core).groups.find? (fun g => g.gang == x.g.gang && g.member == m) with
  | none => true
  | some g => match g.warp? x.slot with
    | none => true
    | some w => (g.liveLanes w).isEmpty

/-- The accesses that cannot be made now. -/
def Ctx.pipeBlocked (x : Ctx) (o : Opnds) : List Pipe :=
  (x.pipeUses o).filterMap fun (l, q, i, rd) => if q.isFull x.slot i l == rd then none else some q

/-- A lane waits at SYNCW. Its SYNCW has made all its reads as it issued (R38; log 28). -/
def Wait.isSyncw : Wait → Bool
  | .syncw _ => true
  | _ => false

/-- The lanes of the issuing set that completed the instruction, or its reads at least: neither parked, nor waiting,
other than at SYNCW, nor stalled at it. A lane that the instruction takes out of its sub-warp has completed it (R394). -/
def Ctx.completed (x : Ctx) (s : State) : List Nat :=
  let g := x.g' s
  let w := x.w' s
  x.ls.filter fun l =>
    match g.laneThread w l with
    | none => false
    | some th => (th.wait == .none || th.wait.isSyncw) && ((w.subOf l).isNone || (x.w.subOf l).isSome) &&
        !(th.pc == x.pc && (w.stalledAt l || (g.stop.isSome && (x.g.stop.isNone || (w.subOf l).isSome))))

/-- The partner's group and member of a pipe, by this group's member. -/
def Pipe.other (q : Pipe) (member : Nat) : Nat := if q.src = member then q.dst else q.src

/-- First register of a member's range of a pipe. -/
def Pipe.start (q : Pipe) (member : Nat) : Nat := if q.src = member then q.fstart else q.tstart

/-- The full bit of a pipe register in a lane of a warp slot is set or cleared. -/
def Pipe.setFull (q : Pipe) (slot i l : Nat) (full : Bool) : Pipe :=
  let m := sget q.maps slot []
  let bits := sget m i 0
  { q with maps := sput q.maps slot (sset m i (if full then bits ||| laneBit l else bits &&& ~~~laneBit l) 0) }

/-- Set or clear the full bit of register i of a pipe of a core. -/
def State.pipeBit (s : State) (core : Nat) (q : Pipe) (slot i l : Nat) (full : Bool) : State :=
  s.modCore core fun k => { k with pipes := k.pipes.map fun r =>
    if r.gang = q.gang ∧ r.k = q.k then r.setFull slot i l full else r }

/-- Register i of a pipe has been written in a lane by a member: the bit is full, and the partner's register of the
pair holds the value written, its poison gone (R37, R382). -/
def State.pipeFill (s : State) (core : Nat) (q : Pipe) (gk slot i l : Nat) : State :=
  let s := s.pipeBit core q slot i l true
  match (s.group? core gk).bind fun g => ((g.warp? slot).bind fun w => g.laneThread w l).map fun th => (g, th) with
  | none => s
  | some (g, th) =>
    let v := sget th.vr (q.start g.member + i) 0
    let m := q.other g.member
    s.modGang core g.gang fun h =>
      if h.member = m then
        match (h.warp? slot).bind fun w => w.tslot l with
        | some u => h.modThread u fun th =>
            { th with vr := sset th.vr (q.start m + i) v 0, vpoison := th.vpoison.filter (· != q.start m + i) }
        | none => h
      else h

/-- After the effect, in the lanes that completed: reads empty the bits, writes fill them, and the partner's
register of the pair takes the value written (R37, R38). A register that awaits a remote ENQ's result is written
with it (R304). -/
def Ctx.pipeAfter (x : Ctx) (o : Opnds) (s : State) : State :=
  let uses := x.pipeUses o
  if uses.isEmpty then s
  else
    let ok := x.completed s
    (uses.filter fun (l, _, _, _) => ok.contains l).foldl (fun s (l, q, i, _) =>
      let phys := q.start x.g.member + i
      let awaits := ((x.g' s).laneThread (x.w' s) l).any fun th => th.vpend.contains phys
      if (o.vw.any fun n => (x.th l).winbase.toNat * 8 + n == phys) && !awaits then
        s.pipeFill x.core q x.g.gk x.slot i l
      else if o.vr.any fun n => (x.th l).winbase.toNat * 8 + n == phys then s.pipeBit x.core q x.slot i l false
      else s) s

/-! ### Before the effect -/

/-- Every register named lies within the holding (R26, R29), for every lane. -/
def Ctx.held (x : Ctx) (o : Opnds) : Bool :=
  o.uni.all (fun n => decide (n < x.g.uh)) &&
  x.ls.all fun l => o.vec.all fun n => decide ((x.th l).winbase.toNat * 8 + n < x.g.vh)

/-- The descriptors used pass R30. -/
def Ctx.tilesOk (x : Ctx) (o : Opnds) : Bool := o.tiles.all fun n => Dsc.ok (x.w.t n)

/-- MTS of TRAPLANES from lanes in no sub-warp is an illegal encoding, before privilege (R394). -/
def Ctx.mtsLanes (x : Ctx) (i : Instr) : Bool :=
  match i with
  | .mts _ sel => sel.reg == .traplanes && x.sub?.isNone || !sel.reg.writable
  | _ => false

/-- Uniform registers pending in the scoreboard that stall the word (R40, R128). -/
def Ctx.pendingU (x : Ctx) (i : Instr) (o : Opnds) : List Nat :=
  o.uni.filter fun n => x.w.upend.contains n && !(signs i && o.tok == some n && !(o.ur ++ o.uw).contains n)

/-- A vector register named awaits a remote ENQ's result (R304). -/
def Ctx.pendingV (x : Ctx) (o : Opnds) : Bool :=
  x.ls.any fun l => o.vec.any fun n => (x.th l).vpend.contains ((x.th l).winbase.toNat * 8 + n)

/-- A poisoned register is read (R51, R382). -/
def Ctx.readsPoison (x : Ctx) (o : Opnds) : Bool :=
  o.ur.any (fun n => x.w.upoison.contains n) ||
  (if o.low then [x.l0] else x.ls).any fun l =>
    o.vr.any fun n => (x.th l).vpoison.contains ((x.th l).winbase.toNat * 8 + n)

/-- The failed token the word raises: one it was stalled on, or one it reads (R51, R132). -/
def Ctx.failed (x : Ctx) (o : Opnds) : Option (Nat × Nat) :=
  x.w.failTok.find? fun (r, _) => o.ur.contains r || (x.w.upstall.contains r && o.uni.contains r)

/-- The cause of a failed token is raised, once (R132). -/
def Ctx.raiseTok (x : Ctx) (r c : Nat) : State :=
  x.park (x.modW x.s fun w =>
    { w with failTok := w.failTok.filter (fun e => e.1 != r), upstall := w.upstall.filter (· != r) }) x.lanes (Cause.bit c)

/-- The word is stalled on the scoreboard's pending registers (R40, R132). -/
def Ctx.stallTok (x : Ctx) (s : State) (l : List Nat) : State :=
  x.stall (x.modW s fun w => { w with upstall := w.upstall ++ l.filter fun n => !w.upstall.contains n }) .token

/-- What the checks before the effect decide. -/
inductive Gate where
  /-- the word runs -/
  | go
  /-- the state instead: parked, stalled or waiting -/
  | stop (s : State)

/-- The checks before a word's effect: those of R46, then a failed token (R51, R132), the scoreboard, poison (R382), and
pipes (R37). No rule orders the last four among themselves: their order is the model's choice (log 77). -/
def gate (i : Instr) (x : Ctx) : Gate :=
  let o := (opndsOf i)
  if !x.held o || !x.tilesOk o || x.mtsLanes i then .stop (x.raise Cause.illop)
  else if o.priv && !x.sup then .stop (x.raise Cause.illpriv)
  else match x.failed o with
    | some (r, c) => .stop (x.raiseTok r c)
    | none =>
      let st := x.pendingU i o
      if !st.isEmpty then
        .stop (x.stallTok x.s st)
      else if x.pendingV o then .stop (x.stall x.s .token)
      else if x.readsPoison o then .stop (x.raise Cause.dataerr)
      else
        let blocked := x.pipeBlocked o
        if blocked.isEmpty then .go
        else if blocked.any x.partnerGone then .stop (x.raise Cause.pipefe)
        else .stop (x.waitAt x.s x.ls (.pipe i ((x.pipeUses o).map fun (_, q, _, _) => q.k) x.s.stepNo))

/-- A read of a written token or of a pipe register sets the recorder's sync flag (R365) before the
instruction's own commands are recorded. -/
def Ctx.marked (x : Ctx) (o : Opnds) : Ctx :=
  if o.ur.any (fun r => x.w.tokw.contains r) || (x.pipeUses o).any (fun (_, _, _, rd) => rd) then
    { x with s := x.s.sync x.core x.g x.slot }
  else x

/-- An instruction word at its issuing set: the checks, then its effect, then its pipe bits. -/
def runWord (i : Instr) (s : State) (eff : Ctx → State) : Host.Outcome State Fault Refusal :=
  match ctxOf s with
  | none => .fault .noIssuingSet
  | some x =>
    match gate i x with
    | .stop s' => .next s'
    | .go =>
      let y := x.marked (opndsOf i)
      .next (y.pipeAfter (opndsOf i) (eff y))

end Sys2Proof.Machine
end

