-- ==== Sys2Proof/Machine/Flags.lean ====
section
/-! DEFINITION. Operands as numbers (R80, R82, R97), roundings (R81), and results with the flags they set
(R34, R86): every computation of a flag or of a saturated or wrapped result. -/

namespace Sys2Proof.Machine

/-! ### Reading operands -/

/-- The bits of a vector operand of 32 or 64 bits. -/
def Ctx.vn (x : Ctx) (w : Bool) (n l : Nat) : Nat := if w then (x.v64 n l).toNat else (x.v n l).toNat
/-- The bits of a b operand of a vector ALU instruction (R28). -/
def Ctx.bn (x : Ctx) (w : Bool) (n l : Nat) : Nat := if w then (x.b64 n l).toNat else (x.b n l).toNat

/-- Bits read as T reads them (R80). -/
def IType.read (t : IType) (v : Nat) : Int :=
  match t with
  | .s32 => sx v 32
  | .z32 => (v % 2 ^ 32 : Nat)
  | .s64 => sx v 64
  | .z64 => (v % 2 ^ 64 : Nat)

/-- T is a 64-bit type. -/
def wide (t : IType) : Bool :=
  match t with | .s64 | .z64 => true | .s32 | .z32 => false
/-- T is signed. -/
def isSigned (t : IType) : Bool :=
  match t with | .s32 | .s64 => true | .z32 | .z64 => false

/-- A(l), Bv(l) and D(l) of R80. -/
def Ctx.iA (x : Ctx) (t : IType) (n : BitVec 7) (l : Nat) : Int := IType.read t (x.vn (wide t) n.toNat l)
def Ctx.iB (x : Ctx) (t : IType) (n : BitVec 7) (l : Nat) : Int := IType.read t (x.bn (wide t) n.toNat l)

/-- The bits of a floating-point operand of format F (R82, R97). -/
def Ctx.fA (x : Ctx) (f : FFmt) (n : BitVec 7) (l : Nat) : Nat :=
  match f with
  | .f64 => (x.v64 n.toNat l).toNat
  | .f32 => (x.v n.toNat l).toNat
  | .f16 | .bf16 => (x.v n.toNat l).toNat % 65536
/-- The bits of a floating-point b operand (R28). -/
def Ctx.fB (x : Ctx) (f : FFmt) (n : BitVec 7) (l : Nat) : Nat :=
  match f with
  | .f64 => (x.b64 n.toNat l).toNat
  | .f32 => (x.b n.toNat l).toNat
  | .f16 | .bf16 => (x.b n.toNat l).toNat % 65536

/-- rmode() of a lane (R55, R81). -/
def Ctx.rmode (x : Ctx) (l : Nat) : RM := RM.ofBits (x.th l).rmode
/-- The rounding of a RND code (R81). -/
def Ctx.rnd (x : Ctx) (r : Rnd) (l : Nat) : RM :=
  match r with
  | .dflt => x.rmode l
  | .rn => .rn
  | .rz => .rz
  | .rp => .rp
  | .rm => .rm

/-! ### Writing results -/

/-- Write 32 bits, or a pair. -/
def Thread.setN (th : Thread) (w : Bool) (n : Nat) (v : Nat) : Thread :=
  if w then th.setV64 n (BitVec.ofNat 64 v) else th.setV n (BitVec.ofNat 32 v)

/-- An integer result of type T: saturated or wrapped (R88). -/
def intResult (signed sat : Bool) (n : Nat) (v : Int) : Nat :=
  wrap (if sat then (if signed then satS v n else satZ v n) else v) n

/-- The flags a result set go to FPSTAT and the bits to d (R34, R97). -/
def Thread.setF (th : Thread) (f : FFmt) (n : Nat) (r : Nat × Flags) : Thread :=
  (th.setN (f == .f64) n r.1).flag r.2.bits

/-- Every lane writes an integer of one width to d. -/
def Ctx.writeInt (x : Ctx) (w : Bool) (d : BitVec 7) (val : Nat → Nat) : State :=
  x.done x.s fun l th => th.setN w d.toNat (val l)

/-- Every lane writes a floating-point result of format F to d and sets its flags. -/
def Ctx.writeFp (x : Ctx) (f : FFmt) (d : BitVec 7) (val : Nat → Nat × Flags) : State :=
  x.done x.s fun l th => th.setF f d.toNat (val l)

/-- Every lane writes predicate d (R29). -/
def Ctx.writePred (x : Ctx) (d : BitVec 4) (val : Nat → Bool) : State :=
  x.done x.s fun l th => th.setP d.toNat (val l)

/-- The comparisons of ISET (R92). -/
def Cmp.holds (c : Cmp) (a b : Int) : Bool :=
  match c with
  | .eq => decide (a = b)
  | .ne => decide (a ≠ b)
  | .lt => decide (a < b)
  | .le => decide (a ≤ b)
  | .gt => decide (b < a)
  | .ge => decide (b ≤ a)

end Sys2Proof.Machine
end

