-- ==== Sys2Proof/Machine/Translate.lean ====
section
/-! DEFINITION. From a virtual address to a byte: fixed windows, range registers, page tables,
physical regions and the peer window (spec/06 R145-R150, R156, R157; spec/13 R318-R321), and the
bytes behind them with page formats and poison (R73, R77, R189, R381-R383). -/

namespace Sys2Proof.Machine

/-- Kinds of access for permissions (R320). -/
inductive AKind where | load | store | atomic | fetch
  deriving DecidableEq, Repr

/-- The access writes. -/
def AKind.writes : AKind → Bool
  | .store | .atomic => true
  | .load | .fetch => false

/-- On whose behalf an access is made: the core of its windows (none for the scheduler), its address
space and mode, and the physical pages behind the group's logical pages. -/
structure Space where
  core : Option Nat
  ctx : Nat
  sup : Bool
  root : Nat
  pages : List Nat
  /-- physical pages of the core that a queued copy still reaches though they have been given up (R154) -/
  reach : List Nat
  deriving DecidableEq, Repr

/-- Where an address translates to: memory key, format attribute and the page's size in bytes. -/
structure Xlat where
  key : Nat
  fmt : Nat
  page : Nat
  /-- reached through a fixed window -/
  window : Bool
  /-- the unit that holds the data does not answer: a lost die (R388), or a peer behind a port that lost its link
  (R328); the access raises DATAERR at order 6 of R189 -/
  lost : Bool
  deriving DecidableEq, Repr

/-- The outcome of a translation or an access. -/
inductive Res (α : Type) where
  | ok (a : α)
  /-- a cause of R189 -/
  | bad (cause : Nat)
  /-- the page is being moved: the access waits at translation (R321) -/
  | wait
  deriving DecidableEq, Repr

/-- Continue after a success. -/
def Res.andThen {α β : Type} (x : Res α) (f : α → Res β) : Res β :=
  match x with
  | .ok a => f a
  | .bad c => .bad c
  | .wait => .wait

/-- An upper SRAM die is present (R10). -/
def State.hasUpper (s : State) (core : Nat) : Bool := s.upper.getLsbD (core / 128)
/-- LSCAP.PAGES of a core (R34). -/
def State.lsPages (s : State) (core : Nat) : Nat := if s.hasUpper core then 1536 else 768
/-- A compute die is lost (R387). -/
def State.dieLost (s : State) (d : Nat) : Bool :=
  match s.dies[d]? with
  | some x => x.link == .lost
  | none => false

/-! ### Fixed windows (R145, R149, R150) -/

/-- First byte of the fixed-window region and of its windows. -/
def windowRegion : Nat := 0xFFFC000000000
def lsWindow : Nat := 0xFFFF000000000
def groveWindow : Nat := 0xFFFE000000000
def talonWindow : Nat := 0xFFFD000000000

/-- The key of a local-store window offset (R149). -/
def lsOffset (core : Nat) (pages : List Nat) (off : Nat) : Option Nat :=
  (pages[off / 4096]?).map fun p => lsKey core (p * 4096 + off % 4096)

/-- The fixed-window region. -/
def State.windowXlat (s : State) (sp : Space) (write : Bool) (ea : Nat) : Res Xlat :=
  match sp.core with
  | none => .bad Cause.prot
  | some c =>
    if lsWindow ≤ ea ∧ ea < lsWindow + 2 ^ 23 then
      match lsOffset c sp.pages (ea - lsWindow) with
      | some k => .ok ⟨k, 0, 4096, true, false⟩
      | none => .bad Cause.prot
    else if groveWindow ≤ ea ∧ ea < groveWindow + 2 ^ 28 then
      let off := ea - groveWindow
      let tc := c / 32 * 32 + off / 2 ^ 23
      let page := off % 2 ^ 23 / 4096
      if s.lsPages tc ≤ page then .bad Cause.prot
      else if s.dieLost (tc / 128) then .ok ⟨lsKey tc (off % 2 ^ 23), 0, 4096, true, true⟩
      else
        match (s.core tc).groups.find? fun g => g.pages.contains page with
        | none => if tc = c ∧ sp.reach.contains page = true then .ok ⟨lsKey tc (off % 2 ^ 23), 0, 4096, true, false⟩
            else .bad Cause.prot
        | some g => if g.ctx = sp.ctx then .ok ⟨lsKey tc (off % 2 ^ 23), 0, 4096, true, false⟩ else .bad Cause.prot
    else if talonWindow ≤ ea ∧ ea < talonWindow + 2 ^ 20 ∧ sp.sup = true then
      if write && s.talonGuarded (c / 32) (ea - talonWindow) then .bad Cause.prot
      else .ok ⟨talonKey (c / 32) (ea - talonWindow), 0, 4096, true, false⟩
    else .bad Cause.prot

/-! ### Physical regions (R147, R148) -/

/-- The sender of a link, idle until it is first named. -/
def State.link (s : State) (l : Link) : LinkState :=
  (s.links.find? fun x => x.id == l).getD ⟨l, 0, [], 0, [], 0, [], [], [], false⟩

/-- Put the sender and receiver of a link. -/
def State.setLink (s : State) (x : LinkState) : State :=
  { s with links := x :: s.links.filter fun y => y.id != x.id }

/-- Traffic of the module crosses a link, whose flits are followed from then on (R385, R386). -/
def State.useLink (s : State) (l : Link) : State := if s.links.any fun x => x.id == l then s else s.setLink (s.link l)

/-- A link sends no new flit of a class: the class is paused (R386). -/
def State.classPaused (s : State) (l : Link) (c : TClass) : Bool := (s.link l).paused.any fun p => p.1 == c

/-- The Rolik port a request to a peer is routed over: routes are not visible (R328), so it is a free choice of the
16 ports (log 1). -/
def State.route (s : State) (endpoint : Nat) : Link := .rolik (s.choose (131072 + endpoint) 16)

/-- The port a request to a peer is routed over has lost its link (R328). -/
def State.routeDown (s : State) (endpoint : Nat) : Bool := !s.links.isEmpty && (s.link (s.route endpoint)).down

/-- The port a request to a peer is routed over takes no new flit of a class (R386). -/
def State.routePaused (s : State) (endpoint : Nat) (c : TClass) : Bool :=
  !s.links.isEmpty && s.classPaused (s.route endpoint) c

/-- An access of a core that has to leave its die waits: its die-to-die link is not up, or the request class is
paused on it (R386, R387). Whether the access has to leave the die is open (log 1). -/
def State.linkWaits (s : State) (core : Option Nat) : Bool :=
  match core with
  | none => false
  | some c =>
    let die := c / 128
    ((s.dies[die]?).any (fun d => d.link != .up && d.link != .lost) || s.classPaused (.d2d die) .request) &&
      s.choose (393216 + c) 2 == 1

/-- A span of n bytes meets device memory that firmware alone writes: the aperture and the export table and the management
area (R148, R329, R439). -/
def firmwareSpan (k n : Nat) : Bool :=
  let meets (lo hi : Nat) : Bool := decide (k < hi) && decide (lo < k + n)
  meets Config.apertureTable (Config.apertureTable + 4096) || meets Config.exportTable (Config.exportTable + 4096) ||
    meets Config.mgmtArea lpddrEnd

/-- A byte of device memory that firmware alone writes. -/
def firmwareOnly (pa : Nat) : Bool := firmwareSpan pa 1

/-- Record of a peer aperture (R148). -/
def State.aperture (s : State) (pa : Nat) : Nat := s.num (Config.apertureTable + 8 * (pa / 2 ^ 41 % 512)) 8

/-- A peer access names a valid aperture and an offset in the peer's memory (R148). -/
def State.peerBacked (s : State) (pa : Nat) : Bool := nbit (s.aperture pa) 18 && decide (pa % 2 ^ 41 < lpddrEnd)

/-- Endpoint of a peer access. -/
def State.peerEnd (s : State) (pa : Nat) : Nat := s.aperture pa % 2 ^ 18

/-- The memory key of a physical address, with the checks of R147 and R148, and whether the request is lost on
its way (R328). A peer behind a lost link is never asked whether it accepts. A store into memory that firmware alone
writes raises PROT (log 72). -/
def State.physical (s : State) (core : Option Nat) (pa : Nat) (write : Bool) : Res (Nat × Bool) :=
  if pa < lpddrEnd then
    (if write && firmwareOnly pa then .bad Cause.prot else if s.linkWaits core then .wait else .ok (pa, false))
  else if 2 ^ 50 ≤ pa ∧ pa < 2 ^ 51 then
    if s.linkWaits core then .wait
    else if Config.hostAccepts s.stepNo (pa - 2 ^ 50) then .ok (pa, false) else .bad Cause.prot
  else if 2 ^ 51 ≤ pa ∧ pa < 2 ^ 51 + 2 ^ 50 then
    let e := s.peerEnd pa
    let off := pa % 2 ^ 41
    if !s.peerBacked pa then .bad Cause.prot
    else if s.linkWaits core then .wait
    else if s.routeDown e then .ok (peerKey e off, true)
    else if s.routePaused e .request then .wait
    else if Config.peerAccepts s.stepNo Config.ownEndpoint e off write then .ok (peerKey e off, false)
    else .bad Cause.prot
  else .bad Cause.prot

/-- The home of a physical address in edge-ordered memory, whatever it accepts; none for lease-domain memory and
where nothing is. -/
def State.edgeHome (s : State) (pa : Nat) : Option Nat :=
  if 2 ^ 50 ≤ pa ∧ pa < 2 ^ 51 then some pa
  else if (2 ^ 51 ≤ pa ∧ pa < 2 ^ 51 + 2 ^ 50) ∧ s.peerBacked pa = true then
    some (peerKey (s.peerEnd pa) (pa % 2 ^ 41))
  else none

/-- What the entry of an address maps it to, and what it permits (orders 3 and 4 of R189 apart). -/
structure Mapped where
  pa : Nat
  fmt : Nat
  /-- bytes of the page -/
  page : Nat
  rd : Bool
  wr : Bool
  ex : Bool
  usr : Bool

/-! ### Range registers (R156, R157) -/

namespace Range
def vbase (e : RangeEntry) : Nat := fld e 51 0
def vlimit (e : RangeEntry) : Nat := fld e 115 64
def pbase (e : RangeEntry) : Nat := fld e 179 128
def valid (e : RangeEntry) : Bool := bitAt e 192
def fmt (e : RangeEntry) : Nat := fld e 200 197
def geom (e : RangeEntry) : Nat := fld e 203 201
end Range

/-- A legal FMT and GEOM pair (R73), the page size apart. -/
def fmtPair (fmt geom : Nat) : Bool :=
  (decide (fmt ≤ 6) && geom == 0) || ((fmt == 7 || fmt == 8) && geom == 1)

/-- The range entry that an address hits. -/
def State.rangeHit (s : State) (a : Nat) : Option RangeEntry :=
  (s.ranges.find? fun (_, e) => Range.valid e && decide (Range.vbase e ≤ a) && decide (a < Range.vlimit e)).map
    Prod.snd

/-- A permission bit per kind (R157, R320): RD, WR, EX from the low bit on. -/
def permitted (kind : AKind) (rd wr ex : Bool) : Bool :=
  match kind with
  | .load => rd
  | .store => wr
  | .atomic => rd && wr
  | .fetch => ex

/-- Translation through a range entry (R157). -/
def rangeMap (e : RangeEntry) (a : Nat) : Res Mapped :=
  let fmt := Range.fmt e
  if !fmtPair fmt (Range.geom e) ||
      ((fmt == 7 || fmt == 8) && (Range.vbase e % 65536 != 0 || Range.pbase e % 65536 != 0)) then
    .bad Cause.range
  else
    .ok { pa := (Range.pbase e + (a - Range.vbase e)) % 2 ^ 52, fmt := fmt, page := 65536,
          rd := bitAt e 193, wr := bitAt e 194, ex := bitAt e 195, usr := bitAt e 196 }

/-! ### Page tables (R318-R321) -/

/-- The bytes of a page of a SIZE code (R318). -/
def pageBytes (size : Nat) : Nat :=
  match size with | 0 => 2 ^ 12 | 1 => 2 ^ 16 | 2 => 2 ^ 21 | _ => 2 ^ 30

/-- A table of 8 KiB lies wholly in device LPDDR (R319). -/
def tableOk (t : Nat) : Bool := decide (t + 8192 ≤ lpddrEnd)

/-- A leaf at a level is well formed (R319). -/
def leafOk (e level : Nat) : Bool :=
  let size := nbits e 7 6
  let fmt := nbits e 11 8
  nbits e 63 56 == 0 && ((level == 0 && decide (size ≤ 2)) || (level == 1 && size == 3)) &&
    (nbits e 51 12 * 4096) % pageBytes size == 0 && fmtPair fmt (nbits e 54 52) && !(fmt == 8 && size == 0)

/-- A pointer to the next table at a level is well formed (R319). -/
def nextOk (e level : Nat) : Bool :=
  nbits e 63 56 == 0 && level != 0 && nbits e 11 2 == 0 && nbits e 55 52 == 0 && !nbit e 12

/-- The walk from the table of a level: the leaf, whatever it grants. A leaf of a page being moved, V = 0 and MIG = 1,
waits where it is well formed; a malformed entry raises PAGE whatever its V and MIG (R319, R321). -/
def State.walk (s : State) (a : Nat) : (level table : Nat) → Res Nat
  | level, table =>
    if !tableOk table then .bad Cause.page
    else
      let k := table + 8 * (a / 2 ^ (12 + 10 * level) % 1024)
      if s.poisoned k 8 then .bad Cause.dataerr
      else
        let e := s.num k 8
        if !nbit e 0 then (if nbit e 55 && nbit e 1 && leafOk e level then .wait else .bad Cause.page)
        else if nbit e 1 then (if leafOk e level then .ok e else .bad Cause.page)
        else if !nextOk e level then .bad Cause.page
        else match level with
          | 0 => .bad Cause.page
          | n + 1 => s.walk a n (nbits e 51 12 * 4096)

/-- Translation through the page tables (R318, R319). -/
def State.pageMap (s : State) (root a : Nat) : Res Mapped :=
  (s.walk a 3 root).andThen fun e =>
    let size := pageBytes (nbits e 7 6)
    .ok { pa := (nbits e 51 12 * 4096 + a % size) % 2 ^ 52, fmt := nbits e 11 8, page := size,
          rd := nbit e 2, wr := nbit e 3, ex := nbit e 4, usr := nbit e 5 }

/-- Translation of an address outside the fixed windows, whatever is permitted there: order 3 of R189. -/
def State.mapped (s : State) (sp : Space) (ea : Nat) : Res Mapped :=
  match s.rangeHit ea with
  | some e => rangeMap e ea
  | none => s.pageMap sp.root ea

/-- Order 4 of R189: the permission for the kind, the USR rule, the physical region, the peer (R157, R320, R147,
R148). -/
def State.permit (s : State) (sp : Space) (kind : AKind) (m : Mapped) : Res Xlat :=
  if !permitted kind m.rd m.wr m.ex || (!sp.sup && !m.usr) then .bad Cause.prot
  else (s.physical sp.core m.pa kind.writes).andThen fun (k, lost) => .ok ⟨k, m.fmt, m.page, false, lost⟩

/-- The one translation of an access (R146). -/
def State.translate (s : State) (sp : Space) (kind : AKind) (ea : Nat) : Res Xlat :=
  if 2 ^ 52 ≤ ea then .bad Cause.prot
  else if windowRegion ≤ ea then s.windowXlat sp kind.writes ea
  else (s.mapped sp ea).andThen (s.permit sp kind)

/-- The order of R189 at which a translation of an address failed. -/
def failOrder (ea cause : Nat) : Nat :=
  if windowRegion ≤ ea then 2 else if cause = Cause.page ∨ cause = Cause.range then 3 else 4

/-- The addresses of one lane's access, all translated: the check of the lowest order that fails decides, the first
of them on a tie (R189, R190); a page being moved is met at order 3. -/
def gatherXlat (l : List (Nat × Res Xlat)) : Res (List (Nat × Xlat)) :=
  let bad := l.filterMap fun e => match e.2 with
    | .bad c => some (failOrder e.1 c, some c)
    | .wait => some (3, none)
    | .ok _ => none
  match minBy (fun e => 2 * e.1 + (if e.2.isSome then 1 else 0)) bad with
  | some (_, some c) => .bad c
  | some (_, none) => .wait
  | none => .ok (l.filterMap fun e => match e.2 with
      | .ok x => some (e.1, x)
      | .bad _ | .wait => none)

/-! ### Spaces -/

/-- The space of a group in a mode. -/
def Group.space (g : Group) (core : Nat) (sup : Bool) : Space := ⟨some core, g.ctx, sup, g.root, g.pages, []⟩

/-- The space of the issuing lanes (R315). -/
def Ctx.space (x : Ctx) : Space := x.g.space x.core x.sup

/-- The context descriptor of an address space (R316). -/
def State.ctxDesc (s : State) (ctx : Nat) : Nat := s.num (Config.contextTable + 64 * ctx) 64

/-- The context descriptor is valid (R316). -/
def ctxValid (d : Nat) : Bool :=
  nbit d 0 && nbits d 63 2 == 0 && nbits d 127 116 == 0 && nbits d 191 180 == 0 && nbits d 255 244 == 0 &&
    nbits d 511 288 == 0 && nbits d 76 64 == 0 && nbits d 133 128 == 0 && nbits d 194 192 == 0 &&
    tableOk (nbits d 115 64)

/-- Supervisor access in an address space by its root, with no windows. -/
def rootSpace (ctx root : Nat) : Space := ⟨none, ctx, true, root, [], []⟩

/-- Scheduler accesses in an address space: supervisor access, no windows (R266). -/
def State.schedSpace (s : State) (ctx : Nat) : Space := rootSpace ctx (nbits (s.ctxDesc ctx) 115 64)

/-! ### Pending spills (R178) -/

/-- The byte of a key as a load on core c sees it: the last pending spill, else memory. -/
def State.seen (s : State) (k : Nat) : Byte :=
  if 2 ^ 53 ≤ k ∧ k < 2 ^ 54 then
    let c := (k - 2 ^ 53) / 2 ^ 23
    match ((s.core c).spills.reverse.findSome? fun p => p.cells.reverse.findSome? fun (j, v) =>
        if j ≤ k ∧ k < j + 4 then some (BitVec.ofNat 8 (v.toNat >>> (8 * (k - j)))) else none) with
    | some b => b
    | none => s.byte k
  else s.byte k

/-! ### Edge-ordered lines (R180, R181) -/

/-- The bytes of a line go to their home or come from it: for a line of a peer over a Rolik link, whose flits are followed
from then on (R385). -/
def State.crosses (s : State) (line : Nat) : State :=
  if 2 ^ 55 ≤ 128 * line then s.useLink (s.route ((128 * line - 2 ^ 55) / 2 ^ 41)) else s

/-- A die's L2 copy of a line, if it holds any of it. -/
def State.edgeAt (s : State) (die line : Nat) : Option EdgeLine :=
  s.edge.find? fun e => e.die == die && e.line == line

/-- Put a die's copy of a line. -/
def State.setEdge (s : State) (e : EdgeLine) : State :=
  if (s.edgeAt e.die e.line).isSome then
    { s with edge := s.edge.map fun f => if f.die = e.die ∧ f.line = e.line then e else f }
  else { s with edge := s.edge ++ [e] }

/-- Bytes of lines are written at their homes: a unit written wholly loses its poison (R382), and the units named bring
the poison of the copy with them (R381). -/
def State.homePut (s : State) (cells : List (Nat × Byte)) (bad : List Nat) : State :=
  let t := cells.foldl (fun (t : State) (e : Nat × Byte) => (t.put e.1 [e.2]).crosses (e.1 / 128)) s
  let keys := cells.map Prod.fst
  bad.foldl State.poisonUnit (if t.poison.isEmpty then t
    else { t with poison := t.poison.filter fun u => !((upto (8 * u) 8).all keys.contains) })

/-- Bytes of lines that are on their way to their homes. -/
def State.moving (s : State) (lines : List Nat) : List (Nat × Byte) :=
  (s.cleans.flatMap fun c => c.bytes).filter fun e => lines.contains (e.1 / 128)

/-- The bytes of lines that are on their way reach their homes: they may at any time before the acknowledgement. -/
def State.land (s : State) (lines : List Nat) : State :=
  if (s.moving lines).isEmpty then s
  else
    let bad := (s.cleans.flatMap fun c => c.bad).filter fun u => lines.contains (u / 16)
    State.homePut { s with cleans := s.cleans.map fun c =>
      { c with bytes := c.bytes.filter fun e => !lines.contains (e.1 / 128)
               bad := c.bad.filter fun u => !lines.contains (u / 16) } } (s.moving lines) bad

/-- A die's copy of a line that holds none of it yet. -/
def EdgeLine.new (die line : Nat) : EdgeLine := ⟨die, line, [], [], []⟩

/-- A word of a copy, 0-15, has been written in every byte since it was last cleaned. -/
def EdgeLine.wholly (e : EdgeLine) (w : Nat) : Bool := (upto (8 * w) 8).all e.dirty.contains

/-- A die's L2 copies a line from its home, keeping the bytes written and not yet cleaned; a poisoned word of the home is
poisoned in the copy, unless the copy holds all of it written (R380, R381). -/
def State.edgeFill (s : State) (die line : Nat) : State :=
  let t := (s.land [line]).crosses line
  let old := (t.edgeAt die line).getD (EdgeLine.new die line)
  t.setEdge { old with
    bytes := (List.range 128).map fun o =>
      (o, if old.dirty.contains o then sget old.bytes o 0 else t.byte (128 * line + o))
    bad := if old.bad.isEmpty && t.poison.isEmpty then []
      else (List.range 16).filter fun w =>
        if old.wholly w then old.bad.contains w else t.unitPoisoned (16 * line + w) }

/-- A load finds its line in the die's L2, or has it copied from the home. The clean bytes of a line may have left
the L2 at any time, so that the load finds the writes its home holds now: R181 leaves it open, and a free value says
which (log 26). -/
def State.edgeFetch (s : State) (die line : Nat) : State :=
  match s.edgeAt die line with
  | some e => if e.bytes.length = 128 && s.choose (700000 + die + 16 * line) 2 == 0 then s else s.edgeFill die line
  | none => s.edgeFill die line

/-- The byte a load by a device thread on a die reads. -/
def State.edgeRead (s : State) (die k : Nat) : Byte :=
  sget (((s.edgeFetch die (k / 128)).edgeAt die (k / 128)).map (·.bytes) |>.getD []) (k % 128) 0

/-- A byte is written into the die's L2 copy of its line, dirty or not. -/
def State.edgeKeep (s : State) (die k : Nat) (b : Byte) (dirty : Bool) : State :=
  let e := (s.edgeAt die (k / 128)).getD (EdgeLine.new die (k / 128))
  s.setEdge { e with bytes := sput e.bytes (k % 128) b,
                     dirty := if dirty && !e.dirty.contains (k % 128) then sortBy id (k % 128 :: e.dirty) else e.dirty }

/-- The dirty bytes of a copy. -/
def EdgeLine.out (e : EdgeLine) : List (Nat × Byte) := e.dirty.map fun o => (e.line * 128 + o, sget e.bytes o 0)

/-- The poisoned words of a copy that were written in it: units of the home that its write-back poisons (R381). -/
def EdgeLine.outBad (e : EdgeLine) : List Nat :=
  (e.bad.filter fun w => (upto (8 * w) 8).any e.dirty.contains).map (16 * e.line + ·)

/-- The copy of a line that an access of a die finds: a store finds what is there, or the line as its home holds it. -/
def State.copyBad (s : State) (die u : Nat) : Bool :=
  match (s.edgeFetch die (u / 16)).edgeAt die (u / 16) with
  | some e => e.bad.contains (u % 16)
  | none => false

/-- A unit is poisoned where an access of a die finds it: in the die's copy for host and peer memory (R380, R382). -/
def State.unitBad (s : State) (die u : Nat) : Bool :=
  if isEdge (8 * u) then s.copyBad die u else s.unitPoisoned u

/-- No unit is poisoned at its home or in a copy of an L2. -/
def State.noPoison (s : State) : Bool := s.poison.isEmpty && s.edge.all fun e => e.bad.isEmpty

/-- Poison that an access of a die meets in a span (R382). -/
def State.meetsPoison (s : State) (die k n : Nat) : Bool := !s.noPoison && (unitsOf k n).any (s.unitBad die)

/-- A word of a die's copy of a line is poisoned: one write, of the whole word (R381). -/
def State.poisonCopy (s : State) (die u : Nat) : State :=
  let e := (s.edgeAt die (u / 16)).getD (EdgeLine.new die (u / 16))
  let os := upto (8 * (u % 16)) 8
  s.setEdge { e with
    bytes := os.foldl (fun l o => sput l o (sget e.bytes o 0)) e.bytes
    dirty := sortBy id (os.filter (fun o => !e.dirty.contains o) ++ e.dirty)
    bad := if e.bad.contains (u % 16) then e.bad else sortBy id (u % 16 :: e.bad) }

/-- A unit is poisoned where a write of a die finds it (R381, R383). -/
def State.poisonHere (s : State) (die u : Nat) : State :=
  if isEdge (8 * u) then s.poisonCopy die u else s.poisonUnit u

/-- Every unit of a span is poisoned where a write of a die finds it. -/
def State.poisonFor (s : State) (die k n : Nat) : State :=
  (unitsOf k n).foldl (fun (s : State) u => s.poisonHere die u) s

/-- A write of n bytes clears the poison of the words of a die's copies that it covers wholly (R382). -/
def State.copyClear (s : State) (die k n : Nat) : State :=
  if s.edge.all fun e => e.bad.isEmpty then s
  else { s with edge := s.edge.map fun e => if e.die = die then
      { e with bad := e.bad.filter fun w =>
          !(decide (k ≤ 128 * e.line + 8 * w) && decide (128 * e.line + 8 * w + 8 ≤ k + n)) } else e }

/-- A write of a set of bytes clears the poison of the words of a die's copies that they cover together (R382, R383). -/
def State.copyClearKeys (s : State) (die : Nat) (keys : List Nat) : State :=
  if s.edge.all fun e => e.bad.isEmpty then s
  else { s with edge := s.edge.map fun e => if e.die = die then
      { e with bad := e.bad.filter fun w => !((upto (128 * e.line + 8 * w) 8).all keys.contains) } else e }

/-- Data of an access that cannot be had: order 6 of R189. -/
def State.dataBad (s : State) (die : Nat) (x : Xlat) (n : Nat) : Bool := x.lost || s.meetsPoison die x.key n

/-- A write of a die that covers only part of a poisoned unit (R383). -/
def State.partBad (s : State) (die k n : Nat) : Bool :=
  !s.noPoison && (unitsOf k n).any fun u =>
    !(decide (k ≤ 8 * u) && decide (8 * u + 8 ≤ k + n)) && s.unitBad die u

/-! ### Bytes of an access -/

/-- A byte lies in the reserved area of its unit and reads as zero (R67, R71, R77). -/
def Xlat.reserved (x : Xlat) (va : Nat) : Bool :=
  if x.fmt = 7 then
    if x.page = 4096 then decide (0xFFC ≤ va % 4096) else decide (0xFFC0 ≤ va % 65536)
  else if x.fmt = 8 then decide (0xE71C ≤ va % 65536)
  else false

/-- Read n bytes at a translated address as the stored bits (R76, R77). -/
def State.readAt (s : State) (die : Nat) (x : Xlat) (va n : Nat) : List Byte :=
  (List.range n).map fun i =>
    if x.reserved (va + i) then 0
    else if isEdge x.key then s.edgeRead die (x.key + i)
    else s.seen (x.key + i)

/-- A load of edge-ordered memory leaves a copy of its lines in the die's L2 (R181). -/
def State.touch (s : State) (die : Nat) (x : Xlat) (n : Nat) : State :=
  if isEdge x.key then
    (upto (x.key / 128) ((x.key + n - 1) / 128 - x.key / 128 + 1)).foldl (fun (s : State) l => s.edgeFetch die l) s
  else s

/-- The translated addresses of a read of n bytes of a thread leave copies of their edge-ordered lines in its die's L2, so
that a later load of it finds no older write (R181). -/
def State.touchSpan (s : State) (sp : Space) (die va n : Nat) : State :=
  (upto (va / 128) ((va + n - 1) / 128 - va / 128 + 1)).foldl (fun (s : State) l =>
    match s.translate sp .load (max va (128 * l)) with
    | .ok x => s.touch die x 1
    | .bad _ | .wait => s) s

/-- The translated spans of a load leave their copies. -/
def State.touchAll (s : State) (die : Nat) (xs : List (Xlat × Nat)) : State :=
  xs.foldl (fun (s : State) e => s.touch die e.1 e.2) s

/-- The lines of edge-ordered memory that spans lie in are copied from their homes. -/
def State.fillAll (s : State) (die : Nat) (xs : List (Xlat × Nat)) : State :=
  xs.foldl (fun (s : State) e =>
    if isEdge e.1.key then
      (upto (e.1.key / 128) ((e.1.key + e.2 - 1) / 128 - e.1.key / 128 + 1)).foldl (fun (s : State) l => s.edgeFill die l) s
    else s) s

/-- The copies that one access of several parts finds, which never mixes an older line with a newer one: lines of
edge-ordered memory are copied together (R79, log 26). -/
def State.partsHere (s : State) (die : Nat) (xs : List (Xlat × Nat)) : State :=
  if xs.length ≤ 1 then s else s.fillAll die xs

/-- The parts of one access leave the copies that it has read. -/
def State.touchParts (s : State) (die : Nat) (xs : List (Xlat × Nat)) : State :=
  if xs.length ≤ 1 then s.touchAll die xs else s.fillAll die xs

/-- A die writes lines of device LPDDR: until they are written back, its L2 alone holds them up to date (R170). -/
def State.own (s : State) (die k n : Nat) : State :=
  if isLpddr k && decide (die < 8) then
    { s with owned := (upto (k / 128) ((k + n - 1) / 128 - k / 128 + 1)).foldl (fun o l => sput o l die) s.owned }
  else s

/-- An agent without an L2 writes device LPDDR at its home: no die holds those bytes alone any more. -/
def State.disown (s : State) (k n : Nat) : State :=
  { s with owned := s.owned.filter fun e => !(decide (k ≤ 128 * e.1) && decide (128 * e.1 + 128 ≤ k + n)) }

/-- Drain a spilled word that a write touches: the pending value is written first (R178). -/
def State.drainFor (s : State) (k n : Nat) : State :=
  if 2 ^ 53 ≤ k ∧ k < 2 ^ 54 then
    let c := (k - 2 ^ 53) / 2 ^ 23
    let hits := ((s.core c).spills.flatMap fun p => p.cells).filter fun (j, _) =>
      decide (j < k + n) && decide (k < j + 4)
    if hits.isEmpty then s
    else
      let s := hits.foldl (fun s (j, v) => s.putNum j 4 v.toNat) s
      s.modCore c fun q => { q with spills := q.spills.map fun p =>
        { p with cells := p.cells.filter fun (j, _) => !(decide (j < k + n) && decide (k < j + 4)) } }
  else s

/-- Write bytes at a translated address on a die: device memory and windows at once, edge-ordered
memory into the die's L2 (R181). -/
def State.writeAt (s : State) (die : Nat) (x : Xlat) (bs : List Byte) : State :=
  if isEdge x.key then
    State.copyClear ((bs.zipIdx).foldl (fun s (b, i) => s.edgeKeep die (x.key + i) b true) s) die x.key bs.length
  else ((s.drainFor x.key bs.length).put x.key bs).own die x.key bs.length

/-- Bytes of a line that wait in a die's L2 or are on their way reach the home (R180, R181). -/
def State.edgeFlush (s : State) (die k : Nat) : State :=
  if isEdge k then
    let t := s.land [k / 128]
    match t.edgeAt die (k / 128) with
    | none => t
    | some e => (t.homePut e.out e.outBad).setEdge { e with dirty := [] }
  else s

/-- Write bytes of an atomic: in edge-ordered memory at the home, the die's copy following (R181);
elsewhere as `writeAt`. -/
def State.writeHome (s : State) (die : Nat) (x : Xlat) (bs : List Byte) : State :=
  if isEdge x.key then
    let t := ((s.put x.key bs).crosses (x.key / 128)).copyClear die x.key bs.length
    match t.edgeAt die (x.key / 128) with
    | none => t
    | some e => t.setEdge { e with bytes := (bs.zipIdx).foldl (fun l (b, i) =>
        if (sfind l ((x.key + i) % 128)).isSome then sput l ((x.key + i) % 128) b else l) e.bytes }
  else ((s.drainFor x.key bs.length).put x.key bs).own die x.key bs.length

/-- The die whose L2 a core uses. -/
def dieOf (core : Nat) : Nat := core / 128

/-- The outcome of an access that may change the state. -/
inductive Acc (α : Type) where
  | ok (s : State) (a : α)
  | bad (s : State) (cause : Nat)
  | wait

/-- The translations of the spans (address, bytes) that one lane accesses. -/
def State.spanXlat (s : State) (sp : Space) (kind : AKind) (spans : List (Nat × Nat)) : Res (List (Nat × Xlat)) :=
  gatherXlat (spans.map fun e => (e.1, s.translate sp kind e.1))

/-- Load spans of n bytes each at the addresses given, as one lane's transfer: every translation, then the data
(R189, R190). For accesses that name no format. -/
def State.loadSpans (s : State) (sp : Space) (die n : Nat) (eas : List Nat) : Res (List Xlat × List Byte) :=
  (s.spanXlat sp .load (eas.map fun a => (a, n))).andThen fun xs =>
    if xs.any fun e => s.dataBad die e.2 n then .bad Cause.dataerr
    else .ok (xs.map Prod.snd, xs.flatMap fun e => s.readAt die e.2 e.1 n)

/-- Load n bytes at one address, every check of R189 after alignment: translation, permission,
region, and data. For accesses that name no format. -/
def State.loadBytes (s : State) (sp : Space) (die ea n : Nat) : Res (Xlat × List Byte) :=
  (s.translate sp .load ea).andThen fun x =>
    if s.dataBad die x n then .bad Cause.dataerr else .ok (x, s.readAt die x ea n)

/-- As `loadBytes`, leaving a copy of edge-ordered lines in the die's L2. -/
def State.loadKeep (s : State) (sp : Space) (die ea n : Nat) : Acc (List Byte) :=
  match s.loadBytes sp die ea n with
  | .ok (x, bs) => .ok (s.touch die x n) bs
  | .bad c => .bad s c
  | .wait => .wait

/-- Load n bytes byte by byte, each with its own translation (R195, split accesses of R146). -/
def State.loadEach (s : State) (sp : Space) (die ea n : Nat) : Res (List Byte) :=
  (s.loadSpans sp die 1 ((List.range n).map fun i => (ea + i) % 2 ^ 64)).andThen fun r => .ok r.2

/-- As `loadEach`, leaving copies of edge-ordered lines in the die's L2. -/
def State.loadEachKeep (s : State) (sp : Space) (die ea n : Nat) : Acc (List Byte) :=
  match s.loadSpans sp die 1 ((List.range n).map fun i => (ea + i) % 2 ^ 64) with
  | .ok (xs, bs) => .ok (s.touchAll die (xs.map fun x => (x, 1))) bs
  | .bad c => .bad s c
  | .wait => .wait

/-- Load 8n bytes as aligned 8-byte accesses (R164). -/
def State.loadWords (s : State) (sp : Space) (die ea n : Nat) : Res (List Byte) :=
  (s.loadSpans sp die 8 ((List.range n).map fun i => (ea + 8 * i) % 2 ^ 64)).andThen fun r => .ok r.2

/-- The page attribute forbids a store of given bits (R78). -/
def blockFmt (fmt : Nat) : Bool := fmt == 7 || fmt == 8

/-- The checks of a store of n bytes after alignment; a write that meets poison in part of a unit
poisons the unit (R383). -/
def State.storeCheck (s : State) (sp : Space) (die ea n : Nat) : Acc Xlat :=
  match s.translate sp .store ea with
  | .wait => .wait
  | .bad c => .bad s c
  | .ok x =>
    if blockFmt x.fmt then .bad s Cause.fmtstore
    else if x.lost then .bad s Cause.dataerr
    else if s.partBad die x.key n then .bad (s.poisonFor die x.key n) Cause.dataerr
    else .ok s x

/-- Store bytes at one address. -/
def State.storeBytes (s : State) (sp : Space) (die ea : Nat) (bs : List Byte) : Acc Unit :=
  match s.storeCheck sp die ea bs.length with
  | .ok s x => .ok (s.writeAt die x bs) ()
  | .bad s c => .bad s c
  | .wait => .wait

/-- The checks of a byte-by-byte store (R195): each order of R189 over every byte, before any is written. -/
def State.storeEachCheck (s : State) (sp : Space) (die ea n : Nat) : Acc Unit :=
  match s.spanXlat sp .store ((List.range n).map fun i => ((ea + i) % 2 ^ 64, 1)) with
  | .wait => .wait
  | .bad c => .bad s c
  | .ok xs =>
    if xs.any fun e => blockFmt e.2.fmt then .bad s Cause.fmtstore
    else if xs.any fun e => e.2.lost then .bad s Cause.dataerr
    else
      let bad := xs.filter fun e => s.partBad die e.2.key 1
      if bad.isEmpty then .ok s ()
      else .bad (bad.foldl (fun (s : State) e => s.poisonFor die e.2.key 1) s) Cause.dataerr

/-- The writes of a byte-by-byte store. -/
def State.storeEachPut (s : State) (sp : Space) (die ea : Nat) : List Byte → State
  | [] => s
  | b :: r => match s.translate sp .store ea with
    | .ok x => (s.writeAt die x [b]).storeEachPut sp die ((ea + 1) % 2 ^ 64) r
    | .bad _ | .wait => s

/-- Store bytes one by one, each with its own translation. -/
def State.storeEach (s : State) (sp : Space) (die ea : Nat) (bs : List Byte) : Acc Unit :=
  match s.storeEachCheck sp die ea bs.length with
  | .ok s _ => .ok (s.storeEachPut sp die ea bs) ()
  | .bad s c => .bad s c
  | .wait => .wait

/-- One atomic of n bytes: the old value, and the new one written when there is one (R201, R203). -/
def State.atomBytes (s : State) (sp : Space) (die ea n : Nat) (f : Nat → Option Nat) : Acc Nat :=
  match s.translate sp .atomic ea with
  | .wait => .wait
  | .bad c => .bad s c
  | .ok x =>
    if blockFmt x.fmt then .bad s Cause.fmtstore
    else if x.lost then .bad s Cause.dataerr
    else
      let s := s.edgeFlush die x.key
      if s.poisoned x.key n then .bad (s.poisonSpan x.key n false) Cause.dataerr else
      let old := if isEdge x.key then s.num x.key n else leNat (s.readAt die x ea n)
      match f old with
      | none => .ok s old
      | some v => .ok (s.writeHome die x (leBytes n v)) old

/-! ### One access per lane (R190, R191) -/

/-- What one lane's accesses come to. -/
inductive LaneRes where
  /-- performed: the thread's results and the commands recorded (R363) -/
  | ok (s : State) (f : Thread → Thread) (rec : List Cmd)
  | bad (s : State) (cause : Nat)
  /-- the lane waits (R204) -/
  | hold (s : State)
  /-- the page is being moved: the instruction stalls -/
  | wait

/-- An access as a lane's result. -/
def Acc.lane {α : Type} (a : Acc α) (k : State → α → LaneRes) : LaneRes :=
  match a with
  | .ok s v => k s v
  | .bad s c => .bad s c
  | .wait => .wait

/-- A read as a lane's result. -/
def Res.lane {α : Type} (s : State) (a : Res α) (k : α → LaneRes) : LaneRes :=
  match a with
  | .ok v => k v
  | .bad c => .bad s c
  | .wait => .wait

/-- Progress of the lanes of one instruction. -/
structure Lanes where
  s : State
  done : List (Nat × (Thread → Thread))
  faults : List (Nat × Nat)
  holds : List Nat
  recs : List (Nat × List Cmd)
  stalled : Bool

/-- The lanes of a list one after the other. -/
def lanesRun (s : State) (ls : List Nat) (f : State → Nat → LaneRes) : Lanes :=
  ls.foldl (fun a l =>
    match f a.s l with
    | .ok s g r => { a with s := s, done := (l, g) :: a.done, recs := (l, r) :: a.recs }
    | .bad s c => { a with s := s, faults := (l, c) :: a.faults }
    | .hold s => { a with s := s, holds := l :: a.holds }
    | .wait => { a with stalled := true }) ⟨s, [], [], [], [], false⟩

/-- Every lane performs its accesses: lanes without a cause write their results and go on, lanes that
wait do so at the instruction, the others park together. A lane whose page is being moved leaves the
whole instruction unperformed. Commands are recorded in increasing lane order (R363); `after` follows
them. -/
def Ctx.perLane (x : Ctx) (ls : List Nat) (k : Wait) (f : State → Nat → LaneRes)
    (after : State → State := id) : State :=
  let r := lanesRun x.s ls f
  if r.stalled then x.stall x.s .other
  else
    let s := x.lanesDo r.s (r.done.map Prod.fst) fun l th =>
      (((r.done.find? fun e => e.1 == l).map Prod.snd).getD id th).goto (nextPc x.pc)
    let s := (sortBy Prod.fst r.recs).foldl (fun s e => e.2.foldl (fun s c => s.recordOf x.core x.g x.slot c) s) s
    let s := after s
    let s := if r.holds.isEmpty then s else x.waitAt s r.holds k
    x.parkAll s r.faults

end Sys2Proof.Machine
end

