-- ==== Sys2Proof/Machine/Elem.lean ====
section
/-! DEFINITION. Elements of a format in memory: effective format, placement in units, tiles and tile
memory, decoding reads and writes of stored bits (R59-R79, R122, R136, R197, R276). -/

namespace Sys2Proof.Machine

/-! ### Draw descriptors (R275, R276) -/

namespace DrawD
def tx (d : BitVec 2048) : Nat := fld d 8 0 + 1
def ty (d : BitVec 2048) : Nat := fld d 17 9 + 1
def prims (d : BitVec 2048) : Nat := fld d 49 18
def pool (d : BitVec 2048) : Nat := fld d 115 64
def nblk (d : BitVec 2048) : Nat := fld d 151 128
def high (d : BitVec 2048) : Nat := fld d 175 152
def low (d : BitVec 2048) : Nat := fld d 199 176
def torder (d : BitVec 2048) : Nat := fld d 307 256
def forder (d : BitVec 2048) : Nat := fld d 371 320
def save (d : BitVec 2048) : Nat := fld d 435 384
def colour (d : BitVec 2048) : Nat := fld d 499 448
def modes (d : BitVec 2048) : Nat := fld d 563 512
def clear (d : BitVec 2048) : Nat := fld d 607 576
def task (d : BitVec 2048) : Nat := fld d 691 640
def tmpages (d : BitVec 2048) : Nat := fld d 714 704
def npl (d : BitVec 2048) : Nat := fld d 718 715 + 1
/-- Plane entry k (R276). -/
def plane (d : BitVec 2048) (k : Nat) : Nat := fld d (768 + 16 * k + 15) (768 + 16 * k)
/-- Tiles of the draw. -/
def tiles (d : BitVec 2048) : Nat := tx d * ty d
end DrawD

/-- Offset in tile memory, channels and format of a plane entry (R276). -/
def planeOffs (p : Nat) : Nat := nbits p 7 0 * 256
def planeChan (p : Nat) : Nat := nbits p 13 8 + 1
def planeFmt (p : Nat) : Nat := nbits p 15 14

/-- The draw of a key. -/
def State.drawOf (s : State) (key : Nat) : Option Draw := s.draws.find? fun d => d.key == key

/-- The plane table of the tile a group owns. -/
def State.ownDesc (s : State) (g : Group) : Option (BitVec 2048) :=
  g.tile.bind fun o => if o.closed then none else (s.drawOf o.draw).map (·.desc)

/-- The check of a LAYOUT 2 descriptor (R136): offset, channels and format of its plane. -/
def State.planeCheck (s : State) (g : Group) (d : Desc) : Res (Nat × Nat × Nat) :=
  match s.ownDesc g with
  | none => .bad Cause.prot
  | some t =>
    if DrawD.npl t ≤ Dsc.plane d then .bad Cause.illop
    else
      let p := DrawD.plane t (Dsc.plane d)
      let o := planeOffs p
      let c := planeChan p
      let step := if planeFmt p = 0 then 128 * c else 2048
      let rel := Dsc.base d - (lsWindow + o)
      if 1 < planeFmt p ∨ Dsc.fmtsel d ≠ (if planeFmt p = 0 then 3 else 7) ∨ Dsc.base d < lsWindow + o ∨
          rel % step ≠ 0 ∨ 16 ≤ rel / step ∨ Dsc.rows d ≠ 63 ∨ c < Dsc.cols d + 1 then .bad Cause.illop
      else .ok (o, c, planeFmt p)

/-! ### Formats (R59, R75) -/

/-- Bits of an element; code 0 counts one byte (R207). -/
def elemBits (code : Nat) : Nat := [8, 64, 32, 16, 16, 8, 8, 8, 4].getD code 8

/-- The effective format of an attribute and a named format (R75). -/
def effFmt (attr named : Nat) : Res Nat :=
  if attr ≠ 0 then (if named ≠ 0 ∧ named ≠ attr then .bad Cause.prot else .ok attr)
  else if named = 0 then .bad Cause.prot
  else .ok named

/-- Bytes of the unit of a block format at a translated address (R67, R71, R75). -/
def unitBytes (x : Xlat) (code : Nat) : Nat :=
  if code = 8 then 65536 else if x.fmt = 7 ∧ x.page ≠ 4096 then 65536 else 4096

/-- The element number at an offset of a unit and a half byte; none outside the element data (R76). -/
def unitIndex (code unit off nib : Nat) : Option Nat :=
  if code = 7 then (if off < (if unit = 4096 then 0xF80 else 0xF800) then some off else none)
  else if off < 0xE000 then some (2 * off + nib) else none

/-- Elements of a unit (R67, R71). -/
def unitCount (code unit : Nat) : Nat :=
  if code = 7 then (if unit = 4096 then 3968 else 63488) else 114688

/-- Offsets and lengths in a unit of an element and its scales (R67, R71). -/
def unitParts (code unit i : Nat) : List (Nat × Nat) :=
  if code = 7 then [(i, 1), ((if unit = 4096 then 0xF80 else 0xF800) + i / 32, 1)]
  else [(i / 2, 1), (0xE000 + i / 64, 1), (0xE700 + 4 * (i / 16384), 4)]

/-- An element as stored: its bits, its block scale, its superblock scale. -/
abbrev Raw := Nat × Nat × Nat

/-- The value of an element (R62, R66, R70). -/
def rawVal (code : Nat) (x : Raw) : FVal :=
  if code = 7 then mxVal x.1 x.2.1
  else if code = 8 then Fmt.f32.decode (nq4Val x.1 x.2.1 x.2.2)
  else (Fmt.ofCode code).decode x.1

/-! ### Reading (R189 orders 2 to 6, R197) -/

/-- A part of an element: where it is, its address, its bytes. -/
abbrev Part := Xlat × Nat × Nat

/-- Translate parts of an element, each of which must have the effective format: the translations, then the
formats. -/
def State.partsXlat (s : State) (sp : Space) (named code : Nat) (l : List (Nat × Nat)) : Res (List Part) :=
  (s.spanXlat sp .load l).andThen fun xs =>
    if xs.all fun e => match effFmt e.2.fmt named with
        | .ok f => f == code
        | .bad _ | .wait => false
    then .ok ((xs.zip l).map fun (e, p) => (e.2, p))
    else .bad Cause.prot

/-- Read parts as numbers, as one access (R79); one whose data cannot be had gives DATAERR. -/
def State.partsRead (s : State) (die : Nat) (ps : List Part) : Res (List Nat) :=
  let s := s.partsHere die (ps.map fun p => (p.1, p.2.2))
  if ps.any fun (x, _, n) => s.dataBad die x n then .bad Cause.dataerr
  else .ok (ps.map fun (x, va, n) => leNat (s.readAt die x va n))

/-- The stored parts of an element as a triple. -/
def rawOf (code nib : Nat) (vs : List Nat) : Raw :=
  let q := vs.getD 0 0
  (if code = 8 then q / 16 ^ nib % 16 else q, vs.getD 1 0, vs.getD 2 0)

/-- The parts of element i of the unit at `ub`. -/
def State.unitXlat (s : State) (sp : Space) (named code unit ub i : Nat) : Res (List Part) :=
  s.partsXlat sp named code ((unitParts code unit i).map fun (o, n) => (ub + o, n))

/-- Bytes of the unit of a block format that holds an address: what the address is mapped to decides (R67, R71, R75). -/
def State.unitAt (s : State) (sp : Space) (code va : Nat) : Res Nat :=
  if code = 8 then .ok 65536
  else if 2 ^ 52 ≤ va then .bad Cause.prot
  else if windowRegion ≤ va then .ok 4096
  else (s.mapped sp va).andThen fun m => .ok (if m.fmt = 7 ∧ m.page ≠ 4096 then 65536 else 4096)

/-- The parts of the element of effective format `code` at an address (and half byte), with the half byte of its
bits: the checks of R76 and R189 but for the data. -/
def State.elemParts (s : State) (sp : Space) (named code va nib : Nat) : Res (List Part × Nat) :=
  let n := elemBits code / 8
  if named ≠ 0 ∧ code ≤ 6 ∧ va % n ≠ 0 then .bad Cause.align
  else
    if code ≤ 6 then
      (s.partsXlat sp named code [(va, max n 1)]).andThen fun ps => if va % n ≠ 0 then .bad Cause.align else .ok (ps, 0)
    else
      (s.unitAt sp code va).andThen fun u =>
        match unitIndex code u (va % u) nib with
        | none => (s.partsXlat sp named code [(va, 1)]).andThen fun _ => .bad Cause.align
        | some i => (s.unitXlat sp named code u (va - va % u) i).andThen fun ps => .ok (ps, i % 2)

/-- The element of effective format `code` at an address (and half byte): a decoding read (R76, R189). -/
def State.elemAt (s : State) (sp : Space) (die named code va nib : Nat) : Res Raw :=
  (s.elemParts sp named code va nib).andThen fun (ps, h) =>
    (s.partsRead die ps).andThen fun vs => .ok (rawOf code h vs)

/-- Element number i from a base, as LDE names it (R197): its format, its parts and the half byte of its bits. A named
block format checks the base and the number against the unit that the base's mapping gives, and then every part of the
element at once, order by order; with NF = 0 the base is translated and gives the format first. -/
def State.numParts (s : State) (sp : Space) (base i named : Nat) : Res (Nat × List Part × Nat) :=
  if 1 ≤ named ∧ named ≤ 6 then
    (s.elemParts sp named named ((base + i * (elemBits named / 8)) % 2 ^ 64) 0).andThen fun r => .ok (named, r)
  else if named = 7 ∨ named = 8 then
    if base % (if named = 7 then 4096 else 65536) ≠ 0 ∨ unitCount named 65536 ≤ i then .bad Cause.align
    else
      (s.unitAt sp named base).andThen fun u =>
        if base % u ≠ 0 ∨ unitCount named u ≤ i then .bad Cause.align
        else (s.unitXlat sp named named u base i).andThen fun ps => .ok (named, ps, i % 2)
  else
    (s.translate sp .load base).andThen fun x =>
      (effFmt x.fmt named).andThen fun f =>
        if f ≤ 6 then
          (s.elemParts sp 0 f ((base + i * (elemBits f / 8)) % 2 ^ 64) 0).andThen fun r => .ok (f, r)
        else
          let u := unitBytes x f
          if base % u ≠ 0 ∨ unitCount f u ≤ i then .bad Cause.align
          else (s.unitXlat sp named f u base i).andThen fun ps => .ok (f, ps, i % 2)

/-- The read of an element that LDE names: one access of all its parts (R79), which leaves copies of edge-ordered
lines in the die's L2 (R181, R191). -/
def State.elemNum (s : State) (sp : Space) (die base i named : Nat) : Acc (Nat × Raw) :=
  match (s.numParts sp base i named).andThen fun (f, ps, h) =>
      (s.partsRead die ps).andThen fun vs => .ok (f, ps, rawOf f h vs) with
  | .ok (f, ps, r) => .ok (s.touchParts die (ps.map fun p => (p.1, p.2.2))) (f, r)
  | .bad c => .bad s c
  | .wait => .wait

/-! ### Tiles (R122, R136) -/

/-- A tile operand: its descriptor, its plane for LAYOUT 2 (offset, channels, format), its effective
format. -/
structure TileOp where
  d : Desc
  plane : Option (Nat × Nat × Nat)
  code : Nat

/-- Address and half byte of element (r, c) of a tile of LAYOUT 0 or 1 (R122). -/
def tilePos (d : Desc) (ebits r c : Nat) : Nat × Nat :=
  let (line, idx) := if Dsc.layout d = 1 then (c, r) else (r, c)
  (Dsc.base d + line * Dsc.stride d + idx * ebits / 8, if ebits = 4 then idx % 2 else 0)

/-- Address of element (r, c) of a plane (R136). -/
def planePos (d : Desc) (chan pfmt r c : Nat) : Nat :=
  Dsc.base d + (if pfmt = 0 then (r * chan + c) * 2 else 32 * r + c)

/-- Address of the scale of row r of an MXFP8 plane operand (R136). -/
def planeScale (d : Desc) (offs r : Nat) : Nat :=
  lsWindow + offs + 32768 + 64 * ((Dsc.base d - lsWindow - offs) / 2048) + r

/-- A decoding read of element (r, c) of a tile. -/
def State.tileRead (s : State) (sp : Space) (die : Nat) (t : TileOp) (r c : Nat) : Res Raw :=
  match t.plane with
  | some (o, ch, pf) =>
    let va := planePos t.d ch pf r c
    if pf = 0 then s.elemAt sp die 3 3 va 0
    else (s.partsXlat sp 7 7 [(va, 1), (planeScale t.d o r, 1)]).andThen fun ps =>
      (s.partsRead die ps).andThen fun vs => .ok (rawOf 7 0 vs)
  | none =>
    let (va, nib) := tilePos t.d (elemBits t.code) r c
    s.elemAt sp die (Dsc.fmtsel t.d) t.code va nib

/-- Elements of a tile in increasing row, then column. -/
def tileCells (d : Desc) : List (Nat × Nat) :=
  (List.range (Dsc.rows d + 1)).flatMap fun r => (List.range (Dsc.cols d + 1)).map fun c => (r, c)

/-- Read the elements of a list in order; the first that fails decides. -/
def readCells (f : Nat → Nat → Res Raw) : List (Nat × Nat) → Res (List Raw)
  | [] => .ok []
  | (r, c) :: rest => (f r c).andThen fun x => (readCells f rest).andThen fun l => .ok (x :: l)

end Sys2Proof.Machine
end

