-- ==== Sys2Proof/Machine/Memory.lean ====
section
/-! DEFINITION. Loads, stores, element accesses, atomics, futures, tags and spills (spec/08 R188-R204,
R210-R212; spec/06 R152-R155; spec/07 R178). -/

namespace Sys2Proof.Machine

/-! ### LD, ST, LDX, STX (R192-R195) -/

/-- Write a loaded value to the data register by kind (R193). -/
def Thread.setLd (th : Thread) (k : LdKind) (d : Nat) (v : Nat) : Thread :=
  match k with
  | .z8 | .z16 | .b32 => th.setV d (BitVec.ofNat 32 v)
  | .s8 => th.setV d (BitVec.ofInt 32 (sx v 8))
  | .s16 => th.setV d (BitVec.ofInt 32 (sx v 16))
  | .b64 => th.setV64 d (BitVec.ofNat 64 v)
  | .b128 => (List.range 4).foldl (fun th i => th.setV (d + i) (BitVec.ofNat 32 (v / 2 ^ (32 * i)))) th

/-- The bytes a store writes (R193). -/
def Thread.stBytes (th : Thread) (k : StKind) (d : Nat) : List Byte :=
  match k with
  | .b8 => leBytes 1 (th.v d).toNat
  | .b16 => leBytes 2 (th.v d).toNat
  | .b32 => leBytes 4 (th.v d).toNat
  | .b64 => leBytes 8 (th.v64 d).toNat
  | .b128 => (List.range 4).flatMap fun i => leBytes 4 (th.v (d + i)).toNat

/-- The commands of a store of bytes at an address: one MEM entry per access (R164, R363). -/
def storeCmds (ea : Nat) (bs : List Byte) : List Cmd :=
  if bs.length ≤ 4 then [.mem false ea (if bs.length = 1 then 0 else if bs.length = 2 then 1 else 2) (leNat bs) []]
  else if bs.length = 8 then [.mem false ea 3 0 [leNat bs]]
  else [.mem false ea 3 0 [leNat (bs.take 8)], .mem false (ea + 8) 3 0 [leNat (bs.drop 8)]]

/-- The commands of a byte-by-byte store. -/
def byteCmds (ea : Nat) (bs : List Byte) : List Cmd :=
  (bs.zipIdx).map fun (b, i) => .mem false ((ea + i) % 2 ^ 64) 0 b.toNat []

/-- One lane of a load. -/
def Ctx.loadLane (x : Ctx) (k : LdKind) (ua : Bool) (d : BitVec 7) (s : State) (ea : Nat) : LaneRes :=
  let n := k.size
  if !ua && ea % n != 0 then .bad s Cause.align
  else if ua then (s.loadEachKeep x.space x.die ea n).lane fun s bs => .ok s (·.setLd k d.toNat (leNat bs)) []
  else (s.loadKeep x.space x.die ea n).lane fun s bs => .ok s (·.setLd k d.toNat (leNat bs)) []

/-- One lane of a store. -/
def Ctx.storeLane (x : Ctx) (k : StKind) (ua : Bool) (d : BitVec 7) (l : Nat) (s : State) (ea : Nat) : LaneRes :=
  let bs := (x.th l).stBytes k d.toNat
  if !ua && ea % k.size != 0 then .bad s Cause.align
  else if ua then (s.storeEach x.space x.die ea bs).lane fun s _ => .ok s id (byteCmds ea bs)
  else (s.storeBytes x.space x.die ea bs).lane fun s _ => .ok s id (storeCmds ea bs)

/-- Effective address of LD and ST (R192). -/
def Ctx.eaOff (x : Ctx) (a : BitVec 7) (off : BitVec 9) (size l : Nat) : Nat :=
  wrap ((x.v64 a.toNat l).toNat + off.toInt * size) 64

/-- Effective address of LDX and STX (R194). -/
def Ctx.eaIdx (x : Ctx) (ub : Bool) (a b : BitVec 7) (size l : Nat) : Nat :=
  wrap ((if ub then x.u64 a.toNat else x.v64 a.toNat l).toNat + (x.v b.toNat l).toInt * size) 64

/-- LD. -/
def execLd (k : LdKind) (d a : BitVec 7) (off : BitVec 9) (s : State) : Host.Outcome State Fault Refusal :=
  runWord (.ld k d a off) s fun x =>
    x.perLane (x.s.laneOrder x.ls) .none fun s l => x.loadLane k false d s (x.eaOff a off k.size l)

/-- ST. -/
def execSt (k : StKind) (d a : BitVec 7) (off : BitVec 9) (s : State) : Host.Outcome State Fault Refusal :=
  runWord (.st k d a off) s fun x =>
    x.perLane (x.s.laneOrder x.ls) .none fun s l => x.storeLane k false d l s (x.eaOff a off k.size l)

/-- LDX. -/
def execLdx (k : LdKind) (ub ua : Bool) (d a b : BitVec 7) (s : State) : Host.Outcome State Fault Refusal :=
  runWord (.ldx k ub ua d a b) s fun x =>
    x.perLane (x.s.laneOrder x.ls) .none fun s l => x.loadLane k ua d s (x.eaIdx ub a b k.size l)

/-- STX. -/
def execStx (k : StKind) (ub ua : Bool) (d a b : BitVec 7) (s : State) : Host.Outcome State Fault Refusal :=
  runWord (.stx k ub ua d a b) s fun x =>
    x.perLane (x.s.laneOrder x.ls) .none fun s l => x.storeLane k ua d l s (x.eaIdx ub a b k.size l)

/-! ### LDE, STE (R196-R199) -/

/-- LDE. -/
def execLde (nf : BitVec 4) (h : Bool) (d a b : BitVec 7) (s : State) : Host.Outcome State Fault Refusal :=
  runWord (.lde nf h d a b) s fun x =>
    x.perLane (x.s.laneOrder x.ls) .none fun s l =>
      (s.elemNum x.space x.die (x.v64 a.toNat l).toNat (x.v b.toNat l).toNat nf.toNat).lane fun s (f, r) =>
        let v := rawVal f r
        .ok s (fun th =>
          if nf = 1 ∧ h = false then th.setV64 d.toNat (BitVec.ofNat 64 (Fmt.f64.rne v))
          else th.setV d.toNat (BitVec.ofNat 32 ((if h then Fmt.f16 else Fmt.f32).rne v))) []

/-- Where STE writes: the address and the effective format, after the checks of R197 to the format. -/
def State.steLoc (s : State) (sp : Space) (base i named : Nat) : Res (Nat × Nat) :=
  if 1 ≤ named ∧ named ≤ 6 then
    let n := elemBits named / 8
    let ea := (base + i * n) % 2 ^ 64
    if ea % n ≠ 0 then .bad Cause.align else .ok (ea, named)
  else
    (s.translate sp .store base).andThen fun x =>
      (effFmt x.fmt named).andThen fun f =>
        if f ≤ 6 then .ok ((base + i * (elemBits f / 8)) % 2 ^ 64, f) else .bad Cause.fmtstore

/-- An encoding store of an element (R78, R197, R199): its memory must give the effective format. -/
def State.elemStore (s : State) (sp : Space) (die named f ea : Nat) (bits : Nat) : Acc (List Byte) :=
  let n := elemBits f / 8
  match s.translate sp .store ea with
  | .wait => .wait
  | .bad c => .bad s c
  | .ok x =>
    match effFmt x.fmt named with
    | .wait => .wait
    | .bad c => .bad s c
    | .ok g =>
      if g ≠ f then .bad s Cause.prot
      else if ea % n ≠ 0 then .bad s Cause.align
      else if x.lost then .bad s Cause.dataerr
      else if s.partBad die x.key n then .bad (s.poisonFor die x.key n) Cause.dataerr
      else .ok (s.writeAt die x (leBytes n bits)) (leBytes n bits)

/-- STE. -/
def execSte (nf : BitVec 4) (sat : Bool) (d a b : BitVec 7) (s : State) : Host.Outcome State Fault Refusal :=
  runWord (.ste nf sat d a b) s fun x =>
    x.perLane (x.s.laneOrder x.ls) .none fun s l =>
      (s.steLoc x.space (x.v64 a.toNat l).toNat (x.v b.toNat l).toNat nf.toNat).lane s fun (ea, f) =>
        let v := if nf = 1 then Fmt.f64.decode (x.v64 d.toNat l).toNat else Fmt.f32.decode (x.v d.toNat l).toNat
        let (bits, fl) := (Fmt.ofCode f).encode (x.rmode l) v (sat && f == 6)
        (s.elemStore x.space x.die nf.toNat f ea bits).lane fun s bs =>
          .ok s (·.flag fl.bits) (storeCmds ea bs)

/-! ### ATOM (R200, R201) -/

/-- The new value of an atomic of n bits (R200). -/
def atomNew (op : AtomOp) (n old v new : Nat) : Nat :=
  match op with
  | .add => (old + v) % 2 ^ n
  | .and => old &&& v
  | .or => old ||| v
  | .xor => old ^^^ v
  | .exch => v
  | .cas => if old = v then new else old
  | .minS => if sx old n ≤ sx v n then old else v
  | .minZ => min old v
  | .maxS => if sx old n ≥ sx v n then old else v
  | .maxZ => max old v
  | .fadd => (fpAdd .f32 .rn old v).1
  | .fmin => fpMinMax .f32 false old v
  | .fmax => fpMinMax .f32 true old v

/-- The command an atomic is recorded as (R360). -/
def atomCmd (op : AtomOp) (w : Bool) (ea v new : Nat) : Cmd :=
  .mem true ea ((if w then 0x30 else 0x10) + op.code.toNat) (if w then 0 else v)
    (if op = .cas then (if w then [v, new] else [new]) else if w then [v] else [])

/-- ATOM. -/
def execAtom (op : AtomOp) (w64 : Bool) (d a b : BitVec 7) (s : State) : Host.Outcome State Fault Refusal :=
  runWord (.atom op w64 d a b) s fun x =>
    x.perLane (x.s.laneOrder x.ls) .none fun s l =>
      let ea := (x.v64 a.toNat l).toNat
      let n := if w64 then 8 else 4
      let v := x.vn w64 b.toNat l
      let new := if op = .cas then x.vn w64 (b.toNat + (if w64 then 2 else 1)) l else 0
      if ea % n ≠ 0 then .bad s Cause.align
      else (s.atomBytes x.space x.die ea n fun old => some (atomNew op (8 * n) old v new)).lane fun s old =>
        .ok s (·.setN w64 d.toNat old) [atomCmd op w64 ea v new]

/-! ### FUT (R202-R204) -/

/-- The forms of FUT. -/
inductive FutOp where | fill | wait | take | clr
  deriving DecidableEq, Repr

/-- The access kind of an attempt (R189, R191): the writing forms need both permissions. -/
def FutOp.kind : FutOp → AKind
  | .fill | .take | .clr => .atomic
  | .wait => .load

/-- Code of the form in a tape (R360). -/
def FutOp.code : FutOp → Nat
  | .fill => 0x40
  | .take => 0x41
  | .clr => 0x42
  | .wait => 0x43

/-- One attempt on a future (R203): the value read, and whether it was full. -/
def State.futTry (s : State) (sp : Space) (die ea : Nat) (op : FutOp) (v : Nat) : Acc (Bool × Nat) :=
  if ea % 8 ≠ 0 then .bad s Cause.align
  else
    match s.translate sp op.kind ea with
    | .wait => .wait
    | .bad c => .bad s c
    | .ok x =>
      if isEdge x.key then .bad s Cause.prot
      else if op ≠ .wait ∧ blockFmt x.fmt = true then .bad s Cause.fmtstore
      else if x.lost then .bad s Cause.dataerr
      else if op ≠ .clr ∧ s.meetsPoison die x.key 8 = true then .bad s Cause.dataerr
      else
        let w := leNat (s.readAt die x ea 8)
        let full := nbit w 32
        let put (n : Nat) : State := s.writeAt die x (leBytes 8 n)
        match op with
        | .fill => .ok (if full then s else put (2 ^ 32 + v)) (full, w % 2 ^ 32)
        | .wait => .ok s (full, w % 2 ^ 32)
        | .take => .ok (if full then put 0 else s) (full, w % 2 ^ 32)
        | .clr => .ok (put 0) (full, w % 2 ^ 32)

/-- The attempts of a round of FUT.WAIT or FUT.TAKE: lanes that find the future empty wait (R204). -/
def Ctx.futRound (x : Ctx) (take : Bool) (d a : BitVec 7) : State :=
  let op : FutOp := if take then .take else .wait
  x.perLane (x.s.laneOrder x.ls) (.fut take d a)
    (fun s l =>
      let ea := (x.v64 a.toNat l).toNat
      (s.futTry x.space x.die ea op 0).lane fun s (full, v) =>
        if full then .ok s (fun th => { th.setV d.toNat (BitVec.ofNat 32 v) with wait := .none })
          [.mem take ea op.code 0 []]
        else .hold s)
    (fun s => if x.lanes = maskOf ((x.ls).filter fun l =>
        match (x.g' s).laneThread (x.w' s) l with | some t => t.pc == x.pc | none => true) then s
      else s.sync x.core x.g x.slot)

/-- FUT.FILL. -/
def execFutFill (d a b : BitVec 7) (s : State) : Host.Outcome State Fault Refusal :=
  runWord (.futFill d a b) s fun x =>
    x.perLane (x.s.laneOrder x.ls) .none
      (fun s l =>
        let ea := (x.v64 a.toNat l).toNat
        let v := (x.v b.toNat l).toNat
        (s.futTry x.space x.die ea .fill v).lane fun s (full, _) =>
          .ok s (·.setV d.toNat (if full then 0 else 1)) [.mem true ea FutOp.fill.code v []])
      (fun s => s.sync x.core x.g x.slot)

/-- FUT.WAIT. -/
def execFutWait (d a : BitVec 7) (s : State) : Host.Outcome State Fault Refusal :=
  runWord (.futWait d a) s fun x => x.futRound false d a

/-- FUT.TAKE. -/
def execFutTake (d a : BitVec 7) (s : State) : Host.Outcome State Fault Refusal :=
  runWord (.futTake d a) s fun x => x.futRound true d a

/-- FUT.CLR: it writes the whole word. -/
def execFutClr (a : BitVec 7) (s : State) : Host.Outcome State Fault Refusal :=
  runWord (.futClr a) s fun x =>
    x.perLane (x.s.laneOrder x.ls) .none fun s l =>
      let ea := (x.v64 a.toNat l).toNat
      (s.futTry x.space x.die ea .clr 0).lane fun s _ => .ok s id [.mem true ea FutOp.clr.code 0 []]

/-- The context of lanes of a warp at an address, for what happens to them outside an issue. -/
def State.ctxAt (s : State) (core : Nat) (g : Group) (slot : Nat) (w : Warp) (ls : List Nat) (pc : Addr) : Ctx :=
  ⟨s, core, g, slot, w, maskOf ls, pc⟩

/-- Lanes that wait at a FUT make their attempts: registers they no longer hold raise ILLOP (R259), pipe registers
keep to R37, and what an attempt writes goes to the partner (R38). -/
def Ctx.futAgain (x : Ctx) (take : Bool) (d a : BitVec 7) : State :=
  let o := opndsOf (if take then .futTake d a else .futWait d a)
  let blocked := x.pipeBlocked o
  if !x.held o then x.raise Cause.illop
  else if blocked.any x.partnerGone then x.raise Cause.pipefe
  else if !blocked.isEmpty then x.s
  else
    let y := x.marked o
    y.pipeAfter o (y.futRound take d a)

/-- A round of attempts of the lanes of a warp that wait at futures, those of one FUT and one sub-warp
together, the lower program counter first. -/
def execFutAttempt (core wid : Nat) (s : State) : Host.Outcome State Fault Refusal :=
  match (s.core core).findWid wid with
  | none => .next s
  | some (g0, slot, w0) =>
    if g0.stop.isSome then .next s else
    let waits := (g0.liveLanes w0).filterMap fun l =>
      (g0.laneThread w0 l).bind fun t => match t.wait with
        | .fut take d a => some (l, t.pc, take, d, a, (w0.subOf l).map (·.lanes))
        | _ => none
    let keys := sortBy (fun e => e.1.toNat) ((waits.map fun (_, pc, take, d, a, b) => (pc, take, d, a, b)).eraseDups)
    .next (keys.foldl (fun s (pc, take, d, a, b) =>
      match (s.core core).findWid wid with
      | none => s
      | some (g, _, w) =>
        let ls := (waits.filter fun (_, pc', _, _, _, b') => pc' == pc && b' == b).map Prod.fst
        (s.ctxAt core g slot w ls pc).futAgain take d a) s)

/-! ### TAG (R152, R153, R210) -/

/-- The tag entry of a physical page, PPN included (R152). -/
def Core.tag (k : Core) (page : Nat) : Nat := (sget k.tags page 0).toNat + page * 2 ^ 48

/-- Write a tag entry; PPN is kept apart. -/
def Core.setTag (k : Core) (page v : Nat) : Core :=
  { k with tags := sset k.tags page (BitVec.ofNat 64 (v % 2 ^ 48)) 0 }

/-- The physical page of logical page p of the issuing group, or PROT. -/
def Ctx.tagPage (x : Ctx) (s : State) (p : Nat) (f : Nat → LaneRes) : LaneRes :=
  match x.g.pages[p]? with
  | some q => f q
  | none => .bad s Cause.prot

/-- The lowest logical page whose valid TAG equals the address bits (R153). -/
def tagFind (k : Core) (pages : List Nat) (a : Nat) : Nat :=
  match indexOf? pages fun q => let e := k.tag q; nbit e 40 && nbits e 39 0 == a with
  | some i => i
  | none => 0xFFFFFFFF

/-- TAG.LOOK: a poisoned entry among those of the group's pages gives DATAERR (R382). -/
def execTagLook (d a : BitVec 7) (s : State) : Host.Outcome State Fault Refusal :=
  runWord (.tagLook d a) s fun x =>
    let k := x.s.core x.core
    if x.g.pages.any k.tpoison.contains then x.raise Cause.dataerr
    else x.done x.s fun l th =>
      th.setV d.toNat (BitVec.ofNat 32 (tagFind k x.g.pages (fld (x.v64 a.toNat l) 51 12)))

/-- A lane's access to the tag entry of its logical page: a poisoned entry gives DATAERR, and is written by no form,
since each of them writes a part of it (R382, R383). R210 lists no DATAERR for TAG: the model takes R382 (log 83). -/
def Ctx.tagLane (x : Ctx) (b : BitVec 7) (s : State) (l : Nat) (f : Nat → LaneRes) : LaneRes :=
  x.tagPage s (x.v b.toNat l).toNat fun q =>
    if (s.core x.core).tpoison.contains q then .bad s Cause.dataerr else f q

/-- Replace a tag entry. -/
def Ctx.putTag (x : Ctx) (s : State) (q : Nat) (f : Nat → Nat) : LaneRes :=
  .ok (s.modCore x.core fun k => k.setTag q (f (k.tag q))) id []

/-- TAG.SET. -/
def execTagSet (a b : BitVec 7) (s : State) : Host.Outcome State Fault Refusal :=
  runWord (.tagSet a b) s fun x =>
    x.perLane (x.s.laneOrder x.ls) .none fun s l => x.tagLane b s l fun q =>
      x.putTag s q fun e => setField (setField e 39 0 (fld (x.v64 a.toNat l) 51 12)) 40 40 1

/-- TAG.INV. -/
def execTagInv (b : BitVec 7) (s : State) : Host.Outcome State Fault Refusal :=
  runWord (.tagInv b) s fun x =>
    x.perLane (x.s.laneOrder x.ls) .none fun s l => x.tagLane b s l fun q =>
      x.putTag s q fun e => setField e 40 40 0

/-- TAG.RD. -/
def execTagRd (d b : BitVec 7) (s : State) : Host.Outcome State Fault Refusal :=
  runWord (.tagRd d b) s fun x =>
    x.perLane (x.s.laneOrder x.ls) .none fun s l => x.tagLane b s l fun q =>
      .ok s (·.setV64 d.toNat (BitVec.ofNat 64 ((s.core x.core).tag q))) []

/-- TAG.WR. -/
def execTagWr (a b : BitVec 7) (s : State) : Host.Outcome State Fault Refusal :=
  runWord (.tagWr a b) s fun x =>
    x.perLane (x.s.laneOrder x.ls) .none fun s l => x.tagLane b s l fun q =>
      x.putTag s q fun e => setField e 47 41 (x.v a.toNat l).toNat

/-! ### SPLF (R178, R211, R212) -/

/-- The word a lane spills to or refills from: alignment, the group's own window, its holding. -/
def Ctx.splfAt (x : Ctx) (a k : BitVec 7) (l : Nat) : Res Xlat :=
  let ea := ((x.v64 a.toNat l).toNat + 4 * k.toNat) % 2 ^ 64
  if ea % 4 ≠ 0 then .bad Cause.align
  else if ea < lsWindow ∨ lsWindow + 2 ^ 23 ≤ ea then .bad Cause.prot
  else match lsOffset x.core x.g.pages (ea - lsWindow) with
    | some key => .ok ⟨key, 0, 4096, true, false⟩
    | none => .bad Cause.prot

/-- Depth of the forwarding table (R178). -/
def spillDepth : Nat := 32

/-- SPLF.st: one entry of the forwarding table for the instruction, or a wait for one. -/
def execSplfSt (d a k : BitVec 7) (s : State) : Host.Outcome State Fault Refusal :=
  runWord (.splfSt d a k) s fun x =>
    if spillDepth ≤ (x.s.core x.core).spills.length then x.waitAt x.s x.ls (.retry (.splfSt d a k) x.s.stepNo)
    else
      let entry (s : State) (cells : List (Nat × Word)) : State := s.modCore x.core fun q =>
        { q with spills := match q.spills.reverse with
          | [] => [⟨x.g.gk, cells⟩]
          | e :: r => (⟨x.g.gk, e.cells ++ cells⟩ :: r).reverse }
      let s0 := x.s.modCore x.core fun q => { q with spills := q.spills ++ [⟨x.g.gk, []⟩] }
      let s1 := Ctx.perLane { x with s := s0 } (x.s.laneOrder x.ls) .none fun s l =>
        (x.splfAt a k l).lane s fun t =>
          if s.partialPoison t.key 4 then .bad (s.poisonSpan t.key 4 false) Cause.dataerr
          else .ok (entry s [(t.key, x.v d.toNat l)]) id
            (storeCmds ((x.v64 a.toNat l).toNat + 4 * k.toNat) (leBytes 4 (x.v d.toNat l).toNat))
      s1.modCore x.core fun q => { q with spills := q.spills.filter fun e => !e.cells.isEmpty }

/-- SPLF.ld. -/
def execSplfLd (d a k : BitVec 7) (s : State) : Host.Outcome State Fault Refusal :=
  runWord (.splfLd d a k) s fun x =>
    x.perLane (x.s.laneOrder x.ls) .none fun s l =>
      (x.splfAt a k l).lane s fun t =>
        if s.poisoned t.key 4 then .bad s Cause.dataerr
        else .ok s (·.setV d.toNat (BitVec.ofNat 32 (leNat (s.readAt x.die t 0 4)))) []

/-- The words of a spill entry go to the local store. -/
def State.drainSpill (s : State) (p : Spill) : State :=
  p.cells.foldl (fun s (k, v) =>
    if s.partialPoison k 4 then s.poisonSpan k 4 false else s.putNum k 4 v.toNat) s

/-- Drain the spills of a core that a test selects (R178). -/
def State.drainSpills (s : State) (core : Nat) (sel : Spill → Bool) : State :=
  let ps := (s.core core).spills
  (ps.filter sel).foldl State.drainSpill
    (s.modCore core fun k => { k with spills := ps.filter fun p => !sel p })

/-- The oldest pending spill of a core is written. -/
def execSpillWrite (core : Nat) (s : State) : Host.Outcome State Fault Refusal :=
  match (s.core core).spills with
  | [] => .next s
  | p :: r => .next ((s.modCore core fun k => { k with spills := r }).drainSpill p)

end Sys2Proof.Machine
end

