-- ==== Sys2Proof/Machine/Sys.lean ====
section
/-! DEFINITION. The SYS instructions (spec/17 R390-R400, spec/02 R32-R35) and the two outcomes of a
fetch that gives no instruction (R46, R48). -/

namespace Sys2Proof.Machine

/-! ### NOP and the traps (R391, R392) -/

/-- NOP. -/
def execNop (s : State) : Host.Outcome State Fault Refusal :=
  runWord .nop s fun x => x.done x.s fun _ th => th

/-- BRK. -/
def execBrk (code : BitVec 7) (s : State) : Host.Outcome State Fault Refusal :=
  runWord (.brk code) s fun x => x.raise Cause.brk

/-- TRAP. -/
def execTrap (code : BitVec 7) (s : State) : Host.Outcome State Fault Refusal :=
  runWord (.trap code) s fun x => x.raise Cause.swtrap

/-- The gang stops with the issuing lanes' threads at the next word (R392, R400). -/
def Ctx.stopGang (x : Ctx) (reason : Nat) : State :=
  (x.advance x.s x.ls).escape x.core x.g.gang x.g.member reason 0 x.pc

/-- TRAP.esc. -/
def execTrapEsc (code : BitVec 7) (s : State) : Host.Outcome State Fault Refusal :=
  runWord (.trapEsc code) s fun x => x.stopGang 5

/-- HALT. -/
def execHalt (s : State) : Host.Outcome State Fault Refusal :=
  runWord .halt s fun x => x.stopGang 7

/-- TRET. -/
def execTret (s : State) : Host.Outcome State Fault Refusal :=
  runWord .tret s fun x =>
    match x.sub? with
    | none => x.raise Cause.illop
    | some _ => x.s.tret x.core x.g.gk x.slot x.lanes

/-! ### Special registers (R32-R35, R394-R396) -/

/-- LSCAP of a core (R34). -/
def State.lscap (s : State) (core : Nat) : Nat := s.lsPages core + (if s.hasUpper core then 2 ^ 12 else 0)

/-- The group's lead record: DEADLINE, BUDGET (R271). -/
def State.leadOf (s : State) (g : Group) : BitVec 1024 :=
  match s.cores.findSome? fun e => e.2.groups.find? fun h => h.gang == g.gang && h.member == 0 with
  | some h => h.record
  | none => ((g.task.bind fun t => s.tasks.find? fun x => x.key == t).map (·.lead)).getD g.record

/-- CAUSE as the issuing lanes see it (R333). -/
def Ctx.causeOf (x : Ctx) : Word := match x.sub? with | some b => b.cause | none => x.w.cause
/-- TRAPPC as the issuing lanes see it. -/
def Ctx.trappcOf (x : Ctx) : Addr := match x.sub? with | some b => b.pc | none => x.w.trappc
/-- TRAPLANES as the issuing lanes see it. -/
def Ctx.traplanesOf (x : Ctx) : Mask := match x.sub? with | some b => b.lanes | none => 0

/-- The value an MFS writes for a lane, as 64 bits; a 32-bit form takes the low half (R395). -/
def Ctx.mfs (x : Ctx) (sel : Sel) (l : Nat) : Nat :=
  match sel.reg with
  | .lane => l
  | .tid => (x.th l).tid.toNat
  | .wid => x.w.wid
  | .gid => x.g.gid.toNat
  | .core => x.core % 32
  | .grove => x.core / 32 % 4
  | .die => x.core / 128
  | .lvl => ((x.th l).lvl.getD sel.inst.toNat 0).toNat
  | .clock => if sel.inst = 0 then x.s.ts.toNat else (x.w.cap.getD x.s.ts).toNat / 2 ^ 32
  | .ts => x.s.ts.toNat
  | .cause => x.causeOf.toNat
  | .trappc => x.trappcOf.toNat
  | .traplanes => x.traplanesOf.toNat
  | .trapmask => x.w.trapmask.toNat
  | .age => x.w.age.toNat
  | .budget => x.g.budget
  | .deadline =>
      let d := fld (x.s.leadOf x.g) 191 128
      if sel.inst = 0 then d else d / 2 ^ 32
  | .job => fld x.g.record 255 224
  | .profile => 0x98400004
  | .lscap => x.s.lscap x.core
  | .fpstat => (x.th l).fpstat.toNat
  | .rmode => (x.th l).rmode.toNat
  | .winbase => (x.th l).winbase.toNat

/-- MFS; a read of CLOCK[0] captures the count (R33). The capture stays with the warp slot until the next one: what a
later CLOCK[1] read returns is the model's choice (log 19). -/
def execMfs (d : BitVec 7) (sel : Sel) (s : State) : Host.Outcome State Fault Refusal :=
  runWord (.mfs d sel) s fun x =>
    let t := x.done x.s fun l th => th.setN sel.w64 d.toNat (x.mfs sel l)
    if sel.reg = .clock ∧ sel.inst = 0 then x.modW t fun w => { w with cap := some x.s.ts } else t

/-- A window base the group may set (R35, R296). -/
def Ctx.winOk (x : Ctx) (n : Nat) : Bool := n == 0 || decide (8 * n < x.g.vh)

/-- Set the window base of the lanes and empty the fast operand buffer (R36, R296). -/
def Ctx.setWin (x : Ctx) (n : Nat → Nat) : State :=
  x.modW (x.done x.s fun l th => { th with winbase := BitVec.ofNat 7 (n l) }) fun w => { w with rpf := (0, 0) }

/-- Every lane's value satisfies a check, or ILLOP on every lane; then the state. -/
def Ctx.mtsThread (x : Ctx) (d : BitVec 7) (ok : Word → Bool) (t : State) : State :=
  if x.ls.all fun l => ok (x.v d.toNat l) then t else x.raise Cause.illop

/-- MTS of TRAPPC: a 32-bit value keeps bits [51:32] (R396). -/
def Ctx.mtsTrappc (x : Ctx) (d : BitVec 7) (w64 : Bool) : State :=
  let n := if w64 then (x.v64 d.toNat x.l0).toNat
    else x.trappcOf.toNat / 2 ^ 32 * 2 ^ 32 + (x.v d.toNat x.l0).toNat
  if 2 ^ 52 ≤ n then x.raise Cause.illop
  else if n % 4 ≠ 0 then x.raise Cause.align
  else
    let pc := BitVec.ofNat 52 n
    x.doneW x.s fun w => match x.sub? with
      | some b => { w with subs := w.subs.map fun q => if q.lanes = b.lanes then { q with pc := pc } else q }
      | none => { w with trappc := pc }

/-- MTS of TRAPLANES: the lanes it removes leave as by a TRET (R396). -/
def Ctx.mtsTraplanes (x : Ctx) (d : BitVec 7) : State :=
  let m := x.v d.toNat x.l0
  let cur := x.traplanesOf
  if m &&& ~~~cur ≠ 0 then x.raise Cause.illop
  else
    let gone := cur &&& ~~~m
    let t := x.advance x.s (x.ls.filter fun l => !gone.getLsbD l)
    if gone = 0 then t else t.tret x.core x.g.gk x.slot gone

/-- MTS. A write to a read-only register is refused by the checks before the effect (R394). -/
def execMts (d : BitVec 7) (sel : Sel) (s : State) : Host.Outcome State Fault Refusal :=
  runWord (.mts d sel) s fun x =>
    match sel.reg with
    | .fpstat => x.mtsThread d (fun v => fld v 31 5 == 0)
        (x.done x.s fun l th => { th with fpstat := (x.v d.toNat l).extractLsb' 0 5 })
    | .rmode => x.mtsThread d (fun v => fld v 31 2 == 0)
        (x.done x.s fun l th => { th with rmode := (x.v d.toNat l).extractLsb' 0 2 })
    | .winbase => x.mtsThread d (fun v => fld v 31 7 == 0 && x.winOk v.toNat)
        (x.setWin fun l => (x.v d.toNat l).toNat)
    | .trapmask =>
        let v := x.v d.toNat x.l0
        if fld v 29 20 = 0 then x.doneW x.s fun w => { w with trapmask := v } else x.raise Cause.illop
    | .trappc => x.mtsTrappc d sel.w64
    | .traplanes => x.mtsTraplanes d
    | .lane | .tid | .wid | .gid | .core | .grove | .die | .lvl | .clock | .ts | .cause | .age
    | .budget | .deadline | .job | .profile | .lscap => x.raise Cause.illop

/-! ### CAUSECLR (R397) -/

/-- CAUSECLR; clearing BUDGET in the warp's CAUSE withdraws the deferred event. -/
def execCauseclr (a : BitVec 6) (s : State) : Host.Outcome State Fault Refusal :=
  runWord (.causeclr a) s fun x =>
    let m := x.u a.toNat
    if fld m 31 20 ≠ 0 then x.raise Cause.illop
    else x.doneW x.s fun w => match x.sub? with
      | some b => { w with subs := w.subs.map fun q =>
          if q.lanes = b.lanes then { q with cause := q.cause &&& ~~~m } else q }
      | none => { w with cause := w.cause &&& ~~~m,
                         budgetDue := w.budgetDue && !m.getLsbD Cause.budget
                         budgetMoves := w.budgetMoves && !m.getLsbD Cause.budget }

/-! ### ICINV (R398, R399) -/

/-- ICINV: the lanes wait until the discard completes. -/
def execIcinv (s : State) : Host.Outcome State Fault Refusal :=
  runWord .icinv s fun x => x.waitAt x.s x.ls .icinv

/-- An ICINV of a warp completes: every kept word is discarded, and every fetched and unissued one. A gang that is stopping leaves it unperformed (R341). -/
def execIcinvCompletion (core wid : Nat) (s : State) : Host.Outcome State Fault Refusal :=
  match (s.core core).findWid wid with
  | none => .next s
  | some (g, slot, w) =>
    if g.stop.isNone && (g.liveLanes w).any fun l => ((g.laneThread w l).getD Thread.absent).wait == Wait.icinv then
      .next ({ s with stale := [], cores := s.cores.map fun (e : Nat × Core) => (e.1, e.2.unfetched) }.modGroup core g.gk fun g => g.resume slot 0xFFFFFFFF fun k => k == Wait.icinv)
    else .next s

/-! ### A fetch that gives no instruction (R46, R48) -/

/-- The issuing lanes raise a cause before any instruction is known. -/
def fetchRaise (s : State) (cause : Nat) : Host.Outcome State Fault Refusal :=
  match ctxOf s with
  | none => .fault .noIssuingSet
  | some x => .next (x.raise cause)

/-- A word that encodes no instruction raises ILLOP. -/
def execWordNotAnInstruction (s : State) : Host.Outcome State Fault Refusal := fetchRaise s Cause.illop

/-- A fetch that fails to translate raises PAGE, or PROT. -/
def execInstructionFetchFault (page : Bool) (s : State) : Host.Outcome State Fault Refusal :=
  fetchRaise s (if page then Cause.page else Cause.prot)

end Sys2Proof.Machine
end

