-- ==== Sys2Proof/Machine/Control.lean ====
section
/-! DEFINITION. Branches, calls, the window and prefetch instructions, and the PIPE instructions (spec/12
R287-R289, R296, R297, R305; spec/02 R36-R39; spec/22 R434). -/

namespace Sys2Proof.Machine

/-! ### Branches and calls (R287-R289) -/

/-- The target of a displacement of words from the instruction (R42). -/
def Ctx.target (x : Ctx) (disp : BitVec 19) : Addr := x.pc + BitVec.ofInt 52 (4 * disp.toInt)

/-- The lanes a test selects go to an address, the others to the next word. -/
def Ctx.branch (x : Ctx) (t : Addr) (take : Nat → Bool) : State :=
  x.lanesDo x.s x.ls fun l th => th.goto (if take l then t else nextPc x.pc)

/-- BRA label. -/
def execBra (disp : BitVec 19) (s : State) : Host.Outcome State Fault Refusal :=
  runWord (.bra disp) s fun x => x.branch (x.target disp) fun _ => true

/-- BRA pn, label. -/
def execBraPred (sense : Bool) (p : BitVec 4) (disp : BitVec 19) (s : State) : Host.Outcome State Fault Refusal :=
  runWord (.braPred sense p disp) s fun x => x.branch (x.target disp) fun l => x.p p.toNat l != sense

/-- BRA.u pn, label: the lowest lane of the set decides for all. -/
def execBraU (sense : Bool) (p : BitVec 4) (disp : BitVec 19) (s : State) : Host.Outcome State Fault Refusal :=
  runWord (.braU sense p disp) s fun x => x.branch (x.target disp) fun _ => x.p p.toNat x.l0 != sense

/-- CALL. -/
def execCall (d : BitVec 7) (imm : BitVec 19) (s : State) : Host.Outcome State Fault Refusal :=
  runWord (.call d imm) s fun x => x.lanesDo x.s x.ls fun _ th =>
    (th.setV64 d.toNat ((nextPc x.pc).setWidth 64)).goto (x.target imm)

/-- The target of a JMPR in a lane, or the cause it raises; bits [63:52] are checked first (log 13). -/
def Ctx.jumpTo (x : Ctx) (ub : Bool) (a : BitVec 7) (l : Nat) : Addr × Option Nat :=
  let t := if ub then x.u64 a.toNat else x.v64 a.toNat l
  (t.extractLsb' 0 52,
    if fld t 63 52 ≠ 0 then some Cause.prot else if fld t 1 0 ≠ 0 then some Cause.align else none)

/-- JMPR, with what the jumping lanes write. -/
def Ctx.jump (x : Ctx) (ub : Bool) (a : BitVec 7) (link : Thread → Thread) : State :=
  let bad := x.ls.filterMap fun l => (x.jumpTo ub a l).2.map fun c => (l, c)
  let go := x.ls.filter fun l => (x.jumpTo ub a l).2.isNone
  x.parkAll (x.lanesDo x.s go fun l th => (link th).goto (x.jumpTo ub a l).1) bad

/-- JMPR. -/
def execJmpr (ub : Bool) (a : BitVec 7) (s : State) : Host.Outcome State Fault Refusal :=
  runWord (.jmpr ub a) s fun x => x.jump ub a id

/-- JMPR.link. -/
def execJmprLink (ub : Bool) (d a : BitVec 7) (s : State) : Host.Outcome State Fault Refusal :=
  runWord (.jmprLink ub d a) s fun x => x.jump ub a fun th => th.setV64 d.toNat ((nextPc x.pc).setWidth 64)

/-! ### WBASE and RPF (R296, R297) -/

/-- WBASE. -/
def execWbase (n : BitVec 7) (s : State) : Host.Outcome State Fault Refusal :=
  runWord (.wbase n) s fun x =>
    if x.winOk n.toNat then x.setWin fun _ => n.toNat else x.raise Cause.illop

/-- RPF: the prefetched set changes and nothing else does. -/
def execRpf (start : BitVec 7) (count : BitVec 5) (s : State) : Host.Outcome State Fault Refusal :=
  runWord (.rpf start count) s fun x =>
    if count ≠ 0 ∧ (x.ls.any fun l =>
        decide (x.g.vh < (x.th l).winbase.toNat * 8 + start.toNat + count.toNat)) then x.raise Cause.illop
    else x.doneW x.s fun w => { w with rpf := if count = 0 then (0, 0) else (start.toNat, count.toNat) }

/-! ### Causes on waiting lanes -/

/-- Lanes of a warp raise causes where they stand: one set for each address and sub-warp, the lower
address first, then lanes in no sub-warp before sub-warps (R84, R237, R337). -/
def State.parkLanes (s : State) (core gk slot : Nat) (ls : List Nat) (bits : Word) : State :=
  match (s.group? core gk).bind fun g => (g.warp? slot).map fun w => (g, w) with
  | none => s
  | some (g, w) =>
    let at_ := ls.filterMap fun l => (g.laneThread w l).map fun t =>
      (l, t.pc.toNat * 64 + (((indexOf? w.subs fun b => b.lanes.getLsbD l).map (· + 1)).getD 0), t.pc)
    let keys := sortBy id (at_.map (fun e => e.2.1)).eraseDups
    keys.foldl (fun (s : State) (k : Nat) =>
      let set := at_.filter fun e => e.2.1 == k
      s.park core gk slot (maskOf (set.map Prod.fst)) bits ((set.map fun e => e.2.2).headD 0)) s

/-! ### PIPE (R305) -/

/-- The pipes a gang declares. -/
def Core.pipesOf (k : Core) (gang : Nat) : List Pipe := k.pipes.filter fun q => q.gang == gang

/-- Pipe n of the issuing gang. -/
def Ctx.pipe? (x : Ctx) (n : Nat) : Option Pipe := ((x.s.core x.core).pipesOf x.g.gang).find? fun q => q.k == n

/-- The group is an end of the pipe. -/
def Pipe.ends (q : Pipe) (member : Nat) : Bool := q.src == member || q.dst == member

/-- Some pipe of the group is mapped (R227). -/
def Core.piped (k : Core) (g : Group) : Bool :=
  (k.pipesOf g.gang).any fun q => q.ends g.member && !q.maps.isEmpty

/-- Change pipe n of a gang. -/
def State.modPipe (s : State) (core gang n : Nat) (f : Pipe → Pipe) : State :=
  s.modCore core fun k => { k with pipes := k.pipes.map fun q => if q.gang = gang ∧ q.k = n then f q else q }

/-- A lane waits on pipe n. -/
def Wait.onPipe (w : Wait) (n : Nat) : Bool :=
  match w with
  | .pipe _ ks _ => ks.contains n
  | _ => false

/-- The checks of PIPE.map and PIPE.unmap, then an effect on the pipe. -/
def Ctx.pipeOp (x : Ctx) (k : BitVec 3) (f : Pipe → State) : State :=
  match x.pipe? k.toNat with
  | none => x.raise Cause.illop
  | some q => if q.ends x.g.member then f q else x.raise Cause.prot

/-- PIPE.map. -/
def execPipeMap (k : BitVec 3) (s : State) : Host.Outcome State Fault Refusal :=
  runWord (.pipeMap k) s fun x => x.pipeOp k fun q =>
    if (x.s.core x.core).bins.any fun b => b.gk == x.g.gk then x.raise Cause.pipefe
    else if (sfind q.maps x.slot).isSome then x.done x.s fun _ th => th
    else x.done (x.s.modPipe x.core x.g.gang k.toNat fun q => { q with maps := sput q.maps x.slot [] })
      fun _ th => th

/-- PIPE.unmap: the members keep their registers, and lanes that wait on the pipe raise PIPEFE. A lane counts as waiting on
every pipe that its instruction names, the one that blocks it or not: the model's choice (R39, log 93). -/
def execPipeUnmap (k : BitVec 3) (s : State) : Host.Outcome State Fault Refusal :=
  runWord (.pipeUnmap k) s fun x => x.pipeOp k fun q =>
    let t := x.done (x.s.modPipe x.core x.g.gang k.toNat fun q => { q with maps := sdel q.maps x.slot })
      fun _ th => th
    if (sfind q.maps x.slot).isNone then t
    else (((x.s.core x.core).gangGroups x.g.gang).filter fun h => q.ends h.member).foldl
      (fun (s : State) (h : Group) =>
        match h.warp? x.slot with
        | none => s
        | some w => s.parkLanes x.core h.gk x.slot
            ((h.liveLanes w).filter fun l => (h.laneThread w l).any fun t => t.wait.onPipe k.toNat)
            (Cause.bit Cause.pipefe)) t

/-- PIPE.qry. -/
def execPipeQry (d : BitVec 6) (k : BitVec 3) (s : State) : Host.Outcome State Fault Refusal :=
  runWord (.pipeQry d k) s fun x =>
    match x.pipe? k.toNat with
    | none => x.raise Cause.illop
    | some q =>
      let m : Mask := if q.ends x.g.member then sget (sget q.maps x.slot []) 0 0 else 0
      x.doneW x.s fun w => w.setU d.toNat m

end Sys2Proof.Machine
end

