-- ==== Sys2Proof/Machine/Paths.lean ====
section
/-! DEFINITION. The paths of a warp and what the schedulers choose from them (spec/09 R238, R239; spec/02
R84; spec/05 R135; spec/11 R279). -/

namespace Sys2Proof.Machine

/-! ### Paths (R238) -/

/-- A lane can stand in an issuing set: it does not wait. -/
def Wait.issuable (w : Wait) : Bool := w == .none

/-- The gang of a group may issue: it is not stopping, has entered its saved entries, reloaded its planes and its
tile (R135, R208, R279, R341). What issues in the clock of an escape issues with it (R353). -/
def Core.mayIssue (k : Core) (clk : Nat) (g : Group) : Bool :=
  !g.replay && (k.gangGroups g.gang).all (fun h =>
    (h.stop.all fun p => p.clk == clk && [1, 3, 4, 5, 7].contains p.reason) && h.backlog.isEmpty &&
      h.planeLoads.isEmpty) &&
  (match g.tile with | some o => !o.reload | none => true)

/-- The set stepped by one TRET that a lane belongs to (R339). -/
def Warp.stepSet (w : Warp) (l : Nat) : Option Mask := w.stepping.find? fun m => m.getLsbD l

/-- Two lanes of a warp that stand at one program counter share a path: their sub-warp, and their stepping (R339). -/
def Warp.together (w : Warp) (i j : Nat) : Bool :=
  (w.subOf i).map (·.lanes) == (w.subOf j).map (·.lanes) && w.stepSet i == w.stepSet j

/-- The lanes that share the path of lane l. -/
def Group.pathOf (g : Group) (w : Warp) (l : Nat) : List Nat :=
  match g.laneThread w l with
  | none => []
  | some t0 =>
    (List.range 32).filter fun j =>
      match g.laneThread w j with
      | some t => t.wait.issuable && t.pc == t0.pc && w.together j l
      | none => false

/-! ### The scheduler's own choice (R238, R239) -/

/-- The lanes of a warp that can issue. -/
def Group.eligible (g : Group) (w : Warp) : List Nat :=
  (List.range 32).filter fun l => match g.laneThread w l with
    | some t => t.wait.issuable
    | none => false

/-- Order of a lane's path (R84): lower program counter first, lanes in no sub-warp before sub-warps, these in the
order they formed. -/
def Group.pathKey (g : Group) (w : Warp) (l : Nat) : Nat :=
  let pc := ((g.laneThread w l).map fun t => t.pc.toNat).getD 0
  pc * 64 + (((indexOf? w.subs fun b => b.lanes.getLsbD l).map (· + 1)).getD 0)

/-- The paths of a warp that can issue, in issue order. R84 gives no order to two paths in no sub-warp at one program counter,
which R339 keeps apart: the one with the lowest lane goes first, the model's choice (log 94). -/
def Group.paths (g : Group) (w : Warp) : List (Nat × List Nat) :=
  sortBy (fun p => p.1) (((g.eligible w).filter fun l => (g.pathOf w l).headD 32 == l).map fun l =>
    (g.pathKey w l, g.pathOf w l))

/-- The age of a path: the greatest of its lanes' (R239). -/
def Warp.pathAge (w : Warp) (ls : List Nat) : Nat := ls.foldl (fun a l => max a (sget w.ages l 0)) 0

/-- AGEMAX (R239). -/
def ageMax : Nat := 256

/-- Depth of the queues: the matrix queue, and each copy queue (R172). -/
def mqDepth : Nat := 64
def cqDepth : Nat := 32

/-- What a stalled path waits for has come, as far as its core shows it: a token or a result is no longer waited for once
it is written. -/
def Core.stallOver (k : Core) (y : Stall) : Bool :=
  match y with
  | .token | .other => false
  | .matrix => decide (k.mq.length < mqDepth)
  | .copy q => decide ((k.cq.filter fun e => e.q == q).length < cqDepth)
  | .seq c => k.seqs.all fun q => q.copy != c || q.finished

/-- A path is stalled at issue: it cannot issue yet. -/
def Core.isStalled (k : Core) (w : Warp) (ls : List Nat) : Bool :=
  ls.all fun l => w.stalls.any fun e => e.1.getLsbD l && !k.stallOver e.2

/-- The paths of a warp that issue in a clock, in issue order (R84): aged paths, the oldest first, are chosen before
the others. An aged path that is stalled keeps one of the two slots, and the other still goes to a path that can issue;
two of them keep one slot together, which is the model's choice (R239; log 85). -/
def Core.pick (k : Core) (g : Group) (w : Warp) : List (List Nat) :=
  let ps := (g.paths w).map Prod.snd
  let aged := sortBy (fun p => 65536 - w.pathAge p) (ps.filter fun p => decide (ageMax ≤ w.pathAge p))
  let rest := ps.filter fun p => decide (w.pathAge p < ageMax)
  let chosen := ((aged ++ rest).filter fun p => !k.isStalled w p).take (if aged.any (k.isStalled w) then 1 else 2)
  ps.filter chosen.contains

/-- A path of a warp has issued in a clock: its age is 0, and with the warp's first issue of the clock the paths that
were eligible beside it age (R239). -/
def Warp.issuedNow (w : Warp) (clk : Nat) (lanes others : List Nat) : Warp :=
  let older := if w.issuedAt = some clk then w.ages
    else others.foldl (fun a l => sset a l (min 65535 (sget a l 0 + 1)) 0) w.ages
  { w with issuedAt := some clk, ages := lanes.foldl (fun a l => sdel a l) older }

/-- The warps of a scheduler that have a path to issue: stamp order, lower WID on a tie. -/
def Core.readyWarps (k : Core) (clk sched : Nat) : List (Group × Nat × Warp) :=
  let all := k.groups.flatMap fun g =>
    if k.mayIssue clk g then (g.warps.zipIdx).filterMap fun (w, i) =>
      if w.wid % 4 = sched ∧ !(k.pick g w).isEmpty then some (g, i, w) else none
    else []
  sortBy (fun (_, _, w) => w.stamp * 64 + w.wid) all

/-- The warp a scheduler issues: one passed over for 256 clocks, else the last one, else the earliest. -/
def Core.pickWarp (k : Core) (clk sched : Nat) : Option (Group × Nat × Warp) :=
  let r := k.readyWarps clk sched
  match r.find? fun (_, _, w) => decide (ageMax ≤ w.passed) with
  | some x => some x
  | none =>
    match r.find? fun (_, _, w) => (sfind k.last sched) == some w.wid with
    | some x => some x
    | none => r.head?

/-- The stalled paths of a scheduler are tried again: all of them, or those that wait for a step of the package. -/
def Core.unstall (k : Core) (sched : Nat) (all : Bool) : Core :=
  { k with groups := k.groups.map fun g => { g with warps := g.warps.map fun w =>
      if w.wid % 4 = sched then { w with stalls := w.stalls.filter fun e => !all && e.2 != .other } else w } }

/-- The clocks that the warps of a scheduler have been passed over: one more for a ready warp, none for the warp that
is chosen and for one that is not ready. -/
def Core.passOver (k : Core) (sched : Nat) (ready : List Nat) (chosen : Nat) : Core :=
  { k with groups := k.groups.map fun g => { g with warps := g.warps.map fun w =>
      if w.wid % 4 ≠ sched then w
      else { w with passed := if w.wid = chosen ∨ ready.contains w.wid = false then 0 else w.passed + 1 } } }

/-- One scheduler in one clock: its choice, as the warp's number and its paths, and the core with the choice noted. -/
def Core.schedule (k : Core) (clk sched : Nat) (again : Bool) : Core × List (Nat × List (List Nat)) :=
  let k := if again then k.unstall sched false else k
  let k := if (k.pickWarp clk sched).isNone then k.unstall sched true else k
  match k.pickWarp clk sched with
  | none => (k, [])
  | some (g, _, w) =>
    ({ k.passOver sched ((k.readyWarps clk sched).map fun e => e.2.2.wid) w.wid with
        last := sput k.last sched w.wid }, [(w.wid, k.pick g w)])

/-- Every scheduler of a core chooses: what issues, schedulers in their order, the paths of a warp in issue order
(R84, R126). -/
def Core.issues (k : Core) (clk : Nat) (again : Bool) : Core × List (Nat × List Nat) :=
  let r := (List.range 4).foldl (fun (acc : Core × List (Nat × List (List Nat))) q =>
    let (k, l) := acc.1.schedule clk q again
    (k, acc.2 ++ l)) (k, [])
  (r.1, r.2.flatMap fun e => e.2.map fun p => (e.1, p))

end Sys2Proof.Machine
end

