-- ==== Sys2Proof/Machine/Record.lean ====
section
/-! DEFINITION. Task records: fields, level tables, placement and the checks of a record (spec/11 R262-R265;
spec/09 R230, R242; spec/10 R245-R247). -/

namespace Sys2Proof.Machine

/-! ### Holding words (R247) -/

/-- A holding word in the layout of R247. -/
def Hold.toNat (h : Hold) : Nat :=
  h.vreg + h.sreg * 2 ^ 8 + h.pages * 2 ^ 12 + h.slots * 2 ^ 23 + h.plane * 2 ^ 26

/-- The fields of a holding word. -/
def Hold.fields (w : Nat) : Hold := ⟨nbits w 7 0, nbits w 10 8, nbits w 22 12, nbits w 25 23, nbits w 26 26⟩

/-- No reserved bit of a holding word is set. -/
def Hold.clear (w : Nat) : Bool := nbits w 11 11 == 0 && nbits w 31 27 == 0

/-- The amounts a word names; none when a reserved bit is set or a limit is passed. -/
def Hold.ofWord (w : Nat) : Option Hold :=
  let h := Hold.fields w
  if nbits w 11 11 ≠ 0 ∨ nbits w 31 27 ≠ 0 ∨ 128 < h.vreg ∨ 4 < h.sreg ∨ 1536 < h.pages ∨ 3 < h.slots then none
  else some h

/-- Class by class. -/
def Hold.le (a b : Hold) : Bool :=
  decide (a.vreg ≤ b.vreg) && decide (a.sreg ≤ b.sreg) && decide (a.pages ≤ b.pages) &&
    decide (a.slots ≤ b.slots) && decide (a.plane ≤ b.plane)
def Hold.add (a b : Hold) : Hold :=
  ⟨a.vreg + b.vreg, a.sreg + b.sreg, a.pages + b.pages, a.slots + b.slots, a.plane + b.plane⟩
/-- Differences, 0 where the first is smaller. -/
def Hold.sub (a b : Hold) : Hold :=
  ⟨a.vreg - b.vreg, a.sreg - b.sreg, a.pages - b.pages, a.slots - b.slots, a.plane - b.plane⟩
/-- Nothing in any class. -/
def Hold.zero : Hold := ⟨0, 0, 0, 0, 0⟩
/-- What W warp slots cost a core (R245): vector granules and uniform granules in the first two fields. -/
def Hold.cost (h : Hold) (w : Nat) : Hold := { h with vreg := h.vreg * w, sreg := h.sreg * w }

/-- Core totals (R245) with a number of local-store pages. -/
def coreTotals (pages : Nat) : Hold := ⟨1024, 256, pages, 3, 1⟩

/-! ### Record fields (R262, R263) -/

namespace Rec
def entry (r : BitVec 1024) : Nat := fld r 51 0
def width (r : BitVec 1024) : Nat := fld r 53 52
def top (r : BitVec 1024) : Nat := fld r 56 54
/-- Warp slots per group. -/
def warps (r : BitVec 1024) : Nat := fld r 61 57 + 1
def valid (r : BitVec 1024) : Bool := bitAt r 63
def claim (r : BitVec 1024) : Nat := fld r 95 64
def start (r : BitVec 1024) : Nat := fld r 127 96
def deadline (r : BitVec 1024) : Nat := fld r 191 128
def budget (r : BitVec 1024) : Nat := fld r 223 192
def job (r : BitVec 1024) : Nat := fld r 255 224
/-- Level entry k. -/
def level (r : BitVec 1024) (k : Nat) : Nat := fld r (256 + 24 * k + 23) (256 + 24 * k)
def units (r : BitVec 1024) : Nat := fld r 479 448
def tape (r : BitVec 1024) : Nat := fld r 497 492
def trec (r : BitVec 1024) : Bool := bitAt r 498
def edge (r : BitVec 1024) : Nat := fld r 563 512
def gang (r : BitVec 1024) : Nat := fld r 627 576
def gate (r : BitVec 1024) : Nat := fld r 691 640
def signal (r : BitVec 1024) : Nat := fld r 755 704
/-- ARG[k]. -/
def arg (r : BitVec 1024) (k : Nat) : Word := BitVec.ofNat 32 (fld r (768 + 32 * k + 31) (768 + 32 * k))

/-! ### Levels (R230, R263) -/

def domain (r : BitVec 1024) (k : Nat) : Nat := nbits (level r k) 2 0
def scope (r : BitVec 1024) (k : Nat) : Nat := nbits (level r k) 5 3
/-- Fan-out n_k. -/
def fan (r : BitVec 1024) (k : Nat) : Nat := nbits (level r k) 21 6 + 1

/-- The product of the fan-outs of levels lo to hi − 1. -/
def fans (r : BitVec 1024) (lo hi : Nat) : Nat := (upto lo (hi - lo)).foldl (fun p k => p * fan r k) 1

/-- The group level G: the highest level whose domain is warp or core. -/
def groupLevel (r : BitVec 1024) : Nat :=
  (List.range (top r + 1)).foldl (fun g k => if domain r k = 1 ∨ domain r k = 2 then k else g) 0

/-- The highest level whose domain is warp, if any. -/
def warpLevel (r : BitVec 1024) : Option Nat :=
  (List.range (top r + 1)).foldl (fun g k => if domain r k = 1 then some k else g) none

/-- N_G: threads of a group. -/
def groupThreads (r : BitVec 1024) : Nat := fans r 1 (groupLevel r + 1)

/-- Groups of the task. -/
def groups (r : BitVec 1024) : Nat := units r * fans r (groupLevel r + 1) (top r + 1)

/-- Threads a declared width allows a warp-domain unit. -/
def widthOf (r : BitVec 1024) : Nat := [32, 16, 64, 0].getD (width r) 0

/-- Smallest scope of a domain. -/
def minScope (d : Nat) : Nat := [0, 1, 1, 2, 3, 4, 5].getD d 8

/-- The level table is well formed (R230, R263). -/
def levelsOk (r : BitVec 1024) : Bool :=
  let ks := List.range (top r + 1)
  domain r 0 == 0 && scope r 0 == 0 && fan r 0 == 1 &&
  ks.all (fun k => nbits (level r k) 23 22 == 0 && decide (domain r k ≤ 6) && decide (scope r k ≤ 5) &&
    decide (minScope (domain r k) ≤ scope r k) &&
    (k == 0 || (domain r k != 0 && decide (domain r (k - 1) ≤ domain r k) && decide (scope r (k - 1) ≤ scope r k))) &&
    (domain r k != 1 || decide (fans r 1 (k + 1) ≤ widthOf r))) &&
  ks.any (fun k => domain r k == 1 || domain r k == 2) &&
  decide (groupThreads r ≤ 1024) &&
  (upto (top r + 1) (7 - top r)).all fun k => level r k == 0

/-! ### Placement (R242, R265) -/

/-- Threads of a slot unit. -/
def slotUnit (r : BitVec 1024) (k : Nat) : Nat := fans r 1 (k + 1)

/-- Warp slots the placement needs. -/
def slotsNeeded (r : BitVec 1024) : Nat :=
  match warpLevel r with
  | none => (groupThreads r + 31) / 32
  | some k =>
    let u := groupThreads r / slotUnit r k
    match width r with
    | 0 => u
    | 1 => (u + 1) / 2
    | _ => 2 * u

/-- Slot and lane of thread i of a group. -/
def place (r : BitVec 1024) (i : Nat) : Nat × Nat :=
  match warpLevel r with
  | none => (i / 32, i % 32)
  | some k =>
    let u := i / slotUnit r k
    let j := i % slotUnit r k
    match width r with
    | 0 => (u, j)
    | 1 => (u / 2, 16 * (u % 2) + j)
    | _ => (2 * u + j / 32, j % 32)

/-- The digits LVL[0] to LVL[7] of thread number n of the task. -/
def digits (r : BitVec 1024) (n : Nat) : List Word :=
  (List.range 8).map fun k =>
    if top r < k then 0
    else if k = top r then BitVec.ofNat 32 (n / fans r 1 (k + 1))
    else BitVec.ofNat 32 (n / fans r 1 (k + 1) % fan r (k + 1))

/-! ### The checks of a record (R264, R246) -/

/-- Reserved bits of a record apart from VALID. -/
def reserved (r : BitVec 1024) : Bool :=
  bitAt r 62 || fld r 511 499 != 0 || fld r 575 564 != 0 || fld r 639 628 != 0 || fld r 703 692 != 0 ||
    fld r 767 756 != 0

/-- A record passes R264. -/
def ok (r : BitVec 1024) : Bool :=
  !reserved r && width r != 3 && top r != 0 && levelsOk r && decide (slotsNeeded r ≤ warps r) &&
    !(width r == 2 && warps r % 2 == 1) &&
    (match Hold.ofWord (claim r), Hold.ofWord (start r) with
     | some c, some h => h.le c && (c.cost (warps r)).le (coreTotals 1536)
     | _, _ => false) &&
    units r != 0 && decide (groupThreads r * groups r ≤ 2 ^ 31) && entry r % 4 == 0 && edge r % 16 == 0 &&
    gang r % 16 == 0 && gate r % 4 == 0 && signal r % 4 == 0

/-- CLAIM as amounts. -/
def claimOf (r : BitVec 1024) : Hold := (Hold.ofWord (claim r)).getD Hold.zero
/-- START as amounts. -/
def startOf (r : BitVec 1024) : Hold := (Hold.ofWord (start r)).getD Hold.zero

end Rec

end Sys2Proof.Machine
end

