-- ==== Sys2Proof/Machine/Threads.lean ====
section
/-! DEFINITION. Threads, bins and the Shuffler, barriers, SYNCW and reconvergence (spec/09 R217-R244;
spec/12 R290-R292, R295). -/

namespace Sys2Proof.Machine

/-! ### Bins (R223, R224) -/

/-- File a thread under a key: its bin, the lowest free bin, or the group's mixed bin. -/
def Core.file (k : Core) (gk : Nat) (pc : Addr) (t : Nat × Nat) (time : Nat) : Core :=
  let hit (b : Bin) : Bool := b.idx.isSome && b.gk == gk && b.pc == pc
  let mixed (b : Bin) : Bool := b.idx.isNone && b.gk == gk
  let add (p : Bin → Bool) : Core :=
    { k with bins := k.bins.map fun b => if p b then { b with threads := b.threads ++ [t] } else b }
  if k.bins.any hit then add hit
  else match (List.range 64).find? (fun i => !(k.bins.any fun b => b.idx == some i)) with
    | some i => { k with bins := k.bins ++ [⟨some i, gk, pc, [t], time, false⟩] }
    | none =>
      if k.bins.any mixed then add mixed else { k with bins := k.bins ++ [⟨none, gk, 0, [t], time, false⟩] }

/-- File thread t of a group at an address. -/
def State.file (s : State) (core : Nat) (g : Group) (t : Nat) (pc : Addr) : State :=
  let s1 := s.modGroup core g.gk fun g => g.modThread t fun th => { th with pc := pc, wait := .none }
  (s1.modCore core fun k => k.file g.gk pc (t, s.fresh) g.binTime).bump

/-- A thread of the group outside bins runs: it is neither parked nor waiting (R224). -/
def Group.someRuns (g : Group) : Bool :=
  g.warps.any fun w => (g.liveLanes w).any fun l =>
    (w.subOf l).isNone && (g.laneThread w l).any fun t => t.wait == .none

/-- A bin is ready (R224). -/
def Core.binReady (k : Core) (b : Bin) : Bool :=
  !b.threads.isEmpty && (decide (32 ≤ b.threads.length) || b.expired ||
    !((k.group? b.gk).any fun g => g.someRuns))

/-- The number a step names a bin by: 0 to 63, or 64 plus the group's key for its mixed bin. -/
def Bin.num (b : Bin) : Nat := match b.idx with | some i => i | none => 64 + b.gk

/-- A bin's timer reaches 0. -/
def execBinTimer (core bin : Nat) (s : State) : Host.Outcome State Fault Refusal :=
  .next (s.modCore core fun k => { k with bins := k.bins.map fun b =>
    if b.num = bin ∧ b.timer = 0 then { b with expired := true } else b })

/-- The lowest-numbered warp slot without a live thread (R222, R225). -/
def Group.freeSlot (g : Group) : Option Nat := indexOf? g.warps fun w => (g.liveLanes w).isEmpty

/-- The slot of a launch in a clock: the lowest-numbered free one, but for a slot whose last thread left it in that clock,
which frees for the following one (R225, R244). -/
def Group.launchSlot (g : Group) (clk : Nat) : Option Nat :=
  indexOf? g.warps fun w => (g.liveLanes w).isEmpty && w.issuedAt != some clk

/-- Take threads from a bin: the bin frees when none is left, and its timer starts again when fewer than
32 are (R225). -/
def Core.takeBin (k : Core) (num n time : Nat) : Core :=
  { k with bins := k.bins.filterMap fun b =>
      if b.num = num then
        let r := b.threads.drop n
        if r.isEmpty then none
        else some (if r.length < 32 then { b with threads := r, timer := time, expired := false }
          else { b with threads := r })
      else some b }

/-- A launch into a free slot (R225, R228). -/
def Warp.launched (w : Warp) (ts : List Nat) (stamp : Nat) : Warp :=
  { w with
    lanes := (List.range 32).map fun l => ts[l]?
    cause := 0
    trappc := 0
    age := 0
    ages := []
    subs := []
    failLanes := []
    rpf := (0, 0)
    stamp := stamp
    stepping := []
    passed := 0
    stalls := []
    binStall := []
    tqs := [] }

/-- The Shuffler launches a warp of a group from the ready bin whose oldest thread was filed earliest, at most one in
a clock of the core; a gang that is stopping launches nothing (R225, R244). -/
def execWarpLaunch (core gk : Nat) (s : State) : Host.Outcome State Fault Refusal :=
  let k := s.core core
  match k.group? gk with
  | none => .next s
  | some g =>
    if k.launched = some s.clk then .next s else
    match g.stop, g.launchSlot s.clk,
      minBy (fun b => (b.threads.headD (0, 0)).2) (k.bins.filter fun b => b.gk == gk && k.binReady b) with
    | none, some slot, some b =>
      let ts := (b.threads.take 32).map Prod.fst
      .next (((s.modWarp core gk slot fun w => w.launched ts s.fresh).modCore core fun k =>
        { k.takeBin b.num 32 g.binTime with launched := some s.clk }).bump)
    | _, _, _ => .next s

/-- Put a thread into a lane of a warp that runs (R226, R228). -/
def Warp.injected (w : Warp) (l t : Nat) : Warp :=
  { w with lanes := modAt w.lanes l fun _ => some t, ages := sdel w.ages l, rpf := (0, 0) }

/-- Free and absent lanes of a group: slot and lane, lowest WID then lowest lane first. -/
def Group.freeLanes (g : Group) : List (Nat × Nat) :=
  (sortBy (fun p => p.1.wid) g.warps.zipIdx).flatMap fun (w, i) =>
    ((List.range 32).filter fun l => (g.laneThread w l).isNone).map fun l => (i, l)

/-- An expired bin of a group with no free warp slot is injected. -/
def execInjection (core bin : Nat) (s : State) : Host.Outcome State Fault Refusal :=
  let k := s.core core
  match k.bins.find? fun b => b.num == bin with
  | none => .next s
  | some b =>
    match k.group? b.gk with
    | none => .next s
    | some g =>
      if g.stop.isSome || g.freeSlot.isSome || !b.expired then .next s
      else
        let ps := b.threads.zip g.freeLanes
        .next ((s.modGroup core b.gk fun g => ps.foldl (fun (g : Group) p =>
          g.modWarp p.2.1 fun w => w.injected p.2.2 p.1.1) g).modCore core fun k =>
            k.takeBin bin ps.length g.binTime)

/-! ### Ageing (R239) -/

/-- A path whose age has reached AGEMAX takes an issue slot: the oldest goes next (R239). -/
def execPathAge (core wid : Nat) (s : State) : Host.Outcome State Fault Refusal :=
  let k := s.core core
  match k.findWid wid with
  | none => .next s
  | some (g, _, w) =>
    match minBy (fun p => 65536 - w.pathAge p)
      (((g.paths w).map Prod.snd).filter fun p => decide (ageMax ≤ w.pathAge p) && !k.isStalled w p) with
    | none => .next s
    | some p =>
      if k.mayIssue s.clk g then
        .next { s with agenda := .issue core wid (maskOf p) :: s.agenda }
      else .next s

/-- A warp passed over for 256 clocks is chosen next, the one launched earliest among several. -/
def execWarpAge (core sched : Nat) (s : State) : Host.Outcome State Fault Refusal :=
  let k := s.core core
  match (k.readyWarps s.clk sched).find? (fun (_, _, w) => decide (ageMax ≤ w.passed)) with
  | none => .next s
  | some (g, slot, w) =>
    .next { s.modWarp core g.gk slot fun w => { w with passed := 0 } with
            agenda := ((k.pick g w).map fun p => .issue core w.wid (maskOf p)) ++ s.agenda }

/-! ### Lanes that leave (R222, R227) -/

/-- Stalled TQs without the lanes of a mask. -/
def cutTqs (l : List TqStall) (m : Mask) : List TqStall :=
  (l.map fun e => { e with lanes := e.lanes &&& ~~~m }).filter fun e => e.lanes != 0

/-- A lane becomes free. -/
def Warp.freed (w : Warp) (l : Nat) : Warp :=
  let m := ~~~laneBit l
  { w with
    lanes := modAt w.lanes l fun _ => none
    ages := sdel w.ages l
    stepping := cutMasks w.stepping (laneBit l)
    stalls := cutStalls w.stalls (laneBit l)
    tqs := cutTqs w.tqs (laneBit l)
    failLanes := (w.failLanes.map fun (k, c) => (k &&& m, c)).filter fun (k, _) => k != 0
    subs := (w.subs.map fun b => { b with lanes := b.lanes &&& m }).filter fun b => b.lanes != 0 }

/-- The mask a lane waits with at SYNCW. -/
def Thread.syncMask (t : Thread) : Option Mask :=
  match t.wait with
  | .syncw m => some m
  | _ => none

/-- The lanes of a warp that wait at SYNCW, with their masks. -/
def Group.syncWaiters (g : Group) (w : Warp) : List (Nat × Mask) :=
  (g.liveLanes w).filterMap fun l => ((g.laneThread w l).bind fun t => t.syncMask).map fun m => (l, m)

/-- Waiting lanes whose mask shares a bit with m raise SYNCMASK (R237). -/
def State.syncBreak (s : State) (core gk slot : Nat) (m : Mask) : State :=
  match (s.group? core gk).bind fun g => (g.warp? slot).map fun w => (g, w) with
  | none => s
  | some (g, w) =>
    let hit := (g.syncWaiters w).filter fun (_, k) => k &&& m != 0
    if hit.isEmpty then s else s.parkLanes core gk slot (hit.map Prod.fst) (Cause.bit Cause.syncmask)

/-! ### Barriers within a group (R234, R235) -/

/-- A thread waits at BAR.Lk. -/
def Wait.atBar (w : Wait) (k : Nat) : Bool :=
  match w with
  | .bar j _ => j == k
  | _ => false

/-- The level a thread waits at a barrier of. -/
def Wait.barLevel (w : Wait) : Option Nat :=
  match w with
  | .bar k _ => some k
  | _ => Option.none

/-- Two threads of a group belong to one unit of level k. -/
def sameUnit (k : Nat) (a b : Thread) : Bool := a.lvl.drop k == b.lvl.drop k

/-- Threads whose barrier, of a level within the group, has every live thread of its unit. -/
def Group.barDone (g : Group) : List Nat :=
  (g.threads.filter fun (_, th) => match th.wait.barLevel with
    | none => false
    | some k => decide (k ≤ Rec.groupLevel g.record) &&
        g.threads.all fun (_, u) => !sameUnit k th u || u.wait.atBar k).map Prod.fst

/-- Threads go past the instruction they wait at; their warps' sync flags are set (R365). -/
def State.release (s : State) (core gk : Nat) (ts : List Nat) : State :=
  if ts.isEmpty then s
  else
    let s := s.modGroup core gk fun g => ts.foldl (fun (g : Group) t => g.modThread t fun th =>
      { th with pc := nextPc th.pc, wait := .none }) g
    match s.group? core gk with
    | none => s
    | some g => (g.warps.zipIdx).foldl (fun (s : State) (p : Warp × Nat) =>
        if p.1.lanes.any fun o => o.any ts.contains then s.sync core g p.2 else s) s

/-- Barriers of the group that are complete release their arrivals. -/
def State.barriers (s : State) (core gk : Nat) : State :=
  match s.group? core gk with
  | none => s
  | some g => s.release core gk g.barDone

/-- After lanes of a warp arrived, waited or left: complete barriers, then release RCV (R234, R241). -/
def Ctx.settle (x : Ctx) (s : State) : State :=
  x.modG (s.barriers x.core x.g.gk) fun g => g.rcvRelease x.slot

/-- Lanes of the issuing set have left the warp: SYNCW masks that name them break (R237). -/
def Ctx.left (x : Ctx) (s : State) : State :=
  x.settle (s.syncBreak x.core x.g.gk x.slot x.lanes)

/-! ### SPAWN, REFORM, RCV, EXIT (R219-R222, R227, R241, R291, R292) -/

/-- TID of the next spawned thread (R220). -/
def Group.spawnTid (g : Group) : Word :=
  BitVec.ofNat 32 (0x80000000 + g.gid.toNat % 2 ^ 15 * 2 ^ 16 + g.spawnCount.toNat)

/-- The lowest free thread slot (R218). -/
def Group.freeThread (g : Group) : Option Nat :=
  (List.range (32 * g.warps.length)).find? fun t => (sfind g.threads t).isNone

/-- LVL of a spawned thread: no unit below the group level. -/
def spawnLvl (level : Nat) (lvl : List Word) : List Word :=
  (lvl.zipIdx).map fun (v, k) => if k < level then 0xFFFFFFFF else v

/-- Create a thread in a free slot and file it at its entry; none when no slot is free. -/
def State.spawn (s : State) (core gk : Nat) (entry : Addr) (lvl : List Word) (rmode : BitVec 2)
    (init : Thread → Thread) : Option State :=
  (s.group? core gk).bind fun g =>
    g.freeThread.map fun t =>
      let th := init (Thread.new entry g.spawnTid (spawnLvl (Rec.groupLevel g.record) lvl) rmode)
      (s.modGroup core gk fun g =>
        { g with threads := sput g.threads t th, spawnCount := g.spawnCount + 1 }).file core g t entry

/-- One lane of SPAWN. -/
def Ctx.spawnLane (x : Ctx) (d b : BitVec 7) (entry : Addr) (s : State) (l : Nat) : State :=
  let th := x.th l
  let r := s.spawn x.core x.g.gk entry th.lvl th.rmode fun n =>
    (List.range 8).foldl (fun (n : Thread) i => n.setV i (th.v (b.toNat + i))) n
  x.lanesDo (r.getD s) [l] fun _ th => (th.setV d.toNat (if r.isSome then 1 else 0)).goto (nextPc x.pc)

/-- SPAWN. -/
def execSpawn (d : BitVec 7) (a : BitVec 6) (b : BitVec 7) (s : State) : Host.Outcome State Fault Refusal :=
  runWord (.spawn d a b) s fun x =>
    let e := x.u64 a.toNat
    if (x.s.core x.core).piped x.g then x.raise Cause.pipefe
    else if fld e 63 52 ≠ 0 then x.raise Cause.prot
    else if fld e 1 0 ≠ 0 then x.raise Cause.align
    else x.ls.foldl (x.spawnLane d b (e.extractLsb' 0 52)) x.s

/-- REFORM: the threads leave their lanes for the bin of the next address. -/
def execReform (s : State) : Host.Outcome State Fault Refusal :=
  runWord .reform s fun x =>
    if (x.s.core x.core).piped x.g then x.raise Cause.pipefe
    else
      let s := x.ls.foldl (fun (s : State) l => x.modW (s.file x.core x.g (x.slotOf l) (nextPc x.pc))
        fun w => w.freed l) x.s
      x.left s

/-- RCV. -/
def execRcv (s : State) : Host.Outcome State Fault Refusal :=
  runWord .rcv s fun x => x.waitAt x.s x.ls .rcv

/-- Threads end: their slots and lanes become free, no queue entry waits on them for FENC.Q, and the result of a push
of theirs is written nowhere (R304). -/
def Ctx.endThreads (x : Ctx) : State :=
  let ts := x.ls.map x.slotOf
  let s : State := { x.s with pushes := x.s.pushes.map fun p =>
    if p.core = x.core ∧ p.gk = x.g.gk ∧ ts.contains p.slot = true then { p with live := false } else p }
  let gone (e : Entry) : Entry :=
    if e.gk = x.g.gk then { e with threads := e.threads.filter fun t => !ts.contains t } else e
  (x.modG s fun g =>
    { g with threads := ts.foldl (fun a t => sdel a t) g.threads
             melds := g.melds.map fun m => { m with signed := m.signed.map fun t => if ts.contains t then noThread else t }
             warps := modAt g.warps x.slot fun w => x.ls.foldl Warp.freed w }).modCore x.core fun k =>
      { k with mq := k.mq.map gone, cq := k.cq.map gone, seqs := k.seqs.map fun q =>
          if q.gk = x.g.gk then { q with threads := q.threads.filter fun t => !ts.contains t } else q }

/-- EXIT. -/
def execExit (s : State) : Host.Outcome State Fault Refusal :=
  runWord .exit s fun x => x.left x.endThreads

/-! ### BAR (R234, R295) -/

/-- A lane may arrive at its level-k unit's barrier. -/
def Ctx.barOk (x : Ctx) (k l : Nat) : Bool :=
  decide (k ≤ Rec.top x.g.record) && (x.th l).lvl.getD k 0 != 0xFFFFFFFF

/-- BAR.Lk: a level within the group counts at once, one above the core by message (R236). -/
def execBar (k : BitVec 3) (s : State) : Host.Outcome State Fault Refusal :=
  runWord (.bar k) s fun x =>
    let n := k.toNat
    let ok := x.ls.filter (x.barOk n)
    let bad := maskOf (x.ls.filter fun l => !x.barOk n l)
    let t :=
      if ok.isEmpty then x.s
      else if n = 0 then (x.advance x.s ok).sync x.core x.g x.slot
      else x.lanesDo x.s ok fun _ th => { th with wait := .bar n (decide (n ≤ Rec.groupLevel x.g.record)) }
    x.settle (x.park t bad (Cause.bit Cause.syncmask))

/-- The arrivals of a group's threads in units above the core reach their barriers. -/
def execBarrierArrival (core gk : Nat) (s : State) : Host.Outcome State Fault Refusal :=
  .next (s.modGroup core gk fun g => { g with threads := g.threads.map fun (t, th) =>
    (t, match th.wait with | .bar k _ => { th with wait := .bar k true } | _ => th) })

/-- Two groups run threads of one task as the same gang member, or tiles of one draw. -/
def Group.sameTask (g h : Group) : Bool :=
  g.gk == h.gk || (g.member == h.member && match g.task, g.tile with
    | some a, _ => h.task == some a
    | none, some o => h.task.isNone && h.tile.any fun p => p.draw == o.draw
    | none, none => false)

/-- Index of a group's level-k unit, for a level above the group's. -/
def unitNum (r : BitVec 1024) (k gid : Nat) : Nat := gid / Rec.fans r (Rec.groupLevel r + 1) (k + 1)

/-- Two groups have threads of one level-k unit above the core. -/
def Group.sharesUnit (g h : Group) (k : Nat) : Bool :=
  g.sameTask h && unitNum g.record k h.gid.toNat == unitNum g.record k g.gid.toNat

/-- The groups whose state an image holds. -/
def State.awayGroups (s : State) : List Group := s.images.flatMap fun i => i.members.map (·.group)

/-- The threads of a level-k unit above the core: core, group key, thread slot, thread. -/
def State.unitThreads (s : State) (g : Group) (k : Nat) : List (Nat × Nat × Nat × Thread) :=
  s.cores.flatMap fun (c, q) => q.groups.flatMap fun h =>
    if g.sharesUnit h k then h.threads.map fun (t, th) => (c, h.gk, t, th) else []

/-- The barrier of level k that a group's thread has arrived at has every live thread of its unit; those of a
group that is swapped out keep their arrivals, and are waited for (R236). -/
def State.barReady (s : State) (g : Group) (k : Nat) : Bool :=
  decide (Rec.groupLevel g.record < k) &&
    (s.awayGroups.filter fun h => g.sharesUnit h k).all (fun h => h.threads.all fun e => e.2.wait.atBar k) &&
    (s.unitThreads g k).all fun (_, _, _, th) => th.wait == .bar k true

/-- The arrivals of swapped-out groups of a unit are released: their threads go on when they are restored. -/
def State.releaseAway (s : State) (g : Group) (k : Nat) : State :=
  let free (h : Group) : Group := { h with threads := h.threads.map fun (t, th) => (t, { th with wait := .none }) }
  let mend (m : SavedMember) : SavedMember := if g.sharesUnit m.group k then { m with group := free m.group } else m
  { s with images := s.images.map fun i => { i with members := i.members.map mend } }

/-- A barrier above the core completes: every arrival of the unit goes on. -/
def execBarrierComplete (core gk : Nat) (k : BitVec 3) (thread : Nat) (s : State) : Host.Outcome State Fault Refusal :=
  match s.group? core gk with
  | none => .next s
  | some g =>
    if ((sfind g.threads thread).any fun th => th.wait.atBar k.toNat) && s.barReady g k.toNat then
      let ts := s.unitThreads g k.toNat
      .next (((ts.map fun e => (e.1, e.2.1)).eraseDups.foldl (fun (s : State) p =>
        s.release p.1 p.2 ((ts.filter fun e => e.1 == p.1 && e.2.1 == p.2).map fun e => e.2.2.1)) s).releaseAway g k.toNat)
    else .next s

/-! ### SYNCW (R237) -/

/-- SYNCW with each lane's mask. -/
def Ctx.syncw (x : Ctx) (m : Nat → Mask) : State :=
  let live := maskOf (x.g.liveLanes x.w)
  let odd := x.ls.filter fun l => !(m l).getLsbD l || (m l &&& ~~~live) != 0
  let arr := (x.ls.filter fun l => !odd.contains l).map fun l => (l, m l)
  let waiting := (x.g.syncWaiters x.w).filter fun e => !x.lanes.getLsbD e.1
  let pool := waiting ++ arr
  let clash := (arr.filter fun (_, k) => pool.any fun (j, n) => k.getLsbD j && n != k)
  let broken := clash.foldl (fun b e => b ||| e.2) (0 : Mask)
  let keep := waiting.filter fun e => e.2 &&& broken == 0
  let come := arr.filter fun e => !clash.contains e
  let pool := keep ++ come
  let full (k : Mask) : Bool := (maskLanes k).all fun j => pool.contains (j, k)
  let done := ((come.filter fun e => full e.2).flatMap fun e => maskLanes e.2).eraseDups
  let stay := come.filter fun e => !full e.2
  let s := x.lanesDo x.s done fun _ th => { th with pc := nextPc th.pc, wait := .none }
  let s := if done.isEmpty then s else s.sync x.core x.g x.slot
  let s := x.lanesDo s (stay.map Prod.fst) fun l th => { th with wait := .syncw (m l) }
  let s := x.park s (maskOf (odd ++ clash.map Prod.fst)) (Cause.bit Cause.syncmask)
  let gone := (waiting.filter fun e => e.2 &&& broken != 0).map Prod.fst
  x.settle (if gone.isEmpty then s else s.parkLanes x.core x.g.gk x.slot gone (Cause.bit Cause.syncmask))

/-- SYNCW va. -/
def execSyncw (a : BitVec 7) (s : State) : Host.Outcome State Fault Refusal :=
  runWord (.syncw a) s fun x => x.syncw fun l => x.v a.toNat l

/-- SYNCW.u sa. -/
def execSyncwU (a : BitVec 6) (s : State) : Host.Outcome State Fault Refusal :=
  runWord (.syncwU a) s fun x => x.syncw fun _ => x.u a.toNat

end Sys2Proof.Machine
end

