-- ==== Sys2Proof/Machine/Banker.lean ====
section
/-! DEFINITION. The Banker: counts, the safety check, requests, grants, releases and hand-off (spec/10
R245-R260; spec/12 R294, R298; spec/05 R123, R124; spec/22 R434, R435). -/

namespace Sys2Proof.Machine

/-! ### Counts (R245, R249) -/

/-- Holding and claim costs of a gang on a core; granules kept for a pipe partner count as held and
claimed (R434). -/
def Core.party (k : Core) (gang : Nat) : Hold × Hold :=
  let gs := k.gangGroups gang
  let sum (f : Group → Hold) : Hold := gs.foldl (fun h g => h.add ((f g).cost g.warps.length)) Hold.zero
  let kept := (k.linger.filter fun e => e.1 == gang).foldl (fun n e => n + e.2.2) 0
  ((sum Group.holds).add ⟨kept, 0, 0, 0, 0⟩, (sum (·.claim)).add ⟨kept, 0, 0, 0, 0⟩)

/-- The gangs of a core. -/
def Core.gangs (k : Core) : List Nat := (k.groups.map (·.gang) ++ k.linger.map Prod.fst).eraseDups

/-- Every party's holding and claim. -/
def Core.parties (k : Core) : List (Nat × Hold × Hold) := k.gangs.map fun n => (n, k.party n)

/-- What is held on the core. -/
def Core.heldAll (k : Core) : Hold := k.parties.foldl (fun h p => h.add p.2.1) Hold.zero

/-- avail(c): units being reclaimed count as available. -/
def State.avail (s : State) (core : Nat) : Hold := (coreTotals (s.lsPages core)).sub (s.core core).heldAll

/-- Units being reclaimed (R254). -/
def Core.reclaiming (k : Core) : Hold :=
  ⟨0, 0, k.recPages.length, (k.recSlots.filter (· != 0)).length, if k.recSlots.contains 0 then 1 else 0⟩

/-- avail(c) without the units being reclaimed (R251). -/
def State.availNow (s : State) (core : Nat) : Hold := (s.avail core).sub (s.core core).reclaiming

/-- The loop of R249 over parties with their holding and need. -/
def safeLoop : Nat → List (Hold × Hold) → Hold → Bool
  | _, [], _ => true
  | 0, _ :: _, _ => false
  | n + 1, ps, work =>
    match ps.find? (fun p => p.2.le work) with
    | none => false
    | some p => safeLoop n (ps.erase p) (work.add p.1)

/-- A state of holdings and claims is safe. -/
def bankSafe (ps : List (Hold × Hold)) (work : Hold) : Bool :=
  safeLoop ps.length (ps.map fun p => (p.1, p.2.sub p.1)) work

/-! ### Deciding a request (R250, R251, R253) -/

/-- A lane of a request waits at it, or a replay does; the waits of a gang that is stopping are over (R252, R341,
R373). -/
def Core.waits (k : Core) (r : Req) : Bool :=
  (k.group? r.gk).any fun g => g.stop.isNone && (g.replay || (g.warp? r.wslot).any fun w =>
    (maskLanes r.lanes).any fun l => (g.laneThread w l).any fun t => t.wait == .bank)

/-- The requests that wait, oldest first. -/
def Core.waiting (k : Core) : List Req := k.reqs.filter k.waits

/-- The head (R253). -/
def Core.headReq (k : Core) : Option Req := k.waiting.find? (·.isHead)

/-- Decide a request of a group: 0 grantable, 1 unsafe or withheld, 2 does not fit, 3 beyond the claim. -/
def State.judge (s : State) (core : Nat) (g : Group) (req : Hold) : Nat :=
  let k := s.core core
  if !(g.holds.add req).le g.claim then 3
  else if req = Hold.zero then 0
  else
    let cost := req.cost g.warps.length
    if !cost.le (s.availNow core) then 2
    else
      let left := (s.avail core).sub cost
      let ps := k.parties.map fun (n, h, c) => (n, (if n = g.gang then h.add cost else h), c)
      let withheld : Bool := match k.headReq.bind fun r => k.group? r.gk with
        | none => false
        | some h => h.gang != g.gang &&
            !(ps.any fun (n, hd, c) => n == g.gang && (c.sub hd).le left)
      if bankSafe (ps.map Prod.snd) left && !withheld then 0 else 1

/-! ### Granting (R248, R123, R149) -/

/-- A page of the core is held or being reclaimed. -/
def Core.pageTaken (k : Core) (p : Nat) : Bool := k.recPages.contains p || k.groups.any fun g => g.pages.contains p

/-- A matrix slot is held or being reclaimed. -/
def Core.slotTaken (k : Core) (q : Nat) : Bool := k.recSlots.contains q || k.groups.any fun g => g.slots.contains q

/-- Free physical pages, in the order they are given out: which page backs a logical page is open (log 14). -/
def State.freePages (s : State) (core n : Nat) : List Nat :=
  if n = 0 then []
  else (sortBy (fun p => Config.freeNat s.stepNo (8192 + p))
    ((List.range (s.lsPages core)).filter fun p => !(s.core core).pageTaken p)).take n

/-- Pages read as zero, without poison, and their tag entries are reset (R152). -/
def State.cleanPages (s : State) (core : Nat) (ps : List Nat) : State :=
  let inPage (key : Nat) : Bool := ps.any fun p =>
    decide (lsKey core (4096 * p) ≤ key) && decide (key < lsKey core (4096 * p) + 4096)
  if ps.isEmpty then s
  else ({ s with mem := s.mem.filter fun c => !inPage c.1
                 poison := s.poison.filter fun u => !inPage (8 * u) }).modCore core fun k =>
    { k with tags := ps.foldl (fun t p => sdel t p) k.tags, tpoison := k.tpoison.filter fun p => !ps.contains p }

/-- A matrix slot as the Banker grants it. -/
def Core.cleanSlot (k : Core) (q : Nat) : Core :=
  let mine (a : Nat) : Bool := a / 4 == q
  { k with acc := k.acc.filter fun e => !mine (e.1 / 4096), apoison := k.apoison.filter fun n => !mine (n / 4096),
           owner := k.owner.filter fun e => !mine e.1,
           act := if q = 0 then none else k.act, shd := if q = 0 then none else k.shd }

/-- Slots a request is given: the plane slot, and the lowest free accumulator slots. -/
def Core.freeSlots (k : Core) (req : Hold) : List Nat :=
  (if req.plane = 0 then [] else [0]) ++ (([1, 2, 3].filter fun q => !k.slotTaken q).take req.slots)

/-- Give a group pages and slots named by number, and registers by count. -/
def State.give (s : State) (core gk : Nat) (req : Hold) (pages slots : List Nat) : State :=
  let s := (s.cleanPages core pages).modCore core fun k => slots.foldl Core.cleanSlot k
  s.modGroup core gk fun g =>
    { g with vh := g.vh + 8 * req.vreg, uh := g.uh + 16 * req.sreg, pages := g.pages ++ pages,
             slots := sortBy id (g.slots ++ slots) }

/-- Grant a request. -/
def State.grantTo (s : State) (core gk : Nat) (req : Hold) : State :=
  s.give core gk req (s.freePages core req.pages) ((s.core core).freeSlots req)

/-! ### Reclaim (R154, R254) -/

/-- An engine operation names accumulator slot q. -/
def namesSlot (i : Instr) (q : Nat) : Bool :=
  match i with
  | .ldw _ _ _ | .ldwSwap _ _ => q == 0
  | .mstr c _ _ _ _ _ => q == 0 || c.toNat / 4 == q
  | .accZ c _ _ | .accRd c _ _ _ | .accWr c _ _ _ => c.toNat / 4 == q
  | _ => false

/-- The page numbers of a span of bytes. -/
def spanPages (a n : Nat) : List Nat := if n = 0 then [] else upto (a / 4096) ((a + n - 1) / 4096 - a / 4096 + 1)

/-- Addresses and bytes of what a descriptor names: the elements line by line, with their scales, and the reserved
area of the units that a pack writes (R67, R71, R77, R122, R136). Local-store pages are 4 KiB pages of format 0, where
an MXFP8 element and its scale share a page. -/
def State.descSpans (s : State) (g : Group) (pack : Bool) (d : Desc) : List (Nat × Nat) :=
  if Dsc.layout d = 2 then
    match s.planeCheck g d with
    | .ok (o, ch, pf) => (List.range 64).map (fun r => (planePos d ch pf r 0, (Dsc.cols d + 1) * (if pf = 0 then 2 else 1))) ++
        (if pf = 0 then [] else [(planeScale d o 0, 64)])
    | .bad _ | .wait => []
  else
    let bits := elemBits (Dsc.fmtsel d)
    let (lines, n) := if Dsc.layout d = 1 then (Dsc.cols d + 1, Dsc.rows d + 1) else (Dsc.rows d + 1, Dsc.cols d + 1)
    let spans := (List.range lines).map fun i => (Dsc.base d + i * Dsc.stride d, (n * bits + 7) / 8)
    if Dsc.fmtsel d = 8 then
      spans ++ ((spans.flatMap fun (a, n) => upto (a / 65536) ((a + n - 1) / 65536 - a / 65536 + 1)).eraseDups.map fun u =>
        (65536 * u + 0xE000, if pack then 0x2000 else 0x71C))
    else spans

/-- The physical pages of its own core that a descriptor reaches: through the local-store window by logical page,
through the grove window by physical page, where a group of its address space holds the page (R150). -/
def State.descPages (s : State) (core : Nat) (g : Group) (pages : List Nat) (pack : Bool) (d : Desc) : List Nat :=
  let nums := ((s.descSpans g pack d).flatMap fun (a, n) => spanPages a n).eraseDups
  nums.filterMap fun p =>
    let a := 4096 * p
    if lsWindow ≤ a ∧ a < lsWindow + 2 ^ 23 then pages[(a - lsWindow) / 4096]?
    else if groveWindow + core % 32 * 2 ^ 23 ≤ a ∧ a < groveWindow + (core % 32 + 1) * 2 ^ 23 then
      let q := (a - groveWindow) % 2 ^ 23 / 4096
      if (s.core core).groups.any fun h => h.ctx == g.ctx && h.pages.contains q then some q else none
    else none

/-- The pages of its own core that a copy of a group names: physical page numbers (R154). -/
def State.namedPages (s : State) (core : Nat) (g : Group) (pages : List Nat) (o : Op) : List Nat :=
  match o.instr with
  | .acpy fn _ _ _ _ =>
    let pack : Bool := fn == .pack
    ((s.descPages core g pages pack o.desc ++ if fn = .zero then [] else s.descPages core g pages false o.src)).eraseDups
  | _ => []

/-- A queued copy names physical page p (R154). -/
def Core.pageNamed (k : Core) (p : Nat) : Bool := k.cq.any fun e => e.named.contains p

/-- A queued matrix entry names slot q. -/
def Core.slotNamed (k : Core) (q : Nat) : Bool := k.mq.any fun e => namesSlot e.op.instr q

/-- Units whose entries have all been performed become free. -/
def Core.reclaim (k : Core) : Core :=
  { k with recPages := k.recPages.filter k.pageNamed, recSlots := k.recSlots.filter k.slotNamed }

/-- Pages and slots are returned: tokens go to the engine, and named units are reclaimed. -/
def Core.take (k : Core) (pages slots : List Nat) : Core :=
  ({ k with owner := k.owner.filter fun e => !slots.contains (e.1 / 4),
            recPages := k.recPages ++ pages, recSlots := k.recSlots ++ slots }).reclaim

/-- Registers beyond a holding are gone. -/
def Group.cutRegs (g : Group) : Group :=
  { g with
    threads := g.threads.map fun (t, th) => (t, { th with
      vr := th.vr.filter fun e => decide (e.1 < g.vh), vpoison := th.vpoison.filter fun n => decide (n < g.vh)
      vpend := th.vpend.filter fun n => decide (n < g.vh) })
    warps := g.warps.map fun w => { w with
      ur := w.ur.filter fun e => decide (e.1 < g.uh), upoison := w.upoison.filter fun n => decide (n < g.uh)
      failTok := w.failTok.filter fun e => decide (e.1 < g.uh), tokw := w.tokw.filter fun n => decide (n < g.uh)
      upstall := w.upstall.filter fun n => decide (n < g.uh), upend := w.upend.filter fun n => decide (n < g.uh)
      stalls := w.stalls.filter fun e => e.2 != .token }
    melds := g.melds.map fun m => { m with toks := m.toks.map fun t => (t.1, keptReg g.uh t.2) }
    backlog := g.backlog.map fun e => { e with toks := e.toks.map fun t => (t.1, keptReg g.uh t.2) } }

/-- What is on its way to registers that a group no longer holds is dropped (R248). -/
def State.dropRegs (s : State) (core gk : Nat) : State :=
  match s.group? core gk with
  | none => s
  | some g =>
    let cut (e : Entry) : Entry :=
      if e.gk = gk then { e with toks := e.toks.map fun t => (t.1, keptReg g.uh t.2) } else e
    let t : State := { s with
      commits := s.commits.map fun c => if c.gk = gk ∧ c.saved = none then { c with tok := keptReg g.uh c.tok } else c
      tapeOps := s.tapeOps.map fun o => if o.gk = gk then { o with d := keptReg g.uh o.d } else o
      pushes := s.pushes.map fun p => if p.core = core ∧ p.gk = gk ∧ g.vh ≤ p.d then { p with live := false } else p }
    t.modCore core fun k => { k with
        mq := k.mq.map cut, cq := k.cq.map cut
        seqs := k.seqs.map fun q => if q.gk = gk then { q with tok := q.tok.map (keptReg g.uh) } else q }

/-- Slots a release returns: the plane slot, and the highest-numbered accumulator slots. -/
def Group.dropSlots (g : Group) (rel : Hold) : List Nat :=
  (if rel.plane = 0 then [] else [0]) ++ ((g.slots.filter (· != 0)).reverse.take rel.slots)

/-- Return amounts. -/
def State.giveBack (s : State) (core : Nat) (g : Group) (rel : Hold) : State :=
  let s := if rel.pages = 0 then s else s.drainSpills core fun p => p.gk == g.gk
  let pages := g.pages.drop (g.pages.length - rel.pages)
  let slots := g.dropSlots rel
  ((s.modGroup core g.gk fun g =>
    ({ g with vh := g.vh - 8 * rel.vreg, uh := g.uh - 16 * rel.sreg,
              pages := g.pages.take (g.pages.length - rel.pages),
              slots := g.slots.filter fun q => !slots.contains q }).cutRegs).dropRegs core g.gk).modCore core fun k => k.take pages slots

/-! ### BANK (R298, R251-R254) -/

/-- The sync flag of a warp slot. -/
def State.syncOf (s : State) (core gk slot : Nat) : Bool := ((s.group? core gk).bind fun g => g.warp? slot).any (·.sync)

/-- A warp's grant is recorded, with the sync flag as it stood at the request, then the flag is set (R435). -/
def State.granted (s : State) (core : Nat) (g : Group) (slot : Nat) (fence : Bool) (word : Nat) : State :=
  (if (s.recorderOf g.gang).isSome then s.append g.gang g.member fence (.bank false word) else s).sync core g slot

/-- ACQ.B. -/
def execAcqB (a : BitVec 6) (s : State) : Host.Outcome State Fault Refusal :=
  runWord (.acqB a) s fun x =>
    let word := (x.u a.toNat).toNat
    match Hold.ofWord word with
    | none => x.raise Cause.illop
    | some req =>
      match x.s.judge x.core x.g req with
      | 0 => (x.done (x.s.grantTo x.core x.g.gk req) fun _ th => th).granted x.core x.g x.slot
          (x.s.syncOf x.core x.g.gk x.slot) word
      | 3 => x.raise Cause.claim
      | _ =>
        let t := x.s.modCore x.core fun k => { k with reqs :=
          (k.reqs.filter fun r => !(r.gk == x.g.gk && r.wslot == x.slot && r.lanes &&& x.lanes != 0)) ++
            [⟨x.g.gk, x.slot, x.lanes, BitVec.ofNat 32 word, x.s.clk, false, x.s.syncOf x.core x.g.gk x.slot⟩] }
        x.waitAt t x.ls .bank

/-- ACQ.T. -/
def execAcqT (d a : BitVec 6) (s : State) : Host.Outcome State Fault Refusal :=
  runWord (.acqT d a) s fun x =>
    let word := (x.u a.toNat).toNat
    match Hold.ofWord word with
    | none => x.raise Cause.illop
    | some req =>
      let code := x.s.judge x.core x.g req
      let t := x.doneW (if code = 0 then x.s.grantTo x.core x.g.gk req else x.s) fun w =>
        w.setU d.toNat (BitVec.ofNat 32 code)
      if code = 0 then t.granted x.core x.g x.slot (x.s.syncOf x.core x.g.gk x.slot) word else t

/-- Pages of the tile memory of an owned tile: logical pages 0 to this − 1 (R429). -/
def State.tilePages (s : State) (g : Group) : Nat :=
  match s.ownDesc g with
  | some d => DrawD.tmpages d
  | none => 0

/-- Why a release is refused (R254). Where several cases hold, CLAIM comes before PIPEFE and PIPEFE before PROT: the model's
choice (log 99). -/
def Ctx.relCause (x : Ctx) (rel : Hold) : Option Nat :=
  let left := x.g.vh - 8 * rel.vreg
  if !rel.le x.g.holds then some Cause.claim
  else if rel.vreg != 0 && ((x.s.core x.core).pipesOf x.g.gang).any fun q => !q.maps.isEmpty &&
      ((q.src == x.g.member && decide (left < q.fstart + q.count)) ||
       (q.dst == x.g.member && decide (left < q.tstart + q.count))) then some Cause.pipefe
  else if rel.pages ≠ 0 ∧ x.g.pages.length - rel.pages < x.s.tilePages x.g then some Cause.prot
  else if rel.vreg ≠ 0 ∧ (x.g.tile.any fun o => !o.closed) = true ∧ left = 0 then some Cause.prot
  else none

/-- REL. -/
def execRel (a : BitVec 6) (s : State) : Host.Outcome State Fault Refusal :=
  runWord (.rel a) s fun x =>
    let word := (x.u a.toNat).toNat
    match Hold.ofWord word with
    | none => x.raise Cause.illop
    | some rel =>
      match x.relCause rel with
      | some c => x.raise c
      | none => (x.done (x.s.giveBack x.core x.g rel) fun _ th => th).recordOf x.core x.g x.slot (.bank true word)

/-- QRY. -/
def execQry (d : BitVec 6) (s : State) : Host.Outcome State Fault Refusal :=
  runWord (.qry d) s fun x => x.doneW x.s fun w =>
    (w.setU d.toNat (BitVec.ofNat 32 x.g.holds.toNat)).setU (d.toNat + 1) (BitVec.ofNat 32 x.g.claim.toNat)

/-- The oldest waiting request becomes the head once it has waited 4096 clocks (R253). -/
def execHead (core : Nat) (s : State) : Host.Outcome State Fault Refusal :=
  let k := s.core core
  match k.headReq, k.waiting with
  | none, r :: _ =>
    if r.since + 4096 ≤ s.clk then
      .next (s.modCore core fun k => { k with reqs := k.reqs.map fun q => if q = r then { q with isHead := true } else q })
    else .next s
  | _, _ => .next s

/-- The acquire that a replay waits for is granted: its command has been performed (R371). -/
def State.replayGranted (s : State) (g : Group) : State :=
  if g.replay then
    { s with replays := s.replays.map fun r =>
        if r.gang = g.gang ∧ r.asked = true then { r with asked := false, e := r.e + 1, waitOn := none } else r }
  else s

/-- Grant one waiting request if it is grantable: its lanes go on. -/
def State.tryGrant (s : State) (core : Nat) (r : Req) : State :=
  match (s.group? core r.gk), Hold.ofWord r.word.toNat with
  | some g, some req =>
    if (s.core core).waits r && s.judge core g req == 0 then
      let s := (s.grantTo core r.gk req).modCore core fun k => { k with reqs := k.reqs.filter (· != r) }
      ((s.modGroup core r.gk fun g => g.resume r.wslot r.lanes fun k => k == Wait.bank).granted core g r.wslot
        r.fence r.word.toNat).replayGranted g
    else s
  | _, _ => s

/-- The Banker reconsiders every waiting request, oldest first (R252, R260). -/
def execGrant (core : Nat) (s : State) : Host.Outcome State Fault Refusal :=
  let s := s.modCore core fun k => { k with reqs := k.waiting }
  .next ((s.core core).reqs.foldl (fun (s : State) r => s.tryGrant core r) s)

/-! ### HANDOFF (R256, R273, R294) -/

/-- The successor that S(b) names. -/
def Ctx.successor (x : Ctx) (w : Word) : Option Group :=
  ((x.s.core x.core).groups.find? fun g => g.gk != x.g.gk &&
    (if bitAt w 31 then g.gang == x.g.gang && g.member == fld w 1 0
     else x.g.task.isSome && g.task == x.g.task && g.member == x.g.member && g.gid.toNat == fld w 30 0))

/-- Pass the k highest pages of the issuing group to a successor. -/
def Ctx.passPages (x : Ctx) (s : State) (k : Nat) (h : Group) : State :=
  let s := s.drainSpills x.core fun p => p.gk == x.g.gk
  let keep := x.g.pages.length - k
  (x.modG s fun g => { g with pages := g.pages.take keep,
                              claim := { g.claim with pages := g.claim.pages - k } }).modGroup x.core h.gk
    fun h => { h with pages := h.pages ++ x.g.pages.drop keep }

/-- HANDOFF; one that is performed abandons a recording (R367). -/
def execHandoff (a b : BitVec 6) (s : State) : Host.Outcome State Fault Refusal :=
  runWord (.handoff a b) s fun x =>
    let s := x.s.abandon x.g.gang 2
    let k := (x.u a.toNat).toNat
    let w := x.u b.toNat
    let bad (c : Nat) : State := x.raise c
    if k = 0 then x.done s fun _ th => th
    else if bitAt w 31 = true ∧ fld w 30 2 ≠ 0 then bad Cause.illop
    else match x.successor w with
      | none => bad Cause.prot
      | some h =>
        if x.g.pages.length - k < x.s.tilePages x.g then bad Cause.prot
        else if x.g.pages.length < k then bad Cause.claim
        else if h.claim.pages < h.pages.length + k then bad Cause.claim
        else x.done (x.passPages s k h) fun _ th => th

/-! ### Admission and departure (R255, R257, R258) -/

/-- WIDs in use on a core. -/
def Core.wids (k : Core) : List Nat := k.groups.flatMap fun g => g.warps.map (·.wid)

/-- Pairs of WIDs on different schedulers: from the two schedulers with the most that are free. -/
def pairWids : (pairs : Nat) → (free : List Nat) → Option (List Nat)
  | 0, _ => some []
  | n + 1, free =>
    let of_ (q : Nat) : List Nat := free.filter fun w => w % 4 == q
    match sortBy (fun q => 64 - (of_ q).length) [0, 1, 2, 3] with
    | a :: b :: _ => match of_ a, of_ b with
      | x :: _, y :: _ => (pairWids n (free.filter fun w => w != x && w != y)).map fun r => x :: y :: r
      | _, _ => none
    | _ => none

/-- WIDs for the warp slots of a group: the lowest free ones (log 32); none when they run out. -/
def newWids (free : List Nat) (r : BitVec 1024) : Option (List Nat) :=
  if Rec.width r = 2 then pairWids (Rec.warps r / 2) free
  else if free.length < Rec.warps r then none else some (free.take (Rec.warps r))

/-- WIDs for groups by record, one after the other, and those that stay free. -/
def takeWids : (free : List Nat) → List (BitVec 1024) → Option (List (List Nat) × List Nat)
  | free, [] => some ([], free)
  | free, r :: rs =>
    (newWids free r).bind fun l => (takeWids (free.filter fun w => !l.contains w) rs).map fun t => (l :: t.1, t.2)

/-- The WIDs of the groups of width 64 and those of the others, in the order of the records. -/
def mergeWids : List (BitVec 1024) → (wide narrow : List (List Nat)) → List (List Nat)
  | [], _, _ => []
  | r :: rs, wide, narrow =>
    if Rec.width r = 2 then wide.headD [] :: mergeWids rs wide.tail narrow else narrow.headD [] :: mergeWids rs wide narrow.tail

/-- WIDs for the groups of a gang, by record: the groups of width 64, which need pairs on two schedulers, take theirs
first, so that WIDs are found whenever there are enough (R257). -/
def gangWids (free : List Nat) (rs : List (BitVec 1024)) : Option (List (List Nat)) :=
  (takeWids free (rs.filter fun r => Rec.width r == 2)).bind fun a =>
    (takeWids a.2 (rs.filter fun r => Rec.width r != 2)).map fun b => mergeWids rs a.1 b.1

/-- WIDs not in use on a core. -/
def Core.freeWids (k : Core) : List Nat := (List.range 64).filter fun w => !k.wids.contains w

/-- What a member of an admission asks of a core. -/
structure Ask where
  record : BitVec 1024
  claim : Hold
  start : Hold

/-- A gang can be admitted to a core (R257). Granules of ended members that an image keeps count as held and claimed
(R434). -/
def State.canAdmit (s : State) (core : Nat) (ms : List Ask) (kept : Nat := 0) : Bool :=
  let k := s.core core
  let sum (f : Ask → Hold) : Hold :=
    ms.foldl (fun h m => h.add ((f m).cost (Rec.warps m.record))) ⟨kept, 0, 0, 0, 0⟩
  (gangWids k.freeWids (ms.map (·.record))).isSome && (sum (·.claim)).le (coreTotals (s.lsPages core)) &&
    (sum (·.start)).le (s.availNow core) && k.headReq.isNone &&
    bankSafe ((sum (·.start), sum (·.claim)) :: k.parties.map Prod.snd) ((s.avail core).sub (sum (·.start)))

/-- A group leaves its core: what it holds returns, its bins, requests and spills go (R255, R258). A group
that ended keeps its granules counted while a pipe partner is resident (R434). -/
def State.leave (s : State) (core gk : Nat) (ended : Bool) : State :=
  match s.group? core gk with
  | none => s
  | some g =>
    let s := s.drainSpills core fun p => p.gk == gk
    s.modCore core fun k =>
      let rest := k.groups.filter fun h => h.gk != gk
      let mates := rest.filter fun h => h.gang == g.gang
      let tied := ended && mates.any fun h => (k.pipesOf g.gang).any fun q => q.ends g.member && q.ends h.member
      let linger := if tied then k.linger ++ [(g.gang, g.member, g.vh / 8 * g.warps.length)] else k.linger
      let linger := linger.filter fun (n, m, _) => n != g.gang || mates.any fun h =>
        (k.pipesOf g.gang).any fun q => q.ends m && q.ends h.member && h.member != m
      ({ k with groups := rest, bins := k.bins.filter fun b => b.gk != gk, reqs := k.reqs.filter fun r => r.gk != gk
                linger := linger, owner := k.owner.filter fun e => e.2 != gk
                pipes := if mates.isEmpty then k.pipes.filter fun q => q.gang != g.gang else k.pipes }).take g.pages g.slots

end Sys2Proof.Machine
end

