-- ==== Sys2Proof/Machine/Engine.lean ====
section
/-! DEFINITION. The queues of a core's engines: the checks made at issue, entry, recording of entries,
completion, tokens and failures, stops on translation faults, and the checks of tiles at the engine in the
order of R443 (spec/05 R122, R125-R136, R141; spec/07 R171-R176; spec/08 R205-R209; spec/15 R363). -/

namespace Sys2Proof.Machine

/-! ### Which operation -/

/-- Copy queue of an engine operation, or none for the matrix queue. -/
def copyQueue (i : Instr) : Option Nat :=
  match i with
  | .acpy _ q _ _ _ => some q.toNat
  | _ => none

/-- Tile registers an engine operation names: first the destination of a copy, or the tile; then the
source. -/
def tileRegs (i : Instr) : Option Nat × Option Nat :=
  match i with
  | .ldw t _ _ | .mstr _ t _ _ _ _ | .accRd _ t _ _ | .accWr _ t _ _ => (some t.toNat, none)
  | .acpy fn _ d a _ => (some d.toNat, if fn = .zero then none else some a.toNat)
  | _ => (none, none)

/-- An operation with the descriptors a warp's registers hold (R126). -/
def Warp.opOf (w : Warp) (i : Instr) : Op :=
  ⟨i, ((tileRegs i).1.map w.t).getD 0, ((tileRegs i).2.map w.t).getD 0⟩

/-- The word with its token and tile fields blank, for the comparison of R128. -/
def blank (i : Instr) : Instr :=
  match i with
  | .ldw _ _ mk => .ldw 0 none mk
  | .ldwSwap _ mk => .ldwSwap none mk
  | .mstr c _ cg init _ mk => .mstr c 0 cg init none mk
  | .accZ c _ mk => .accZ c none mk
  | .accRd c _ _ mk => .accRd c 0 none mk
  | .accWr c _ _ mk => .accWr c 0 none mk
  | j => j

/-- Token an operation names. -/
def opTok (i : Instr) : Option Nat := (opndsOf i).tok

/-! ### Checks made at issue (R122, R125, R141, R207) -/

/-- The group or a gang member holds matrix slot q (R124). -/
def Core.useSlot (k : Core) (g : Group) (q : Nat) : Bool := (k.gangGroups g.gang).any fun h => h.slots.contains q

/-- Ownership (R125); the Talon holds the tokens of a replaying gang's slots (R369). -/
def Core.owns (k : Core) (g : Group) (i : Instr) : Bool :=
  let tok (c : BitVec 4) : Bool :=
    if g.replay then k.useSlot g (c.toNat / 4) else sfind k.owner c.toNat == some g.gk
  match i with
  | .ldw _ _ _ | .ldwSwap _ _ => k.useSlot g 0
  | .mstr c _ _ _ _ _ => k.useSlot g 0 && tok c
  | .accZ c _ _ | .accRd c _ _ _ | .accWr c _ _ _ => tok c
  | _ => true

/-- Every element of a tile lies in the core's own window below LSCAP (R141). Where the elements of a LAYOUT 2 tile lie
is known only once its descriptor passes R136, which the engine checks. -/
def State.inWindow (s : State) (core : Nat) (g : Group) (d : Desc) : Bool :=
  let e := elemBits (Dsc.fmtsel d)
  let last := if Dsc.layout d = 2 then
      match s.planeCheck g d with
      | .ok (o, ch, pf) => if pf = 0 then planePos d ch pf 63 (Dsc.cols d) + 1
          else max (planePos d ch pf 63 (Dsc.cols d)) (planeScale d o 63)
      | .bad _ | .wait => Dsc.base d
    else Dsc.base d + Dsc.rows d * Dsc.stride d + ((Dsc.cols d + 1) * e + 7) / 8 - 1
  decide (lsWindow ≤ Dsc.base d) && decide (last < lsWindow + s.lsPages core * 4096)

/-- The tile of ACC.RD and ACC.WR (R141): ILLOP checks, then PROT checks. -/
def State.accTile (s : State) (core : Nat) (g : Group) (d : Desc) : Option Nat :=
  if Dsc.layout d = 1 ∨ 63 < Dsc.rows d ∨ (if Dsc.fmtsel d = 1 then 31 else 63) < Dsc.cols d then some Cause.illop
  else if (Dsc.layout d = 0 ∧ Dsc.fmtsel d = 0) ∨ s.inWindow core g d = false then some Cause.prot
  else none

/-- The copy of R207. -/
def copyCheck (fn : CopyFn) (dst src : Desc) : Option Nat :=
  let size (d : Desc) : Nat := elemBits (Dsc.fmtsel d) / 8
  let shape : Bool := fn == .zero || (Dsc.rows dst == Dsc.rows src && Dsc.cols dst == Dsc.cols src)
  let raw : Bool := match fn with
    | .raw => decide (Dsc.fmtsel dst ≤ 6) && decide (Dsc.fmtsel src ≤ 6) && size dst == size src
    | .zero => decide (Dsc.fmtsel dst ≤ 6)
    | .pack => Dsc.layout dst == 0
    | .cvt | .cvtSat => true
  if shape && raw then none else some Cause.illop

/-- The cause an operation raises at issue: its own ILLOP and PROT checks, then ownership. -/
def State.opCheck (s : State) (core : Nat) (g : Group) (o : Op) : Option Nat :=
  let own : Option Nat := if (s.core core).owns g o.instr then none else some Cause.accown
  match o.instr with
  | .ldw _ _ _ =>
      if 7 ≤ Dsc.fmtsel o.desc ∧ Dsc.layout o.desc ≠ 1 then some Cause.illop else own
  | .mstr _ _ _ _ _ _ =>
      if Dsc.layout o.desc = 1 ∨ 63 < Dsc.rows o.desc then some Cause.illop else own
  | .accRd _ _ _ _ | .accWr _ _ _ _ => (s.accTile core g o.desc).orElse fun _ => own
  | .acpy fn _ _ _ _ => copyCheck fn o.desc o.src
  | _ => own

/-! ### Entry (R126, R171, R172, R363) -/

/-- The queue an operation would enter is full. -/
def Core.full (k : Core) (i : Instr) : Bool :=
  match copyQueue i with
  | none => decide (mqDepth ≤ k.mq.length)
  | some q => decide (cqDepth ≤ (k.cq.filter fun e => e.q == q).length)

/-- What a path waits for whose operation would enter a full queue (R172). -/
def roomFor (i : Instr) : Stall :=
  match copyQueue i with
  | none => .matrix
  | some q => .copy q

/-- DESC entries of a command, destination first (R363). -/
def Op.descs (o : Op) : List Desc :=
  (if (tileRegs o.instr).1.isSome then [o.desc] else []) ++ (if (tileRegs o.instr).2.isSome then [o.src] else [])

/-- The command an entry is recorded as. -/
def Op.cmd (o : Op) : Cmd :=
  .eng ((encode o.instr).getD 0) o.descs (match copyQueue o.instr with | none => 0 | some q => q + 1)

/-- The sequencer of a kind of a group's fork. -/
def Seq.isAt (q : Seq) (gk fork : Nat) (copy : Bool) : Bool := q.gk == gk && q.fork == fork && q.copy == copy

/-- Record an entry: FENCE from the sync flags of the warps behind it, or from the fork; the flags that set it are
cleared (R365). -/
def State.recordEntry (s : State) (core : Nat) (g : Group) (e : Entry) : State :=
  if (s.recorderOf g.gang).isNone then s
  else match e.origin with
    | .lanes l =>
      let fence := l.any fun (i, _) => ((s.group? core g.gk).bind fun h => h.warp? i).any (·.sync)
      l.foldl (fun (s : State) p => s.modWarp core g.gk p.1 fun w => { w with sync := false })
        (s.append g.gang g.member fence e.op.cmd)
    | .seq fork copy =>
      match (s.core core).seqs.find? fun q => q.isAt g.gk fork copy with
      | none => s.append g.gang g.member false e.op.cmd
      | some q =>
        let s := if q.fence then s.modWarp core g.gk q.wslot fun w => { w with sync := false } else s
        s.append g.gang g.member (q.fence || q.met) e.op.cmd
    | .replay _ _ => s

/-- An entry enters its queue. -/
def State.enter (s : State) (core : Nat) (g : Group) (e : Entry) : State :=
  let e := { e with eid := s.fresh, named := s.namedPages core g e.pages e.op }
  ((s.recordEntry core g e).modCore core fun k =>
    match copyQueue e.op.instr with
    | none => { k with mq := k.mq ++ [e] }
    | some _ => { k with cq := k.cq ++ [e] }).bump

/-- An entry of a group before it enters. -/
def Group.entryOf (g : Group) (o : Op) (toks : List Tok) (origin : Origin) (melded : Bool) (threads : List Nat) : Entry :=
  { eid := 0, gk := g.gk, op := o, toks := toks, origin := origin, melded := melded, threads := threads,
    pages := g.pages, named := [], q := (copyQueue o.instr).getD 0, probed := none, done := 0, stopped := none }

/-! ### Completion (R131, R132, R254, R300, R371) -/

/-- A replay stops with a cause at a command (R373). -/
def State.replayFault (s : State) (r idx cause : Nat) : State :=
  match s.replays.find? fun p => p.key == r with
  | none => s
  | some p => s.escape p.core p.gang 0 6 (Cause.bit cause) (BitVec.ofNat 52 idx)

/-- Change a replay. -/
def State.modReplay (s : State) (r : Nat) (f : Replay → Replay) : State :=
  { s with replays := s.replays.map fun p => if p.key = r then f p else p }

/-- Two sequencers run the same fork. -/
def Seq.forks (a b : Seq) : Bool := a.gk == b.gk && a.fork == b.fork

/-- Who an entry answers to learns that it ended. -/
def State.answer (s : State) (core : Nat) (e : Entry) (fail : Option Nat) : State :=
  match e.origin with
  | .lanes l =>
    match fail with
    | none => s
    | some c =>
      if e.toks.isEmpty then
        l.foldl (fun (s : State) p => s.modWarp core e.gk p.1 fun w =>
          { w with failLanes := w.failLanes ++ [(p.2, c)] }) s
      else s
  | .seq fork copy =>
    match fail with
    | none => s
    | some c => s.modCore core fun k =>
      { k with
        seqs := k.seqs.map fun q =>
          if q.isAt e.gk fork copy && !(k.seqs.any fun r => q.forks r && r.failed.isSome) then
            { q with failed := some c } else q }
  | .replay r i =>
    let s := s.modReplay r fun p => { p with open_ := p.open_ - 1 }
    match fail with
    | none => s
    | some c => s.replayFault r i c

/-- An entry has ended: its tokens are written, and who waits for it learns of it. -/
def State.ended (s : State) (core : Nat) (e : Entry) (fail : Option Nat) : State :=
  let code := match fail with | none => tokDone | some c => tokFail c
  (e.toks.foldl (fun (s : State) t => s.writeTok core e.gk t code) s).answer core e fail

/-- Change meld k of a group. -/
def Group.modMeld (g : Group) (k : Nat) (f : Meld → Meld) : Group := { g with melds := modAt g.melds k f }

/-- A meld whose last signature has arrived. -/
def Meld.complete (m : Meld) : Bool := m.opened && m.op.isSome && m.signed.length == m.expect

/-- A complete meld enters the queue if it has room, or fails with ACCOWN through its tokens; it is IDLE
then. -/
def State.meldEnter (s : State) (core gk k : Nat) : State :=
  match (s.group? core gk).bind fun g => (g.melds[k]?).bind fun m => m.op.map fun o => (g, m, o) with
  | none => s
  | some (g, m, o) =>
    if !m.complete || (s.core core).full o.instr then s
    else
      let e := g.entryOf o m.toks (.lanes m.lanes) true (m.signed.filter (· != noThread))
      let t := s.modGroup core gk fun g => g.modMeld k fun _ => Meld.idle
      if (s.core core).owns g o.instr then t.enter core g e else t.ended core e (some Cause.accown)

/-- Planes of a gang are still to be reloaded: its queue entries wait behind the reload (R133, R135). -/
def Core.reloading (k : Core) (gang : Nat) : Bool := (k.gangGroups gang).any fun g => !g.planeLoads.isEmpty

/-- A restored gang has still planes to reload or saved entries to enter: nothing else of it issues (R135). -/
def Core.entering (k : Core) (gang : Nat) : Bool :=
  k.reloading gang || (k.gangGroups gang).any fun g => !g.backlog.isEmpty

/-- The complete melds of a core that wait for room. -/
def Core.meldsWaiting (k : Core) : List (Nat × Nat) :=
  k.groups.flatMap fun g =>
    if g.stop.isSome || k.entering g.gang then []
    else (g.melds.zipIdx).filterMap fun (m, n) => if m.complete then some (g.gk, n) else none

/-- The saved entries of a group enter, each queue's in its order while there is room in it; the others are kept. -/
def State.enterEach (s : State) (core gk : Nat) : (kept todo : List Entry) → State
  | kept, [] => s.modGroup core gk fun g => { g with backlog := kept }
  | kept, e :: r =>
    match s.group? core gk with
    | none => s
    | some g =>
      if (s.core core).full e.op.instr then s.enterEach core gk (kept ++ [e]) r
      else (s.enter core g e).enterEach core gk kept r

/-- The saved entries of the groups of a core enter as far as there is room, once every plane of their gang is
reloaded (R135). -/
def State.enterSaved (s : State) (core : Nat) : State :=
  (s.core core).groups.foldl (fun (s : State) g =>
    if g.backlog.isEmpty || g.stop.isSome || (s.core core).reloading g.gang then s
    else s.enterEach core g.gk [] g.backlog) s

/-- Room may have appeared in the matrix queue: the complete melds that wait enter while there is some, in a free
order (R172, log 1). -/
def State.meldsEnter (s : State) (core : Nat) : State :=
  let l := (s.core core).meldsWaiting
  let n := s.choose 2 l.length
  (l.drop n ++ l.take n).foldl (fun (s : State) p => s.meldEnter core p.1 p.2) s

/-- Places of queues have become free: the complete melds that wait take them, then the saved entries that do, in the
same cycle. That a waiting meld of another gang comes before a saved entry is the model's choice (R135, R172, log 96). -/
def State.fillQueues (s : State) (core : Nat) : State := (s.meldsEnter core).enterSaved core

/-- An entry leaves its queue: what waits for its place or for units it named goes on. -/
def State.leaveQueue (s : State) (core : Nat) (e : Entry) (fail : Option Nat) : State :=
  let s := s.modCore core fun k =>
    ({ k with mq := k.mq.filter fun f => f.eid != e.eid, cq := k.cq.filter fun f => f.eid != e.eid }).reclaim
  (s.ended core e fail).fillQueues core

/-- A saved operation of a replay, whose command lies before those that the image held (R374). -/
def State.entryOnly (s : State) (e : Entry) : Bool :=
  match e.origin with
  | .replay r i => s.replays.any fun p => p.key == r && decide (i < p.first)
  | .lanes _ | .seq _ _ => false

/-- An entry leaves its queue performed or failed: units named only by it become free, and a meld that waits for its
place enters in the same cycle (R172). A saved entry of a replay that fails stays, to be saved and performed again
(R374, R377). -/
def State.complete (s : State) (core : Nat) (e : Entry) (fail : Option Nat) : State :=
  match e.origin, fail with
  | .replay r i, some c => if s.entryOnly e then s.replayFault r i c else s.leaveQueue core e fail
  | _, _ => s.leaveQueue core e fail

/-- Change an entry in its queue. -/
def State.modEntry (s : State) (core : Nat) (eid : Nat) (f : Entry → Entry) : State :=
  let g (e : Entry) : Entry := if e.eid = eid then f e else e
  s.modCore core fun k => { k with mq := k.mq.map g, cq := k.cq.map g }

/-- The KIND 4 record of an engine that stops on a translation fault (R133, R342). -/
def State.faultRecord (s : State) (core ctx va : Nat) : State :=
  s.emit (.trap (trapRecord 4 0 ctx noSlot (Cause.bit Cause.page) va core))

/-- An entry stops on a translation fault: one record for each fault. -/
def State.stopEntry (s : State) (core : Nat) (g : Group) (e : Entry) (va : Nat) : State :=
  let s := s.modEntry core e.eid fun e => { e with stopped := some va }
  if e.stopped = some va then s else s.faultRecord core g.ctx va

/-! ### Checks at the engine (R443) -/

/-- What a check or an operation at an engine comes to: a value, a failing cause, a translation fault at an
address, or a page being moved. -/
inductive EngRes (α : Type) where
  | ok (a : α)
  | bad (cause : Nat)
  | page (va : Nat)
  | wait

/-- Continue after a success. -/
def EngRes.andThen {α β : Type} (x : EngRes α) (f : α → EngRes β) : EngRes β :=
  match x with
  | .ok a => f a
  | .bad c => .bad c
  | .page va => .page va
  | .wait => .wait

/-- A result at an address: PAGE stops the engine. -/
def Res.eng {α : Type} (va : Nat) (x : Res α) : EngRes α :=
  match x with
  | .ok a => .ok a
  | .bad c => if c = Cause.page then .page va else .bad c
  | .wait => .wait

/-- Fail unless a check holds. -/
def engCheck (b : Bool) (cause : Nat) : EngRes Unit := if b then .ok () else .bad cause

/-- Order 2: the plane of a LAYOUT 2 descriptor. -/
def State.tilePlane (s : State) (g : Group) (d : Desc) : EngRes (Option (Nat × Nat × Nat)) :=
  if Dsc.layout d = 2 then
    match s.planeCheck g d with
    | .ok p => .ok (some p)
    | .bad c => .bad c
    | .wait => .wait
  else .ok none

/-- Order 3: the page attribute of element (0, 0) of a tile whose format comes from the page. -/
def State.tileAttr (s : State) (sp : Space) (kind : AKind) (d : Desc) : EngRes Nat :=
  if Dsc.layout d = 2 ∨ Dsc.fmtsel d ≠ 0 then .ok 0
  else ((s.translate sp kind (Dsc.base d)).andThen fun x => .ok x.fmt).eng (Dsc.base d)

/-- Order 4: the effective format, given what order 3 found. An address of a named tile that does not
translate is met at order 8. -/
def State.tileFormat (s : State) (sp : Space) (kind : AKind) (d : Desc) (attr : Nat) : EngRes Nat :=
  let f := Dsc.fmtsel d
  if Dsc.layout d = 2 then .ok f
  else if f = 0 then (if attr = 0 then .bad Cause.prot else .ok attr)
  else match s.translate sp kind (Dsc.base d) with
    | .ok x => if x.fmt ≠ 0 ∧ x.fmt ≠ f then .bad Cause.prot else .ok f
    | .bad _ | .wait => .ok f

/-- Orders 2 to 4 for an operation with one tile. -/
def State.tilePrep (s : State) (sp : Space) (g : Group) (kind : AKind) (d : Desc) : EngRes TileOp :=
  (s.tilePlane g d).andThen fun p =>
    (s.tileAttr sp kind d).andThen fun a =>
      (s.tileFormat sp kind d a).andThen fun f => .ok ⟨d, p, f⟩

/-- Address and half byte of element (r, c) of a prepared tile. -/
def TileOp.pos (t : TileOp) (r c : Nat) : Nat × Nat :=
  match t.plane with
  | some (_, ch, pf) => (planePos t.d ch pf r c, 0)
  | none => tilePos t.d (elemBits t.code) r c

/-- Addresses of the parts of element (r, c), in the order they are checked. -/
def State.cellAddrs (s : State) (sp : Space) (t : TileOp) (r c : Nat) : List Nat :=
  let (va, nib) := t.pos r c
  match t.plane with
  | some (o, _, pf) => if pf = 0 then [va] else [va, planeScale t.d o r]
  | none =>
    if t.code ≤ 6 then [va]
    else match s.unitAt sp t.code va with
      | .ok u =>
        match unitIndex t.code u (va % u) nib with
        | some i => va :: (unitParts t.code u i).map fun (o, _) => va - va % u + o
        | none => [va]
      | .bad _ | .wait => [va]

/-- The first address of the cells whose translation faults. -/
def State.faultAddr (s : State) (sp : Space) (kind : AKind) (t : TileOp) (cells : List (Nat × Nat)) : Nat :=
  ((cells.flatMap fun (r, c) => s.cellAddrs sp t r c).find? fun va =>
    match s.translate sp kind va with
    | .bad c => c == Cause.page
    | .ok _ | .wait => false).getD (Dsc.base t.d)

/-- Order 7: every element of an MXFP8 or NQ4 tile lies in the element data of its unit, whatever is permitted there;
an element whose unit its mapping does not give is met at order 8. -/
def State.inData (s : State) (sp : Space) (t : TileOp) : Bool :=
  t.code ≤ 6 || t.plane.isSome || (tileCells t.d).all fun (r, c) =>
    let (va, nib) := t.pos r c
    match s.unitAt sp t.code va with
    | .ok u => (unitIndex t.code u (va % u) nib).isSome
    | .bad _ | .wait => true

/-- Order 7 of weights and activations (R122): a block-aligned first element, STRIDE a multiple of 32. -/
def State.blocksOk (s : State) (sp : Space) (t : TileOp) : Bool :=
  t.code ≤ 6 || t.plane.isSome ||
    (Dsc.base t.d % 32 == 0 && Dsc.stride t.d % 32 == 0 && s.inData sp t)

/-- Order 8 for a tile that is read. -/
def State.tileLoad (s : State) (sp : Space) (die : Nat) (t : TileOp) : EngRes (List Raw) :=
  match readCells (s.tileRead sp die t) (tileCells t.d) with
  | .ok l => .ok l
  | .wait => .wait
  | .bad c => if c = Cause.page then .page (s.faultAddr sp .load t (tileCells t.d)) else .bad c

/-! ### Writes of an engine (R383, R442) -/

/-- Poisoned units that a set of bytes written by a die covers only in part. -/
def State.coverBad (s : State) (die : Nat) (keys : List Nat) : List Nat :=
  if s.noPoison then []
  else ((keys.map fun k => k / 8).eraseDups).filter fun u => s.unitBad die u && !((upto (8 * u) 8).all keys.contains)

/-- Bytes at rising keys gathered into runs. -/
def byteRuns : List (Xlat × Byte) → List (Xlat × List Byte)
  | [] => []
  | (x, b) :: r =>
    match byteRuns r with
    | (y, bs) :: t => if y.key = x.key + 1 then (x, b :: bs) :: t else (x, [b]) :: (y, bs) :: t
    | [] => [(x, [b])]

/-- Write bytes as one write: the poison of every unit they cover together is gone, at home and in the die's copies. -/
def State.writeCells (s : State) (die : Nat) (cells : List (Xlat × Byte)) : State :=
  let keys := (cells.map fun e => e.1.key).filter fun k => !isEdge k
  let t := ((byteRuns cells).foldl (fun (t : State) e => t.writeAt die e.1 e.2) s).copyClearKeys die
    ((cells.map fun e => e.1.key).filter isEdge)
  if s.poison.isEmpty then t
  else { t with poison := t.poison.filter fun u => !((upto (8 * u) 8).all keys.contains) }

/-- Cut a list into rows of n. -/
def rowsOf {α : Type} (n : Nat) (rows : Nat) (l : List α) : List (List α) :=
  (List.range rows).map fun r => (l.drop (r * n)).take n

end Sys2Proof.Machine
end

