-- ==== Sys2Proof/Machine/Matrix.lean ====
section
/-! DEFINITION. The matrix engine: passes, planes, accumulators, melds and the majors MELD, LDW, MSTR, ACC
and TILE (spec/05 R113-R142, R443). -/

namespace Sys2Proof.Machine

/-! ### Modes (R113, R115) -/

/-- Greatest Kw of the mode of a weight format. -/
def maxKw (f : Nat) : Nat := [0, 16, 32, 64, 64, 256, 256, 256, 512].getD f 0
/-- Greatest Nw. -/
def maxNw (f : Nat) : Nat := [0, 16, 32].getD f 64
/-- Rows of a weight tile come in multiples of this. -/
def kwUnit (f : Nat) : Nat := if f = 7 then 32 else if f = 8 then 64 else 1

/-- An activation format is allowed with a weight format. -/
def actOk (f act : Nat) : Bool :=
  match f with
  | 5 | 6 => act == 5 || act == 6
  | 8 => act == 3 || act == 4
  | _ => act == f

/-- First column of a pass, in elements. -/
def passCol (f : Nat) (cg : Bool) : Nat := if cg then (if f = 1 then 16 else 32) else 0

/-! ### One value of a pass (R116-R119) -/

/-- A product as a term: an invalid one is NaN. -/
def term (a b : FVal) : FVal :=
  let p := FVal.mul a b
  if p.2 then .nan else p.1

/-- The products of a row and a column. -/
def products (f act : Nat) (xs ws : List Raw) : List FVal :=
  (xs.zip ws).map fun (x, w) => term (rawVal act x) (if f = 8 then nq4LevelVal w.1 else rawVal f w)

/-- The 16-bit, 8-bit and MX modes: one rounding of the exact sum. -/
def passExact (f act c : Nat) (xs ws : List Raw) : Nat :=
  (finish .f32 .rn (sumVals (Fmt.f32.decode c :: products f act xs ws) .rn)).1

/-- The NQ4 mode: a rounding for each block's contribution and for each addition. -/
def passNq4 (act : Nat) : (blocks : List (List (Raw × Raw))) → (acc : Nat) → Nat
  | [], acc => acc
  | b :: r, acc =>
    let t := (sumVals (products 8 act (b.map Prod.fst) (b.map Prod.snd)) .rn).1
    let w := ((b.map Prod.snd).headD (0, 0, 0)).2
    let contrib := Fmt.f32.rne (term (term t ((FVal.ofInt w.1).scale (-8))) (Fmt.f32.decode w.2))
    passNq4 act r (fpAdd .f32 .rn acc contrib).1

/-- The FP32 and FP64 modes: a fused chain. -/
def passChain (f : Fmt) (c : Nat) (xs ws : List Raw) : Nat :=
  (xs.zip ws).foldl (fun (acc : Nat) p => (fpFma f .rn p.1.1 p.2.1 acc).1) c

/-- The new accumulator value from the incoming one, an activation row and a weight column. -/
def passValue (f act c : Nat) (xs ws : List Raw) : Nat :=
  if f = 1 then passChain .f64 c xs ws
  else if f = 2 then passChain .f32 c xs ws
  else if f = 8 then passNq4 act (rowsOf 64 ((xs.length + 63) / 64) (xs.zip ws)) c
  else passExact f act c xs ws

/-! ### Accumulators (R115) -/

/-- Key of position (i, j) of accumulator a. -/
def accKey (a i j : Nat) : Nat := 4096 * a + 64 * i + j

/-- The positions of element (i, j) of an accumulator of FP64 or FP32 elements. -/
def accPos (f64 : Bool) (a i j : Nat) : List Nat :=
  if f64 then [accKey a i (2 * j), accKey a i (2 * j + 1)] else [accKey a i j]

/-- The value at positions, low half first. -/
def Core.accGet (k : Core) (ps : List Nat) : Nat :=
  ps.foldr (fun (p : Nat) (v : Nat) => (sget k.acc p 0).toNat + 2 ^ 32 * v) 0

/-- Write a value to positions; poison there is gone. -/
def Core.accPut (k : Core) (ps : List Nat) (v : Nat) : Core :=
  let ws := ps.zipIdx.map fun (p, n) => (p, BitVec.ofNat 32 (v / 2 ^ (32 * n)))
  { k with acc := ws.foldl (fun (l : Sparse Word) e => sset l e.1 e.2 0) k.acc
           apoison := k.apoison.filter fun n => !ps.contains n }

/-! ### The operations at the engine (R138-R141, R443) -/

/-- The lines of edge-ordered memory that a tile's elements lie in are left in the die's L2 (R181). -/
def State.tileTouch (s : State) (sp : Space) (die : Nat) (t : TileOp) : State :=
  (tileCells t.d).foldl (fun (s : State) p =>
    s.touchParts die ((s.cellAddrs sp t p.1 p.2).filterMap fun va =>
      match s.translate sp .load va with
      | .ok x => some (x, 1)
      | .bad _ | .wait => none)) s

/-- Read a weight tile: orders 2 to 8 of R443. -/
def State.loadPlane (s : State) (core : Nat) (g : Group) (d : Desc) : EngRes Plane :=
  let sp := g.space core g.sup
  (s.tilePrep sp g .load d).andThen fun t =>
    let f := t.code
    let kw := Dsc.rows d + 1
    let nw := Dsc.cols d + 1
    (engCheck (decide (kw ≤ maxKw f) && decide (nw ≤ maxNw f) &&
        (decide (f ≤ 6) || Dsc.layout d == 1) && kw % kwUnit f == 0) Cause.illop).andThen fun _ =>
      (engCheck (s.blocksOk sp t) Cause.align).andThen fun _ =>
        (s.tileLoad sp (dieOf core) t).andThen fun l => .ok ⟨f, kw, nw, rowsOf nw kw l, d⟩

/-- LDW: the shadow plane is the tile. -/
def State.engLdw (s : State) (core : Nat) (g : Group) (d : Desc) : EngRes State :=
  (s.loadPlane core g d).andThen fun p =>
    .ok ((s.tileTouch (g.space core g.sup) (dieOf core) ⟨d, (match s.tilePlane g d with | .ok o => o | _ => none),
      p.fmt⟩).modCore core fun k => { k with shd := some p })

/-- MSTR. -/
def State.engMstr (s : State) (core : Nat) (g : Group) (a : Nat) (d : Desc) (cg init : Bool) : EngRes State :=
  let sp := g.space core g.sup
  let k := s.core core
  match k.act with
  | none => .bad Cause.illop
  | some p =>
    (s.tilePrep sp g .load d).andThen fun t =>
      (engCheck (actOk p.fmt t.code) Cause.illop).andThen fun _ =>
        (engCheck (Dsc.cols d + 1 == p.kw && (!cg || p.fmt == 1 || p.fmt == 2)) Cause.illop).andThen fun _ =>
          (engCheck (s.blocksOk sp t) Cause.align).andThen fun _ =>
            (s.tileLoad sp (dieOf core) t).andThen fun l =>
              let rows := (rowsOf p.kw (Dsc.rows d + 1) l).zipIdx
              let pos (i n : Nat) : List Nat := accPos (p.fmt == 1) a i (passCol p.fmt cg + n)
              let cols := (List.range p.nw).map fun n => (n, p.elems.map fun r => r.getD n (0, 0, 0))
              let cells := rows.flatMap fun (xs, i) => cols.map fun (n, ws) => (pos i n, xs, ws)
              -- poison among the accumulator's positions is met after the tile's order 8 (log 65)
              if !init && cells.any fun (ps, _, _) => ps.any k.apoison.contains then .bad Cause.dataerr
              else
                let out := cells.map fun (ps, xs, ws) =>
                  (ps, passValue p.fmt t.code (if init then 0 else k.accGet ps) xs ws)
                .ok ((s.tileTouch sp (dieOf core) t).modCore core fun k =>
                  out.foldl (fun (k : Core) e => k.accPut e.1 e.2) k)

/-- Every position of an accumulator reads as +0. -/
def Core.accZero (k : Core) (a : Nat) : Core :=
  { k with acc := k.acc.filter fun e => e.1 / 4096 != a, apoison := k.apoison.filter fun n => n / 4096 != a }

/-- The bits ACC.RD writes for an element of a format from the positions' value. -/
def accOut (f v : Nat) : Nat := if f ≤ 2 then v else (Fmt.ofCode f).rne (Fmt.f32.decode v)

/-- The positions' value ACC.WR takes from an element. -/
def accIn (f : Nat) (r : Raw) : Nat := if f ≤ 2 then r.1 else Fmt.f32.rne (rawVal f r)

/-- The poisoned units that the elements at addresses, n bytes each, cover only in part together (R383). -/
def State.accPart (s : State) (sp : Space) (die n : Nat) (vas : List Nat) : List Nat :=
  if s.noPoison then []
  else s.coverBad die (vas.flatMap fun va => match s.translate sp .store va with
    | .ok x => upto x.key n
    | .bad _ | .wait => [])

/-- Check the stores of a list of elements at their addresses, each under the orders of R189 (R443 order 8), and list
their bytes. An element comes with its value, and with whether its accumulator positions are poisoned, which is met at
order 6 (log 65). -/
def State.accTargets (s : State) (sp : Space) (named n : Nat) (part : List Nat) :
    List (Nat × Nat × Bool) → EngRes (List (Xlat × Byte))
  | [] => .ok []
  | (va, v, bad) :: r =>
    (engCheck (va % n == 0) Cause.align).andThen fun _ =>
      ((s.translate sp .store va).eng va).andThen fun x =>
        ((effFmt x.fmt named).eng va).andThen fun f =>
          (engCheck (!blockFmt f) Cause.fmtstore).andThen fun _ =>
            (engCheck (!bad && !x.lost && !((unitsOf x.key n).any part.contains)) Cause.dataerr).andThen fun _ =>
              (s.accTargets sp named n part r).andThen fun l =>
                .ok (((leBytes n v).zipIdx.map fun (b, i) => ({ x with key := x.key + i }, b)) ++ l)

/-- ACC.RD. -/
def State.engAccRd (s : State) (core : Nat) (g : Group) (a : Nat) (d : Desc) : EngRes State :=
  let sp := g.space core g.sup
  let k := s.core core
  (s.tilePrep sp g .store d).andThen fun t =>
    (engCheck (decide (t.code ≤ 6)) Cause.fmtstore).andThen fun _ =>
      let n := elemBits t.code / 8
      let cells := (tileCells d).map fun (r, c) => (t.pos r c, accPos (t.code == 1) a r c)
      (s.accTargets sp t.code n (s.accPart sp (dieOf core) n (cells.map fun e => e.1.1)) (cells.map fun (p, ps) =>
        (p.1, accOut t.code (k.accGet ps), ps.any k.apoison.contains))).andThen fun l =>
          .ok (s.writeCells (dieOf core) l)

/-- ACC.WR. Of the placement of an MXFP8 or NQ4 tile only that its elements lie in element data is checked: R122 asks for
block alignment and a STRIDE of weights and activations, and R443 names no others (log 79). -/
def State.engAccWr (s : State) (core : Nat) (g : Group) (a : Nat) (d : Desc) : EngRes State :=
  let sp := g.space core g.sup
  (s.tilePrep sp g .load d).andThen fun t =>
    (engCheck (s.inData sp t) Cause.align).andThen fun _ =>
      (s.tileLoad sp (dieOf core) t).andThen fun l =>
        .ok (s.modCore core fun k => ((tileCells d).zip l).foldl (fun (k : Core) e =>
          k.accPut (accPos (t.code == 1) a e.1.1 e.1.2) (accIn t.code e.2)) k)

/-- The effect of an entry of the matrix queue. -/
def State.matrixEffect (s : State) (core : Nat) (g : Group) (o : Op) : EngRes State :=
  match o.instr with
  | .ldw _ _ _ => s.engLdw core g o.desc
  | .ldwSwap _ _ => .ok (s.modCore core fun k => { k with act := k.shd, shd := k.act })
  | .mstr c _ cg init _ _ => s.engMstr core g c.toNat o.desc cg init
  | .accZ c _ _ => .ok (s.modCore core fun k => k.accZero c.toNat)
  | .accRd c _ _ _ => s.engAccRd core g c.toNat o.desc
  | .accWr c _ _ _ => s.engAccWr core g c.toNat o.desc
  | _ => .ok s

/-- The engine performs an entry: it completes, fails through its tokens, or stops on a translation
fault. -/
def State.runMatrix (s : State) (core : Nat) (g : Group) (e : Entry) : State :=
  match s.matrixEffect core g e.op with
  | .ok t => t.complete core e none
  | .bad c => s.complete core e (some c)
  | .page va => s.stopEntry core g e va
  | .wait => s

/-- The entry at the head of the matrix queue is performed; the queue of a gang that is stopping, that is
stopped on a translation fault, or whose planes are still to be reloaded, stands. The entries of other gangs ahead of the
reloading gang's are performed meanwhile (log 81). -/
def execMatrixOperation (core : Nat) (s : State) : Host.Outcome State Fault Refusal :=
  match (s.core core).mq with
  | [] => .next s
  | e :: _ =>
    match s.group? core e.gk with
    | none => .next s
    | some g => .next (if e.stopped.isSome || g.stop.isSome || (s.core core).reloading g.gang then s
        else s.runMatrix core g e)

/-! ### Direct issue and melds (R126-R130) -/

/-- A lane set added to the lanes of a warp slot. -/
def addLanes (l : List (Nat × Mask)) (slot : Nat) (m : Mask) : List (Nat × Mask) :=
  if l.any fun e => e.1 == slot then l.map fun e => if e.1 = slot then (slot, e.2 ||| m) else e
  else l ++ [(slot, m)]

/-- A signing instruction may not sign (R129). -/
def Meld.refuses (m : Meld) (threads : List Nat) (op : Option Op) : Bool :=
  !m.opened || threads.any m.signed.contains || decide (m.expect < m.signed.length + threads.length) ||
  (match op, m.op with
    | some a, some b => blank a.instr != blank b.instr || a.desc != b.desc
    | none, none => m.signed.length + threads.length == m.expect
    | _, _ => false)

/-- The issuing set signs meld k (R128). -/
def Ctx.sign (x : Ctx) (k : Nat) (op : Option Op) (tok : Option Nat) : State :=
  let m := (x.g.melds[k]?).getD Meld.idle
  let threads := x.ls.map x.slotOf
  if m.refuses threads op then x.raise Cause.meldset
  else
    let t := x.modG (x.done x.s fun _ th => th) fun g => g.modMeld k fun m =>
      { m with signed := m.signed ++ threads, op := m.op.orElse fun _ => op
               toks := m.toks ++ (tok.map fun r => (x.slot, r)).toList, lanes := addLanes m.lanes x.slot x.lanes }
    let t := match tok with
      | none => t
      | some r => t.pendTok x.core x.g.gk (x.slot, r)
    t.meldEnter x.core x.g.gk k

/-- An engine operation issues: its checks, then its meld, or its queue. A melded operation that fails its own check
and that of R129 raises the former (log 35). -/
def Ctx.engineOp (x : Ctx) (i : Instr) (mk : MeldOp) : State :=
  let o := x.w.opOf i
  let tok := opTok i
  match x.s.opCheck x.core x.g o with
  | some c => x.raise c
  | none =>
    match mk with
    | some k => x.sign k.toNat (some o) tok
    | none =>
      if (x.s.core x.core).full i then x.stall x.s (roomFor i)
      else
        let toks := (tok.map fun r => (x.slot, r)).toList
        let t := toks.foldl (fun (t : State) p => t.pendTok x.core x.g.gk p) (x.done x.s fun _ th => th)
        t.enter x.core x.g (x.g.entryOf o toks (.lanes [(x.slot, x.lanes)]) false (x.ls.map x.slotOf))

/-- Room has appeared: complete melds that wait enter (R172). -/
def execMeldEntry (core : Nat) (s : State) : Host.Outcome State Fault Refusal :=
  .next (s.meldsEnter core)

/-! ### MELD (R137) -/

/-- MELD.decl. -/
def execMeldDecl (k : BitVec 3) (a : BitVec 6) (s : State) : Host.Outcome State Fault Refusal :=
  runWord (.meldDecl k a) s fun x =>
    let n := (x.u a.toNat).toNat
    let m := (x.g.melds[k.toNat]?).getD Meld.idle
    if m.opened || n == 0 || decide (1024 < n) then x.raise Cause.meldset
    else x.modG (x.done x.s fun _ th => th) fun g => g.modMeld k.toNat fun _ =>
      { Meld.idle with opened := true, expect := n }

/-- MELD.sign. -/
def execMeldSign (k : BitVec 3) (tok : Token) (s : State) : Host.Outcome State Fault Refusal :=
  runWord (.meldSign k tok) s fun x => x.sign k.toNat none (tokNum tok)

/-- MELD.cancel. -/
def execMeldCancel (k : BitVec 3) (s : State) : Host.Outcome State Fault Refusal :=
  runWord (.meldCancel k) s fun x =>
    let m := (x.g.melds[k.toNat]?).getD Meld.idle
    let t := x.modG (x.done x.s fun _ th => th) fun g => g.modMeld k.toNat fun _ => Meld.idle
    m.toks.foldl (fun (t : State) p => t.writeTok x.core x.g.gk p tokCancelled) t

/-- MELD.qry. -/
def execMeldQry (d : BitVec 6) (k : BitVec 3) (s : State) : Host.Outcome State Fault Refusal :=
  runWord (.meldQry d k) s fun x =>
    let m := (x.g.melds[k.toNat]?).getD Meld.idle
    let v := if m.opened then m.signed.length + m.expect * 2 ^ 11 + (if m.op.isSome then 2 ^ 22 else 0) + 2 ^ 31
      else 0
    x.doneW x.s fun w => w.setU d.toNat (BitVec.ofNat 32 v)

/-! ### LDW, MSTR, ACC (R138-R140) -/

/-- LDW. -/
def execLdw (t : BitVec 5) (tok : Token) (mk : MeldOp) (s : State) : Host.Outcome State Fault Refusal :=
  runWord (.ldw t tok mk) s fun x => x.engineOp (.ldw t tok mk) mk

/-- LDW.SWAP. -/
def execLdwSwap (tok : Token) (mk : MeldOp) (s : State) : Host.Outcome State Fault Refusal :=
  runWord (.ldwSwap tok mk) s fun x => x.engineOp (.ldwSwap tok mk) mk

/-- MSTR. -/
def execMstr (c : BitVec 4) (t : BitVec 5) (cg init : Bool) (tok : Token) (mk : MeldOp) (s : State) :
    Host.Outcome State Fault Refusal :=
  runWord (.mstr c t cg init tok mk) s fun x => x.engineOp (.mstr c t cg init tok mk) mk

/-- ACC.ACQ: the token is taken, is held already, or is waited for while a gang member holds it (R124). -/
def execAccAcq (c : BitVec 4) (mk : MeldOp) (s : State) : Host.Outcome State Fault Refusal :=
  runWord (.accAcq c mk) s fun x =>
    let k := x.s.core x.core
    let n := c.toNat
    let go (t : State) : State :=
      if x.w.waited &&& x.lanes = 0 then t else t.sync x.core x.g x.slot
    if mk.isSome then x.raise Cause.meldset
    else if !k.useSlot x.g (n / 4) then x.raise Cause.accown
    else match sfind k.owner n with
      | none => go (x.done (x.s.modCore x.core fun k => { k with owner := sput k.owner n x.g.gk }) fun _ th => th)
      | some h => if h = x.g.gk then go (x.done x.s fun _ th => th) else x.waitAt x.s x.ls (.retry (.accAcq c mk) x.s.stepNo)

/-- ACC.REL: the group's token goes back to the engine; that a group which does not hold it changes nothing is the
model's choice (log 65). -/
def execAccRel (c : BitVec 4) (mk : MeldOp) (s : State) : Host.Outcome State Fault Refusal :=
  runWord (.accRel c mk) s fun x =>
    if mk.isSome then x.raise Cause.meldset
    else
      let t := x.done x.s fun _ th => th
      if sfind (x.s.core x.core).owner c.toNat = some x.g.gk then
        t.modCore x.core fun k => { k with owner := sdel k.owner c.toNat }
      else t

/-- ACC.Z. -/
def execAccZ (c : BitVec 4) (tok : Token) (mk : MeldOp) (s : State) : Host.Outcome State Fault Refusal :=
  runWord (.accZ c tok mk) s fun x => x.engineOp (.accZ c tok mk) mk

/-- ACC.RD. -/
def execAccRd (c : BitVec 4) (t : BitVec 5) (tok : Token) (mk : MeldOp) (s : State) :
    Host.Outcome State Fault Refusal :=
  runWord (.accRd c t tok mk) s fun x => x.engineOp (.accRd c t tok mk) mk

/-- ACC.WR. -/
def execAccWr (c : BitVec 4) (t : BitVec 5) (tok : Token) (mk : MeldOp) (s : State) :
    Host.Outcome State Fault Refusal :=
  runWord (.accWr c t tok mk) s fun x => x.engineOp (.accWr c t tok mk) mk

/-! ### TILE (R142, R161, R162) -/

/-- A tile register is written unless the result fails R30. -/
def Ctx.setTile (x : Ctx) (t : BitVec 5) (d : Desc) : State :=
  if Dsc.ok d then x.doneW x.s fun w => w.setT t.toNat d else x.raise Cause.illop

/-- TILE.PLANE. -/
def execTilePlane (t : BitVec 5) (a : BitVec 6) (p : BitVec 6) (s : State) : Host.Outcome State Fault Refusal :=
  runWord (.tilePlane t a p) s fun x =>
    match x.s.ownDesc x.g with
    | none => x.raise Cause.prot
    | some d =>
      let e := DrawD.plane d p.toNat
      let b := (x.u a.toNat).toNat
      if DrawD.npl d ≤ p.toNat ∨ 1 < planeFmt e ∨ 16 ≤ b then x.raise Cause.illop
      else
        let step := if planeFmt e = 0 then 128 * planeChan e else 2048
        x.setTile t (Dsc.mk (lsWindow + planeOffs e + step * b) 2 (if planeFmt e = 0 then 3 else 7) 63
          (planeChan e - 1) 0 p.toNat)

/-- A header of a handle table whose slot of a handle can be used: no reserved field is set and COUNT lies above it. -/
def headerTakes (hdr h : Nat) : Bool := nbits hdr 511 64 == 0 && decide (nbits h 31 12 < nbits hdr 31 0)

/-- Address of the record of a handle (R161). -/
def Ctx.shapeAddr (x : Ctx) (h : Nat) : Nat := x.g.htab + 64 + 64 * nbits h 31 12

/-- The shape record of a handle (R162): none when the handle is refused. -/
def Ctx.shape (x : Ctx) (h : Nat) : Res (Option Nat) :=
  (x.s.loadWords x.space x.die x.g.htab 8).andThen fun hd =>
    if !headerTakes (leNat hd) h then .ok none
    else (x.s.loadWords x.space x.die (x.shapeAddr h) 8).andThen fun r =>
      let r := leNat r
      .ok (if nbits r 143 140 ≠ 0 ∨ nbits r 159 145 ≠ 0 ∨ nbit r 144 = false ∨ nbits r 139 128 ≠ nbits h 11 0 then none
        else some r)

/-- What a use of a handle has read leaves its copies of edge-ordered lines: the header, and the record if the header lets
it be read (R162, R181). -/
def Ctx.shapeTouch (x : Ctx) (h : Nat) : Ctx :=
  match x.s.loadWords x.space x.die x.g.htab 8 with
  | .ok hd =>
    let s := x.s.touchSpan x.space x.die x.g.htab 64
    { x with s := if headerTakes (leNat hd) h then s.touchSpan x.space x.die (x.shapeAddr h) 64 else s }
  | .bad _ | .wait => x

/-- TILE.HND. -/
def execTileHnd (t : BitVec 5) (a : BitVec 6) (s : State) : Host.Outcome State Fault Refusal :=
  runWord (.tileHnd t a) s fun x =>
    let h := (x.u a.toNat).toNat
    match x.shape h with
    | .wait => x.stall x.s .other
    | .bad c => x.raise c
    | .ok none => (x.shapeTouch h).raise Cause.handle
    | .ok (some r) => (x.shapeTouch h).setTile t (BitVec.ofNat 128 r)

/-- The check of TILE.DIM on the descriptor it would write: a LAYOUT 2 tile is a use of its plane, and must pass R136
(R142, R312). -/
def Ctx.dimCheck (x : Ctx) (d : Desc) : Option Nat :=
  if Dsc.layout d ≠ 2 then none
  else match x.s.planeCheck x.g d with
    | .ok _ => none
    | .bad c => some c
    | .wait => none

/-- TILE.DIM. -/
def execTileDim (t : BitVec 5) (a : BitVec 6) (s : State) : Host.Outcome State Fault Refusal :=
  runWord (.tileDim t a) s fun x =>
    let v := (x.u a.toNat).toNat
    let d : Desc := BitVec.ofNat 128 (setField (x.w.t t.toNat).toNat 87 64 v)
    if nbits v 31 24 ≠ 0 then x.raise Cause.illop
    else match x.dimCheck d with
      | some c => x.raise c
      | none => x.setTile t d

/-- A descriptor moved by k strides (R142). -/
def advDesc (d : Desc) (k : Int) : Desc :=
  BitVec.ofNat 128 (setField d.toNat 51 0 (wrap (Dsc.base d + k * Dsc.stride d) 52))

/-- TILE.ADV. -/
def execTileAdv (t : BitVec 5) (a : BitVec 6) (s : State) : Host.Outcome State Fault Refusal :=
  runWord (.tileAdv t a) s fun x =>
    let d := x.w.t t.toNat
    if Dsc.layout d = 2 then x.raise Cause.illop
    else x.setTile t (advDesc d (x.u a.toNat).toInt)

end Sys2Proof.Machine
end

