-- ==== Sys2Proof/Machine/Copy.lean ====
section
/-! DEFINITION. The copy engine: ACPY, its probe, its chunks, packs (spec/08 R205-R209; spec/03 R68, R72, R75,
R77, R78; spec/05 R443). -/

namespace Sys2Proof.Machine

/-! ### Preparing the tiles (R443 orders 2 to 5) -/

/-- The functions that decode their source. -/
def CopyFn.decodes : CopyFn → Bool
  | .cvt | .cvtSat | .pack => true
  | .raw | .zero => false

/-- Both tiles with their formats: the source's effective format where it is decoded, the destination's
where it is encoded, and the raw element size's code otherwise. The format of a tile with FMTSEL 0 comes from its page in a
raw copy too, so that element (0, 0) of such a source is translated at order 3; order 4 asks a format of the tiles that are
decoded or encoded and of a raw destination alone (log 78). -/
def State.copyPrep (s : State) (sp : Space) (g : Group) (fn : CopyFn) (dst src : Desc) : EngRes (TileOp × TileOp) :=
  let z := fn == .zero
  (if z then .ok none else s.tilePlane g src).andThen fun ps =>
    (s.tilePlane g dst).andThen fun pd =>
      (if z then .ok 0 else s.tileAttr sp .load src).andThen fun qs =>
        (s.tileAttr sp .store dst).andThen fun qd =>
          (if CopyFn.decodes fn then s.tileFormat sp .load src qs else .ok (Dsc.fmtsel src)).andThen fun fs =>
            (if !CopyFn.decodes fn && Dsc.fmtsel dst == 0 then .ok qd else s.tileFormat sp .store dst qd).andThen
              fun fd =>
                (if fn = .pack then engCheck (decide (7 ≤ fd)) Cause.illop
                  else engCheck (decide (fd ≤ 6)) Cause.fmtstore).andThen fun _ =>
                    .ok (⟨src, ps, fs⟩, ⟨dst, pd, if CopyFn.decodes fn then fd else Dsc.fmtsel dst⟩)

/-! ### Elements (R189 orders 1 to 5) -/

/-- What the attribute of an element's memory must satisfy: the cause where it does not. -/
def copyFmt (fn : CopyFn) (store : Bool) (named code attr : Nat) : Option Nat :=
  if CopyFn.decodes fn then
    match effFmt attr named with
    | .ok f => if f = code then none else some Cause.prot
    | .bad _ | .wait => some Cause.prot
  else if !store then none
  else if named = 0 then (if blockFmt attr then some Cause.fmtstore else none)
  else if attr ≠ 0 ∧ attr ≠ named then some Cause.prot
  else none

/-- Translate the parts of an element, order by order of R189 over all of them, then check their attributes. -/
def State.copyParts (s : State) (sp : Space) (kind : AKind) (ok : Nat → Option Nat) (l : List (Nat × Nat)) :
    EngRes (List (Xlat × Nat × Nat)) :=
  let stop := (l.find? fun e => match s.translate sp kind e.1 with
    | .bad c => c == Cause.page
    | .ok _ | .wait => false).map Prod.fst
  ((s.spanXlat sp kind l).eng (stop.getD 0)).andThen fun xs =>
    match xs.findSome? fun e => ok e.2.fmt with
    | some c => .bad c
    | none => .ok ((xs.zip l).map fun (e, p) => (e.2, p))

/-- The parts of element (r, c) of a tile of a copy: its bits, and the scales it uses. -/
def State.copyCell (s : State) (sp : Space) (fn : CopyFn) (store : Bool) (t : TileOp) (r c : Nat) :
    EngRes (List (Xlat × Nat × Nat)) :=
  let kind : AKind := if store then .store else .load
  let named := Dsc.fmtsel t.d
  let (va, nib) := t.pos r c
  match t.plane with
  | some (o, _, pf) =>
    s.copyParts sp kind (fun _ => none) (if pf = 0 then [(va, 2)] else [(va, 1), (planeScale t.d o r, 1)])
  | none =>
    let n := elemBits t.code / 8
    let ok := copyFmt fn store named t.code
    if named ≠ 0 ∧ t.code ≤ 6 ∧ va % n ≠ 0 then .bad Cause.align
    else if t.code ≤ 6 then
      (s.copyParts sp kind ok [(va, max n 1)]).andThen fun ps => if va % n ≠ 0 then .bad Cause.align else .ok ps
    else
      ((s.unitAt sp t.code va).eng va).andThen fun u =>
        match unitIndex t.code u (va % u) nib with
        | none => (s.copyParts sp kind ok [(va, 1)]).andThen fun _ => .bad Cause.align
        | some i => s.copyParts sp kind ok ((unitParts t.code u i).map fun (o, n) => (va - va % u + o, n))

/-- A check or a reading of every cell of a list in order. -/
def copyCells {β : Type} (f : Nat → Nat → EngRes β) : List (Nat × Nat) → EngRes (List β)
  | [] => .ok []
  | (r, c) :: rest => (f r c).andThen fun a => (copyCells f rest).andThen fun l => .ok (a :: l)

/-! ### Packs (R67, R68, R71, R72) -/

/-- Elements of a block that is packed as one. -/
def packLen (code : Nat) : Nat := if code = 7 then 32 else 16384
/-- Destination bytes of such a block. -/
def packBytes (code : Nat) : Nat := if code = 7 then 32 else 8192

/-- Where each cell of a pack's destination lies: unit base, unit size, element number. An address that is
not mapped is taken to lie in a unit of the size at BASE; order 8 meets it. -/
def State.packPlace (s : State) (sp : Space) (t : TileOp) : List ((Nat × Nat) × Nat × Nat × Nat) :=
  let unitAt (va dflt : Nat) : Nat := match s.unitAt sp t.code va with
    | .ok u => u
    | .bad _ | .wait => dflt
  let u0 := unitAt (Dsc.base t.d) (if t.code = 8 then 65536 else 4096)
  (tileCells t.d).filterMap fun (r, c) =>
    let (va, nib) := t.pos r c
    let u := unitAt va u0
    (unitIndex t.code u (va % u) nib).map fun i => ((r, c), va - va % u, u, i)

/-- The blocks a pack touches, in the order the tile first touches them: unit base, unit size, number. -/
def packBlocks (code : Nat) (cells : List ((Nat × Nat) × Nat × Nat × Nat)) : List (Nat × Nat × Nat) :=
  (cells.map fun e => (e.2.1, e.2.2.1, e.2.2.2 / packLen code)).eraseDups

/-- The blocks of a pack whose every element is mapped, as `packBlocks`; one that is not mapped stops the engine. -/
def State.packUnits (s : State) (sp : Space) (t : TileOp) : EngRes (List (Nat × Nat × Nat)) :=
  (copyCells (fun r c =>
    let (va, nib) := t.pos r c
    ((s.unitAt sp t.code va).eng va).andThen fun u =>
      .ok ((unitIndex t.code u (va % u) nib).map fun i => ((r, c), va - va % u, u, i))) (tileCells t.d)).andThen fun l =>
    .ok (packBlocks t.code (l.filterMap id))

/-- The cells of a tile in a block of a pack, with their element numbers in it: a block stays where the probe found it. -/
def TileOp.cellsOf (t : TileOp) (b : Nat × Nat × Nat) : List ((Nat × Nat) × Nat) :=
  (tileCells t.d).filterMap fun (r, c) =>
    let (va, nib) := t.pos r c
    if b.1 ≤ va ∧ va < b.1 + b.2.1 then
      (unitIndex t.code b.2.1 (va - b.1) nib).bind fun i =>
        if i / packLen t.code = b.2.2 then some ((r, c), i % packLen t.code) else none
    else none

/-- The cells of one block with their element numbers in it. -/
def blockCells (code : Nat) (cells : List ((Nat × Nat) × Nat × Nat × Nat)) (b : Nat × Nat × Nat) :
    List ((Nat × Nat) × Nat) :=
  (cells.filter fun e => e.2.1 == b.1 && e.2.2.2 / packLen code == b.2.2).map fun e =>
    (e.1, e.2.2.2 % packLen code)

/-- Every block touched is wholly covered. -/
def packCovers (code : Nat) (cells : List ((Nat × Nat) × Nat × Nat × Nat)) : Bool :=
  (packBlocks code cells).all fun b =>
    let js := (blockCells code cells b).map Prod.snd
    (List.range (packLen code)).all js.contains

/-- The bytes of a packed block by address, from its values in order. What R72 leaves open is a free choice of the
values alone (log 44). -/
def packOut (code : Nat) (b : Nat × Nat × Nat) (vals : List FVal) : List (Nat × Byte) :=
  let at_ (va : Nat) (l : List Nat) : List (Nat × Byte) := l.zipIdx.map fun (v, i) => (va + i, BitVec.ofNat 8 v)
  if code = 7 then
    let (scale, es) := packMx vals
    at_ (b.1 + 32 * b.2.2) es ++ at_ (b.1 + (if b.2.1 = 4096 then 0xF80 else 0xF800) + b.2.2) [scale]
  else
    let (sc, codes, idx) := packNq4 (fun n => Config.freeOf (vals.map Fmt.f64.rne) n) (rowsOf 64 256 vals)
    let nibs := idx.flatMap id
    at_ (b.1 + 8192 * b.2.2) ((List.range 8192).map fun i => nibs.getD (2 * i) 0 + 16 * nibs.getD (2 * i + 1) 0) ++
      at_ (b.1 + 0xE000 + 256 * b.2.2) codes ++
      at_ (b.1 + 0xE700 + 4 * b.2.2) ((List.range 4).map fun i => sc / 256 ^ i % 256)

/-- The reserved area of a unit, which a pack writes as zero (R77). -/
def packZeros (code : Nat) (b : Nat × Nat × Nat) : List Nat :=
  if code = 8 then upto (b.1 + 0xE71C) 0x18E4
  else if b.2.1 = 4096 then upto (b.1 + 0xFFC) 4 else upto (b.1 + 0xFFC0) 64

/-! ### Probe (R208) -/

/-- The data of an element's parts can be had: order 6 of R189. Of a destination, `part` are the poisoned units that the
copy covers only in part (R383). -/
def State.cellData (s : State) (die : Nat) (store : Bool) (part : List Nat) (ps : List (Xlat × Nat × Nat)) :
    EngRes Unit :=
  engCheck (ps.all fun (x, _, n) => !x.lost &&
    !(if store then (unitsOf x.key n).any part.contains else s.meetsPoison die x.key n)) Cause.dataerr

/-- The addresses that a chunk of a copy writes together: of at most 4 KiB of elements, or of a whole block (R208). -/
def State.chunkAddrs (s : State) (sp : Space) (fn : CopyFn) (b : TileOp) : List (List Nat) :=
  if fn = .pack then
    (packBlocks b.code (s.packPlace sp b)).map fun k =>
      (packOut b.code k (List.replicate (packLen b.code) (.fin false 0 0))).map Prod.fst ++ packZeros b.code k
  else
    let n := elemBits b.code / 8
    let cells := tileCells b.d
    (List.range ((cells.length * n + 4095) / 4096)).map fun i =>
      ((cells.drop (i * (4096 / n))).take (4096 / n)).flatMap fun (r, c) => upto (b.pos r c).1 n

/-- The poisoned units that some chunk of a copy covers only in part. -/
def State.copyPart (s : State) (sp : Space) (die : Nat) (fn : CopyFn) (b : TileOp) : List Nat :=
  if s.noPoison then []
  else (s.chunkAddrs sp fn b).flatMap fun l => s.coverBad die (l.filterMap fun va => match s.translate sp .store va with
    | .ok x => some x.key
    | .bad _ | .wait => none)

/-- The checks of a copy in the order of R443; what they find. -/
def State.probe (s : State) (sp : Space) (die : Nat) (g : Group) (fn : CopyFn) (dst src : Desc) : EngRes Probe :=
  (s.copyPrep sp g fn dst src).andThen fun (a, b) =>
    (engCheck (!CopyFn.decodes fn || s.inData sp a) Cause.align).andThen fun _ =>
      (engCheck (fn != .pack || s.inData sp b) Cause.align).andThen fun _ =>
        (engCheck (fn != .pack || packCovers b.code (s.packPlace sp b)) Cause.fmtstore).andThen fun _ =>
          (if fn = .zero then .ok [] else copyCells (fun r c => (s.copyCell sp fn false a r c).andThen
              (s.cellData die false [])) (tileCells src)).andThen fun _ =>
            (copyCells (fun r c => (s.copyCell sp fn true b r c).andThen
                (s.cellData die true (s.copyPart sp die fn b))) (tileCells dst)).andThen fun _ =>
              (if fn = .pack then s.packUnits sp b else .ok []).andThen fun l => .ok ⟨a.plane, b.plane, a.code, b.code, l⟩

/-! ### Chunks (R208) -/

/-- What a chunk comes to: its state, the destination bytes done after it, and whether it was the last; or
the state and the cause that ends the copy. -/
inductive Chunk where
  | part (s : State) (done : Nat) (last : Bool)
  | fail (s : State) (cause : Nat)

/-- Write a chunk's bytes by address, all of them or none; the zeros that a pack writes into a reserved area are bytes of
its chunk like the others (R77, log 75). -/
def State.chunkPut (s : State) (sp : Space) (die : Nat) (out : List (Nat × Byte)) (done : Nat) (last : Bool) : EngRes Chunk :=
  (copyCells (fun va v => ((s.translate sp .store va).eng va).andThen fun x => .ok (x, BitVec.ofNat 8 v))
    (out.map fun e => (e.1, e.2.toNat))).andThen fun cells =>
      let bad := s.coverBad die (cells.map fun e => e.1.key)
      if cells.any fun e => e.1.lost then .ok (.fail s Cause.dataerr)
      else if bad.isEmpty then .ok (.part (s.writeCells die cells) done last)
      else .ok (.fail (bad.foldl (fun (s : State) u => s.poisonHere die u) s) Cause.dataerr)

/-- Read the source elements of cells; poison among them gives DATAERR. -/
def State.copyRead (s : State) (die : Nat) (code : Nat) (t : TileOp) (cells : List (Nat × Nat))
    (ps : List (List (Xlat × Nat × Nat))) : Option (List Raw) :=
  (cells.zip ps).mapM fun ((r, c), p) => match s.partsRead die p with
    | .ok vs => some (rawOf code (if t.plane.isSome then 0 else (t.pos r c).2) vs)
    | .bad _ | .wait => none

/-- The source's lines of edge-ordered memory stay in the die's L2 (R181). -/
def State.copyTouch (s : State) (die : Nat) (ps : List (List (Xlat × Nat × Nat))) : State :=
  ps.foldl (fun (s : State) p => s.touchParts die (p.map fun e => (e.1, e.2.2))) s

/-- The bytes of an element that a copy writes. -/
def copyOut (fn : CopyFn) (src dst : Nat) (r : Raw) : List Byte :=
  let n := elemBits dst / 8
  match fn with
  | .zero => List.replicate n 0
  | .raw => leBytes n r.1
  | .cvt | .cvtSat | .pack =>
    leBytes n ((Fmt.ofCode dst).encode .rn (rawVal src r) (fn == .cvtSat && dst == 6)).1

/-- The next chunk of a copy that packs nothing: at most 4 KiB of destination elements. -/
def State.plainChunk (s : State) (sp : Space) (die : Nat) (fn : CopyFn) (a b : TileOp) (done : Nat) : EngRes Chunk :=
  let n := elemBits b.code / 8
  let all := tileCells b.d
  let cells := (all.drop (done / n)).take (4096 / n)
  let last := decide (all.length ≤ done / n + 4096 / n)
  (if fn = .zero then .ok [] else copyCells (s.copyCell sp fn false a) cells).andThen fun ps =>
    (copyCells (fun r c => (s.copyCell sp fn true b r c).andThen (s.cellData die true [])) cells).andThen fun _ =>
      match (if fn = .zero then some (cells.map fun _ => (0, 0, 0)) else s.copyRead die a.code a cells ps) with
      | none => .ok (.fail s Cause.dataerr)
      | some vs =>
        let out := (cells.zip vs).flatMap fun ((r, c), v) =>
          (copyOut fn a.code b.code v).zipIdx.map fun (x, i) => ((b.pos r c).1 + i, x)
        (s.copyTouch die ps).chunkPut sp die out (done + n * cells.length) last

/-- The next chunk of a pack: one whole block, where the probe found it. Where the page of an element has come to give
another unit size since, the element is misplaced (log 75). -/
def State.packChunk (s : State) (sp : Space) (die : Nat) (a b : TileOp) (blocks : List (Nat × Nat × Nat)) (done : Nat) :
    EngRes Chunk :=
  let k := done / packBytes b.code
  match blocks[k]? with
  | none => .ok (.part s done true)
  | some blk =>
    let mine := b.cellsOf blk
    let cells := mine.map Prod.fst
    let moved (r c : Nat) : EngRes Unit := ((s.unitAt sp b.code (b.pos r c).1).eng (b.pos r c).1).andThen fun u =>
      engCheck (u == blk.2.1) Cause.align
    (copyCells (s.copyCell sp .pack false a) cells).andThen fun ps =>
      (copyCells (fun r c => (s.copyCell sp .pack true b r c).andThen fun p =>
          (moved r c).andThen fun _ => s.cellData die true [] p) cells).andThen fun _ =>
        match s.copyRead die a.code a cells ps with
        | none => .ok (.fail s Cause.dataerr)
        | some vs =>
          let vals := (List.range (packLen b.code)).map fun j =>
            match ((mine.zip vs).reverse.find? fun e => e.1.2 == j) with
            | some e => rawVal a.code e.2
            | none => .fin false 0 0
          (s.copyTouch die ps).chunkPut sp die
            (packOut b.code blk vals ++ (packZeros b.code blk).map fun va => (va, 0)) (done + packBytes b.code) (k + 1 == blocks.length)

/-- The space of a queued copy: the pages that its descriptors named when it entered (R154). -/
def Group.copySpace (g : Group) (core : Nat) (e : Entry) : Space :=
  { g.space core g.sup with pages := e.pages, reach := e.named }

/-- The next chunk of an entry whose probe has passed. -/
def State.chunk (s : State) (core : Nat) (g : Group) (e : Entry) (fn : CopyFn) (f : Probe) : EngRes Chunk :=
  let sp := g.copySpace core e
  let a : TileOp := ⟨e.op.src, f.srcPlane, f.srcFmt⟩
  let b : TileOp := ⟨e.op.desc, f.dstPlane, f.dstFmt⟩
  if fn = .pack then s.packChunk sp (dieOf core) a b f.blocks e.done else s.plainChunk sp (dieOf core) fn a b e.done

/-! ### The steps -/

/-- The function of a copy entry. -/
def Entry.copyFn (e : Entry) : CopyFn :=
  match e.op.instr with
  | .acpy fn _ _ _ _ => fn
  | _ => .raw

/-- The entry at the head of a copy queue. -/
def Core.copyHead (k : Core) (q : Nat) : Option Entry := k.cq.find? fun e => e.q == q

/-- What a copy goes on from: the checks of its probe; of a copy whose probe passed before its image was written, only
the planes, the formats and the blocks of a pack (R208). -/
def State.probeOf (s : State) (core : Nat) (g : Group) (e : Entry) : EngRes Probe :=
  let sp := g.copySpace core e
  if e.done = 0 then s.probe sp (dieOf core) g e.copyFn e.op.desc e.op.src
  else (s.copyPrep sp g e.copyFn e.op.desc e.op.src).andThen fun (a, b) =>
    (if e.copyFn = .pack then s.packUnits sp b else .ok []).andThen fun l => .ok ⟨a.plane, b.plane, a.code, b.code, l⟩

/-- The probe of an entry. -/
def State.runProbe (s : State) (core : Nat) (g : Group) (e : Entry) : State :=
  match s.probeOf core g e with
  | .ok f => s.modEntry core e.eid fun e => { e with probed := some f, stopped := none }
  | .bad c => s.complete core e (some c)
  | .page va => s.stopEntry core g e va
  | .wait => s

/-- A chunk of an entry. -/
def State.runChunk (s : State) (core : Nat) (g : Group) (e : Entry) (f : Probe) : State :=
  match s.chunk core g e e.copyFn f with
  | .ok (.part t _ true) => t.complete core e none
  | .ok (.part t n false) => t.modEntry core e.eid fun e => { e with done := n, stopped := none }
  | .ok (.fail t c) => t.complete core e (some c)
  | .bad c => s.complete core e (some c)
  | .page va => s.stopEntry core g e va
  | .wait => s

/-- The head of a copy queue, its group going on and not stopped on a fault, is worked on. -/
def State.copyStep (s : State) (core q : Nat) (f : Group → Entry → State) : State :=
  match (s.core core).copyHead q with
  | none => s
  | some e =>
    match s.group? core e.gk with
    | none => s
    | some g => if e.stopped.isSome || g.stop.isSome then s else f g e

/-- COPY_PROBE. -/
def execCopyProbe (core q : Nat) (s : State) : Host.Outcome State Fault Refusal :=
  .next (s.copyStep core q fun g e => if e.probed.isSome then s else s.runProbe core g e)

/-- COPY_CHUNK. -/
def execCopyChunk (core q : Nat) (s : State) : Host.Outcome State Fault Refusal :=
  .next (s.copyStep core q fun g e => match e.probed with
    | some f => s.runChunk core g e f
    | none => s)

/-- ACPY. -/
def execAcpy (fn : CopyFn) (q : BitVec 2) (d a : BitVec 5) (tok : Token) (s : State) :
    Host.Outcome State Fault Refusal :=
  runWord (.acpy fn q d a tok) s fun x => x.engineOp (.acpy fn q d a tok) none

end Sys2Proof.Machine
end

