-- ==== Sys2Proof/Machine/Seq.lean ====
section
/-! DEFINITION. Engine programs: FORK, RDV, TQ and the sequencers (spec/11 R274; spec/12 R299-R302; spec/15
R365). -/

namespace Sys2Proof.Machine

/-! ### Entries (R274) -/

/-- An allowed form of a sequencer: matrix, or copy. -/
def seqForm (copy : Bool) (i : Instr) : Bool :=
  match i with
  | .ldw _ _ mk | .ldwSwap _ mk | .mstr _ _ _ _ _ mk | .accZ _ _ mk | .accRd _ _ _ mk | .accWr _ _ _ mk =>
    !copy && mk.isNone
  | .acpy _ _ _ _ _ => copy
  | .tileAdv _ _ | .rdv _ => true
  | _ => false

/-- An entry of 64 bits: its word's instruction, performances, and the END bit; none when it is not an
allowed form. -/
def seqEntry (copy : Bool) (e : Nat) : Option (Instr × Nat × Bool) :=
  if nbits e 62 48 ≠ 0 then none
  else match decode (BitVec.ofNat 32 (nbits e 31 0)) with
    | .ok i => if seqForm copy i then some (i, nbits e 47 32 + 1, nbit e 63) else none
    | .error _ => none

/-- Index of a sequencer that has performed its last entry. -/
def seqEnd : Nat := 0xFFFF

/-- Entry n of the program of a sequencer: an access of the fork (R300). -/
def State.seqRead (s : State) (core : Nat) (g : Group) (q : Seq) (n : Nat) : Res Nat :=
  (s.loadBytes (g.space core g.sup) (dieOf core) (lsWindow + q.off + 8 * n) 8).andThen fun (_, bs) => .ok (leNat bs)

/-- Entry n of the program of a sequencer, as it was read when it was reached, or as it would be read now (R300). -/
def State.seqAt (s : State) (core : Nat) (g : Group) (q : Seq) (n : Nat) : Res Nat :=
  match q.cur with
  | some e => if n = q.idx then .ok e else s.seqRead core g q n
  | none => s.seqRead core g q n

/-- The program from entry n on holds rendezvous r. -/
def State.seqHolds (s : State) (core : Nat) (g : Group) (q : Seq) (r : Nat) : (fuel n : Nat) → Bool
  | 0, _ => false
  | f + 1, n =>
    match s.seqAt core g q n with
    | .ok e => match seqEntry q.copy e with
      | some (.rdv k, _, last) => k.toNat == r || (!last && s.seqHolds core g q r f (n + 1))
      | some (_, _, last) => !last && s.seqHolds core g q r f (n + 1)
      | none => false
    | .bad _ | .wait => false

/-! ### Changing sequencers -/

/-- Change a sequencer. -/
def State.modSeq (s : State) (core : Nat) (q : Seq) (f : Seq → Seq) : State :=
  s.modCore core fun k => { k with seqs := k.seqs.map fun r => if r.isAt q.gk q.fork q.copy then f r else r }

/-- The sequencer of a kind that is running (R300). -/
def Core.seqOf (k : Core) (copy : Bool) : Option Seq := k.seqs.find? fun q => q.copy == copy && !q.finished

/-- An entry has been performed once. -/
def Seq.passed (q : Seq) (reps : Nat) (last : Bool) : Seq :=
  let left := (q.rep.getD reps) - 1
  if left = 0 then { q with rep := none, cur := none, idx := if last then seqEnd else q.idx + 1, atRdv := none }
  else { q with rep := some left, atRdv := none }

/-- A lane waits at an RDV. -/
def Wait.rdvStamp (w : Wait) : Option (Nat × Nat) :=
  match w with
  | .rdv n k => some (n, k)
  | _ => Option.none

/-- The arrivals of a group at rendezvous n: their order, oldest first (R301). -/
def Group.arrivals (g : Group) (n : Nat) : List Nat :=
  sortBy id ((g.threads.filterMap fun e => match e.2.wait.rdvStamp with
    | some (m, k) => if m = n then some k else none
    | none => none).eraseDups)

/-- The lanes of a group whose RDV a test selects go on; their warps' sync flags are set (R365). -/
def State.rdvResume (s : State) (core gk : Nat) (sel : Nat × Nat → Bool) : State :=
  match s.group? core gk with
  | none => s
  | some g => s.release core gk ((g.threads.filter fun e => e.2.wait.rdvStamp.any sel).map Prod.fst)

/-- Every RDV of a group completes when it has no running fork (R301). -/
def State.rdvFree (s : State) (core gk : Nat) : State :=
  if (s.core core).seqs.any fun q => q.gk == gk then s else s.rdvResume core gk fun _ => true

/-! ### Rendezvous (R301) -/

/-- The sequencers of the fork of a sequencer. -/
def Core.forkSeqs (k : Core) (q : Seq) : List Seq := k.seqs.filter fun r => q.forks r

/-- A sequencer is at rendezvous n. -/
def Seq.here (r : Seq) (n : Nat) : Bool := r.atRdv == some n

/-- An instance of rendezvous n of the fork of a sequencer has all its parties. -/
def State.rdvReady (s : State) (core : Nat) (q : Seq) (n : Nat) : Bool :=
  let fork := (s.core core).forkSeqs q
  (s.group? core q.gk).any fun g =>
    !fork.isEmpty && decide (q.w ≤ (g.arrivals n).length) && (fork.any (·.here n) || q.w != 0) &&
      fork.all fun r => r.here n || r.finished || r.idx == seqEnd || !s.seqHolds core g r n 256 r.idx

/-- An instance of rendezvous n completes: its sequencers go past their entries, and its oldest arrivals go on. -/
def State.rdvPass (s : State) (core : Nat) (q : Seq) (n : Nat) : State :=
  match s.group? core q.gk with
  | none => s
  | some g =>
    let win := (g.arrivals n).take q.w
    let s := (((s.core core).forkSeqs q).filter (·.here n)).foldl (fun (s : State) r =>
      match (s.seqAt core g r r.idx) with
      | .ok e => match seqEntry r.copy e with
        | some (_, reps, last) => s.modSeq core r fun r => { r.passed reps last with met := true }
        | none => s
      | .bad _ | .wait => s) s
    s.rdvResume core q.gk fun (m, k) => m == n && win.contains k

/-- Every instance of a rendezvous of the fork of a sequencer that has all its parties completes, one after the other:
arrivals beyond w count towards the next instance. -/
def State.rendezvous (s : State) (core : Nat) (q : Seq) : (fuel : Nat) → State
  | 0 => s
  | n + 1 => match (List.range 8).find? (s.rdvReady core q) with
    | none => s
    | some r => (s.rdvPass core q r).rendezvous core q n

/-- More instances than one step can complete. -/
def rdvFuel : Nat := 2048

/-- An operation that a sequencer entered has not completed: it is queued, or waits to enter again after a restore. -/
def Core.seqOpen (k : Core) (q : Seq) : Bool :=
  (k.mq ++ k.cq ++ k.groups.flatMap (·.backlog)).any fun e => e.gk == q.gk && e.origin == .seq q.fork q.copy

/-! ### The end of a fork (R300) -/

/-- Every sequencer of a fork has finished: its token is written, or a failure without a token goes to the
lanes of the FORK. -/
def State.forkEnd (s : State) (core : Nat) (q : Seq) : State :=
  let fork := (s.core core).seqs.filter fun r => q.forks r
  if fork.any fun r => !r.finished then s
  else
    let fail := (fork.find? fun r => r.failed.isSome).bind fun r => r.failed
    let s := s.modCore core fun k => { k with seqs := k.seqs.filter fun r => !q.forks r }
    let s := match q.tok, fail with
      | some t, none => s.writeTok core q.gk (q.wslot, t) tokDone
      | some t, some c => s.writeTok core q.gk (q.wslot, t) (tokFail c)
      | none, some c => s.modWarp core q.gk q.wslot fun w => { w with failLanes := w.failLanes ++ [(q.lanes, c)] }
      | none, none => s
    s.rdvFree core q.gk

/-- A sequencer stops, with the cause of a failure of its own if there is one; a failed fork completes every
RDV of it. -/
def State.seqStop (s : State) (core : Nat) (q : Seq) (cause : Option Nat) : State :=
  let s := s.modSeq core q fun r =>
    { r with finished := true, failed := match cause with | some c => some c | none => r.failed }
  let s := if cause.isSome || q.failed.isSome then s.rdvResume core q.gk fun _ => true else s
  s.forkEnd core q

/-! ### One entry (R274) -/

/-- Its engine operation's registers and descriptors pass R46; the token is free to be named. -/
def Warp.seqRegs (w : Warp) (uh : Nat) (i : Instr) : Option Nat :=
  let o := opndsOf i
  if o.uni.any (fun n => decide (uh ≤ n)) || o.tiles.any (fun n => !Dsc.ok (w.t n)) then some Cause.illop
  else if o.ur.any w.upoison.contains then some Cause.dataerr
  else none

/-- A TILE.ADV on a warp's tile register: the register after it, or its cause. -/
def Warp.advanced (w : Warp) (t : BitVec 5) (a : BitVec 6) (times : Nat) : Desc × Option Nat :=
  let d := advDesc (w.t t.toNat) ((w.u a.toNat).toInt * times)
  (d, if Dsc.layout (w.t t.toNat) = 2 ∨ Dsc.ok d = false then some Cause.illop else none)

/-- Enter an engine operation on behalf of a warp; its token becomes pending. -/
def State.seqEnter (s : State) (core : Nat) (g : Group) (slot : Nat) (w : Warp) (i : Instr) (origin : Origin)
    (threads : List Nat) : State :=
  let toks := ((opTok i).map fun r => (slot, r)).toList
  (toks.foldl (fun (s : State) p => s.pendTok core g.gk p) s).enter core g
    (g.entryOf (w.opOf i) toks origin false threads)

/-- A sequencer performs its current entry once, or waits. -/
def State.seqPerform (s : State) (core : Nat) (g : Group) (q : Seq) (w : Warp) (i : Instr) (reps : Nat)
    (last : Bool) : State :=
  let k := s.core core
  let next (s : State) : State := s.modSeq core q fun r => r.passed reps last
  match i with
  | .rdv n =>
    if k.seqOpen q then s else s.modSeq core q fun r => { r with atRdv := some n.toNat }
  | .tileAdv t a =>
    match w.seqRegs g.uh i with
    | some c => s.seqStop core q (some c)
    | none =>
      if w.upend.contains a.toNat then s
      else match w.advanced t a 1 with
        | (_, some c) => s.seqStop core q (some c)
        | (d, none) => next (s.modWarp core g.gk q.wslot fun w => w.setT t.toNat d)
  | _ =>
    match (w.seqRegs g.uh i).orElse fun _ => s.opCheck core g (w.opOf i) with
    | some c => s.seqStop core q (some c)
    | none =>
      if k.full i || (opTok i).any w.upend.contains then s
      else next (s.seqEnter core g q.wslot w i (.seq q.fork q.copy) q.threads)

/-- One step of a sequencer. -/
def State.seqStep (s : State) (core : Nat) (q : Seq) : State :=
  let k := s.core core
  match (s.group? core q.gk).bind fun g => (g.warp? q.wslot).map fun w => (g, w) with
  | none => s
  | some (g, w) =>
    if g.stop.isSome || q.finished || k.entering g.gang then s
    else if q.failed.isSome || k.seqs.any (fun r => q.forks r && r.failed.isSome) then s.seqStop core q none
    else if q.idx = seqEnd then
      (if k.seqOpen q then s else s.seqStop core q none)
    else if 256 ≤ q.idx then s.seqStop core q (some Cause.illop)
    else match s.seqAt core g q q.idx with
      | .wait => s
      | .bad c => s.seqStop core q (some c)
      | .ok e => match seqEntry q.copy e with
        | none => s.seqStop core q (some Cause.illop)
        | some (i, reps, last) =>
          (s.modSeq core q fun r => { r with cur := some e }).seqPerform core g { q with cur := some e } w i reps last

/-- SEQUENCER_ENTRY; what it makes complete at a rendezvous completes with it. -/
def execSequencerEntry (core : Nat) (copy : Bool) (s : State) : Host.Outcome State Fault Refusal :=
  match (s.core core).seqOf copy with
  | none => .next s
  | some q => .next ((s.seqStep core q).rendezvous core q rdvFuel)

/-! ### FORK (R299, R300) -/

/-- The check of a program offset. -/
def Ctx.offCause (x : Ctx) (off : Nat) : Option Nat :=
  if off % 8 ≠ 0 then some Cause.align
  else if x.g.pages.length * 4096 ≤ off then some Cause.prot
  else none

/-- Start sequencers on programs: (copy, offset) for each. -/
def Ctx.fork (x : Ctx) (w : BitVec 6) (tok : Token) (progs : List (Bool × Nat)) : State :=
  match progs.findSome? fun p => x.offCause p.2 with
  | some c => x.raise c
  | none =>
    match progs.find? fun p => ((x.s.core x.core).seqOf p.1).isSome with
    | some p => x.stall x.s (.seq p.1)
    | none =>
      let new := progs.map fun (copy, off) =>
        { gk := x.g.gk, wslot := x.slot, off := off, idx := 0, cur := none, rep := none, copy := copy,
          fork := x.s.fresh, atRdv := none, finished := false, failed := none, tok := tokNum tok,
          w := w.toNat, lanes := x.lanes, threads := x.ls.map x.slotOf, fence := x.w.sync, met := false : Seq }
      let s := (x.done x.s.bump fun _ th => th).modCore x.core fun k => { k with seqs := k.seqs ++ new }
      match tok with
      | none => s
      | some t => s.pendTok x.core x.g.gk (x.slot, t.toNat)

/-- FORK.mx. -/
def execForkMx (w : BitVec 6) (a : BitVec 6) (tok : Token) (s : State) : Host.Outcome State Fault Refusal :=
  runWord (.forkMx w a tok) s fun x => x.fork w tok [(false, (x.u a.toNat).toNat)]

/-- FORK.cp. -/
def execForkCp (w : BitVec 6) (a : BitVec 6) (tok : Token) (s : State) : Host.Outcome State Fault Refusal :=
  runWord (.forkCp w a tok) s fun x => x.fork w tok [(true, (x.u a.toNat).toNat)]

/-- FORK.both. -/
def execForkBoth (w : BitVec 6) (a : BitVec 6) (tok : Token) (s : State) : Host.Outcome State Fault Refusal :=
  runWord (.forkBoth w a tok) s fun x =>
    x.fork w tok [(false, (x.u a.toNat).toNat), (true, (x.u (a.toNat + 1)).toNat)]

/-! ### RDV (R301) -/

/-- RDV: it completes at once without a running fork; else it counts one arrival and waits. -/
def execRdv (n : BitVec 3) (s : State) : Host.Outcome State Fault Refusal :=
  runWord (.rdv n) s fun x =>
    let forks := (x.s.core x.core).seqs.filter fun q => q.gk == x.g.gk
    if forks.isEmpty then (x.done x.s fun _ th => th).sync x.core x.g x.slot
    else
      let s := x.waitAt x.s.bump x.ls (.rdv n.toNat x.s.fresh)
      forks.foldl (fun (s : State) q => s.rendezvous x.core q rdvFuel) s

/-! ### TQ (R302) -/

/-- Enter an operation up to n times, while its queue has room and its token is free to be named: the state
and the entries made. -/
def Ctx.tqEnter (x : Ctx) (i : Instr) : (n : Nat) → State → State × Nat
  | 0, s => (s, 0)
  | n + 1, s =>
    let g := x.g' s
    let w := x.w' s
    if (s.core x.core).full i || (opTok i).any w.upend.contains then (s, 0)
    else
      let (s, k) := x.tqEnter i n (s.seqEnter x.core g x.slot w i (.lanes [(x.slot, x.lanes)]) (x.ls.map x.slotOf))
      (s, k + 1)

/-- A stalled TQ is that of the issuing path. -/
def TqStall.isOf (e : TqStall) (x : Ctx) : Bool := e.pc == x.pc && e.lanes &&& x.lanes != 0

/-- TQ of an engine operation: the operations still to be entered; what finds no room waits at issue. -/
def Ctx.tqOp (x : Ctx) (i : Instr) (reps : Nat) : State :=
  let made := ((x.w.tqs.find? (·.isOf x)).map (·.made)).getD 0
  let (s, k) := x.tqEnter i (reps - made) x.s
  let others (w : Warp) : List TqStall := w.tqs.filter fun e => !e.isOf x
  if reps ≤ made + k then x.modW (x.done s fun _ th => th) fun w => { w with tqs := others w }
  else
    let t := x.modW s fun w => { w with tqs := ⟨x.pc, x.lanes, made + k⟩ :: others w }
    if (s.core x.core).full i then x.stall t (roomFor i) else x.stallTok t (opTok i).toList

/-- A stalled TQ goes on, unless one of the operations that it has entered failed: then it raises the cause first, and
goes on after the handler (R132). -/
def Ctx.tqAgain (x : Ctx) (i : Instr) (reps : Nat) : State :=
  match (opTok i).bind fun t => x.w.failTok.find? fun e => e.1 == t with
  | some (r, c) => x.raiseTok r c
  | none => x.tqOp i reps

/-- TQ. -/
def execTq (a : BitVec 6) (s : State) : Host.Outcome State Fault Refusal :=
  runWord (.tq a) s fun x =>
    let e := (x.u64 a.toNat).toNat % 2 ^ 63
    match (seqEntry false e).orElse fun _ => seqEntry true e with
    | none => x.raise Cause.illop
    | some (i, reps, _) =>
      let going : Bool := x.w.tqs.any (·.isOf x)
      match i with
      | .rdv _ => x.raise Cause.illop
      | .tileAdv t b =>
        match gate i x with
        | .stop s' => s'
        | .go =>
          let x := x.marked (opndsOf i)
          match x.w.advanced t b reps with
          | (_, some c) => x.raise c
          | (d, none) => x.doneW x.s fun w => w.setT t.toNat d
      | _ =>
        if going then x.tqAgain i reps
        else match gate i x with
          | .stop s' => s'
          | .go => match x.s.opCheck x.core x.g (x.w.opOf i) with
            | some c => x.raise c
            | none => x.tqOp i reps

end Sys2Proof.Machine
end

