-- ==== Sys2Proof/Machine/Fence.lean ====
section
/-! DEFINITION. The fences (spec/08 R213-R216; spec/07 R167, R175, R179-R185) and the acknowledgement
of a cleaning. -/

namespace Sys2Proof.Machine

/-! ### FENC.M, FENC.Q (R214, R175) -/

/-- FENC.M: every earlier access of a thread is performed within its own step, so it completes at once. -/
def execFencM (s : State) : Host.Outcome State Fault Refusal :=
  runWord .fencM s fun x => x.done x.s fun _ th => th

/-- A primitive that a thread of a group submitted, of those with a TID that a test selects, is not committed (R171,
R175): of its own task's, for other tasks may have threads of the same GID and TID. -/
def State.uncommitted (s : State) (g : Group) (sel : Word → Bool) : Bool :=
  s.draws.any fun d => d.ctx == g.ctx && d.accepted.any fun a =>
    decide (d.next ≤ a.s) && a.task == g.task && a.gid == g.gid && sel a.tid

/-- Bit of the queue set that an engine operation's queue has (R171). -/
def queueBit (i : Instr) : Option Nat :=
  match i with
  | .tileAdv _ _ | .rdv _ => none
  | _ => some (match copyQueue i with | none => 0 | some q => q + 1)

/-- A sequencer still has an operation of a queue of the set to enter: FORK's issue is the issue of every operation of
its program (R173, R274). -/
def State.seqNames (s : State) (core : Nat) (g : Group) (q : Seq) (set : BitVec 6) : (fuel n : Nat) → Bool
  | 0, _ => false
  | f + 1, n =>
    match s.seqAt core g q n with
    | .ok e => match seqEntry q.copy e with
      | some (i, _, last) => (queueBit i).any set.getLsbD || (!last && s.seqNames core g q set f (n + 1))
      | none => false
    | .bad _ | .wait => false

/-- Some entry of the queue set that a thread of the set issued or signed has not completed; a complete
meld that waits for room counts, and so does what a program forked by such a thread has still to enter (log 12). -/
def Ctx.queued (x : Ctx) (q : BitVec 6) : Bool :=
  let k := x.s.core x.core
  let slots := x.ls.map x.slotOf
  let mine (e : Entry) : Bool := e.gk == x.g.gk && e.threads.any slots.contains
  (q.getLsbD 0 && (k.mq.any mine || x.g.melds.any fun m =>
    m.opened && m.op.isSome && m.signed.length == m.expect && m.signed.any slots.contains)) ||
  (k.cq.any fun e => q.getLsbD (1 + e.q) && mine e) ||
  (k.seqs.any fun r => r.gk == x.g.gk && !r.finished && r.failed.isNone && r.threads.any slots.contains &&
    x.s.seqNames x.core x.g r q 256 r.idx) ||
  (q.getLsbD 5 && x.s.uncommitted x.g fun t => x.ls.any fun l => (x.th l).tid == t)

/-- FENC.Q with a queue set: it completes when no covered entry is left, else the lanes wait at it. -/
def Ctx.fencQ (x : Ctx) (i : Instr) (q : BitVec 6) : State :=
  if x.queued q then x.waitAt x.s x.ls (.retry i x.s.stepNo)
  else x.done (if q = 0 then x.s else x.s.sync x.core x.g x.slot) fun _ th => th

/-- FENC.Q #set. -/
def execFencQImm (q : BitVec 6) (s : State) : Host.Outcome State Fault Refusal :=
  runWord (.fencQImm q) s fun x => x.fencQ (.fencQImm q) q

/-- FENC.Q sa. -/
def execFencQReg (a : BitVec 6) (s : State) : Host.Outcome State Fault Refusal :=
  runWord (.fencQReg a) s fun x =>
    let v := x.u a.toNat
    if fld v 31 6 ≠ 0 then x.raise Cause.illop else x.fencQ (.fencQReg a) (v.extractLsb' 0 6)

/-! ### Region lists (R179) -/

/-- An entry of a region list. -/
structure Region where
  base : Nat
  len : Nat
  clean : Bool
  inv : Bool
  deriving DecidableEq, Repr

/-- An entry of 16 bytes, if it is well formed. -/
def regionOf (e : Nat) : Option Region :=
  let base := nbits e 51 0
  let len := nbits e 95 64
  if nbits e 63 52 ≠ 0 ∨ nbits e 127 98 ≠ 0 ∨ base % 128 ≠ 0 ∨ len = 0 ∨ len % 128 ≠ 0 ∨
      2 ^ 52 < base + len ∨ (nbit e 96 = false ∧ nbit e 97 = false) then none
  else some ⟨base, len, nbit e 96, nbit e 97⟩

/-- The entries as numbers, from the list's bytes. -/
def chunks16 : List Byte → List Nat
  | b0 :: b1 :: b2 :: b3 :: b4 :: b5 :: b6 :: b7 :: b8 :: b9 :: b10 :: b11 :: b12 :: b13 :: b14 :: b15 :: r =>
      leNat [b0, b1, b2, b3, b4, b5, b6, b7, b8, b9, b10, b11, b12, b13, b14, b15] :: chunks16 r
  | _ => []

/-- Read a region list: none when it is malformed. -/
def State.regionList (s : State) (sp : Space) (die addr : Nat) : Res (Option (List Region)) :=
  (s.loadWords sp die addr 2).andThen fun h =>
    let n := leNat h % 512
    if leNat h / 512 ≠ 0 ∨ 256 < n then .ok none
    else (s.loadWords sp die ((addr + 16) % 2 ^ 64) (2 * n)).andThen fun bs =>
      .ok ((chunks16 bs).mapM regionOf)

/-- The line of edge-ordered memory that a virtual address lies in: none where the address fails translation, and in
lease-domain memory. A part that translates is not skipped for what it permits, nor for what its target would accept
(R179). -/
def State.edgeLineOf (s : State) (sp : Space) (va : Nat) : Res (Option Nat) :=
  if windowRegion ≤ va then .ok none
  else match s.mapped sp va with
    | .ok m => .ok ((s.edgeHome m.pa).map (· / 128))
    | .bad _ => .ok none
    | .wait => .wait

/-- The lines of edge-ordered memory of a region. -/
def State.regionLines (s : State) (sp : Space) (r : Region) : Res (List Nat) :=
  (List.range (r.len / 128)).foldl (fun (acc : Res (List Nat)) i =>
    acc.andThen fun l => (s.edgeLineOf sp (r.base + 128 * i)).andThen fun o => .ok (l ++ o.toList)) (.ok [])

/-- The lines to be cleaned and the lines to be dropped for the entries of a list; a page being moved holds it up
(R321). -/
def State.listLines (s : State) (sp : Space) (rs : List Region) : Res (List Nat × List Nat) :=
  let all (p : Region → Bool) : Res (List Nat) :=
    (rs.filter p).foldl (fun (acc : Res (List Nat)) r =>
      acc.andThen fun l => (s.regionLines sp r).andThen fun m => .ok (l ++ m)) (.ok [])
  (all (·.clean)).andThen fun c => (all (·.inv)).andThen fun i => .ok (c, i)

/-! ### Cleaning and invalidating (R180) -/

/-- Send the dirty bytes of lines of every die to their homes: the state without them, the bytes, and the units among
them that are poisoned (R381). -/
def State.cleanLines (s : State) (lines : List Nat) : State × List (Nat × Byte) × List Nat :=
  let mine := s.edge.filter fun e => lines.contains e.line
  ({ s with edge := s.edge.map fun e => if lines.contains e.line then { e with dirty := [] } else e },
    mine.flatMap EdgeLine.out, mine.flatMap EdgeLine.outBad)

/-- Drop lines of every die: bytes of them on their way, then dirty bytes, first reach the home. -/
def State.dropLines (s : State) (lines : List Nat) : State :=
  let (t, out, bad) := (s.land lines).cleanLines lines
  let t := t.homePut out bad
  { t with edge := t.edge.filter fun e => !lines.contains e.line }

/-- Clean lines and drop lines under an id: the cleaning whose acknowledgement is outstanding, or, with nothing to
write back, all of it at once (false). Bytes of the lines that another cleaning has on their way are waited for too:
cleanings are acknowledged in order. -/
def State.startClean (s : State) (cl inv : List Nat) (id : Nat) : State × Bool :=
  let (t, out, bad) := s.cleanLines (cl ++ inv)
  if out.isEmpty && (s.moving (cl ++ inv)).isEmpty then (t.dropLines inv, false)
  else ({ t with cleans := t.cleans ++ [⟨id, out, bad, inv⟩] }, true)

/-! ### FENC.R (R183, R215) -/

/-- A region fence of lanes completes: it is recorded and sets the sync flag (R363, R365). -/
def Ctx.fenceDone (x : Ctx) (s : State) (list : Nat) : State :=
  (s.recordOf x.core x.g x.slot (.rfence list)).sync x.core x.g x.slot

/-- The region list that a FENC.R has read leaves copies of its lines (R181, R215). -/
def Ctx.listKept (x : Ctx) (addr : Nat) : Ctx :=
  match x.s.loadWords x.space x.die addr 2 with
  | .ok h => { x with s := x.s.touchSpan x.space x.die addr (16 + 16 * min 256 (leNat h % 512)) }
  | .bad _ | .wait => x

/-- FENC.R. -/
def execFencR (a : BitVec 6) (s : State) : Host.Outcome State Fault Refusal :=
  runWord (.fencR a) s fun x =>
    let addr := (x.u64 a.toNat).toNat
    if addr % 16 ≠ 0 then x.raise Cause.align
    else match x.s.regionList x.space x.die addr with
      | .wait => x.stall x.s .other
      | .bad c => x.raise c
      | .ok none => (x.listKept addr).raise Cause.prot
      | .ok (some rs) => match x.s.listLines x.space rs with
        | .wait => x.stall x.s .other
        | .bad c => x.raise c
        | .ok (cl, inv) =>
        let x := x.listKept addr
        let (t, waits) := x.s.bump.startClean cl inv x.s.fresh
        if waits then x.waitAt t x.ls (.fencR x.s.fresh addr)
        else x.fenceDone (x.done t fun _ th => th) addr

/-- The lanes of a core that wait for a cleaning go on; a gang that is stopping leaves its fences unperformed (R215,
R341). -/
def State.fencesResume (s : State) (core id : Nat) : State :=
  ((s.core core).groups.filter fun g => g.stop.isNone).foldl (fun s g =>
    (g.warps.zipIdx).foldl (fun s (w, slot) =>
      let mine := (g.liveLanes w).filterMap fun l =>
        (g.laneThread w l).bind fun t => match t.wait with
          | .fencR i a => if i = id then some (l, t.pc, a) else none
          | _ => none
      match mine with
      | [] => s
      | (_, pc, a) :: _ =>
        let x := s.ctxAt core g slot w (mine.map Prod.fst) pc
        x.fenceDone (s.modGroup core g.gk fun g => g.resume slot 0xFFFFFFFF fun k => match k with
          | .fencR i _ => i == id
          | _ => false) a) s) s

/-- The oldest cleaning is acknowledged: its bytes are at their homes, its lines are dropped, and whoever
waited for it goes on. -/
def execCleanAcknowledgement (s : State) : Host.Outcome State Fault Refusal :=
  match s.cleans with
  | [] => .next s
  | c :: r =>
    let t := (State.homePut { s with cleans := r } c.bytes c.bad).dropLines c.inv
    .next ((t.cores.map Prod.fst).foldl (fun t core => t.fencesResume core c.id) t)

/-! ### FENC.RCOMMIT (R158, R216) -/

/-- FENC.RCOMMIT: the stage step; the token becomes pending, and a recording is abandoned (R367). -/
def execFencRcommit (a b : BitVec 6) (s : State) : Host.Outcome State Fault Refusal :=
  runWord (.fencRcommit a b) s fun x =>
    let img := x.u64 a.toNat
    if img.toNat % 64 ≠ 0 then x.raise Cause.align
    else
      let t := (x.done (x.s.abandon x.g.gang 2) fun _ th => th).pendTok x.core x.g.gk (x.slot, b.toNat)
      { t.emit (.rangeStage img.toNat) with
        commits := t.commits ++ [⟨img, x.g.ctx, x.g.root, x.core, x.g.gk, x.slot, b.toNat, none, none⟩] }

end Sys2Proof.Machine
end

