-- ==== Sys2Proof/Machine/Talon.lean ====
section
/-! DEFINITION. The Talon's directory operations, guards, patch bases, launch decisions, and the start and end
of a recording (spec/15 R354-R363, R368; spec/17 R401, R402). -/

namespace Sys2Proof.Machine

/-! ### Guards and patch bases (R359, R436) -/

/-- Base of a patch slot bound to word w under a lead record. -/
def patchBase (lead : BitVec 1024) (w : Nat) : Nat :=
  if w = 7 then (Rec.arg lead 7).toNat
  else ((Rec.arg lead w).toNat + (Rec.arg lead (w + 1)).toNat * 2 ^ 32) % 2 ^ 52

/-- A die number that holds no L2: the scheduler's accesses to edge-ordered memory are made at the home
(log 15). -/
def schedDie : Nat := 8

/-- Current value of a guard kind in an address space, if it can be read: the words of the context descriptor that it
needs may be poisoned, and the page of a handle table may be unreachable, or being moved, which is waited for (R321,
R359). -/
def State.guardNow (s : State) (ctx kind : Nat) : Res Nat :=
  let k := Config.contextTable + 64 * ctx
  match kind with
  | 1 => if s.poisoned (k + 32) 4 then .bad Cause.dataerr else .ok (nbits (s.ctxDesc ctx) 287 256)
  | 2 => .ok s.rgen.toNat
  | 3 =>
    if s.poisoned (k + 8) 16 then .bad Cause.dataerr
    else (s.loadBytes (s.schedSpace ctx) schedDie (nbits (s.ctxDesc ctx) 179 128) 8).andThen fun r =>
      .ok (nbits (leNat r.2) 63 32)
  | 4 => .ok 0x04
  | _ => .bad Cause.illop

/-- Key of guard k of a tape. -/
def guardKey (g base k : Nat) : Nat := talonKey g (16 * (base + 4) + 8 * k)
/-- Key of patch slot k of a tape. -/
def slotKey (g base k : Nat) : Nat := talonKey g (16 * (base + 8) + 8 * k)

/-- Every guard of a tape has its captured value; a poisoned guard has none (R382, log 101). -/
def State.guardsHold (s : State) (g base ctx : Nat) : Bool :=
  (List.range 8).all fun k =>
    let v := s.num (guardKey g base k) 8
    !s.poisoned (guardKey g base k) 8 && (nbits v 2 0 == 0 || s.guardNow ctx (nbits v 2 0) == .ok (nbits v 63 32))

/-- A guard of a tape cannot be read yet: its page is being moved (R321). -/
def State.guardsWait (s : State) (g base ctx : Nat) : Bool :=
  (List.range 8).any fun k =>
    let kind := nbits (s.num (guardKey g base k) 8) 2 0
    kind != 0 && s.guardNow ctx kind == .wait

/-! ### Directory operations (R357) -/

/-- A tape's space meets that of another tape that is not OFF. -/
def State.tapeClash (s : State) (g n base cap : Nat) : Bool :=
  (List.range 64).any fun m =>
    let d := s.entry g m
    m != n && Dir.state d != 0 && decide (base < Dir.base d + Dir.cap d) && decide (Dir.base d < base + cap)

/-- An arm block with a reserved bit set or a guard kind above 4. -/
def armBad (blk : Nat) : Bool :=
  nbits blk 255 152 != 0 || (List.range 8).any fun k => decide (4 < nbits blk (130 + 3 * k) (128 + 3 * k))

/-- ARM: the state after it and its status. The header is written whole: COUNT and its reserved bits are 0 (R358). -/
def State.armTape (s : State) (g n base cap blk : Nat) : State × Nat :=
  let d := s.entry g n
  if Dir.state d = 2 ∨ Dir.users d ≠ 0 then (s, 1)
  else if base < 64 ∨ cap < 25 ∨ 65536 < base + cap then (s, 2)
  else if s.tapeClash g n base cap then (s, 3)
  else if armBad blk then (s, 4)
  else
    let s := (List.range 4).foldl (fun (s : State) i => s.setEntry g (base + i) 0) s
    let s := (List.range 8).foldl (fun (s : State) k =>
      s.putNum (guardKey g base k) 8 (nbits blk (130 + 3 * k) (128 + 3 * k))) s
    let s := (List.range 32).foldl (fun (s : State) k =>
      s.putNum (slotKey g base k) 8 (nbits blk (4 * k + 3) (4 * k))) s
    (s.setEntry g n (Dir.mk 1 0 0 base cap), 0)

/-- OFF. -/
def State.offTape (s : State) (g n : Nat) : State × Nat :=
  let d := s.entry g n
  if Dir.state d = 2 ∨ Dir.users d ≠ 0 then (s, 1)
  else (s.setDir g n (Dir.withState d 0 (Dir.why d)), 0)

/-- QUERY: the directory record in two halves, the header's COUNT, and 0 (R402). -/
def State.queryTape (s : State) (g n : Nat) : List Nat :=
  let r := s.entry g n
  [r % 2 ^ 32, r / 2 ^ 32 % 2 ^ 32, nbits (s.entry g (Dir.base r)) 31 0, 0]

/-- A directory operation: the state after it and what it returns. -/
def State.tapeDo (s : State) (g n : Nat) (k : TapeKind) : State × List Nat :=
  match k with
  | .arm base cap blk => let (t, v) := s.armTape g n base cap blk.toNat; (t, [v])
  | .off => let (t, v) := s.offTape g n; (t, [v])
  | .query => (s, s.queryTape g n)

/-- The Talon writes what an operation returns into the destination registers of its TAPE (R402). -/
def State.tapeAnswer (s : State) (o : TapeOp) (vs : List Nat) : State :=
  if o.d = goneReg then s
  else s.modWarp o.core o.gk o.wslot fun w =>
    { (vs.zipIdx).foldl (fun (w : Warp) e => { w.setU (o.d + e.2) (BitVec.ofNat 32 e.1) with
        upend := eraseOne w.upend (o.d + e.2) }) w with stalls := w.stalls.filter fun e => e.2 != .token }

/-- A directory operation meets poison in what it reads: the tape's own record; for ARM the records that it compares
spaces with, unless it has failed before that; for QUERY the header's COUNT (R382). -/
def State.tapeLost (s : State) (g n : Nat) (k : TapeKind) : Bool :=
  let d := s.entry g n
  s.dirBad g n || match k with
    | .arm base cap _ => !(Dir.state d == 2 || Dir.users d != 0 || decide (base < 64) || decide (cap < 25) ||
        decide (65536 < base + cap)) && (List.range 64).any (s.dirBad g)
    | .off => false
    | .query => s.poisoned (entryKey g (Dir.base d)) 8

/-- Destination registers of a directory operation (R402). -/
def TapeKind.regs (k : TapeKind) : Nat :=
  match k with
  | .query => 4
  | .arm _ _ _ | .off => 1

/-- A Talon command that meets poison fails with DATAERR through its destination registers, as through tokens (R132,
R382, log 101). -/
def State.tapeFails (s : State) (o : TapeOp) : State :=
  if o.d = goneReg then s
  else (upto o.d o.kind.regs).foldl (fun (s : State) r => s.writeTok o.core o.gk (o.wslot, r) (tokFail Cause.dataerr)) s

/-- The oldest operation that a TAPE has sent to a grove's Talon. -/
def State.tapeHead (s : State) (g : Nat) : Option TapeOp := s.tapeOps.find? fun o => o.grove == g

/-- The oldest operation sent to a grove's Talon is performed, and answered. -/
def State.tapeNext (s : State) (g : Nat) : State :=
  match s.tapeHead g with
  | none => s
  | some o =>
    let s := { s with tapeOps := s.tapeOps.erase o }
    if s.tapeLost g o.tape o.kind then s.tapeFails o
    else
      let (t, vs) := s.tapeDo g o.tape o.kind
      t.tapeAnswer o vs

/-- Every operation sent to a grove's Talon is performed, the oldest first: before a launch decision of the grove, and
before the state of a gang that sent one is saved, whose uniform area then holds the result (R362, R378, R402). -/
def State.tapeDrain (s : State) (g : Nat) : State :=
  (List.range s.tapeOps.length).foldl (fun (s : State) _ => s.tapeNext g) s

/-- A directory operation of a grove's Talon: the one that a TAPE sent, when it is that one's turn. -/
def State.directory (s : State) (g n : Nat) (k : TapeKind) : State :=
  if (s.tapeHead g).any fun o => o.tape == n && o.kind == k then s.tapeNext g
  else if s.tapeLost g n k then s else (s.tapeDo g n k).1

/-- The directory operation ARM. -/
def execArm (grove tape base cap : Nat) (blk : BitVec 256) (s : State) : Host.Outcome State Fault Refusal :=
  .next (s.directory grove (tape % 64) (.arm base cap blk))

/-- The directory operation OFF. -/
def execOff (grove tape : Nat) (s : State) : Host.Outcome State Fault Refusal :=
  .next (s.directory grove (tape % 64) .off)

/-- The directory operation QUERY: it reads the directory record and the header's COUNT. -/
def execQuery (grove tape : Nat) (s : State) : Host.Outcome State Fault Refusal :=
  .next (s.directory grove (tape % 64) .query)

/-! ### TAPE (R401, R402) -/

/-- A TAPE is performed: the operation goes to the grove's Talon, its destination registers become pending, and a
recording of the gang is abandoned (R367). One that raises a cause forms a sub-warp instead. -/
def Ctx.sendTape (x : Ctx) (n d regs : Nat) (k : TapeKind) : State :=
  let s := x.doneW (x.s.abandon x.g.gang 2) fun w => { w with upend := w.upend ++ upto d regs }
  { s with tapeOps := s.tapeOps ++ [⟨x.grove, n, k, x.core, x.g.gk, x.slot, d⟩] }

/-- TAPE.ARM. -/
def execTapeArm (d a b : BitVec 6) (s : State) : Host.Outcome State Fault Refusal :=
  runWord (.tapeArm d a b) s fun x =>
    let addr := (x.u64 a.toNat).toNat
    let n := (x.u b.toNat).toNat
    let w := x.u (b.toNat + 1)
    if 64 ≤ n then x.raise Cause.illop
    else if addr % 32 ≠ 0 then x.raise Cause.align
    else match x.s.loadWords x.space x.die addr 4 with
      | .wait => x.stall x.s .other
      | .bad c => x.raise c
      | .ok bs => ({ x with s := x.s.touchSpan x.space x.die addr 32 } : Ctx).sendTape n d.toNat 1 (.arm (fld w 15 0) (fld w 31 16) (BitVec.ofNat 256 (leNat bs)))

/-- TAPE.OFF. -/
def execTapeOff (d b : BitVec 6) (s : State) : Host.Outcome State Fault Refusal :=
  runWord (.tapeOff d b) s fun x =>
    let n := (x.u b.toNat).toNat
    if 64 ≤ n then x.raise Cause.illop else x.sendTape n d.toNat 1 .off

/-- TAPE.QRY. -/
def execTapeQry (d b : BitVec 6) (s : State) : Host.Outcome State Fault Refusal :=
  runWord (.tapeQry d b) s fun x =>
    let n := (x.u b.toNat).toNat
    if 64 ≤ n then x.raise Cause.illop else x.sendTape n d.toNat 4 .query

/-! ### The launch decision (R361, R362) -/

/-- How a single-unit task runs; `stale` sets TAPESTALE. -/
inductive Launch where
  | normal (stale : Bool)
  | record (stale : Bool)
  | replay
  deriving DecidableEq, Repr

/-- A launch matches a READY tape. -/
def State.tapeMatch (s : State) (g : Nat) (d ctx members : Nat) (lead : BitVec 1024) : Bool :=
  let h := s.entry g (Dir.base d)
  nbits h 47 32 == ctx && nbits h 115 64 == Rec.entry lead && nbits h 49 48 + 1 == members &&
    s.guardsHold g (Dir.base d) ctx

/-- The decision for a task has to wait: a guard that it compares, or that its recording captures, is in a page being moved
(R321, R359, R362). -/
def State.launchWaits (s0 : State) (g ctx : Nat) (lead : BitVec 1024) : Bool :=
  let s := s0.tapeDrain g
  let d := s.entry g (Rec.tape lead)
  (Dir.state d == 3 || (Rec.trec lead && (Dir.state d == 1 || Dir.state d == 4))) && s.guardsWait g (Dir.base d) ctx

/-- What the decision for a task reads in grove g is poisoned, so that its record is held: the directory record, the header
and the guards of a READY tape, and what a recording run takes over (R362, R382, log 101). -/
def State.launchLost (s0 : State) (g : Nat) (lead : BitVec 1024) : Bool :=
  let s := s0.tapeDrain g
  let n := Rec.tape lead
  let d := s.entry g n
  let b := Dir.base d
  let guards := s.poisoned (guardKey g b 0) 64
  let slots := s.poisoned (slotKey g b 0) 256
  s.dirBad g n ||
    (Dir.state d == 3 && (s.poisoned (entryKey g b) 16 || guards || (Rec.trec lead && Dir.users d == 0 && slots))) ||
    (Rec.trec lead && (Dir.state d == 1 || Dir.state d == 4) && (guards || slots))

/-- The decision for a task of `members` gang members in grove g: its outcome, and the directory after it. Directory
operations sent before it are performed first (R362, R378). -/
def State.launch (s0 : State) (g ctx members : Nat) (lead : BitVec 1024) : State × Launch :=
  let s := s0.tapeDrain g
  let n := Rec.tape lead
  let d := s.entry g n
  match Dir.state d with
  | 1 => (s, if Rec.trec lead then .record false else .normal false)
  | 3 =>
    if s.tapeMatch g d ctx members lead then
      if Dir.users d < 255 then (s.setDir g n (Dir.withUsers d (Dir.users d + 1)), .replay)
      else (s, .normal false)
    else if Rec.trec lead then (s, if Dir.users d = 0 then .record true else .normal true)
    else (if Dir.users d = 0 then s.setDir g n (Dir.withState d 4 5) else s, .normal true)
  | 4 => (s, if Rec.trec lead then .record false else .normal false)
  | _ => (s, .normal false)

/-! ### The start and the end of a recording (R363, R368) -/

/-- A recording run starts; reserved bits that software may have stored while the tape was INVALID read as 0 again
(R358). -/
def State.recordStart (s : State) (g ctx members gang task : Nat) (lead : BitVec 1024) : State :=
  let n := Rec.tape lead
  let d := s.entry g n
  let b := Dir.base d
  let s := s.setDir g n (Dir.withState d 2 (Dir.why d))
  let s := s.setEntry g b (ctx * 2 ^ 32 + (members - 1) * 2 ^ 48 + Rec.entry lead * 2 ^ 64)
  let s := ((s.putNum (entryKey g (b + 1) + 8) 8 0).setEntry g (b + 2) 0).setEntry g (b + 3) 0
  let s := (List.range 8).foldl (fun (s : State) k =>
    let v := s.num (guardKey g b k) 8
    match s.guardNow ctx (nbits v 2 0) with
    | .ok x => s.putNum (guardKey g b k) 8 (nbits v 2 0 + x % 2 ^ 32 * 2 ^ 32)
    | .bad _ | .wait => s.putNum (guardKey g b k) 8 (nbits v 2 0 + nbits v 63 32 * 2 ^ 32)) s
  let s := (List.range 32).foldl (fun (s : State) k =>
    let v := s.num (slotKey g b k) 8
    s.putNum (slotKey g b k) 8 (nbits v 3 0 + (if nbit v 3 then patchBase lead (nbits v 2 0) else nbits v 63 12) * 2 ^ 12)) s
  { s with recorders := s.recorders ++ [⟨gang, g, n, task⟩] }

/-- The end of a task's recording has to wait for a guard whose page is being moved (R321). -/
def State.recordWaits (s : State) (ctx task : Nat) : Bool :=
  (s.recorders.find? fun r => r.task == task).any fun r => s.guardsWait r.grove (Dir.base (s.entry r.grove r.tape)) ctx

/-- The task of a recording gang completes: its tape becomes READY, or INVALID when a guard has changed. -/
def State.recordEnd (s : State) (ctx task : Nat) : State :=
  match s.recorders.find? fun r => r.task == task with
  | none => s
  | some r =>
    let d := s.entry r.grove r.tape
    let s := { s with recorders := s.recorders.filter fun q => q.task != task }
    if s.guardsHold r.grove (Dir.base d) ctx then
      (s.putNum (talonKey r.grove (16 * (Dir.base d + 1))) 8 s.ts.toNat).setDir r.grove r.tape
        (Dir.withState d 3 (Dir.why d))
    else s.setDir r.grove r.tape (Dir.withState d 4 4)

end Sys2Proof.Machine
end

