-- ==== Sys2Proof/Machine/Task.lean ====
section
/-! DEFINITION. Queues, jobs and tasks: ENQ, pushes from and to other modules, the check of a record, the
completion of a task, the end of a group, the budget event (spec/11 R262-R271; spec/12 R303, R304; spec/13
R316, R329). -/

namespace Sys2Proof.Machine

/-! ### Queues (R266) -/

/-- Key of queue descriptor q. -/
def queueKey (q : Nat) : Nat := Config.queueTable + 32 * q
/-- Queue descriptor q. -/
def State.queue (s : State) (q : Nat) : Nat := s.num (queueKey q) 32
/-- Slots of the ring. -/
def ringSize (d : Nat) : Nat := 2 ^ (nbits d 55 52 + 4)
/-- The ring lies wholly in device LPDDR, and nowhere in what firmware alone writes (R329; log 72). The reserved bits of the
descriptor, and those of a job entry, are kept as they were written and have no effect: what a nonzero write to them does
is open, and this is the model's choice (log 76); so is the service of a ring whose base is not aligned to 128 bytes, at the
address as it stands (R266, log 100). -/
def ringOk (d : Nat) : Bool :=
  decide (nbits d 51 0 + 128 * ringSize d ≤ lpddrEnd) && !firmwareSpan (nbits d 51 0) (128 * ringSize d)
/-- Key of ring slot n. -/
def ringSlot (d n : Nat) : Nat := nbits d 51 0 + 128 * (n % ringSize d)
/-- Address space of a queue. -/
def queueCtx (d : Nat) : Nat := nbits d 143 128

/-- Emit a record once. -/
def State.emitOnce (s : State) (e : Event) : State := if s.events.contains e then s else s.emit e

/-- The record at the head of a queue is consumed: VALID cleared, HEAD moved on. -/
def State.consume (s : State) (q : Nat) : State :=
  let d := s.queue q
  let head := nbits d 95 64
  (if ringOk d then s.putNum (ringSlot d head) 8 0 else s).putNum (queueKey q + 8) 4 ((head + 1) % 2 ^ 32)

/-- The ring of a queue is full (R266). -/
def State.ringFull (s : State) (q : Nat) : Bool :=
  let d := s.queue q
  decide (ringSize d < (nbits d 127 96 + 1 + 2 ^ 32 - nbits d 95 64) % 2 ^ 32)

/-- Push a record into a local ring: none when it is full. -/
def State.push (s : State) (q : Nat) (record : List Byte) : Option State :=
  let d := s.queue q
  let tail := nbits d 127 96
  if s.ringFull q then none
  else
    let k := ringSlot d tail
    let first := setField (leNat (record.take 8)) 63 63 1
    some (((s.putNum (queueKey q + 12) 4 ((tail + 1) % 2 ^ 32)).put (k + 8) (record.drop 8)).putNum k 8 first)

/-! ### Jobs (R267) -/

/-- Add to OUT of job j of the table at an address, as an atomic: the new value of the entry. -/
def State.jobAdd (s : State) (sp : Space) (die jtab j : Nat) (up : Bool) : Acc Nat :=
  let step (v : Nat) : Nat := (if up then v + 1 else v + (2 ^ 32 - 1)) % 2 ^ 32
  match s.atomBytes sp die ((jtab + 8 * j) % 2 ^ 64) 4 fun v => some (step v) with
  | .ok s v => .ok s (step v)
  | .bad s c => .bad s c
  | .wait => .wait

/-- JTAB of an address space. -/
def State.jtabOf (s : State) (ctx : Nat) : Nat := nbits (s.ctxDesc ctx) 243 192

/-- OUT of a job falls, and a job event goes out when it reaches 0 with NOTE set. A page being moved makes it wait, and
a fault leaves the count as it is: what asked for it is tried again (R321, log 66). -/
def State.jobDone (s : State) (sp : Space) (die jtab j : Nat) : Acc Unit :=
  match s.jobAdd sp die jtab j false with
  | .ok s v =>
    if v ≠ 0 then .ok s ()
    else match s.loadBytes sp die ((jtab + 8 * j + 4) % 2 ^ 64) 4 with
      | .ok (_, bs) => .ok (if nbit (leNat bs) 0 then s.emit (.job sp.ctx j) else s) ()
      | .bad _ | .wait => .ok s ()
  | .bad s c => .bad s c
  | .wait => .wait

/-- OUT of a job of an address space falls on behalf of the scheduler. -/
def State.schedDone (s : State) (ctx j : Nat) : Acc Unit := s.jobDone (s.schedSpace ctx) schedDie (s.jtabOf ctx) j

/-- OUT of the sender's entry of a push falls, through the translation that it was raised by (R267, R316). -/
def State.pushDone (s : State) (p : Push) : Acc Unit := 
  s.jobDone (rootSpace p.ctx p.root) (dieOf p.core) p.jtab (Rec.job p.record)

/-! ### ENQ (R303, R304) -/

/-- The cause of a queue word. -/
def qwordBad (w : Nat) : Bool := nbits w 31 28 != 0 || (!nbit w 9 && nbits w 27 10 != 0)

/-- A push of a record to a local queue, its job counted: the result 0, or 1 when the ring is full. -/
def State.pushLocal (s : State) (sp : Space) (die jtab j q : Nat) (record : List Byte) : State × Nat :=
  match s.push q record with
  | some t => (t, 0)
  | none => match s.jobDone sp die jtab j with
    | .ok t _ => (t, 1)
    | .bad t _ => (t, 1)
    | .wait => (s, 1)

/-- A ring slot lies in memory of attribute 7 or 8: a valid range entry of that format maps it. A ring is reached by
physical address, and what gives its memory an attribute is the model's reading (R304, log 66). -/
def State.slotBlocked (s : State) (q : Nat) : Bool :=
  let k := ringSlot (s.queue q) (nbits (s.queue q) 127 96)
  s.ranges.any fun (_, e) => Range.valid e && blockFmt (Range.fmt e) && decide (Range.pbase e ≤ k) &&
    decide (k < Range.pbase e + (Range.vlimit e - Range.vbase e))

/-- The checks of the queue that a local push names (R266, R304, R382). -/
def State.queueBad (s : State) (ctx q : Nat) : Option Nat :=
  if s.poisoned (queueKey q) 32 then some Cause.dataerr
  else if queueCtx (s.queue q) ≠ ctx ∨ ringOk (s.queue q) = false then some Cause.prot
  else if !s.ringFull q && s.slotBlocked q then some Cause.fmtstore
  else none

/-- A remote push leaves the module: it fails at once where the port it is routed over has lost its link, and it waits
while the port takes no new packet of its class (R328, R386). -/
def Ctx.sendPush (x : Ctx) (s : State) (d : BitVec 7) (l ea w : Nat) (r : BitVec 1024) : LaneRes :=
  let e := nbits w 27 10
  let reg := (x.th l).winbase.toNat * 8 + d.toNat
  let p : Push := ⟨BitVec.ofNat 18 e, nbits w 8 0, r, x.g.ctx, x.g.root, x.g.jtab, x.core, x.g.gk,
    x.slotOf l, reg, x.slot, ea, w, true, none⟩
  if s.routeDown e then (s.pushDone p).lane fun s _ => .ok s (·.setV d.toNat 2) []
  else if s.routePaused e .enqueue then .wait
  else .ok { s.useLink (s.route e) with pushes := s.pushes ++ [p] } (fun th => { th with vpend := reg :: th.vpend }) []

/-- One lane of ENQ. -/
def Ctx.enqLane (x : Ctx) (d a b : BitVec 7) (s : State) (l : Nat) : LaneRes :=
  let ea := (x.v64 a.toNat l).toNat
  let w := (x.v b.toNat l).toNat
  let q := nbits w 8 0
  let sp := { x.space with sup := true }
  if ea % 128 ≠ 0 then .bad s Cause.align
  else (s.loadWords x.space x.die ea 16).lane s fun bs =>
    let s := s.touchSpan x.space x.die ea 128
    if qwordBad w then .bad s Cause.prot
    else match if nbit w 9 then none else s.queueBad x.g.ctx q with
    | some c => .bad s c
    | none =>
      let r := BitVec.ofNat 1024 (leNat bs)
      (s.jobAdd sp x.die x.g.jtab (Rec.job r) true).lane fun s _ =>
        if nbit w 9 then x.sendPush s d l ea w r
        else
          let (s, v) := s.pushLocal sp x.die x.g.jtab (Rec.job r) q bs
          .ok s (·.setV d.toNat (BitVec.ofNat 32 v)) (if v = 0 then [.enq ea w] else [])

/-- ENQ. -/
def execEnq (d a b : BitVec 7) (s : State) : Host.Outcome State Fault Refusal :=
  runWord (.enq d a b) s fun x => x.perLane x.ls .none fun s l => x.enqLane d a b s l

/-- A replay's push is acknowledged: its command is complete, or the replay stops (R371). -/
def State.replayAck (s : State) (g : Group) (accepted : Bool) : State :=
  match s.replays.find? fun r => r.gang == g.gang && r.pushing with
  | none => s
  | some r =>
    let s := s.modReplay r.key fun r => { r with pushing := false }
    if accepted then s.modReplay r.key fun r => { r with e := r.e + 1, nir := true }
    else s.replayFault r.key r.e Cause.prot

/-- The result of a push was written into a pipe register: it is full, and the partner's register has the value (R37). -/
def State.pushFill (s : State) (p : Push) : State :=
  match (s.group? p.core p.gk).bind fun g => (g.warp? p.wslot).map fun w => (g, w) with
  | none => s
  | some (g, w) =>
    match (s.core p.core).pipeAt g p.wslot p.d, indexOf? w.lanes fun o => o == some p.slot with
    | some (q, i), some l => s.pipeFill p.core q p.gk p.wslot i l
    | _, _ => s

/-- The paths of a thread's lane wait for a token or a result no more: one has been written. -/
def Group.answered (g : Group) (slot : Nat) : Group :=
  { g with warps := g.warps.map fun w => if w.lanes.contains (some slot) then
      { w with stalls := w.stalls.filter fun e => e.2 != .token } else w }

/-- The push's issuer learns the result: its register is written, unless the thread has ended or no longer holds it
(R222, R248), and the push is recorded when the receiver took it (R304, R363). -/
def State.pushResult (s : State) (p : Push) (accepted : Bool) : State :=
  match s.group? p.core p.gk with
  | none => s
  | some g =>
    if g.replay then s.replayAck g accepted
    else
    let s := if !p.live then s else (s.modGroup p.core p.gk fun g => (g.modThread p.slot fun th =>
      { th with vr := sset th.vr p.d (if accepted then 0 else 2) 0, vpoison := th.vpoison.filter (· != p.d)
                vpend := eraseOne th.vpend p.d }).answered p.slot).pushFill p
    if accepted then s.recordOf p.core g p.wslot (.enq p.src p.qword) else s

/-- A remote push is acknowledged or refused: the sender's count falls, then the issuer learns of it (R267). While the
count cannot fall, the push keeps its answer, and the count is tried again in every clock (R321, log 66). -/
def State.pushAck (s : State) (p : Push) (accepted : Bool) : State :=
  match State.pushDone { s with pushes := s.pushes.erase p } p with
  | .ok t _ => t.pushResult p accepted
  | .bad _ _ | .wait => { s with pushes := s.pushes.map fun r => if r = p then { p with answer := some accepted } else r }

/-- The pushes that have their answer end, as far as their counts can fall. -/
def State.answeredPushes (s : State) : State :=
  s.pushes.foldl (fun (t : State) p => match p.answer with
    | some a => t.pushAck p a
    | none => t) s

/-- The oldest remote push that awaits its answer is acknowledged or refused. -/
def execPushAcknowledgement (accepted : Bool) (s : State) : Host.Outcome State Fault Refusal :=
  match s.pushes.find? fun p => p.answer.isNone with
  | none => .next s
  | some p => .next (s.pushAck p accepted)

/-! ### The check of a record (R264, R271, R272, R316) -/

/-- A gang table's members and pipes; none when it breaks R271 or R272. -/
def gangTable (lead : BitVec 1024) (t : Nat) (recs : List (BitVec 1024)) : Option (List (BitVec 1024) × List Pipe) :=
  let n := nbits t 1 0
  let np := nbits t 5 2
  let ms := recs.take n
  let pipes := (List.range np).map fun k =>
    let e := nbits t (8 * (0x28 + 8 * k) + 63) (8 * (0x28 + 8 * k))
    (e, ({ gang := 0, k := k, src := nbits e 1 0, dst := nbits e 3 2, fstart := nbits e 13 4,
           tstart := nbits e 23 14, count := nbits e 30 24, maps := [] } : Pipe))
  let vh (m : Nat) : Nat := 8 * (Rec.startOf ((lead :: ms).getD m 0)).vreg
  let regs (p : Pipe) : List (Nat × Nat) :=
    (upto p.fstart p.count).map (fun r => (p.src, r)) ++ (upto p.tstart p.count).map fun r => (p.dst, r)
  let memberOk (r : BitVec 1024) : Bool :=
    Rec.ok r && !Rec.valid r && Rec.gang r == 0 && Rec.gate r == 0 && Rec.signal r == 0 &&
      Rec.job r == Rec.job lead && Rec.warps r == Rec.warps lead && Rec.units r == Rec.units lead &&
      fld r 447 256 == fld lead 447 256 && Rec.tape r == 0 && !Rec.trec r
  let pipeOk (e : Nat) (p : Pipe) : Bool :=
    nbits e 63 31 == 0 && p.src != p.dst && decide (p.src ≤ n) && decide (p.dst ≤ n) && decide (1 ≤ p.count) &&
      decide (p.count ≤ 64) && decide (p.fstart + p.count ≤ vh p.src) && decide (p.tstart + p.count ≤ vh p.dst)
  let all := pipes.flatMap fun e => regs e.2
  if n = 0 ∨ 8 < np ∨ nbits t 127 6 ≠ 0 ∨
      ((List.range n).any fun m => nbits t (128 + 64 * m + 63) (128 + 64 * m + 52) != 0) = true ∨
      ms.all memberOk = false ∨ (pipes.all fun e => pipeOk e.1 e.2) = false ∨
      all.eraseDups.length ≠ all.length then none
  else some (ms, pipes.map Prod.snd)

/-- The gang of a lead record: its member records and pipes, no members for a task that is no gang; none when
the lead is refused. The table is always read whole, 13 words of it, however many members and pipes it declares: how much
of it is read is open, and this is the model's choice (log 87). -/
def State.gangOf (s : State) (ctx : Nat) (lead : BitVec 1024) : Res (Option (List (BitVec 1024) × List Pipe)) :=
  let sp := s.schedSpace ctx
  if Rec.gang lead = 0 then .ok (some ([], []))
  else
    (s.loadWords sp schedDie (Rec.gang lead) 13).andThen fun bs =>
      let t := leNat bs
      let addrs := (List.range (nbits t 1 0)).map fun m => nbits t (128 + 64 * m + 51) (128 + 64 * m)
      if addrs.any fun a => a % 128 != 0 then .ok none
      else (addrs.foldl (fun (acc : Res (List (BitVec 1024))) a =>
        acc.andThen fun l => (s.loadWords sp schedDie a 16).andThen fun bs =>
          .ok (l ++ [BitVec.ofNat 1024 (leNat bs)])) (.ok [])).andThen fun recs => .ok (gangTable lead t recs)

/-- Groups admitted together with one (R233): the unit of the highest level whose domain is below the Rolik
domain. -/
def unitLevel (r : BitVec 1024) : Nat :=
  (List.range (Rec.top r + 1)).foldl (fun h k => if Rec.domain r k < 6 then k else h) 0

/-- Groups of an admission unit. -/
def unitGroups (r : BitVec 1024) : Nat := Rec.fans r (Rec.groupLevel r + 1) (unitLevel r + 1)

/-- Recording and replay apply to the task: one group, or one gang of one group for each member (R361). -/
def singleUnit (r : BitVec 1024) : Bool := Rec.groups r == 1

/-- A record is refused for what R264 and R361 say of it alone. -/
def refused (r : BitVec 1024) : Bool := !Rec.ok r || (Rec.trec r && unitGroups r != Rec.groups r)

/-- A record is refused: its job falls, it is consumed, and an event record goes out. A record whose job cannot fall is
held (log 66). -/
def State.refuse (s : State) (q head ctx : Nat) (r : BitVec 1024) : State :=
  match s.schedDone ctx (Rec.job r) with
  | .ok t _ => (t.consume q).emit (.refuse q head)
  | .bad t _ => t.emitOnce (.hold q head)
  | .wait => s

/-- The scheduler takes the head record of a queue: it is checked, and then a candidate, refused, or held. -/
def State.checkRecord (s : State) (q : Nat) : State :=
  let d := s.queue q
  let head := nbits d 95 64
  let hold : State := s.emitOnce (.hold q head)
  if s.poisoned (queueKey q) 32 then hold
  else if !nbit d 56 || s.tasks.any (fun t => t.q == q && t.index == head && decide (t.next < t.total)) then s
  else if !ringOk d then hold
  else
    let k := ringSlot d head
    if s.poisoned k 128 then hold
    else
      let r := BitVec.ofNat 1024 (s.num k 128)
      let ctx := queueCtx d
      if !Rec.valid r then s
      else if s.poisoned (Config.contextTable + 64 * ctx) 64 || !ctxValid (s.ctxDesc ctx) then hold
      else if refused r then s.refuse q head ctx r
      else match s.gangOf ctx r with
        | .wait => s
        | .bad _ => hold
        | .ok none => s.refuse q head ctx r
        | .ok (some (ms, pipes)) =>
          { s.bump with tasks := s.tasks ++
              [{ key := s.fresh, q := q, index := head, ctx := ctx, lead := r, members := ms, pipes := pipes
                 next := 0, total := Rec.groups r, live := 0, stage := 0, cid := 0 }] }

/-- RECORD_CHECK. -/
def execRecordCheck (q : Nat) (s : State) : Host.Outcome State Fault Refusal :=
  .next (if q < 512 then s.checkRecord q else s)

/-! ### Groups and tasks end (R222, R255, R267, R268) -/

/-- A group of a task has ended or was killed. -/
def State.taskLess (s : State) (key : Option Nat) (n : Nat) : State :=
  { s with tasks := s.tasks.map fun t => if some t.key = key then { t with live := t.live - n } else t }

/-- Engine work of a group is outstanding: queued or saved operations, running sequencers, and primitives that are not
committed (R171, R173, R222). -/
def State.working (s : State) (core : Nat) (g : Group) : Bool :=
  let k := s.core core
  !g.backlog.isEmpty || (k.mq ++ k.cq).any (fun e => e.gk == g.gk) || k.seqs.any (fun q => q.gk == g.gk) ||
    s.uncommitted g fun _ => true

/-- A replay has completed its last command. -/
def Replay.over (r : Replay) (s : State) : Bool :=
  decide (r.count ≤ r.e) && r.open_ == 0 && !r.asked && !r.pushing &&
    !(r.clean.any fun id => s.cleans.any fun c => c.id == id)

/-- A replay lets go of its tape in the Talon store (R372, R374). -/
def State.dropUser (s : State) (r : Replay) : State :=
  match r.store with
  | none => s
  | some (g, n) =>
    let d := s.entry g n
    s.setDir g n (Dir.withUsers d (Dir.users d - 1))

/-- A replay that is complete ends with its gang's groups (R372). -/
def State.replayEnd (s : State) (key : Nat) : State :=
  match s.replays.find? fun r => r.key == key with
  | none => s
  | some r =>
    let gs := (s.core r.core).gangGroups r.gang
    if !r.over s || gs.any fun g => g.stop.isSome then s
    else
      let s := { s.dropUser r with replays := s.replays.filter fun q => q.key != key }
      gs.foldl (fun (s : State) g => (s.leave r.core g.gk true).taskLess g.task 1) s

/-- A group of a task ends when its last thread has exited and its engine work is done. -/
def execGroupEnd (core gk : Nat) (s : State) : Host.Outcome State Fault Refusal :=
  match s.group? core gk with
  | none => .next s
  | some g =>
    if g.replay then
      match s.replays.find? fun r => r.gang == g.gang with
      | some r => .next (s.replayEnd r.key)
      | none => .next s
    else if g.stop.isSome || !g.threads.isEmpty || s.working core g ||
        g.tile.any (fun o => !o.closed && !o.waveDone) then .next s
    else
      let t := (s.leave core gk true).taskLess g.task 1
      .next (match g.tile with | some o => t.emit (.tileEnd o.draw o.tile) | none => t)

/-- An event record of an edge list the scheduler cannot use. -/
def State.edgeFail (s : State) (t : Task) (cause : Word) : State := s.emitOnce (.edge t.q t.index cause)

/-- Change a task. -/
def State.modTask (s : State) (key : Nat) (f : Task → Task) : State :=
  { s with tasks := s.tasks.map fun t => if t.key = key then f t else t }

/-- The regions of a task's outgoing edge: none when the list is malformed (R182). -/
def State.edgeList (s : State) (t : Task) : Res (Option (List Region)) :=
  if Rec.edge t.lead = 0 then .ok (some []) else s.regionList (s.schedSpace t.ctx) schedDie (Rec.edge t.lead)

/-- The task is gone. -/
def State.dropTask (s : State) (key : Nat) : State := { s with tasks := s.tasks.filter fun t => t.key != key }

/-- The completion record crosses, and the completion is counted (R268 step 2); a task without an edge is gone then. A
completion that cannot be counted is tried again (log 66). -/
def State.countTask (s : State) (t : Task) : State :=
  match s.schedDone t.ctx (Rec.job t.lead) with
  | .ok u _ =>
    let u := u.emit (.complete t.q t.index (Rec.job t.lead))
    if Rec.signal t.lead = 0 then u.dropTask t.key else u.modTask t.key fun t => { t with stage := 2 }
  | .bad u _ => u.emitOnce (.hold t.q t.index)
  | .wait => s

/-- A gate or signal word translates to device memory (R268). -/
def State.gateOk (s : State) (sp : Space) (kind : AKind) (a : Nat) : Res Bool :=
  (s.translate sp kind a).andThen fun x => .ok (isLpddr x.key)

/-- Decrement a SIGNAL word (R268 step 4). -/
def State.signalDown (s : State) (t : Task) : State :=
  let sp := s.schedSpace t.ctx
  match s.gateOk sp .atomic (Rec.signal t.lead) with
  | .ok true =>
    match s.atomBytes sp schedDie (Rec.signal t.lead) 4 fun v => some ((v + (2 ^ 32 - 1)) % 2 ^ 32) with
    | .ok s _ => s.dropTask t.key
    | .bad s _ => s.emitOnce (.hold t.q t.index)
    | .wait => s
  | .ok false | .bad _ => s.emitOnce (.hold t.q t.index)
  | .wait => s

/-- Steps 3 and 4 of R268, once the list can be used: bytes of the INV lines that are on their way reach the home before
the lines are dropped (R182). After a list that could not be used has been corrected, its CLEAN regions are not performed
any more: the model's choice (log 98). -/
def State.edgeInv (s : State) (t : Task) : State :=
  match s.edgeList t with
  | .wait => s
  | .bad c => s.edgeFail t (Cause.bit c)
  | .ok none => s.edgeFail t 0
  | .ok (some rs) =>
    match s.listLines (s.schedSpace t.ctx) rs with
    | .ok (_, inv) => (s.dropLines inv).signalDown t
    | .bad _ | .wait => s

/-- Step 1 of R268: the CLEAN regions; a list that cannot be used leaves the edge for later. -/
def State.edgeClean (s : State) (t : Task) : State :=
  match s.edgeList t with
  | .wait => s
  | .bad c => (s.edgeFail t (Cause.bit c)).countTask t
  | .ok none => (s.edgeFail t 0).countTask t
  | .ok (some rs) =>
    match s.listLines (s.schedSpace t.ctx) rs with
    | .bad _ | .wait => s
    | .ok (cl, _) =>
      let (u, waits) := s.bump.startClean cl [] s.fresh
      if waits then u.modTask t.key fun t => { t with stage := 1, cid := s.fresh } else u.countTask t

/-- A task that has ended completes, one stage at a time. -/
def State.completeTask (s : State) (t : Task) : State :=
  match t.stage with
  | 0 => if t.live ≠ 0 ∨ t.next < t.total ∨ s.recordWaits t.ctx t.key = true then s
    else
      let s := s.recordEnd t.ctx t.key
      if Rec.signal t.lead = 0 then s.countTask t else s.edgeClean t
  | 1 => if s.cleans.any fun c => c.id == t.cid then s else s.countTask t
  | _ => s.edgeInv t

/-- TASK_COMPLETION. -/
def execTaskCompletion (task : Nat) (s : State) : Host.Outcome State Fault Refusal :=
  match s.tasks.find? fun t => t.key == task with
  | none => .next s
  | some t => .next (s.completeTask t)

end Sys2Proof.Machine
end

