-- ==== Sys2Proof/Machine/Replay.lean ====
section
/-! DEFINITION. Replay: the commands of a tape, their order, and the steps that perform them (spec/15 R360,
R369-R373). -/

namespace Sys2Proof.Machine

/-! ### The tape of a replay -/

/-- Entry i of the commands of a replay, 128 bits. -/
def Replay.entry (r : Replay) (i : Nat) : Nat := leNat ((r.cmds.drop (16 * (i - r.first))).take 16)

/-- KIND of an entry. -/
def kindOf (e : Nat) : Nat := nbits e 3 0

/-- Patch slot k: bound, word, base at recording. -/
def Replay.patch (r : Replay) (k : Nat) : Bool × Nat × Nat :=
  let v := leNat ((r.header.drop (128 + 8 * k)).take 8)
  (nbit v 3, nbits v 2 0, nbits v 63 12)

/-- An address field under the lead record: none when it is patched by a slot that is not bound. -/
def Replay.addr (r : Replay) (lead : BitVec 1024) (pv : Bool) (slot a : Nat) : Option Nat :=
  if !pv then some a
  else
    let (v, w, rb) := r.patch slot
    if v then some (wrap ((a : Int) - rb + patchBase lead w) 52) else none

/-! ### Commands (R360) -/

/-- A command as a replay reads it: its kind's fields, its FENCE, NI and MEMBER, the entries it takes. -/
structure TapeCmd where
  kind : Nat
  fence : Bool
  ni : Bool
  member : Nat
  /-- the command's own entry -/
  e : Nat
  descs : List Nat
  datas : List Nat
  size : Nat

/-- Entries of a run of a kind from index i on. -/
def Replay.run (r : Replay) (kind : Nat) : (fuel i : Nat) → List Nat
  | 0, _ => []
  | f + 1, i => if i < r.count ∧ kindOf (r.entry i) = kind then r.entry i :: r.run kind f (i + 1) else []

/-- Reserved bits of a DESC entry, or its reserved LAYOUT. -/
def descReserved (e : Nat) : Bool := nbits e 127 124 != 0 || nbits e 11 10 == 3

/-- An OP code of a MEM entry that is assigned. -/
def memOpOk (op : Nat) : Bool :=
  decide (op ≤ 3) || (decide (0x10 ≤ op) && decide (op ≤ 0x1C)) ||
    (decide (0x30 ≤ op) && decide (op ≤ 0x39)) || (decide (0x40 ≤ op) && decide (op ≤ 0x43))

/-- Reserved bits of a command's own entry. -/
def cmdReserved (e : Nat) : Bool :=
  match kindOf e with
  | 2 => nbits e 15 8 != 0 || nbits e 127 53 != 0 || decide (5 ≤ nbits e 52 50)
  | 3 => nbits e 15 14 != 0 || nbits e 79 76 != 0 || nbits e 127 114 != 0 || !memOpOk (nbits e 75 68)
  | 5 => nbits e 15 14 != 0 || nbits e 127 100 != 0
  | 6 => nbit e 4 || nbits e 31 9 != 0 || nbits e 127 64 != 0
  | 7 => nbit e 4 || nbits e 15 14 != 0 || nbits e 127 68 != 0
  | _ => true

/-- The command at index r.e; none for what stops the replay with ILLOP. -/
def Replay.command (r : Replay) : Option TapeCmd :=
  let descs := r.run 1 3 r.e
  let i := r.e + descs.length
  if r.count ≤ i then none
  else
    let e := r.entry i
    let k := kindOf e
    let datas := r.run 4 3 (i + 1)
    let nd := if k = 2 then nbits e 49 48 else 0
    let nx := if k = 3 then nbits e 113 112 else 0
    if cmdReserved e || descs.any descReserved || datas.any (fun d => nbits d 63 4 != 0) ||
        nd != descs.length || nx != datas.length || decide (2 < nd) || decide (2 < nx) then none
    else some ⟨k, nbit e 5, (k == 2 || k == 3 || k == 5) && nbit e 4, nbits e 7 6, e, descs, datas,
      descs.length + 1 + datas.length⟩

/-! ### Progress -/

/-- What performing a command comes to. -/
inductive CmdRes where
  /-- performed, or entered its queue -/
  | done (s : State)
  /-- it waits -/
  | hold (s : State)
  | bad (s : State) (cause : Nat)
  | page (va : Nat)

/-- An access of a command at an address. -/
def Acc.cmd {α : Type} (va : Nat) (a : Acc α) (s : State) (k : State → α → CmdRes) : CmdRes :=
  match a with
  | .ok s v => k s v
  | .bad t c => if c = Cause.page then .page va else .bad t c
  | .wait => .hold s

/-- The lead record of a replaying gang, and the group of a member. -/
def State.replayGroups (s : State) (r : Replay) : List Group := (s.core r.core).gangGroups r.gang

/-- The lead record of a replaying gang (R436). -/
def State.replayLead (s : State) (r : Replay) : BitVec 1024 :=
  (((s.replayGroups r).find? fun g => g.member == 0).map (·.record)).getD 0

/-- The word of an ENG command without its meld and token fields, which a replay ignores (R360). -/
def engWord (w : Word) : Word :=
  let f := Fields.ofWord w
  let f := { f with b := 0x40 }
  (match f.op.toNat with
    | 0x22 | 0x23 => { f with d := f.d &&& 0x0F, m := f.m &&& 0x1E }
    | 0x24 => { f with d := f.d &&& 0x0F, m := f.m &&& 0x0F }
    | _ => f).toWord

/-- Entries of a replay in its core's queues. -/
def State.replayOpen (s : State) (r : Replay) : List Entry :=
  ((s.core r.core).mq ++ (s.core r.core).cq).filter fun e => match e.origin with
    | .replay k _ => k == r.key
    | .lanes _ | .seq _ _ => false

/-- An ENG command whose queue holds every operation that is still open: the queue performs them in order, so that none
that follows a failing one has been performed when the replay stops (R374, R378, log 67). -/
def State.sameQueue (s : State) (r : Replay) (c : TapeCmd) : Bool :=
  c.kind == 2 && match decode (engWord (BitVec.ofNat 32 (nbits c.e 47 16))) with
    | .ok i => (s.replayOpen r).all fun e => copyQueue e.op.instr == copyQueue i
    | .error _ => false

/-- A command may enter (R370). -/
def Replay.mayEnter (r : Replay) (s : State) (c : TapeCmd) : Bool :=
  !r.pushing && !(r.clean.any fun id => s.cleans.any fun c => c.id == id) &&
    (r.open_ == 0 || (!c.fence && s.sameQueue r c))

/-- Bytes of a replay's tape, from its header on, are poisoned: in the Talon store, or as the image held them (R376,
R382). -/
def State.tapeBad (s : State) (r : Replay) (off n : Nat) : Bool :=
  match r.store with
  | some (g, t) => s.poisoned (talonKey g (16 * Dir.base (s.entry g t) + off)) n
  | none => !r.bad.isEmpty && (State.unitsOf off n).any r.bad.contains

/-- Offset of command-area entry i in a tape. -/
def entryOff (i : Nat) : Nat := 384 + 16 * i

/-- The patch slots that a command's address fields name. -/
def TapeCmd.slots (c : TapeCmd) : List Nat :=
  (c.descs.filterMap fun d => if nbit d 4 then some (nbits d 9 5) else none) ++
    if c.kind ∈ [3, 5, 7] ∧ nbit c.e 8 then [nbits c.e 13 9] else []

/-- Entries of a command, or a patch slot it needs, are poisoned (R382). -/
def State.tapePoison (s : State) (r : Replay) (c : TapeCmd) : Bool :=
  s.tapeBad r (entryOff r.e) (16 * c.size) || c.slots.any fun k => s.tapeBad r (128 + 8 * k) 8

/-- Take the outcome of a command into the replay. -/
def State.cmdTake (s : State) (r : Replay) (c : TapeCmd) (x : CmdRes) : State :=
  match x with
  | .done t =>
    (t.modReplay r.key fun q =>
      { q with e := r.e + c.size, nir := q.nir || c.ni, waitOn := none }).replayEnd r.key
  | .hold t => t.modReplay r.key fun q => { q with waitOn := none }
  | .bad t cause => t.replayFault r.key r.e cause
  | .page va =>
    if r.waitOn = some va then s
    else (s.faultRecord r.core (((s.replayGroups r).head?.map (·.ctx)).getD 0) va).modReplay r.key fun q =>
      { q with waitOn := some va }

/-- One step of a replay at a command of a kind: f performs it for its member's group. A command that waits
on a fault is tried every 4096 clocks (R133, R371). -/
def State.replayStep (s : State) (key kind : Nat) (f : Replay → TapeCmd → Group → CmdRes) : State :=
  match s.replays.find? fun r => r.key == key with
  | none => s
  | some r =>
    let gs := s.replayGroups r
    if gs.isEmpty || gs.any (fun g => g.stop.isSome || !g.backlog.isEmpty || !g.planeLoads.isEmpty) ||
        decide (r.count ≤ r.e) || (r.waitOn.isSome && s.clk % 4096 != 0) then s
    else match r.command with
      | none => s.replayFault key r.e (if s.tapeBad r (entryOff r.e) 16 then Cause.dataerr else Cause.illop)
      | some c =>
        if c.kind ≠ kind ∨ r.mayEnter s c = false then s
        else if s.tapePoison r c then s.replayFault key r.e Cause.dataerr
        else match gs.find? fun g => g.member == c.member with
          | none => s.replayFault key r.e Cause.illop
          | some g => s.cmdTake r c (f r c g)

/-! ### ENG (R371) -/

/-- A DESC entry as a descriptor. -/
def descOf (r : Replay) (lead : BitVec 1024) (e : Nat) : Option Desc :=
  (r.addr lead (nbit e 4) (nbits e 9 5) (nbits e 67 16)).map fun b =>
    Dsc.mk b (nbits e 11 10) (nbits e 15 12) (nbits e 79 68) (nbits e 91 80) (nbits e 115 92) (nbits e 123 116)

/-- The operation of an ENG command: none when its word is no engine operation or its descriptors do not fit
it. -/
def engOp (r : Replay) (lead : BitVec 1024) (c : TapeCmd) : Option Op :=
  match decode (engWord (BitVec.ofNat 32 (nbits c.e 47 16))), c.descs.mapM (descOf r lead) with
  | .ok i, some ds =>
    let o : Op := ⟨i, ds.getD 0 0, ds.getD 1 0⟩
    let engine : Bool := match i with
      | .ldw _ _ _ | .ldwSwap _ _ | .mstr _ _ _ _ _ _ | .accZ _ _ _ | .accRd _ _ _ _ | .accWr _ _ _ _
      | .acpy _ _ _ _ _ => true
      | _ => false
    if engine && o.descs.length == ds.length then some o else none
  | _, _ => none

/-- Perform an ENG command: its checks at issue, then its queue. -/
def State.engPerform (s : State) (r : Replay) (c : TapeCmd) (g : Group) : CmdRes :=
  match engOp r (s.replayLead r) c with
  | none => .bad s Cause.illop
  | some o =>
    if o.descs.any fun d => !Dsc.ok d then .bad s Cause.illop
    else match s.opCheck r.core g o with
      | some cause => .bad s cause
      | none =>
        if (s.core r.core).full o.instr then .hold s
        else .done ((s.enter r.core g (g.entryOf o [] (.replay r.key r.e) false [])).modReplay r.key fun q =>
          { q with open_ := q.open_ + 1 })

/-- ENG_COMMAND. -/
def execEngCommand (replay : Nat) (s : State) : Host.Outcome State Fault Refusal :=
  .next (s.replayStep replay 2 fun r c g => s.engPerform r c g)

/-! ### MEM (R371) -/

/-- An atomic operation of a code. -/
def atomOfCode (c : Nat) : AtomOp :=
  [.add, .and, .or, .xor, .exch, .cas, .minS, .minZ, .maxS, .maxZ, .fadd, .fmin, .fmax].getD c .add

/-- A FUT form of a code. -/
def futOfCode (c : Nat) : FutOp := [.fill, .take, .clr, .wait].getD (c - 0x40) .fill

/-- Perform a MEM command. -/
def State.memPerform (s : State) (r : Replay) (c : TapeCmd) (g : Group) : CmdRes :=
  let sp := g.space r.core g.sup
  let die := dieOf r.core
  let op := nbits c.e 75 68
  let data := nbits c.e 111 80
  let x (k : Nat) : Nat := nbits (c.datas.getD k 0) 127 64
  match r.addr (s.replayLead r) (nbit c.e 8) (nbits c.e 13 9) (nbits c.e 67 16) with
  | none => .bad s Cause.illop
  | some ea =>
    if op ≤ 3 then
      let n := 2 ^ op
      if op = 3 ∧ c.datas.isEmpty then .bad s Cause.illop
      else if ea % n ≠ 0 then .bad s Cause.align
      else (s.storeBytes sp die ea (leBytes n (if op = 3 then x 0 else data))).cmd ea s fun s _ => .done s
    else if op < 0x40 then
      let w64 := decide (0x30 ≤ op)
      let f := atomOfCode (op % 16)
      let n := if w64 then 8 else 4
      let need := (if w64 then 1 else 0) + (if f = .cas then 1 else 0)
      let v := if w64 then x 0 else data
      let new := if w64 then x 1 else x 0 % 2 ^ 32
      if c.datas.length < need then .bad s Cause.illop
      else if ea % n ≠ 0 then .bad s Cause.align
      else (s.atomBytes sp die ea n fun old => some (atomNew f (8 * n) old v new)).cmd ea s fun s _ => .done s
    else
      let f := futOfCode op
      (s.futTry sp die ea f data).cmd ea s fun t (full, _) =>
        match f with
        | .fill | .clr => .done t
        | .take | .wait => if full then .done t else .hold t

/-- MEM_COMMAND. -/
def execMemCommand (replay : Nat) (s : State) : Host.Outcome State Fault Refusal :=
  .next (s.replayStep replay 3 fun r c g => s.memPerform r c g)

/-! ### ENQ (R371) -/

/-- Perform an ENQ command: one lane of R304; a full ring is tried again, a remote push waits for its
acknowledgement. -/
def State.enqPerform (s : State) (r : Replay) (c : TapeCmd) (g : Group) : CmdRes :=
  let die := dieOf r.core
  let w := nbits c.e 99 68
  let q := nbits w 8 0
  match r.addr (s.replayLead r) (nbit c.e 8) (nbits c.e 13 9) (nbits c.e 67 16) with
  | none => .bad s Cause.illop
  | some ea =>
    if ea % 128 ≠ 0 then .bad s Cause.align
    else match s.loadWords (g.space r.core g.sup) die ea 16 with
      | .wait => .hold s
      | .bad cause => if cause = Cause.page then .page ea else .bad s cause
      | .ok bs =>
        if qwordBad w then .bad s Cause.prot
        else match if nbit w 9 then none else s.queueBad g.ctx q with
        | some cause => .bad s cause
        | none =>
          let rec_ := BitVec.ofNat 1024 (leNat bs)
          (s.jobAdd (g.space r.core true) die g.jtab (Rec.job rec_) true).cmd (g.jtab + 8 * Rec.job rec_) s fun t _ =>
            if nbit w 9 then
              let push : Push := ⟨BitVec.ofNat 18 (nbits w 27 10), q, rec_, g.ctx, g.root,
                g.jtab, r.core, g.gk, 0, 0, 0, ea, w, true, none⟩
              if t.routeDown push.endpoint.toNat then
                match t.pushDone push with
                | .ok u _ => .bad u Cause.prot
                | .bad _ _ | .wait => .hold s
              else if t.routePaused push.endpoint.toNat .enqueue then .hold s
              else .hold (State.modReplay { t.useLink (t.route push.endpoint.toNat) with pushes := t.pushes ++ [push] } r.key fun p =>
                { p with pushing := true })
            else
              let (t, v) := t.pushLocal (g.space r.core true) die g.jtab (Rec.job rec_) q bs
              if v = 0 then .done t else .hold t

/-- ENQ_COMMAND. -/
def execEnqCommand (replay : Nat) (s : State) : Host.Outcome State Fault Refusal :=
  .next (s.replayStep replay 5 fun r c g => s.enqPerform r c g)

/-! ### BANK (R371) -/

/-- What happens on behalf of a group that no thread of it issues. -/
def State.groupCtx (s : State) (core : Nat) (g : Group) : Ctx := ⟨s, core, g, 0, g.warps.headD (Warp.new 0 [] 0), 0, 0⟩

/-- Perform a BANK command: an acquire waits in the Banker as a blocking request, a release returns at once. -/
def State.bankPerform (s : State) (r : Replay) (c : TapeCmd) (g : Group) : CmdRes :=
  let word := nbits c.e 63 32
  match Hold.ofWord word with
  | none => .bad s Cause.illop
  | some h =>
    if nbit c.e 8 then
      match (s.groupCtx r.core g).relCause h with
      | some cause => .bad s cause
      | none => .done (s.giveBack r.core g h)
    else if r.asked then .hold s
    else match s.judge r.core g h with
      | 0 => .done (s.grantTo r.core g.gk h)
      | 3 => .bad s Cause.claim
      | _ => .hold ((s.modCore r.core fun k =>
          { k with reqs := k.reqs ++ [⟨g.gk, 0, 0, BitVec.ofNat 32 word, s.clk, false, false⟩] }).modReplay r.key fun q =>
            { q with asked := true })

/-- BANK_COMMAND. -/
def execBankCommand (replay : Nat) (s : State) : Host.Outcome State Fault Refusal :=
  .next (s.replayStep replay 6 fun r c g => s.bankPerform r c g)

/-! ### RFENCE (R371) -/

/-- The address of the first word of n from an address on that fails with PAGE. -/
def State.pageWord (s : State) (sp : Space) (addr n : Nat) : Option Nat :=
  ((List.range n).map fun i => (addr + 8 * i) % 2 ^ 64).find? fun a =>
    match s.translate sp .load a with
    | .bad c => c == Cause.page
    | .ok _ | .wait => false

/-- The word of a region list that its read faults at with PAGE: in the count, or in the entries it gives (R183). -/
def State.listFault (s : State) (sp : Space) (die addr : Nat) : Nat :=
  match s.pageWord sp addr 2, s.loadWords sp die addr 2 with
  | some a, _ => a
  | none, .ok h => (s.pageWord sp (addr + 16) (2 * (leNat h % 512))).getD addr
  | none, .bad _ | none, .wait => addr

/-- Perform an RFENCE command: a list that is not mapped names the word its read faults at (R342, R371). -/
def State.rfencePerform (s : State) (r : Replay) (c : TapeCmd) (g : Group) : CmdRes :=
  let sp := g.space r.core g.sup
  match r.addr (s.replayLead r) (nbit c.e 8) (nbits c.e 13 9) (nbits c.e 67 16) with
  | none => .bad s Cause.illop
  | some a =>
    if a % 16 ≠ 0 then .bad s Cause.align
    else match s.regionList sp (dieOf r.core) a with
      | .wait => .hold s
      | .bad cause => if cause = Cause.page then .page (s.listFault sp (dieOf r.core) a) else .bad s cause
      | .ok none => .bad s Cause.prot
      | .ok (some rs) => match s.listLines sp rs with
        | .wait => .hold s
        | .bad cause => .bad s cause
        | .ok (cl, inv) =>
        let (t, waits) := s.bump.startClean cl inv s.fresh
        .done (if waits then t.modReplay r.key fun q => { q with clean := some s.fresh } else t)

/-- RFENCE_COMMAND. -/
def execRfenceCommand (replay : Nat) (s : State) : Host.Outcome State Fault Refusal :=
  .next (s.replayStep replay 7 fun r c g => s.rfencePerform r c g)

end Sys2Proof.Machine
end

