-- ==== Sys2Proof/Machine/Save.lean ====
section
/-! DEFINITION. The context image: its layout, and the areas a gang's state is written to (spec/02 R56-R58;
spec/14 R344-R347, R350; spec/15 R374, R375). -/

namespace Sys2Proof.Machine

/-! ### Slots of the image pool (R344, R419) -/

/-- Key of byte `off` of image slot n. -/
def imgKey (n off : Nat) : Nat := Config.poolBase + n * 2 ^ 23 + off

/-- A slot is free when the first 8 bytes of its header are zero. -/
def State.slotFree (s : State) (n : Nat) : Bool := s.num (imgKey n 0) 8 == 0

/-- The free slots. -/
def State.freeSlots (s : State) : List Nat := (List.range Config.poolSlots).filter s.slotFree

/-! ### Areas (R345) -/

/-- An area of an image: class, member, units, bytes, and the byte offsets of poisoned parts. -/
structure Area where
  cls : Nat
  member : Nat
  units : Nat
  bytes : List Byte
  bad : List Nat

/-- Bytes cut or filled with zeros to a length. -/
def sized (n : Nat) (bs : List Byte) : List Byte := (bs ++ List.replicate (n - bs.length) 0).take n

/-- A number of bytes rounded up to a multiple. -/
def roundUp (n k : Nat) : Nat := (n + k - 1) / k * k

/-- Byte offsets of areas laid out one after the other, 256-aligned. -/
def areaOffsets : (at_ : Nat) → List Area → List (Nat × Area)
  | _, [] => []
  | p, a :: r => (p, a) :: areaOffsets (roundUp (p + a.bytes.length) 256) r

/-- A directory entry. -/
def dirEntry (off : Nat) (a : Area) : Nat :=
  a.cls + a.member * 2 ^ 8 + a.units * 2 ^ 16 + off * 2 ^ 32 + a.bytes.length * 2 ^ 64

/-! ### What each class holds (R56, R346) -/

/-- The thread of a slot, or a thread of zeros. -/
def Group.threadAt (g : Group) (t : Nat) : Thread := (sfind g.threads t).getD Thread.absent

/-- Thread slots of a group. -/
def Group.slotCount (g : Group) : Nat := 32 * g.warps.length

/-- Class 0x01: lane l of unit w is thread slot 32w + l (log 31). -/
def Group.areaVector (g : Group) (m : Nat) : Area :=
  let cells := (List.range g.warps.length).flatMap fun w => (List.range g.vh).flatMap fun n =>
    (List.range 32).map fun l => (32 * w + l, n)
  { cls := 0x01, member := m, units := g.warps.length
    bytes := cells.flatMap fun (t, n) => leBytes 4 (sget (g.threadAt t).vr n 0).toNat
    bad := (cells.zipIdx.filter fun ((t, n), _) => (g.threadAt t).vpoison.contains n).map fun e => 4 * e.2 }

/-- Class 0x02. -/
def Group.areaUniform (g : Group) (m : Nat) : Area :=
  let cells := g.warps.flatMap fun w => (List.range g.uh).map fun n => (w, n)
  { cls := 0x02, member := m, units := g.warps.length
    bytes := cells.flatMap fun (w, n) => leBytes 4 (w.u n).toNat
    bad := (cells.zipIdx.filter fun ((w, n), _) => w.upoison.contains n).map fun e => 4 * e.2 }

/-- Class 0x03. -/
def Group.areaPred (g : Group) (m : Nat) : Area :=
  { cls := 0x03, member := m, units := g.warps.length
    bytes := (List.range g.warps.length).flatMap fun w => (List.range 16).flatMap fun n =>
      leBytes 4 (if n = 0 then 2 ^ 32 - 1
        else (maskOf ((List.range 32).filter fun l => (g.threadAt (32 * w + l)).pr.getLsbD n)).toNat)
    bad := [] }

/-- Class 0x04. -/
def Group.areaTile (g : Group) (m : Nat) : Area :=
  { cls := 0x04, member := m, units := g.warps.length
    bytes := g.warps.flatMap fun w => (List.range 32).flatMap fun n => leBytes 16 (w.t n).toNat
    bad := [] }

/-- The accumulators whose tokens a group holds; the Talon holds those of a replaying gang's slots (R369). -/
def Core.heldAccs (k : Core) (g : Group) : List Nat :=
  if g.replay then (List.range 16).filter fun a => g.slots.contains (a / 4)
  else (k.owner.filter fun e => e.2 == g.gk).map Prod.fst

/-- Class 0x05. -/
def Core.areaAcc (k : Core) (g : Group) (m : Nat) : Area :=
  let accs := k.heldAccs g
  { cls := 0x05, member := m, units := accs.length
    bytes := accs.flatMap fun a => leBytes 16 a ++
      (List.range 4096).flatMap fun i => leBytes 4 (sget k.acc (4096 * a + i) 0).toNat
    bad := (accs.zipIdx).flatMap fun (a, n) =>
      (k.apoison.filter fun p => p / 4096 == a).map fun p => n * 16400 + 16 + p % 4096 * 4 }

/-- A thread record. -/
def Thread.recordNum (th : Thread) : Nat :=
  th.pc.toNat + th.tid.toNat * 2 ^ 64 + th.winbase.toNat * 2 ^ 96 + th.rmode.toNat * 2 ^ 104 +
    th.fpstat.toNat * 2 ^ 112

/-- Class 0x06: unit t is thread slot t, zeros for a free one. -/
def Group.areaThread (g : Group) (m : Nat) : Area :=
  { cls := 0x06, member := m, units := g.slotCount
    bytes := (List.range g.slotCount).flatMap fun t =>
      leBytes 32 (match sfind g.threads t with | some th => th.recordNum | none => 0)
    bad := [] }

/-- The mapped pipe registers of a member: register, warp slot, full lanes. -/
def Core.pipeRegs (k : Core) (g : Group) : List (Nat × Nat × Mask) :=
  ((k.pipesOf g.gang).filter fun q => q.ends g.member).flatMap fun q =>
    q.maps.flatMap fun (w, full) => (List.range q.count).map fun i =>
      ((if q.src = g.member then q.fstart else q.tstart) + i, w, sget full i 0)

/-- Class 0x07. -/
def Core.areaPipe (k : Core) (g : Group) (m : Nat) : Area :=
  let rs := k.pipeRegs g
  { cls := 0x07, member := m, units := rs.length
    bytes := rs.flatMap fun (r, w, full) => leBytes 4 (r + w * 2 ^ 10) ++ leBytes 4 full.toNat
    bad := [] }

/-- Class 0x08 of a group: the record as admitted with VALID clear, and what the core holds for it. -/
def State.areaGroup (s : State) (core : Nat) (g : Group) (m : Nat) : Area :=
  let k := s.core core
  let plane (shadow : Bool) (p : Option Plane) : Option Desc :=
    if !g.slots.contains 0 then none
    else match g.planeLoads.find? fun e => e.1 == shadow with
      | some (_, d, _) => some d
      | none => p.map (·.desc)
  let act := plane false k.act
  let shd := plane true k.shd
  let desc (p : Option Desc) : Nat := (p.map fun d => d.toNat).getD 0
  let own : Nat := match g.tile with
    | some o => if o.closed then o.tile else o.tile + 2 ^ 16 + (if o.final then 0 else 2 ^ 17)
    | none => 0
  let draw : Nat := (g.tile.map (·.addr)).getD 0
  let toks := (k.heldAccs g).foldl (fun n a => n + 2 ^ a) 0
  { cls := 0x08, member := m, units := 1
    bytes := sized 256 (leBytes 128 (setField g.record.toNat 63 63 0) ++ leBytes 4 g.gid.toNat ++
      leBytes 4 g.spawnCount.toNat ++ leBytes 4 g.budget ++ leBytes 4 own ++ leBytes 8 draw ++ leBytes 8 toks ++
      leBytes 16 (desc act) ++ leBytes 16 (desc shd) ++
      leBytes 4 ((if act.isSome then 1 else 0) + if shd.isSome then 2 else 0) ++
      leBytes 4 (g.slots.foldl (fun n q => n + 2 ^ q) 0))
    bad := [] }

/-- Class 0x08 of a member that has ended: its record and nothing else. -/
def endedGroup (record : BitVec 1024) (m : Nat) : Area :=
  { cls := 0x08, member := m, units := 1, bytes := sized 256 (leBytes 128 (setField record.toNat 63 63 0)), bad := [] }

/-- A warp record. -/
def Group.warpBytes (g : Group) (w : Warp) : List Byte :=
  let lane (l : Nat) : Nat := match w.tslot l with
    | some t => if (sfind g.threads t).isSome then t else 0xFFFF
    | none => 0xFFFF
  let arrived := maskOf ((g.liveLanes w).filter fun l => (g.laneThread w l).any fun th => th.wait.barLevel.isSome)
  sized 128 ((List.range 32).flatMap (fun l => leBytes 2 (lane l)) ++ leBytes 4 w.cause.toNat ++
    leBytes 4 w.trapmask.toNat ++ leBytes 4 w.age.toNat ++ leBytes 4 arrived.toNat ++
    leBytes 8 ((w.cap.getD 0).toNat) ++ leBytes 8 (if w.cap.isSome then 1 else 0)) ++
  (List.range 32).flatMap fun l => leBytes 2 (sget w.ages l 0)

/-- Class 0x09. -/
def Group.areaWarp (g : Group) (m : Nat) : Area :=
  { cls := 0x09, member := m, units := g.warps.length, bytes := g.warps.flatMap g.warpBytes, bad := [] }

/-- Class 0x0A: the sub-warps in the order they formed. -/
def Group.areaSub (g : Group) (m : Nat) : Area :=
  let subs := g.warps.zipIdx.flatMap fun (w, i) => w.subs.map fun b => (b, i)
  { cls := 0x0A, member := m, units := subs.length
    bytes := subs.flatMap fun (b, i) => leBytes 4 b.lanes.toNat ++ leBytes 4 b.cause.toNat ++
      leBytes 8 (b.pc.toNat + i * 2 ^ 52 + (if b.begun then 2 ^ 57 else 0))
    bad := [] }

/-- Class 0x0B. -/
def State.areaStore (s : State) (core : Nat) (g : Group) (m : Nat) : Area :=
  { cls := 0x0B, member := m, units := g.pages.length
    bytes := g.pages.flatMap fun p => s.bytes (lsKey core (4096 * p)) 4096
    bad := g.pages.zipIdx.flatMap fun (p, i) =>
      ((List.range 512).filter fun u => s.poisoned (lsKey core (4096 * p) + 8 * u) 8).map fun u => 4096 * i + 8 * u }

/-- Class 0x0C. -/
def Core.areaTag (k : Core) (g : Group) (m : Nat) : Area :=
  { cls := 0x0C, member := m, units := g.pages.length
    bytes := g.pages.flatMap fun p => leBytes 8 (sget k.tags p 0).toNat
    bad := (g.pages.zipIdx.filter fun e => k.tpoison.contains e.1).map fun e => 8 * e.2 }

/-- A token set: 8 bytes for each of 32 warp slots. -/
def tokBytes (toks : List Tok) : List Byte :=
  (List.range 32).flatMap fun w => leBytes 8 ((toks.filter fun t => t.1 == w).foldl (fun n t => n ||| 2 ^ t.2) 0)

/-- The word of an engine operation. -/
def Op.word (o : Op) : Nat := ((encode o.instr).getD 0).toNat

/-- A meld record. -/
def Meld.bytes (m : Meld) : List Byte :=
  let word := if m.opened then
      m.signed.length + m.expect * 2 ^ 11 + (if m.op.isSome then 2 ^ 22 else 0) + 2 ^ 31 else 0
  let set := (m.signed.filter (· != noThread)).foldl (fun n t => n ||| 2 ^ t) 0
  sized 64 (leBytes 4 word ++ leBytes 4 ((m.op.map Op.word).getD 0) ++
    leBytes 16 ((m.op.map fun o => o.desc.toNat).getD 0) ++ leBytes 16 ((m.op.map fun o => o.src.toNat).getD 0)) ++
  leBytes 128 set ++ tokBytes m.toks

/-- Class 0x0D. -/
def Group.areaMeld (g : Group) (m : Nat) : Area :=
  { cls := 0x0D, member := m, units := g.melds.length, bytes := g.melds.flatMap Meld.bytes, bad := [] }

/-- Class 0x0E. -/
def areaMatrix (es : List Entry) (m : Nat) : Area :=
  { cls := 0x0E, member := m, units := es.length
    bytes := es.flatMap fun e => sized 64 (leBytes 8 e.op.word ++ leBytes 16 e.op.desc.toNat ++
      leBytes 8 (if e.melded then 1 else 0)) ++ tokBytes e.toks
    bad := [] }

/-- The token and warp slot fields of a copy entry or a sequencer; a token whose register was released is saved as
none (R248). -/
def tokField (tok : Option Tok) (slot : Nat) : Nat :=
  match tok.filter fun t => t.2 != goneReg with
  | some (w, r) => r + w * 2 ^ 6
  | none => slot * 2 ^ 6 + 2 ^ 12

/-- The warp slot an entry was issued from. -/
def Entry.wslot (e : Entry) : Nat :=
  match e.origin with
  | .lanes ((w, _) :: _) => w
  | _ => 0

/-- Class 0x0F. -/
def areaCopy (es : List Entry) (m : Nat) : Area :=
  { cls := 0x0F, member := m, units := es.length
    bytes := es.flatMap fun e => sized 64 (leBytes 8 e.op.word ++ leBytes 16 e.op.desc.toNat ++
      leBytes 16 e.op.src.toNat ++ leBytes 8 e.done ++ leBytes 4 (tokField e.toks.head? e.wslot))
    bad := [] }

/-- Performances of a sequencer's current entry still to be made, minus 1. -/
def State.seqLeft (s : State) (core : Nat) (g : Group) (q : Seq) : Nat :=
  match q.rep with
  | some n => n - 1
  | none => match s.seqRead core g q q.idx with
    | .ok e => nbits e 47 32
    | .bad _ | .wait => 0

/-- Class 0x10; a sequencer that has finished, and waits for its partner, is saved as not running. -/
def State.areaSeq (s : State) (core : Nat) (g : Group) (qs : List Seq) (m : Nat) : Area :=
  { cls := 0x10, member := m, units := qs.length
    bytes := qs.flatMap fun q => leBytes 4 q.off ++ leBytes 2 q.idx ++ leBytes 2 (s.seqLeft core g q) ++
      leBytes 4 ((if q.copy then 0 else 1) + (if q.finished then 0 else 2) + (if q.atRdv.isSome then 4 else 0)) ++
      leBytes 4 q.wslot ++ (List.range 8).flatMap (fun n => leBytes 1 (g.arrivals n).length) ++
      leBytes 4 (tokField (q.tok.map fun t => (q.wslot, t)) q.wslot) ++ leBytes 4 q.w
    bad := [] }

/-- Class 0x11. -/
def areaBin (bs : List Bin) (m : Nat) : Area :=
  { cls := 0x11, member := m, units := bs.length
    bytes := bs.flatMap fun b =>
      let ts := b.threads.flatMap fun t => leBytes 2 t.1
      leBytes 8 (if b.idx.isNone then 2 ^ 52 else b.pc.toNat) ++ leBytes 4 b.timer ++ leBytes 4 b.threads.length ++
        sized (roundUp ts.length 16) ts
    bad := [] }

/-- Class 0x12, with the commands from index e on; the poison of the tape moves with it (R381). -/
def State.areaTape (s : State) (r : Replay) (e : Nat) (m : Nat) : Area :=
  let body := sized 384 r.header ++ r.cmds.drop (16 * (e - r.first))
  let at_ (b : Nat) : Nat := if b < 384 then b else b + 16 * e
  { cls := 0x12, member := m, units := 1
    bytes := sized 64 (leBytes 4 e ++ leBytes 4 r.count ++ leBytes 4 (if r.nir then 1 else 0)) ++ body
    bad := ((List.range (body.length / 8)).filter fun u => s.tapeBad r (at_ (8 * u)) 8).map fun u => 64 + 8 * u }

/-! ### The areas of a member and of a gang (R347, R374) -/

/-- The queued entries of a member in queue order: matrix entries, then copy entries. -/
def Core.entriesOf (k : Core) (g : Group) : List Entry :=
  k.mq.filter (fun e => e.gk == g.gk) ++ k.cq.filter (fun e => e.gk == g.gk) ++ g.backlog

/-- A queued entry is of the matrix queue. -/
def Entry.isMatrix (e : Entry) : Bool := (copyQueue e.op.instr).isNone

/-- The areas of a resident member of a gang that runs threads. -/
def State.areasOf (s : State) (core : Nat) (g : Group) : List Area :=
  let k := s.core core
  let m := g.member
  let es := k.entriesOf g
  [g.areaVector m, g.areaUniform m, g.areaPred m, g.areaTile m, k.areaAcc g m, g.areaThread m, k.areaPipe g m,
    s.areaGroup core g m, g.areaWarp m, g.areaSub m, s.areaStore core g m, k.areaTag g m, g.areaMeld m,
    areaMatrix (es.filter Entry.isMatrix) m, areaCopy (es.filter fun e => !e.isMatrix) m,
    s.areaSeq core g (k.seqs.filter fun q => q.gk == g.gk) m, areaBin (k.bins.filter fun b => b.gk == g.gk) m]

/-- An entry that a resume image saves: not one of a command that the image's commands hold again, because it follows a
command that failed at its engine (R374, log 67). -/
def Replay.saves (r : Replay) (e : Entry) : Bool :=
  match e.origin with
  | .replay _ i => decide (i < r.e)
  | .lanes _ | .seq _ _ => true

/-- The areas of a member of a replaying gang: a restart image while NIR is clear, a resume image after. -/
def State.areasReplay (s : State) (core : Nat) (g : Group) (r : Replay) : List Area :=
  let k := s.core core
  let m := g.member
  let es := (k.entriesOf g).filter r.saves
  if r.nir then [k.areaAcc g m, s.areaGroup core g m, s.areaStore core g m, k.areaTag g m,
    areaMatrix (es.filter Entry.isMatrix) m, areaCopy (es.filter fun e => !e.isMatrix) m]
  else [s.areaGroup core g m]

/-- Members of a gang, ended ones included. -/
def State.gangSize (s : State) (gs : List Group) : Nat :=
  match (gs.head?.bind fun g => g.task).bind fun t => s.tasks.find? fun x => x.key == t with
  | some t => t.members.length + 1
  | none => gs.foldl (fun n g => max n (g.member + 1)) 1

/-- The record of a member of a gang. -/
def State.memberRecord (s : State) (gs : List Group) (m : Nat) : BitVec 1024 :=
  match gs.find? fun g => g.member == m with
  | some g => g.record
  | none => match (gs.head?.bind fun g => g.task).bind fun t => s.tasks.find? fun x => x.key == t with
    | some t => (t.lead :: t.members).getD m 0
    | none => 0

/-- The areas of a gang. -/
def State.gangAreas (s : State) (core : Nat) (gs : List Group) (r : Option Replay) : List Area :=
  ((List.range (s.gangSize gs)).flatMap fun m =>
    match gs.find? fun g => g.member == m with
    | some g => match r with
      | some r => s.areasReplay core g r
      | none => s.areasOf core g
    | none => [endedGroup (s.memberRecord gs m) m]) ++
  match r with
  | some r => [s.areaTape r (if r.nir then r.e else 0) 0]
  | none => []

/-- HOLD of a member: the start holding in a restart image. -/
def Group.holdWord (g : Group) (r : Option Replay) : Nat :=
  match r with
  | some r => if r.nir then g.holds.toNat else (Rec.startOf g.record).toNat
  | none => g.holds.toNat

/-- The union of the CAUSE of a gang's sub-warps. -/
def causeUnion (gs : List Group) : Word :=
  gs.foldl (fun c g => g.warps.foldl (fun c w => w.subs.foldl (fun c b => c ||| b.cause) c) c) 0

/-- The header (R345). -/
def headerBytes (reason ctx members disp core areas : Nat) (cause : Word) (holds : List (Nat × Nat)) : List Byte :=
  leBytes 256 (1 + 4 * 2 ^ 16 + reason * 2 ^ 24 + ctx * 2 ^ 32 + (members - 1) * 2 ^ 48 + disp * 2 ^ 64 +
    cause.toNat * 2 ^ 128 + areas * 2 ^ 160 + core * 2 ^ 192 +
    holds.foldl (fun n e => n + e.2 * 2 ^ (512 + 32 * e.1)) 0)

/-- Write bytes to a slot, then poison the parts that held poison (R381). -/
def State.putArea (s : State) (n off : Nat) (a : Area) : State :=
  a.bad.foldl (fun (s : State) b => s.poisonUnit (imgKey n (off + b) / 8)) (s.put (imgKey n off) a.bytes)

/-- Write an image to a slot: areas, directory, header. -/
def State.writeImage (s : State) (n : Nat) (areas : List Area) (header : List Byte) : State :=
  let placed := areaOffsets (roundUp (256 + 16 * areas.length) 256) areas
  let s := placed.foldl (fun (s : State) e => s.putArea n e.1 e.2) s
  (s.put (imgKey n 256) (placed.flatMap fun e => leBytes 16 (dirEntry e.1 e.2))).put (imgKey n 0) header

end Sys2Proof.Machine
end

