-- ==== Sys2Proof/Machine/Restore.lean ====
section
/-! DEFINITION. Reading an image back: its checks, and the groups it holds (spec/02 R57; spec/14 R343, R345,
R346, R350, R351; spec/15 R374-R376). -/

namespace Sys2Proof.Machine

/-! ### Header and directory (R345) -/

/-- A number in a slot. -/
def State.img (s : State) (n off k : Nat) : Nat := s.num (imgKey n off) k

/-- The header of a slot as one number. -/
def State.imgHeader (s : State) (n : Nat) : Nat := s.img n 0 256

/-- An entry of the directory. -/
structure ImgArea where
  cls : Nat
  member : Nat
  units : Nat
  off : Nat
  len : Nat
  reserved : Nat
  deriving DecidableEq, Repr

/-- The directory. -/
def State.imgAreas (s : State) (n : Nat) : List ImgArea :=
  (List.range (nbits (s.imgHeader n) 191 160)).map fun i =>
    let e := s.img n (256 + 16 * i) 16
    ⟨nbits e 7 0, nbits e 9 8, nbits e 31 16, nbits e 63 32, nbits e 95 64, nbits e 15 10 + nbits e 127 96⟩

/-- Gang members of an image. -/
def imgMembers (h : Nat) : Nat := nbits h 49 48 + 1
/-- Address space. -/
def imgCtx (h : Nat) : Nat := nbits h 47 32
/-- REASON. -/
def imgReason (h : Nat) : Nat := nbits h 31 24
/-- DISP; 3 reads as 0. -/
def imgDisp (h : Nat) : Nat := if nbits h 65 64 = 3 then 0 else nbits h 65 64
/-- HOLD of member m. -/
def imgHold (h m : Nat) : Nat := nbits h (512 + 32 * m + 31) (512 + 32 * m)

/-- The area of a class and member. -/
def areaOf (as : List ImgArea) (cls m : Nat) : Option ImgArea := as.find? fun a => a.cls == cls && a.member == m

/-- Units of an area, 0 when there is none. -/
def unitsIn (as : List ImgArea) (cls m : Nat) : Nat := ((areaOf as cls m).map (·.units)).getD 0

/-- A number in unit i of an area of a class: 0 when there is no such area. -/
def State.unit (s : State) (n : Nat) (as : List ImgArea) (cls m size i off k : Nat) : Nat :=
  match areaOf as cls m with
  | some a => s.img n (a.off + size * i + off) k
  | none => 0

/-- The class 0x08 unit of a member. -/
def State.groupUnit (s : State) (n : Nat) (as : List ImgArea) (m : Nat) : Nat := s.unit n as 0x08 m 256 0 0 256

/-- The record of a member. -/
def State.imgRecord (s : State) (n : Nat) (as : List ImgArea) (m : Nat) : BitVec 1024 :=
  BitVec.ofNat 1024 (s.groupUnit n as m)

/-- The image holds a replay (R374). -/
def imgReplay (as : List ImgArea) : Bool := as.any fun a => a.cls == 0x12

/-- NIR of a replay image: a resume image. -/
def State.imgNir (s : State) (n : Nat) (as : List ImgArea) : Bool := nbit (s.unit n as 0x12 0 0 0 8 4) 0

/-- The members of an image that are still running: a member of a replay, or one with warp records. -/
def liveMembers (h : Nat) (as : List ImgArea) : List Nat :=
  (List.range (imgMembers h)).filter fun m => imgReplay as || (areaOf as 0x09 m).isSome

/-! ### Check 2 (R57, R351) -/

/-- Bytes of a unit of a class; bins and the tape area are sized apart. -/
def unitSize (cls : Nat) (hold : Hold) : Nat :=
  match cls with
  | 0x01 => 8 * hold.vreg * 128
  | 0x02 => 16 * hold.sreg * 4
  | 0x03 => 64
  | 0x04 => 512
  | 0x05 => 16400
  | 0x06 => 32
  | 0x07 => 8
  | 0x08 => 256
  | 0x09 => 192
  | 0x0A => 16
  | 0x0B => 4096
  | 0x0C => 8
  | 0x0D => 448
  | 0x0E => 320
  | 0x0F => 64
  | 0x10 => 32
  | _ => 0

/-- Reserved bits of a tile descriptor at a bit of a unit (R30). -/
def descBits (at_ : Nat) : List (Nat × Nat) := [(at_ + 63, at_ + 60), (at_ + 127, at_ + 120)]

/-- Reserved bits of a unit of a class: high and low bit. -/
def unitReserved (cls : Nat) : List (Nat × Nat) :=
  match cls with
  | 0x04 => (List.range 32).flatMap fun t => descBits (128 * t)
  | 0x05 => [(127, 4)]
  | 0x06 => [(63, 52), (103, 103), (111, 106), (255, 117)]
  | 0x07 => [(31, 16)]
  | 0x08 => [(62, 62), (75, 75), (95, 91), (107, 107), (127, 123)] ++
      ((List.range 8).map fun k => (279 + 24 * k, 278 + 24 * k)) ++ [(511, 499), (575, 564), (639, 628), (703, 692), (767, 756), (1087, 1072), (1151, 1138),
      (1279, 1232), (1567, 1538), (2047, 1572)] ++ descBits 1280 ++ descBits 1408
  | 0x09 => [(543, 532), (573, 564), (1023, 705)]
  | 0x0A => [(63, 52), (127, 122)]
  | 0x0C => [(63, 48)]
  | 0x0D => [(30, 23), (511, 320)] ++ descBits 64 ++ descBits 192
  | 0x0E => [(63, 32), (511, 193)] ++ descBits 64
  | 0x0F => [(63, 32), (511, 397)] ++ descBits 64 ++ descBits 192
  | 0x10 => [(95, 67), (223, 205)]
  | 0x11 => [(63, 53)]
  | 0x12 => [(95, 65), (511, 96), (575, 562), (639, 628), (1023, 704)] ++
      ((List.range 8).map fun k => (1055 + 64 * k, 1027 + 64 * k)) ++ (List.range 32).map fun k => (1547 + 64 * k, 1540 + 64 * k)
  | _ => []

/-- Bytes of a bin unit. -/
def binBytes (count : Nat) : Nat := 16 + roundUp (2 * count) 16

/-- The reserved bits of a unit at an offset are zero, and so is what pads a bin (R346, R351). What is poisoned in a tape
shows no bits, and is met by the command that needs it (R376, R382; log 69). -/
def State.unitClear (s : State) (n cls off : Nat) : Bool :=
  ((unitReserved cls).all fun (hi, lo) =>
    (cls == 0x12 && s.poisoned (imgKey n (off + lo / 8)) 1) || nbits (s.img n (off + lo / 8) (hi / 8 + 1 - lo / 8)) (hi - lo / 8 * 8) (lo % 8) == 0) &&
  (cls != 0x11 ||
    let used := 16 + 2 * s.img n (off + 12) 4
    s.img n (off + used) (binBytes (s.img n (off + 12) 4) - used) == 0)

/-- Offsets of the bin units of an area. -/
def State.binOffs (s : State) (n : Nat) : (units off : Nat) → List Nat
  | 0, _ => []
  | k + 1, off => off :: s.binOffs n k (off + binBytes (s.img n (off + 12) 4))

/-- Offsets of the units of an area. -/
def State.unitOffs (s : State) (n : Nat) (hold : Hold) (a : ImgArea) : List Nat :=
  if a.cls = 0x11 then s.binOffs n a.units a.off
  else (List.range a.units).map fun i => a.off + unitSize a.cls hold * i

/-- The length an area must have. -/
def State.areaLen (s : State) (n : Nat) (hold : Hold) (a : ImgArea) : Nat :=
  if a.cls = 0x11 then (s.binOffs n a.units a.off).foldl (fun t o => t + binBytes (s.img n (o + 12) 4)) 0
  else if a.cls = 0x12 then 448 + 16 * (s.img n (a.off + 4) 4 - s.img n a.off 4)
  else unitSize a.cls hold * a.units

/-- Bits set in a number's low n bits. -/
def bitCount (n v : Nat) : Nat := ((List.range n).filter fun i => nbit v i).length

/-- The unit counts of a member agree with its holding and its warp count, and no reserved bit of HOLD is set. -/
def State.countsOk (s : State) (n h : Nat) (as : List ImgArea) (m : Nat) : Bool :=
  let g := s.groupUnit n as m
  let w := Rec.warps (BitVec.ofNat 1024 g)
  let has (cls k : Nat) : Bool := unitsIn as cls m == k
  let none_ (l : List Nat) : Bool := l.all fun c => (areaOf as c m).isNone
  let hold := Hold.fields (imgHold h m)
  let slots := bitCount 3 (nbits g 1571 1569) == hold.slots && nbits g 1568 1568 == hold.plane
  let held := has 0x05 (bitCount 16 (nbits g 1231 1216)) && has 0x0B hold.pages && has 0x0C hold.pages
  Hold.clear (imgHold h m) &&
    (if imgReplay as then
      none_ [0x01, 0x02, 0x03, 0x04, 0x06, 0x07, 0x09, 0x0A, 0x0D, 0x10, 0x11] &&
        (if s.imgNir n as then slots && held else none_ [0x05, 0x0B, 0x0C, 0x0E, 0x0F])
    else if (areaOf as 0x09 m).isNone then (as.filter fun a => a.member == m).length == 1
    else slots && held && [0x01, 0x02, 0x03, 0x04, 0x09].all (fun c => has c w) && has 0x06 (32 * w) && has 0x0D 8)

/-- An area stands where it may and its units are sound. -/
def State.areaSound (s : State) (n h : Nat) (as : List ImgArea) (a : ImgArea) : Bool :=
  let hold := Hold.fields (imgHold h a.member)
  a.reserved == 0 && decide (1 ≤ a.cls ∧ a.cls ≤ 0x12) && decide (a.member < imgMembers h) && a.off % 256 == 0 &&
    decide (a.off + a.len ≤ 2 ^ 23) && decide (a.units ≤ 2 ^ 12) && s.areaLen n hold a == a.len &&
    (a.cls != 0x12 || (a.units == 1 && decide (s.img n a.off 4 ≤ s.img n (a.off + 4) 4))) &&
    (s.unitOffs n hold a).all (s.unitClear n a.cls) &&
    (as.filter fun b => b.cls == a.cls && b.member == a.member).length == 1

/-- A queued entry's word is an engine operation of its queue. -/
def queuedWord (matrix : Bool) (w : Nat) : Option Instr :=
  match decode (BitVec.ofNat 32 w) with
  | .ok i =>
    match i with
    | .ldw _ _ _ | .ldwSwap _ _ | .mstr _ _ _ _ _ _ | .accZ _ _ _ | .accRd _ _ _ _ | .accWr _ _ _ _ =>
      if matrix then some i else none
    | .acpy _ _ _ _ _ => if matrix then none else some i
    | _ => none
  | .error _ => none

/-- Every saved operation of a member is one. -/
def State.wordsOk (s : State) (n : Nat) (as : List ImgArea) (m : Nat) : Bool :=
  (List.range (unitsIn as 0x0E m)).all (fun i => (queuedWord true (s.unit n as 0x0E m 320 i 0 4)).isSome) &&
  (List.range (unitsIn as 0x0F m)).all (fun i => (queuedWord false (s.unit n as 0x0F m 64 i 0 4)).isSome) &&
  (List.range (unitsIn as 0x0D m)).all fun i =>
    !nbit (s.unit n as 0x0D m 448 i 0 4) 22 || (queuedWord true (s.unit n as 0x0D m 448 i 4 4)).isSome

/-- Check 2 of R351. -/
def State.imgFormat (s : State) (n : Nat) : Bool :=
  let h := s.imgHeader n
  let as := s.imgAreas n
  nbits h 63 50 == 0 && nbits h 127 66 == 0 && nbits h 255 202 == 0 && nbits h 511 264 == 0 &&
    nbits h 2047 640 == 0 && decide (as.length ≤ 256) && as.all (s.areaSound n h as) &&
    (List.range (imgMembers h)).all fun m =>
      unitsIn as 0x08 m == 1 && !Rec.valid (s.imgRecord n as m) && s.countsOk n h as m && s.wordsOk n as m

/-- Check 3 of R351. -/
def State.imgClaims (s : State) (n : Nat) : Bool :=
  let h := s.imgHeader n
  let as := s.imgAreas n
  (List.range (imgMembers h)).all fun m =>
    let r := s.imgRecord n as m
    let c := Hold.fields (Rec.claim r)
    (Hold.fields (imgHold h m)).le c && (c.cost (Rec.warps r)).le (coreTotals 1536)

/-- The refusal code of R351, 0 for an image that passes. -/
def State.imgStatus (s : State) (n : Nat) : Nat :=
  let h := s.imgHeader n
  if nbits h 15 0 ≠ 1 ∨ 4 < nbits h 23 16 then 1
  else if !s.imgFormat n then 2
  else if !s.imgClaims n then 3
  else if !ctxValid (s.ctxDesc (imgCtx h)) then 4
  else 0

/-- Classes whose units may be poisoned: the poison moves with them (R381). -/
def poisonMoves (cls : Nat) : Bool := cls == 0x01 || cls == 0x02 || cls == 0x05 || cls == 0x0B || cls == 0x0C

/-- Parts of an area that a restore must read as data of its own, offsets and lengths: of a tape its progress alone, for
the replay reads the commands as it comes to them (R376), and of each accumulator the header that names it (R56). -/
def ImgArea.ownParts (a : ImgArea) : List (Nat × Nat) :=
  if a.cls = 0x05 then (List.range a.units).map fun i => (16400 * i, 16)
  else if poisonMoves a.cls then []
  else if a.cls = 0x12 then [(0, 64)]
  else [(0, a.len)]

/-- A part of the image that a restore must read as data of its own is poisoned (R382). -/
def State.imgPoisoned (s : State) (n : Nat) : Bool :=
  let as := s.imgAreas n
  !s.poison.isEmpty && (s.poisoned (imgKey n 0) 256 || s.poisoned (imgKey n 256) (16 * as.length) ||
    as.any fun a => a.ownParts.any fun p => s.poisoned (imgKey n (a.off + p.1)) p.2)

/-! ### Parts of a member -/

/-- A token set of 32 times 8 bytes. -/
def State.tokSet (s : State) (n off : Nat) : List Tok :=
  (List.range 32).flatMap fun w =>
    let v := s.img n (off + 8 * w) 8
    ((List.range 64).filter fun r => nbit v r).map fun r => (w, r)

/-- Nonzero words at offsets, by number. -/
def State.words (s : State) (n : Nat) (count : Nat) (off : Nat → Nat) : Sparse Word :=
  (List.range count).filterMap fun i =>
    let v := s.img n (off i) 4
    if v = 0 then none else some (i, BitVec.ofNat 32 v)

/-- The numbers whose words are poisoned. -/
def State.badWords (s : State) (n : Nat) (count : Nat) (off : Nat → Nat) : List Nat :=
  (List.range count).filter fun i => s.poisoned (imgKey n (off i)) 4

/-- Offset of an area of a member. -/
def offOf (as : List ImgArea) (cls m : Nat) : Nat := ((areaOf as cls m).map (·.off)).getD 0

/-- The lanes of warp record w: thread slots. -/
def State.imgLanes (s : State) (n : Nat) (as : List ImgArea) (m w slots : Nat) : List (Option Nat) :=
  (List.range 32).map fun l =>
    let t := s.unit n as 0x09 m 192 w (2 * l) 2
    if t < slots then some t else none

/-- LVL of a restored thread: by its number for a launched thread, the group's own unit for a spawned one
(R220, R265, R281). -/
def lvlOf (r : BitVec 1024) (gid tid : Nat) : List Word :=
  if tid < 2 ^ 31 then Rec.digits r tid else spawnLvl (Rec.groupLevel r) (Rec.digits r (gid * Rec.groupThreads r))

/-- A program counter of a record: a multiple of 4 whatever its low bits hold (R40, log 31). -/
def pcField (v : Nat) : Addr := BitVec.ofNat 52 (v / 4 * 4)

/-- Thread slot t of a member. -/
def State.imgThread (s : State) (n : Nat) (as : List ImgArea) (m : Nat) (hold : Hold) (r : BitVec 1024) (gid t : Nat)
    (arrived : Bool) (kept : Option Thread) : Thread :=
  let u := s.unit n as 0x06 m 32 t 0 32
  let reg (i : Nat) : Nat := offOf as 0x01 m + (t / 32) * (8 * hold.vreg * 128) + i * 128 + 4 * (t % 32)
  let th := Thread.new (pcField (nbits u 51 0)) (BitVec.ofNat 32 (nbits u 95 64)) (lvlOf r gid (nbits u 95 64))
    (BitVec.ofNat 2 (nbits u 105 104))
  let back : Bool := arrived && kept.any fun k => k.wait.barLevel.isNone
  { th with
    pc := if back then nextPc th.pc else th.pc
    wait := if arrived then ((kept.bind fun k => k.wait.barLevel).map fun l => Wait.bar l true).getD .none else .none
    fpstat := BitVec.ofNat 5 (nbits u 116 112)
    winbase := BitVec.ofNat 7 (nbits u 102 96)
    vr := s.words n (8 * hold.vreg) reg
    vpoison := s.badWords n (8 * hold.vreg) reg
    pr := BitVec.ofNat 16 ((upto 1 15).foldl (fun p i =>
      p + (if nbit (s.unit n as 0x03 m 64 (t / 32) (4 * i) 4) (t % 32) then 2 ^ i else 0)) 0)
    frag := kept.bind (·.frag) }

/-- The sub-warps of a warp slot. -/
def State.imgSubs (s : State) (n : Nat) (as : List ImgArea) (m w : Nat) : List Sub :=
  (List.range (unitsIn as 0x0A m)).filterMap fun i =>
    let u := s.unit n as 0x0A m 16 i 0 16
    if nbits u 120 116 = w then
      some ⟨BitVec.ofNat 32 (nbits u 31 0), BitVec.ofNat 32 (nbits u 63 32), pcField (nbits u 115 64), nbit u 121⟩
    else none

/-- Warp slot w of a member; what no image holds comes from the warp as it left: a BUDGET bit of its CAUSE is delivered
only if it was still to be (R336, R393), and one of an image that this module did not write while TRAPMASK defers it
(R337, log 30). -/
def State.imgWarp (s : State) (n : Nat) (as : List ImgArea) (m : Nat) (hold : Hold) (slots w wid stamp : Nat)
    (note : Word) (toks : List Tok) (kept : Option Warp) : Warp :=
  let u := s.unit n as 0x09 m 192 w 0 192
  let cause := BitVec.ofNat 32 (nbits u 543 512) ||| note
  let reg (i : Nat) : Nat := offOf as 0x02 m + w * (16 * hold.sreg * 4) + 4 * i
  { Warp.new wid (s.imgLanes n as m w slots) stamp with
    ur := s.words n (16 * hold.sreg) reg
    upoison := s.badWords n (16 * hold.sreg) reg
    tr := (List.range 32).filterMap fun t =>
      let d := s.unit n as 0x04 m 512 w (16 * t) 16
      if d = 0 then none else some (t, BitVec.ofNat 128 d)
    cause := cause
    trapmask := BitVec.ofNat 32 (nbits u 575 544)
    age := BitVec.ofNat 32 (nbits u 607 576)
    cap := if nbit u 704 then some (BitVec.ofNat 64 (nbits u 703 640)) else none
    ages := (List.range 32).filterMap fun l =>
      let a := nbits u (1024 + 16 * l + 15) (1024 + 16 * l)
      if a = 0 then none else some (l, a)
    subs := s.imgSubs n as m w
    upend := (toks.filter fun t => t.1 == w && t.2 != goneReg).map Prod.snd
    trappc := (kept.map (·.trappc)).getD 0
    failTok := (kept.map (·.failTok)).getD []
    upstall := (kept.map (·.upstall)).getD []
    failLanes := (kept.map (·.failLanes)).getD []
    firstFail := (kept.map (·.firstFail)).getD 0
    stepping := (kept.map (·.stepping)).getD []
    budgetDue := match kept with
      | some k => k.budgetDue
      | none => cause.getLsbD Cause.budget && nbit u (544 + Cause.budget)
    budgetMoves := match kept with
      | some k => k.budgetMoves
      | none => cause.getLsbD Cause.budget && nbit u (544 + Cause.budget)
    tqs := (kept.map (·.tqs)).getD [] }

/-- Meld k of a member: SIGNED counts threads that have exited too, whose slots the signed set does not show. -/
def State.imgMeld (s : State) (n : Nat) (as : List ImgArea) (m k : Nat) (kept : Option Meld) : Meld :=
  let off := offOf as 0x0D m + 448 * k
  let word := s.img n off 4
  if !nbit word 31 then Meld.idle
  else
    let signed := (List.range 1024).filter fun t => nbit (s.img n (off + 64) 128) t
    { opened := true
      expect := nbits word 21 11
      signed := signed ++ List.replicate (nbits word 10 0 - signed.length) noThread
      op := if nbit word 22 then (queuedWord true (s.img n (off + 4) 4)).map fun i =>
          ⟨i, BitVec.ofNat 128 (s.img n (off + 8) 16), BitVec.ofNat 128 (s.img n (off + 24) 16)⟩
        else none
      toks := s.tokSet n (off + 192)
      lanes := (kept.map (·.lanes)).getD [] }

/-- Token and warp slot of a field of class 0x0F. -/
def tokOf (v : Nat) : Option Tok := if nbit v 12 then none else some (nbits v 11 6, nbits v 5 0)

/-- An origin of a replay under its new key. -/
def Origin.atReplay (o : Origin) (r : Nat) : Origin :=
  match o with
  | .replay _ i => .replay r i
  | .lanes _ | .seq _ _ => .replay r 0

/-- The saved entries of a member, in order. Whom each answers to, its threads and what its probe found come from the
entry as it left; without it they are every lane of the lowest warp slot its tokens name, every thread of the group,
so that a fence waits for it (R175, R214), and no probe. -/
def State.imgEntries (s : State) (n : Nat) (as : List ImgArea) (m gk : Nat) (pages : List Nat) (replay : Option Nat)
    (kept : List Entry) : List Entry :=
  let all := List.range (32 * Rec.warps (s.imgRecord n as m))
  let mk (j : Nat) (i : Instr) (desc src done : Nat) (toks : List Tok) (melded : Bool) (slot : Nat) : Entry :=
    let k : Option Entry := kept[j]?
    { eid := 0, gk := gk, op := ⟨i, BitVec.ofNat 128 desc, BitVec.ofNat 128 src⟩, toks := toks
      origin := match replay with
        | some r => (k.map fun e => e.origin.atReplay r).getD (.replay r 0)
        | none => (k.map (·.origin)).getD (.lanes [(slot, 0xFFFFFFFF)])
      melded := melded, threads := (k.map (·.threads)).getD all, pages := pages, named := []
      q := (copyQueue i).getD 0, probed := k.bind (·.probed), done := done, stopped := none }
  let mat := (List.range (unitsIn as 0x0E m)).filterMap fun i =>
    let off := offOf as 0x0E m + 320 * i
    let toks := s.tokSet n (off + 64)
    (queuedWord true (s.img n off 4)).map fun w =>
      mk i w (s.img n (off + 8) 16) 0 0 toks (nbit (s.img n (off + 24) 1) 0) ((toks.map Prod.fst).headD 0)
  let cp := (List.range (unitsIn as 0x0F m)).filterMap fun i =>
    let off := offOf as 0x0F m + 64 * i
    let t := s.img n (off + 48) 4
    (queuedWord false (s.img n off 4)).map fun w =>
      mk (unitsIn as 0x0E m + i) w (s.img n (off + 8) 16) (s.img n (off + 24) 16) (s.img n (off + 40) 8)
        (tokOf t).toList false (nbits t 11 6)
  mat ++ cp

/-- The saved sequencers of a member. Which of them run one fork comes from the sequencers as they left; without them,
two with one warp slot, token and w do. -/
def State.imgSeqs (s : State) (n : Nat) (as : List ImgArea) (m gk : Nat) (kept : List Seq) : List Seq :=
  let all := List.range (32 * Rec.warps (s.imgRecord n as m))
  let unit (i : Nat) : Nat := s.unit n as 0x10 m 32 i 0 32
  let alike (i j : Nat) : Bool := nbits (unit i) 255 192 == nbits (unit j) 255 192 && nbits (unit i) 127 96 == nbits (unit j) 127 96
  (List.range (unitsIn as 0x10 m)).map fun i =>
    let u := unit i
    let t := nbits u 223 192
    let k := kept[i]?
    let same := k.filter fun k => k.off == nbits u 31 0 && k.idx == nbits u 47 32 && k.copy != nbit u 64
    { gk := gk, wslot := nbits u 127 96, off := nbits u 31 0, idx := nbits u 47 32, cur := same.bind (·.cur), rep := some (nbits u 63 48 + 1)
      copy := !nbit u 64
      fork := (k.map (·.fork)).getD (((List.range i).find? (alike i)).getD i)
      atRdv := none, finished := !nbit u 65, failed := none
      tok := (tokOf t).map fun t => t.2, w := nbits u 255 224
      lanes := (k.map (·.lanes)).getD 0xFFFFFFFF, threads := (k.map (·.threads)).getD all, fence := false, met := false }

/-- The saved bins of a member: key, mixed, timer, thread slots. -/
def State.imgBins (s : State) (n : Nat) (as : List ImgArea) (m : Nat) : List (Nat × Bool × Nat × List Nat) :=
  (s.binOffs n (unitsIn as 0x11 m) (offOf as 0x11 m)).map fun off =>
    (s.img n off 8 % 2 ^ 52, nbit (s.img n off 8) 52, s.img n (off + 8) 4,
      (List.range (s.img n (off + 12) 4)).map fun i => s.img n (off + 16 + 2 * i) 2)

/-- Threads and the timer of a saved bin join a bin: the shorter count stands, so that no thread waits beyond its own
(R229, log 68). -/
def Bin.join (b : Bin) (ts : List (Nat × Nat)) (timer : Nat) : Bin :=
  { b with threads := b.threads ++ ts, timer := min b.timer timer, expired := b.expired || timer == 0 }

/-- Put saved bins onto a core: a free bin under the key, else the group's mixed bin (R229). Their threads count as filed
now, in the order of the image (R225, log 84). -/
def Core.putBins (k : Core) (gk : Nat) (stamp : Nat) (bs : List (Nat × Bool × Nat × List Nat)) : Core :=
  bs.foldl (fun (k : Core) (e : Nat × Bool × Nat × List Nat) =>
    let (pc, mixed, timer, ts) := e
    let ts := ts.map fun t => (t, stamp)
    let free := if mixed then none else (List.range 64).find? fun i => !(k.bins.any fun b => b.idx == some i)
    match free with
    | some i => { k with bins := k.bins ++ [⟨some i, gk, BitVec.ofNat 52 pc, ts, timer, timer == 0⟩] }
    | none =>
      if k.bins.any fun b => b.idx.isNone && b.gk == gk then
        { k with bins := k.bins.map fun b => if b.idx.isNone ∧ b.gk = gk then b.join ts timer else b }
      else { k with bins := k.bins ++ [⟨none, gk, 0, ts, timer, timer == 0⟩] }) k

end Sys2Proof.Machine
end

