-- ==== Sys2Proof/Machine/Image.lean ====
section
/-! DEFINITION. Pre-emption, swap-out, re-entry and kill (spec/14 R341-R353; spec/10 R258; spec/15 R373-R376;
spec/01 R21; spec/07 R184). -/

namespace Sys2Proof.Machine

/-! ### Stops (R341, R348) -/

/-- Every gang of a core with a group that a test selects begins to stop. -/
def State.stopWhere (s : State) (core : Nat) (sel : Group → Bool) : State :=
  (((s.core core).groups.filter sel).map (·.gang)).eraseDups.foldl (fun (s : State) n => s.escape core n 0 2 0 0) s

/-- A group is in the scope of a pre-emption request. -/
def Scope.covers (sc : Scope) (core : Nat) (g : Group) : Bool :=
  match sc with
  | .gang ctx gid => g.ctx == ctx && g.gid.toNat == gid
  | .job ctx job => g.ctx == ctx && Rec.job g.record == job
  | .core c => c == core
  | .package => true

/-- Address space a request names. -/
def Scope.space (sc : Scope) : Nat :=
  match sc with
  | .gang ctx _ | .job ctx _ => ctx
  | .core _ | .package => 0

/-- A pre-emption request reaches the collector: every gang in its scope stops, and each core that holds one
owes an acknowledgement. That a request which arrives while another is being gathered is taken at once, and gathered with
it, is the model's choice (R21, log 91). -/
def State.preemptScope (s : State) (sc : Scope) : State :=
  let hit := (s.cores.filter fun e => e.2.groups.any (Scope.covers sc e.1)).map Prod.fst
  let s := hit.foldl (fun (s : State) c => s.stopWhere c (Scope.covers sc c)) s
  if hit.isEmpty then s
  else match s.preempt with
    | none => { s with preempt := some ⟨hit, Scope.space sc, [sc]⟩ }
    | some p => { s with preempt := some { p with cores := (p.cores ++ hit).eraseDups, scopes := p.scopes ++ [sc] } }

/-! ### Requests at meeting point 3 (R21, R348, R438) -/

/-- Change a die. -/
def State.modDie (s : State) (d : Nat) (f : Die → Die) : State := { s with dies := modAt s.dies d f }

/-- Cores of a die with a resident group. -/
def State.busyCores (s : State) (d : Nat) : List Nat :=
  (s.cores.filter fun e => e.1 / 128 == d && !e.2.groups.isEmpty).map Prod.fst

/-- The power state of a die: as requested, or D1 while its temperature, the input current or the coolant flow forces it
(R438, R441; log 89). -/
def State.powerOf (s : State) (x : Die) : PState :=
  if x.hot || s.forcedCurrent || s.forcedFlow then .d1 else x.want

/-- A die that is to be in D2 and holds no resident group goes to sleep. -/
def State.sleepDie (s : State) (d : Nat) : State :=
  s.modDie d fun x => if s.powerOf x = .d2 ∧ x.link = .up ∧ (s.busyCores d).isEmpty = true then { x with link := .asleep } else x

/-- A die in D2 starts to wake (R387, R438). -/
def State.wakeDie (s : State) (d : Nat) : State :=
  s.modDie d fun x => if x.link = .asleep then { x with link := .waking, woken := some s.ts.toNat } else x

/-- A die takes on its power state: one that is to be in D2 is emptied by pre-emption and then sleeps, any other wakes. -/
def State.followPower (s : State) (d : Nat) : State :=
  if (s.dies[d]?).any fun x => s.powerOf x == .d2 then
    ((s.busyCores d).foldl (fun (t : State) c => t.preemptScope (.core c)) s).sleepDie d
  else s.wakeDie d

/-- A power state is requested for a die. -/
def State.applyPower (s : State) (d : Nat) (p : PState) : State :=
  (s.modDie d fun x => { x with want := p }).followPower d

/-- A request can be taken: a power state waits for a pre-emption (R21). That the end of a quiesce waits for the
acknowledgements too is the model's choice (log 91). -/
def State.canTake (s : State) (r : Request) : Bool :=
  match r with
  | .preempt _ | .quiesce => true
  | .power _ _ | .follow _ | .quiesceEnd => s.preempt.isNone

/-- The boot has passed stage 5: CXL.mem and Rolik are up, and meeting point 1 may be open (R323, R437). -/
def State.linksUp (s : State) : Bool := decide (5 ≤ s.bootStage) && s.recovery.isNone

/-- A request is taken. A quiesce closes meeting point 1, then asks every engine to stop; LCEs commit nothing while it
is closed. Its end opens the point, but not before boot stage 5 (R437). -/
def State.takeRequest (s : State) (r : Request) : State :=
  match r with
  | .power d p => s.applyPower d p
  | .preempt sc => s.preemptScope sc
  | .quiesce => { s with mp1Open := false }.preemptScope .package
  | .quiesceEnd => { s with mp1Open := s.linksUp }
  | .follow d => s.followPower d

/-- Requests are taken in arrival order, as far as they can be: at most n of them. -/
def State.takeRequests (s : State) : (n : Nat) → State
  | 0 => s
  | n + 1 => match s.mp3 with
    | [] => s
    | r :: rest => if s.canTake r then (State.takeRequest { s with mp3 := rest } r).takeRequests n else s

/-- A request arrives behind those that wait. -/
def State.request (s : State) (r : Request) : State :=
  State.takeRequests { s with mp3 := s.mp3 ++ [r] } (s.mp3.length + 1)

/-- Requests that waited are taken, and emptied dies go to sleep. -/
def State.settle (s : State) : State := (List.range 8).foldl State.sleepDie (s.takeRequests s.mp3.length)

/-- PREEMPTION. -/
def execPreemption (sc : Scope) (s : State) : Host.Outcome State Fault Refusal := .next (s.request (.preempt sc))

/-- QUIESCE. -/
def execQuiesce (s : State) : Host.Outcome State Fault Refusal := .next (s.request .quiesce)

/-- QUIESCE_END. -/
def execQuiesceEnd (s : State) : Host.Outcome State Fault Refusal := .next (s.request .quiesceEnd)

/-- POWER_STATE. -/
def execPowerState (die : Nat) (p : PState) (s : State) : Host.Outcome State Fault Refusal :=
  .next (s.request (.power die p))

/-- ACKNOWLEDGEMENT: every gang of the core that was stopping has its image; its KIND 3 record crosses. -/
def execAcknowledgement (core : Nat) (s : State) : Host.Outcome State Fault Refusal :=
  match s.preempt with
  | none => .next s
  | some p =>
    if !p.cores.contains core || (s.core core).groups.any fun g => g.stop.isSome then .next s
    else
      let rest := p.cores.filter (· != core)
      let s := s.emit (.trap (trapRecord 3 0 p.ctx noSlot 0 0 core))
      .next (State.settle { s with preempt := if rest.isEmpty then none else some { p with cores := rest } })

/-! ### Swap-out (R341) -/

/-- A copy of a gang that goes on names a page of these groups (R154). -/
def Core.copyNames (k : Core) (gs : List Group) : Bool :=
  k.cq.any fun e => ((k.group? e.gk).any fun h => h.stop.isNone) && gs.any fun g => g.pages.any e.named.contains

/-- The engines of a stopping gang stand at their boundary: no remote push awaits its acknowledgement, no
command of a replay is being performed, and no copy of another gang names a page of it (R260, R349, R373). A copy of the gang itself is saved with it, also where it names a page that the gang has released (log
82). -/
def State.standing (s : State) (core : Nat) (gs : List Group) (r : Option Replay) : Bool :=
  gs.all (fun g => g.threads.all fun e => e.2.vpend.isEmpty) && !(s.core core).copyNames gs &&
    r.all fun r => !r.pushing && !(r.clean.any fun id => s.cleans.any fun c => c.id == id)

/-- The replay of a gang. -/
def State.replayOf (s : State) (gang : Nat) : Option Replay := s.replays.find? fun r => r.gang == gang

/-- A replay at its stop: the failing command of a replay fault is the next one, unless only its saved entry is left of
it; when the budget ran out, the first command not entered is (R373, R374). -/
def Replay.atStop (r : Replay) (st : Stop) : Replay :=
  if st.reason = 6 ∧ st.cause ≠ Cause.bit Cause.budget then { r with e := max st.pc.toNat r.first } else r

/-- Sequencers of a failed fork stop first. -/
def State.endFailed (s : State) (core gang : Nat) : State :=
  let gks := ((s.core core).gangGroups gang).map (·.gk)
  ((s.core core).seqs.filter fun q => gks.contains q.gk &&
      (s.core core).seqs.any fun r => q.forks r && r.failed.isSome).foldl
    (fun (s : State) q => if (s.core core).seqs.contains q then s.seqStop core q none else s) s

/-- The groups of a gang leave their core, with their queue entries and sequencers; their range commits go on
for the image (R160). The places they leave in the queues are taken by what waits for one (R135, R172). -/
def State.departGang (s : State) (core n : Nat) (gs : List Group) : State :=
  let gks := gs.map (·.gk)
  let s := s.modCore core fun k => { k with
    mq := k.mq.filter fun e => !gks.contains e.gk
    cq := k.cq.filter fun e => !gks.contains e.gk
    seqs := k.seqs.filter fun q => !gks.contains q.gk }
  let away (c : Commit) : Commit :=
    match gs.find? (fun g => g.gk == c.gk && c.core == core && c.saved.isNone) with
    | some g => { c with saved := some (n, g.member) }
    | none => c
  let s := { s with commits := s.commits.map away }
  (gs.foldl (fun (s : State) g => s.leave core g.gk false) s).fillQueues core

/-- What the device keeps of a gang that leaves. -/
def Core.savedOf (k : Core) (n : Nat) (gang : Nat) (gs : List Group) : Saved :=
  { slot := n
    pipes := k.pipesOf gang
    members := gs.map fun g =>
      let es := k.entriesOf g
      ⟨g, k.seqs.filter fun q => q.gk == g.gk, es.filter Entry.isMatrix ++ es.filter fun e => !e.isMatrix⟩ }

/-- HOLD of the ended members of a gang: the vector granules that stay counted for a pipe partner (R258, R434). -/
def State.lingerWords (s : State) (core gang : Nat) (gs : List Group) : List (Nat × Nat) :=
  ((s.core core).linger.filter fun e => e.1 == gang).map fun e =>
    (e.2.1, ({ Hold.zero with vreg := e.2.2 / Rec.warps (s.memberRecord gs e.2.1) } : Hold).toNat)

/-- Steps 2 to 5 of R341, into slot n. -/
def State.swapInto (s : State) (core gang n : Nat) (gs : List Group) (st : Stop) (r : Option Replay) : State :=
  let k := s.core core
  let ctx := ((gs.head?).map (·.ctx)).getD 0
  let areas := s.gangAreas core gs r
  let sub := causeUnion gs
  let kept := k.savedOf n gang gs
  let s := s.writeImage n areas (headerBytes st.reason ctx (s.gangSize gs) st.disp core areas.length
    (if st.reason = 6 then st.cause else sub)
    ((gs.map fun g => (g.member, g.holdWord r)) ++ s.lingerWords core gang gs))
  let s := match r with
    | some r => { s.dropUser r with replays := s.replays.filter fun q => q.key != r.key }
    | none => s
  let s := { (s.departGang core n gs) with images := s.images ++ [kept] }
  s.emit (.trap (trapRecord 1 st.reason ctx n (if st.reason = 3 ∨ st.reason = 6 then st.cause else sub) st.pc.toNat core))

/-- SWAP_OUT: the gang waits, stopped and holding everything, until its engines stand and a slot is free. -/
def execSwapOut (core gang : Nat) (s : State) : Host.Outcome State Fault Refusal :=
  match ((s.core core).gangGroups gang).findSome? (·.stop) with
  | none => .next s
  | some st =>
    let r := (s.replayOf gang).map fun r => r.atStop st
    let s := s.tapeDrain (core / 32)
    if s.standing core ((s.core core).gangGroups gang) r then
      let s := ((s.abandon gang 3).endFailed core gang)
      let gks := ((s.core core).gangGroups gang).map (·.gk)
      let s := s.drainSpills core fun p => gks.contains p.gk
      let free := s.freeSlots
      match free[s.choose 3 free.length]? with
      | none => .next s
      | some n => .next (s.swapInto core gang n ((s.core core).gangGroups gang) st r)
    else .next s

/-! ### Re-entry (R258, R343) -/

/-- Images that ask for something: slots that are not free, with DISP as given (R343, R419). -/
def State.imagesAt (s : State) (disp : Nat) : List Nat :=
  (List.range Config.poolSlots).filter fun n => !s.slotFree n && imgDisp (s.img n 0 16) == disp

/-- What is kept of a member whose state an image holds. -/
def State.keptMember (s : State) (n m : Nat) : Option SavedMember :=
  (s.images.find? fun i => i.slot == n).bind fun i => i.members.find? fun k => k.group.member == m

/-- The claim of a member of an image: the record's, as far as HANDOFF has not lowered it (R256, R258). -/
def State.imgClaim (s : State) (n : Nat) (as : List ImgArea) (m : Nat) : Hold :=
  ((s.keptMember n m).map fun k => k.group.claim).getD (Rec.claimOf (s.imgRecord n as m))

/-- What a member of an image asks of a core. -/
def State.imgAsk (s : State) (n h : Nat) (as : List ImgArea) (m : Nat) : Ask :=
  let r := s.imgRecord n as m
  ⟨r, s.imgClaim n as m, (Hold.ofWord (imgHold h m)).getD Hold.zero⟩

/-- Matrix slots a member is granted by number; none for a restart image. -/
def State.imgSlots (s : State) (n : Nat) (as : List ImgArea) (m : Nat) : List Nat :=
  if imgReplay as && !s.imgNir n as then []
  else (List.range 4).filter fun q => nbit (s.groupUnit n as m) (1568 + q)

/-- The sequencers an image needs are free on a core. -/
def State.seqsFree (s : State) (n core : Nat) (as : List ImgArea) (ms : List Nat) : Bool :=
  ms.all fun m => (s.imgSeqs n as m 0 []).all fun q => q.finished || ((s.core core).seqOf q.copy).isNone

/-- A core takes admissions (R257, R438): its die is up and not to go to D2. -/
def State.coreOpen (s : State) (core : Nat) : Bool :=
  match s.dies[core / 128]? with
  | some d => d.link == .up && s.powerOf d != .d2
  | none => false

/-- The vector granules of ended members that come back with an image, as HOLD records them: member and granules (R258,
R434). -/
def State.imgLinger (s : State) (n : Nat) : List (Nat × Nat) :=
  let h := s.imgHeader n
  let as := s.imgAreas n
  (((List.range (imgMembers h)).filter fun m => !(liveMembers h as).contains m).map fun m =>
    (m, (Hold.fields (imgHold h m)).vreg * Rec.warps (s.imgRecord n as m))).filter fun e => e.2 != 0

/-- The pipes of an image: those that its gang had, or, for an image that this module did not write, those of the gang
table, which the re-entry waits for (R271, R321). -/
def State.imgPipes (s : State) (n : Nat) : Res (List Pipe) :=
  match s.images.find? fun i => i.slot == n with
  | some i => .ok i.pipes
  | none => (s.gangOf (imgCtx (s.imgHeader n)) (s.imgRecord n (s.imgAreas n) 0)).andThen fun t => .ok ((t.map Prod.snd).getD [])

/-- An image can be re-entered on a core. -/
def State.canRestore (s : State) (n core : Nat) : Bool :=
  let h := s.imgHeader n
  let as := s.imgAreas n
  let ms := liveMembers h as
  s.coreOpen core && (match s.imgPipes n with | .ok _ => true | .bad _ | .wait => false) &&
    s.canAdmit core (ms.map (s.imgAsk n h as)) ((s.imgLinger n).foldl (fun t e => t + e.2) 0) &&
    (ms.all fun m => (s.imgSlots n as m).all fun q => !(s.core core).slotTaken q) && s.seqsFree n core as ms

/-- The group of a member before its grant. -/
def State.imgGroup (s : State) (n h : Nat) (as : List ImgArea) (m gk gang : Nat) (lead : BitVec 1024) (wids : List Nat)
    (task : Option Nat) (kept : Option SavedMember) : Group :=
  let u := s.groupUnit n as m
  let r := s.imgRecord n as m
  let d := s.ctxDesc (imgCtx h)
  let hold := (Hold.ofWord (imgHold h m)).getD Hold.zero
  let replay := imgReplay as
  let restart := replay && !s.imgNir n as
  let slots := 32 * Rec.warps r
  let gid := nbits u 1055 1024
  let old := kept.map (·.group)
  let melds := (List.range 8).map fun k => s.imgMeld n as m k (old.bind fun g => g.melds[k]?)
  let toks := melds.flatMap (·.toks) ++ (s.imgEntries n as m gk [] none []).flatMap (·.toks) ++
    ((s.imgSeqs n as m gk []).filterMap fun q => q.tok.map fun t => (q.wslot, t)) ++
    ((s.commits.filter fun c => c.saved == some (n, m)).map fun c => (c.wslot, c.tok))
  let note := if imgReason h = 2 then Cause.bit Cause.preempt else 0
  let warp (w : Nat) : Warp :=
    let stamp := s.fresh
    if replay then { Warp.new (wids.getD w 0) [] stamp with cause := note }
    else s.imgWarp n as m hold slots w (wids.getD w 0) stamp note toks (old.bind fun g => g.warps[w]?)
  let lanes (w : Nat) : List (Nat × Bool) :=
    let arr := s.unit n as 0x09 m 192 w 76 4
    ((s.imgLanes n as m w slots).zipIdx).filterMap fun (o, l) => o.map fun t => (t, nbit arr l)
  let running := if replay then [] else ((List.range (Rec.warps r)).flatMap lanes) ++
    (s.imgBins n as m).flatMap fun b => b.2.2.2.map fun t => (t, false)
  { gk := gk
    gid := BitVec.ofNat 32 gid
    ctx := imgCtx h
    sup := nbit d 1
    root := nbits d 115 64
    htab := nbits d 179 128
    jtab := nbits d 243 192
    record := r
    task := task
    gang := gang
    member := m
    vh := 0
    uh := 0
    claim := s.imgClaim n as m
    pages := []
    slots := []
    warps := (List.range (Rec.warps r)).map warp
    threads := running.foldl (fun (l : Sparse Thread) e =>
      sput l e.1 (s.imgThread n as m hold r gid e.1 e.2 (old.bind fun g => sfind g.threads e.1))) []
    budget := Rec.budget lead
    budgetRaised := false
    spawnCount := BitVec.ofNat 16 (nbits u 1071 1056)
    melds := melds
    tile := (old.bind fun g => g.tile).map fun o =>
      { o with tdone := false, drain := none, stopped := none, closed := o.closed || !nbit u 1136 }
    stop := none
    entered := s.clk
    replay := replay
    backlog := []
    planeLoads := if restart then [] else (if nbit u 1536 then [(false, BitVec.ofNat 128 (nbits u 1407 1280), none)] else []) ++
      (if nbit u 1537 then [(true, BitVec.ofNat 128 (nbits u 1535 1408), none)] else []) }

/-- The lanes of every sub-warp whose handler has not begun stand at the trap entry (R343). -/
def Group.handlersEntered (g : Group) : Group :=
  g.warps.foldl (fun (g : Group) w => (w.subs.filter fun b => !b.begun).foldl (fun (g : Group) b =>
    ((maskLanes b.lanes).filterMap w.tslot).foldl (fun (g : Group) t =>
      g.modThread t fun th => { th with pc := trapEntry }) g) g) g

/-- Pages, tags, accumulators and tokens of a member are written back (R258, R152). -/
def State.imgContents (s : State) (n core : Nat) (as : List ImgArea) (m gk : Nat) (replay : Bool) (pages : List Nat) : State :=
  let units := unitsIn as 0x0B m
  let s := (pages.zipIdx.filter fun e => decide (e.2 < units)).foldl (fun (s : State) e =>
    let (p, i) := e
    let from_ := imgKey n (offOf as 0x0B m + 4096 * i)
    let bad := (List.range 512).filter fun u => s.poisoned (from_ + 8 * u) 8
    let s := s.put (lsKey core (4096 * p)) (s.bytes from_ 4096)
    let s := bad.foldl (fun (s : State) u => s.poisonUnit (lsKey core (4096 * p) / 8 + u)) s
    let lost := s.poisoned (imgKey n (offOf as 0x0C m + 8 * i)) 8
    s.modCore core fun k =>
      let k := k.setTag p (s.unit n as 0x0C m 8 i 0 8)
      if lost then { k with tpoison := p :: k.tpoison } else k) s
  let accs := (List.range (unitsIn as 0x05 m)).map fun i =>
    let off := offOf as 0x05 m + 16400 * i
    (s.img n off 1 % 16, off)
  let toks := s.groupUnit n as m
  s.modCore core fun k =>
    let k := accs.foldl (fun (k : Core) (e : Nat × Nat) =>
      { k with
        acc := (s.words n 4096 fun i => e.2 + 16 + 4 * i).foldl (fun (l : Sparse Word) p => sput l (4096 * e.1 + p.1) p.2) k.acc
        apoison := k.apoison ++ (s.badWords n 4096 fun i => e.2 + 16 + 4 * i).map fun i => 4096 * e.1 + i }) k
    if replay then k
    else { k with owner := (List.range 16).foldl (fun (l : Sparse Nat) a => if nbit toks (1216 + a) then sput l a gk else l) k.owner }

/-- One member enters its core: granted, its entries to come. -/
def State.enterMember (s : State) (n core h : Nat) (as : List ImgArea) (m gk gang : Nat) (lead : BitVec 1024)
    (wids : List Nat) (task : Option Nat) (rkey : Option Nat) (kept : Option SavedMember) : State :=
  let hold := (Hold.ofWord (imgHold h m)).getD Hold.zero
  let restart := imgReplay as && !s.imgNir n as
  let pages := s.freePages core hold.pages
  let slots := if restart then (s.core core).freeSlots hold else s.imgSlots n as m
  let g := (s.imgGroup n h as m gk gang lead wids task kept).handlersEntered
  let t := (s.modCore core fun k => { k with groups := k.groups ++ [g] }).give core gk hold pages slots
  let t := t.modGroup core gk fun g =>
    { g with backlog := s.imgEntries n as m gk pages rkey ((kept.map (·.entries)).getD []) }
  let seqs := s.imgSeqs n as m gk ((kept.map fun k => k.seqs).getD [])
  t.modCore core fun k => Core.putBins { k with seqs := k.seqs ++ seqs } gk s.fresh (s.imgBins n as m)

/-- What a member held is written into its new units: once every member of the gang has been granted its own, for a member
may hold the token of an accumulator whose slot another holds (R124). -/
def State.fillMember (s : State) (n core : Nat) (as : List ImgArea) (m gk : Nat) : State :=
  if imgReplay as && !s.imgNir n as then s
  else s.imgContents n core as m gk (imgReplay as) (((s.group? core gk).map (·.pages)).getD [])

/-- Pipe registers that an image saves for a pipe: mapped warp slots with their full lanes. -/
def State.imgPipe (s : State) (n : Nat) (as : List ImgArea) (q : Pipe) : Pipe :=
  let (m, start) := if (areaOf as 0x07 q.src).isSome then (q.src, q.fstart) else (q.dst, q.tstart)
  let regs := (List.range (unitsIn as 0x07 m)).filterMap fun i =>
    let r := s.unit n as 0x07 m 8 i 0 4
    if start ≤ nbits r 9 0 ∧ nbits r 9 0 < start + q.count then
      some (nbits r 15 10, nbits r 9 0 - start, BitVec.ofNat 32 (s.unit n as 0x07 m 8 i 4 4))
    else none
  { q with maps := regs.foldl (fun (l : Sparse (Sparse Mask)) e =>
      sput l e.1 (sset (sget l e.1 []) e.2.1 e.2.2 0)) [] }

/-- The replay of an image. -/
def State.imgTape (s : State) (n core gang key : Nat) (as : List ImgArea) (entries : Nat) : Replay :=
  let off := offOf as 0x12 0
  let e := s.img n off 4
  let count := s.img n (off + 4) 4
  { key := key, core := core, gang := gang, store := none, header := s.bytes (imgKey n (off + 64)) 384
    cmds := s.bytes (imgKey n (off + 448)) (16 * (count - e)), first := e, e := e, count := count
    nir := nbit (s.img n (off + 8) 4) 0, open_ := entries, waitOn := none, clean := none, asked := false, pushing := false
    bad := if s.poison.isEmpty then [] else ((List.range (48 + 2 * (count - e))).filter fun u =>
      s.poisoned (imgKey n (off + 64 + 8 * u)) 8).map fun u => if u < 48 then u else u + 2 * e }

/-- EDGE and SIGNAL of a task follow the lead record of its image (R421). -/
def Task.followEdge (t : Task) (lead : BitVec 1024) : Task :=
  { t with lead := BitVec.ofNat 1024 (setField (setField t.lead.toNat 563 512 (Rec.edge lead)) 755 704 (Rec.signal lead)) }

/-- Queue number of a task that came with an image of another module. -/
def noQueue : Nat := 512

/-- The task of an image's groups: the one they left, or one of their own, with the records that the image holds (R421). -/
def State.imgTask (s : State) (n ctx : Nat) (lead : BitVec 1024) (live : Nat) (kept : Option Saved) : State × Option Nat :=
  match kept with
  | some i =>
    let key := (i.members.head?.map (·.group)).bind fun g => g.task
    ({ s with tasks := s.tasks.map fun t => if some t.key = key then t.followEdge lead else t }, key)
  | none =>
    ({ s.bump with tasks := s.tasks ++
        [{ key := s.fresh, q := noQueue, index := n, ctx := ctx, lead := lead
           members := (upto 1 (imgMembers (s.imgHeader n) - 1)).map (s.imgRecord n (s.imgAreas n)), pipes := [], next := 1, total := 1
           live := live, stage := 0, cid := 0 }] }, some s.fresh)

/-- The slot becomes free. -/
def State.freeSlot (s : State) (n : Nat) : State :=
  { s.put (imgKey n 0) (List.replicate 8 0) with images := s.images.filter fun i => i.slot != n }

/-- A group that comes back on another die: what is on its way home lands, dirty edge-ordered lines of the old die are
cleaned, and of every line the new die keeps only the bytes that it has written itself, so that a load there finds the
group's own writes (R184, R181). -/
def State.moveDies (s : State) (old new : Nat) : State :=
  if old = new then s
  else
    let s := s.land ((s.cleans.flatMap fun c => c.bytes.map fun b => b.1 / 128).eraseDups)
    let lines := (s.edge.filter fun e => e.die == old && !e.dirty.isEmpty).map (·.line)
    let s := lines.foldl (fun (s : State) l => s.edgeFlush old (128 * l)) s
    { s with edge := s.edge.filterMap fun e =>
        if e.die ≠ new then some e
        else if e.dirty.isEmpty then none
        else some { e with bytes := e.bytes.filter fun b => e.dirty.contains b.1 } }

/-- A checked image is loaded on a core. -/
def State.loadImage (s : State) (n core : Nat) : State :=
  let h := s.imgHeader n
  let as := s.imgAreas n
  let ms := liveMembers h as
  let lead := s.imgRecord n as 0
  let kept := s.images.find? fun i => i.slot == n
  let keptOf (m : Nat) : Option SavedMember := s.keptMember n m
  let s := s.moveDies (nbits h 201 192 / 128) (core / 128)
  let (s, task) := s.imgTask n (imgCtx h) lead ms.length kept
  let gang := s.fresh
  let key (m : Nat) : Nat := gang + m
  let rkey := if imgReplay as then some (gang + 4) else none
  let s := { s.useLink (.d2d (core / 128)) with fresh := s.fresh + 5 }
  let pipes := match s.imgPipes n with
    | .ok ps => ps
    | .bad _ | .wait => []
  let wids := (gangWids (s.core core).freeWids (ms.map (s.imgRecord n as))).getD []
  let t := (ms.zip wids).foldl (fun (t : State) e =>
    t.enterMember n core h as e.1 (key e.1) gang lead e.2 task rkey (keptOf e.1)) s
  let t := ms.foldl (fun (t : State) m => t.fillMember n core as m (key m)) t
  let t := t.modCore core fun k => { k.unfetched with
    pipes := k.pipes ++ pipes.map fun q => { s.imgPipe n as q with gang := gang }
    linger := k.linger ++ (s.imgLinger n).map fun e => (gang, e)
    fetchFloor := s.stepNo + 1 }
  let back (c : Commit) : Commit := match c.saved with
    | some (i, m) => if i = n then { c with core := core, gk := key m, saved := none } else c
    | none => c
  let t := { t with commits := t.commits.map back }
  let t := match rkey with
    | some r =>
      let open_ := ms.foldl (fun c m => c + unitsIn as 0x0E m + unitsIn as 0x0F m) 0
      { t with replays := t.replays ++ [s.imgTape n core gang r as open_] }
    | none => t
  t.freeSlot n

/-- An image fails R351: STATUS is written, DISP reset, and a KIND 2 record crosses. -/
def State.refuseImage (s : State) (n status core : Nat) : State :=
  let h := s.imgHeader n
  ((s.put (imgKey n 8) [0]).put (imgKey n 32) (leBytes 1 status)).emit
    (.trap (trapRecord 2 (imgReason h) (imgCtx h) n (BitVec.ofNat 32 (nbits h 159 128)) 0 core))

/-! ### Kill (R343, R341, R278) -/

/-- KILL: the gang of an image ends as killed, its slot is free, its task goes on without its groups. -/
def State.killImage (s : State) (n : Nat) : State :=
  let h := s.imgHeader n
  let as := s.imgAreas n
  let kept := s.images.find? fun i => i.slot == n
  let live := (liveMembers h as).length
  let lead := s.imgRecord n as 0
  let (s, task) := s.imgTask n (imgCtx h) lead live kept
  let lost (c : Commit) : Commit := match c.saved with
    | some (i, _) => if i = n then { c with gk := 0, saved := none } else c
    | none => c
  let s := { s with commits := s.commits.map lost }
  (s.taskLess task ((kept.map fun i => i.members.length).getD live)).freeSlot n

/-- KILL. -/
def execKill (slot : Nat) (s : State) : Host.Outcome State Fault Refusal :=
  if (s.imagesAt 2).contains slot then
    .next (if s.imgPoisoned slot then s.emitOnce (.imageHold slot) else s.killImage slot)
  else .next s

/-- A gang of a core is to be killed once it is swapped out; a stop under way serves it. -/
def State.killGang (s : State) (core gang : Nat) : State :=
  (s.escape core gang 0 8 0 0).modGang core gang fun g =>
    { g with stop := g.stop.map fun st => { st with disp := 2 } }

/-- The job of a draw is killed: submissions that are not committed are discarded, its pool is empty, and no
tile of it is issued again (R278). -/
def Draw.kill (d : Draw) : Draw :=
  { d with killed := true, accepted := [], buf := [], used := 0, flush := none, stopped := none
           tiles := d.tiles.map fun (t, x) => (t, { x with recs := [], blocks := [] }) }

/-- KILL_OF_RESIDENT_GROUP. -/
def execKillOfResidentGroup (t : KillTarget) (s : State) : Host.Outcome State Fault Refusal :=
  match t with
  | .group core gk => match s.group? core gk with
    | none => .next s
    | some g => .next (s.killGang core g.gang)
  | .draw d => .next { s with draws := s.draws.map fun x => if x.key = d then x.kill else x }

end Sys2Proof.Machine
end

