-- ==== Sys2Proof/Machine/Admit.lean ====
section
/-! DEFINITION. Admission of groups and gangs to cores, what happens to saved planes and entries after a re-entry,
retries of stopped engines, and the budget event (spec/09 R219, R233; spec/11 R265, R269, R270; spec/05 R133,
R135; spec/15 R362, R363, R369; spec/14 R337). -/

namespace Sys2Proof.Machine

/-! ### A group as admitted (R265, R369) -/

/-- What an admission gives its groups besides their records. -/
structure Grant where
  ctx : Nat
  gid : Nat
  task : Option Nat
  tile : Option Own
  /-- s7 of a tile group (R279) -/
  arg7 : Option Word
  replay : Bool
  stale : Bool

/-- The launched threads of a group: thread slot, thread. -/
def launchedThreads (r : BitVec 1024) (gid : Nat) : Sparse Thread :=
  let n := Rec.groupThreads r
  (List.range n).foldl (fun (l : Sparse Thread) i =>
    let (w, lane) := Rec.place r i
    let tid := gid * n + i
    sput l (32 * w + lane) (Thread.new (BitVec.ofNat 52 (Rec.entry r)) (BitVec.ofNat 32 tid) (Rec.digits r tid) 0)) []

/-- Uniform registers at admission: the argument words when there are any registers. -/
def argRegs (r : BitVec 1024) (arg7 : Option Word) : Sparse Word :=
  if (Rec.startOf r).sreg = 0 then []
  else (List.range 8).foldl (fun (l : Sparse Word) k =>
    sset l k (if k = 7 then arg7.getD (Rec.arg r 7) else Rec.arg r k) 0) []

/-- A member before its grant. -/
def State.newGroup (s : State) (a : Grant) (r : BitVec 1024) (m gk gang budget : Nat) (wids : List Nat) : Group :=
  let d := s.ctxDesc a.ctx
  let threads := if a.replay then [] else launchedThreads r a.gid
  let lanes (w : Nat) : List (Option Nat) := (List.range 32).map fun l =>
    if (sfind threads (32 * w + l)).isSome then some (32 * w + l) else none
  { gk := gk
    gid := BitVec.ofNat 32 a.gid
    ctx := a.ctx
    sup := nbit d 1
    root := nbits d 115 64
    htab := nbits d 179 128
    jtab := nbits d 243 192
    record := BitVec.ofNat 1024 (setField r.toNat 63 63 0)
    task := a.task
    gang := gang
    member := m
    vh := 0
    uh := 0
    claim := Rec.claimOf r
    pages := []
    slots := []
    warps := (List.range (Rec.warps r)).map fun w =>
      { Warp.new (wids.getD w 0) (lanes w) s.fresh with
        ur := if a.replay then [] else argRegs r a.arg7
        cause := if a.stale then Cause.bit Cause.tapestale else 0 }
    threads := threads
    budget := budget
    budgetRaised := false
    spawnCount := 0
    melds := List.replicate 8 Meld.idle
    tile := a.tile
    stop := none
    entered := s.clk
    replay := a.replay
    backlog := []
    planeLoads := [] }

/-- A gang becomes resident: each member is put on the core and granted its start holding, and every pipe is
mapped in every warp slot with its bits empty (R272). What it does from now on crosses its die's link. -/
def State.seat (s : State) (core : Nat) (a : Grant) (recs : List (BitVec 1024)) (pipes : List Pipe) : State :=
  let gang := s.fresh
  let budget := Rec.budget (recs.headD 0)
  let wids := (gangWids (s.core core).freeWids recs).getD []
  let t := ((recs.zip wids).zipIdx).foldl (fun (t : State) e =>
    let ((r, ws), m) := e
    (t.modCore core fun k => { k with groups := k.groups ++ [s.newGroup a r m (gang + m) gang budget ws] }).grantTo core
      (gang + m) (Rec.startOf r)) s
  let slots := (List.range (Rec.warps (recs.headD 0))).map fun w => (w, ([] : Sparse Mask))
  { ((t.useLink (.d2d (core / 128))).modCore core fun k => { k with pipes := k.pipes ++ pipes.map fun q => { q with gang := gang, maps := slots } }) with
    fresh := s.fresh + 5 }

/-- What the members of a task ask of a core. -/
def asksOf (recs : List (BitVec 1024)) : List Ask := recs.map fun r => ⟨r, Rec.claimOf r, Rec.startOf r⟩

/-! ### Recording and replay runs (R362, R363, R369) -/

/-- A replay starts: the commands are those of the tape in the grove's store. -/
def State.startReplay (s : State) (core gang tape : Nat) : State :=
  let g := core / 32
  let b := Dir.base (s.entry g tape)
  let count := nbits (s.entry g b) 31 0
  { s.bump with replays := s.replays ++
      [{ key := s.fresh, core := core, gang := gang, store := some (g, tape), header := s.bytes (talonKey g (16 * b)) 384
         cmds := s.bytes (talonKey g (16 * (b + 24))) (16 * count), first := 0, e := 0, count := count, nir := false
         open_ := 0, waitOn := none, clean := none, asked := false, pushing := false, bad := [] }] }

/-- One admission unit's group g of a task is admitted to a core, if it can be; the state stays while the launch decision
waits for a guard whose page is being moved, and the record is held when the decision meets poison (R321, R362, R382). -/
def State.admitTask (s : State) (t : Task) (core gid : Nat) : Option State :=
  let recs := t.lead :: t.members
  if !s.coreOpen core || !s.canAdmit core (asksOf recs) then none
  else
    let a : Grant := ⟨t.ctx, gid, some t.key, none, none, false, false⟩
    let gang := s.fresh
    let count (u : State) : State := u.modTask t.key fun t => { t with next := t.next + 1, live := t.live + recs.length }
    if singleUnit t.lead && s.launchLost (core / 32) t.lead then some (s.emitOnce (.hold t.q t.index))
    else if singleUnit t.lead && s.launchWaits (core / 32) t.ctx t.lead then some s
    else if singleUnit t.lead then
      let (u, l) := s.launch (core / 32) t.ctx recs.length t.lead
      match l with
      | .normal stale => some (count (u.seat core { a with stale := stale } recs t.pipes))
      | .record stale =>
        some (count ((u.seat core { a with stale := stale } recs t.pipes).recordStart (core / 32) t.ctx recs.length gang
          t.key t.lead))
      | .replay =>
        some (count ((u.seat core { a with replay := true } recs t.pipes).startReplay core gang (Rec.tape t.lead)))
    else some (count (s.seat core a recs t.pipes))

/-! ### Placing an admission unit (R233, R269) -/

/-- Cores of a domain. -/
def domainCores (d : Nat) : Nat := match d with | 3 => 32 | 4 => 128 | 5 => 1024 | _ => 1

/-- Levels of an admission unit above the group, the highest first: domain size and fan-out. -/
def unitLevels (r : BitVec 1024) : List (Nat × Nat) :=
  ((upto (Rec.groupLevel r + 1) (unitLevel r - Rec.groupLevel r)).reverse).map fun k =>
    (domainCores (Rec.domain r k), Rec.fan r k)

/-- The first success over a list. -/
def firstSome {α β : Type} (l : List α) (f : α → Option β) : Option β := l.findSome? f

/-- Place the units of the levels in a region of cores from `lo` on, the groups numbered from `gid` on. -/
def placeUnits (put : State → Nat → Nat → Option State) : List (Nat × Nat) → (lo size gid : Nat) → State → Option State
  | [], lo, size, gid, s => firstSome (upto lo size) fun c => put s c gid
  | (dom, fan) :: rest, lo, size, gid, s =>
    let each := (rest.map Prod.snd).foldl (· * ·) 1
    firstSome ((List.range (size / min dom size)).map fun b => lo + b * min dom size) fun at_ =>
      (List.range fan).foldl (fun (acc : Option State) i =>
        acc.bind fun t => placeUnits put rest at_ (min dom size) (gid + i * each) t) (some s)

/-- Groves that a single-unit task prefers, in order (R269). -/
def State.prefers (s : State) (t : Task) : List Nat :=
  if !singleUnit t.lead then []
  else
    let n := Rec.tape t.lead
    let dir (g : Nat) : Nat := s.entry g n
    let ready := (List.range 32).filter fun g =>
      !s.launchLost g t.lead && Dir.state (dir g) == 3 && nbits (s.entry g (Dir.base (dir g))) 115 64 == Rec.entry t.lead
    let armed := if Rec.trec t.lead then
      (List.range 32).filter fun g => !s.launchLost g t.lead && (Dir.state (dir g) == 1 || Dir.state (dir g) == 4) else []
    ready ++ armed

/-- The cores for the next admission unit of a task are chosen, and it is admitted to them unless its launch decision waits
or holds its record; none when no cores can take it. -/
def State.placing (s : State) (t : Task) : Option State :=
  let go (lo size : Nat) : Option State := placeUnits (fun s c g => s.admitTask t c g) (unitLevels t.lead) lo size t.next s
  firstSome ((s.prefers t).map (fun g => (32 * g, 32)) ++ [(0, 1024)]) fun p => go p.1 p.2

/-- A state after a task in which more of the task has been admitted. -/
def State.beyond (u : State) (t : Task) : Bool :=
  (u.tasks.find? fun v => v.key == t.key).any fun v => decide (t.next < v.next)

/-- Admit the next admission unit of a task, if some cores can take it and its launch decision neither waits nor holds its
record. -/
def State.placeTask (s : State) (t : Task) : Option State := (s.placing t).filter fun u => u.beyond t

/-! ### After a re-entry (R135) -/

/-- The cause of a failed plane reload: raised on the first instruction of the lowest warp slot with a live
thread, or the replay stops with it. Two planes that fail raise their causes together; when no warp slot holds a live
thread, because all stand in bins, the cause is dropped (log 80). -/
def State.planeFail (s : State) (core : Nat) (g : Group) (cause : Nat) : State :=
  match s.replayOf g.gang with
  | some r => if g.replay then s.replayFault r.key r.e cause else s
  | none =>
    match indexOf? g.warps fun w => !(g.liveLanes w).isEmpty with
    | some slot => s.modWarp core g.gk slot fun w => { w with firstFail := w.firstFail ||| Cause.bit cause }
    | none => s

/-- Reload one plane. -/
def State.reloadPlane (s : State) (core : Nat) (g : Group) (p : Bool × Desc × Option Nat) : State :=
  let (shadow, d, stopped) := p
  let next (s : State) : State := s.modGroup core g.gk fun g => { g with planeLoads := g.planeLoads.drop 1 }
  let fill (s : State) (v : Option Plane) : State := s.modCore core fun k =>
    if shadow then { k with shd := v } else { k with act := v }
  match s.loadPlane core g d with
  | .ok v => next (fill s (some v))
  | .bad c => (next (fill s none)).planeFail core g c
  | .wait => s
  | .page va =>
    let s := s.modGroup core g.gk fun g => { g with planeLoads := (shadow, d, some va) :: g.planeLoads.drop 1 }
    if stopped = some va then s else s.faultRecord core g.ctx va

/-- The first plane that a gang still has to reload. -/
def State.planePending (s : State) (core gang : Nat) : Option (Group × (Bool × Desc × Option Nat)) :=
  ((s.core core).gangGroups gang).findSome? fun g => g.planeLoads.head?.map fun p => (g, p)

/-- Reload the planes of a gang, at most two. -/
def State.reloadPlanes (s : State) (core gang : Nat) : (fuel : Nat) → State
  | 0 => s
  | n + 1 => match s.planePending core gang with
    | some (g, p) =>
      if p.2.2.isSome then s else (s.reloadPlane core g p).reloadPlanes core gang n
    | none => s

/-! ### The reload of a tile (R279) -/

/-- The save area of a tile, as a virtual address. -/
def saveAddr (d : BitVec 2048) (tile : Nat) : Nat := DrawD.save d + tile * DrawD.tmpages d * 4096

/-- Change the tile a group owns. -/
def State.modOwn (s : State) (core gk : Nat) (f : Own → Own) : State :=
  s.modGroup core gk fun g => { g with tile := g.tile.map f }

/-- One page of tile memory is read from the save area as stored bits; the reserved area of a block-format page reads
as zero (R77), and poison is copied. -/
def State.reloadPage (s : State) (core : Nat) (g : Group) (base page : Nat) : Res State :=
  (s.translate (g.space core g.sup) .load (base + 4096 * page)).andThen fun x =>
    let p := g.pages.getD page 0
    let bad := (List.range 512).filter fun u => s.meetsPoison (dieOf core) (x.key + 8 * u) 8
    let s := s.put (lsKey core (4096 * p)) (s.readAt (dieOf core) x (base + 4096 * page) 4096)
    .ok (bad.foldl (fun (s : State) u => s.poisonUnit (lsKey core (4096 * p) / 8 + u)) s)

/-- The issue of a tile has ended without its group: it stays OWNED, and a flush waits for it no more (R279). -/
def Draw.dropFlush (d : Draw) (tile : Nat) : Draw :=
  { d with flush := d.flush.map fun f => { f with tiles := f.tiles.filter (· != tile) } }

/-- Tile memory is reloaded from the save area: none while a page of it does not translate. -/
def State.reloadTile (s : State) (core : Nat) (g : Group) (o : Own) : State :=
  match s.drawOf o.draw with
  | none => s
  | some d =>
    let base := saveAddr d.desc o.tile
    let n := DrawD.tmpages d.desc
    let bad := (List.range n).findSome? fun p =>
      match s.translate (g.space core g.sup) .load (base + 4096 * p) with
      | .ok _ => none
      | .bad c => some (some c, base + 4096 * p)
      | .wait => some (none, base + 4096 * p)
    match bad with
    | none =>
      let t := (List.range n).foldl (fun (t : State) p => match t.reloadPage core g base p with
        | .ok u => u
        | .bad _ | .wait => t) s
      t.modOwn core g.gk fun o => { o with reload := false, stopped := none }
    | some (none, _) => s
    | some (some c, va) =>
      if c = Cause.page then
        let t := s.modOwn core g.gk fun o => { o with stopped := some va }
        if o.stopped = some va then t else t.faultRecord core g.ctx va
      else
        let t := (s.emit (.tileFault o.draw o.tile c)).leave core g.gk false
        { t with draws := t.draws.map fun d => if d.key = o.draw then d.dropFlush o.tile else d }

/-! ### Retries (R133) -/

/-- ENGINE_FAULT_RETRY: every 4096 clocks the stopped unit tries again. -/
def State.retryEngine (s : State) (core : Nat) (u : EngUnit) : State :=
  let k := s.core core
  let go (e : Option Entry) (f : Group → Entry → State) : State :=
    match e with
    | none => s
    | some e => match s.group? core e.gk with
      | none => s
      | some g => if e.stopped.isNone || g.stop.isSome then s else f g e
  match u with
  | .matrix => go k.mq.head? fun g e => s.runMatrix core g e
  | .copy q => go (k.copyHead q) fun g e => match e.probed with
    | none => s.runProbe core g e
    | some f => s.runChunk core g e f
  | .restore gang => match s.planePending core gang with
    | none => s
    | some (g, p) => if g.stop.isSome then s else (s.reloadPlane core g p).reloadPlanes core gang 2
  | .reload gk => match s.group? core gk with
    | none => s
    | some g => match g.tile with
      | none => s
      | some o => if o.reload && g.stop.isNone then s.reloadTile core g o else s

/-- ENGINE_FAULT_RETRY. -/
def execEngineFaultRetry (core : Nat) (u : EngUnit) (s : State) : Host.Outcome State Fault Refusal :=
  .next (if s.clk % 4096 = 0 then s.retryEngine core u else s)

/-! ### BUDGET (R270, R337, R373) -/

/-- The waiting lanes of a warp slot that are in no sub-warp. -/
def Group.waitingLanes (g : Group) (w : Warp) : List Nat :=
  (g.liveLanes w).filter fun l => (w.subOf l).isNone && (g.laneThread w l).any fun t => t.wait != .none

/-- BUDGET is raised on a warp: waiting lanes park, the next issuing set outside a handler follows unless every lane has
parked; while it is deferred, the warp's CAUSE notes it. -/
def State.budgetWarp (s : State) (core : Nat) (g : Group) (slot : Nat) (w : Warp) : State :=
  if (g.liveLanes w).isEmpty then s
  else if w.trapmask.getLsbD Cause.budget then
    s.modWarp core g.gk slot fun w => { w.noteBudget with budgetDue := true }
  else
    let waiting := g.waitingLanes w
    let more := (g.liveLanes w).any fun l => !waiting.contains l
    let s := s.modWarp core g.gk slot fun w => { w with budgetDue := more }
    s.parkLanes core g.gk slot waiting (Cause.bit Cause.budget)

/-- BUDGET: the counter of a group has reached 0. -/
def execBudget (core gk : Nat) (s : State) : Host.Outcome State Fault Refusal :=
  match s.group? core gk with
  | none => .next s
  | some g =>
    if g.budget ≠ 0 ∨ g.budgetRaised = true ∨ Rec.budget (s.leadOf g) = 0 then .next s
    else
      let t := s.modGroup core gk fun g => { g with budgetRaised := true }
      if g.replay then
        match s.replayOf g.gang with
        | some r => .next (t.replayFault r.key r.e Cause.budget)
        | none => .next t
      else .next ((g.warps.zipIdx).foldl (fun (t : State) e => t.budgetWarp core g e.2 e.1) t)

end Sys2Proof.Machine
end

