-- ==== Sys2Proof/Machine/Sfu.lean ====
section
/-! DEFINITION. The special functions of SFU, correctly rounded (spec/04 R104). Quotients and roots are
exact integers with a sticky bit. The other functions are computed in fixed point of 400 fraction bits,
whose error stays below 2^−380; where the exact result is no dyadic number, the last bit of the
fixed-point value is followed by a half, which decides every rounding (log 11). -/

namespace Sys2Proof.Machine

/-! ### Integer quotient and root -/

/-- floor of the square root, one bit at a time from bit b − 1 down. -/
def isqrtBits (n : Nat) : (b r : Nat) → Nat
  | 0, r => r
  | b + 1, r => isqrtBits n b (if (r + 2 ^ b) * (r + 2 ^ b) ≤ n then r + 2 ^ b else r)

/-- floor of the square root. -/
def isqrt (n : Nat) : Nat := isqrtBits n (Nat.log2 n / 2 + 1) 0

/-- A magnitude with a sticky bit: 2 q + 1 stands for any value strictly between q and q + 1. -/
def withSticky (q : Nat) (exact : Bool) : Nat := 2 * q + if exact then 0 else 1

/-- m1 2^e1 / (m2 2^e2) rounded to nearest into f; both nonzero. -/
def divRound (f : Fmt) (neg : Bool) (m1 : Nat) (e1 : Int) (m2 : Nat) (e2 : Int) : Nat × Flags :=
  let k := 128 + Nat.log2 m2
  let num := m1 * 2 ^ k
  f.roundFin .rn neg (withSticky (num / m2) (num % m2 == 0)) (e1 - e2 - k - 1)

/-- The square root of m 2^e rounded to nearest into f; m nonzero. -/
def sqrtRound (f : Fmt) (m : Nat) (e : Int) : Nat × Flags :=
  let odd := e % 2 != 0
  let m := if odd then 2 * m else m
  let e := if odd then e - 1 else e
  let n := m * 2 ^ 256
  let r := isqrt n
  f.roundFin .rn false (withSticky r (r * r == n)) (e / 2 - 128 - 1)

/-- The reciprocal square root of m 2^e rounded to nearest into f; m nonzero. -/
def rsqRound (f : Fmt) (m : Nat) (e : Int) : Nat × Flags :=
  let odd := e % 2 != 0
  let m := if odd then 2 * m else m
  let e := if odd then e - 1 else e
  let r := isqrt (2 ^ 400 / m)
  f.roundFin .rn false (withSticky r (r * r * m == 2 ^ 400)) (-(e / 2) - 200 - 1)

/-! ### Fixed point -/

/-- Fraction bits. -/
def fxBits : Nat := 400
/-- One in fixed point. -/
def fxOne : Nat := 2 ^ fxBits
/-- Product of two fixed-point numbers. -/
def fxMul (a b : Nat) : Nat := a * b / fxOne

/-- Σ z^(2k+1)/(2k+1) from a power on: the inverse hyperbolic tangent of z, z ≤ 1/3. -/
def atanhSum (z2 : Nat) : (fuel k pow acc : Nat) → Nat
  | 0, _, _, acc => acc
  | n + 1, k, pow, acc => atanhSum z2 n (k + 2) (fxMul pow z2) (acc + pow / k)

/-- atanh(p / q) for p / q ≤ 1/3. -/
def fxAtanh (p q : Nat) : Nat :=
  let z := p * fxOne / q
  atanhSum (fxMul z z) 140 1 z 0

/-- ln 2 = 2 atanh(1/3). -/
def fxLn2 : Nat := 2 * fxAtanh 1 3

/-- Σ ± z^(2k+1)/(2k+1): the inverse tangent of 1 / q, signs alternating. -/
def atanSum (q2 : Nat) : (fuel k pow : Nat) → (acc : Int) → (plus : Bool) → Int
  | 0, _, _, acc, _ => acc
  | n + 1, k, pow, acc, plus =>
    atanSum q2 n (k + 2) (pow / q2) (if plus then acc + (pow / k : Nat) else acc - (pow / k : Nat)) (!plus)

/-- π = 16 atan(1/5) − 4 atan(1/239). -/
def fxPi : Nat :=
  (16 * atanSum 25 100 1 (fxOne / 5) 0 true - 4 * atanSum (239 * 239) 40 1 (fxOne / 239) 0 true).toNat

/-- Σ x^k/k!: the exponential of x in [0, 1). -/
def expSum (x : Nat) : (fuel k term acc : Nat) → Nat
  | 0, _, _, acc => acc
  | n + 1, k, term, acc => expSum x n (k + 1) (fxMul term x / k) (acc + term)

/-- 2^f for f in [0, 1). -/
def fxExp2 (f : Nat) : Nat := expSum (fxMul f fxLn2) 100 1 fxOne 0

/-- Σ ± x^k/k! over k of one parity: sine from (k, term) = (1, x), cosine from (0, 1). -/
def trigSum (x2 : Nat) : (fuel k term : Nat) → (acc : Int) → (plus : Bool) → Int
  | 0, _, _, acc, _ => acc
  | n + 1, k, term, acc, plus =>
    trigSum x2 n (k + 2) (fxMul term x2 / ((k + 1) * (k + 2)))
      (if plus then acc + (term : Int) else acc - (term : Int)) (!plus)

/-- sin(π t) for t in [0, 1/2], by the sine below a quarter and the cosine above. -/
def fxSinPi (t : Nat) : Nat :=
  if 4 * t ≤ fxOne then
    let x := fxMul t fxPi
    (trigSum (fxMul x x) 60 1 x 0 true).toNat
  else
    let x := fxMul (fxOne / 2 - t) fxPi
    (trigSum (fxMul x x) 60 0 fxOne 0 true).toNat

/-- A fixed-point magnitude that is not the exact result, rounded to nearest into f, times 2^n. -/
def fxRound (f : Fmt) (neg : Bool) (r : Nat) (n : Int) : Nat × Flags :=
  f.roundFin .rn neg (2 * r + 1) (n - fxBits - 1)

/-- m 2^e in fixed point; exact when e ≥ −400. -/
def fxOf (m : Nat) (e : Int) : Nat :=
  let k := e + fxBits
  if 0 ≤ k then m * 2 ^ k.toNat else m / 2 ^ (-k).toNat

/-! ### The functions of R104 on a finite nonzero operand (−1)^neg m 2^e -/

/-- log2 of a positive number. -/
def sfuLg2 (f : Fmt) (m : Nat) (e : Int) : Nat × Flags :=
  let top := Nat.log2 m
  let n : Int := e + top
  if m = 2 ^ top then f.encode .rn (.ofInt n)
  else
    let y := m * fxOne / 2 ^ top
    -- 2 atanh((y − 1)/(y + 1)) / ln 2
    let frac := 2 * fxAtanh (y - fxOne) (y + fxOne) * fxOne / fxLn2
    let v : Int := n * (fxOne : Int) + frac
    fxRound f (decide (v < 0)) (if v < 0 then v.natAbs - 1 else v.toNat) 0

/-- 2^a. Exponents beyond ±400 round as ±400 do in both formats. -/
def sfuEx2 (f : Fmt) (neg : Bool) (m : Nat) (e : Int) : Nat × Flags :=
  if 10 ≤ e + (Nat.log2 m : Int) then f.roundFin .rn false 3 (if neg then -400 else 400)
  else
    let x : Int := (if neg then -1 else 1) * (fxOf m e : Int)
    let n := x / (fxOne : Int)
    let r := (x % (fxOne : Int)).toNat
    if r = 0 then f.roundFin .rn false 1 n else fxRound f false (fxExp2 r) n

/-- a modulo 2 in fixed point, for |a| below 2^30; larger operands of R104 are even integers. -/
def mod2 (m : Nat) (e : Int) : Nat := fxOf m e % (2 * fxOne)

/-- sin(π r) for r in [0, 2): sign, magnitude, and whether it is exact. -/
def sinPi2 (r : Nat) : Bool × Nat × Bool :=
  let neg := decide (fxOne ≤ r)
  let r := r % fxOne
  let t := min r (fxOne - r)
  if t = 0 then (neg, 0, true)
  else if 2 * t = fxOne then (neg, fxOne, true)
  else (neg, fxSinPi t, false)

/-- A sine as the format's value; an exact zero takes the sign given. -/
def trigOut (f : Fmt) (neg zeroNeg : Bool) (mag : Nat) (exact : Bool) : Nat × Flags :=
  if exact then (if mag = 0 then (f.withSign zeroNeg 0, .none) else f.roundFin .rn neg 1 0)
  else fxRound f neg mag 0

/-- sin(π a): an integer gives a zero of a's sign. -/
def sfuSinPi (f : Fmt) (neg : Bool) (m : Nat) (e : Int) : Nat × Flags :=
  if 30 ≤ e then (f.withSign neg 0, .none)
  else
    let (sn, mag, exact) := sinPi2 (mod2 m e)
    trigOut f (sn != neg) neg mag exact

/-- cos(π a) = sin(π (|a| + 1/2)): an odd multiple of a half gives +0. -/
def sfuCosPi (f : Fmt) (m : Nat) (e : Int) : Nat × Flags :=
  if 30 ≤ e then f.roundFin .rn false 1 0
  else
    let (sn, mag, exact) := sinPi2 ((mod2 m e + fxOne / 2) % (2 * fxOne))
    trigOut f sn false mag exact

/-- tanh a = (E − 1)/(E + 1) with E = exp(2 |a|); beyond 64 the result is below 1 by less than 2^−100. -/
def sfuTanh (f : Fmt) (neg : Bool) (m : Nat) (e : Int) : Nat × Flags :=
  if 6 ≤ e + (Nat.log2 m : Int) then f.roundFin .rn neg (2 ^ 100 - 1) (-100)
  else
    let x := 2 * fxOf m e * fxOne / fxLn2
    let big := fxExp2 (x % fxOne) * 2 ^ (x / fxOne)
    fxRound f neg ((big - fxOne) * fxOne / (big + fxOne)) 0

/-- SFU of a, and of b for .div (R104). -/
def sfuEval (f : Fmt) (fn : SfuFn) (a b : Nat) : Nat × Flags :=
  let inf (neg : Bool) : Nat := f.withSign neg f.infBits
  let zero (neg : Bool) : Nat := f.withSign neg 0
  let one (neg : Bool) : Nat := (f.roundFin .rn neg 1 0).1
  let nan : Nat × Flags := (f.canon, .none)
  let invalid : Nat × Flags := (f.canon, .invalid)
  match fn with
  | .rcp => match f.decode a with
    | .nan => nan
    | .inf s => (zero s, .none)
    | .fin s m e => if m = 0 then (inf s, .divZero) else divRound f s 1 0 m e
  | .rsq => match f.decode a with
    | .nan => nan
    | .inf s => if s then invalid else (zero false, .none)
    | .fin s m e => if m = 0 then (inf s, .divZero) else if s then invalid else rsqRound f m e
  | .sqrt => match f.decode a with
    | .nan => nan
    | .inf s => if s then invalid else (inf false, .none)
    | .fin s m e => if m = 0 then (zero s, .none) else if s then invalid else sqrtRound f m e
  | .lg2 => match f.decode a with
    | .nan => nan
    | .inf s => if s then invalid else (inf false, .none)
    | .fin s m e => if m = 0 then (inf true, .divZero) else if s then invalid else sfuLg2 f m e
  | .ex2 => match f.decode a with
    | .nan => nan
    | .inf s => (if s then zero false else inf false, .none)
    | .fin s m e => if m = 0 then (one false, .none) else sfuEx2 f s m e
  | .sinpi => match f.decode a with
    | .nan => nan
    | .inf _ => invalid
    | .fin s m e => if m = 0 then (zero s, .none) else sfuSinPi f s m e
  | .cospi => match f.decode a with
    | .nan => nan
    | .inf _ => invalid
    | .fin _ m e => if m = 0 then (one false, .none) else sfuCosPi f m e
  | .tanh => match f.decode a with
    | .nan => nan
    | .inf s => (one s, .none)
    | .fin s m e => if m = 0 then (zero s, .none) else sfuTanh f s m e
  | .div => match f.decode a, f.decode b with
    | .nan, _ | _, .nan => nan
    | .inf _, .inf _ => invalid
    | .inf s, .fin t _ _ => (inf (s != t), .none)
    | .fin s _ _, .inf t => (zero (s != t), .none)
    | .fin s m e, .fin t n k =>
      if n = 0 then (if m = 0 then invalid else (inf (s != t), .divZero))
      else if m = 0 then (zero (s != t), .none)
      else divRound f (s != t) m e n k

end Sys2Proof.Machine
end

