-- ==== Sys2Proof/Machine/Raster.lean ====
section
/-! DEFINITION. What the tile pipeline computes: checks of draw descriptors and primitive records, exact
coverage and depth, lists and blocks, the compressor and its inverse (spec/11 R275-R283; spec/12 R307, R308;
spec/05 R136; spec/20 R431; spec/21 R432, R433). -/

namespace Sys2Proof.Machine

/-! ### Draw descriptors (R275, R276, R279) -/

/-- Bytes of tile memory that a plane occupies. -/
def planeSize (e : Nat) : Nat :=
  match planeFmt e with
  | 0 => 2048 * planeChan e
  | 1 => 32768 + 1024
  | _ => 4096

/-- A plane entry breaks R276. -/
def planeBad (pages e : Nat) : Bool :=
  (planeFmt e == 1 && planeChan e != 32) || decide (4096 * pages < planeOffs e + planeSize e)

/-- A reserved bit of a draw descriptor is set. -/
def drawReserved (d : BitVec 2048) : Bool :=
  [(63, 50), (127, 116), (255, 200), (319, 308), (383, 372), (447, 436), (511, 500), (575, 564), (639, 608),
   (703, 692), (767, 719), (2047, 1024)].any fun p => fld d p.1 p.2 != 0

/-- A draw descriptor breaks a rule of R275 or R276, its tables apart. -/
def drawBad (d : BitVec 2048) : Bool :=
  drawReserved d || DrawD.prims d == 0 || decide (65536 < DrawD.tiles d) || DrawD.pool d % 4096 != 0 ||
    decide (DrawD.nblk d < DrawD.high d) || decide (DrawD.high d ≤ DrawD.low d) || DrawD.save d % 4096 != 0 ||
    DrawD.tmpages d == 0 || decide (1536 < DrawD.tmpages d) || planeFmt (DrawD.plane d 0) != 2 ||
    (List.range (DrawD.npl d)).any fun k => planeBad (DrawD.tmpages d) (DrawD.plane d k)

/-- An order table holds every tile number once. -/
def orderOk (n : Nat) (l : List Nat) : Bool := l.length == n && (List.range n).all fun t => l.contains t

/-- 16-bit numbers from their bytes. -/
def halves : List Byte → List Nat
  | a :: b :: r => leNat [a, b] :: halves r
  | _ => []

/-- The TASK record of a draw passes R279. -/
def drawTaskOk (d : BitVec 2048) (r : BitVec 1024) : Bool :=
  Rec.ok r && Rec.gang r == 0 && Rec.gate r == 0 && !Rec.trec r && decide (1 ≤ (Rec.startOf r).vreg) &&
    decide (DrawD.tmpages d ≤ (Rec.startOf r).pages)

/-! ### Primitive records (R307) -/

namespace PrimR
/-- Coordinate j of vertex i as FP32 bits. -/
def coord (r : BitVec 512) (i j : Nat) : Nat := fld r (96 * i + 32 * j + 31) (96 * i + 32 * j)
def cull (r : BitVec 512) : Bool := bitAt r 288
def blended (r : BitVec 512) : Bool := bitAt r 289
def fentry (r : BitVec 512) : Nat := fld r 371 320
end PrimR

/-- A primitive record has a reserved bit, a misaligned FENTRY or a coordinate that is not finite (R308). -/
def primBad (r : BitVec 512) : Bool :=
  fld r 319 290 != 0 || fld r 383 372 != 0 || fld r 511 436 != 0 || PrimR.fentry r % 4 != 0 ||
    (List.range 9).any fun k => (Fmt.f32.decode (PrimR.coord r (k / 3) (k % 3))).special

/-! ### Coverage and depth (R308) -/

/-- A finite FP32 value in units of 2^−149. -/
def fix149 (x : Nat) : Int :=
  let v := (Fmt.f32.decode x).ex
  v.n * 2 ^ (v.e + 149).toNat

/-- A triangle in units of 2^−149, its vertices ordered so that twice its area is not negative. -/
structure Tri where
  x0 : Int
  y0 : Int
  z0 : Int
  x1 : Int
  y1 : Int
  z1 : Int
  x2 : Int
  y2 : Int
  z2 : Int
  area : Int
  deriving DecidableEq, Repr

/-- The edge function of the edge from a to b at p. -/
def edgeFn (ax ay bx by_ px py : Int) : Int := (bx - ax) * (py - ay) - (by_ - ay) * (px - ax)

/-- The triangle of a record, in either winding. -/
def triOf (r : BitVec 512) : Tri :=
  let c (i j : Nat) : Int := fix149 (PrimR.coord r i j)
  let a := edgeFn (c 0 0) (c 0 1) (c 1 0) (c 1 1) (c 2 0) (c 2 1)
  if a < 0 then ⟨c 0 0, c 0 1, c 0 2, c 2 0, c 2 1, c 2 2, c 1 0, c 1 1, c 1 2, -a⟩
  else ⟨c 0 0, c 0 1, c 0 2, c 1 0, c 1 1, c 1 2, c 2 0, c 2 1, c 2 2, a⟩

/-- A point with edge value e is inside the edge a to b, or on it where it is a top or a left edge. -/
def edgeIn (ax ay bx by_ e : Int) : Bool :=
  decide (0 < e) || (e == 0 && (decide (by_ < ay) || (by_ == ay && decide (ax < bx))))

/-- Depth bits of the exact ratio num / (den × 2^149), clamped to [0, 1]. -/
def depthBits (num den : Int) : Nat :=
  if num ≤ 0 then 0
  else if den * 2 ^ 149 ≤ num then 0x3F800000
  else (divRound Fmt.f32 false num.toNat 0 den.toNat 149).1

/-- The depth bits of pixel (x, y) of the draw, if the triangle covers it. -/
def Tri.cover (t : Tri) (x y : Nat) : Option Nat :=
  if t.area = 0 then none
  else
    let px : Int := (2 * x + 1 : Nat) * 2 ^ 148
    let py : Int := (2 * y + 1 : Nat) * 2 ^ 148
    let e0 := edgeFn t.x1 t.y1 t.x2 t.y2 px py
    let e1 := edgeFn t.x2 t.y2 t.x0 t.y0 px py
    let e2 := edgeFn t.x0 t.y0 t.x1 t.y1 px py
    if edgeIn t.x1 t.y1 t.x2 t.y2 e0 && edgeIn t.x2 t.y2 t.x0 t.y0 e1 && edgeIn t.x0 t.y0 t.x1 t.y1 e2 then
      some (depthBits (e0 * t.z0 + e1 * t.z1 + e2 * t.z2) t.area)
    else none

/-- Integers lo to hi of a range of 0 to n − 1 in which the pixels of a span of coordinates lie. -/
def pixelSpan (a b c : Int) (n : Nat) : List Nat :=
  let lo := (min a (min b c)) / 2 ^ 149
  let hi := (max a (max b c)) / 2 ^ 149
  if hi < 0 ∨ (n : Int) ≤ lo then []
  else
    let l := (max 0 lo).toNat
    upto l (min (n - 1) hi.toNat + 1 - l)

/-- q of pixel (x, y) of a tile (R136). -/
def pixelQ (x y : Nat) : Nat := (y / 8 * 4 + x / 8) * 64 + y % 8 * 8 + x % 8

/-- Pixel (x, y) of q. -/
def pixelXY (q : Nat) : Nat × Nat := (q / 64 % 4 * 8 + q % 8, q / 256 * 8 + q / 8 % 8)

/-- The tiles a triangle's bounding box meets. -/
def triTiles (d : BitVec 2048) (t : Tri) : List Nat :=
  let xs := ((pixelSpan t.x0 t.x1 t.x2 (32 * DrawD.tx d)).map (· / 32)).eraseDups
  let ys := ((pixelSpan t.y0 t.y1 t.y2 (32 * DrawD.ty d)).map (· / 32)).eraseDups
  ys.flatMap fun y => xs.map fun x => y * DrawD.tx d + x

/-- The covered pixels of a record in a tile: q and depth bits, in increasing q. -/
def tilePixels (d : BitVec 2048) (r : BitVec 512) (tile : Nat) : List (Nat × Nat) :=
  if PrimR.cull r then []
  else
    let t := triOf r
    (List.range 1024).filterMap fun q =>
      let (x, y) := pixelXY q
      (t.cover (32 * (tile % DrawD.tx d) + x) (32 * (tile / DrawD.tx d) + y)).map fun z => (q, z)

/-- The tile set of a primitive: every tile that holds a covered pixel, in increasing order. -/
def tileSet (d : BitVec 2048) (r : BitVec 512) : List Nat :=
  if PrimR.cull r then [] else (triTiles d (triOf r)).filter fun t => !(tilePixels d r t).isEmpty

/-! ### Waves (R281) -/

/-- The depth plane: its offset in tile memory. -/
def depthPlane (d : BitVec 2048) : Option Nat :=
  ((List.range (DrawD.npl d)).find? fun k => planeFmt (DrawD.plane d k) == 3).map fun k => planeOffs (DrawD.plane d k)

/-- The depth of each pixel after a record. -/
def resolveOne (depth : List Nat) (px : List (Nat × Nat)) : List Nat :=
  px.foldl (fun (l : List Nat) e => modAt l e.1 fun z => min z e.2) depth

/-- The pixels that records shade, in commit order: record index, q. An opaque record passes where it equals
the resolved depth, lies below the depth before the wave, and is the first such. -/
def shaded (recs : List (Bool × List (Nat × Nat))) (before after : Option (List Nat)) : List (Nat × Nat) :=
  match before, after with
  | some b, some a =>
    ((recs.zipIdx).foldl (fun (acc : List Nat × List (Nat × Nat)) e =>
      let ((blended, px), i) := e
      let hit := px.filter fun (q, z) =>
        if blended then decide (z < a.getD q 0)
        else z == a.getD q 0 && decide (z < b.getD q 0) && !acc.1.contains q
      (if blended then acc.1 else acc.1 ++ hit.map Prod.fst, acc.2 ++ hit.map fun e => (i, e.1))) ([], [])).2
  | _, _ => (recs.zipIdx).flatMap fun e => e.1.2.map fun p => (e.2, p.1)

/-! ### Blocks of the surface (R282, R283, R431) -/

/-- Channel c of a pixel. -/
def chan (p c : Nat) : Nat := nbits p (8 * c + 7) (8 * c)

/-- The 252 deltas of a block. -/
def blockDeltas (px : List Nat) : List Int :=
  (upto 1 63).flatMap fun q => (List.range 4).map fun c =>
    sx (wrap ((chan (px.getD q 0) c : Int) - chan (px.getD (q - 1) 0) c) 8) 8

/-- The least width that holds every delta. -/
def deltaWidth (ds : List Int) : Option Nat :=
  (upto 1 7).find? fun w => ds.all fun x => decide (-(2 ^ (w - 1) : Nat) ≤ x) && decide (x ≤ (2 ^ (w - 1) : Nat) - 1)

/-- Bytes of a delta-coded slot. -/
def deltaBytes (w : Nat) : Nat := 4 + (252 * w + 7) / 8

/-- Two's-complement fields of w bits, packed from bit 0. -/
def packFields (w : Nat) : List Int → Nat
  | [] => 0
  | x :: r => wrap x w + 2 ^ w * packFields w r

/-- Mode byte and slot bytes of a block of 64 pixels. -/
def compress (clear : Nat) (px : List Nat) : Nat × List Byte :=
  if px.all (· == clear) then (0x00, [])
  else match deltaWidth (blockDeltas px) with
    | some w => (0x40 + w, leBytes 4 (px.headD 0) ++ leBytes (deltaBytes w - 4) (packFields w (blockDeltas px)))
    | none => (0x80, px.flatMap (leBytes 4))

/-- A mode byte is legal (R282). -/
def modeOk (m : Nat) : Bool :=
  match m / 64 with
  | 0 | 2 => m % 64 == 0
  | 1 => decide (1 ≤ m % 64) && decide (m % 64 ≤ 7)
  | _ => false

/-- Bytes that DCMP reads of a slot. -/
def slotBytes (m : Nat) : Nat := if m / 64 = 1 then deltaBytes (m % 64) else 0

/-- The pixels of a delta-coded block by prefix sums. -/
def undelta (w field : Nat) : (n q prev : Nat) → List Nat
  | 0, _, _ => []
  | n + 1, q, prev =>
    let p := (List.range 4).foldl (fun (a : Nat) c =>
      let x := sx (field / 2 ^ (w * (4 * q + c))) w
      a + wrap ((chan prev c : Int) + x) 8 * 2 ^ (8 * c)) 0
    p :: undelta w field n (q + 1) p

/-- The pixels of a block that is not raw. -/
def decompress (clear m : Nat) (slot : List Byte) : List Nat :=
  if m / 64 = 0 then List.replicate 64 clear
  else
    let p := leNat (slot.take 4)
    p :: undelta (m % 64) (leNat (slot.drop 4)) 63 0 p

/-! ### Lists and flushes (R432, R433, R280) -/

/-- A tile as first seen. -/
def Tile.unseen : Tile := ⟨.unseen, [], [], false⟩

/-- Tile t of a draw. -/
def Draw.tile (d : Draw) (t : Nat) : Tile := sget d.tiles t Tile.unseen
/-- Put a tile. -/
def Draw.setTile (d : Draw) (t : Nat) (x : Tile) : Draw := { d with tiles := sput d.tiles t x }

/-- The pool block that the next allocation takes: the lowest that no list holds (log 88). HIGH is at most NBLK, so
there is one. -/
def Draw.newBlock (d : Draw) : Nat :=
  ((List.range (DrawD.nblk d.desc)).find? fun b => d.tiles.all fun e => !e.2.blocks.contains b).getD 0

/-- A record joins a tile's list; `block` when it takes a new block. -/
def Draw.append (d : Draw) (p : Prim) (t : Nat) (block : Bool) : Draw :=
  let x := d.tile t
  { d.setTile t { x with recs := x.recs ++ [p], blocks := x.blocks ++ if block then [d.newBlock] else []
                         state := if x.state = .unseen then .binned else x.state } with
    used := d.used + if block then 1 else 0 }

/-- Records that need a new block, one allocation each: the draw, and the tiles whose allocation is held. -/
def Draw.place (d : Draw) (p : Prim) : List Nat → Draw × List Nat
  | [] => (d, [])
  | t :: r => if DrawD.high d.desc < d.used + 1 then (d, t :: r) else (d.append p t true).place p r

/-- What the LCE has written of a list once its newest record is in it: the block, and the record's place there (R432). -/
def Tile.newest (x : Tile) : Option (Nat × Nat) := x.blocks.getLast?.map fun b => (b, (x.recs.length - 1) % 8)

/-- The lists to which a draw has added a record since: block and place. -/
def Draw.added (old new : Draw) : List (Nat × Nat) :=
  new.tiles.filterMap fun e => if (old.tile e.1).recs.length < e.2.recs.length then e.2.newest else none

/-- The flush walk over a list of tiles: those issued for flush. -/
def Draw.walk (d : Draw) (held : List Nat) : List Nat → Nat → List Nat
  | [], _ => []
  | t :: r, left =>
    let x := d.tile t
    if !held.contains t && (x.state = .binned || (x.state = .partialSaved && !x.recs.isEmpty)) then
      let left := left - x.blocks.length
      t :: if left ≤ DrawD.low d.desc then [] else d.walk held r left
    else d.walk held r left

/-- A flush begins with an allocation held. -/
def Draw.startFlush (d : Draw) (clk : Nat) (p : Prim) (held : List Nat) : Draw :=
  let l := d.walk held d.forders d.used
  { d with flush := some ⟨l, l, p, held, clk, l.isEmpty⟩ }

/-- A primitive is committed. -/
def Draw.next1 (d : Draw) (clk : Nat) : Draw :=
  { d with buf := d.buf.filter fun e => e.1 != d.next, next := d.next + 1, since := clk }

/-- Place what is left of a primitive: it is committed, or a flush begins. -/
def Draw.finish (d : Draw) (clk : Nat) (p : Prim) (ts : List Nat) : Draw :=
  let (e, held) := d.place p ts
  if held.isEmpty then { e with flush := none }.next1 clk else e.startFlush clk p held

/-- Commit a primitive: records that need no block first. -/
def Draw.commit (d : Draw) (clk : Nat) (p : Prim) : Draw :=
  let ts := tileSet d.desc p.record
  let fits (t : Nat) : Bool := (d.tile t).recs.length % 8 != 0
  let e := (ts.filter fits).foldl (fun (e : Draw) t => e.append p t false) d
  e.finish clk p (ts.filter fun t => !fits t)

end Sys2Proof.Machine
end

