-- ==== Sys2Proof/Machine/Draws.lean ====
section
/-! DEFINITION. Submission and commit of primitives, and flushes of the list pool (spec/11 R277, R278, R280;
spec/12 R306-R308; spec/21 R432, R433). -/

namespace Sys2Proof.Machine

/-- Change a draw. -/
def State.modDraw (s : State) (key : Nat) (f : Draw → Draw) : State :=
  { s with draws := s.draws.map fun d => if d.key = key then f d else d }

/-! ### Commit (R277, R348) -/

/-- An event record when a flush has no tile. -/
def State.flushNote (s : State) (key : Nat) : State :=
  match s.drawOf key with
  | none => s
  | some d => match d.flush with
    | some f => if f.stuck then s.emitOnce (.flushStuck key f.prim.s) else s
    | none => s

/-- Header and record places of a pool block: 64 bytes, then eight records in the rest of its 4 KiB (R432, log 88). -/
def recBytes : Nat := 504

/-- Where the pool block of a record of a draw lies: its virtual address. -/
def Draw.poolAddr (d : Draw) (e : Nat × Nat) : Nat := DrawD.pool d.desc + 4096 * e.1

/-- The LCE translates the blocks that it is to write: it waits for one that is being moved, and stops on one that is not
mapped (R321, R322). -/
def State.poolReady (s : State) (d : Draw) (l : List (Nat × Nat)) : EngRes Unit :=
  l.foldl (fun (acc : EngRes Unit) e => acc.andThen fun _ =>
    match s.translate (s.schedSpace d.ctx) .store (d.poolAddr e) with
    | .ok _ => .ok ()
    | .bad c => if c = Cause.page then .page (d.poolAddr e) else .ok ()
    | .wait => .wait) (.ok ())

/-- The LCE writes a record and its block's header into the pool of a draw, in the draw's address space. What the bytes are
is open, and so is a pool that may not be stored to: nothing is written there (log 88). -/
def State.poolPut (s : State) (d : Draw) (e : Nat × Nat) : State :=
  match s.translate (s.schedSpace d.ctx) .store (d.poolAddr e) with
  | .ok x =>
    let at_ (s : State) (off n : Nat) : State := s.writeHome schedDie { x with key := x.key + off }
      (leBytes n (Config.freeNat s.stepNo (400000 + 8 * e.1 + e.2 + off)))
    at_ (at_ s 0 64) (64 + recBytes * e.2) recBytes
  | .bad _ | .wait => s

/-- A draw moves on, and the LCE writes what its lists have gained into the pool. While a block is being moved it waits; on
one that is not mapped it stops with one event record, before any effect (R133, R322, log 88). -/
def State.putDraw (s : State) (old new : Draw) : State :=
  match s.poolReady new (old.added new) with
  | .ok _ => (old.added new).foldl (fun (s : State) e => s.poolPut new e)
      (s.modDraw old.key fun _ => { new with stopped := none })
  | .page va =>
    let t := s.modDraw old.key fun d => { d with stopped := some va }
    if old.stopped = some va then t else t.faultRecord 0 old.ctx va
  | .bad _ | .wait => s

/-- The LCEs of a draw do not stand on a fault, or it is time to translate again (R133, log 95). -/
def State.poolTries (s : State) (d : Draw) : Bool := d.stopped.isNone || s.clk % 4096 == 0

/-- The lowest uncommitted primitive of a draw is committed, if it has been submitted: not while a flush holds
commits, nor while meeting point 1 is closed. -/
def State.commitNext (s : State) (key : Nat) : State :=
  match s.drawOf key with
  | none => s
  | some d =>
    if d.killed || d.flush.isSome || !s.mp1Open || !s.poolTries d then s
    else match d.buf.find? fun e => e.1 == d.next with
      | none => s
      | some (_, _, p) => (s.putDraw d (d.commit s.clk p)).flushNote key

/-- COMMIT. -/
def execCommit (draw : Nat) (s : State) : Host.Outcome State Fault Refusal := .next (s.commitNext draw)

/-! ### BIN (R308, R277) -/

/-- Read and check a draw descriptor, its tables and its TASK record as loads of the lane's thread: none when
it breaks a rule. -/
def Ctx.readDraw (x : Ctx) (s : State) (va : Nat) : Res (Option DrawRead) :=
  if va % 256 ≠ 0 then .ok none
  else (s.loadWords x.space x.die va 32).andThen fun bs =>
    let d := BitVec.ofNat 2048 (leNat bs)
    if drawBad d || DrawD.task d % 128 != 0 then .ok none
    else
      let n := DrawD.tiles d
      (s.loadEach x.space x.die (DrawD.torder d) (2 * n)).andThen fun t =>
        (s.loadEach x.space x.die (DrawD.forder d) (2 * n)).andThen fun f =>
          if !orderOk n (halves t) || !orderOk n (halves f) then .ok none
          else (s.loadWords x.space x.die (DrawD.task d) 16).andThen fun r =>
            let r := BitVec.ofNat 1024 (leNat r)
            .ok (if drawTaskOk d r then some ⟨d, r, halves t, halves f⟩ else none)

/-- A lane's primitive after the checks that concern no other lane. -/
def Ctx.readPrim (x : Ctx) (s : State) (d b : BitVec 7) (dr : Res (Option DrawRead)) (l : Nat) : Res (DrawRead × Prim) :=
  let ea := (x.v64 b.toNat l).toNat
  let n := (x.v d.toNat l).toNat
  if ea % 64 ≠ 0 then .bad Cause.align
  else dr.andThen fun o =>
    match o with
    | none => .bad Cause.prot
    | some r => (s.loadWords x.space x.die ea 8).andThen fun bs =>
      let p := BitVec.ofNat 512 (leNat bs)
      if primBad p || decide (DrawD.prims r.desc ≤ n) then .bad Cause.prot else .ok (r, ⟨n, p⟩)

/-- The draw that an address space has bound at a descriptor address. -/
def State.boundDraw (s : State) (ctx va : Nat) : Option Draw :=
  s.draws.find? fun d => d.ctx == ctx && d.addr == va && !d.killed

/-- Entries of a die's buffer in use. -/
def State.dieBuffer (s : State) (die : Nat) : Nat :=
  s.draws.foldl (fun n d => n + (d.buf.filter fun e => e.2.1 == die).length) 0

/-- What a submission comes to. -/
inductive Submit where
  | taken (s : State)
  | bad
  /-- the die's buffer is full: the BIN waits for this draw -/
  | full (draw : Nat)

/-- The state in which a descriptor is bound, and its draw. -/
def Ctx.bindDraw (x : Ctx) (s : State) (va : Nat) (r : DrawRead) : State × Draw :=
  match s.boundDraw x.g.ctx va with
  | some d => (s, d)
  | none =>
    let d : Draw := { key := s.fresh, addr := va, ctx := x.g.ctx, desc := r.desc, record := r.record, torders := r.torders
                      forders := r.forders, next := 0, accepted := [], buf := [], tiles := [], used := 0, flush := none
                      since := s.clk, killed := false, stopped := none }
    ({ s.bump with draws := s.draws ++ [d] }, d)

/-- A lane's primitive is accepted, skipped, refused, or waits. -/
def Ctx.submit (x : Ctx) (s : State) (va l : Nat) (r : DrawRead) (p : Prim) : Submit :=
  let tid := (x.th l).tid
  let (t, d) := x.bindDraw s va r
  let take (die : Nat) : State := t.modDraw d.key fun d =>
    { d with accepted := d.accepted ++ [⟨p.s, x.g.gid, tid, x.g.task⟩], buf := d.buf ++ [(p.s, die, p)] }
  match d.accepted.find? fun e => e.s == p.s with
  | some e => if e.gid = x.g.gid ∧ e.tid = tid then .taken s else .bad
  | none =>
    if DrawD.prims d.desc ≤ p.s then .bad
    else if p.s = d.next then .taken ((take 8).commitNext d.key)
    else if s.dieBuffer x.die < 256 then .taken (take x.die)
    else .full d.key

/-- The lanes of a BIN in increasing s, equal s in lane order: the state, the lanes with PROT, and the draw
the BIN waits for. -/
def Ctx.submitAll (x : Ctx) (va : Nat) : List (Nat × DrawRead × Prim) → State → List Nat → State × List Nat × Option Nat
  | [], s, bad => (s, bad, none)
  | (l, r, p) :: rest, s, bad =>
    match x.submit s va l r p with
    | .taken t => x.submitAll va rest t bad
    | .bad => x.submitAll va rest s (l :: bad)
    | .full key => (s, bad, some key)

/-- What a lane's BIN reads, kept while it is stalled; the cause of a lane that raises one. -/
def binLane (l va : Nat) (r : Res (DrawRead × Prim)) : BinLane :=
  match r with
  | .ok p => ⟨l, 0, va, some p, 0⟩
  | .bad c => ⟨l, 0, va, none, c⟩
  | .wait => ⟨l, 0, va, none, 0⟩

/-- The lanes of a BIN with what they read: once, at issue; a lane that is stalled has what it read then (R308). None
while a read has to wait. -/
def Ctx.binReads (x : Ctx) (d b : BitVec 7) (va : Nat) : Option (List BinLane) :=
  let kept (l : Nat) : Option BinLane := x.w.binStall.find? fun e => e.lane == l
  let dr := x.readDraw x.s va
  let new := (x.ls.filter fun l => (kept l).isNone).map fun l => (l, x.readPrim x.s d b dr l)
  if new.any fun e => match e.2 with | .wait => true | .ok _ | .bad _ => false then none
  else some (x.ls.filterMap kept ++ new.map fun e => binLane e.1 va e.2)

/-- What a BIN has read leaves its copies of edge-ordered lines: the descriptor with its tables and its TASK record, and the
records of the lanes that read now (R181). -/
def Ctx.binTouch (x : Ctx) (b : BitVec 7) (va : Nat) : State :=
  let new := x.ls.filter fun l => !(x.w.binStall.any fun e => e.lane == l)
  let go (s : State) (a n : Nat) : State := s.touchSpan x.space x.die a n
  if new.isEmpty then x.s
  else
    let s := if va % 256 = 0 then go x.s va 256 else x.s
    let s := match x.readDraw x.s va with
      | .ok (some r) => go (go (go s (DrawD.torder r.desc) (2 * DrawD.tiles r.desc)) (DrawD.forder r.desc)
          (2 * DrawD.tiles r.desc)) (DrawD.task r.desc) 128
      | .ok none | .bad _ | .wait => s
    (new.filter fun l => (x.v64 b.toNat l).toNat % 64 == 0).foldl (fun s l => go s (x.v64 b.toNat l).toNat 64) s

/-- The draw that a lane of the set waits for was killed. -/
def Ctx.binKilled (x : Ctx) : Bool :=
  x.w.binStall.any fun b => x.ls.contains b.lane && (x.s.drawOf b.draw).any (·.killed)

/-- Lanes of a BIN no longer wait. -/
def Ctx.binClear (x : Ctx) (s : State) : State :=
  x.modW s fun w => { w with binStall := w.binStall.filter fun b => !x.ls.contains b.lane }

/-- BIN; one that is performed abandons a recording (R367). -/
def execBin (d : BitVec 7) (a : BitVec 6) (b : BitVec 7) (s : State) : Host.Outcome State Fault Refusal :=
  runWord (.bin d a b) s fun x =>
    let va := (x.u64 a.toNat).toNat
    if x.binKilled then x.park (x.binClear x.s) x.lanes (Cause.bit Cause.prot)
    else match x.binReads d b va with
      | none => x.stall x.s .other
      | some rs =>
        let x := { x with s := x.binTouch b va }
        let good := rs.filterMap fun e => e.read.map fun r => (e.lane, r.1, r.2)
        let faults := (rs.filter fun e => e.read.isNone).map fun e => (e.lane, e.cause)
        match x.submitAll va (sortBy (fun e => 64 * e.2.2.s + e.1) good) x.s [] with
        | (t, _, some key) => x.stall (x.modW (x.binClear t) fun w =>
            { w with binStall := w.binStall ++ rs.map fun e => { e with draw := key } }) .other
        | (t, bad, none) =>
          let pass := x.ls.filter fun l => !bad.contains l && !faults.any fun f => f.1 == l
          let t := if pass.isEmpty then t else t.abandon x.g.gang 2
          x.parkAll (x.advance (x.binClear t) pass) (faults ++ bad.map fun l => (l, Cause.prot))

/-! ### Flushes (R280, R433) -/

/-- Blocks of tiles that a flush saved return to the pool. -/
def Draw.freeBlocks (d : Draw) (ts : List Nat) : Draw :=
  ts.foldl (fun (d : Draw) t => { d.setTile t { d.tile t with blocks := [] } with used := d.used - (d.tile t).blocks.length }) d

/-- Once every tile of the flush is PARTIAL, its blocks return and the held allocations are made. -/
def State.flushDone (s : State) (key : Nat) : State :=
  match s.drawOf key with
  | none => s
  | some d => match d.flush with
    | none => s
    | some f =>
      if f.stuck || !f.todo.isEmpty || !s.mp1Open || !s.poolTries d || f.tiles.any fun t => (d.tile t).state != .partialSaved then s
      else (s.putDraw d ((d.freeBlocks f.tiles).finish s.clk f.prim f.held)).flushNote key

/-- FLUSH_COMPLETE. -/
def execFlushComplete (draw : Nat) (s : State) : Host.Outcome State Fault Refusal := .next (s.flushDone draw)

/-- What a tile group of a draw asks of a core. -/
def Draw.ask (d : Draw) : List Ask := asksOf [d.record]

/-- The core without a gang, its units being reclaimed all free (R280). -/
def State.without (s : State) (core gang : Nat) : State :=
  (((s.core core).gangGroups gang).foldl (fun (s : State) g => s.leave core g.gk false) s).modCore core fun k =>
    { k with recPages := [], recSlots := [] }

/-- Groups stalled on a BIN of a draw whose gang's swap-out lets the flush group in: core, gang, order. -/
def State.flushVictims (s : State) (d : Draw) : List (Nat × Nat × Nat) :=
  s.cores.flatMap fun e => e.2.groups.filterMap fun g =>
    if g.stop.isNone && g.warps.any (fun w => w.binStall.any fun b => b.draw == d.key) && s.coreOpen e.1 &&
        (s.without e.1 g.gang).canAdmit e.1 d.ask then some (e.1, g.gang, g.entered) else none

/-- A flush group that no core has admitted for 4096 clocks has a stalled BIN group swapped out. -/
def State.flushEvict (s : State) (d : Draw) (f : Flush) : State :=
  if f.stuck || f.todo.isEmpty || decide (s.clk < f.since + 4096) then s
  else
    let late := (s.flushVictims d).foldl (fun n v => max n v.2.2) 0
    match (s.flushVictims d).find? fun v => v.2.2 == late with
    | none => s
    | some (core, gang, _) => (s.escape core gang 0 2 0 0).modDraw d.key fun d =>
        { d with flush := d.flush.map fun f => { f with since := s.clk } }

/-- FLUSH_STALL. -/
def execFlushStall (draw : Nat) (s : State) : Host.Outcome State Fault Refusal :=
  match s.drawOf draw with
  | none => .next s
  | some d => match d.flush with
    | none => .next s
    | some f => .next (s.flushEvict d f)

/-- BINNING_STALL: no primitive committed for 2^24 clocks; the record repeats as long as that lasts. -/
def execBinningStall (draw : Nat) (s : State) : Host.Outcome State Fault Refusal :=
  match s.drawOf draw with
  | none => .next s
  | some d =>
    if d.killed || decide (DrawD.prims d.desc ≤ d.next) || decide (s.clk < d.since + 2 ^ 24) then .next s
    else .next ((s.emit (.binStall draw d.next)).modDraw draw fun d => { d with since := s.clk })

end Sys2Proof.Machine
end

