-- ==== Sys2Proof/Machine/Tile.lean ====
section
/-! DEFINITION. Owned tiles: issue, the two waves, write-back, and the instructions that reach tile memory and
the surface (spec/11 R279, R281-R283; spec/12 R309-R313; spec/07 R187). -/

namespace Sys2Proof.Machine

/-! ### Tile memory -/

/-- Key of offset `off` of a group's tile memory (R429). -/
def Group.tileKey (g : Group) (core off : Nat) : Nat := lsKey core (g.pages.getD (off / 4096) 0 * 4096 + off % 4096)

/-- The 32-bit units of a plane of RGBA8 or depth, by q. -/
def State.planeWords (s : State) (core : Nat) (g : Group) (offs : Nat) : List Nat :=
  (List.range 1024).map fun q => s.num (g.tileKey core (offs + 4 * q)) 4

/-- Write the 32-bit units of a plane. -/
def State.setPlane (s : State) (core : Nat) (g : Group) (offs : Nat) (l : List Nat) : State :=
  (l.zipIdx).foldl (fun (s : State) e => s.putNum (g.tileKey core (offs + 4 * e.2)) 4 e.1) s

/-- Tile memory of a first issue: CLEAR in plane 0, all ones in depth planes, zero elsewhere. -/
def State.clearTile (s : State) (core : Nat) (g : Group) (d : BitVec 2048) : State :=
  let s := s.setPlane core g (planeOffs (DrawD.plane d 0)) (List.replicate 1024 (DrawD.clear d))
  ((List.range (DrawD.npl d)).filter fun k => planeFmt (DrawD.plane d k) == 3).foldl (fun (s : State) k =>
    s.setPlane core g (planeOffs (DrawD.plane d k)) (List.replicate 1024 0xFFFFFFFF)) s

/-! ### Issue (R279, R280) -/

/-- The next tile of a draw to be issued, and whether for good: final issues are of tiles that no group has owned since
their last save, so that one whose issue has ended without its group stays as it is (R279). -/
def Draw.nextTile (d : Draw) : Option (Nat × Bool) :=
  if d.killed then none
  else match d.flush with
    | some f => if f.stuck then none else f.todo.head?.map fun t => (t, false)
    | none =>
      if d.next < DrawD.prims d.desc then none
      else (d.torders.find? fun t => (d.tile t).state == .unseen || (d.tile t).state == .binned || (d.tile t).state == .partialSaved).map fun t => (t, true)

/-- The lowest core that can admit a tile group of a draw. -/
def State.tileCore (s : State) (d : Draw) : Option Nat :=
  (List.range 1024).find? fun c => s.coreOpen c && s.canAdmit c d.ask

/-- The Dealer moves past a tile it has issued. -/
def Draw.issued (d : Draw) (clk t : Nat) (final : Bool) : Draw :=
  let x := d.tile t
  let e := d.setTile t { x with state := if final then .ownedFinal else .ownedFlush }
  if final then e
  else { e with flush := d.flush.map fun f => { f with todo := f.todo.drop 1, since := clk } }

/-- A tile is issued to a core: its group is admitted with its tile memory set up. -/
def State.issueTile (s : State) (core : Nat) (d : Draw) (t : Nat) (final : Bool) : State :=
  let reload := (d.tile t).saved
  let o : Own := { draw := d.key, tile := t, final := final, visDone := false, pending := [], waveDone := false
                   tdone := false, closed := false, addr := d.addr, drain := none, reload := reload, stopped := none }
  let gk := s.fresh
  let u := s.seat core ⟨d.ctx, t, none, some o, some (BitVec.ofNat 32 t), false, false⟩ [d.record] []
  let u := u.modDraw d.key fun d => d.issued s.clk t final
  match u.group? core gk with
  | none => u
  | some g => if reload then u.reloadTile core g o else u.clearTile core g d.desc

/-! ### Waves (R281) -/

/-- The owned tile of a group whose waves may run. -/
def State.waveTile (s : State) (core gk : Nat) : Option (Group × Own × Draw) :=
  (s.group? core gk).bind fun g => g.tile.bind fun o =>
    if o.closed || o.reload || g.stop.isSome then none else (s.drawOf o.draw).map fun d => (g, o, d)

/-- The visibility wave: depth is resolved, and the fragments of the shading wave are set out. Pending spills of the group
are written first (R178). -/
def State.visWave (s0 : State) (core : Nat) (g : Group) (o : Own) (d : Draw) : State :=
  let s := s0.drainSpills core fun p => p.gk == g.gk
  let recs := (d.tile o.tile).recs
  let pix := recs.map fun p => (PrimR.blended p.record, tilePixels d.desc p.record o.tile)
  let before := (depthPlane d.desc).map fun offs => (offs, s.planeWords core g offs)
  let after := before.map fun b => (pix.filter fun e => !e.1).foldl (fun (l : List Nat) e => resolveOne l e.2) b.2
  let t := match before, after with
    | some (offs, b), some a => if b = a then s else s.setPlane core g offs a
    | _, _ => s
  let frags := (shaded pix (before.map Prod.snd) after).map fun (i, q) =>
    let r := (recs.map (·.record)).getD i 0
    let (x, y) := pixelXY q
    (q, BitVec.ofNat 52 (PrimR.fentry r), (recs.map (·.s)).getD i 0, x + 32 * y)
  t.modOwn core g.gk fun o => { o with visDone := true, pending := frags, waveDone := frags.isEmpty }

/-- VISIBILITY_WAVE. -/
def execVisibilityWave (core gk : Nat) (s : State) : Host.Outcome State Fault Refusal :=
  match s.waveTile core gk with
  | none => .next s
  | some (g, o, d) => .next (if o.visDone then s else s.visWave core g o d)

/-- Spawn fragments of a list while there are thread slots, at most n: the state, and those left. -/
def State.spawnFrags (s : State) (core : Nat) (g : Group) : (n : Nat) → List (Nat × Addr × Nat × Nat) →
    State × List (Nat × Addr × Nat × Nat)
  | 0, l => (s, l)
  | _, [] => (s, [])
  | n + 1, (q, entry, seq, pix) :: rest =>
    let lvl := Rec.digits g.record (g.gid.toNat * Rec.groupThreads g.record)
    match s.spawn core g.gk entry lvl 0 fun th =>
      { ((th.setV 0 (BitVec.ofNat 32 pix)).setV 1 (BitVec.ofNat 32 seq)).setV 2 (BitVec.ofNat 32 q) with
        frag := some ⟨q, seq⟩ } with
    | none => (s, (q, entry, seq, pix) :: rest)
    | some t => t.spawnFrags core g n rest

/-- SHADING_WAVE: at most 32 fragments in a clock. -/
def execShadingWave (core gk : Nat) (s : State) : Host.Outcome State Fault Refusal :=
  match s.waveTile core gk with
  | none => .next s
  | some (g, o, _) =>
    if !o.visDone || o.pending.isEmpty then .next s
    else
      let (t, rest) := s.spawnFrags core g 32 o.pending
      .next (t.modOwn core gk fun o => { o with pending := rest, waveDone := rest.isEmpty })

/-! ### Write-back (R282, R312) -/

/-- Addresses and bytes of a run, cut at 8-byte boundaries. -/
def cut8 (va : Nat) : List Byte → (fuel : Nat) → List (Nat × List Byte)
  | _, 0 => []
  | [], _ => []
  | bs, n + 1 =>
    let k := 8 - va % 8
    (va, bs.take k) :: cut8 (va + k) (bs.drop k) n

/-- The first failure of a list of stores, before any is made. -/
def State.storesFail (s : State) (sp : Space) (die : Nat) : List (Nat × List Byte) → Option (Nat × Option Nat)
  | [] => none
  | (va, bs) :: r => match s.storeCheck sp die va bs.length with
    | .ok _ _ => s.storesFail sp die r
    | .bad _ c => some (va, some c)
    | .wait => some (va, none)

/-- Stores one after the other. -/
def State.storesDo (s : State) (sp : Space) (die : Nat) (l : List (Nat × List Byte)) : State :=
  l.foldl (fun (s : State) e => match s.storeBytes sp die e.1 e.2 with
    | .ok t _ => t
    | .bad t _ => t
    | .wait => s) s

/-- The bytes of block b of plane 0 that are poisoned, by unit. -/
def State.blockBad (s : State) (core : Nat) (g : Group) (offs b : Nat) : List Nat :=
  (List.range 32).filter fun u => s.poisoned (g.tileKey core (offs + 256 * b + 8 * u)) 8

/-- The stores of block b of a final tile: slot first, then its mode byte. A block with a poisoned unit goes
out raw, with its poison. -/
def State.blockStores (s : State) (core : Nat) (g : Group) (d : BitVec 2048) (tile b : Nat) : List (Nat × List Byte) :=
  let offs := planeOffs (DrawD.plane d 0)
  let px := (List.range 64).map fun i => s.num (g.tileKey core (offs + 256 * b + 4 * i)) 4
  let (mode, bs) := if (s.blockBad core g offs b).isEmpty then compress (DrawD.clear d) px else (0x80, px.flatMap (leBytes 4))
  let n := 16 * tile + b
  cut8 (DrawD.colour d + 256 * n) bs 64 ++ [(DrawD.modes d + n, [BitVec.ofNat 8 mode])]

/-- Poisoned units of the written blocks follow them. -/
def State.blockPoison (s : State) (core : Nat) (g : Group) (sp : Space) (d : BitVec 2048) (tile : Nat) : State :=
  let offs := planeOffs (DrawD.plane d 0)
  (List.range 16).foldl (fun (t : State) b => (s.blockBad core g offs b).foldl (fun (t : State) u =>
    match t.translate sp .store (DrawD.colour d + 256 * (16 * tile + b) + 8 * u) with
    | .ok x => t.poisonHere (dieOf core) (x.key / 8)
    | .bad _ | .wait => t) t) s

/-- The pages of a save: address, and the key of the page of tile memory. -/
def Group.savePages (g : Group) (core : Nat) (d : BitVec 2048) (tile : Nat) : List (Nat × Nat) :=
  (List.range (DrawD.tmpages d)).map fun p => (saveAddr d tile + 4096 * p, g.tileKey core (4096 * p))

/-- The first page of a save that does not translate. -/
def State.saveFail (s : State) (sp : Space) : List (Nat × Nat) → Option (Nat × Option Nat)
  | [] => none
  | (va, _) :: r => match s.translate sp .store va with
    | .ok _ => s.saveFail sp r
    | .bad c => some (va, some c)
    | .wait => some (va, none)

/-- Tile memory written raw to the save area, poison with it. -/
def State.savePage (s : State) (sp : Space) (die : Nat) (e : Nat × Nat) : State :=
  match s.translate sp .store e.1 with
  | .ok x =>
    let bad := (List.range 512).filter fun u => s.poisoned (e.2 + 8 * u) 8
    bad.foldl (fun (s : State) u => s.poisonHere die (x.key / 8 + u)) (s.writeAt die x (s.bytes e.2 4096))
  | .bad _ | .wait => s

/-- The tile's next state, and the end of the draw with its last tile (R279, R275). -/
def State.tileOver (s : State) (o : Own) : State :=
  let s := s.modDraw o.draw fun d =>
    let x := d.tile o.tile
    d.setTile o.tile (if o.final then { x with state := .retired } else { x with state := .partialSaved, recs := [], saved := true })
  { s with draws := s.draws.filter fun d => d.key != o.draw || d.killed || (List.range (DrawD.tiles d.desc)).any fun t =>
      (d.tile t).state != .retired }

/-- Threads of a group that wait at TDONE. -/
def Group.tdoneWaiters (g : Group) : List Nat := (g.threads.filter fun e => e.2.wait == .tdone).map Prod.fst

/-- The wait of TDONE has come to the point where its engine entries are known: every fragment spawned, and
every fragment thread gone or waiting. -/
def Group.tdoneReady (g : Group) (o : Own) : Bool :=
  !g.tdoneWaiters.isEmpty && o.visDone && o.pending.isEmpty &&
    g.threads.all fun e => e.2.frag.isNone || e.2.wait == .tdone

/-- Queued entries of a group that name a LAYOUT 2 descriptor. -/
def Core.planeEntries (k : Core) (gk : Nat) : List Nat :=
  ((k.mq ++ k.cq).filter fun e => e.gk == gk && (Dsc.layout e.op.desc == 2 || Dsc.layout e.op.src == 2)).map (·.eid)

/-- TDONE cannot write: a missing page is reported and tried again, any other cause is raised on the threads
that wait. -/
def State.tdoneFail (s : State) (core : Nat) (g : Group) (o : Own) (va : Nat) (cause : Option Nat) : State :=
  match cause with
  | none => s
  | some c =>
    if c = Cause.page then
      let t := s.modOwn core g.gk fun o => { o with stopped := some va }
      if o.stopped = some va then t else t.faultRecord core g.ctx va
    else
      let t := s.modOwn core g.gk fun o => { o with tdone := false, drain := none, stopped := none }
      (g.warps.zipIdx).foldl (fun (t : State) e =>
        t.parkLanes core g.gk e.2 ((g.liveLanes e.1).filter fun l => (e.1.tslot l).any g.tdoneWaiters.contains)
          (Cause.bit c)) t

/-- TDONE writes the tile, changes its state and lets its threads go on; spills of the group that are pending are written
before it (R178, R312), and a recording is abandoned (R367). -/
def State.tdoneWrite (s0 : State) (core : Nat) (g : Group) (o : Own) (d : Draw) : State :=
  let s := s0.drainSpills core fun p => p.gk == g.gk
  let sp := g.space core g.sup
  let die := dieOf core
  let stores := (List.range 16).flatMap (s.blockStores core g d.desc o.tile)
  let pages := g.savePages core d.desc o.tile
  match if o.final then s.storesFail sp die stores else s.saveFail sp pages with
  | some (va, c) => s.tdoneFail core g o va c
  | none =>
    let t := if o.final then (s.storesDo sp die stores).blockPoison core g sp d.desc o.tile
      else pages.foldl (fun (t : State) e => t.savePage sp die e) s
    let t := (t.tileOver o).modOwn core g.gk fun o => { o with closed := true, tdone := false, drain := none, stopped := none }
    (t.release core g.gk g.tdoneWaiters).abandon g.gang 2

/-- WRITE_BACK. -/
def execWriteBack (core gk : Nat) (s : State) : Host.Outcome State Fault Refusal :=
  match s.waveTile core gk with
  | none => .next s
  | some (g, o, d) =>
    if !g.tdoneReady o then .next (s.modOwn core gk fun o => { o with drain := none })
    else
      let left := (s.core core).planeEntries gk
      let wait := o.drain.getD left
      if wait.any left.contains then .next (s.modOwn core gk fun o => { o with drain := some wait })
      else if o.stopped.isSome && s.clk % 4096 != 0 then .next s
      else .next (s.tdoneWrite core g o d)

/-! ### TDONE (R312) -/

/-- TDONE: the lanes wait for the write-back. -/
def execTdone (s : State) : Host.Outcome State Fault Refusal :=
  runWord .tdone s fun x =>
    match x.s.ownDesc x.g with
    | none => x.raise Cause.prot
    | some _ => x.waitAt (x.s.modOwn x.core x.g.gk fun o => { o with tdone := true }) x.ls .tdone

/-! ### PLD and PST (R309) -/

/-- An operation that a tape does not hold is performed: a recording is abandoned (R367). -/
def LaneRes.untaped (gang : Nat) (r : LaneRes) : LaneRes :=
  match r with
  | .ok s f l => .ok (s.abandon gang 2) f l
  | .bad s c => .bad s c
  | .hold s => .hold s
  | .wait => .wait

/-- Plane, channel and pixel of a PLD or PST lane: offset, channels, format, q, c. -/
def planeLane (e v : Nat) : Nat × Nat × Nat × Nat × Nat :=
  (lsWindow + planeOffs e, if planeFmt e < 2 then planeChan e else 1, planeFmt e, nbits v 9 0, nbits v 21 16)

/-- One lane of PLD. -/
def Ctx.pldLane (x : Ctx) (d a : BitVec 7) (e : Nat) (s : State) (l : Nat) : LaneRes :=
  let (o, n, f, q, c) := planeLane e (x.v a.toNat l).toNat
  let put (v : Nat) : LaneRes := .ok s (·.setV d.toNat (BitVec.ofNat 32 v)) []
  if n ≤ c then .bad s Cause.prot
  else if f = 0 then (s.loadBytes x.space x.die (o + (q * n + c) * 2) 2).lane s fun r => put (leNat r.2)
  else if f = 1 then (s.loadBytes x.space x.die (o + q * 32 + c) 1).lane s fun r =>
    (s.loadBytes x.space x.die (o + 32768 + q) 1).lane s fun k =>
      put (Fmt.f32.rne (mxVal (leNat r.2) (leNat k.2)))
  else (s.loadBytes x.space x.die (o + 4 * q) 4).lane s fun r => put (leNat r.2)

/-- One lane of PST. -/
def Ctx.pstLane (x : Ctx) (d a : BitVec 7) (e : Nat) (s : State) (l : Nat) : LaneRes :=
  let (o, n, f, q, c) := planeLane e (x.v a.toNat l).toNat
  let v := (x.v d.toNat l).toNat
  if n ≤ c then .bad s Cause.prot
  else if f = 1 then .bad s Cause.fmtstore
  else if f = 0 then (s.storeBytes x.space x.die (o + (q * n + c) * 2) (leBytes 2 v)).lane fun s _ => .ok s id []
  else (s.storeBytes x.space x.die (o + 4 * q) (leBytes 4 v)).lane fun s _ => .ok s id []

/-- The plane entry that PLD and PST name, for every lane, in a free order of lanes (R164). -/
def Ctx.onPlane (x : Ctx) (p : BitVec 4) (f : Nat → State → Nat → LaneRes) : State :=
  match x.s.ownDesc x.g with
  | none => x.raise Cause.prot
  | some d =>
    if DrawD.npl d ≤ p.toNat then x.raise Cause.illop
    else x.perLane (x.s.laneOrder x.ls) .none fun s l => (f (DrawD.plane d p.toNat) s l).untaped x.g.gang

/-- PLD. -/
def execPld (d a : BitVec 7) (p : BitVec 4) (s : State) : Host.Outcome State Fault Refusal :=
  runWord (.pld d a p) s fun x => x.onPlane p fun e s l => x.pldLane d a e s l

/-- PST. -/
def execPst (d a : BitVec 7) (p : BitVec 4) (s : State) : Host.Outcome State Fault Refusal :=
  runWord (.pst d a p) s fun x => x.onPlane p fun e s l => x.pstLane d a e s l

/-! ### SAMPLE (R310) -/

/-- floor of an exact number. -/
def Ex.floor (x : Ex) : Int := if 0 ≤ x.e then x.n * 2 ^ x.e.toNat else x.n / 2 ^ (-x.e).toNat

/-- a − b exactly. -/
def Ex.sub (a b : Ex) : Ex := Ex.add a ⟨-b.n, b.e⟩

/-- A texel index mapped into a dimension. -/
def texIndex (clamp : Bool) (n : Nat) (i : Int) : Nat :=
  if clamp then (min (max i 0) ((n : Int) - 1)).toNat else (i % (n : Int)).toNat

/-- The texels that contribute and their weights. -/
def texTerms (clamp lin : Bool) (w h : Nat) (u v : Ex) : List (Ex × Nat × Nat) :=
  let one : Ex := ⟨1, 0⟩
  let uw := Ex.mul u ⟨w, 0⟩
  let vh := Ex.mul v ⟨h, 0⟩
  if lin then
    let x := Ex.sub uw ⟨1, -1⟩
    let y := Ex.sub vh ⟨1, -1⟩
    let x0 := x.floor
    let y0 := y.floor
    let fx := Ex.sub x ⟨x0, 0⟩
    let fy := Ex.sub y ⟨y0, 0⟩
    let gx := Ex.sub one fx
    let gy := Ex.sub one fy
    ([(Ex.mul gx gy, x0, y0), (Ex.mul fx gy, x0 + 1, y0), (Ex.mul gx fy, x0, y0 + 1), (Ex.mul fx fy, x0 + 1, y0 + 1)].filter
      fun e => e.1.n != 0).map fun e => (e.1, texIndex clamp w e.2.1, texIndex clamp h e.2.2)
  else [(one, texIndex clamp w uw.floor, texIndex clamp h vh.floor)]

/-- The weighted texels of a list, read in order. -/
def State.texRead (s : State) (sp : Space) (die : Nat) (t : TileOp) : List (Ex × Nat × Nat) → Res (List FVal)
  | [] => .ok []
  | (w, x, y) :: r => (s.tileRead sp die t y x).andThen fun e =>
    (s.texRead sp die t r).andThen fun l => .ok ((FVal.mul (FVal.ofEx w false) (rawVal t.code e)).1 :: l)

/-- The format a texture's texels are placed by: the one its descriptor names, else that of the page of its first texel
(R75, R122); each texel's own page is checked as it is read. -/
def State.texFormat (s : State) (sp : Space) (t : Desc) : Res Nat :=
  if Dsc.fmtsel t ≠ 0 then .ok (Dsc.fmtsel t)
  else (s.translate sp .load (Dsc.base t)).andThen fun x => effFmt x.fmt 0

/-- The texels of a list leave their copies of edge-ordered lines (R181). -/
def State.texTouch (s : State) (sp : Space) (die : Nat) (t : TileOp) (l : List (Ex × Nat × Nat)) : State :=
  l.foldl (fun (s : State) e =>
    let (va, nib) := tilePos t.d (elemBits t.code) e.2.2 e.2.1
    match s.elemParts sp (Dsc.fmtsel t.d) t.code va nib with
    | .ok (ps, _) => s.touchParts die (ps.map fun p => (p.1, p.2.2))
    | .bad _ | .wait => s) s

/-- One lane of SAMPLE. -/
def Ctx.sampleLane (x : Ctx) (clamp lin : Bool) (d : BitVec 7) (t : Desc) (b : BitVec 7) (s : State) (l : Nat) : LaneRes :=
  let u := Fmt.f32.decode (x.v b.toNat l).toNat
  let v := Fmt.f32.decode (x.v (b.toNat + 1) l).toNat
  let put (s : State) (n : Nat) : LaneRes := .ok s (·.setV d.toNat (BitVec.ofNat 32 n)) []
  if u.special || v.special then put s Fmt.f32.canon
  else (s.texFormat x.space t).lane s fun code =>
      let op : TileOp := ⟨t, none, code⟩
      let terms := texTerms clamp lin (Dsc.cols t + 1) (Dsc.rows t + 1) u.ex v.ex
      (s.texRead x.space x.die op terms).lane s fun vs =>
        let s := s.texTouch x.space x.die op terms
        match vs with
        | [one] => put s (Fmt.f32.rne one)
        | _ =>
          let r := sumVals vs .rn
          put s (if r.2 then Fmt.f32.canon else Fmt.f32.rne r.1)

/-- SAMPLE. -/
def execSample (clamp lin : Bool) (d : BitVec 7) (t : BitVec 5) (b : BitVec 7) (s : State) :
    Host.Outcome State Fault Refusal :=
  runWord (.sample clamp lin d t b) s fun x =>
    let desc := x.w.t t.toNat
    if Dsc.layout desc = 2 then x.raise Cause.illop
    else x.perLane (x.s.laneOrder x.ls) .none fun s l => x.sampleLane clamp lin d desc b s l

/-! ### BLEND (R311, R187) -/

/-- One channel of a blend: source, destination, source alpha. -/
def blendChan (op : BlendOp) (s d a : Nat) : Nat :=
  match op with
  | .rep => s
  | .over => min 255 (s + (d * (255 - a) + 127) / 255)
  | .add => min 255 (s + d)
  | .mul => (s * d + 127) / 255

/-- A blended pixel. -/
def blendPixel (op : BlendOp) (src dst : Nat) : Nat :=
  (List.range 4).foldl (fun n c => n + blendChan op (chan src c) (chan dst c) (chan src 3) * 2 ^ (8 * c)) 0

/-- A fragment of the same pixel with a lower sequence number is still to come or to end. -/
def Group.fragBefore (g : Group) (o : Own) (f : Frag) : Bool :=
  (o.pending.any fun p => p.1 == f.q && decide (p.2.2.1 < f.seq)) ||
    g.threads.any fun e => e.2.wait != .tdone && e.2.frag.any fun h => h.q == f.q && decide (h.seq < f.seq)

/-- One lane of BLEND. -/
def Ctx.blendLane (x : Ctx) (op : BlendOp) (a b : BitVec 7) (d : BitVec 2048) (o : Own) (s : State) (l : Nat) : LaneRes :=
  let q := nbits (x.v a.toNat l).toNat 9 0
  let src := (x.v b.toNat l).toNat
  match (x.th l).frag with
  | none => .bad s Cause.prot
  | some f =>
    if f.q ≠ q then .bad s Cause.prot
    else if (x.g' s).fragBefore o f then .hold s
    else (s.atomBytes x.space x.die (lsWindow + planeOffs (DrawD.plane d 0) + 4 * q) 4 fun v =>
      some (blendPixel op src v)).lane fun s _ => .ok s id []

/-- BLEND. -/
def execBlend (op : BlendOp) (a b : BitVec 7) (s : State) : Host.Outcome State Fault Refusal :=
  runWord (.blend op a b) s fun x =>
    match x.s.ownDesc x.g, x.g.tile with
    | some d, some o => x.perLane (x.s.laneOrder x.ls) (.retry (.blend op a b) x.s.stepNo) fun s l =>
        (x.blendLane op a b d o s l).untaped x.g.gang
    | _, _ => x.raise Cause.prot

/-! ### DCMP (R313, R283) -/

/-- Load n bytes cut at 8-byte boundaries. -/
def State.loadCut (s : State) (sp : Space) (die va n : Nat) : Res (List Byte) :=
  (cut8 va (List.replicate n 0) (n / 8 + 2)).foldl (fun (acc : Res (List Byte)) e =>
    acc.andThen fun l => (s.loadBytes sp die e.1 e.2.length).andThen fun r => .ok (l ++ r.2)) (.ok [])

/-- The rewriting of one block. -/
def Ctx.dcmpBlock (x : Ctx) (s : State) (d : BitVec 2048) (n : Nat) : LaneRes :=
  let slot := DrawD.colour d + 256 * n
  let mode := DrawD.modes d + n
  (s.loadBytes x.space x.die mode 1).lane s fun mb =>
    let m := leNat mb.2
    let s := s.touchSpan x.space x.die mode 1
    if !modeOk m then .bad s Cause.dataerr
    else if m / 64 = 2 then .ok s id []
    else if slot % 8 ≠ 0 then .bad s Cause.align
    else (s.loadCut x.space x.die slot (slotBytes m)).lane s fun bs =>
      let s := if slotBytes m = 0 then s else s.touchSpan x.space x.die slot (slotBytes m)
      let l := cut8 slot ((decompress (DrawD.clear d) m bs).flatMap (leBytes 4)) 64 ++ [(mode, [0x80])]
      match s.storesFail x.space x.die l with
      | some (_, some c) => .bad s c
      | some (_, none) => .wait
      | none => .ok (s.storesDo x.space x.die l) id []

/-- One lane of DCMP. -/
def Ctx.dcmpLane (x : Ctx) (a : BitVec 6) (b : BitVec 7) (s : State) (l : Nat) : LaneRes :=
  let va := (x.u64 a.toNat).toNat
  let n := (x.v b.toNat l).toNat
  if va % 256 ≠ 0 then .bad s Cause.align
  else (s.loadWords x.space x.die va 32).lane s fun bs =>
    let s := s.touchSpan x.space x.die va 256
    let d := BitVec.ofNat 2048 (leNat bs)
    if 16 * DrawD.tiles d ≤ n then .bad s Cause.prot else x.dcmpBlock s d n

/-- DCMP. -/
def execDcmp (a : BitVec 6) (b : BitVec 7) (s : State) : Host.Outcome State Fault Refusal :=
  runWord (.dcmp a b) s fun x =>
    x.perLane (x.s.laneOrder x.ls) .none fun s l => (x.dcmpLane a b s l).untaped x.g.gang

end Sys2Proof.Machine
end

