-- ==== Sys2Proof/Machine/Choose.lean ====
section
/-! DEFINITION. The choice of what is admitted next, the admission, the re-entry of an image, the issue of a
tile, and YIELD (spec/11 R268-R270, R279, R280; spec/13 R316; spec/14 R343, R351; spec/12 R293). -/

namespace Sys2Proof.Machine

/-! ### Candidates (R269) -/

/-- Whether a record at a queue head may be admitted. -/
inductive Ready where
  | yes
  | no
  /-- held, with an event record (R268, R316, R382) -/
  | held
  deriving DecidableEq, Repr

/-- The context descriptor of an address space can be used. -/
def State.ctxUsable (s : State) (ctx : Nat) : Bool :=
  !s.poisoned (Config.contextTable + 64 * ctx) 64 && ctxValid (s.ctxDesc ctx)

/-- The gate of a record: open, shut, or not to be reached (R268). -/
def State.gateReady (s : State) (t : Task) : Ready :=
  let a := Rec.gate t.lead
  if a = 0 then .yes
  else match s.translate (s.schedSpace t.ctx) .load a with
    | .wait => .no
    | .bad _ => .held
    | .ok x =>
      if !isLpddr x.key || s.poisoned x.key 4 then .held
      else if leNat (s.readAt schedDie x a 4) = 0 then .yes else .no

/-- The signal word of a record can be reached (R268). -/
def State.signalReady (s : State) (t : Task) : Ready :=
  if Rec.signal t.lead = 0 then .yes
  else match s.gateOk (s.schedSpace t.ctx) .atomic (Rec.signal t.lead) with
    | .ok true => .yes
    | .ok false | .bad _ => .held
    | .wait => .no

/-- A task with units to admit, at the head of an enabled queue. GATE and EN are read at every admission decision, also once
some groups of the record have been admitted (log 86). -/
def State.taskReady (s : State) (t : Task) : Ready :=
  if t.total ≤ t.next ∨ 512 ≤ t.q ∨ nbit (s.queue t.q) 56 = false then .no
  else if !s.ctxUsable t.ctx then .held
  else match s.signalReady t with
    | .yes => s.gateReady t
    | .no => .no
    | .held => .held

/-- A candidate. -/
inductive Cand where
  | image (slot : Nat)
  | record (t : Nat)
  | tile (draw : Nat)
  deriving DecidableEq, Repr

/-- An image that can be re-entered as far as the image goes. -/
def State.imageReady (s : State) (n : Nat) : Bool := !s.imgPoisoned n && s.imgStatus n == 0

/-- The candidates, each with its deadline and its rank among equal deadlines. Final issues come after
records on a tie: the spec orders them with other tasks by the deadline only (log 40). -/
def State.candidates (s : State) : List (Nat × Nat × Cand) :=
  ((s.imagesAt 1).filter s.imageReady).map (fun n => (Rec.deadline (s.imgRecord n (s.imgAreas n) 0), n, Cand.image n)) ++
  (s.tasks.filter fun t => s.taskReady t == .yes).map (fun t => (Rec.deadline t.lead, 2 ^ 32 + t.q, Cand.record t.key)) ++
  s.draws.filterMap fun d => match d.nextTile with
    | some (_, true) => if s.ctxUsable d.ctx then some (Rec.deadline d.record, 2 ^ 33 + d.key, Cand.tile d.key) else none
    | some (_, false) | none => none

/-- The lowest core that can take an image. -/
def State.imageCore (s : State) (n : Nat) : Option Nat := (List.range 1024).find? fun c => s.canRestore n c

/-- Some core can take a candidate. -/
def State.fits (s : State) (c : Cand) : Bool :=
  match c with
  | .image n => (s.imageCore n).isSome
  | .record key => (s.tasks.find? fun t => t.key == key).any fun t => (s.placeTask t).isSome
  | .tile key => (s.drawOf key).any fun d => (s.tileCore d).isSome

/-- A flush group that some core can take goes before every other candidate (R280). -/
def State.flushFirst (s : State) : Bool :=
  s.draws.any fun d => match d.nextTile with
    | some (_, false) => s.ctxUsable d.ctx && (s.tileCore d).isSome
    | some (_, true) | none => false

/-- The scheduler's choice: the earliest deadline among the candidates that some core can take. -/
def State.chosen (s : State) : Option Cand :=
  if !s.mp1Open || s.flushFirst then none
  else (minBy (fun e => e.1 * 2 ^ 64 + e.2.1) (s.candidates.filter fun e => s.fits e.2.2)).map fun e => e.2.2

/-! ### Admission (R269, R266) -/

/-- The record of a task is consumed once its last group is admitted. -/
def State.admitted (s : State) (t : Task) : State :=
  match s.placeTask t with
  | none => s
  | some u => if (u.tasks.find? fun v => v.key == t.key).any fun v => decide (v.total ≤ v.next) then u.consume t.q else u

/-- ADMISSION of the head record of a queue. -/
def execAdmission (q : Nat) (s : State) : Host.Outcome State Fault Refusal :=
  match s.tasks.find? fun t => t.q == q && decide (t.next < t.total) with
  | none => .next s
  | some t =>
    if !s.mp1Open then .next s
    else match s.taskReady t with
      | .no => .next s
      | .held => .next (s.emitOnce (.hold q t.index))
      | .yes => .next (match s.placing t with
        | none => s
        | some u => if !u.beyond t then u else if s.chosen = some (.record t.key) then s.admitted t else s)

/-! ### Re-entry (R343, R351, R135) -/

/-- The saved planes and the tile of a gang are reloaded. -/
def State.reloadGang (s : State) (core gang : Nat) : State :=
  let t := s.reloadPlanes core gang 8
  ((t.core core).gangGroups gang).foldl (fun (t : State) g => match g.tile with
    | some o => if o.reload && !o.closed then t.reloadTile core g o else t
    | none => t) t

/-- RESTORE of an image on a core. -/
def execRestore (slot core : Nat) (s : State) : Host.Outcome State Fault Refusal :=
  if !s.mp1Open || !(s.imagesAt 1).contains slot then .next s
  else if s.imgPoisoned slot then .next (s.emitOnce (.imageHold slot))
  else if s.imgStatus slot ≠ 0 then .next (s.refuseImage slot (s.imgStatus slot) core)
  else if s.chosen = some (.image slot) ∧ s.canRestore slot core = true then
    let t := s.loadImage slot core
    .next (match (t.core core).groups.getLast? with
      | some g => t.reloadGang core g.gang
      | none => t)
  else .next s

/-! ### Issue of a tile (R279, R280) -/

/-- A pre-emption in progress has stopped the Dealer for a tile of a draw on a core (R348). -/
def Scope.stopsTile (sc : Scope) (d : Draw) (tile core : Nat) : Bool :=
  match sc with
  | .gang ctx gid => d.ctx == ctx && tile == gid
  | .job ctx job => d.ctx == ctx && Rec.job d.record == job
  | .core c => c == core
  | .package => true

/-- TILE_ISSUE. -/
def execTileIssue (draw tile core : Nat) (s : State) : Host.Outcome State Fault Refusal :=
  match s.drawOf draw with
  | none => .next s
  | some d => match d.nextTile with
    | none => .next s
    | some (t, final) =>
      if t ≠ tile ∨ s.mp1Open = false ∨ (s.preempt.any fun p => p.scopes.any fun sc => Scope.stopsTile sc d t core) = true then .next s
      else if !s.ctxUsable d.ctx then .next (s.emitOnce (.tileHold draw tile))
      else if s.tileCore d ≠ some core ∨ (final = true ∧ s.chosen ≠ some (.tile draw)) then .next s
      else .next (s.issueTile core d t final)

/-! ### YIELD (R293, R270) -/

/-- A candidate with an earlier deadline is held because no core can take it. -/
def State.pressed (s : State) (deadline : Nat) : Bool :=
  s.candidates.any fun e => decide (e.1 < deadline) && !s.fits e.2.2

/-- The gang stops, to re-enter by itself at its own record's deadline. -/
def State.offer (s : State) (core : Nat) (g : Group) : State :=
  if g.stop.isSome || !s.pressed (Rec.deadline (s.leadOf g)) then s
  else (s.escape core g.gang 0 2 0 0).modGang core g.gang fun h => { h with stop := h.stop.map fun st => { st with disp := 1 } }

/-- YIELD. -/
def execYield (s : State) : Host.Outcome State Fault Refusal :=
  runWord .yield s fun x =>
    let s := x.modG (x.done x.s fun _ th => th) fun g =>
      { g with budget := Rec.budget (x.s.leadOf x.g), budgetRaised := false }
    s.offer x.core (x.g' s)

end Sys2Proof.Machine
end

