-- ==== Sys2Proof/Machine/Mailbox.lean ====
section
/-! DEFINITION. The root mailbox and the SPDM responder (spec/13 R323-R326, R329; spec/01 R23). -/

namespace Sys2Proof.Machine

/-- Answer a mailbox command. -/
def State.mail (s : State) (a : MailAnswer) : State := { s with mailOut := s.mailOut ++ [a] }

/-- The callers that R326 names for a command code. -/
def mailAccepts (who : Caller) (code : Nat) : Bool :=
  match code, who with
  | 1, _ | 5, _ => true
  | 2, .host | 3, .host | 4, .host => true
  | _, _ => false

/-- A command is performed for a caller the table names, and refused with no effect for any other. -/
def State.command (s : State) (who : Caller) (code : Nat) (f : State → State) : Host.Outcome State Fault Refusal :=
  .next (if mailAccepts who code then f s else s.mail .refused)

/-- LOG_READ: the measurement log from an index on. -/
def execLogRead (who : Caller) (index : Nat) (s : State) : Host.Outcome State Fault Refusal :=
  s.command who 1 fun s => s.mail (.log (s.mlog.drop index))

/-- The fields of a peer aperture record; its reserved bits read as 0 (R6, R148). -/
def apertureBits (r : DWord) : Nat := fld r 18 0

/-- The fields of an export record; its reserved bits read as 0 (R6, R329). -/
def exportBits (r : BitVec 128) : Nat := fld r 21 0 + fld r 121 64 * 2 ^ 64

/-- APERTURE_SET: one record of the peer aperture table, as one access; bits given for reserved fields are not kept: what
becomes of them is open, and that they read as 0 is what R6 asks (log 71). -/
def execApertureSet (who : Caller) (n : BitVec 9) (r : DWord) (s : State) : Host.Outcome State Fault Refusal :=
  s.command who 2 fun s => (s.putNum (Config.apertureTable + 8 * n.toNat) 8 (apertureBits r)).mail .done

/-- EXPORT_SET: one record of the export table, as one access; bits given for reserved fields are not kept (log 71). -/
def execExportSet (who : Caller) (n : BitVec 8) (r : BitVec 128) (s : State) : Host.Outcome State Fault Refusal :=
  s.command who 3 fun s => (s.putNum (Config.exportTable + 16 * n.toNat) 16 (exportBits r)).mail .done

/-- The verification of an image (R323): 0 passed, 1 bad signature, 2 counter below the fuse. -/
def fwCheck (img : FwImage) : Nat := if !img.sigOk then 1 else if img.version < Config.antiRollback then 2 else 0

/-- An update image is stored in the place of one of its kind. -/
def storeImage (l : List FwImage) (img : FwImage) : List FwImage := l.filter (fun i => i.which != img.which) ++ [img]

/-- FW_STAGE: an image that passes is stored for the next reset. -/
def execFwStage (who : Caller) (img : FwImage) (s : State) : Host.Outcome State Fault Refusal :=
  s.command who 4 fun s =>
    ({ s with staged := if fwCheck img = 0 then storeImage s.staged img else s.staged }).mail (.fw (fwCheck img))

/-- STATUS. -/
def execStatus (who : Caller) (s : State) : Host.Outcome State Fault Refusal :=
  s.command who 5 fun s => s.mail (.status s.bootStage s.recovery s.lastCommit)

/-- A command code outside the fixed set, or from a caller not allowed: nothing is performed. -/
def execMailboxRefused (who : Caller) (code : Nat) (s : State) : Host.Outcome State Fault Refusal :=
  .next (if mailAccepts who code then s else s.mail .refused)

/-! ### SPDM (R325) -/

/-- The bytes of the measurement blocks: stage, version and digest of each entry, in log order. -/
def logBytes (l : List LogEntry) : List Byte :=
  l.flatMap fun e => leBytes 8 e.stage ++ leBytes 8 e.version ++ leBytes 64 e.digest.toNat

/-- Number of a request. -/
def SpdmRequest.num : SpdmRequest → Nat
  | .getVersion => 0
  | .getCapabilities => 1
  | .negotiateAlgorithms => 2
  | .getDigests => 3
  | .getCertificate => 4
  | .challenge => 5
  | .getMeasurements => 6

/-- The bytes of an answer that are signed: which answer it is, and what it holds (log 8). -/
def SpdmBody.bytes : SpdmBody → List Byte
  | .versions l => leBytes 1 0 ++ l.flatMap (leBytes 1)
  | .capabilities l => leBytes 1 1 ++ l.flatMap fun r => leBytes 1 r.num
  | .algorithms a h => leBytes 1 2 ++ leBytes 4 a ++ leBytes 4 h
  | .digests l => leBytes 1 3 ++ l.flatMap fun e => leBytes 1 e.1 ++ leBytes 64 e.2.toNat
  | .certificate n c => leBytes 1 4 ++ leBytes 1 n ++ c
  | .challengeAuth n => leBytes 1 5 ++ n
  | .measurements l => leBytes 1 6 ++ logBytes l
  | .unsupportedRequest => leBytes 1 7

/-- Answer an SPDM request, signed by root firmware with the device-identity key. -/
def State.spdm (s : State) (b : SpdmBody) : State := { s with spdmOut := s.spdmOut ++ [⟨b, Config.sign b.bytes⟩] }

/-- The requests that are answered. -/
def spdmRequests : List SpdmRequest :=
  [.getVersion, .getCapabilities, .negotiateAlgorithms, .getDigests, .getCertificate, .challenge, .getMeasurements]

/-- GET_VERSION: 1.2 and 1.3. -/
def execGetVersion (s : State) : Host.Outcome State Fault Refusal := .next (s.spdm (.versions [0x12, 0x13]))

/-- GET_CAPABILITIES: the requests that are answered. -/
def execGetCapabilities (s : State) : Host.Outcome State Fault Refusal := .next (s.spdm (.capabilities spdmRequests))

/-- NEGOTIATE_ALGORITHMS: RSASSA with a 4096-bit key and SHA-512, and no other. -/
def execNegotiateAlgorithms (s : State) : Host.Outcome State Fault Refusal := .next (s.spdm (.algorithms 4096 512))

/-- GET_DIGESTS of the one slot. -/
def execGetDigests (s : State) : Host.Outcome State Fault Refusal :=
  .next (s.spdm (.digests [(0, Config.sha512 Config.certificate)]))

/-- GET_CERTIFICATE of slot 0. -/
def execGetCertificate (s : State) : Host.Outcome State Fault Refusal := .next (s.spdm (.certificate 0 Config.certificate))

/-- CHALLENGE: signed with the device-identity key. -/
def execChallenge (nonce : List Byte) (s : State) : Host.Outcome State Fault Refusal :=
  .next (s.spdm (.challengeAuth nonce))

/-- GET_MEASUREMENTS: one block for each log entry, in log order. -/
def execGetMeasurements (s : State) : Host.Outcome State Fault Refusal := .next (s.spdm (.measurements s.mlog))

/-- Sessions, key exchange and mutual authentication are not supported. -/
def execUnsupportedRequest (r : SpdmUnsupported) (s : State) : Host.Outcome State Fault Refusal :=
  match r with
  | .session | .keyExchange | .mutualAuth => .next (s.spdm .unsupportedRequest)

end Sys2Proof.Machine
end

