-- ==== Sys2Proof/Machine/Manage.lean ====
section
/-! DEFINITION. The management plane: the error log, scrubbing, telemetry, reset, power and thermal control
(spec/16 R379-R384, R442; spec/23 R437-R441;
spec/13 R323, R324). -/

namespace Sys2Proof.Machine

/-! ### Error log (R440) -/

/-- The fields of an error-log entry below SEQ. -/
def logRecord (ts store : Nat) (uncorr : Bool) (addr synd : Nat) : Nat :=
  ts % 2 ^ 64 + store % 256 * 2 ^ 64 + (if uncorr then 2 ^ 72 else 0) + addr % 2 ^ 52 * 2 ^ 96 + synd % 2 ^ 32 * 2 ^ 160

/-- Key of the log slot of a sequence number. -/
def logSlot (seq : Nat) : Nat := Config.mgmtArea + 0x100000 + 32 * ((seq - 1) % 61440)

/-- An error is logged, SEQ last, and then reported through meeting point 2. The syndrome is open (log 1). -/
def State.logError (s : State) (store : Nat) (uncorr : Bool) (addr : Nat) : State :=
  let seq := (s.logSeq + 1).toNat
  let k := logSlot seq
  let synd := Config.freeNat s.stepNo 200000
  (((({ s with logSeq := s.logSeq + 1 }).putNum k 24 (logRecord s.ts.toNat store uncorr addr synd)).putNum (k + 28) 4 0).putNum
    (k + 24) 4 seq).emit (.errorLog seq)

/-- Store code of the error log for a place an error is found at (R440). -/
def ErrAt.store : ErrAt → Nat
  | .word n _ => n
  | .block _ => 4
  | .vector _ _ _ _ | .uniform _ _ _ _ | .accum _ _ => 6
  | .tag _ _ => 1
  | .link _ => 7

/-- ADDR of a link: the port number, and above it which links they are, 0 die-to-die, 1 Rolik and 2 the host's (R440; log
90). -/
def linkAddr : Option Link → Nat
  | some (.d2d n) => n
  | some (.rolik n) => n + 2 ^ 8
  | none => 2 ^ 9

/-- The lowest aperture that names an endpoint. -/
def State.apertureOf (s : State) (e : Nat) : Option Nat :=
  (List.range 512).find? fun i => nbit (s.aperture (i * 2 ^ 41)) 18 && s.peerEnd (i * 2 ^ 41) == e

/-- The physical address of a word or a block by its key: one of a peer's memory lies in the peer window, at the lowest
aperture that names the peer (R147, R148; log 90). -/
def State.unitAddr (s : State) (k : Nat) : Nat :=
  if 2 ^ 55 ≤ k then
    match s.apertureOf ((k - 2 ^ 55) / 2 ^ 41) with
    | some i => 2 ^ 51 + i * 2 ^ 41 + (k - 2 ^ 55) % 2 ^ 41
    | none => Config.freeNat s.stepNo 200003
  else k

/-- The unit address that the log gives: the word or the block for a store that has physical addresses, and the link and
port number for a link; what it is for the other stores is open (log 1). -/
def State.errAddr (s : State) (e : ErrAt) : Nat :=
  match e with
  | .word n k => if n = 2 ∨ n = 3 then s.unitAddr (k / 8 * 8) else Config.freeNat s.stepNo 200003
  | .block k => k / 32 * 32
  | .vector _ _ _ _ | .uniform _ _ _ _ | .accum _ _ | .tag _ _ => Config.freeNat s.stepNo 200003
  | .link l => linkAddr l

/-- A word of a line of host or peer memory is poisoned in an L2 that holds the line; which die's, where several do, is
open (log 1). -/
def State.poisonHeld (s : State) (k : Nat) : State :=
  let dies := (s.edge.filter fun e => e.line == k / 128).map (·.die)
  match dies[s.choose 200004 dies.length]? with
  | some die => s.poisonCopy die (k / 8)
  | none => s

/-- The unit that an uncorrectable error is found in is poisoned (R380, R381). -/
def State.poisonAt (s : State) (e : ErrAt) : State :=
  match e with
  | .word n k => if n = 2 ∧ isEdge k = true then s.poisonHeld k else s.poisonUnit (k / 8)
  | .block k => s.poisonSpan k 1 true
  | .vector c gk slot n => s.modGroup c gk fun g => g.modThread slot fun th => { th with vpoison := n :: th.vpoison }
  | .uniform c gk slot n => s.modWarp c gk slot fun w => { w with upoison := n :: w.upoison }
  | .accum c p => s.modCore c fun k => { k with apoison := p :: k.apoison }
  | .tag c p => s.modCore c fun k => { k with tpoison := p :: k.tpoison }
  | .link _ => s

/-- The receiver of a link drops the flit that has come, for its bad CRC or a gap in the sequence, with every flit on the
wire after it; the error is logged, and a retry request that names the flit it expects returns (R384, R385). -/
def State.dropFlit (s : State) (x : LinkState) : State :=
  let t := (s.setLink { x with wire := [] }).logError 7 false (linkAddr (some x.id))
  { t with agenda := t.agenda ++ [.event (.retryRequest x.id x.expect)] }

/-- A check at a boundary finds an error: a corrected one changes no visible state, an uncorrectable one poisons the unit
that was received, and a flit with an error is dropped, to come again; each is logged (R379, R380, R381, R384, R385). -/
def State.found (s : State) (e : ErrAt) (uncorr : Bool) : State :=
  match e with
  | .link (some l) => s.dropFlit (s.link l)
  | .link none => s.logError 7 false (linkAddr none)
  | _ => (if uncorr then s.poisonAt e else s).logError e.store uncorr (s.errAddr e)

/-- A line of device LPDDR is written back or evicted: each of its blocks that holds poison is written poisoned, and
no die holds the line alone any more (R170, R442). -/
def State.evict (s : State) (line : Nat) : State :=
  let t := (upto (16 * line) 16).foldl (fun (t : State) u => if s.unitPoisoned u then t.writeBackPoison u else t) s
  { t with owned := sdel t.owned line }

/-- SCRUB: a correctable error is corrected, an uncorrectable one poisons its unit, and both are logged. The
store found in error, L3 or LPDDR, is open (log 1). -/
def execScrub (addr : Nat) (correctable : Bool) (s : State) : Host.Outcome State Fault Refusal :=
  .next (if isLpddr addr then
      s.found (if s.choose 200001 2 = 0 then .word 3 addr else .block addr) (!correctable)
    else s)

/-! ### Telemetry (R439) -/

/-- The period of telemetry in TS periods: 1 ms. -/
def telemetryPeriod : Nat := 1000000

/-- The number of a power state: D0, D1, D2. -/
def powerNum : PState → Nat
  | .d0 => 0
  | .d1 => 1
  | .d2 => 2

/-- The state word of a telemetry record: the power state's number for a compute die, which is in D2 while its link is
asleep (R438, log 90); a base die has no states, and its word is open (log 1). -/
def State.stateWord (s : State) (n : Nat) : Nat :=
  match s.dies[n]? with
  | some d => if d.link = .asleep then 2 else powerNum (s.powerOf d)
  | none => Config.freeNat s.stepNo (300002 + 3 * n)

/-- A telemetry record of 64 bytes: temperature and power are open (log 1). -/
def State.telemetryBytes (s : State) (n : Nat) : List Byte :=
  leBytes 4 (Config.freeNat s.stepNo (300000 + 3 * n)) ++ leBytes 4 (Config.freeNat s.stepNo (300001 + 3 * n)) ++
    leBytes 4 (s.stateWord n) ++ leBytes 4 s.ts.toNat ++ leBytes 48 0

/-- TELEMETRY: the records of the 8 compute dies and the 4 base dies. -/
def execTelemetry (s : State) : Host.Outcome State Fault Refusal :=
  .next (State.put { s with telemetryAt := s.ts.toNat } (Config.mgmtArea + 0x10000) ((List.range 12).flatMap s.telemetryBytes))

/-! ### Reset (R437, R324) -/

/-- The images that a reset runs: the stored ones in the place of those the module carries. -/
def State.resetImages (s : State) : List FwImage :=
  bootImages.map fun b => (s.staged.find? fun i => i.which == b).getD (carriedImage b)

/-- A boot: each image in turn is verified, measured and run, up to one that is refused. -/
def bootRun : List FwImage → List LogEntry × Option FwImage
  | [] => ([], none)
  | i :: r => if fwCheck i = 0 then (imageEntry i :: (bootRun r).1, (bootRun r).2) else ([], some i)

/-- The upper-die map that root firmware writes (R439). -/
def upperMap (upper : BitVec 8) : List Byte := (List.range 8).map fun d => if upper.getLsbD d then 1 else 0

/-- What every reset leaves: the bytes of host and peer memory, which no store of the module holds, the upper dies that are
there, the stored images, what is still to come from outside, and the counter of free values. -/
def State.cleared (s : State) : State :=
  { State.reset with
    mem := s.mem.filter fun c => isEdge c.1
    poison := s.poison.filter fun u => isEdge (8 * u)
    agenda := s.agenda, stepNo := s.stepNo, upper := s.upper, staged := s.staged, bootFault := s.bootFault }

/-- The stage that a reset fails in, with its reason: the first of one that does not come to its end, as stage 4 when the
runtime firmware never reports ready, and one whose image is refused. What reason a stage gives that does not come to its
end is open (log 1). -/
def State.bootFailure (s : State) (bad : Option FwImage) : Option (Nat × Nat) :=
  let hard := (s.bootFault.filter fun k => k == 0 || k == 2 || k == 3 || k == 4).map fun k => (k, Config.freeNat s.stepNo 200010)
  let soft := bad.map fun i => (imageStage i.which, fwCheck i)
  match hard, soft with
  | some a, some b => if a.1 < b.1 then some a else some b
  | some a, none => some a
  | none, b => b

/-- RESET: the stages run in order; the first that fails leaves the device in recovery, its stage and reason readable. The
log holds the images that ran; a device that fails before stage 2 has ended has not cleared its stores, and one that fails
before stage 3 has ended has written no tables (R323, R324, R437). -/
def execReset (s : State) : Host.Outcome State Fault Refusal :=
  let (log, bad) := bootRun s.resetImages
  let tables (t : State) : State :=
    if s.upper = 0xFF then t else { t with mem := Memory.writeN t.mem (Config.mgmtArea + 0x800) (upperMap s.upper) }
  .next (match s.bootFailure bad with
    | none => { tables s.cleared with mlog := log }
    | some (stage, reason) =>
      { (if stage < 3 then { s.cleared with mem := s.mem, poison := s.poison }
          else if stage = 3 then s.cleared else tables s.cleared) with
        mlog := log.filter fun e => decide (e.stage ≤ stage)
        bootStage := stage, recovery := some reason, mp1Open := false })

/-! ### Sensors (R438, R441) -/

/-- The power state of a die by number. -/
def State.powerAt (s : State) (d : Nat) : Option PState := (s.dies[d]?).map s.powerOf

/-- The power states that a change of what forces them has changed: dies that are forced to D1 take it on, and those that are
forced no more return to their requested state; one that is to go to D2 does so in its turn among the requests, with the
state that is requested of it then (R438, log 89). -/
def State.repower (s old : State) (dies : List Nat) : State :=
  dies.foldl (fun (t : State) d =>
    if t.powerAt d = old.powerAt d then t
    else if t.powerAt d = some .d2 then t.request (.follow d)
    else t.followPower d) s

/-- A die above 95 °C is forced to D1. -/
def execTemperatureAbove95 (die : Nat) (s : State) : Host.Outcome State Fault Refusal :=
  .next ((s.modDie die fun d => { d with hot := true }).repower s [die])

/-- A die below 90 °C returns to its requested state. -/
def execTemperatureBelow90 (die : Nat) (s : State) : Host.Outcome State Fault Refusal :=
  .next ((s.modDie die fun d => { d with hot := false }).repower s [die])

/-- A die above 110 °C: the cut is logged, then module power falls. The logged address is open (log 1). -/
def execTemperatureAbove110 (die : Nat) (s : State) : Host.Outcome State Fault Refusal :=
  .next { s.logError 8 false (Config.freeNat s.stepNo (200002 + die)) with powered := false }

/-- Input current above 85 A forces every compute die to D1. -/
def execCurrentAbove85a (s : State) : Host.Outcome State Fault Refusal :=
  .next (State.repower { s with forcedCurrent := true } s (List.range 8))

/-- Input current below 80 A ends that. -/
def execCurrentBelow80a (s : State) : Host.Outcome State Fault Refusal :=
  .next (State.repower { s with forcedCurrent := false } s (List.range 8))

/-- Coolant flow below 1.5 L/min forces every compute die to D1. -/
def execFlowBelow15 (s : State) : Host.Outcome State Fault Refusal :=
  .next (State.repower { s with forcedFlow := true } s (List.range 8))

end Sys2Proof.Machine
end

