-- ==== Sys2Proof/Machine/Links.lean ====
section
/-! DEFINITION. The host over CXL, peers over Rolik, the links and lost dies (spec/07 R168, R181; spec/13
R327-R329; spec/11 R267; spec/16 R382-R389). -/

namespace Sys2Proof.Machine

/-- Answer the host or a peer. -/
def State.reply (s : State) (a : HostAnswer) : State := { s with hostOut := s.hostOut ++ [a] }

/-! ### CXL.mem (R168, R327, R382, R383, R442) -/

/-- A raw write at a home: pieces by 8-byte unit, one that covers part of a poisoned unit not performed. A line that is
written wholly is no die's alone any more. -/
def State.homeWrite (s : State) (k : Nat) (bs : List Byte) : State :=
  ((cut8 k bs (bs.length + 1)).foldl (fun (s : State) e =>
    if s.partialPoison e.1 e.2.length then s.poisonSpan e.1 e.2.length false else s.put e.1 e.2) s).disown k bs.length

/-- An outside agent may write a span of device memory: not what firmware alone writes (log 72). -/
def hostWrites (k n : Nat) : Bool := decide (k + n ≤ lpddrEnd) && !firmwareSpan k n

/-! ### Requests that a compute die has to answer (R168, R387, R389) -/

/-- T_DEAD in TS periods: 2 ms (R387). -/
def tDead : Nat := 2000000

/-- A snoop of a line is performed at a die: its dirty bytes return to the host; whether the die keeps the line
is open (log 1). -/
def State.snoop (s : State) (die line : Nat) : State :=
  let s := s.edgeFlush die (128 * line)
  let t := if s.choose (400000 + line) 2 = 0 then s
    else { s with edge := s.edge.filter fun e => !(e.die == die && e.line == line) }
  t.reply (.data (t.bytes (128 * line) 128) (t.poisoned (128 * line) 128))

/-- A host request is performed. -/
def State.serve (s : State) (die : Nat) (r : HeldReq) : State :=
  match r with
  | .snoop line => s.snoop die line
  | .read a n => s.reply (.data (s.bytes a n) (s.poisoned a n))
  | .write a bs => (s.homeWrite a bs).reply .ack

/-- A host request that a compute die has to answer, over its link: performed, held while the die wakes or does not respond,
or answered with poison for a lost one. A request that finds the die waking waits for the same wake. -/
def State.atDie (s0 : State) (die : Nat) (r : HeldReq) : State :=
  let s := s0.useLink (.d2d die)
  match s.dies[die]? with
  | none => s0
  | some d =>
    let hold (s : State) : State := s.modDie die fun d => { d with held := d.held ++ [r] }
    match d.link with
    | .up => s.serve die r
    | .asleep => ((hold s).wakeDie die).reply .wakePending
    | .waking => (hold s).reply .wakePending
    | .unresponsive => hold s
    | .lost => s.reply (.data [] true)

/-- The die that has to answer for a span of device LPDDR before the host's access is performed: one whose link is not up
and whose L2 alone holds a line of it up to date, because it has not been written back (R442). -/
def State.holder (s : State) (a n : Nat) : Option Nat :=
  (s.owned.find? fun e => decide (a < 128 * e.1 + 128) && decide (128 * e.1 < a + n) &&
    (s.dies[e.2]?).any fun d => d.link != .up && d.link != .lost).map Prod.snd

/-- A host access of device LPDDR. -/
def State.hostAccess (s : State) (a n : Nat) (r : HeldReq) : State :=
  match s.holder a n with
  | some die => s.atDie die r
  | none => s.serve 0 r

/-- HOST_CXL_MEM_READ. -/
def execHostCxlMemRead (addr len : Nat) (s : State) : Host.Outcome State Fault Refusal :=
  .next (if s.linksUp && decide (addr + len ≤ lpddrEnd) then s.hostAccess addr len (.read addr len) else s.reply .refused)

/-- HOST_CXL_MEM_WRITE. -/
def execHostCxlMemWrite (addr : Nat) (bytes : List Byte) (s : State) : Host.Outcome State Fault Refusal :=
  .next (if s.linksUp && hostWrites addr bytes.length then s.hostAccess addr bytes.length (.write addr bytes)
    else s.reply .refused)

/-- HOST_SNOOP. -/
def execHostSnoop (die line : Nat) (s : State) : Host.Outcome State Fault Refusal := .next (s.atDie die (.snoop line))

/-- T_WAKE in TS periods: 12 µs (R387). -/
def tWake : Nat := 12000

/-- T_WAKE has passed since a waking die started to wake, and its link is still down. -/
def Die.overslept (d : Die) (ts : Nat) : Bool := d.link == .waking && d.woken.all fun t => decide (t + tWake ≤ ts)

/-- T_WAKE: a die whose link is still down once it has passed becomes unresponsive; that is its first missed answer. -/
def execTWake (die : Nat) (s : State) : Host.Outcome State Fault Refusal :=
  .next (s.modDie die fun d =>
    if d.overslept s.ts.toNat then { d with link := .unresponsive, missed := some s.ts.toNat, woken := none } else d)

/-! ### A lost die (R387, R388) -/

/-- A tile whose owner is lost goes back to its last PARTIAL state, or to UNSEEN with its records (R388). -/
def Draw.tileBack (d : Draw) (t : Nat) : Draw :=
  let x := d.tile t
  let back : TileState := if x.saved then .partialSaved else if x.recs.isEmpty then .unseen else .binned
  { d.setTile t { x with state := back } with
    flush := d.flush.map fun f => if f.tiles.contains t then { f with todo := t :: f.todo } else f }

/-- A resident group of a lost die is killed. -/
def State.loseGroup (s : State) (core : Nat) (g : Group) : State :=
  let t := (s.leave core g.gk false).taskLess g.task 1
  match g.tile with
  | some o => if o.closed then t else t.modDraw o.draw fun d => if d.killed then d else d.tileBack o.tile
  | none => t

/-- A gang of a lost die is killed: its recording is abandoned (log 73), its replay lets go of its tape (R374), and an
event record crosses. -/
def State.loseGang (s : State) (core gang : Nat) : State :=
  let gs := (s.core core).gangGroups gang
  let s := (s.replays.filter fun r => r.gang == gang).foldl State.dropUser (s.abandon gang 3)
  let t := gs.foldl (fun (t : State) g => t.loseGroup core g) s
  { t.emit (.killed core gang) with
    replays := t.replays.filter fun r => r.gang != gang
    commits := t.commits.map fun c => if gs.any fun g => g.gk == c.gk && c.saved.isNone then { c with gk := 0 } else c }

/-- The lines of device LPDDR that only the die's L2 held up to date: those it wrote last and has not written back
(R442). -/
def State.lostLines (s : State) (die : Nat) : List Nat := (s.owned.filter fun e => e.2 == die).map Prod.fst

/-- The memory of a lost die: lines that it alone held are poisoned, and so are its dirty lines of host and peer memory,
of which the host's are returned to it with poison. -/
def State.loseLines (s : State) (die : Nat) : State :=
  let t := (s.lostLines die).foldl (fun (t : State) l => t.poisonSpan (128 * l) 128 true) s
  let dirty := (s.edge.filter fun e => e.die == die && !e.dirty.isEmpty).map (·.line)
  let t := dirty.foldl (fun (t : State) l =>
    let t := t.poisonSpan (128 * l) 128 false
    if 128 * l < 2 ^ 51 then t.reply (.data [] true) else t) t
  { t with owned := t.owned.filter fun e => e.2 != die, edge := t.edge.filter fun e => e.die != die }

/-- A die is lost: its lines are poisoned, held requests answered with poison, its gangs killed. -/
def State.loseDie (s : State) (die : Nat) : State :=
  let held := ((s.dies[die]?).map (·.held)).getD []
  let s := held.foldl (fun (s : State) _ => s.reply (.data [] true)) (s.loseLines die)
  let s := s.modDie die fun d => { d with link := .lost, held := [] }
  let cores := (s.cores.map Prod.fst).filter fun c => c / 128 == die
  let s := cores.foldl (fun (s : State) c =>
    (((s.core c).groups.map (·.gang)).eraseDups.foldl (fun (s : State) n => s.loseGang c n) s).setCore c Core.empty) s
  State.settle { s with preempt := s.preempt.bind fun p =>
      let rest := p.cores.filter fun c => c / 128 != die
      if rest.isEmpty then none else some { p with cores := rest } }

/-- T_DEAD has passed since an unresponsive die's first missed answer. -/
def Die.dead (d : Die) (ts : Nat) : Bool := d.link == .unresponsive && d.missed.all fun t => decide (t + tDead ≤ ts)

/-- T_DEAD: an unresponsive die is lost. -/
def execTDead (die : Nat) (s : State) : Host.Outcome State Fault Refusal :=
  .next (if (s.dies[die]?).any fun d => d.dead s.ts.toNat then s.loseDie die else s)

/-- A link that has been trained anew: nothing of what was on it is left. -/
def LinkState.retrained (x : LinkState) (ts : Nat) : LinkState :=
  { x with down := false, buf := [], wire := [], held := [], stopped := [], paused := [], expect := x.next, acked := ts }

/-- The link of a die comes up: the held requests are performed. An answer at the moment of T_DEAD is dropped, and the
die is lost (R389). -/
def execLinkUp (die : Nat) (s : State) : Host.Outcome State Fault Refusal :=
  .next (match s.dies[die]? with
    | none => s
    | some d =>
      if d.dead s.ts.toNat then s.loseDie die
      else if d.link = .waking ∨ d.link = .unresponsive then
        d.held.foldl (fun (s : State) r => s.serve die r)
          ({ s.modDie die fun d => { d with link := .up, held := [], missed := none, woken := none } with
              links := s.links.map fun l => if l.id = .d2d die then l.retrained s.ts.toNat else l })
      else s)

/-! ### Flits (R385, R386) -/

/-- The time limit of a link without an acknowledgement, in TS periods: 100 µs. -/
def linkLimit : Nat := 100000

/-- The traffic classes. -/
def trafficClasses : List TClass := [.request, .response, .enqueue, .management]

/-- Number of a traffic class. -/
def classNum : TClass → Nat
  | .request => 0
  | .response => 1
  | .enqueue => 2
  | .management => 3

/-- The sender sends new flits of the classes given: they are on the wire, and the replay buffer keeps each until it is
acknowledged (R385). -/
def LinkState.send (x : LinkState) (l : List TClass) (ts : Nat) : LinkState :=
  { x with next := x.next + l.length
           buf := x.buf ++ l.zipIdx.map fun e => ⟨x.next + e.2, e.1, 0⟩
           wire := x.wire ++ upto x.next l.length
           acked := if x.buf.isEmpty then ts else x.acked }

/-- The classes of which the sender may send new flits. -/
def LinkState.free (x : LinkState) : List TClass := trafficClasses.filter fun c => !x.paused.any fun p => p.1 == c

/-- A class that the sender may send, by a free choice; none while every class is paused (R386, log 1). -/
def State.freeClass (s : State) (x : LinkState) (salt : Nat) : Option TClass := x.free[s.choose salt x.free.length]?

/-- Every flit below a sequence number has been sent: of which classes is open (log 59). -/
def State.sent (s : State) (x : LinkState) (n : Nat) : LinkState :=
  if n ≤ x.next then x
  else x.send ((upto x.next (n - x.next)).map fun k => (s.freeClass x (910000 + k)).getD .response) s.ts.toNat

/-- No acknowledgement for too long, or a class paused for too long, which counts as one missing. -/
def LinkState.late (x : LinkState) (ts : Nat) : Bool :=
  !x.down && ((!x.buf.isEmpty && decide (x.acked + linkLimit ≤ ts)) || x.paused.any fun p => decide (p.2 + linkLimit ≤ ts))

/-- A link is down: a Rolik link fails requests in flight over it, which ones is open (log 1); a compute die
with its link down is unresponsive, and that is its first missed answer. -/
def State.downLink (s : State) (l : Link) : State :=
  let x := s.link l
  let s := s.setLink { x with down := true, buf := [], wire := [], held := [], stopped := [], paused := [] }
  match l with
  | .d2d die => s.modDie die fun d =>
      if d.link = .up ∨ d.link = .waking then { d with link := .unresponsive, missed := some s.ts.toNat, woken := none } else d
  | .rolik _ =>
    let hit (p : Push) : Bool := p.answer.isNone && s.choose (600000 + p.slot + 4096 * p.core) 2 == 1
    State.answeredPushes { s with pushes := s.pushes.map fun p => if hit p then { p with answer := some false } else p }

/-- Flits that are sent again: the one named and every later one, each one time more. -/
def LinkState.resend (x : LinkState) (seq : Nat) : LinkState :=
  let again := (x.buf.filter fun f => decide (seq ≤ f.seq)).map (·.seq)
  { x with buf := x.buf.map fun f => if seq ≤ f.seq then { f with resent := f.resent + 1 } else f
           wire := x.wire.filter (fun n => decide (n < seq)) ++ again }

/-- RETRY_REQUEST: the flit named and every later one is sent again; the sixteenth time declares the link down. Flits that
were still on their way have been dropped by the receiver that asks, and the error is logged with them (R384, R385). -/
def execRetryRequest (l : Link) (seq : Nat) (s : State) : Host.Outcome State Fault Refusal :=
  let x := s.sent (s.link l) (seq + 1)
  if x.down then .next s
  else
    let t := s.setLink (x.resend seq)
    let t := if x.wire.any fun n => decide (seq ≤ n) then t.logError 7 false (linkAddr (some l)) else t
    .next (if (x.resend seq).buf.any fun f => decide (16 ≤ f.resent) then t.downLink l else t)

/-- LINK_DOWN. -/
def execLinkDown (l : Link) (s : State) : Host.Outcome State Fault Refusal :=
  .next (if (s.link l).down then s else s.downLink l)

/-- FLIT_ACKNOWLEDGEMENT: the flits up to one leave the replay buffer; the receiver has taken them. -/
def execFlitAcknowledgement (l : Link) (seq : Nat) (s : State) : Host.Outcome State Fault Refusal :=
  let x := s.sent (s.link l) (seq + 1)
  .next (s.setLink { x with
    buf := x.buf.filter (fun f => decide (seq < f.seq)), wire := x.wire.filter (fun n => decide (seq < n))
    expect := max x.expect (seq + 1), acked := s.ts.toNat })

/-- PAUSE of a class, from the receiver. -/
def execPause (l : Link) (c : TClass) (s : State) : Host.Outcome State Fault Refusal :=
  let x := s.link l
  .next (s.setLink { x with paused := (c, s.ts.toNat) :: x.paused.filter (fun p => p.1 != c) })

/-- RESUME of a class. -/
def execResume (l : Link) (c : TClass) (s : State) : Host.Outcome State Fault Refusal :=
  let x := s.link l
  .next (s.setLink { x with paused := x.paused.filter (fun p => p.1 != c) })

/-- A flit comes to the receiver: the one it expects is taken into the buffer of its class, and may be acknowledged now or
later; one it has taken before is dropped alone; one with a bad CRC, or beyond the one expected, is dropped with every flit
after it (R385). -/
def State.receive (s : State) (x : LinkState) (bad ack : Bool) : State :=
  match x.wire with
  | [] => s.setLink x
  | n :: rest =>
    if bad || decide (x.expect < n) then s.dropFlit x
    else if n < x.expect then s.setLink { x with wire := rest }
    else
      let t := s.setLink { x with wire := rest, expect := n + 1
                                  held := x.held ++ ((x.buf.find? fun f => f.seq == n).map (·.cls)).toList }
      if ack then { t with agenda := t.agenda ++ [.event (.flitAcknowledgement x.id n)] } else t

/-- The receiver sends PAUSE of a class whose buffer has reached the class's threshold, and RESUME once the buffer has
drained below half of it (R386). The threshold is the implementation's (`Config.pauseAt`). -/
def State.pauseCheck (s : State) (l : Link) (c : TClass) : State :=
  let x := s.link l
  let n := (x.held.filter (· == c)).length
  let limit := Config.pauseAt (classNum c) + 1
  if !x.stopped.contains c && decide (limit ≤ n) then
    let t := s.setLink { x with stopped := c :: x.stopped }
    { t with agenda := t.agenda ++ [.event (.pause l c)] }
  else if x.stopped.contains c && decide (2 * n < limit) then
    let t := s.setLink { x with stopped := x.stopped.filter (· != c) }
    { t with agenda := t.agenda ++ [.event (.resume l c)] }
  else s

/-- The oldest n flits of a class leave the receiver's buffer of the class. -/
def drainClass (c : TClass) : (n : Nat) → List TClass → List TClass
  | _, [] => []
  | 0, l => l
  | n + 1, d :: l => if d = c then drainClass c n l else d :: drainClass c (n + 1) l

/-- The receiver's buffers drain, each class's by itself, so that no class waits for another; how far is open (R386,
log 1). -/
def State.drained (s : State) (held : List TClass) (salt : Nat) : List TClass :=
  trafficClasses.foldl (fun l c =>
    drainClass c (s.choose (salt + classNum c) ((held.filter (· == c)).length + 1)) l) held

/-- A clock of a link that is in use: new flits are sent, none of a paused class; a flit comes to the receiver, sound or
with a bad CRC; the receiver's buffers drain, and classes are paused and resumed. How many flits are sent and of which
class, what the flit that comes is like, whether it is acknowledged at once and how far the buffers drain are open
(log 1). -/
def State.flitClock (s : State) (l : Link) : State :=
  let x := s.link l
  if x.down then s
  else
    let salt := 900000 + 64 * match l with | .d2d n => 2 * n | .rolik n => 2 * n + 1
    let x := x.send ((List.range (s.choose salt 16)).filterMap fun i => s.freeClass x (salt + 8 + i)) s.ts.toNat
    let t := if s.choose (salt + 1) 2 = 0 then s.setLink x
      else s.receive x (s.choose (salt + 2) 2 == 1) (s.choose (salt + 3) 2 == 1)
    let y := t.link l
    trafficClasses.foldl (fun (t : State) c => t.pauseCheck l c)
      (t.setLink { y with held := s.drained y.held (salt + 32) })

/-- A clock of the links: flits, and the limits of TS time. -/
def State.linkClock (s : State) : State :=
  if s.links.isEmpty then s
  else
    let t := (s.links.map (·.id)).foldl State.flitClock s
    (t.links.filter fun x => x.late s.ts.toNat).foldl (fun (t : State) x => t.downLink x.id) t

/-! ### Peers (R329, R186) -/

/-- Record n of the export table. -/
def State.exportRecord (s : State) (n : Nat) : Nat := s.num (Config.exportTable + 16 * n) 16

/-- Some valid export record names a peer, allows a kind (bit 19 load, 20 store, 21 push) and covers pages. -/
def State.exported (s : State) (endpoint : BitVec 18) (kind lo hi : Nat) : Bool :=
  (List.range 256).any fun n =>
    let r := s.exportRecord n
    nbits r 17 0 == endpoint.toNat && nbit r 18 && nbit r kind &&
      (kind == 21 || (decide (4096 * nbits r 92 64 ≤ lo) && decide (hi ≤ 4096 * nbits r 121 93)))

/-- A store of a peer at its home. -/
def State.peerStore (s : State) (addr : Nat) (bs : List Byte) : State :=
  if (cut8 addr bs (bs.length + 1)).any fun e => s.partialPoison e.1 e.2.length then
    (s.homeWrite addr bs).reply (.data [] true)
  else ((s.put addr bs).disown addr bs.length).reply .ack

/-- An atomic of a peer at its home. -/
def State.peerAtom (s : State) (addr n : Nat) (op : AtomOp) (v new : Nat) : State :=
  if s.poisoned addr n then s.reply (.data [] true)
  else
    let old := s.num addr n
    (s.putNum addr n (atomNew op (8 * n) old v new)).reply (.data (leBytes n old) false)

/-- PEER_REQUEST: performed when an export record allows it, else refused; a store into what firmware alone writes is
refused (log 72). -/
def execPeerRequest (endpoint : BitVec 18) (addr : Nat) (k : PeerKind) (s : State) : Host.Outcome State Fault Refusal :=
  let allowed (kind n : Nat) : Bool := s.linksUp && decide (addr + n ≤ lpddrEnd) && s.exported endpoint kind addr (addr + n) &&
    (kind == 19 || hostWrites addr n)
  .next (match k with
    | .load n => if allowed 19 n then s.reply (.data (s.bytes addr n) (s.poisoned addr n)) else s.reply .refused
    | .store bs => if allowed 20 bs.length then s.peerStore addr bs else s.reply .refused
    | .atom op w v new =>
      let n := if w then 8 else 4
      if allowed 20 n then s.peerAtom addr n op (v.toNat % 2 ^ (8 * n)) (new.toNat % 2 ^ (8 * n)) else s.reply .refused)

/-- A push that a peer sends, into a ring that can take it: whether it was taken. The receiver's job entry rises first
(R267); a page of it that is being moved is waited for (R321). -/
def State.takePush (s : State) (endpoint : BitVec 18) (q : Nat) (record : List Byte) : Acc Bool :=
  let d := s.queue q
  let ctx := queueCtx d
  if s.linksUp && s.exported endpoint 21 0 0 && record.length == 128 && !s.poisoned (queueKey q) 32 && ringOk d &&
      ctxValid (s.ctxDesc ctx) && !s.ringFull q then
    match s.jobAdd (s.schedSpace ctx) schedDie (s.jtabOf ctx) (Rec.job (BitVec.ofNat 1024 (leNat record))) true with
    | .ok t _ => match t.push q record with
      | some u => .ok u true
      | none => .ok s false
    | .bad _ _ => .ok s false
    | .wait => .wait
  else .ok s false

/-- REMOTE_PUSH; one that waits is held, and tried again in every clock. -/
def execRemotePush (endpoint : BitVec 18) (q : BitVec 9) (record : List Byte) (s : State) :
    Host.Outcome State Fault Refusal :=
  .next (match s.takePush endpoint q.toNat record with
    | .ok t taken => t.reply (if taken then .ack else .refused)
    | .bad t _ => t.reply .refused
    | .wait => { s with heldPushes := s.heldPushes ++ [(endpoint, q, record)] })

end Sys2Proof.Machine
end

