-- ==== Sys2Proof/Machine/Clock.lean ====
section
/-! DEFINITION. What a clock does: counters move, saved entries enter their queues, the schedulers' issues are set on
the agenda, and behind them the steps that the package takes by itself (log 2). A step whose condition no longer holds
when its turn comes changes nothing. What comes from outside is put on the agenda from outside. -/

namespace Sys2Proof.Machine

/-! ### The set of a mover (R238) -/

/-- The issuing set of a mover: the requested lanes that share the path of the lowest of them. -/
def State.issuingSet (s : State) (core wid : Nat) (lanes : Mask) : Option Ctx :=
  let k := s.core core
  (k.findWid wid).bind fun (g, slot, w) =>
    if !k.mayIssue s.clk g then none
    else match (maskLanes lanes).filter (g.eligible w).contains with
      | [] => none
      | l :: ls =>
        let set := (l :: ls).filter (g.pathOf w l).contains
        (g.laneThread w l).map fun t => ⟨s, core, g, slot, w, maskOf set, t.pc⟩

/-- The set of a mover that tries a waiting instruction again: the lanes that began to wait with the lowest of the
requested ones, and the instruction. -/
def State.waitingSet (s : State) (core wid : Nat) (lanes : Mask) : Option (Ctx × Instr) :=
  let k := s.core core
  (k.findWid wid).bind fun (g, slot, w) =>
    if !k.mayIssue s.clk g || g.stop.isSome then none
    else
      let tries (l : Nat) : Option (Instr × Nat × Addr) := (g.laneThread w l).bind fun t =>
        t.wait.tries.map fun e => (e.1, e.2, t.pc)
      (maskLanes lanes).findSome? fun l => (tries l).map fun e =>
        (⟨s, core, g, slot, w, maskOf ((maskLanes lanes).filter fun j => tries j == some e && w.together j l), e.2.2⟩, e.1)

/-! ### Fetch (R48, R76, R399) -/

/-- The words a fetch may return: the one memory holds, or one replaced since the last ICINV completion
and the core's last restore barrier. -/
def State.fetchWords (s : State) (core key : Nat) (now : Word) : List Word :=
  now :: (s.stale.filterMap fun (a, n, w) =>
    if a = key ∧ (s.core core).fetchFloor ≤ n then some w else none)

/-- A word with its bytes in a reserved area at zero (R77). -/
def Xlat.shown (x : Xlat) (va : Nat) (w : Word) : Word :=
  BitVec.ofNat 32 (leNat ((leBytes 4 w.toNat).zipIdx.map fun e => if x.reserved (va + e.2) then 0 else e.1))

/-- Fetch the word at the set's program counter. -/
def Ctx.fetch (x : Ctx) : Res Word :=
  (x.s.translate x.space .fetch x.pc.toNat).andThen fun t =>
    if x.s.dataBad x.die t 4 then .bad Cause.dataerr
    else
      let now := BitVec.ofNat 32 (leNat (x.s.readAt x.die t x.pc.toNat 4))
      let ws := (x.s.fetchWords x.core t.key now).map (t.shown x.pc.toNat)
      .ok (ws.getD (x.s.choose 1 ws.length) now)

/-- The instruction that a mover's set would issue. -/
def State.peek (s : State) (core wid : Nat) (lanes : Mask) : Option Instr :=
  (s.issuingSet core wid lanes).bind fun x =>
    match x.fetch with
    | .ok w => (match decode w with | .ok i => some i | .error _ => none)
    | .bad _ | .wait => none

/-! ### Issues of a clock (R84, R260) -/

/-- A Banker release. -/
def isRelease : Instr → Bool
  | .rel _ => true
  | _ => false

/-- A Banker request. -/
def isRequest : Instr → Bool
  | .acqB _ | .acqT _ _ => true
  | _ => false

/-- What may enter an operation into the matrix queue as it issues: an engine operation, a signature that completes a
meld, and TQ. -/
def isMatrixOp : Instr → Bool
  | .ldw _ _ _ | .ldwSwap _ _ | .mstr _ _ _ _ _ _ | .accZ _ _ _ | .accRd _ _ _ _ | .accWr _ _ _ _ | .meldSign _ _
  | .tq _ => true
  | _ => false

/-- An issue of a clock: the warp, the lanes, and what it is for the order. -/
structure Issued where
  wid : Nat
  lanes : Mask
  release : Bool
  request : Bool
  engine : Bool

/-- An issue has its turn before others of its clock that are still to come: requests follow every release, and each
other by WID; a warp's paths keep their order, but for a release behind a request; and engine operations enter in
scheduler order (R84, R126, R260). `earlier` holds the others that come before it in scheduler and issue order. -/
def Issued.turn (m : Issued) (earlier others : List Issued) : Bool :=
  !(m.request && others.any fun o => o.release || (o.request && decide (o.wid < m.wid))) &&
    !(earlier.any fun o => o.wid == m.wid && !(m.release && o.request)) && !(m.engine && earlier.any (·.engine))

/-- The first issue that has its turn, with the issues before and after it; the first one when each waits for another. -/
def takeTurn : (earlier rest : List Issued) → Option (Issued × List Issued)
  | earlier, [] => match earlier with
    | [] => none
    | m :: l => some (m, l)
  | earlier, m :: rest =>
    if m.turn earlier (earlier ++ rest) then some (m, earlier ++ rest) else takeTurn (earlier ++ [m]) rest

/-- Issues in the order of their turns. -/
def inTurn : (fuel : Nat) → List Issued → List Issued
  | 0, l => l
  | n + 1, l => match takeTurn [] l with
    | none => []
    | some (m, rest) => m :: inTurn n rest

/-- The issues of a core in the order of their effects, from their order by scheduler and path. -/
def State.issueOrder (s : State) (core : Nat) (l : List (Nat × List Nat)) : List Mover :=
  let ms := l.map fun e =>
    let i := s.peek core e.1 (maskOf e.2)
    (⟨e.1, maskOf e.2, i.any isRelease, i.any isRequest, i.any isMatrixOp⟩ : Issued)
  (inTurn ms.length ms).map fun m => .issue core m.wid m.lanes

/-- Every scheduler of every core chooses; stalled paths are tried again every 16 clocks at the latest,
and when the scheduler has nothing else (log 2). -/
def State.schedule (s : State) : State × List Mover :=
  s.cores.foldl (fun (acc : State × List Mover) e =>
    let (k, l) := (acc.1.core e.1).issues acc.1.clk (acc.1.clk % 16 == 0)
    (acc.1.setCore e.1 k, acc.2 ++ acc.1.issueOrder e.1 l)) (s, [])

/-! ### Counters (R32, R224, R270, R385) -/

/-- AGE of a warp in a clock, up to its limit. -/
def Warp.older (w : Warp) : Warp := { w with age := if w.age = 0xFFFFFFFF then w.age else w.age + 1 }

/-- A group in a clock: its budget falls unless its record disables it. -/
def State.olderGroup (s : State) (g : Group) : Group :=
  { g with budget := if Rec.budget (s.leadOf g) = 0 then g.budget else g.budget - 1, warps := g.warps.map Warp.older }

/-- A core in a clock. -/
def State.olderCore (s : State) (k : Core) : Core :=
  { k with groups := k.groups.map s.olderGroup, bins := k.bins.map fun b => { b with timer := b.timer - 1 } }

/-- The counters of a clock, saved entries, links, and requests that waited. -/
def State.older (s : State) : State :=
  let t := { s with clk := s.clk + 1 }
  let t := { t with cores := s.cores.map fun e => (e.1, s.olderCore e.2) }
  (State.answeredPushes ((s.cores.map Prod.fst).foldl State.enterSaved t).linkClock).settle

/-! ### Steps of a core -/

/-- A condition as zero or one step. -/
def stepIf (c : Bool) (i : Instr) : List Instr := if c then [i] else []

/-- Steps of the engines of a core. A stopped unit translates again at every multiple of 4096 clocks, not 4096 clocks after its
fault: the model's choice (R133, log 95). -/
def State.engineSteps (s : State) (c : Nat) (k : Core) : List Instr :=
  let qs := (k.cq.map (·.q)).eraseDups
  stepIf (!k.meldsWaiting.isEmpty) (.meldEntry c) ++ stepIf (!k.mq.isEmpty) (.matrixOperation c) ++
    qs.flatMap (fun q => match k.copyHead q with
      | some e => [if e.probed.isNone then .copyProbe c q else .copyChunk c q]
      | none => []) ++
    (k.seqs.filter fun q => !q.finished).map (fun q => .sequencerEntry c q.copy) ++ stepIf (!k.spills.isEmpty) (.spillWrite c) ++
    if s.clk % 4096 = 0 then
      stepIf (!k.mq.isEmpty) (.engineFaultRetry c .matrix) ++ qs.map (fun q => .engineFaultRetry c (.copy q)) ++
        (k.groups.filter fun g => !g.planeLoads.isEmpty).map (fun g => .engineFaultRetry c (.restore g.gang)) ++
        (k.groups.filter fun g => g.tile.any fun o => o.reload).map (fun g => .engineFaultRetry c (.reload g.gk))
    else []

/-- Some thread of a warp waits in a state. -/
def Group.warpWaits (g : Group) (w : Warp) (p : Wait → Bool) : Bool :=
  (g.liveLanes w).any fun l => (g.laneThread w l).any fun t => p t.wait

/-- Barriers above the core that threads of a group wait at. -/
def Group.barSteps (g : Group) (c : Nat) : List Instr :=
  let at_ := g.threads.filterMap fun e => match e.2.wait with
    | .bar k counted => some (e.1, k, counted)
    | _ => none
  stepIf (at_.any fun e => !e.2.2) (.barrierArrival c g.gk) ++
    ((at_.map fun e => e.2.1).eraseDups.filter fun k => decide (Rec.groupLevel g.record < k)).flatMap fun k =>
      match at_.find? fun e => e.2.1 == k with
      | some (t, _, _) => [.barrierComplete c g.gk (BitVec.ofNat 3 k) t]
      | none => []

/-- Steps of a group of a core. -/
def Core.groupSteps (k : Core) (c : Nat) (g : Group) : List Instr :=
  let bins := k.bins.filter fun b => b.gk == g.gk
  (bins.filter fun b => b.timer == 0 && !b.expired).map (fun b => .binTimer c b.num) ++
    (if g.freeSlot.isSome then [] else (bins.filter (·.expired)).map fun b => .injection c b.num) ++
    (g.warps.filter fun w => g.warpWaits w fun | .fut _ _ _ => true | _ => false).map (fun w => .futAttempt c w.wid) ++
    (g.warps.filter fun w => g.warpWaits w fun x => x == .icinv).map (fun w => .icinvCompletion c w.wid) ++
    g.barSteps c ++
    (match g.tile with
      | some o => if o.closed then [] else stepIf (!o.visDone) (.visibilityWave c g.gk) ++
          stepIf (o.visDone && !o.pending.isEmpty) (.shadingWave c g.gk) ++
          stepIf (!g.tdoneWaiters.isEmpty) (.writeBack c g.gk)
      | none => []) ++
    stepIf g.threads.isEmpty (.groupEnd c g.gk)

/-- The launch of a core in a clock: of one group that has a free warp slot and a ready bin, whichever it is
(R225, log 1). -/
def State.launchSteps (s : State) (c : Nat) (k : Core) : List Instr :=
  let gs := k.groups.filter fun g => g.stop.isNone && g.freeSlot.isSome && k.bins.any fun b => b.gk == g.gk && k.binReady b
  match gs[s.choose (800000 + c) gs.length]? with
  | some g => [.warpLaunch c g.gk]
  | none => []

/-- Steps of a core: those of a grant come before BUDGET (R260). -/
def State.coreSteps (s : State) (c : Nat) (k : Core) : List Instr :=
  s.engineSteps c k ++ s.launchSteps c k ++ k.groups.flatMap (k.groupSteps c) ++
    stepIf (!k.reqs.isEmpty) (.head c) ++ stepIf (!k.reqs.isEmpty) (.grant c) ++
    (k.groups.filter fun g => g.budget == 0 && !g.budgetRaised && Rec.budget (s.leadOf g) != 0).map
      (fun g => .budget c g.gk) ++
    ((k.groups.filter fun g => g.stop.isSome).map (·.gang)).eraseDups.map (fun n => .swapOut c n)

/-- The attempts of a warp's sets that wait at an instruction which is tried again, in issue order (R84); of two in no sub-warp
at one program counter the one with the lowest lane first, the model's choice (log 94). -/
def Group.retries (g : Group) (c : Nat) (w : Warp) : List Mover :=
  let ls := (g.liveLanes w).filterMap fun l => (g.laneThread w l).bind fun t => t.wait.tries.map fun e => (l, e.2)
  let sets := ((ls.map Prod.snd).eraseDups).map fun n => (ls.filter fun e => e.2 == n).map Prod.fst
  (sortBy (fun l => g.pathKey w (l.headD 0)) sets).map fun l => .retry c w.wid (maskOf l)

/-- The attempts of a core: warps in scheduler order. -/
def Core.retries (k : Core) (c : Nat) : List Mover :=
  let ws := k.groups.flatMap fun g => g.warps.map fun w => (g, w)
  (sortBy (fun e : Group × Warp => 64 * (e.2.wid % 4) + e.2.wid) ws).flatMap fun e => e.1.retries c e.2

/-! ### Steps of the package -/

/-- The step of a replay's next command: at most one command in a clock. -/
def Replay.steps (r : Replay) : List Instr :=
  if r.e < r.count then
    match (r.command.map (·.kind)).getD 2 with
    | 3 => [.memCommand r.key]
    | 5 => [.enqCommand r.key]
    | 6 => [.bankCommand r.key]
    | 7 => [.rfenceCommand r.key]
    | _ => [.engCommand r.key]
  else []

/-- A replay's next command is a release of the Banker. -/
def Replay.releases (r : Replay) : Bool :=
  decide (r.e < r.count) && (r.command.any fun c => c.kind == 6 && nbit c.e 8)

/-- Steps of a draw. -/
def State.drawSteps (s : State) (d : Draw) : List Instr :=
  if d.killed then []
  else stepIf (d.flush.isNone && d.buf.any fun e => e.1 == d.next) (.commit d.key) ++
    stepIf d.flush.isSome (.flushComplete d.key) ++ stepIf d.flush.isSome (.flushStall d.key) ++
    stepIf (decide (d.next < DrawD.prims d.desc) && decide (d.since + 2 ^ 24 ≤ s.clk)) (.binningStall d.key) ++
    match d.nextTile with
      | some (t, _) => match s.tileCore d with
        | some c => [.tileIssue d.key t c]
        | none => []
      | none => []

/-- The step of the Talon that performs an operation a TAPE has sent. -/
def TapeOp.step (o : TapeOp) : Instr :=
  match o.kind with
  | .arm base cap blk => .arm o.grove o.tape base cap blk
  | .off => .off o.grove o.tape
  | .query => .query o.grove o.tape

/-- Steps of the schedulers and the management plane. -/
def State.packageSteps (s : State) : List Instr :=
  s.tapeOps.map TapeOp.step ++ s.draws.flatMap s.drawSteps ++
    ((List.range 8).filter fun d => (s.dies.getD d Die.reset).overslept s.ts.toNat).map (fun d => .tWake d) ++
    ((List.range 8).filter fun d => (s.dies.getD d Die.reset).dead s.ts.toNat).map (fun d => .tDead d) ++
    stepIf (s.linksUp && decide (s.telemetryAt + telemetryPeriod ≤ s.ts.toNat)) .telemetry ++
    ((List.range 512).filter fun q => nbit (s.queue q) 56).map (fun q => .recordCheck q) ++
    (((s.tasks.filter fun t => decide (t.next < t.total) && decide (t.q < 512)).map (·.q)).eraseDups.map fun q => .admission q) ++
    (s.imagesAt 1).map (fun n => .restore n ((s.imageCore n).getD 0)) ++ (s.imagesAt 2).map (fun n => .kill n) ++
    (s.tasks.filter fun t => decide (t.total ≤ t.next) && t.live == 0).map (fun t => .taskCompletion t.key) ++
    (s.replays.filter fun r => !r.releases).flatMap Replay.steps ++
    (match s.commits with
      | c :: _ => [if c.verdict.isNone then .rangeCommitCheck else .rangeSwap]
      | [] => []) ++
    stepIf (!s.cleans.isEmpty) .cleanAcknowledgement ++
    (match s.preempt with
      | some p => p.cores.map fun c => .acknowledgement c
      | none => [])

/-- The steps that the package takes by itself in a clock, in the order they are set on the agenda. -/
def State.ownSteps (s : State) : List Mover :=
  s.cores.flatMap (fun e => (s.coreSteps e.1 e.2).map Mover.event ++ e.2.retries e.1) ++
    s.packageSteps.map Mover.event

/-- A clock passes: counters, then the Talon's releases, then the schedulers' issues, then the pushes of peers that waited,
then the package's own steps. What
issues in a clock files threads before a launch, releases before a request or a grant, and faults before BUDGET (R244,
R260, R353). -/
def State.clock (s : State) : State × List Mover :=
  let t := s.older
  let (u, issues) := t.schedule
  ({ u with heldPushes := [] }, (t.replays.filter Replay.releases).map (fun r => .event (.bankCommand r.key)) ++ issues ++
    t.heldPushes.map (fun p => .event (.remotePush p.1 p.2.1 p.2.2)) ++ t.ownSteps)

/-- The paths of a group that are stalled for something its core does not show are tried again. -/
def Group.unstalled (g : Group) : Group :=
  { g with warps := g.warps.map fun w => { w with stalls := w.stalls.filter fun e => e.2 != .other } }

/-- After a step that may have ended what they wait for, such paths of every core are tried again. -/
def State.unstallAll (s : State) : State :=
  { s with cores := s.cores.map fun e => (e.1, { e.2 with groups := e.2.groups.map Group.unstalled }) }

end Sys2Proof.Machine
end

