-- ==== Sys2Proof/Machine/Cross.lean ====
section
/-! DEFINITION. Cross-lane instructions, predicate logic and moves between register classes (spec/04
R107-R112). -/

namespace Sys2Proof.Machine

/-! ### SHFL (R107) -/

/-- The segment size W. -/
def ShflSeg.size : ShflSeg → Nat
  | .w32 => 32
  | .w16 => 16
  | .w8 => 8
  | .w4 => 4

/-- The source lane of lane l, or its own when the source lies outside its segment or is inactive. -/
def shflSrc (mode : ShflMode) (w k l : Nat) (active : Nat → Bool) : Nat :=
  let base := l - l % w
  let src : Int := match mode with
    | .idx => (base + k % w : Nat)
    | .up => (l : Int) - k
    | .dn => (l + k : Nat)
    | .xor => (base + (l ^^^ k) % w : Nat)
  if (base : Int) ≤ src ∧ src < (base + w : Nat) ∧ active src.toNat = true then src.toNat else l

/-- SHFL. -/
def execShfl (mode : ShflMode) (w : ShflSeg) (d a : BitVec 7) (idx : ShflIdx) (s : State) :
    Host.Outcome State Fault Refusal :=
  runWord (.shfl mode w d a idx) s fun x => x.done x.s fun l th =>
    let k := match idx with
      | .imm k => k.toNat
      | .reg b => (x.v b.toNat l).toNat % 32
    th.setV d.toNat (x.v a.toNat (shflSrc mode (ShflSeg.size w) k l fun j => x.lanes.getLsbD j))

/-! ### VOTE (R108) -/

/-- The lanes whose predicate, inverted under NEG, is true. -/
def Ctx.voters (x : Ctx) (p : Nat) (neg : Bool) : List Nat := x.ls.filter fun l => x.p p l != neg

/-- VOTE. -/
def execVote (op : VoteOp) (neg : Bool) (d a : BitVec 7) (s : State) : Host.Outcome State Fault Refusal :=
  runWord (.vote op neg d a) s fun x =>
    let yes := x.voters a.toNat neg
    let setP (v : Bool) : State := x.done x.s fun _ th => th.setP d.toNat v
    match op with
    | .all => setP (yes.length == x.ls.length)
    | .any => setP (!yes.isEmpty)
    | .uni => setP (yes.isEmpty || yes.length == x.ls.length)
    | .ballot => x.doneW x.s fun w => w.setU d.toNat (maskOf yes)
    | .mtch => x.done x.s fun l th =>
        th.setV d.toNat (maskOf (x.ls.filter fun j => x.v a.toNat j == x.v a.toNat l))

/-! ### WRED (R109, R110) -/

/-- The 32 lanes' values, the identity for a lane outside the set. -/
def Ctx.laneVals (x : Ctx) (a : BitVec 7) (ident : Word) : List Word :=
  (List.range 32).map fun l => if x.lanes.getLsbD l then x.v a.toNat l else ident

/-- Combine values exactly. -/
def foldInt (op : Int → Int → Int) (l : List Int) : Int :=
  match l with
  | [] => 0
  | a :: r => r.foldl op a

/-- The extreme value and the smallest index among the lanes that hold it (R110). -/
def extremeIdx (max sg : Bool) (vals idxs : List Word) : Word × Word :=
  let rd (v : Word) : Int := if sg then v.toInt else v.toNat
  let r := foldInt (fun a b => if decide (a < b) != max then a else b) (vals.map rd)
  let hits := ((vals.zip idxs).filter fun (v, _) => rd v == r).map fun (_, i) => i.toNat
  (BitVec.ofInt 32 r, BitVec.ofNat 32 (hits.foldl min 0xFFFFFFFF))

/-- The result of the forms that write one register, with the flags of the rounding. -/
def wredEval (op : WredOp) (x : Ctx) (a : BitVec 7) : Nat × Flags :=
  let sInts (ident : Word) : List Int := (x.laneVals a ident).map (·.toInt)
  let zInts (ident : Word) : List Int := (x.laneVals a ident).map fun v => (v.toNat : Int)
  let sum (l : List Int) : Int := foldInt (· + ·) l
  let bits (op : Word → Word → Word) (ident : Word) : Nat := ((x.laneVals a ident).foldl op ident).toNat
  let active : List Nat := x.ls.map fun l => (x.v a.toNat l).toNat
  match op with
  | .addB32 => (wrap (sum (sInts 0)) 32, .none)
  | .addS32sat => (wrap (satS (sum (sInts 0)) 32) 32, .none)
  | .addZ32sat => (wrap (satZ (sum (zInts 0)) 32) 32, .none)
  | .minS32 => (wrap (foldInt min (sInts 0x7FFFFFFF)) 32, .none)
  | .minZ32 => (wrap (foldInt min (zInts 0xFFFFFFFF)) 32, .none)
  | .maxS32 => (wrap (foldInt max (sInts 0x80000000)) 32, .none)
  | .maxZ32 => (wrap (foldInt max (zInts 0)) 32, .none)
  | .andB32 => (bits (· &&& ·) 0xFFFFFFFF, .none)
  | .orB32 => (bits (· ||| ·) 0, .none)
  | .xorB32 => (bits (· ^^^ ·) 0, .none)
  | .faddF32 =>
    let vs := (x.laneVals a 0x80000000).map fun v => Fmt.f32.decode v.toNat
    if vs.contains (.inf false) && vs.contains (.inf true) then (Fmt.f32.canon, .invalid)
    else finish .f32 .rn (sumVals vs .rn)
  | .fminF32 => (active.foldl (fpMinMax .f32 false) Fmt.f32.canon, .none)
  | .fmaxF32 => (active.foldl (fpMinMax .f32 true) Fmt.f32.canon, .none)
  | .minidxS32 | .minidxZ32 | .maxidxS32 | .maxidxZ32 => (0, .none)

/-- WRED. -/
def execWred (op : WredOp) (d : BitVec 6) (a b : BitVec 7) (s : State) : Host.Outcome State Fault Refusal :=
  runWord (.wred op d a b) s fun x =>
    let idx (max sg : Bool) (ident : Word) : State :=
      let r := extremeIdx max sg (x.laneVals a ident) (x.laneVals b 0xFFFFFFFF)
      x.doneW x.s fun w => (w.setU d.toNat r.1).setU (d.toNat + 1) r.2
    match op with
    | .minidxS32 => idx false true 0x7FFFFFFF
    | .minidxZ32 => idx false false 0xFFFFFFFF
    | .maxidxS32 => idx true true 0x80000000
    | .maxidxZ32 => idx true false 0
    | .addB32 | .addS32sat | .addZ32sat | .minS32 | .minZ32 | .maxS32 | .maxZ32 | .andB32 | .orB32
    | .xorB32 | .faddF32 | .fminF32 | .fmaxF32 =>
      let r := wredEval op x a
      x.modW (x.done x.s fun _ th => th.flag r.2.bits) fun w => w.setU d.toNat (BitVec.ofNat 32 r.1)

/-! ### PLOG (R111) -/

/-- The functions of PLOG. -/
def PlogOp.eval (op : PlogOp) (a b : Bool) : Bool :=
  match op with
  | .and => a && b
  | .or => a || b
  | .xor => a != b
  | .andn => a && !b
  | .orn => a || !b
  | .not => !a

/-- PLOG. -/
def execPlog (op : PlogOp) (d a b : BitVec 4) (s : State) : Host.Outcome State Fault Refusal :=
  runWord (.plog op d a b) s fun x => x.writePred d fun l => PlogOp.eval op (x.p a.toNat l) (x.p b.toNat l)

/-! ### XMOV (R112) -/

/-- The 128 bits of uniform registers n to n + 3, lowest first. -/
def Warp.u128 (w : Warp) (n : Nat) : Desc := w.u (n + 3) ++ w.u (n + 2) ++ w.u (n + 1) ++ w.u n

/-- XMOV. -/
def execXmov (k : XmovKind) (w64 : Bool) (d a : BitVec 7) (s : State) : Host.Outcome State Fault Refusal :=
  runWord (.xmov k w64 d a) s fun x =>
    let n := d.toNat
    let m := a.toNat
    let setU (v : DWord) (w : Warp) : Warp := if w64 then w.setU64 n v else w.setU n (lo64 v)
    let wide (lo : Word) (v : DWord) : DWord := if w64 then v else lo.setWidth 64
    match k with
    | .vv => x.done x.s fun l th => if w64 then th.setV64 n (x.v64 m l) else th.setV n (x.v m l)
    | .vs => x.doneW x.s (setU (wide (x.v m x.l0) (x.v64 m x.l0)))
    | .sv => x.done x.s fun _ th => if w64 then th.setV64 n (x.u64 m) else th.setV n (x.u m)
    | .ss => x.doneW x.s (setU (wide (x.u m) (x.u64 m)))
    | .pv => x.done x.s fun l th => th.setV n (if x.p m l then 1 else 0)
    | .vp => x.done x.s fun l th => th.setP n (x.v m l != 0)
    | .sp => x.done x.s fun l th => th.setP n ((x.u m).getLsbD l)
    | .ts => x.doneW x.s fun w => (List.range 4).foldl (fun w i => w.setU (n + i) ((x.w.t m).extractLsb' (32 * i) 32)) w
    | .st =>
      let v := x.w.u128 m
      if Dsc.ok v then x.doneW x.s fun w => w.setT n v else x.raise Cause.illop
    | .tt => x.doneW x.s fun w => w.setT n (x.w.t m)

end Sys2Proof.Machine
end

