-- ==== Sys2Proof/Machine/Float.lean ====
section
/-! DEFINITION. Floating-point instructions, conversion, special functions, packed halves and dot
products (spec/04 R97-R106). -/

namespace Sys2Proof.Machine

/-- FADD (R98). -/
def execFadd (f : FFmt) (r : Rnd) (d a b : BitVec 7) (s : State) : Host.Outcome State Fault Refusal :=
  runWord (.fadd f r d a b) s fun x => x.writeFp f d fun l =>
    fpAdd (fmtOf f) (x.rnd r l) (x.fA f a l) (x.fB f b l)

/-- FMUL (R98). -/
def execFmul (f : FFmt) (r : Rnd) (d a b : BitVec 7) (s : State) : Host.Outcome State Fault Refusal :=
  runWord (.fmul f r d a b) s fun x => x.writeFp f d fun l =>
    fpMul (fmtOf f) (x.rnd r l) (x.fA f a l) (x.fB f b l)

/-- FFMA (R98). -/
def execFfma (f : FFmt) (r : Rnd) (d a b : BitVec 7) (s : State) : Host.Outcome State Fault Refusal :=
  runWord (.ffma f r d a b) s fun x => x.writeFp f d fun l =>
    fpFma (fmtOf f) (x.rnd r l) (x.fA f a l) (x.fB f b l) (x.fA f d l)

/-- FMNX (R99): no flag. -/
def execFmnx (f : FFmt) (fn : FmnxFn) (d a b : BitVec 7) (s : State) : Host.Outcome State Fault Refusal :=
  runWord (.fmnx f fn d a b) s fun x => x.writeFp f d fun l =>
    (fpMnx (fmtOf f) fn (x.fA f a l) (x.fB f b l), .none)

/-- FSET (R100): no flag. -/
def execFset (f : FFmt) (c : FCmp) (d : BitVec 4) (a b : BitVec 7) (s : State) : Host.Outcome State Fault Refusal :=
  runWord (.fset f c d a b) s fun x => x.writePred d fun l =>
    fpSet (fmtOf f) c (x.fA f a l) (x.fB f b l)

/-- FRND (R101): no flag. -/
def execFrnd (f : FFmt) (r : Rnd) (d a : BitVec 7) (s : State) : Host.Outcome State Fault Refusal :=
  runWord (.frnd f r d a) s fun x => x.writeFp f d fun l =>
    (fpRnd (fmtOf f) (x.rnd r l) (x.fA f a l), .none)

/-! ### FCVT (R102, R103) -/

/-- The layout of a floating-point type; none for an integer type. -/
def cvtFmt : CvtType → Option Fmt
  | .f64 => some .f64
  | .f32 => some .f32
  | .f16 => some .f16
  | .bf16 => some .bf16
  | .e4m3 => some .e4m3
  | .e5m2 => some .e5m2
  | .s32 | .z32 | .s64 | .z64 | .s16 | .z16 | .s8 | .z8 => none

/-- Width and signedness of an integer type. -/
def cvtInt : CvtType → Nat × Bool
  | .s32 => (32, true)
  | .z32 => (32, false)
  | .s64 => (64, true)
  | .z64 => (64, false)
  | .s16 => (16, true)
  | .z16 => (16, false)
  | .s8 => (8, true)
  | .z8 => (8, false)
  | .f64 | .f32 | .f16 | .bf16 | .e4m3 | .e5m2 => (32, false)

/-- The integer that a register holds, in a type's width (R82). -/
def readInt (t : CvtType) (v : Nat) : Int :=
  let (n, sg) := cvtInt t
  if sg then sx v n else (v % 2 ^ n : Nat)

/-- The register bits of an integer result: narrow signed types are sign-extended (R82). -/
def writeIntBits (t : CvtType) (x : Int) : Nat :=
  let (n, sg) := cvtInt t
  let v := wrap x n
  if sg && decide (n < 32) then wrap (sx v n) 32 else v

/-- FCVT of the source register's bits (R103). -/
def cvtEval (dst src : CvtType) (sat : Bool) (md : RM) (v : Nat) : Nat × Flags :=
  match cvtFmt src, cvtFmt dst with
  | some g, some f => f.encode md (g.decode (v % 2 ^ g.size)) sat
  | none, some f => f.encode md (.ofInt (readInt src v)) sat
  | some g, none =>
    let (n, sg) := cvtInt dst
    let lo : Int := if sg then -(2 ^ (n - 1) : Nat) else 0
    let hi : Int := if sg then (2 ^ (n - 1) : Nat) - 1 else (2 ^ n : Nat) - 1
    let (r, fl) := fpToInt md (g.decode (v % 2 ^ g.size)) lo hi
    (writeIntBits dst r, fl)
  | none, none =>
    let (n, sg) := cvtInt dst
    let x := readInt src v
    (writeIntBits dst (if sat then (if sg then satS x n else satZ x n) else x), .none)

/-- A type held in a pair (R102). -/
def cvtWide : CvtType → Bool
  | .s64 | .z64 | .f64 => true
  | .s32 | .z32 | .f32 | .f16 | .bf16 | .e4m3 | .e5m2 | .s16 | .z16 | .s8 | .z8 => false

/-- FCVT (R102, R103). -/
def execFcvt (dst src : CvtType) (sat : Bool) (r : Rnd) (d a : BitVec 7) (s : State) :
    Host.Outcome State Fault Refusal :=
  runWord (.fcvt dst src sat r d a) s fun x => x.done x.s fun l th =>
    let y := cvtEval dst src sat (x.rnd r l) (x.vn (cvtWide src) a.toNat l)
    (th.setN (cvtWide dst) d.toNat y.1).flag y.2.bits

/-- SFU (R104). -/
def execSfu (half : Bool) (fn : SfuFn) (d a b : BitVec 7) (s : State) : Host.Outcome State Fault Refusal :=
  runWord (.sfu half fn d a b) s fun x =>
    let f : FFmt := if half then .f16 else .f32
    x.writeFp f d fun l => sfuEval (fmtOf f) fn (x.fA f a l) (x.fB f b l)

/-! ### HOP2 and DOT (R105, R106) -/

/-- One element of HOP2. -/
def hopElem (f : Fmt) (op : Hop2Op) (md : RM) (a b d : Nat) : Nat × Flags :=
  match op with
  | .add => fpAdd f md a b
  | .mul => fpMul f md a b
  | .fma => fpFma f md a b d

/-- HOP2 (R105). -/
def execHop2 (bf : Bool) (op : Hop2Op) (r : Hop2Rnd) (d a b : BitVec 7) (s : State) :
    Host.Outcome State Fault Refusal :=
  runWord (.hop2 bf op r d a b) s fun x => x.done x.s fun l th =>
    let f := if bf then Fmt.bf16 else Fmt.f16
    let md := match r with
      | .dflt => x.rmode l
      | .rn => .rn
      | .rz => .rz
    let p := (x.v a.toNat l).toNat
    let q := (x.b b.toNat l).toNat
    let c := (x.v d.toNat l).toNat
    let lo := hopElem f op md (p % 65536) (q % 65536) (c % 65536)
    let hi := hopElem f op md (p / 65536) (q / 65536) (c / 65536)
    (th.setV d.toNat (BitVec.ofNat 32 (hi.1 * 65536 + lo.1))).flag (lo.2.or hi.2).bits

/-- The format of DOT's floating-point types; none for the integer types. -/
def dotFmt : DotType → Option Fmt
  | .f16 => some .f16
  | .bf16 => some .bf16
  | .e4m3 => some .e4m3
  | .e5m2 => some .e5m2
  | .s8 | .z8 | .s8z8 => none

/-- The elements of a register: n bits each. -/
def elemsOf (n v : Nat) : List Nat := (List.range (32 / n)).map fun i => nbits v (n * i + n - 1) (n * i)

/-- DOT on floating-point elements (R106): exact products and sum, one rounding. -/
def dotFloat (g : Fmt) (a b d : Nat) : Nat × Flags :=
  let xs := (elemsOf g.size a).map g.decode
  let ys := (elemsOf g.size b).map g.decode
  let ps := List.zipWith FVal.mul xs ys
  let dv := Fmt.f32.decode d
  let anyNan := dv == .nan || (xs ++ ys).any (· == .nan)
  let badMul := ps.any Prod.snd
  let terms := dv :: (ps.filter fun p => !p.2).map Prod.fst
  let clash := (sumVals (terms.filter (· != .nan)) .rn).2
  if badMul || clash then (Fmt.f32.canon, .invalid)
  else if anyNan then (Fmt.f32.canon, .none)
  else Fmt.f32.encode .rn (sumVals terms .rn).1

/-- DOT on integer elements (R106). -/
def dotInt (t : DotType) (sat : Bool) (a b d : Nat) : Nat :=
  let rd (sg : Bool) (v : Nat) : Int := if sg then sx v 8 else v
  let asg := match t with | .s8 | .s8z8 => true | .z8 | .f16 | .bf16 | .e4m3 | .e5m2 => false
  let bsg := match t with | .s8 => true | .s8z8 | .z8 | .f16 | .bf16 | .e4m3 | .e5m2 => false
  let v := (List.zipWith (fun x y => rd asg x * rd bsg y) (elemsOf 8 a) (elemsOf 8 b)).foldl (· + ·) (sx d 32)
  intResult true sat 32 v

/-- DOT (R106). -/
def execDot (t : DotType) (sat : Bool) (d a b : BitVec 7) (s : State) : Host.Outcome State Fault Refusal :=
  runWord (.dot t sat d a b) s fun x => x.done x.s fun l th =>
    let p := (x.v a.toNat l).toNat
    let q := (x.b b.toNat l).toNat
    let c := (x.v d.toNat l).toNat
    match dotFmt t with
    | some g => th.setF .f32 d.toNat (dotFloat g p q c)
    | none => th.setV d.toNat (BitVec.ofNat 32 (dotInt t sat p q c))

end Sys2Proof.Machine
end

