-- ==== Sys2Proof/Machine/Integer.lean ====
section
/-! DEFINITION. Integer, immediate and constant instructions (spec/04 R87-R96). -/

namespace Sys2Proof.Machine

/-- IADD (R88). -/
def execIadd (t : IType) (sat : Bool) (d a b : BitVec 7) (s : State) : Host.Outcome State Fault Refusal :=
  runWord (.iadd t sat d a b) s fun x => x.writeInt (wide t) d fun l =>
    intResult (isSigned t) sat (if wide t then 64 else 32) (x.iA t a l + x.iB t b l)

/-- ISUB (R88). -/
def execIsub (t : IType) (sat : Bool) (d a b : BitVec 7) (s : State) : Host.Outcome State Fault Refusal :=
  runWord (.isub t sat d a b) s fun x => x.writeInt (wide t) d fun l =>
    intResult (isSigned t) sat (if wide t then 64 else 32) (x.iA t a l - x.iB t b l)

/-- IMUL and IMUL.hi (R88). -/
def execImul (t : IType) (sat hi : Bool) (d a b : BitVec 7) (s : State) : Host.Outcome State Fault Refusal :=
  runWord (.imul t sat hi d a b) s fun x => x.writeInt (wide t) d fun l =>
    let n := if wide t then 64 else 32
    let p := x.iA t a l * x.iB t b l
    intResult (isSigned t) sat n (if hi then p / (2 ^ n : Nat) else p)

/-- IMAD and IMAD.wide (R88). -/
def execImad (t : IType) (sat w : Bool) (d a b : BitVec 7) (s : State) : Host.Outcome State Fault Refusal :=
  runWord (.imad t sat w d a b) s fun x =>
    if w then x.writeInt true d fun l =>
      let e := (x.v64 d.toNat l).toNat
      let c : Int := if isSigned t then sx e 64 else e
      intResult (isSigned t) sat 64 (x.iA t a l * x.iB t b l + c)
    else x.writeInt (wide t) d fun l =>
      intResult (isSigned t) sat (if wide t then 64 else 32) (x.iA t a l * x.iB t b l + x.iA t d l)

/-- IMNX (R88). -/
def execImnx (t : IType) (max : Bool) (d a b : BitVec 7) (s : State) : Host.Outcome State Fault Refusal :=
  runWord (.imnx t max d a b) s fun x => x.writeInt (wide t) d fun l =>
    let p := x.iA t a l
    let q := x.iB t b l
    wrap (if decide (p < q) != max then p else q) (if wide t then 64 else 32)

/-- The bitwise functions of R89 on n bits. -/
def LogicFn.eval (fn : LogicFn) (n : Nat) (a b : BitVec n) : BitVec n :=
  match fn with
  | .and => a &&& b
  | .or => a ||| b
  | .xor => a ^^^ b
  | .andn => a &&& ~~~b
  | .orn => a ||| ~~~b
  | .xnor => ~~~(a ^^^ b)
  | .not => ~~~a

/-- LOGIC (R89). -/
def execLogic (fn : LogicFn) (w : Bool) (d a b : BitVec 7) (s : State) : Host.Outcome State Fault Refusal :=
  runWord (.logic fn w d a b) s fun x => x.writeInt w d fun l =>
    let n := if w then 64 else 32
    (LogicFn.eval fn n (BitVec.ofNat n (x.vn w a.toNat l)) (BitVec.ofNat n (x.bn w b.toNat l))).toNat

/-- The shifts of R90 on n bits with count k. -/
def ShiftFn.eval (fn : ShiftFn) (n a k : Nat) : Nat :=
  match fn with
  | .shl => if k < n then wrap (a * 2 ^ k : Nat) n else 0
  | .shr => if k < n then a / 2 ^ k else 0
  | .sra => if k < n then wrap (sx a n / (2 ^ k : Nat)) n else (if nbit a (n - 1) then 2 ^ n - 1 else 0)
  | .rot =>
    let r := k % n
    a / 2 ^ r + (a % 2 ^ r) * 2 ^ (n - r) % 2 ^ n

/-- SHIFT (R90): the count is 32 bits in every width. -/
def execShift (fn : ShiftFn) (w : Bool) (d a b : BitVec 7) (s : State) : Host.Outcome State Fault Refusal :=
  runWord (.shift fn w d a b) s fun x => x.writeInt w d fun l =>
    ShiftFn.eval fn (if w then 64 else 32) (x.vn w a.toNat l) (x.b b.toNat l).toNat

/-- The number of one bits among the low n. -/
def popCount (a n : Nat) : Nat := ((List.range n).filter fun i => nbit a i).length
/-- Leading zeros of n bits. -/
def leadZeros (a n : Nat) : Nat := ((List.range n).takeWhile fun i => !nbit a (n - 1 - i)).length
/-- Trailing zeros of n bits. -/
def trailZeros (a n : Nat) : Nat := ((List.range n).takeWhile fun i => !nbit a i).length
/-- Bit i of the result is bit n − 1 − i. -/
def reverseBits (a n : Nat) : Nat :=
  (List.range n).foldl (fun r i => r + if nbit a i then 2 ^ (n - 1 - i) else 0) 0

/-- The field forms of R91: control word c, operand a, old destination d. -/
def fieldForm (fn : BitsFn) (a c d : Nat) : Nat :=
  let pos := nbits c 4 0
  let len := min 32 (nbits c 13 8)
  let f := (a >>> pos) % 2 ^ len
  match fn with
  | .bfeZ => f
  | .bfeS => if len = 0 then 0 else wrap (sx f len) 32
  | .bfi =>
    let mask := ((2 ^ len - 1) * 2 ^ pos) % 2 ^ 32
    (d &&& (2 ^ 32 - 1 - mask)) ||| ((a * 2 ^ pos) % 2 ^ 32 &&& mask)
  | .popc | .clz | .ctz | .brev => 0

/-- BITS (R91). -/
def execBits (fn : BitsFn) (w : Bool) (d a b : BitVec 7) (s : State) : Host.Outcome State Fault Refusal :=
  runWord (.bits fn w d a b) s fun x =>
    let n := if w then 64 else 32
    match fn with
    | .popc => x.writeInt false d fun l => popCount (x.vn w a.toNat l) n
    | .clz => x.writeInt false d fun l => leadZeros (x.vn w a.toNat l) n
    | .ctz => x.writeInt false d fun l => trailZeros (x.vn w a.toNat l) n
    | .brev => x.writeInt w d fun l => reverseBits (x.vn w a.toNat l) n
    | .bfeS | .bfeZ | .bfi => x.writeInt false d fun l =>
        fieldForm fn (x.v a.toNat l).toNat (x.b b.toNat l).toNat (x.v d.toNat l).toNat

/-- ISET (R92). -/
def execIset (c : Cmp) (t : IType) (d : BitVec 4) (a b : BitVec 7) (s : State) : Host.Outcome State Fault Refusal :=
  runWord (.iset c t d a b) s fun x => x.writePred d fun l => Cmp.holds c (x.iA t a l) (x.iB t b l)

/-- SEL (R93). -/
def execSel (inv : Bool) (p : BitVec 4) (d a b : BitVec 7) (s : State) : Host.Outcome State Fault Refusal :=
  runWord (.sel inv p d a b) s fun x => x.done x.s fun l th =>
    th.setV d.toNat (if x.p p.toNat l != inv then x.v a.toNat l else x.b b.toNat l)

/-- LEA (R94). -/
def execLea (sgn : Bool) (sh : BitVec 3) (d a b : BitVec 7) (s : State) : Host.Outcome State Fault Refusal :=
  runWord (.lea sgn sh d a b) s fun x => x.writeInt true d fun l =>
    let v := (x.b b.toNat l).toNat
    let e : Int := if sgn then sx v 32 else v
    wrap ((x.v64 a.toNat l).toNat + e * (2 ^ sh.toNat : Nat)) 64

/-- IADDI (R95). -/
def execIaddi (d a : BitVec 7) (imm : BitVec 12) (s : State) : Host.Outcome State Fault Refusal :=
  runWord (.iaddi d a imm) s fun x => x.done x.s fun l th =>
    th.setV d.toNat (x.v a.toNat l + imm.signExtend 32)

/-- ANDI (R95). -/
def execAndi (d a : BitVec 7) (imm : BitVec 12) (s : State) : Host.Outcome State Fault Refusal :=
  runWord (.andi d a imm) s fun x => x.done x.s fun l th =>
    th.setV d.toNat (x.v a.toNat l &&& imm.setWidth 32)

/-- ORI (R95). -/
def execOri (d a : BitVec 7) (imm : BitVec 12) (s : State) : Host.Outcome State Fault Refusal :=
  runWord (.ori d a imm) s fun x => x.done x.s fun l th =>
    th.setV d.toNat (x.v a.toNat l ||| imm.setWidth 32)

/-- XORI (R95). -/
def execXori (d a : BitVec 7) (imm : BitVec 12) (s : State) : Host.Outcome State Fault Refusal :=
  runWord (.xori d a imm) s fun x => x.done x.s fun l th =>
    th.setV d.toNat (x.v a.toNat l ^^^ imm.setWidth 32)

/-- MOVL (R96). -/
def execMovl (d : BitVec 7) (imm : BitVec 19) (s : State) : Host.Outcome State Fault Refusal :=
  runWord (.movl d imm) s fun x => x.done x.s fun _ th => th.setV d.toNat (imm.signExtend 32)

/-- LUI (R96): the low 13 bits of d stay. -/
def execLui (d : BitVec 7) (imm : BitVec 19) (s : State) : Host.Outcome State Fault Refusal :=
  runWord (.lui d imm) s fun x => x.done x.s fun l th =>
    th.setV d.toNat (imm ++ (x.v d.toNat l).extractLsb' 0 13)

end Sys2Proof.Machine
end

