-- ==== Sys2Proof/Machine/Range.lean ====
section
/-! DEFINITION. The check and the swap of a range set (spec/06 R156-R160; spec/23 R439). -/

namespace Sys2Proof.Machine

/-- The 64 entries of a staging image, header and entries wholly in device memory, read through the translation that the
issuer was admitted with (R316); a page of it that is being moved is waited for (R321). -/
def State.stagingEntries (s : State) (c : Commit) : Res (List RangeEntry) :=
  (s.loadSpans (rootSpace c.ctx c.root) (dieOf c.core) 8 ((List.range 264).map fun i => (c.img.toNat + 8 * i) % 2 ^ 64)).andThen
    fun (xs, bs) =>
      if xs.all fun x => isLpddr x.key then
        .ok ((List.range 64).map fun n => BitVec.ofNat 256 (leNat ((bs.drop (64 + 32 * n)).take 32)))
      else .bad Cause.prot

/-- A reserved bit of an entry, or a bad base or limit of a valid one. -/
def entryBad (e : RangeEntry) : Bool :=
  fld e 63 52 != 0 || fld e 127 116 != 0 || fld e 191 180 != 0 || fld e 255 204 != 0 ||
    (Range.valid e && (decide (Range.vlimit e ≤ Range.vbase e) || Range.vbase e % 4096 != 0 ||
      Range.vlimit e % 4096 != 0 || Range.pbase e % 4096 != 0))

/-- Two valid entries overlap. -/
def entriesMeet (a b : RangeEntry) : Bool :=
  Range.valid a && Range.valid b && decide (Range.vbase a < Range.vlimit b) && decide (Range.vbase b < Range.vlimit a)

/-- A valid entry maps a physical range that lies wholly in one backed region. -/
def entryBacked (e : RangeEntry) : Bool :=
  let lo := Range.pbase e
  let hi := lo + (Range.vlimit e - Range.vbase e)
  decide (hi ≤ lpddrEnd) || (decide (2 ^ 50 ≤ lo) && decide (hi ≤ 2 ^ 51)) ||
    (decide (2 ^ 51 ≤ lo) && decide (hi ≤ 2 ^ 51 + 2 ^ 50))

/-- The status of entries from number n on, given the lower-numbered ones. An entry that fails several checks takes the lowest
of their codes: the model's choice (R159, log 97). -/
def entriesStatus (lower : List RangeEntry) : (n : Nat) → List RangeEntry → Nat
  | _, [] => 1
  | n, e :: r =>
    if entryBad e then 0x00010000 + n
    else if lower.any (entriesMeet e) then 0x00020000 + n
    else if Range.valid e && !entryBacked e then 0x00030000 + n
    else entriesStatus (lower ++ [e]) (n + 1) r

/-- The status of an image that could not be read (R159). -/
def unreadImage : Nat := 0x00040000

/-- The verdict on a staging image (R159); none while its reading waits. -/
def State.rangeStatus (s : State) (c : Commit) : Option Nat :=
  match s.stagingEntries c with
  | .ok es => some (entriesStatus [] 0 es)
  | .bad _ => some unreadImage
  | .wait => none

/-- Key of the range-commit word (R439). -/
def rangeWord : Nat := Config.mgmtArea + 0x900

/-- Root firmware checks the oldest commit and writes its verdict with a fresh sequence number. -/
def execRangeCommitCheck (s : State) : Host.Outcome State Fault Refusal :=
  match s.commits with
  | [] => .next s
  | c :: rest =>
    if c.verdict.isSome then .next s
    else match s.rangeStatus c with
    | none => .next s
    | some v =>
      let t := (s.putNum rangeWord 4 v).putNum (rangeWord + 4) 4 (s.verdictSeq + 1).toNat
      let t := if v = 1 then t.putNum (rangeWord + 8) 8 c.img.toNat else t
      .next { t with verdictSeq := s.verdictSeq + 1, lastCommit := BitVec.ofNat 32 v
                     commits := { c with verdict := some (BitVec.ofNat 32 v) } :: rest }

/-- A status reaches the issuer's token, or its saved token once the issuer is swapped out (R160); a register that was
released meanwhile takes none (R248). -/
def State.rangeAnswer (s : State) (c : Commit) (status : Word) : State :=
  if c.tok = goneReg then s else
  match c.saved with
  | some (n, m) =>
    let as := s.imgAreas n
    let h := (Hold.ofWord (imgHold (s.imgHeader n) m)).getD Hold.zero
    s.putNum (imgKey n (offOf as 0x02 m + c.wslot * (16 * h.sreg * 4) + 4 * c.tok)) 4 status.toNat
  | none => s.writeTok c.core c.gk (c.wslot, c.tok) status

/-- The new set replaces the old one in every die, and RGEN rises and is written to the image header, translated under
the new set; none while that page is being moved. A header that cannot be stored to stays as it is: the spec states no
effect of that on the commit (log 70). -/
def State.swapRanges (s : State) (c : Commit) (es : List RangeEntry) : Option State :=
  let t := { s with ranges := ((es.zipIdx).foldl (fun (l : Sparse RangeEntry) (e : RangeEntry × Nat) => sset l e.2 e.1 0) []), rgen := s.rgen + 1 }
  match t.storeBytes (rootSpace c.ctx c.root) (dieOf c.core) c.img.toNat (leBytes 4 t.rgen.toNat) with
  | .ok u _ | .bad u _ => some u
  | .wait => none

/-- RANGE_SWAP: the verdict is carried out. -/
def execRangeSwap (s : State) : Host.Outcome State Fault Refusal :=
  match s.commits with
  | [] => .next s
  | c :: rest =>
    match c.verdict with
    | none => .next s
    | some v =>
      let t := { s with commits := rest }
      if v = 1 then
        match s.stagingEntries c with
        | .ok es => match t.swapRanges c es with
          | some u => .next (u.rangeAnswer c v)
          | none => .next s
        | .bad _ => .next (t.rangeAnswer c (BitVec.ofNat 32 unreadImage))
        | .wait => .next s
      else .next (t.rangeAnswer c v)

end Sys2Proof.Machine
end

