-- ==== Sys2Proof/Machine/Dispatch.lean ====
section
/-! DEFINITION. One arm for each constructor: the meaning it calls. -/

namespace Sys2Proof.Machine

/-- What each instruction or step does. -/
def exec (i : Instr) (s : State) : Host.Outcome State Fault Refusal :=
  match i with
  | .nop => Sys2Proof.Machine.execNop s
  | .brk code => Sys2Proof.Machine.execBrk code s
  | .trap code => Sys2Proof.Machine.execTrap code s
  | .trapEsc code => Sys2Proof.Machine.execTrapEsc code s
  | .tret => Sys2Proof.Machine.execTret s
  | .mfs d sel => Sys2Proof.Machine.execMfs d sel s
  | .mts d sel => Sys2Proof.Machine.execMts d sel s
  | .causeclr a => Sys2Proof.Machine.execCauseclr a s
  | .icinv => Sys2Proof.Machine.execIcinv s
  | .halt => Sys2Proof.Machine.execHalt s
  | .iadd t sat d a b => Sys2Proof.Machine.execIadd t sat d a b s
  | .isub t sat d a b => Sys2Proof.Machine.execIsub t sat d a b s
  | .imul t sat hi d a b => Sys2Proof.Machine.execImul t sat hi d a b s
  | .imad t sat wide d a b => Sys2Proof.Machine.execImad t sat wide d a b s
  | .imnx t max d a b => Sys2Proof.Machine.execImnx t max d a b s
  | .logic fn w64 d a b => Sys2Proof.Machine.execLogic fn w64 d a b s
  | .shift fn w64 d a b => Sys2Proof.Machine.execShift fn w64 d a b s
  | .bits fn w64 d a b => Sys2Proof.Machine.execBits fn w64 d a b s
  | .iset c t d a b => Sys2Proof.Machine.execIset c t d a b s
  | .sel inv p d a b => Sys2Proof.Machine.execSel inv p d a b s
  | .lea sgn sh d a b => Sys2Proof.Machine.execLea sgn sh d a b s
  | .iaddi d a imm => Sys2Proof.Machine.execIaddi d a imm s
  | .andi d a imm => Sys2Proof.Machine.execAndi d a imm s
  | .ori d a imm => Sys2Proof.Machine.execOri d a imm s
  | .xori d a imm => Sys2Proof.Machine.execXori d a imm s
  | .movl d imm => Sys2Proof.Machine.execMovl d imm s
  | .lui d imm => Sys2Proof.Machine.execLui d imm s
  | .fadd f r d a b => Sys2Proof.Machine.execFadd f r d a b s
  | .fmul f r d a b => Sys2Proof.Machine.execFmul f r d a b s
  | .ffma f r d a b => Sys2Proof.Machine.execFfma f r d a b s
  | .fmnx f fn d a b => Sys2Proof.Machine.execFmnx f fn d a b s
  | .fset f c d a b => Sys2Proof.Machine.execFset f c d a b s
  | .fcvt dst src sat r d a => Sys2Proof.Machine.execFcvt dst src sat r d a s
  | .sfu half fn d a b => Sys2Proof.Machine.execSfu half fn d a b s
  | .frnd f r d a => Sys2Proof.Machine.execFrnd f r d a s
  | .hop2 bf op r d a b => Sys2Proof.Machine.execHop2 bf op r d a b s
  | .dot t sat d a b => Sys2Proof.Machine.execDot t sat d a b s
  | .shfl mode w d a idx => Sys2Proof.Machine.execShfl mode w d a idx s
  | .vote op neg d a => Sys2Proof.Machine.execVote op neg d a s
  | .wred op d a b => Sys2Proof.Machine.execWred op d a b s
  | .plog op d a b => Sys2Proof.Machine.execPlog op d a b s
  | .xmov k w64 d a => Sys2Proof.Machine.execXmov k w64 d a s
  | .meldDecl k a => Sys2Proof.Machine.execMeldDecl k a s
  | .meldSign k tok => Sys2Proof.Machine.execMeldSign k tok s
  | .meldCancel k => Sys2Proof.Machine.execMeldCancel k s
  | .meldQry d k => Sys2Proof.Machine.execMeldQry d k s
  | .ldw t tok mk => Sys2Proof.Machine.execLdw t tok mk s
  | .ldwSwap tok mk => Sys2Proof.Machine.execLdwSwap tok mk s
  | .mstr c t cg init tok mk => Sys2Proof.Machine.execMstr c t cg init tok mk s
  | .accAcq c mk => Sys2Proof.Machine.execAccAcq c mk s
  | .accRel c mk => Sys2Proof.Machine.execAccRel c mk s
  | .accZ c tok mk => Sys2Proof.Machine.execAccZ c tok mk s
  | .accRd c t tok mk => Sys2Proof.Machine.execAccRd c t tok mk s
  | .accWr c t tok mk => Sys2Proof.Machine.execAccWr c t tok mk s
  | .tilePlane t a p => Sys2Proof.Machine.execTilePlane t a p s
  | .tileHnd t a => Sys2Proof.Machine.execTileHnd t a s
  | .tileDim t a => Sys2Proof.Machine.execTileDim t a s
  | .tileAdv t a => Sys2Proof.Machine.execTileAdv t a s
  | .ld k d a off => Sys2Proof.Machine.execLd k d a off s
  | .st k d a off => Sys2Proof.Machine.execSt k d a off s
  | .ldx k ub ua d a b => Sys2Proof.Machine.execLdx k ub ua d a b s
  | .stx k ub ua d a b => Sys2Proof.Machine.execStx k ub ua d a b s
  | .lde nf h d a b => Sys2Proof.Machine.execLde nf h d a b s
  | .ste nf sat d a b => Sys2Proof.Machine.execSte nf sat d a b s
  | .atom op w64 d a b => Sys2Proof.Machine.execAtom op w64 d a b s
  | .acpy fn q d a tok => Sys2Proof.Machine.execAcpy fn q d a tok s
  | .tagLook d a => Sys2Proof.Machine.execTagLook d a s
  | .tagSet a b => Sys2Proof.Machine.execTagSet a b s
  | .tagInv b => Sys2Proof.Machine.execTagInv b s
  | .tagRd d b => Sys2Proof.Machine.execTagRd d b s
  | .tagWr a b => Sys2Proof.Machine.execTagWr a b s
  | .splfSt d a k => Sys2Proof.Machine.execSplfSt d a k s
  | .splfLd d a k => Sys2Proof.Machine.execSplfLd d a k s
  | .fencM => Sys2Proof.Machine.execFencM s
  | .fencQImm q => Sys2Proof.Machine.execFencQImm q s
  | .fencQReg a => Sys2Proof.Machine.execFencQReg a s
  | .fencR a => Sys2Proof.Machine.execFencR a s
  | .fencRcommit a b => Sys2Proof.Machine.execFencRcommit a b s
  | .futFill d a b => Sys2Proof.Machine.execFutFill d a b s
  | .futWait d a => Sys2Proof.Machine.execFutWait d a s
  | .futTake d a => Sys2Proof.Machine.execFutTake d a s
  | .futClr a => Sys2Proof.Machine.execFutClr a s
  | .bra disp => Sys2Proof.Machine.execBra disp s
  | .braPred sense p disp => Sys2Proof.Machine.execBraPred sense p disp s
  | .braU sense p disp => Sys2Proof.Machine.execBraU sense p disp s
  | .jmpr ub a => Sys2Proof.Machine.execJmpr ub a s
  | .jmprLink ub d a => Sys2Proof.Machine.execJmprLink ub d a s
  | .call d imm => Sys2Proof.Machine.execCall d imm s
  | .spawn d a b => Sys2Proof.Machine.execSpawn d a b s
  | .reform => Sys2Proof.Machine.execReform s
  | .rcv => Sys2Proof.Machine.execRcv s
  | .exit => Sys2Proof.Machine.execExit s
  | .yield => Sys2Proof.Machine.execYield s
  | .handoff a b => Sys2Proof.Machine.execHandoff a b s
  | .bar k => Sys2Proof.Machine.execBar k s
  | .syncw a => Sys2Proof.Machine.execSyncw a s
  | .syncwU a => Sys2Proof.Machine.execSyncwU a s
  | .wbase n => Sys2Proof.Machine.execWbase n s
  | .rpf start count => Sys2Proof.Machine.execRpf start count s
  | .acqB a => Sys2Proof.Machine.execAcqB a s
  | .acqT d a => Sys2Proof.Machine.execAcqT d a s
  | .rel a => Sys2Proof.Machine.execRel a s
  | .qry d => Sys2Proof.Machine.execQry d s
  | .forkMx w a tok => Sys2Proof.Machine.execForkMx w a tok s
  | .forkCp w a tok => Sys2Proof.Machine.execForkCp w a tok s
  | .forkBoth w a tok => Sys2Proof.Machine.execForkBoth w a tok s
  | .rdv n => Sys2Proof.Machine.execRdv n s
  | .tq a => Sys2Proof.Machine.execTq a s
  | .enq d a b => Sys2Proof.Machine.execEnq d a b s
  | .tapeArm d a b => Sys2Proof.Machine.execTapeArm d a b s
  | .tapeOff d b => Sys2Proof.Machine.execTapeOff d b s
  | .tapeQry d b => Sys2Proof.Machine.execTapeQry d b s
  | .bin d a b => Sys2Proof.Machine.execBin d a b s
  | .pld d a p => Sys2Proof.Machine.execPld d a p s
  | .pst d a p => Sys2Proof.Machine.execPst d a p s
  | .sample clamp lin d t b => Sys2Proof.Machine.execSample clamp lin d t b s
  | .blend op a b => Sys2Proof.Machine.execBlend op a b s
  | .tdone => Sys2Proof.Machine.execTdone s
  | .dcmp a b => Sys2Proof.Machine.execDcmp a b s
  | .pipeMap k => Sys2Proof.Machine.execPipeMap k s
  | .pipeUnmap k => Sys2Proof.Machine.execPipeUnmap k s
  | .pipeQry d k => Sys2Proof.Machine.execPipeQry d k s
  | .meldEntry core => Sys2Proof.Machine.execMeldEntry core s
  | .matrixOperation core => Sys2Proof.Machine.execMatrixOperation core s
  | .copyProbe core q => Sys2Proof.Machine.execCopyProbe core q s
  | .copyChunk core q => Sys2Proof.Machine.execCopyChunk core q s
  | .sequencerEntry core copy => Sys2Proof.Machine.execSequencerEntry core copy s
  | .engineFaultRetry core u => Sys2Proof.Machine.execEngineFaultRetry core u s
  | .binTimer core bin => Sys2Proof.Machine.execBinTimer core bin s
  | .warpLaunch core gk => Sys2Proof.Machine.execWarpLaunch core gk s
  | .injection core bin => Sys2Proof.Machine.execInjection core bin s
  | .pathAge core wid => Sys2Proof.Machine.execPathAge core wid s
  | .warpAge core sched => Sys2Proof.Machine.execWarpAge core sched s
  | .budget core gk => Sys2Proof.Machine.execBudget core gk s
  | .head core => Sys2Proof.Machine.execHead core s
  | .grant core => Sys2Proof.Machine.execGrant core s
  | .futAttempt core wid => Sys2Proof.Machine.execFutAttempt core wid s
  | .barrierArrival core gk => Sys2Proof.Machine.execBarrierArrival core gk s
  | .barrierComplete core gk k thread => Sys2Proof.Machine.execBarrierComplete core gk k thread s
  | .icinvCompletion core wid => Sys2Proof.Machine.execIcinvCompletion core wid s
  | .groupEnd core gk => Sys2Proof.Machine.execGroupEnd core gk s
  | .recordCheck q => Sys2Proof.Machine.execRecordCheck q s
  | .admission q => Sys2Proof.Machine.execAdmission q s
  | .taskCompletion task => Sys2Proof.Machine.execTaskCompletion task s
  | .commit draw => Sys2Proof.Machine.execCommit draw s
  | .flushComplete draw => Sys2Proof.Machine.execFlushComplete draw s
  | .flushStall draw => Sys2Proof.Machine.execFlushStall draw s
  | .binningStall draw => Sys2Proof.Machine.execBinningStall draw s
  | .tileIssue draw tile core => Sys2Proof.Machine.execTileIssue draw tile core s
  | .visibilityWave core gk => Sys2Proof.Machine.execVisibilityWave core gk s
  | .shadingWave core gk => Sys2Proof.Machine.execShadingWave core gk s
  | .writeBack core gk => Sys2Proof.Machine.execWriteBack core gk s
  | .preemption sc => Sys2Proof.Machine.execPreemption sc s
  | .quiesce => Sys2Proof.Machine.execQuiesce s
  | .acknowledgement core => Sys2Proof.Machine.execAcknowledgement core s
  | .swapOut core gang => Sys2Proof.Machine.execSwapOut core gang s
  | .restore slot core => Sys2Proof.Machine.execRestore slot core s
  | .kill slot => Sys2Proof.Machine.execKill slot s
  | .rangeCommitCheck => Sys2Proof.Machine.execRangeCommitCheck s
  | .rangeSwap => Sys2Proof.Machine.execRangeSwap s
  | .arm grove tape base cap blk => Sys2Proof.Machine.execArm grove tape base cap blk s
  | .off grove tape => Sys2Proof.Machine.execOff grove tape s
  | .query grove tape => Sys2Proof.Machine.execQuery grove tape s
  | .engCommand replay => Sys2Proof.Machine.execEngCommand replay s
  | .memCommand replay => Sys2Proof.Machine.execMemCommand replay s
  | .enqCommand replay => Sys2Proof.Machine.execEnqCommand replay s
  | .bankCommand replay => Sys2Proof.Machine.execBankCommand replay s
  | .rfenceCommand replay => Sys2Proof.Machine.execRfenceCommand replay s
  | .logRead who index => Sys2Proof.Machine.execLogRead who index s
  | .apertureSet who n r => Sys2Proof.Machine.execApertureSet who n r s
  | .exportSet who n r => Sys2Proof.Machine.execExportSet who n r s
  | .fwStage who img => Sys2Proof.Machine.execFwStage who img s
  | .status who => Sys2Proof.Machine.execStatus who s
  | .mailboxRefused who code => Sys2Proof.Machine.execMailboxRefused who code s
  | .getVersion => Sys2Proof.Machine.execGetVersion s
  | .getCapabilities => Sys2Proof.Machine.execGetCapabilities s
  | .negotiateAlgorithms => Sys2Proof.Machine.execNegotiateAlgorithms s
  | .getDigests => Sys2Proof.Machine.execGetDigests s
  | .getCertificate => Sys2Proof.Machine.execGetCertificate s
  | .challenge nonce => Sys2Proof.Machine.execChallenge nonce s
  | .getMeasurements => Sys2Proof.Machine.execGetMeasurements s
  | .unsupportedRequest r => Sys2Proof.Machine.execUnsupportedRequest r s
  | .hostCxlMemRead addr len => Sys2Proof.Machine.execHostCxlMemRead addr len s
  | .hostCxlMemWrite addr bytes => Sys2Proof.Machine.execHostCxlMemWrite addr bytes s
  | .hostSnoop die line => Sys2Proof.Machine.execHostSnoop die line s
  | .tWake die => Sys2Proof.Machine.execTWake die s
  | .tDead die => Sys2Proof.Machine.execTDead die s
  | .linkUp die => Sys2Proof.Machine.execLinkUp die s
  | .retryRequest l seq => Sys2Proof.Machine.execRetryRequest l seq s
  | .linkDown l => Sys2Proof.Machine.execLinkDown l s
  | .pause l c => Sys2Proof.Machine.execPause l c s
  | .resume l c => Sys2Proof.Machine.execResume l c s
  | .peerRequest endpoint addr k => Sys2Proof.Machine.execPeerRequest endpoint addr k s
  | .remotePush endpoint q record => Sys2Proof.Machine.execRemotePush endpoint q record s
  | .pushAcknowledgement accepted => Sys2Proof.Machine.execPushAcknowledgement accepted s
  | .scrub addr correctable => Sys2Proof.Machine.execScrub addr correctable s
  | .telemetry => Sys2Proof.Machine.execTelemetry s
  | .reset => Sys2Proof.Machine.execReset s
  | .powerState die p => Sys2Proof.Machine.execPowerState die p s
  | .temperatureAbove95 die => Sys2Proof.Machine.execTemperatureAbove95 die s
  | .temperatureBelow90 die => Sys2Proof.Machine.execTemperatureBelow90 die s
  | .temperatureAbove110 die => Sys2Proof.Machine.execTemperatureAbove110 die s
  | .currentAbove85a => Sys2Proof.Machine.execCurrentAbove85a s
  | .currentBelow80a => Sys2Proof.Machine.execCurrentBelow80a s
  | .flowBelow15 => Sys2Proof.Machine.execFlowBelow15 s
  | .wordNotAnInstruction => Sys2Proof.Machine.execWordNotAnInstruction s
  | .instructionFetchFault page => Sys2Proof.Machine.execInstructionFetchFault page s
  | .spillWrite core => Sys2Proof.Machine.execSpillWrite core s
  | .cleanAcknowledgement => Sys2Proof.Machine.execCleanAcknowledgement s
  | .flitAcknowledgement l seq => Sys2Proof.Machine.execFlitAcknowledgement l seq s
  | .quiesceEnd => Sys2Proof.Machine.execQuiesceEnd s
  | .killOfResidentGroup t => Sys2Proof.Machine.execKillOfResidentGroup t s

end Sys2Proof.Machine
end

