-- ==== Sys2Proof/Machine/Sched.lean ====
section
/-! DEFINITION. What a step does around `exec`: it takes the next mover, delivers what is due at an
instruction boundary (R132, R135, R337), fetches and decodes (R46, R48, R399), executes, and lets the
stepped lanes raise STEP (R339). With nothing on the agenda a clock passes and the schedulers choose
(R238, R239). -/

namespace Sys2Proof.Machine

/-! ### Before the fetch: what is due (R132, R135, R337) -/

/-- BUDGET is due on a warp at an issue of it (R337): deferred, it stands in the warp's CAUSE; else a set in no
sub-warp parks with it, and so do the lanes that wait still, whatever set issues. -/
def Ctx.budgetDue (x : Ctx) : Option State :=
  let inSub := x.sub?.isSome
  let waiting := x.g.waitingLanes x.w
  if !x.w.budgetDue then none
  else if x.w.trapmask.getLsbD Cause.budget then
    (if x.w.cause.getLsbD Cause.budget || inSub then none else some (x.modW x.s Warp.noteBudget))
  else if inSub && waiting.isEmpty then none
  else
    let s := x.modW x.s fun w => { w.moveBudget with budgetDue := inSub }
    let s := if inSub then s else x.park s x.lanes (Cause.bit Cause.budget)
    some (s.parkLanes x.core x.g.gk x.slot waiting (Cause.bit Cause.budget))

/-- Causes due on lanes of the set before the instruction: a failed reload, failures without a token,
BUDGET. The state after, which may leave lanes of the set parked; none when nothing is due. -/
def Ctx.deliver (x : Ctx) : Option State :=
  let inSub := x.sub?.isSome
  if x.w.firstFail ≠ 0 then some (x.park (x.modW x.s fun w => { w with firstFail := 0 }) x.lanes x.w.firstFail)
  else
    let due := x.w.failLanes.filter fun (m, _) => m &&& x.lanes != 0
    if !inSub && !due.isEmpty then
      let s := x.modW x.s fun w => { w with
        failLanes := (w.failLanes.map fun (m, c) => (m &&& ~~~x.lanes, c)).filter fun (m, _) => m != 0 }
      let hit := due.foldl (fun m d => m ||| (d.1 &&& x.lanes)) 0
      some (x.park s hit (due.foldl (fun b d => b ||| Cause.bit d.2) 0))
    else x.budgetDue

/-! ### Around exec -/

/-- The step counter and TS move after every step; a read of TS never returns less than an earlier one (R15, log 3). -/
def State.tick (s : State) : State :=
  { s with stepNo := s.stepNo + 1, ts := BitVec.ofNat 64 (min (2 ^ 64 - 1) (s.ts.toNat + Config.tsAdvance s.stepNo)) }

/-- Change the next state of an outcome. -/
def onNext (o : Host.Outcome State Fault Refusal) (f : State → State) : Host.Outcome State Fault Refusal :=
  match o with
  | .next s => .next (f s)
  | .fault r => .fault r
  | .refused r => .refused r

/-- After an instruction of stepped lanes: each lane that did not fault raises STEP at its thread's
program counter, one sub-warp for each counter; lanes that wait do so too. A lane that was only stalled has issued
nothing, and stays stepped (R339). -/
def Ctx.stepTrap (x : Ctx) (s : State) : State :=
  let g := x.g' s
  let w := x.w' s
  let st := maskOf (x.ls.filter fun l => (x.w.stepSet l).isSome && !w.stalledAt l)
  if st = 0 then s
  else
    let s := x.modW s fun w => { w with stepping := cutMasks w.stepping st }
    let ls := (maskLanes st).filterMap fun l =>
      if (w.subOf l).isSome then none else (g.laneThread w l).map fun t => (l, t.pc)
    let pcs := (sortBy (fun p : Addr => p.toNat) ((ls.map Prod.snd).eraseDups))
    pcs.foldl (fun s pc =>
      s.park x.core x.g.gk x.slot (maskOf ((ls.filter fun e => e.2 == pc).map Prod.fst))
        (Cause.bit Cause.step) pc) s

/-- What a warp keeps of stalled TQs as a path issues: not those of its own lanes at another program counter, which they
have left for good unless the path is a handler (R302, R336). -/
def Ctx.tqsKept (x : Ctx) (l : List TqStall) : List TqStall :=
  if x.sub?.isSome then l
  else (l.filter fun e => e.pc == x.pc) ++ cutTqs (l.filter fun e => e.pc != x.pc) x.lanes

/-- The lanes of the set stop waiting while their instruction is tried again, and a sub-warp whose lanes
issue has begun its handler. -/
def Ctx.entered (x : Ctx) : State :=
  x.lanesDo (x.modW { x.s with issue := some ⟨x.core, x.w.wid, x.lanes, x.pc⟩ } fun w =>
    { w with subs := w.subs.map fun b => if b.lanes &&& x.lanes = 0 then b else { b with begun := true }
             waited := maskOf (x.ls.filter fun l => (x.th l).wait != .none)
             stalls := cutStalls w.stalls x.lanes, tqs := x.tqsKept w.tqs })
    x.ls fun _ th => { th with wait := .none }

/-- After an issue: unless every lane of it was only stalled, its path has issued, and the others of its warp that
were eligible age (R239). -/
def Ctx.aged (x : Ctx) (s : State) : State :=
  if x.ls.all (x.w' s).stalledAt then s
  else x.modW s fun w => w.issuedNow s.clk x.ls ((x.g.eligible x.w).filter fun l => !x.ls.contains l)

/-- What an issue performs: the fetched instruction, or the cause of a fetch that has none. -/
def Ctx.perform (x : Ctx) (s : State) : Host.Outcome State Fault Refusal :=
  match x.fetch with
  | .wait => .next (x.stall x.s .other)
  | .bad c => if c = Cause.page ∨ c = Cause.prot then exec (.instructionFetchFault (c = Cause.page)) s
              else .next (x.park s x.lanes (Cause.bit c))
  | .ok w => match decode w with
    | .ok i => exec i s
    | .error _ => exec .wordNotAnInstruction s

/-- Issue: fetch, decode, execute; then ages move, and stepped lanes raise STEP. -/
def Ctx.run (x : Ctx) : Host.Outcome State Fault Refusal :=
  onNext (x.perform x.entered) fun t => x.stepTrap (x.aged t)

/-- A set that waits tries its instruction again: it has been fetched, and it is no issue of a path. -/
def Ctx.attempt (x : Ctx) (i : Instr) : Host.Outcome State Fault Refusal := exec i x.entered

/-- A step of the package may end what a path waits for that is stalled for something its core does not show: room in a
die's buffer of primitives, a link, or a page that the host maps (log 2). -/
def wakes : Instr → Bool
  | .commit _ | .flushComplete _ | .killOfResidentGroup _ | .linkUp _ | .resume _ _ | .hostCxlMemWrite _ _
  | .peerRequest _ _ _ | .rangeSwap => true
  | _ => false

/-- One mover. An issue that finds causes due parks them and issues what is left at a later step. -/
def State.perform (s : State) (m : Mover) : Host.Outcome State Fault Refusal :=
  match m with
  | .event i => onNext (exec i s) fun t => if wakes i then t.unstallAll else t
  | .found e u => .next (s.found e u)
  | .evict l => .next (s.evict l)
  | .bootFault k => .next { s with bootFault := k }
  | .retry core wid lanes =>
    match s.waitingSet core wid lanes with
    | none => .next s
    | some (x, i) => x.attempt i
  | .issue core wid lanes =>
    match s.issuingSet core wid lanes with
    | none => .next s
    | some x =>
      match x.deliver with
      | none => x.run
      | some d => .next d

/-! ### One step -/

/-- The only step that a module without power takes is a reset. -/
def Mover.isReset : Mover → Bool
  | .event .reset => true
  | _ => false

/-- A step: the mover at the head of the agenda; with an empty agenda a clock passes, and the first mover of the
new agenda goes. A module without power does nothing until it is reset (R437, R438). -/
def State.stepOnce (s : State) : Host.Outcome State Fault Refusal :=
  match s.agenda with
  | m :: rest =>
    if s.powered || m.isReset then onNext (State.perform { s with agenda := rest } m) State.tick
    else .next (State.tick { s with agenda := rest })
  | [] =>
    if !s.powered then .next s.tick
    else
      let (t, ms) := s.clock
      match ms with
      | [] => .next t.tick
      | m :: rest => onNext (State.perform { t with agenda := rest } m) State.tick

/-! ### Placing one instruction (log 10) -/

/-- A thread at the base of its group's local-store window. -/
def placedThread : Thread := Thread.new (BitVec.ofNat 52 lsWindow) 0 (List.replicate 8 0) 0

/-- A supervisor group of one thread that holds every register, logical page 0 and all matrix slots. -/
def placedGroup (gk : Nat) : Group where
  gk := gk
  gid := 0
  ctx := 0
  sup := true
  root := 0
  htab := 0
  jtab := 0
  record := 0
  task := none
  gang := gk
  member := 0
  vh := 1024
  uh := 64
  claim := ⟨128, 4, 1536, 3, 1⟩
  pages := [0]
  slots := [0, 1, 2, 3]
  warps := [Warp.new 0 (some 0 :: List.replicate 31 none) 0]
  threads := [(0, placedThread)]
  budget := 0
  budgetRaised := false
  spawnCount := 0
  melds := List.replicate 8 Meld.idle
  tile := none
  stop := none
  entered := 0
  replay := false
  backlog := []
  planeLoads := []

/-- The state with the words w (low bits first) stored where the next step fetches: core 0 runs the
placed group, whose thread issues next. -/
def State.placed (s : State) (n w : Nat) : State :=
  let k := lsKey 0 0
  { s.setCore 0 { Core.empty with groups := [placedGroup s.fresh] } with
    fresh := s.fresh + 1
    powered := true
    agenda := .issue 0 0 1 :: s.agenda
    poison := s.poison.filter (· != k / 8)
    stale := s.stale.filter fun e => e.1 != k
    mem := Memory.writeN s.mem k (leBytes 4 (w % 2 ^ min n 32)) }

end Sys2Proof.Machine
end

