-- ==== Sys2Proof/Machine/Step.lean ====
section
/-! DEFINITION. One step of the machine, and the placing of an instruction where the next step runs it. -/

namespace Sys2Proof.Machine

/-- One step. -/
def step (s : State) : Host.Outcome State Fault Refusal := s.stepOnce

/-- The state with the instruction whose bits are w stored where the next step fetches (log 10). -/
def State.withFetchWord (s : State) (nbits w : Nat) : State := s.placed nbits w

end Sys2Proof.Machine
end

