-- ==== Sys2Proof/Safety.lean ====
section
/-! DEFINITION. What counts as a sound state, and the terms in which claims about instructions are
stated: when a word runs, what it then leaves, and operands and results as the spec writes them. -/

namespace Sys2Proof

open Sys2Proof.Machine

/-- The memory is in canonical form. -/
def Sound (s : State) : Prop := Memory.wf s.mem = true

/-! ### When a word runs (R26, R29, R30, R46, R51, R132, R304, R315, R382, R394, R37-R39) -/

/-- x is the issuing set that s selects, and nothing that comes before the effect of word i stops it: its
registers lie in the holdings, its tile registers hold descriptors, its selector may be written, its
privilege is held, it names no failed or pending token, no pending vector register, reads no poisoned
register and no pipe register whose bit stands the wrong way. -/
structure Runs (i : Instr) (s : State) (x : Ctx) : Prop where
  set : ctxOf s = some x
  held : x.held (opndsOf i) = true
  tiles : x.tilesOk (opndsOf i) = true
  writable : x.mtsLanes i = false
  mode : (opndsOf i).priv = true → x.sup = true
  tokens : x.failed (opndsOf i) = none
  uniform : x.pendingU i (opndsOf i) = []
  vector : x.pendingV (opndsOf i) = false
  clean : x.readsPoison (opndsOf i) = false
  pipes : x.pipeBlocked (opndsOf i) = []

/-- The state after a word of effect `eff`: the recorder's sync flag before it (R365), the pipe bits and
the partner's registers after it (R37, R38). Where the word uses no pipe register and its gang is not
recorded this is `eff x`: Obligations.SetThatIssues. -/
def performed (i : Instr) (x : Ctx) (eff : Ctx → State) : State :=
  (x.marked (opndsOf i)).pipeAfter (opndsOf i) (eff (x.marked (opndsOf i)))

/-- Word i completes with effect `eff` wherever it runs. -/
def Does (i : Instr) (eff : Ctx → State) : Prop :=
  ∀ s x, Runs i s x → exec i s = .next (performed i x eff)

/-- Word i completes with effect `eff` wherever it runs at a set that meets c. -/
def DoesWhen (i : Instr) (c : Ctx → Prop) (eff : Ctx → State) : Prop :=
  ∀ s x, Runs i s x → c (x.marked (opndsOf i)) → exec i s = .next (performed i x eff)

/-! ### Operands and results as numbers (R28, R80, R88) -/

/-- The value of operand a of type T in a lane: the register, or the pair, signed or unsigned. -/
def aVal (t : IType) (x : Ctx) (n : BitVec 7) (l : Nat) : Int :=
  match t with
  | .s32 => (x.v n.toNat l).toInt
  | .z32 => (x.v n.toNat l).toNat
  | .s64 => (x.v64 n.toNat l).toInt
  | .z64 => (x.v64 n.toNat l).toNat

/-- The value of operand b of type T in a lane: a vector register, or a uniform one for every lane. -/
def bVal (t : IType) (x : Ctx) (n : BitVec 7) (l : Nat) : Int :=
  match t with
  | .s32 => (x.b n.toNat l).toInt
  | .z32 => (x.b n.toNat l).toNat
  | .s64 => (x.b64 n.toNat l).toInt
  | .z64 => (x.b64 n.toNat l).toNat

/-- The nearest number of type T. -/
def clamp (t : IType) (v : Int) : Int :=
  match t with
  | .s32 => max (-2147483648) (min 2147483647 v)
  | .z32 => max 0 (min 4294967295 v)
  | .s64 => max (-9223372036854775808) (min 9223372036854775807 v)
  | .z64 => max 0 (min 18446744073709551615 v)

/-- The thread with an integer of type T written to d, saturated or wrapped. -/
def putVal (t : IType) (sat : Bool) (d : BitVec 7) (v : Int) (th : Thread) : Thread :=
  let r := if sat then clamp t v else v
  if t.is64 then th.setV64 d.toNat (BitVec.ofInt 64 r) else th.setV d.toNat (BitVec.ofInt 32 r)

/-! ### Exact numbers (R62, R81, R82, R103) -/

/-- The exact number of a finite value; 0 for a NaN and an infinity, which have none (R62). -/
def ratOf : FVal → ℚ
  | .fin neg m e => (if neg then -1 else 1) * m * (2 : ℚ) ^ e
  | .nan | .inf _ => 0

/-- A value is neither a NaN nor an infinity. -/
def isFinite (v : FVal) : Prop := v.special = false

/-- The integer that a rounding makes of an exact number (R81). -/
def roundsTo (md : RM) (q : ℚ) (z : Int) : Prop :=
  match md with
  | .rn => |q - z| ≤ 1 / 2 ∧ (|q - z| = 1 / 2 → 2 ∣ z)
  | .rz => z = if q < 0 then ⌈q⌉ else ⌊q⌋
  | .rp => z = ⌈q⌉
  | .rm => z = ⌊q⌋

/-- The least and the greatest number of an integer type of FCVT; none for a floating-point one (R102). -/
def intBounds : CvtType → Option (Int × Int)
  | .s8 => some (-128, 127)
  | .z8 => some (0, 255)
  | .s16 => some (-32768, 32767)
  | .z16 => some (0, 65535)
  | .s32 => some (-2147483648, 2147483647)
  | .z32 => some (0, 4294967295)
  | .s64 => some (-9223372036854775808, 9223372036854775807)
  | .z64 => some (0, 18446744073709551615)
  | .f64 | .f32 | .f16 | .bf16 | .e4m3 | .e5m2 => none

/-- The bits that a register, or a pair, holds of a number of an integer type: narrow types are extended (R82). -/
def intBits (t : CvtType) (z : Int) : Nat := (z % 2 ^ (if t.is64 then 64 else 32)).toNat

/-- x is the number that bits hold in the integer type of these bounds (R82). -/
def intHeld (b : Int × Int) (v : Nat) (x : Int) : Prop :=
  b.1 ≤ x ∧ x ≤ b.2 ∧ (b.2 - b.1 + 1) ∣ ((v : Int) - x)

/-! ### Engine operations (R126, R127) -/

/-- The meld operand of a word that names an engine operation; none for every other word. -/
def engineWord : Instr → Option MeldOp
  | .ldw _ _ mk | .ldwSwap _ mk | .mstr _ _ _ _ _ mk | .accZ _ _ mk | .accRd _ _ _ mk | .accWr _ _ _ mk =>
    some mk
  | .acpy _ _ _ _ _ => some none
  | _ => none

/-- The entry that the issuing set puts into a queue with word i, in state s: what it captures (R126), who it answers
to (R132), the pages behind its group, and the pages that a copy names (R154). -/
def entryFor (i : Instr) (x : Ctx) (s : State) : Entry where
  eid := x.s.fresh
  gk := x.g.gk
  op := x.w.opOf i
  toks := ((opndsOf i).tok.map fun r => (x.slot, r)).toList
  origin := .lanes [(x.slot, x.lanes)]
  melded := false
  threads := x.ls.map x.slotOf
  pages := x.g.pages
  named := s.namedPages x.core x.g x.g.pages (x.w.opOf i)
  q := (copyQueue i).getD 0
  probed := none
  done := 0
  stopped := none

/-- What an operation takes a tile for (R75): a plane for LAYOUT 2 alone, and the format that its descriptor names, if any. -/
def NamedTile (d : Desc) (plane : Option (Nat × Nat × Nat)) (f : Nat) : Prop :=
  (Dsc.layout d ≠ 2 → plane = none) ∧ (Dsc.fmtsel d ≠ 0 → f = Dsc.fmtsel d)

/-- The greatest Nw of a weight format (R113). -/
def widestPlane (f : Nat) : Nat := if f = 1 then 16 else if f = 2 then 32 else 64

/-- The positions of element (i, j) of accumulator a: two, the low half first, where its elements are FP64 (R115). -/
def accAt (f64 : Prop) [Decidable f64] (a i j : Nat) : List Nat :=
  if f64 then [4096 * a + 64 * i + 2 * j, 4096 * a + 64 * i + 2 * j + 1] else [4096 * a + 64 * i + j]

/-! ### Words by what they can change -/

/-- Words that change registers of their own lanes and of their own warp only, and never trap after the checks. -/
def registerWord : Instr → Bool
  | .iadd _ _ _ _ _ | .isub _ _ _ _ _ | .imul _ _ _ _ _ _ | .imad _ _ _ _ _ _ | .imnx _ _ _ _ _
  | .logic _ _ _ _ _ | .shift _ _ _ _ _ | .bits _ _ _ _ _ | .iset _ _ _ _ _ | .sel _ _ _ _ _ | .lea _ _ _ _ _
  | .iaddi _ _ _ | .andi _ _ _ | .ori _ _ _ | .xori _ _ _ | .movl _ _ | .lui _ _ | .fadd _ _ _ _ _
  | .fmul _ _ _ _ _ | .ffma _ _ _ _ _ | .fmnx _ _ _ _ _ | .frnd _ _ _ _ | .fset _ _ _ _ _
  | .fcvt _ _ _ _ _ _ | .sfu _ _ _ _ _ | .hop2 _ _ _ _ _ _ | .dot _ _ _ _ _ | .shfl _ _ _ _ _ | .vote _ _ _ _
  | .wred _ _ _ _ | .plog _ _ _ _ => true
  | .xmov k _ _ _ => k != .st && k != .tt
  | _ => false

/-- The predicate that a register word writes. -/
def predDst : Instr → Option Nat
  | .iset _ _ d _ _ | .fset _ _ d _ _ | .plog _ d _ _ => some d.toNat
  | .vote k _ d _ => match k with
    | .all | .any | .uni => some d.toNat
    | .ballot | .mtch => none
  | .xmov k _ d _ => match k with
    | .vp | .sp => some d.toNat
    | _ => none
  | _ => none

/-- Words that may write memory: stores, atomics and futures, the fence that cleans, words that move pages, job
and directory updates, the words of a tile that store, and BIN, whose primitive may be committed into the pool at once. -/
def mayStore : Instr → Bool
  | .st _ _ _ _ | .stx _ _ _ _ _ _ | .ste _ _ _ _ _ | .atom _ _ _ _ _ | .fencR _ | .futFill _ _ _
  | .futWait _ _ | .futTake _ _ | .futClr _ | .handoff _ _ | .acqB _ | .acqT _ _ | .rel _ | .enq _ _ _
  | .tapeArm _ _ _ | .tapeOff _ _ | .pst _ _ _ | .blend _ _ _ | .dcmp _ _ | .bin _ _ _ => true
  | _ => false

/-! ### Tapes and replays (R357, R360, R369) -/

/-- A directory record names a recording, or a tape with replays under way. -/
def tapeBusy (d : Nat) : Prop := Dir.state d = 2 ∨ Dir.users d ≠ 0

/-- The replay event of a command kind: ENG 2, MEM 3, ENQ 5, BANK 6, RFENCE 7. -/
def replayEvent (replay : Nat) : Nat → Option Instr
  | 2 => some (.engCommand replay)
  | 3 => some (.memCommand replay)
  | 5 => some (.enqCommand replay)
  | 6 => some (.bankCommand replay)
  | 7 => some (.rfenceCommand replay)
  | _ => none

/-- What performing a command comes to. -/
def replayPerform (s : State) (r : Replay) (c : TapeCmd) (g : Group) : CmdRes :=
  match c.kind with
  | 2 => s.engPerform r c g
  | 3 => s.memPerform r c g
  | 5 => s.enqPerform r c g
  | 6 => s.bankPerform r c g
  | _ => s.rfencePerform r c g

/-- Replay r of s may take its next command: its gang is whole and does not stop, a command is left, and no
fault of it waits for a retry. -/
structure ReplayGoes (s : State) (r : Replay) : Prop where
  found : s.replays.find? (fun q => q.key == r.key) = some r
  groups : s.replayGroups r ≠ []
  runs : ∀ g ∈ s.replayGroups r, g.stop = none ∧ g.backlog = [] ∧ g.planeLoads = []
  more : r.e < r.count
  retry : r.waitOn = none ∨ s.clk % 4096 = 0

/-! ### Frames -/

/-- Everything of the package but its cores is as before. -/
def PackageKept (s t : State) : Prop := { t with cores := s.cores } = s

/-- Every core but c is as before, and of core c everything but its groups. -/
def CoreKept (c : Nat) (s t : State) : Prop :=
  (∀ d, d ≠ c → t.core d = s.core d) ∧ { t.core c with groups := (s.core c).groups } = s.core c

/-- The groups of core c are as before but for the one of key gk, which keeps everything but its threads
and its warp slots. -/
def GroupKept (c gk : Nat) (s t : State) : Prop :=
  (∀ k, k ≠ gk → t.group? c k = s.group? c k) ∧
  ∀ g, s.group? c gk = some g →
    ∃ h, t.group? c gk = some h ∧ { h with warps := g.warps, threads := g.threads } = g

/-- Thread u keeps what only the system instructions change, and every register of the window but those
listed, every predicate but p. -/
structure ThreadKept (dst : List Nat) (p : Option Nat) (t u : Thread) : Prop where
  identity : u.tid = t.tid ∧ u.lvl = t.lvl ∧ u.frag = t.frag
  modes : u.rmode = t.rmode ∧ u.winbase = t.winbase
  sticky : t.fpstat &&& u.fpstat = t.fpstat
  waits : u.wait = t.wait ∧ u.vpend = t.vpend
  regs : ∀ n, n ∉ dst → u.v n = t.v n
  preds : ∀ n, some n ≠ p → u.p n = t.p n

end Sys2Proof
end

