-- ==== Sys2Proof/Certificates/Slice0/Obligations.lean ====
section
/-! DEFINITION. The statements for the provers, by chapter of the spec. Each docstring names the rules its statement
formalises. -/

section

open Sys2Proof Sys2Proof.Machine

/-! ### Integer words (R88-R96) -/

/-- R88: IADD, ISUB, IMUL, IMAD and IMNX write, in every lane of the set, the exact result saturated or wrapped
to T; IMUL.hi the upper half of the product; IMAD.wide a 64-bit sum with the pair d. -/
def Obligations.IntegerArithmetic : Prop :=
  (∀ t sat d a b, Does (.iadd t sat d a b) fun x => x.done x.s fun l =>
    putVal t sat d (aVal t x a l + bVal t x b l)) ∧
  (∀ t sat d a b, Does (.isub t sat d a b) fun x => x.done x.s fun l =>
    putVal t sat d (aVal t x a l - bVal t x b l)) ∧
  (∀ t sat d a b, Does (.imul t sat false d a b) fun x => x.done x.s fun l =>
    putVal t sat d (aVal t x a l * bVal t x b l)) ∧
  (∀ t sat d a b, Does (.imul t sat true d a b) fun x => x.done x.s fun l =>
    putVal t sat d ((aVal t x a l * bVal t x b l) / (if t.is64 then 2 ^ 64 else 2 ^ 32))) ∧
  (∀ t sat d a b, Does (.imad t sat false d a b) fun x => x.done x.s fun l =>
    putVal t sat d (aVal t x a l * bVal t x b l + aVal t x d l)) ∧
  (∀ sat d a b, Does (.imad .s32 sat true d a b) fun x => x.done x.s fun l =>
    putVal .s64 sat d (aVal .s32 x a l * bVal .s32 x b l + aVal .s64 x d l)) ∧
  (∀ sat d a b, Does (.imad .z32 sat true d a b) fun x => x.done x.s fun l =>
    putVal .z64 sat d (aVal .z32 x a l * bVal .z32 x b l + aVal .z64 x d l)) ∧
  (∀ t d a b, Does (.imnx t true d a b) fun x => x.done x.s fun l =>
    putVal t false d (max (aVal t x a l) (bVal t x b l))) ∧
  (∀ t d a b, Does (.imnx t false d a b) fun x => x.done x.s fun l =>
    putVal t false d (min (aVal t x a l) (bVal t x b l)))

/-- R89 and R90: LOGIC and SHIFT, on 32 bits and on pairs. -/
def Obligations.LogicAndShift : Prop :=
  (∀ fn d a b, Does (.logic fn false d a b) fun x => x.done x.s fun l th =>
    th.setV d.toNat (match fn with
      | .and => x.v a.toNat l &&& x.b b.toNat l
      | .or => x.v a.toNat l ||| x.b b.toNat l
      | .xor => x.v a.toNat l ^^^ x.b b.toNat l
      | .andn => x.v a.toNat l &&& ~~~(x.b b.toNat l)
      | .orn => x.v a.toNat l ||| ~~~(x.b b.toNat l)
      | .xnor => ~~~(x.v a.toNat l ^^^ x.b b.toNat l)
      | .not => ~~~(x.v a.toNat l))) ∧
  (∀ fn d a b, Does (.logic fn true d a b) fun x => x.done x.s fun l th =>
    th.setV64 d.toNat (match fn with
      | .and => x.v64 a.toNat l &&& x.b64 b.toNat l
      | .or => x.v64 a.toNat l ||| x.b64 b.toNat l
      | .xor => x.v64 a.toNat l ^^^ x.b64 b.toNat l
      | .andn => x.v64 a.toNat l &&& ~~~(x.b64 b.toNat l)
      | .orn => x.v64 a.toNat l ||| ~~~(x.b64 b.toNat l)
      | .xnor => ~~~(x.v64 a.toNat l ^^^ x.b64 b.toNat l)
      | .not => ~~~(x.v64 a.toNat l))) ∧
  (∀ fn d a b, Does (.shift fn false d a b) fun x => x.done x.s fun l th =>
    th.setV d.toNat (match fn with
      | .shl => x.v a.toNat l <<< (x.b b.toNat l).toNat
      | .shr => x.v a.toNat l >>> (x.b b.toNat l).toNat
      | .sra => (x.v a.toNat l).sshiftRight (x.b b.toNat l).toNat
      | .rot => (x.v a.toNat l).rotateRight (x.b b.toNat l).toNat)) ∧
  (∀ fn d a b, Does (.shift fn true d a b) fun x => x.done x.s fun l th =>
    th.setV64 d.toNat (match fn with
      | .shl => x.v64 a.toNat l <<< (x.b b.toNat l).toNat
      | .shr => x.v64 a.toNat l >>> (x.b b.toNat l).toNat
      | .sra => (x.v64 a.toNat l).sshiftRight (x.b b.toNat l).toNat
      | .rot => (x.v64 a.toNat l).rotateRight (x.b b.toNat l).toNat))

/-- R91: the counts, the reversal and the field forms of BITS. The field forms are given bit by bit: bit i of an
extracted field is bit pos + i of a, the sign bit of the field above it in .bfe.s, 0 in .bfe.z; an inserted
field replaces bits pos to pos + len - 1 of d. -/
def Obligations.BitOperations : Prop :=
  (∀ d a b, Does (.bits .popc false d a b) fun x => x.done x.s fun l th =>
    th.setV d.toNat (x.v a.toNat l).cpop) ∧
  (∀ d a b, Does (.bits .popc true d a b) fun x => x.done x.s fun l th =>
    th.setV d.toNat ((x.v64 a.toNat l).cpop.setWidth 32)) ∧
  (∀ d a b, Does (.bits .clz false d a b) fun x => x.done x.s fun l th =>
    th.setV d.toNat (x.v a.toNat l).clz) ∧
  (∀ d a b, Does (.bits .clz true d a b) fun x => x.done x.s fun l th =>
    th.setV d.toNat ((x.v64 a.toNat l).clz.setWidth 32)) ∧
  (∀ d a b, Does (.bits .ctz false d a b) fun x => x.done x.s fun l th =>
    th.setV d.toNat (x.v a.toNat l).ctz) ∧
  (∀ d a b, Does (.bits .ctz true d a b) fun x => x.done x.s fun l th =>
    th.setV d.toNat ((x.v64 a.toNat l).ctz.setWidth 32)) ∧
  (∀ d a b, Does (.bits .brev false d a b) fun x => x.done x.s fun l th =>
    th.setV d.toNat (x.v a.toNat l).reverse) ∧
  (∀ d a b, Does (.bits .brev true d a b) fun x => x.done x.s fun l th =>
    th.setV64 d.toNat (x.v64 a.toNat l).reverse) ∧
  (∀ fn d a b, fn = .bfeS ∨ fn = .bfeZ ∨ fn = .bfi →
    ∃ r : Word → Word → Word → Word,
      (Does (.bits fn false d a b) fun x => x.done x.s fun l th =>
        th.setV d.toNat (r (x.v a.toNat l) (x.b b.toNat l) (x.v d.toNat l))) ∧
      ∀ p c q, ∀ i < 32,
        let pos := (c.extractLsb' 0 5).toNat
        let len := min 32 (c.extractLsb' 8 6).toNat
        (r p c q).getLsbD i = match fn with
          | .bfi => if pos ≤ i ∧ i < pos + len then p.getLsbD (i - pos) else q.getLsbD i
          | .bfeS => if i < len then p.getLsbD (pos + i) else decide (0 < len) && p.getLsbD (pos + len - 1)
          | _ => decide (i < len) && p.getLsbD (pos + i))

/-- R92, R93 and R94: ISET writes the comparison to its predicate, SEL one of two registers by a predicate, LEA
the pair a plus the scaled extension of b. R95 and R96: the immediate and constant forms. -/
def Obligations.CompareSelectAddressImmediates : Prop :=
  ((∀ c t d a b, Does (.iset c t d a b) fun x => x.done x.s fun l th =>
    th.setP d.toNat (match c with
      | .eq => decide (aVal t x a l = bVal t x b l)
      | .ne => decide (aVal t x a l ≠ bVal t x b l)
      | .lt => decide (aVal t x a l < bVal t x b l)
      | .le => decide (aVal t x a l ≤ bVal t x b l)
      | .gt => decide (aVal t x a l > bVal t x b l)
      | .ge => decide (aVal t x a l ≥ bVal t x b l))) ∧
  (∀ inv p d a b, Does (.sel inv p d a b) fun x => x.done x.s fun l th =>
    th.setV d.toNat (if (x.p p.toNat l ^^ inv) = true then x.v a.toNat l else x.b b.toNat l)) ∧
  (∀ sh d a b, Does (.lea true sh d a b) fun x => x.done x.s fun l th =>
    th.setV64 d.toNat (x.v64 a.toNat l + (x.b b.toNat l).signExtend 64 <<< sh.toNat)) ∧
  (∀ sh d a b, Does (.lea false sh d a b) fun x => x.done x.s fun l th =>
    th.setV64 d.toNat (x.v64 a.toNat l + (x.b b.toNat l).setWidth 64 <<< sh.toNat))) ∧
  ((∀ d a imm, Does (.iaddi d a imm) fun x => x.done x.s fun l th =>
    th.setV d.toNat (x.v a.toNat l + imm.signExtend 32)) ∧
  (∀ d a imm, Does (.andi d a imm) fun x => x.done x.s fun l th =>
    th.setV d.toNat (x.v a.toNat l &&& imm.setWidth 32)) ∧
  (∀ d a imm, Does (.ori d a imm) fun x => x.done x.s fun l th =>
    th.setV d.toNat (x.v a.toNat l ||| imm.setWidth 32)) ∧
  (∀ d a imm, Does (.xori d a imm) fun x => x.done x.s fun l th =>
    th.setV d.toNat (x.v a.toNat l ^^^ imm.setWidth 32)) ∧
  (∀ d imm, Does (.movl d imm) fun x => x.done x.s fun _ th => th.setV d.toNat (imm.signExtend 32)) ∧
  (∀ d imm, Does (.lui d imm) fun x => x.done x.s fun l th =>
    th.setV d.toNat (BitVec.ofNat 32 (imm.toNat * 2 ^ 13 + (x.v d.toNat l).toNat % 2 ^ 13))))

/-! ### Floating-point words (R97-R106) -/

/-- R97-R101: FADD, FMUL, FFMA, FMNX, FRND write one rounding of the exact result in format F and set its flags
in the thread; FMNX and FRND set none; FSET writes a predicate and sets none. -/
def Obligations.FloatingPointWords : Prop :=
  (∀ f r d a b, Does (.fadd f r d a b) fun x => x.done x.s fun l th =>
    th.setF f d.toNat (fpAdd (fmtOf f) (x.rnd r l) (x.fA f a l) (x.fB f b l))) ∧
  (∀ f r d a b, Does (.fmul f r d a b) fun x => x.done x.s fun l th =>
    th.setF f d.toNat (fpMul (fmtOf f) (x.rnd r l) (x.fA f a l) (x.fB f b l))) ∧
  (∀ f r d a b, Does (.ffma f r d a b) fun x => x.done x.s fun l th =>
    th.setF f d.toNat (fpFma (fmtOf f) (x.rnd r l) (x.fA f a l) (x.fB f b l) (x.fA f d l))) ∧
  (∀ f fn d a b, Does (.fmnx f fn d a b) fun x => x.done x.s fun l th =>
    th.setN (f == .f64) d.toNat (fpMnx (fmtOf f) fn (x.fA f a l) (x.fB f b l))) ∧
  (∀ f r d a, Does (.frnd f r d a) fun x => x.done x.s fun l th =>
    th.setN (f == .f64) d.toNat (fpRnd (fmtOf f) (x.rnd r l) (x.fA f a l))) ∧
  (∀ f c d a b, Does (.fset f c d a b) fun x => x.done x.s fun l th =>
    th.setP d.toNat (fpSet (fmtOf f) c (x.fA f a l) (x.fB f b l)))

/-- R86 and R98: a NaN operand gives the canonical NaN and no flag; infinities of opposite sign, and zero times
infinity whatever d holds, give it with NV; a sum of zeros of one sign keeps the sign, one of opposite signs is
+0, under rounding down -0. R100: a NaN operand makes every comparison of FSET false but `.ne` and `.nan`. R99:
of two operands, `.min` and `.max` of a NaN and a number give the number's bits. -/
def Obligations.FloatingPointSpecialCases : Prop :=
  ∀ (ff : FFmt) (md : RM) (a b d : Nat), let f := fmtOf ff
    (f.decode a = .nan ∨ f.decode b = .nan →
      fpAdd f md a b = (f.canon, .none) ∧ fpMul f md a b = (f.canon, .none) ∧
      fpFma f md a b d = (f.canon, .none) ∧
      (∀ c, fpSet f c a b = (c == .ne || c == .nan))) ∧
    (∀ n, f.decode a = .inf n → f.decode b = .inf (!n) → fpAdd f md a b = (f.canon, .invalid)) ∧
    (∀ n m e, f.decode a = .inf n → f.decode b = .fin m 0 e →
      fpMul f md a b = (f.canon, .invalid) ∧ fpMul f md b a = (f.canon, .invalid) ∧
      fpFma f md a b d = (f.canon, .invalid)) ∧
    (∀ n m e e', f.decode a = .fin n 0 e → f.decode b = .fin m 0 e' →
      fpAdd f md a b = (f.withSign (if n = m then n else md == .rm) 0, .none)) ∧
    (f.decode a = .nan → f.decode b ≠ .nan → fpMnx f .min a b = b ∧ fpMnx f .max a b = b) ∧
    (f.decode a ≠ .nan → f.decode b = .nan → fpMnx f .min a b = a ∧ fpMnx f .max a b = a) ∧
    (f.decode a = .nan → fpMnx f .neg a b = f.canon ∧ fpMnx f .abs a b = f.canon ∧
      fpMnx f .csgn a b = f.canon ∧ fpRnd f md a = f.canon)

/-- R102-R106: FCVT, SFU, HOP2 and DOT write their result to d and set its flags in the thread. FCVT between
floating-point types encodes the exact source value once, the same format giving the bits back; of an integer it
encodes that integer; to an integer it writes the source rounded to an integer, its bound with NV where that
lies outside the type or is infinite, 0 with NV of a NaN, NX where the integer differs; between integers it
wraps, or takes the nearest number under SAT. SFU gives the special values of R104's table, a NaN of a NaN, and
the exact logarithms, powers, quotients and roots with one encoding, which sets no flag of an exact value. HOP2
is the addition, product or fused product of R98 in each half. DOT encodes the exact sum of its products and d
once, and is the canonical NaN, with NV unless a NaN operand alone causes it; its integer forms wrap or saturate
the exact sum. -/
def Obligations.ConversionsAndDots : Prop :=
  (∀ dst src sat r d a, Does (.fcvt dst src sat r d a) fun x => x.done x.s fun l th =>
    let y := cvtEval dst src sat (x.rnd r l) (x.vn src.is64 a.toNat l)
    (th.setN dst.is64 d.toNat y.1).flag y.2.bits) ∧
  (∀ fn d a b, Does (.sfu false fn d a b) fun x => x.done x.s fun l th =>
    th.setF .f32 d.toNat (sfuEval .f32 fn (x.fA .f32 a l) (x.fB .f32 b l))) ∧
  (∀ fn d a b, Does (.sfu true fn d a b) fun x => x.done x.s fun l th =>
    th.setF .f16 d.toNat (sfuEval .f16 fn (x.fA .f16 a l) (x.fB .f16 b l))) ∧
  (∀ bf op r d a b, Does (.hop2 bf op r d a b) fun x => x.done x.s fun l th =>
    let e (h : Word → Nat) := hopElem (if bf then .bf16 else .f16) op
      (match r with | .dflt => x.rmode l | .rn => .rn | .rz => .rz)
      (h (x.v a.toNat l)) (h (x.b b.toNat l)) (h (x.v d.toNat l))
    let lo := e fun v => v.toNat % 2 ^ 16
    let hi := e fun v => v.toNat / 2 ^ 16
    (th.setV d.toNat (BitVec.ofNat 32 (hi.1 * 2 ^ 16 + lo.1))).flag (lo.2.or hi.2).bits) ∧
  (∀ t sat d a b f, dotFmt t = some f → Does (.dot t sat d a b) fun x => x.done x.s fun l th =>
    th.setF .f32 d.toNat (dotFloat f (x.v a.toNat l).toNat (x.b b.toNat l).toNat (x.v d.toNat l).toNat)) ∧
  (∀ t sat d a b, dotFmt t = none → Does (.dot t sat d a b) fun x => x.done x.s fun l th =>
    th.setV d.toNat (BitVec.ofNat 32
      (dotInt t sat (x.v a.toNat l).toNat (x.b b.toNat l).toNat (x.v d.toNat l).toNat))) ∧
  -- FCVT
  (∀ dst src sat md v g f, cvtFmt src = some g → cvtFmt dst = some f →
    cvtEval dst src sat md v = f.encode md (g.decode (v % 2 ^ g.size)) sat) ∧
  (∀ t sat md v f, cvtFmt t = some f → v < 2 ^ f.size → f.decode v ≠ .nan → cvtEval t t sat md v = (v, .none)) ∧
  (∀ t sat md v f, cvtFmt t = some f → f.decode (v % 2 ^ f.size) = .nan → cvtEval t t sat md v = (f.canon, .none)) ∧
  (∀ dst src sat md v f b x, intBounds src = some b → cvtFmt dst = some f → intHeld b v x →
    cvtEval dst src sat md v = f.encode md (.fin (decide (x < 0)) x.natAbs 0) sat) ∧
  (∀ dst src sat md v g b, cvtFmt src = some g → intBounds dst = some b →
    (g.decode (v % 2 ^ g.size) = .nan → cvtEval dst src sat md v = (0, .invalid)) ∧
    (∀ n, g.decode (v % 2 ^ g.size) = .inf n →
      cvtEval dst src sat md v = (intBits dst (if n then b.1 else b.2), .invalid)) ∧
    (∀ q : ℚ, isFinite (g.decode (v % 2 ^ g.size)) → q = ratOf (g.decode (v % 2 ^ g.size)) →
      ∃ z : Int, roundsTo md q z ∧ cvtEval dst src sat md v =
        if z < b.1 then (intBits dst b.1, .invalid) else if b.2 < z then (intBits dst b.2, .invalid)
        else (intBits dst z, if (z : ℚ) = q then .none else { nx := true }))) ∧
  (∀ dst src md v b c x, intBounds src = some b → intBounds dst = some c → intHeld b v x →
    cvtEval dst src true md v = (intBits dst (max c.1 (min c.2 x)), .none) ∧
    ∀ z, c.1 ≤ z → z ≤ c.2 → (c.2 - c.1 + 1) ∣ (x - z) → cvtEval dst src false md v = (intBits dst z, .none)) ∧
  -- SFU
  (∀ (h : Bool) a b, let f := if h then Fmt.f16 else Fmt.f32
    let sfu (fn : SfuFn) : Nat × Flags := sfuEval f fn a b
    let zero (n : Bool) : Nat := f.withSign n 0
    let inf (n : Bool) : Nat := f.withSign n f.infBits
    let one (n : Bool) : Nat := f.withSign n (if h then 0x3C00 else 0x3F800000)
    (f.decode a = .nan → ∀ fn, sfu fn = (f.canon, .none)) ∧
    (f.decode b = .nan → sfu .div = (f.canon, .none)) ∧
    (∀ n e, f.decode a = .fin n 0 e → sfu .rcp = (inf n, .divZero) ∧ sfu .rsq = (inf n, .divZero) ∧
      sfu .sqrt = (zero n, .none) ∧ sfu .lg2 = (inf true, .divZero) ∧ sfu .ex2 = (one false, .none) ∧
      sfu .sinpi = (zero n, .none) ∧ sfu .cospi = (one false, .none) ∧ sfu .tanh = (zero n, .none)) ∧
    (∀ n, f.decode a = .inf n → sfu .rcp = (zero n, .none) ∧ sfu .sinpi = (f.canon, .invalid) ∧
      sfu .cospi = (f.canon, .invalid) ∧ sfu .tanh = (one n, .none) ∧
      sfu .ex2 = (if n then zero false else inf false, .none) ∧
      sfu .rsq = (if n then (f.canon, .invalid) else (zero false, .none)) ∧
      sfu .sqrt = (if n then (f.canon, .invalid) else (inf false, .none)) ∧
      sfu .lg2 = if n then (f.canon, .invalid) else (inf false, .none)) ∧
    (∀ m e, f.decode a = .fin true m e → m ≠ 0 → sfu .rsq = (f.canon, .invalid) ∧ sfu .sqrt = (f.canon, .invalid) ∧
      sfu .lg2 = (f.canon, .invalid)) ∧
    (∀ e (k : Nat), f.decode a = .fin false (2 ^ k) e →
      sfu .lg2 = f.encode .rn (.fin (decide (e + k < 0)) (e + k).natAbs 0)) ∧
    (∀ n m e (i : Int), f.decode a = .fin n m e → m ≠ 0 → (i : ℚ) = m * (2 : ℚ) ^ e →
      sfu .sinpi = (zero n, .none) ∧ ∀ j : Nat, i = (j : Int) → j < 512 →
        sfu .ex2 = f.encode .rn (.fin false 1 (if n then -j else j))) ∧
    (∀ n m e (i : Int), f.decode a = .fin n m e → (2 * i + 1 : ℚ) = 2 * (m * (2 : ℚ) ^ e) →
      sfu .cospi = (zero false, .none)) ∧
    (∀ m e (r : ℚ), f.decode a = .fin false m e → m ≠ 0 → 0 < r → r * r = m * (2 : ℚ) ^ e →
      ∃ p k, ratOf (.fin false p k) = r ∧ sfu .sqrt = f.encode .rn (.fin false p k)) ∧
    (∀ n p, f.decode a = .inf n → f.decode b = .inf p → sfu .div = (f.canon, .invalid)) ∧
    (∀ n p m e, f.decode a = .inf n → f.decode b = .fin p m e → sfu .div = (inf (n != p), .none)) ∧
    (∀ n p m e, f.decode a = .fin n m e → f.decode b = .inf p → sfu .div = (zero (n != p), .none)) ∧
    (∀ n p m e k, f.decode a = .fin n m e → f.decode b = .fin p 0 k →
      sfu .div = if m = 0 then (f.canon, .invalid) else (inf (n != p), .divZero)) ∧
    (∀ n p m j e k, f.decode a = .fin n 0 e → f.decode b = .fin p m k → m ≠ 0 → j = (n != p) →
      sfu .div = (zero j, .none)) ∧
    (∀ n p m j e k (q : Nat) (i : Int), f.decode a = .fin n m e → f.decode b = .fin p j k → m ≠ 0 → j ≠ 0 →
      q * (2 : ℚ) ^ i * (j * (2 : ℚ) ^ k) = m * (2 : ℚ) ^ e →
      ∃ c u, ratOf (.fin false c u) = q * (2 : ℚ) ^ i ∧ sfu .div = f.encode .rn (.fin (n != p) c u))) ∧
  -- HOP2
  (∀ f md a b d, hopElem f .add md a b d = fpAdd f md a b ∧ hopElem f .mul md a b d = fpMul f md a b ∧
    hopElem f .fma md a b d = fpFma f md a b d) ∧
  -- DOT
  (∀ t f a b d, dotFmt t = some f → let n := 32 / f.size
    let el (v i : Nat) : FVal := f.decode (v / 2 ^ (f.size * i) % 2 ^ f.size)
    let c := Fmt.f32.decode d
    let q : ℚ := ratOf c + ((List.range n).map fun i => ratOf (el a i) * ratOf (el b i)).sum
    ((∀ i, i < n → isFinite (el a i) ∧ isFinite (el b i)) → isFinite c →
      (q ≠ 0 → ∃ neg m e, ratOf (.fin neg m e) = q ∧ dotFloat f a b d = Fmt.f32.encode .rn (.fin neg m e)) ∧
      (q = 0 → (∀ e, c ≠ .fin true 0 e) → dotFloat f a b d = (0, .none))) ∧
    ((∀ i, i < n → ∀ s, el a i ≠ .inf s ∧ el b i ≠ .inf s) → (∀ s, c ≠ .inf s) →
      c = .nan ∨ (∃ i, i < n ∧ (el a i = .nan ∨ el b i = .nan)) → dotFloat f a b d = (Fmt.f32.canon, .none)) ∧
    ((∃ i, i < n ∧ ∃ s p e, (el a i = .inf s ∧ el b i = .fin p 0 e) ∨ (el b i = .inf s ∧ el a i = .fin p 0 e)) →
      dotFloat f a b d = (Fmt.f32.canon, .invalid)) ∧
    (∀ i s p m e, i < n → el a i = .inf s → el b i = .fin p m e → m ≠ 0 → c = .inf (s == p) →
      dotFloat f a b d = (Fmt.f32.canon, .invalid)) ∧
    (∀ s, (∀ i, i < n → isFinite (el a i) ∧ isFinite (el b i)) → c = .inf s →
      dotFloat f a b d = (Fmt.f32.withSign s Fmt.f32.infBits, .none))) ∧
  (∀ t sat (a b d : Word), dotFmt t = none →
    let el (sg : Bool) (v : Word) (i : Nat) : Int :=
      if sg then (v.extractLsb' (8 * i) 8).toInt else (v.extractLsb' (8 * i) 8).toNat
    let v : Int := d.toInt + ((List.range 4).map fun i => el (t != .z8) a i * el (t == .s8) b i).sum
    dotInt t sat a.toNat b.toNat d.toNat = (BitVec.ofInt 32 (if sat then clamp .s32 v else v)).toNat)

/-! ### Words across lanes and classes (R107-R112) -/

/-- R107, R108 and R111: SHFL reads every source before it writes and gives a lane its own a where the source
lies outside its segment or the set; VOTE combines the lanes of the set; PLOG combines predicates. -/
def Obligations.CrossLaneWords : Prop :=
  (∀ mode w d a idx, Does (.shfl mode w d a idx) fun x => x.done x.s fun l th =>
    let k := match idx with
      | .imm k => k.toNat
      | .reg b => (x.v b.toNat l).toNat % 32
    let n := match w with | .w32 => 32 | .w16 => 16 | .w8 => 8 | .w4 => 4
    let base := l / n * n
    let src : Int := match mode with
      | .idx => base + (k % n : Nat)
      | .up => (l : Int) - k
      | .dn => l + k
      | .xor => base + ((l ^^^ k) % n : Nat)
    th.setV d.toNat
      (if (base : Int) ≤ src ∧ src < base + n ∧ src.toNat ∈ x.ls then x.v a.toNat src.toNat
       else x.v a.toNat l)) ∧
  (∀ neg d a, Does (.vote .all neg d a) fun x => x.done x.s fun _ th =>
    th.setP d.toNat (decide (∀ l ∈ x.ls, x.p a.toNat l ≠ neg))) ∧
  (∀ neg d a, Does (.vote .any neg d a) fun x => x.done x.s fun _ th =>
    th.setP d.toNat (decide (∃ l ∈ x.ls, x.p a.toNat l ≠ neg))) ∧
  (∀ neg d a, Does (.vote .uni neg d a) fun x => x.done x.s fun _ th =>
    th.setP d.toNat (decide (∀ l ∈ x.ls, ∀ j ∈ x.ls, x.p a.toNat l = x.p a.toNat j))) ∧
  (∀ neg d a, Does (.vote .ballot neg d a) fun x => x.doneW x.s fun w =>
    w.setU d.toNat (maskOf (x.ls.filter fun l => x.p a.toNat l != neg))) ∧
  (∀ neg d a, Does (.vote .mtch neg d a) fun x => x.done x.s fun l th =>
    th.setV d.toNat (maskOf (x.ls.filter fun j => x.v a.toNat j == x.v a.toNat l))) ∧
  (∀ op d a b, Does (.plog op d a b) fun x => x.done x.s fun l th =>
    th.setP d.toNat (match op with
      | .and => x.p a.toNat l && x.p b.toNat l
      | .or => x.p a.toNat l || x.p b.toNat l
      | .xor => x.p a.toNat l ^^ x.p b.toNat l
      | .andn => x.p a.toNat l && !x.p b.toNat l
      | .orn => x.p a.toNat l || !x.p b.toNat l
      | .not => !x.p a.toNat l))

/-- R109 and R110: WRED writes to its uniform register, or pair, the reduction over the lanes of the set: the
exact sum wrapped or saturated, the extreme value that some lane holds, for the index forms with the smallest
index of the lanes that hold it, the bitwise combination; the floating-point sum is the exact sum rounded once,
the canonical NaN of a NaN and, with NV, of opposite infinities, else the infinity that is there, and sets its
flags in every thread of the set. -/
def Obligations.Reductions : Prop :=
  (∀ d a b, Does (.wred .addB32 d a b) fun x => x.doneW x.s fun w =>
    w.setU d.toNat ((x.ls.map fun l => x.v a.toNat l).sum)) ∧
  (∀ d a b, Does (.wred .addS32sat d a b) fun x => x.doneW x.s fun w =>
    w.setU d.toNat (BitVec.ofInt 32 (clamp .s32 (x.ls.map fun l => (x.v a.toNat l).toInt).sum))) ∧
  (∀ d a b, Does (.wred .addZ32sat d a b) fun x => x.doneW x.s fun w =>
    w.setU d.toNat (BitVec.ofInt 32 (clamp .z32 (x.ls.map fun l => ((x.v a.toNat l).toNat : Int)).sum))) ∧
  (∀ op d a b, op = .minS32 ∨ op = .minZ32 ∨ op = .maxS32 ∨ op = .maxZ32 →
    ∀ s x, Runs (.wred op d a b) s x → ∃ r : Word, (∃ l ∈ x.ls, x.v a.toNat l = r) ∧
      (∀ l ∈ x.ls, match op with
        | .minS32 => r.toInt ≤ (x.v a.toNat l).toInt
        | .minZ32 => r.toNat ≤ (x.v a.toNat l).toNat
        | .maxS32 => (x.v a.toNat l).toInt ≤ r.toInt
        | _ => (x.v a.toNat l).toNat ≤ r.toNat) ∧
      exec (.wred op d a b) s = .next (performed (.wred op d a b) x fun x => x.doneW x.s fun w =>
        w.setU d.toNat r)) ∧
  (∀ op d a b, op = .minidxS32 ∨ op = .minidxZ32 ∨ op = .maxidxS32 ∨ op = .maxidxZ32 →
    ∀ s x, Runs (.wred op d a b) s x → ∃ r k : Word,
      (∃ l ∈ x.ls, x.v a.toNat l = r ∧ x.v b.toNat l = k) ∧
      (∀ l ∈ x.ls, (match op with
        | .minidxS32 => r.toInt ≤ (x.v a.toNat l).toInt
        | .minidxZ32 => r.toNat ≤ (x.v a.toNat l).toNat
        | .maxidxS32 => (x.v a.toNat l).toInt ≤ r.toInt
        | _ => (x.v a.toNat l).toNat ≤ r.toNat) ∧
        (x.v a.toNat l = r → k.toNat ≤ (x.v b.toNat l).toNat)) ∧
      exec (.wred op d a b) s = .next (performed (.wred op d a b) x fun x => x.doneW x.s fun w =>
        (w.setU d.toNat r).setU (d.toNat + 1) k)) ∧
  (∀ d a b, Does (.wred .andB32 d a b) fun x => x.doneW x.s fun w =>
    w.setU d.toNat (x.ls.foldl (fun m l => m &&& x.v a.toNat l) (BitVec.allOnes 32))) ∧
  (∀ d a b, Does (.wred .orB32 d a b) fun x => x.doneW x.s fun w =>
    w.setU d.toNat (x.ls.foldl (fun m l => m ||| x.v a.toNat l) 0)) ∧
  (∀ d a b, Does (.wred .xorB32 d a b) fun x => x.doneW x.s fun w =>
    w.setU d.toNat (x.ls.foldl (fun m l => m ^^^ x.v a.toNat l) 0)) ∧
  (∀ d a b, Does (.wred .faddF32 d a b) fun x =>
    let r := wredEval .faddF32 x a
    x.modW (x.done x.s fun _ th => th.flag r.2.bits) fun w => w.setU d.toNat (BitVec.ofNat 32 r.1)) ∧
  (∀ (x : Ctx) a, let el (l : Nat) : FVal := Fmt.f32.decode (x.v a.toNat l).toNat
    let q : ℚ := (x.ls.map fun l => ratOf (el l)).sum
    ((∀ l ∈ x.ls, isFinite (el l)) →
      (q ≠ 0 → ∃ neg m e, ratOf (.fin neg m e) = q ∧ wredEval .faddF32 x a = Fmt.f32.encode .rn (.fin neg m e)) ∧
      (q = 0 → wredEval .faddF32 x a =
        (if ∀ l ∈ x.ls, x.v a.toNat l = 0x80000000 then 0x80000000 else 0, .none))) ∧
    ((∃ l ∈ x.ls, el l = .inf false) → (∃ l ∈ x.ls, el l = .inf true) →
      wredEval .faddF32 x a = (Fmt.f32.canon, .invalid)) ∧
    ((∃ l ∈ x.ls, el l = .nan) → ((∀ l ∈ x.ls, el l ≠ .inf false) ∨ ∀ l ∈ x.ls, el l ≠ .inf true) →
      wredEval .faddF32 x a = (Fmt.f32.canon, .none)) ∧
    (∀ s, (∃ l ∈ x.ls, el l = .inf s) → (∀ l ∈ x.ls, el l ≠ .nan ∧ el l ≠ .inf (!s)) →
      wredEval .faddF32 x a = (Fmt.f32.withSign s Fmt.f32.infBits, .none))) ∧
  (∀ d a b, Does (.wred .fminF32 d a b) fun x => x.doneW x.s fun w =>
    w.setU d.toNat (BitVec.ofNat 32
      ((x.ls.map fun l => (x.v a.toNat l).toNat).foldl (fpMnx .f32 .min) Fmt.f32.canon))) ∧
  (∀ d a b, Does (.wred .fmaxF32 d a b) fun x => x.doneW x.s fun w =>
    w.setU d.toNat (BitVec.ofNat 32
      ((x.ls.map fun l => (x.v a.toNat l).toNat).foldl (fpMnx .f32 .max) Fmt.f32.canon)))

/-- R112: XMOV between the classes, on 32 bits and on pairs; the kind to a tile register writes it only if the
128 bits pass R30, and raises ILLOP otherwise. R30, R142, R161, R162: each TILE word writes its tile register a
descriptor that passes R30, and raises ILLOP for one that does not: TILE.PLANE the tile of a plane of the screen
tile the group owns, TILE.HND the 128 bits of a handle's record, whose header and record, once read, leave their
copies as a load leaves them (R181), TILE.DIM new extents, TILE.ADV a base moved by strides. -/
def Obligations.MovesAndTileRegisters : Prop :=
  ((∀ d a, Does (.xmov .vv false d a) fun x => x.done x.s fun l th => th.setV d.toNat (x.v a.toNat l)) ∧
  (∀ d a, Does (.xmov .vv true d a) fun x => x.done x.s fun l th => th.setV64 d.toNat (x.v64 a.toNat l)) ∧
  (∀ d a, Does (.xmov .vs false d a) fun x => x.doneW x.s fun w => w.setU d.toNat (x.v a.toNat x.l0)) ∧
  (∀ d a, Does (.xmov .vs true d a) fun x => x.doneW x.s fun w => w.setU64 d.toNat (x.v64 a.toNat x.l0)) ∧
  (∀ d a, Does (.xmov .sv false d a) fun x => x.done x.s fun _ th => th.setV d.toNat (x.u a.toNat)) ∧
  (∀ d a, Does (.xmov .sv true d a) fun x => x.done x.s fun _ th => th.setV64 d.toNat (x.u64 a.toNat)) ∧
  (∀ d a, Does (.xmov .ss false d a) fun x => x.doneW x.s fun w => w.setU d.toNat (x.u a.toNat)) ∧
  (∀ d a, Does (.xmov .ss true d a) fun x => x.doneW x.s fun w => w.setU64 d.toNat (x.u64 a.toNat)) ∧
  (∀ w d a, Does (.xmov .pv w d a) fun x => x.done x.s fun l th =>
    th.setV d.toNat (if x.p a.toNat l = true then 1 else 0)) ∧
  (∀ w d a, Does (.xmov .vp w d a) fun x => x.done x.s fun l th =>
    th.setP d.toNat (decide (x.v a.toNat l ≠ 0))) ∧
  (∀ w d a, Does (.xmov .sp w d a) fun x => x.done x.s fun l th =>
    th.setP d.toNat ((x.u a.toNat).getLsbD l)) ∧
  (∀ w d a, Does (.xmov .ts w d a) fun x => x.doneW x.s fun q =>
    (((q.setU d.toNat ((x.w.t a.toNat).extractLsb' 0 32)).setU (d.toNat + 1)
      ((x.w.t a.toNat).extractLsb' 32 32)).setU (d.toNat + 2) ((x.w.t a.toNat).extractLsb' 64 32)).setU
      (d.toNat + 3) ((x.w.t a.toNat).extractLsb' 96 32)) ∧
  (∀ w d a, DoesWhen (.xmov .st w d a) (fun x => Dsc.ok (x.w.u128 a.toNat) = true) fun x =>
    x.doneW x.s fun q => q.setT d.toNat
      (x.u (a.toNat + 3) ++ x.u (a.toNat + 2) ++ x.u (a.toNat + 1) ++ x.u a.toNat)) ∧
  (∀ w d a, DoesWhen (.xmov .st w d a) (fun x => Dsc.ok (x.w.u128 a.toNat) = false) fun x =>
    x.raise Cause.illop) ∧
  (∀ w d a, Does (.xmov .tt w d a) fun x => x.doneW x.s fun q => q.setT d.toNat (x.w.t a.toNat))) ∧
  ((∀ t a p d, DoesWhen (.tilePlane t a p) (fun x => x.s.ownDesc x.g = some d ∧ p.toNat < DrawD.npl d ∧
      planeFmt (DrawD.plane d p.toNat) = 0 ∧ (x.u a.toNat).toNat < 16) fun x =>
    let e := DrawD.plane d p.toNat
    x.setTile t (Dsc.mk (lsWindow + planeOffs e + 128 * planeChan e * (x.u a.toNat).toNat) 2 3 63
      (planeChan e - 1) 0 p.toNat)) ∧
  (∀ t a p d, DoesWhen (.tilePlane t a p) (fun x => x.s.ownDesc x.g = some d ∧ p.toNat < DrawD.npl d ∧
      planeFmt (DrawD.plane d p.toNat) = 1 ∧ (x.u a.toNat).toNat < 16) fun x =>
    let e := DrawD.plane d p.toNat
    x.setTile t (Dsc.mk (lsWindow + planeOffs e + 2048 * (x.u a.toNat).toNat) 2 7 63
      (planeChan e - 1) 0 p.toNat)) ∧
  (∀ t a p, DoesWhen (.tilePlane t a p) (fun x => x.s.ownDesc x.g = none) fun x => x.raise Cause.prot) ∧
  (∀ t a r, DoesWhen (.tileHnd t a) (fun x => x.shape (x.u a.toNat).toNat = .ok (some r)) fun x =>
    let rec_ := x.g.htab + 64 + 64 * ((x.u a.toNat).toNat / 2 ^ 12 % 2 ^ 20)
    let y := (x.s.touchSpan x.space x.die x.g.htab 64).touchSpan x.space x.die rec_ 64
    Ctx.setTile { x with s := y } t (BitVec.ofNat 128 r)) ∧
  (∀ t a, DoesWhen (.tileHnd t a) (fun x => x.shape (x.u a.toNat).toNat = .ok none) fun x =>
    (x.shapeTouch (x.u a.toNat).toNat).raise Cause.handle) ∧
  (∀ (x : Ctx) h, (∀ k e, x.s.translate x.space .load k = .ok e → isEdge e.key = false) →
    x.shapeTouch h = x) ∧
  (∀ t a, DoesWhen (.tileDim t a) (fun x => Dsc.layout (x.w.t t.toNat) ≠ 2 ∧ (x.u a.toNat).toNat < 2 ^ 24)
    fun x => x.setTile t (BitVec.ofNat 128 (setField (x.w.t t.toNat).toNat 87 64 (x.u a.toNat).toNat))) ∧
  (∀ t a, DoesWhen (.tileDim t a) (fun x => 2 ^ 24 ≤ (x.u a.toNat).toNat) fun x => x.raise Cause.illop) ∧
  (∀ t a c, DoesWhen (.tileDim t a) (fun x => Dsc.layout (x.w.t t.toNat) = 2 ∧ (x.u a.toNat).toNat < 2 ^ 24 ∧
      x.s.planeCheck x.g (BitVec.ofNat 128 (setField (x.w.t t.toNat).toNat 87 64 (x.u a.toNat).toNat)) = .bad c)
    fun x => x.raise c) ∧
  (∀ t a, DoesWhen (.tileAdv t a) (fun x => Dsc.layout (x.w.t t.toNat) ≠ 2) fun x =>
    x.setTile t (advDesc (x.w.t t.toNat) (x.u a.toNat).toInt)) ∧
  (∀ t a, DoesWhen (.tileAdv t a) (fun x => Dsc.layout (x.w.t t.toNat) = 2) fun x => x.raise Cause.illop) ∧
  (∀ (x : Ctx) t d, Dsc.ok d = true → x.setTile t d = x.doneW x.s fun w => w.setT t.toNat d) ∧
  (∀ (x : Ctx) t d, Dsc.ok d = false → x.setTile t d = x.raise Cause.illop) ∧
  (∀ (d : Desc) k, fld (advDesc d k) 51 0 = wrap (fld d 51 0 + k * fld d 111 88) 52 ∧
    fld (advDesc d k) 127 52 = fld d 127 52))

/-! ### System words (R32-R36, R296, R297, R391-R400) -/

/-- R391, R174, R296, R297: NOP and FENC.M only move the program counters; WBASE sets the window base of every
lane and empties the prefetched set where the base is 0 or lies in the holding, and raises ILLOP otherwise; RPF
sets the prefetched set of the warp where it lies in the holding of every lane. R46, R48, R398, R399: a word
that is no instruction raises ILLOP and a failed fetch PAGE or PROT, on every lane that would have issued it.
ICINV waits, and its completion discards every kept word and lets the lanes of the warp that wait at it go on; a
gang that is stopping leaves it unperformed (R341). That the completion is a step of its own, which changes
nothing where the warp is gone, is the model's choice (log 2). -/
def Obligations.PlainSystemWords : Prop :=
  ((Does .nop fun x => x.done x.s fun _ th => th) ∧
  (Does .fencM fun x => x.done x.s fun _ th => th) ∧
  (∀ n, DoesWhen (.wbase n) (fun x => n = 0 ∨ 8 * n.toNat < x.g.vh) fun x =>
    x.modW (x.done x.s fun _ th => { th with winbase := n }) fun w => { w with rpf := (0, 0) }) ∧
  (∀ n, DoesWhen (.wbase n) (fun x => ¬(n = 0 ∨ 8 * n.toNat < x.g.vh)) fun x => x.raise Cause.illop) ∧
  (∀ a, Does (.rpf a 0) fun x => x.doneW x.s fun w => { w with rpf := (0, 0) }) ∧
  (∀ a n, n ≠ 0 → DoesWhen (.rpf a n)
    (fun x => ∀ l ∈ x.ls, 8 * (x.th l).winbase.toNat + a.toNat + n.toNat ≤ x.g.vh) fun x =>
    x.doneW x.s fun w => { w with rpf := (a.toNat, n.toNat) }) ∧
  (∀ a n, n ≠ 0 → DoesWhen (.rpf a n)
    (fun x => ∃ l ∈ x.ls, x.g.vh < 8 * (x.th l).winbase.toNat + a.toNat + n.toNat) fun x =>
    x.raise Cause.illop)) ∧
  ((∀ s x, ctxOf s = some x → exec .wordNotAnInstruction s = .next (x.raise Cause.illop)) ∧
  (∀ s x, ctxOf s = some x → exec (.instructionFetchFault true) s = .next (x.raise Cause.page)) ∧
  (∀ s x, ctxOf s = some x → exec (.instructionFetchFault false) s = .next (x.raise Cause.prot)) ∧
  (Does .icinv fun x => x.waitAt x.s x.ls .icinv) ∧
  (∀ core wid s g slot w l, (s.core core).findWid wid = some (g, slot, w) → g.stop = none → l ∈ g.liveLanes w →
    ((g.laneThread w l).getD Thread.absent).wait = .icinv →
    ∃ t, exec (.icinvCompletion core wid) s = .next t ∧ t.stale = [] ∧ t.mem = s.mem ∧
      t.core core = (s.core core).unfetched.modGroup g.gk fun g => g.resume slot 0xFFFFFFFF fun k => k == Wait.icinv) ∧
  (∀ core wid s g slot w, (s.core core).findWid wid = some (g, slot, w) → g.stop.isSome = true →
    exec (.icinvCompletion core wid) s = .next s) ∧
  (∀ core wid s, (s.core core).findWid wid = none → exec (.icinvCompletion core wid) s = .next s))

/-- R391, R392, R393, R400: BRK and TRAP raise BRK and SWTRAP on every lane of the set; TRAP.esc and HALT stop
the gang with reasons 5 and 7, the threads at the next word; TRET returns the lanes of a handler, and raises
ILLOP outside one. -/
def Obligations.TrapWords : Prop :=
  (∀ code, Does (.brk code) fun x => x.raise Cause.brk) ∧
  (∀ code, Does (.trap code) fun x => x.raise Cause.swtrap) ∧
  (∀ code, Does (.trapEsc code) fun x =>
    (x.lanesDo x.s x.ls fun _ th => th.goto (x.pc + 4)).escape x.core x.g.gang x.g.member 5 0 x.pc) ∧
  (Does .halt fun x =>
    (x.lanesDo x.s x.ls fun _ th => th.goto (x.pc + 4)).escape x.core x.g.gang x.g.member 7 0 x.pc) ∧
  (DoesWhen .tret (fun x => x.sub?.isSome = true) fun x => x.s.tret x.core x.g.gk x.slot x.lanes) ∧
  (DoesWhen .tret (fun x => x.sub? = none) fun x => x.raise Cause.illop)

/-- R32-R34, R395: MFS writes to every lane the register its selector names, 64 bits in the W64 forms; a read of
CLOCK[0] captures the count, whose high half CLOCK[1] then gives. That CLOCK[1] goes on giving the same capture
on every later read, until CLOCK[0] is read again, is the model's choice (log 19: R33 is silent on a second
read). The lanes of a parked sub-warp read its CAUSE, TRAPPC and TRAPLANES, other lanes the warp's, TRAPLANES
reading 0 (R333). -/
def Obligations.SpecialRegisterReads : Prop :=
  ∀ d (sel : Sel), Does (.mfs d sel) fun x =>
    let t := x.done x.s fun l th => th.setN sel.w64 d.toNat (match sel.reg with
      | .lane => l
      | .tid => (x.th l).tid.toNat
      | .wid => x.w.wid
      | .gid => x.g.gid.toNat
      | .core => x.core % 32
      | .grove => x.core / 32 % 4
      | .die => x.core / 128
      | .lvl => ((x.th l).lvl.getD sel.inst.toNat 0).toNat
      | .clock => if sel.inst = 0 then x.s.ts.toNat else (x.w.cap.getD x.s.ts).toNat / 2 ^ 32
      | .ts => x.s.ts.toNat
      | .cause => (match x.sub? with | some b => b.cause | none => x.w.cause).toNat
      | .trappc => (match x.sub? with | some b => b.pc | none => x.w.trappc).toNat
      | .traplanes => (match x.sub? with | some b => b.lanes | none => 0).toNat
      | .trapmask => x.w.trapmask.toNat
      | .age => x.w.age.toNat
      | .budget => x.g.budget
      | .deadline => fld (x.s.leadOf x.g) 191 128 / (if sel.inst = 0 then 1 else 2 ^ 32)
      | .job => fld x.g.record 255 224
      | .profile => 0x98400004
      | .lscap => x.s.lscap x.core
      | .fpstat => (x.th l).fpstat.toNat
      | .rmode => (x.th l).rmode.toNat
      | .winbase => (x.th l).winbase.toNat)
    if sel.reg = .clock ∧ sel.inst = 0 then x.modW t fun w => { w with cap := some x.s.ts } else t

/-- R34, R35, R394, R396: MTS writes FPSTAT, RMODE and WINBASE in every lane from that lane's value, and
TRAPMASK, TRAPPC and TRAPLANES from the lowest lane's; a value with a reserved bit set raises ILLOP on every
lane and a TRAPPC that is no multiple of 4 raises ALIGN. TRAPPC and TRAPLANES are those of the sub-warp where
the lanes run a handler; the lanes TRAPLANES loses return as by TRET. R397: CAUSECLR clears the named bits in
the sub-warp's CAUSE where the lanes run a handler, else in the warp's, where clearing BUDGET withdraws the
deferred event; a mask with a bit above 19 raises ILLOP. -/
def Obligations.SpecialRegisterWrites : Prop :=
  ((∀ d i w, DoesWhen (.mts d ⟨.fpstat, i, w⟩) (fun x => ∀ l ∈ x.ls, (x.v d.toNat l).toNat < 2 ^ 5) fun x =>
    x.done x.s fun l th => { th with fpstat := (x.v d.toNat l).setWidth 5 }) ∧
  (∀ d i w, DoesWhen (.mts d ⟨.rmode, i, w⟩) (fun x => ∀ l ∈ x.ls, (x.v d.toNat l).toNat < 2 ^ 2) fun x =>
    x.done x.s fun l th => { th with rmode := (x.v d.toNat l).setWidth 2 }) ∧
  (∀ d i w, DoesWhen (.mts d ⟨.winbase, i, w⟩)
    (fun x => ∀ l ∈ x.ls, (x.v d.toNat l).toNat < 2 ^ 7 ∧
      (x.v d.toNat l = 0 ∨ 8 * (x.v d.toNat l).toNat < x.g.vh)) fun x =>
    x.modW (x.done x.s fun l th => { th with winbase := (x.v d.toNat l).setWidth 7 }) fun w =>
      { w with rpf := (0, 0) }) ∧
  (∀ d i w, DoesWhen (.mts d ⟨.trapmask, i, w⟩) (fun x => x.v d.toNat x.l0 &&& 0x3FF00000 = 0) fun x =>
    x.doneW x.s fun q => { q with trapmask := x.v d.toNat x.l0 }) ∧
  (∀ d i, DoesWhen (.mts d ⟨.trappc, i, true⟩)
    (fun x => x.sub? = none ∧ (x.v64 d.toNat x.l0).toNat < 2 ^ 52 ∧ (x.v64 d.toNat x.l0).toNat % 4 = 0)
    fun x => x.doneW x.s fun q => { q with trappc := (x.v64 d.toNat x.l0).setWidth 52 }) ∧
  (∀ d i b, DoesWhen (.mts d ⟨.trappc, i, true⟩)
    (fun x => x.sub? = some b ∧ (x.v64 d.toNat x.l0).toNat < 2 ^ 52 ∧ (x.v64 d.toNat x.l0).toNat % 4 = 0)
    fun x => x.doneW x.s fun q => { q with subs := q.subs.map fun c =>
      if c.lanes = b.lanes then { c with pc := (x.v64 d.toNat x.l0).setWidth 52 } else c }) ∧
  (∀ d i, DoesWhen (.mts d ⟨.trappc, i, false⟩)
    (fun x => x.sub? = none ∧ (x.v d.toNat x.l0).toNat % 4 = 0) fun x =>
    x.doneW x.s fun q => { q with trappc := x.w.trappc.extractLsb' 32 20 ++ x.v d.toNat x.l0 }) ∧
  (∀ d i b, DoesWhen (.mts d ⟨.trappc, i, false⟩)
    (fun x => x.sub? = some b ∧ (x.v d.toNat x.l0).toNat % 4 = 0) fun x =>
    x.doneW x.s fun q => { q with subs := q.subs.map fun c =>
      if c.lanes = b.lanes then { c with pc := b.pc.extractLsb' 32 20 ++ x.v d.toNat x.l0 } else c }) ∧
  (∀ d i w, DoesWhen (.mts d ⟨.trappc, i, w⟩)
    (fun x => (x.v d.toNat x.l0).toNat % 4 ≠ 0 ∧ (w = true → (x.v64 d.toNat x.l0).toNat < 2 ^ 52)) fun x =>
    x.raise Cause.align) ∧
  (∀ d i w b, DoesWhen (.mts d ⟨.traplanes, i, w⟩)
    (fun x => x.sub? = some b ∧ x.v d.toNat x.l0 &&& ~~~b.lanes = 0 ∧ x.v d.toNat x.l0 ≠ b.lanes) fun x =>
    (x.advance x.s (x.ls.filter fun l => !(b.lanes &&& ~~~(x.v d.toNat x.l0)).getLsbD l)).tret
      x.core x.g.gk x.slot (b.lanes &&& ~~~(x.v d.toNat x.l0))) ∧
  (∀ d i w b, DoesWhen (.mts d ⟨.traplanes, i, w⟩)
    (fun x => x.sub? = some b ∧ x.v d.toNat x.l0 = b.lanes) fun x => x.done x.s fun _ th => th) ∧
  (∀ r d i w, DoesWhen (.mts d ⟨r, i, w⟩) (fun x => match r with
      | .fpstat => ∃ l ∈ x.ls, 2 ^ 5 ≤ (x.v d.toNat l).toNat
      | .rmode => ∃ l ∈ x.ls, 2 ^ 2 ≤ (x.v d.toNat l).toNat
      | .winbase => ∃ l ∈ x.ls, 2 ^ 7 ≤ (x.v d.toNat l).toNat ∨
          (x.v d.toNat l ≠ 0 ∧ x.g.vh ≤ 8 * (x.v d.toNat l).toNat)
      | .trapmask => x.v d.toNat x.l0 &&& 0x3FF00000 ≠ 0
      | .trappc => w = true ∧ 2 ^ 52 ≤ (x.v64 d.toNat x.l0).toNat
      | .traplanes => ∃ b, x.sub? = some b ∧ x.v d.toNat x.l0 &&& ~~~b.lanes ≠ 0
      | _ => False) fun x => x.raise Cause.illop)) ∧
  ((∀ a b, DoesWhen (.causeclr a) (fun x => x.sub? = some b ∧ (x.u a.toNat).toNat < 2 ^ 20) fun x =>
    x.doneW x.s fun w => { w with subs := w.subs.map fun c =>
      if c.lanes = b.lanes then { c with cause := c.cause &&& ~~~(x.u a.toNat) } else c }) ∧
  (∀ a, DoesWhen (.causeclr a) (fun x => x.sub? = none ∧ (x.u a.toNat).toNat < 2 ^ 20) fun x =>
    x.doneW x.s fun w => { w with cause := w.cause &&& ~~~(x.u a.toNat),
                                  budgetDue := w.budgetDue && !(x.u a.toNat).getLsbD 8,
                                  budgetMoves := w.budgetMoves && !(x.u a.toNat).getLsbD 8 }) ∧
  (∀ a, DoesWhen (.causeclr a) (fun x => 2 ^ 20 ≤ (x.u a.toNat).toNat) fun x => x.raise Cause.illop))

/-! ### Control flow (R286-R289) -/

/-- R287, R288, R289: BRA goes to its displacement from its own address in every lane, BRA pn in the lanes whose
predicate is taken, BRA.u in all of them by the lowest lane's predicate, the others to the next word; CALL
writes the next word's address to its pair; JMPR goes to each lane's address, and a lane whose address has a bit
above 51 raises PROT, or is no multiple of 4 raises ALIGN, with no jump. That an address that is both raises
PROT and not ALIGN is read by inference (log 13: R289 gives no order). -/
def Obligations.BranchesAndCalls : Prop :=
  (∀ disp, Does (.bra disp) fun x => x.lanesDo x.s x.ls fun _ th =>
    th.goto (x.pc + BitVec.ofInt 52 (4 * disp.toInt))) ∧
  (∀ n p disp, Does (.braPred n p disp) fun x => x.lanesDo x.s x.ls fun l th =>
    th.goto (if x.p p.toNat l ≠ n then x.pc + BitVec.ofInt 52 (4 * disp.toInt) else x.pc + 4)) ∧
  (∀ n p disp, Does (.braU n p disp) fun x => x.lanesDo x.s x.ls fun _ th =>
    th.goto (if x.p p.toNat x.l0 ≠ n then x.pc + BitVec.ofInt 52 (4 * disp.toInt) else x.pc + 4)) ∧
  (∀ d disp, Does (.call d disp) fun x => x.lanesDo x.s x.ls fun _ th =>
    (th.setV64 d.toNat ((x.pc + 4).setWidth 64)).goto (x.pc + BitVec.ofInt 52 (4 * disp.toInt))) ∧
  (∀ ub a, Does (.jmpr ub a) fun x =>
    let dest (l : Nat) : DWord := if ub then x.u64 a.toNat else x.v64 a.toNat l
    let bad (l : Nat) : Option (Nat × Nat) :=
      if 2 ^ 52 ≤ (dest l).toNat then some (l, Cause.prot)
      else if (dest l).toNat % 4 ≠ 0 then some (l, Cause.align) else none
    x.parkAll (x.lanesDo x.s (x.ls.filter fun l => (bad l).isNone) fun l th => th.goto ((dest l).setWidth 52))
      (x.ls.filterMap bad)) ∧
  (∀ ub d a, Does (.jmprLink ub d a) fun x =>
    let dest (l : Nat) : DWord := if ub then x.u64 a.toNat else x.v64 a.toNat l
    let bad (l : Nat) : Option (Nat × Nat) :=
      if 2 ^ 52 ≤ (dest l).toNat then some (l, Cause.prot)
      else if (dest l).toNat % 4 ≠ 0 then some (l, Cause.align) else none
    x.parkAll (x.lanesDo x.s (x.ls.filter fun l => (bad l).isNone) fun l th =>
        (th.setV64 d.toNat ((x.pc + 4).setWidth 64)).goto ((dest l).setWidth 52))
      (x.ls.filterMap bad))

/-! ### Memory words (R145-R147, R188-R204, R210-R212) -/

/-- R188-R195: LD, ST, LDX and STX run lane by lane as R190 says, each lane at its own address: the pair plus
the scaled offset, or a pair plus the scaled index. A lane whose address is no multiple of the size raises
ALIGN, unless the form is unaligned, which goes byte by byte. -/
def Obligations.LoadsAndStores : Prop :=
  (∀ k d a off, Does (.ld k d a off) fun x => x.perLane (x.s.laneOrder x.ls) .none fun s l =>
    let ea := (x.v64 a.toNat l + BitVec.ofInt 64 (off.toInt * k.size)).toNat
    if ea % k.size ≠ 0 then .bad s Cause.align
    else match s.loadKeep x.space x.die ea k.size with
      | .ok s bs => .ok s (·.setLd k d.toNat (leNat bs)) []
      | .bad s c => .bad s c
      | .wait => .wait) ∧
  (∀ k d a off, Does (.st k d a off) fun x => x.perLane (x.s.laneOrder x.ls) .none fun s l =>
    let ea := (x.v64 a.toNat l + BitVec.ofInt 64 (off.toInt * k.size)).toNat
    if ea % k.size ≠ 0 then .bad s Cause.align
    else match s.storeCheck x.space x.die ea k.size with
      | .ok s t => .ok (s.writeAt x.die t ((x.th l).stBytes k d.toNat)) id
          (storeCmds ea ((x.th l).stBytes k d.toNat))
      | .bad s c => .bad s c
      | .wait => .wait) ∧
  (∀ k ub d a b, Does (.ldx k ub false d a b) fun x => x.perLane (x.s.laneOrder x.ls) .none fun s l =>
    let base := if ub then x.u64 a.toNat else x.v64 a.toNat l
    let ea := (base + BitVec.ofInt 64 ((x.v b.toNat l).toInt * k.size)).toNat
    if ea % k.size ≠ 0 then .bad s Cause.align
    else match s.loadKeep x.space x.die ea k.size with
      | .ok s bs => .ok s (·.setLd k d.toNat (leNat bs)) []
      | .bad s c => .bad s c
      | .wait => .wait) ∧
  (∀ k ub d a b, Does (.ldx k ub true d a b) fun x => x.perLane (x.s.laneOrder x.ls) .none fun s l =>
    let base := if ub then x.u64 a.toNat else x.v64 a.toNat l
    let ea := (base + BitVec.ofInt 64 ((x.v b.toNat l).toInt * k.size)).toNat
    match s.loadEachKeep x.space x.die ea k.size with
      | .ok s bs => .ok s (·.setLd k d.toNat (leNat bs)) []
      | .bad s c => .bad s c
      | .wait => .wait) ∧
  (∀ k ub d a b, Does (.stx k ub false d a b) fun x => x.perLane (x.s.laneOrder x.ls) .none fun s l =>
    let base := if ub then x.u64 a.toNat else x.v64 a.toNat l
    let ea := (base + BitVec.ofInt 64 ((x.v b.toNat l).toInt * k.size)).toNat
    if ea % k.size ≠ 0 then .bad s Cause.align
    else match s.storeCheck x.space x.die ea k.size with
      | .ok s t => .ok (s.writeAt x.die t ((x.th l).stBytes k d.toNat)) id
          (storeCmds ea ((x.th l).stBytes k d.toNat))
      | .bad s c => .bad s c
      | .wait => .wait) ∧
  (∀ k ub d a b, Does (.stx k ub true d a b) fun x => x.perLane (x.s.laneOrder x.ls) .none fun s l =>
    let base := if ub then x.u64 a.toNat else x.v64 a.toNat l
    let ea := (base + BitVec.ofInt 64 ((x.v b.toNat l).toInt * k.size)).toNat
    match s.storeEachCheck x.space x.die ea k.size with
      | .ok s _ => .ok (s.storeEachPut x.space x.die ea ((x.th l).stBytes k d.toNat)) id
          (byteCmds ea ((x.th l).stBytes k d.toNat))
      | .bad s c => .bad s c
      | .wait => .wait)

/-- R193: LD by one lane from device memory that no spill and no block format covers writes to d the bytes at
the translated address, little-endian, extended as the kind says, and changes nothing else. -/
def Obligations.LoadReadsItsBytes : Prop :=
  ∀ k d a off s x l t, Runs (.ld k d a off) s x → x.ls = [l] → (x.s.recorderOf x.g.gang) = none →
    let n := k.size
    let ea := (x.v64 a.toNat l + BitVec.ofInt 64 (off.toInt * n)).toNat
    ea % n = 0 → x.s.translate x.space .load ea = .ok t → t.fmt < 7 → t.lost = false →
    isEdge t.key = false → x.s.meetsPoison x.die t.key n = false → (∀ c, (x.s.core c).spills = []) →
    exec (.ld k d a off) s = .next (performed (.ld k d a off) x fun x => x.lanesDo x.s [l] fun _ th =>
      let v := leNat (Memory.readN x.s.mem t.key n)
      (match k with
        | .z8 | .z16 | .b32 => th.setV d.toNat (BitVec.ofNat 32 v)
        | .s8 => th.setV d.toNat ((BitVec.ofNat 8 v).signExtend 32)
        | .s16 => th.setV d.toNat ((BitVec.ofNat 16 v).signExtend 32)
        | .b64 => th.setV64 d.toNat (BitVec.ofNat 64 v)
        | .b128 => (((th.setV d.toNat (BitVec.ofNat 32 v)).setV (d.toNat + 1) (BitVec.ofNat 32 (v >>> 32))).setV
            (d.toNat + 2) (BitVec.ofNat 32 (v >>> 64))).setV (d.toNat + 3) (BitVec.ofNat 32 (v >>> 96))).goto
        (x.pc + 4))

/-- R193 with its frame: ST by one lane to device memory that no spill covers and no block format forbids stores
the low bytes of its registers, little-endian, at the translated address, and every other byte of memory, every
register and every other thread stay as they were; the lane's die then holds the lines it wrote (R170). -/
def Obligations.StoreWritesItsBytes : Prop :=
  ∀ k d a off s x l t, Runs (.st k d a off) s x → Sound s → x.ls = [l] → (x.s.recorderOf x.g.gang) = none →
    let n := k.size
    let ea := (x.v64 a.toNat l + BitVec.ofInt 64 (off.toInt * n)).toNat
    let v : Nat := match k with
      | .b8 | .b16 | .b32 => (x.v d.toNat l).toNat
      | .b64 => (x.v64 d.toNat l).toNat
      | .b128 => (x.v (d.toNat + 3) l ++ x.v (d.toNat + 2) l ++ x.v (d.toNat + 1) l ++ x.v d.toNat l).toNat
    ea % n = 0 → x.s.translate x.space .store ea = .ok t → t.fmt < 7 → t.lost = false →
    isEdge t.key = false → x.s.partBad x.die t.key n = false → (∀ c, (x.s.core c).spills = []) →
    exec (.st k d a off) s = .next (performed (.st k d a off) x fun x =>
      x.lanesDo ((x.s.put t.key (leBytes n v)).own x.die t.key n) [l] fun _ th => th.goto (x.pc + 4)) ∧
    ∀ u, exec (.st k d a off) s = .next u → ∀ b,
      u.byte b = if t.key ≤ b ∧ b < t.key + n then BitVec.ofNat 8 (v >>> (8 * (b - t.key))) else s.byte b

/-- R196-R199: LDE and STE run lane by lane: LDE writes the element named, decoded and rounded once to its
destination format; STE encodes its register with the lane's rounding, sets the flags of the encoding and stores
the bits. R200, R201: ATOM reads, computes and writes as one access and returns the old value; the new value of
the integer forms is given for 32 and for 64 bits, that of the floating-point forms as the exact sum rounded
once and as FMNX orders numbers, with no NaN but the canonical one of two NaN operands or of a sum. -/
def Obligations.ElementsAndAtomics : Prop :=
  (∀ nf h d a b, Does (.lde nf h d a b) fun x => x.perLane (x.s.laneOrder x.ls) .none fun s l =>
    match s.elemNum x.space x.die (x.v64 a.toNat l).toNat (x.v b.toNat l).toNat nf.toNat with
      | .ok s (f, r) => .ok s (fun th =>
          if nf = 1 ∧ h = false then th.setV64 d.toNat (BitVec.ofNat 64 (Fmt.f64.rne (rawVal f r)))
          else th.setV d.toNat (BitVec.ofNat 32 ((if h then Fmt.f16 else Fmt.f32).rne (rawVal f r)))) []
      | .bad s c => .bad s c
      | .wait => .wait) ∧
  (∀ nf sat d a b, Does (.ste nf sat d a b) fun x => x.perLane (x.s.laneOrder x.ls) .none fun s l =>
    match s.steLoc x.space (x.v64 a.toNat l).toNat (x.v b.toNat l).toNat nf.toNat with
      | .ok (ea, f) =>
        let e := (Fmt.ofCode f).encode (x.rmode l)
          (if nf = 1 then Fmt.f64.decode (x.v64 d.toNat l).toNat else Fmt.f32.decode (x.v d.toNat l).toNat)
          (sat && f == 6)
        (match s.elemStore x.space x.die nf.toNat f ea e.1 with
          | .ok s bs => .ok s (·.flag e.2.bits) (storeCmds ea bs)
          | .bad s c => .bad s c
          | .wait => .wait)
      | .bad c => .bad s c
      | .wait => .wait) ∧
  (∀ op w d a b, Does (.atom op w d a b) fun x => x.perLane (x.s.laneOrder x.ls) .none fun s l =>
    let ea := (x.v64 a.toNat l).toNat
    let v := x.vn w b.toNat l
    let new := if op = .cas then x.vn w (b.toNat + (if w then 2 else 1)) l else 0
    if ea % (if w then 8 else 4) ≠ 0 then .bad s Cause.align
    else match s.atomBytes x.space x.die ea (if w then 8 else 4) fun old =>
        some (atomNew op (8 * if w then 8 else 4) old v new) with
      | .ok s old => .ok s (·.setN w d.toNat old) [atomCmd op w ea v new]
      | .bad s c => .bad s c
      | .wait => .wait) ∧
  (∀ old v new : Word,
    let f (op : AtomOp) : Word := BitVec.ofNat 32 (atomNew op 32 old.toNat v.toNat new.toNat)
    f .add = old + v ∧ f .and = old &&& v ∧ f .or = old ||| v ∧ f .xor = old ^^^ v ∧ f .exch = v ∧
    f .cas = (if old = v then new else old) ∧
    f .minS = (if old.toInt ≤ v.toInt then old else v) ∧ f .maxS = (if v.toInt ≤ old.toInt then old else v) ∧
    f .minZ = (if old ≤ v then old else v) ∧ f .maxZ = (if v ≤ old then old else v)) ∧
  (∀ old v new : DWord,
    let f (op : AtomOp) : DWord := BitVec.ofNat 64 (atomNew op 64 old.toNat v.toNat new.toNat)
    f .add = old + v ∧ f .and = old &&& v ∧ f .or = old ||| v ∧ f .xor = old ^^^ v ∧ f .exch = v ∧
    f .cas = (if old = v then new else old) ∧
    f .minS = (if old.toInt ≤ v.toInt then old else v) ∧ f .maxS = (if v.toInt ≤ old.toInt then old else v) ∧
    f .minZ = (if old ≤ v then old else v) ∧ f .maxZ = (if v ≤ old then old else v)) ∧
  (∀ old v new : Word, let a := Fmt.f32.decode old.toNat
    let b := Fmt.f32.decode v.toNat
    let f (op : AtomOp) : Nat := atomNew op 32 old.toNat v.toNat new.toNat
    (a = .nan ∨ b = .nan → f .fadd = Fmt.f32.canon) ∧
    (∀ n, a = .inf n → b = .inf (!n) → f .fadd = Fmt.f32.canon) ∧
    (∀ n, a = .inf n → b ≠ .nan → b ≠ .inf (!n) → f .fadd = old.toNat) ∧
    (∀ n, b = .inf n → isFinite a → f .fadd = v.toNat) ∧
    (isFinite a → isFinite b → ratOf a + ratOf b ≠ 0 → ∃ neg m e, ratOf (.fin neg m e) = ratOf a + ratOf b ∧
      f .fadd = Fmt.f32.rne (.fin neg m e)) ∧
    (isFinite a → isFinite b → ratOf a + ratOf b = 0 →
      f .fadd = if old = 0x80000000 ∧ v = 0x80000000 then 0x80000000 else 0) ∧
    (a = .nan → b = .nan → f .fmin = Fmt.f32.canon ∧ f .fmax = Fmt.f32.canon) ∧
    (a = .nan → b ≠ .nan → f .fmin = v.toNat ∧ f .fmax = v.toNat) ∧
    (a ≠ .nan → b = .nan → f .fmin = old.toNat ∧ f .fmax = old.toNat) ∧
    (isFinite a → isFinite b → ratOf a < ratOf b → f .fmin = old.toNat ∧ f .fmax = v.toNat) ∧
    (isFinite a → isFinite b → ratOf b < ratOf a → f .fmin = v.toNat ∧ f .fmax = old.toNat) ∧
    (old = 0x80000000 → v = 0 → f .fmin = old.toNat ∧ f .fmax = v.toNat) ∧
    (old = 0 → v = 0x80000000 → f .fmin = v.toNat ∧ f .fmax = old.toNat) ∧
    (a = .inf true → isFinite b → f .fmin = old.toNat ∧ f .fmax = v.toNat) ∧
    (a = .inf false → isFinite b → f .fmin = v.toNat ∧ f .fmax = old.toNat) ∧
    (b = .inf true → isFinite a → f .fmin = v.toNat ∧ f .fmax = old.toNat) ∧
    (b = .inf false → isFinite a → f .fmin = old.toNat ∧ f .fmax = v.toNat))

/-- R202-R204: FUT.FILL writes an empty future full with its value and tells whether it did; FUT.WAIT and
FUT.TAKE read a full one, TAKE emptying it, and wait at an empty one; FUT.CLR empties it. The forms that may
write need both permissions (R189); which kind of access each form is translated as is log 18. An attempt of
waiting lanes that no longer hold their registers raises ILLOP (R259). That attempts are steps of their own, and
change nothing where no lane of the warp waits, is the model's choice (log 2). -/
def Obligations.Futures : Prop :=
  (∀ d a b, Does (.futFill d a b) fun x => x.perLane (x.s.laneOrder x.ls) .none
    (fun s l => match s.futTry x.space x.die (x.v64 a.toNat l).toNat .fill (x.v b.toNat l).toNat with
      | .ok s (full, _) => .ok s (·.setV d.toNat (if full then 0 else 1))
          [.mem true (x.v64 a.toNat l).toNat 0x40 (x.v b.toNat l).toNat []]
      | .bad s c => .bad s c
      | .wait => .wait)
    fun s => s.sync x.core x.g x.slot) ∧
  (∀ d a, Does (.futWait d a) fun x => x.futRound false d a) ∧
  (∀ d a, Does (.futTake d a) fun x => x.futRound true d a) ∧
  (∀ a, Does (.futClr a) fun x => x.perLane (x.s.laneOrder x.ls) .none fun s l =>
    match s.futTry x.space x.die (x.v64 a.toNat l).toNat .clr 0 with
      | .ok s _ => .ok s id [.mem true (x.v64 a.toNat l).toNat 0x42 0 []]
      | .bad s c => .bad s c
      | .wait => .wait) ∧
  (∀ (s : State) sp die ea t v op, ea % 8 = 0 → s.translate sp (FutOp.kind op) ea = .ok t →
    isEdge t.key = false → t.fmt < 7 → t.lost = false → s.meetsPoison die t.key 8 = false →
    let w := leNat (s.readAt die t ea 8)
    s.futTry sp die ea op v = .ok (match op with
      | .fill => if w / 2 ^ 32 % 2 = 1 then s else s.writeAt die t (leBytes 8 (2 ^ 32 + v))
      | .wait => s
      | .take => if w / 2 ^ 32 % 2 = 1 then s.writeAt die t (leBytes 8 0) else s
      | .clr => s.writeAt die t (leBytes 8 0)) (w / 2 ^ 32 % 2 == 1, w % 2 ^ 32)) ∧
  (∀ core wid s g slot w, (s.core core).findWid wid = some (g, slot, w) → g.stop = none →
    (∀ l ∈ g.liveLanes w, ∀ t, g.laneThread w l = some t → ∀ take d a, t.wait ≠ .fut take d a) →
    exec (.futAttempt core wid) s = .next s) ∧
  (∀ core wid s g slot w l t take d a, (s.core core).findWid wid = some (g, slot, w) → g.stop = none →
    g.liveLanes w = [l] → g.laneThread w l = some t → t.wait = .fut take d a →
    exec (.futAttempt core wid) s = .next ((s.ctxAt core g slot w [l] t.pc).futAgain take d a)) ∧
  (∀ (x : Ctx) take d a, let o := opndsOf (if take then .futTake d a else .futWait d a)
    (x.held o = false → x.futAgain take d a = x.raise Cause.illop) ∧
    (x.held o = true → x.pipeUses o = [] → x.futAgain take d a = (x.marked o).futRound take d a))

/-- R152-R155, R210, R382: TAG.LOOK gives the lowest logical page whose valid tag holds the address bits, or all
ones; the other TAG words act on the tag entry of the page a lane names. A lane that names a page the group does
not hold raises PROT, and a poisoned entry raises DATAERR: R382 says so, R210 lists no DATAERR, and the model
takes R382 (log 83). R178, R211, R212: SPLF.st puts its lanes' words in one entry of the forwarding table,
waiting where all 32 are taken; SPLF.ld reads the local store through the table; the oldest entry drains to the
store. That such steps stand on their own, and when they are taken, is the model's choice (log 2). -/
def Obligations.TagsAndSpills : Prop :=
  ((∀ d a, DoesWhen (.tagLook d a) (fun x => x.g.pages.any (x.s.core x.core).tpoison.contains = true) fun x =>
    x.raise Cause.dataerr) ∧
  (∀ d a, DoesWhen (.tagLook d a) (fun x => x.g.pages.any (x.s.core x.core).tpoison.contains = false) fun x =>
    x.done x.s fun l th =>
      th.setV d.toNat (BitVec.ofNat 32 (tagFind (x.s.core x.core) x.g.pages (fld (x.v64 a.toNat l) 51 12)))) ∧
  (∀ a b, Does (.tagSet a b) fun x => x.perLane (x.s.laneOrder x.ls) .none fun s l =>
    match x.g.pages[(x.v b.toNat l).toNat]? with
      | some q => if (s.core x.core).tpoison.contains q then .bad s Cause.dataerr
          else .ok (s.modCore x.core fun k =>
            k.setTag q (setField (setField (k.tag q) 39 0 (fld (x.v64 a.toNat l) 51 12)) 40 40 1)) id []
      | none => .bad s Cause.prot) ∧
  (∀ b, Does (.tagInv b) fun x => x.perLane (x.s.laneOrder x.ls) .none fun s l =>
    match x.g.pages[(x.v b.toNat l).toNat]? with
      | some q => if (s.core x.core).tpoison.contains q then .bad s Cause.dataerr
          else .ok (s.modCore x.core fun k => k.setTag q (setField (k.tag q) 40 40 0)) id []
      | none => .bad s Cause.prot) ∧
  (∀ d b, Does (.tagRd d b) fun x => x.perLane (x.s.laneOrder x.ls) .none fun s l =>
    match x.g.pages[(x.v b.toNat l).toNat]? with
      | some q => if (s.core x.core).tpoison.contains q then .bad s Cause.dataerr
          else .ok s (·.setV64 d.toNat (BitVec.ofNat 64 ((s.core x.core).tag q))) []
      | none => .bad s Cause.prot) ∧
  (∀ a b, Does (.tagWr a b) fun x => x.perLane (x.s.laneOrder x.ls) .none fun s l =>
    match x.g.pages[(x.v b.toNat l).toNat]? with
      | some q => if (s.core x.core).tpoison.contains q then .bad s Cause.dataerr
          else .ok (s.modCore x.core fun k =>
            k.setTag q (setField (k.tag q) 47 41 (x.v a.toNat l).toNat)) id []
      | none => .bad s Cause.prot)) ∧
  ((∀ d a k, DoesWhen (.splfSt d a k) (fun x => 32 ≤ (x.s.core x.core).spills.length) fun x =>
    x.waitAt x.s x.ls (.retry (.splfSt d a k) x.s.stepNo)) ∧
  (∀ d a k s x l t, Runs (.splfSt d a k) s x → x.ls = [l] → (x.s.recorderOf x.g.gang) = none →
    (x.s.core x.core).spills.length < 32 → x.splfAt a k l = .ok t →
    x.s.partialPoison t.key 4 = false →
    exec (.splfSt d a k) s = .next (performed (.splfSt d a k) x fun x =>
      (x.lanesDo (x.s.modCore x.core fun q => { q with spills := q.spills ++ [⟨x.g.gk, [(t.key, x.v d.toNat l)]⟩] })
        [l] fun _ th => th.goto (x.pc + 4)).modCore x.core fun q =>
          { q with spills := q.spills.filter fun e => !e.cells.isEmpty })) ∧
  (∀ d a k, Does (.splfLd d a k) fun x => x.perLane (x.s.laneOrder x.ls) .none fun s l =>
    match x.splfAt a k l with
      | .ok t => if s.poisoned t.key 4 then .bad s Cause.dataerr
          else .ok s (·.setV d.toNat (BitVec.ofNat 32 (leNat (s.readAt x.die t 0 4)))) []
      | .bad c => .bad s c
      | .wait => .wait) ∧
  (∀ core s, (s.core core).spills = [] → exec (.spillWrite core) s = .next s) ∧
  (∀ core s p r, (s.core core).spills = p :: r →
    exec (.spillWrite core) s = .next ((s.modCore core fun k => { k with spills := r }).drainSpill p)) ∧
  (∀ (s : State) gk k v, s.partialPoison k 4 = false →
    s.drainSpill ⟨gk, [(k, v)]⟩ = s.put k (leBytes 4 v.toNat)))

/-! ### Engines, melds and tiles (R113-R142, R161, R162, R171-R176, R205-R209) -/

/-- R126, R132, R171, R172: an engine operation raises the cause its issue checks find; it is stalled while its
queue is full (64 entries, or 32 for each copy queue); else its lanes go on, the token becomes pending and the
operation stands at the end of its queue with its descriptors captured. Where it names a meld it signs instead.
That an operation's own checks come before the meld's and before the full queue is read by inference (log 35:
R172 and R443 give no order). The entry is stated for a gang that is not recorded. -/
def Obligations.EngineWordsEnterTheirQueue : Prop :=
  ∀ i mk, engineWord i = some mk →
    (∀ c, DoesWhen i (fun x => x.s.opCheck x.core x.g (x.w.opOf i) = some c) fun x => x.raise c) ∧
    (mk = none → DoesWhen i (fun x => x.s.opCheck x.core x.g (x.w.opOf i) = none ∧
        (match copyQueue i with
          | none => 64 ≤ (x.s.core x.core).mq.length
          | some q => 32 ≤ ((x.s.core x.core).cq.filter fun e => e.q == q).length))
      fun x => x.stall x.s (roomFor i)) ∧
    (mk = none → ∀ s x, Runs i s x → x.s.recorderOf x.g.gang = none →
      x.s.opCheck x.core x.g (x.w.opOf i) = none →
      (match copyQueue i with
        | none => (x.s.core x.core).mq.length < 64
        | some q => ((x.s.core x.core).cq.filter fun e => e.q == q).length < 32) →
      (match (opndsOf i).tok with
        | some r => exec i s = .next (performed i x fun x =>
            let t := (x.done x.s fun _ th => th).pendTok x.core x.g.gk (x.slot, r)
            (t.modCore x.core fun k =>
              match copyQueue i with
              | none => { k with mq := k.mq ++ [entryFor i x t] }
              | some _ => { k with cq := k.cq ++ [entryFor i x t] }).bump)
        | none => exec i s = .next (performed i x fun x =>
            let t := x.done x.s fun _ th => th
            (t.modCore x.core fun k =>
              match copyQueue i with
              | none => { k with mq := k.mq ++ [entryFor i x t] }
              | some _ => { k with cq := k.cq ++ [entryFor i x t] }).bump))) ∧
    (∀ k, mk = some k → DoesWhen i (fun x => x.s.opCheck x.core x.g (x.w.opOf i) = none) fun x =>
      x.sign k.toNat (some (x.w.opOf i)) (opndsOf i).tok)

/-- R127-R130, R137: MELD.decl opens an idle meld with its count, MELD.sign and every melded operation sign it,
each lane for its thread, MELD.cancel discards it and writes its tokens with the cancelled code, and MELD.qry
gives its counts; what R129 forbids raises MELDSET and signs nothing. A meld that completes enters its queue
where there is room, and at a later step of the engine where there was none. That such steps stand on their own,
and when they are taken, is the model's choice (log 2). -/
def Obligations.Melds : Prop :=
  (∀ k a, DoesWhen (.meldDecl k a) (fun x => x.g.melds[k.toNat]? = some Meld.idle ∧
      1 ≤ (x.u a.toNat).toNat ∧ (x.u a.toNat).toNat ≤ 1024) fun x =>
    x.modG (x.done x.s fun _ th => th) fun g => g.modMeld k.toNat fun _ =>
      { Meld.idle with opened := true, expect := (x.u a.toNat).toNat }) ∧
  (∀ k a, DoesWhen (.meldDecl k a) (fun x => (∃ m, x.g.melds[k.toNat]? = some m ∧ m.opened = true) ∨
      (x.u a.toNat).toNat = 0 ∨ 1024 < (x.u a.toNat).toNat) fun x => x.raise Cause.meldset) ∧
  (∀ k tok, Does (.meldSign k tok) fun x => x.sign k.toNat none (tokNum tok)) ∧
  (∀ (x : Ctx) k op tok m, x.g.melds[k]? = some m →
    (m.opened = false ∨ (∃ l ∈ x.ls, x.slotOf l ∈ m.signed) ∨ m.expect < m.signed.length + x.ls.length ∨
      (∃ o p, op = some o ∧ m.op = some p ∧ (blank o.instr ≠ blank p.instr ∨ o.desc ≠ p.desc)) ∨
      (op = none ∧ m.op = none ∧ m.signed.length + x.ls.length = m.expect)) →
    x.sign k op tok = x.raise Cause.meldset) ∧
  (∀ (x : Ctx) k op m r, x.g.melds[k]? = some m → m.opened = true → (∀ l ∈ x.ls, x.slotOf l ∉ m.signed) →
    m.signed.length + x.ls.length ≤ m.expect →
    (∀ o p, op = some o → m.op = some p → blank o.instr = blank p.instr ∧ o.desc = p.desc) →
    (op = none → m.op = none → m.signed.length + x.ls.length ≠ m.expect) →
    x.sign k op (some r) = (((x.modG (x.done x.s fun _ th => th) fun g => g.modMeld k fun m =>
      { m with signed := m.signed ++ x.ls.map x.slotOf, op := m.op.orElse fun _ => op,
               toks := m.toks ++ [(x.slot, r)], lanes := addLanes m.lanes x.slot x.lanes }).pendTok
        x.core x.g.gk (x.slot, r)).meldEnter x.core x.g.gk k)) ∧
  (∀ k, Does (.meldCancel k) fun x =>
    ((x.g.melds[k.toNat]?).getD Meld.idle).toks.foldl (fun t p => t.writeTok x.core x.g.gk p 2)
      (x.modG (x.done x.s fun _ th => th) fun g => g.modMeld k.toNat fun _ => Meld.idle)) ∧
  (∀ d k, DoesWhen (.meldQry d k) (fun x => ∃ m, x.g.melds[k.toNat]? = some m ∧ m.opened = true) fun x =>
    let m := (x.g.melds[k.toNat]?).getD Meld.idle
    x.doneW x.s fun w => w.setU d.toNat (BitVec.ofNat 32
      (m.signed.length + m.expect * 2 ^ 11 + (if m.op.isSome then 2 ^ 22 else 0) + 2 ^ 31))) ∧
  (∀ d k, DoesWhen (.meldQry d k) (fun x => ∀ m, x.g.melds[k.toNat]? = some m → m.opened = false) fun x =>
    x.doneW x.s fun w => w.setU d.toNat 0) ∧
  (∀ core s, (s.core core).meldsWaiting = [] → exec (.meldEntry core) s = .next s) ∧
  (∀ core s gk k, (s.core core).meldsWaiting = [(gk, k)] →
    exec (.meldEntry core) s = .next (s.meldEnter core gk k)) ∧
  (∀ (s : State) core gk k g m o, s.group? core gk = some g → g.melds[k]? = some m → m.op = some o →
    m.opened = true → m.signed.length = m.expect → (s.core core).full o.instr = false →
    (s.core core).owns g o.instr = true →
    s.meldEnter core gk k = (s.modGroup core gk fun g => g.modMeld k fun _ => Meld.idle).enter core g
      (g.entryOf o m.toks (.lanes m.lanes) true (m.signed.filter (· != noThread))))

/-- R123-R125, R133, R138-R141: the operation at the head of the matrix queue is performed when its gang goes
on, its planes are reloaded and no translation fault holds it: LDW.SWAP exchanges the planes, ACC.Z clears its
accumulator, and each of the others that passes its checks has its effect and its tokens are written: LDW leaves
the tile in the shadow plane, MSTR the pass of R116-R119 in rows 0 to M - 1 and columns col0 to col0 + Nw - 1,
ACC.RD the positions in the tile's bytes, ACC.WR the tile's elements in the positions, each converted as R141
says, and every other position stays. An entry is performed while only another gang's planes are being reloaded
(log 81); one that fails a check at the engine fails through its tokens, and one whose page is missing stops.
ACC.ACQ takes a free token, keeps one its group has, waits for one a member of the gang has; ACC.REL gives its
group's back, and that it changes nothing where the group has none is the model's choice (log 65). R133, R135,
R279: a stopped unit tries again when the clock is a multiple of 4096 and at no other time: a matrix entry or a
copy entry that names a missing page runs again at the head of its queue, an entry that is not stopped and one
whose gang stops is left. That such steps stand on their own, and when they are taken, is the model's choice
(log 2). -/
def Obligations.MatrixEngineAndRetry : Prop :=
  ((∀ core s, (s.core core).mq = [] → exec (.matrixOperation core) s = .next s) ∧
  (∀ core s e r g, (s.core core).mq = e :: r → s.group? core e.gk = some g →
    e.stopped.isSome = true ∨ g.stop.isSome = true ∨ (s.core core).reloading g.gang = true →
    exec (.matrixOperation core) s = .next s) ∧
  (∀ core s e r g, (s.core core).mq = e :: r → s.group? core e.gk = some g →
    e.stopped = none → g.stop = none → (s.core core).reloading g.gang = false →
    (∀ t, s.matrixEffect core g e.op = .ok t →
      exec (.matrixOperation core) s = .next (t.complete core e none)) ∧
    (∀ c, s.matrixEffect core g e.op = .bad c →
      exec (.matrixOperation core) s = .next (s.complete core e (some c))) ∧
    (∀ va, s.matrixEffect core g e.op = .page va →
      exec (.matrixOperation core) s = .next (s.stopEntry core g e va)) ∧
    (∀ tok mk, e.op.instr = .ldwSwap tok mk → exec (.matrixOperation core) s =
      .next ((s.modCore core fun k => { k with act := k.shd, shd := k.act }).complete core e none)) ∧
    (∀ c tok mk, e.op.instr = .accZ c tok mk → exec (.matrixOperation core) s =
      .next ((s.modCore core fun k => k.accZero c.toNat).complete core e none))) ∧
  (∀ (k : Core) a i j, i < 64 → j < 64 → (k.accZero a).accGet [accKey a i j] = 0 ∧
    ∀ b, b ≠ a → (k.accZero a).accGet [accKey b i j] = k.accGet [accKey b i j]) ∧
  (∀ a i j (k : Core) p q, accKey a i j = 4096 * a + 64 * i + j ∧ k.accGet [p] = (sget k.acc p 0).toNat ∧
    k.accGet [p, q] = (sget k.acc p 0).toNat + 2 ^ 32 * (sget k.acc q 0).toNat) ∧
  -- the elements of a tile, and the one that is read
  (∀ d r c, ((r, c) ∈ tileCells d ↔ r ≤ Dsc.rows d ∧ c ≤ Dsc.cols d) ∧
    ∀ f, 1 ≤ f → f ≤ 6 → (tilePos d (elemBits f) r c).1 = Dsc.base d +
      (if Dsc.layout d = 1 then c else r) * Dsc.stride d + (if Dsc.layout d = 1 then r else c) * (elemBits f / 8)) ∧
  (∀ (s : State) sp die d f r c x, Dsc.layout d ≤ 1 → 1 ≤ f → f ≤ 6 → Dsc.fmtsel d = f → s.noPoison = true →
    (∀ c, (s.core c).spills = []) → (tilePos d (elemBits f) r c).1 % (elemBits f / 8) = 0 →
    s.translate sp .load (tilePos d (elemBits f) r c).1 = .ok x → x.fmt = 0 ∨ x.fmt = f → x.lost = false →
    isEdge x.key = false →
    s.tileRead sp die ⟨d, none, f⟩ r c = .ok (leNat (Memory.readN s.mem x.key (elemBits f / 8)), 0, 0)) ∧
  -- LDW: the shadow plane holds the tile
  (∀ core (s : State) (e : Entry) g ta tok mk t, s.group? core e.gk = some g → e.op.instr = .ldw ta tok mk →
    s.matrixEffect core g e.op = .ok t → ∃ pl f p, NamedTile e.op.desc pl f ∧ (t.core core).shd = some p ∧
      (t.core core).act = (s.core core).act ∧ (t.core core).acc = (s.core core).acc ∧
      p.fmt = f ∧ p.kw = Dsc.rows e.op.desc + 1 ∧ p.nw = Dsc.cols e.op.desc + 1 ∧ p.nw ≤ widestPlane f ∧
      ∀ r c, r < p.kw → c < p.nw → s.tileRead (g.space core g.sup) (core / 128) ⟨e.op.desc, pl, f⟩ r c =
        .ok ((p.elems.getD r []).getD c (0, 0, 0))) ∧
  -- MSTR: rows 0 to M − 1 and columns col0 to col0 + Nw − 1 take the pass, every other position stays
  (∀ core (s : State) (e : Entry) g c ta cg init tok mk p t, s.group? core e.gk = some g → e.op.instr = .mstr c ta cg init tok mk →
    (s.core core).act = some p → p.nw ≤ widestPlane p.fmt → Dsc.rows e.op.desc ≤ 63 →
    risingFrom 0 (s.core core).acc = true → s.matrixEffect core g e.op = .ok t → ∃ pl f,
      let col (n : Nat) : Nat := (if cg then (if p.fmt = 1 then 16 else 32) else 0) + n
      let pos (i n : Nat) : List Nat := accAt (p.fmt = 1) c.toNat i (col n)
      NamedTile e.op.desc pl f ∧ p.kw = Dsc.cols e.op.desc + 1 ∧ (cg = true → p.fmt = 1 ∨ p.fmt = 2) ∧
      (∀ i n, i ≤ Dsc.rows e.op.desc → n < p.nw → ∃ xs : List Raw, xs.length = p.kw ∧
        (∀ k, k < p.kw → s.tileRead (g.space core g.sup) (core / 128) ⟨e.op.desc, pl, f⟩ i k = .ok (xs.getD k (0, 0, 0))) ∧
        (t.core core).accGet (pos i n) = passValue p.fmt f (if init then 0 else (s.core core).accGet (pos i n)) xs
          (p.elems.map fun r => r.getD n (0, 0, 0)) % 2 ^ (if p.fmt = 1 then 64 else 32)) ∧
      (∀ q, (∀ i n, i ≤ Dsc.rows e.op.desc → n < p.nw → q ∉ pos i n) →
        sget (t.core core).acc q 0 = sget (s.core core).acc q 0) ∧
      risingFrom 0 (t.core core).acc = true ∧ (t.core core).act = (s.core core).act ∧
      (t.core core).shd = (s.core core).shd) ∧
  -- ACC.RD: each element of the tile takes its position, converted
  (∀ core (s : State) (e : Entry) g c ta tok mk t, s.group? core e.gk = some g → e.op.instr = .accRd c ta tok mk →
    s.matrixEffect core g e.op = .ok t → ∃ pl f, ∃ xs : List Xlat, NamedTile e.op.desc pl f ∧ f ≤ 6 ∧
      (tileCells e.op.desc).map (fun p => s.translate (g.space core g.sup) .store
        (TileOp.pos ⟨e.op.desc, pl, f⟩ p.1 p.2).1) = xs.map Res.ok ∧
      t = s.writeCells (core / 128) ((xs.zip (tileCells e.op.desc)).flatMap fun p =>
        let v := (s.core core).accGet (accAt (f = 1) c.toNat p.2.1 p.2.2)
        (leBytes (elemBits f / 8) (if f ≤ 2 then v else (Fmt.ofCode f).rne (Fmt.f32.decode v))).zipIdx.map fun b =>
          ({ p.1 with key := p.1.key + b.2 }, b.1))) ∧
  -- ACC.WR: each position of the tile's shape takes its element, converted, and every other one stays
  (∀ core (s : State) (e : Entry) g c ta tok mk t, s.group? core e.gk = some g → e.op.instr = .accWr c ta tok mk →
    Dsc.rows e.op.desc ≤ 63 → (Dsc.cols e.op.desc ≤ if Dsc.fmtsel e.op.desc = 1 then 31 else 63) →
    Dsc.fmtsel e.op.desc ≠ 0 → risingFrom 0 (s.core core).acc = true → s.matrixEffect core g e.op = .ok t →
    ∃ pl f, NamedTile e.op.desc pl f ∧
      (∀ i j, i ≤ Dsc.rows e.op.desc → j ≤ Dsc.cols e.op.desc → ∃ v,
        s.tileRead (g.space core g.sup) (core / 128) ⟨e.op.desc, pl, f⟩ i j = .ok v ∧
        (t.core core).accGet (accAt (f = 1) c.toNat i j) =
          (if f ≤ 2 then v.1 else Fmt.f32.rne (rawVal f v)) % 2 ^ (if f = 1 then 64 else 32)) ∧
      (∀ q, (∀ i j, i ≤ Dsc.rows e.op.desc → j ≤ Dsc.cols e.op.desc → q ∉ accAt (f = 1) c.toNat i j) →
        sget (t.core core).acc q 0 = sget (s.core core).acc q 0) ∧ risingFrom 0 (t.core core).acc = true) ∧
  -- the value of a pass
  (∀ f act c (xs ws : List Raw), 3 ≤ f → f ≤ 7 → let el (p : Raw × Raw) : ℚ := ratOf (rawVal act p.1) * ratOf (rawVal f p.2)
    let q := ratOf (Fmt.f32.decode c) + ((xs.zip ws).map el).sum
    ((∀ p ∈ xs.zip ws, isFinite (rawVal act p.1) ∧ isFinite (rawVal f p.2)) → isFinite (Fmt.f32.decode c) →
      (q ≠ 0 → ∃ neg m e, ratOf (.fin neg m e) = q ∧ passValue f act c xs ws = Fmt.f32.rne (.fin neg m e)) ∧
      (q = 0 → (∀ e, Fmt.f32.decode c ≠ .fin true 0 e) → passValue f act c xs ws = 0)) ∧
    (Fmt.f32.decode c = .nan ∨ (∃ p ∈ xs.zip ws, rawVal act p.1 = .nan ∨ rawVal f p.2 = .nan) →
      passValue f act c xs ws = Fmt.f32.canon)) ∧
  (∀ f (x : Raw), f ≤ 6 → rawVal f x = (Fmt.ofCode f).decode x.1) ∧
  (∀ q k z, k < 255 → Fmt.e4m3.decode q ≠ .nan →
    ratOf (rawVal 7 (q, k, z)) = ratOf (Fmt.e4m3.decode q) * (2 : ℚ) ^ ((k : Int) - 127)) ∧
  (∀ q z, rawVal 7 (q, 255, z) = .nan) ∧
  (∀ act c (xs ws : List Raw), passValue 1 act c xs ws = (xs.zip ws).foldl (fun a p => (fpFma .f64 .rn p.1.1 p.2.1 a).1) c ∧
    passValue 2 act c xs ws = (xs.zip ws).foldl (fun a p => (fpFma .f32 .rn p.1.1 p.2.1 a).1) c) ∧
  (∀ act c, passValue 8 act c [] [] = c) ∧
  (∀ act c (xs ws xr wr : List Raw) cq sq, xs.length = 64 → ws.length = 64 → xr.length = wr.length → (∀ w ∈ ws, w.2 = (cq, sq)) →
    (∀ x ∈ xs, isFinite (rawVal act x)) → isFinite (Fmt.f32.decode sq) →
    let q := ((xs.zip ws).map fun p => ratOf (nq4LevelVal p.2.1) * ratOf (rawVal act p.1)).sum *
      cq / 256 * ratOf (Fmt.f32.decode sq)
    ∃ k, passValue 8 act c (xs ++ xr) (ws ++ wr) = passValue 8 act (fpAdd .f32 .rn c k).1 xr wr ∧
      (q = 0 → k % 2 ^ 31 = 0) ∧
      (q ≠ 0 → ∃ neg m e, ratOf (.fin neg m e) = q ∧ k = Fmt.f32.rne (.fin neg m e))) ∧
  (∀ c, DoesWhen (.accAcq c none) (fun x => (x.s.core x.core).useSlot x.g (c.toNat / 4) = true ∧
      sfind (x.s.core x.core).owner c.toNat = none ∧ x.w.waited &&& x.lanes = 0) fun x =>
    x.done (x.s.modCore x.core fun k => { k with owner := sput k.owner c.toNat x.g.gk }) fun _ th => th) ∧
  (∀ c, DoesWhen (.accAcq c none) (fun x => (x.s.core x.core).useSlot x.g (c.toNat / 4) = true ∧
      sfind (x.s.core x.core).owner c.toNat = some x.g.gk ∧ x.w.waited &&& x.lanes = 0) fun x =>
    x.done x.s fun _ th => th) ∧
  (∀ c h, DoesWhen (.accAcq c none) (fun x => (x.s.core x.core).useSlot x.g (c.toNat / 4) = true ∧
      sfind (x.s.core x.core).owner c.toNat = some h ∧ h ≠ x.g.gk) fun x => x.waitAt x.s x.ls (.retry (.accAcq c none) x.s.stepNo)) ∧
  (∀ c, DoesWhen (.accAcq c none) (fun x => (x.s.core x.core).useSlot x.g (c.toNat / 4) = false) fun x =>
    x.raise Cause.accown) ∧
  (∀ c, DoesWhen (.accRel c none) (fun x => sfind (x.s.core x.core).owner c.toNat = some x.g.gk) fun x =>
    (x.done x.s fun _ th => th).modCore x.core fun k => { k with owner := sdel k.owner c.toNat }) ∧
  (∀ c, DoesWhen (.accRel c none) (fun x => sfind (x.s.core x.core).owner c.toNat ≠ some x.g.gk) fun x =>
    x.done x.s fun _ th => th) ∧
  (∀ c k, Does (.accAcq c (some k)) fun x => x.raise Cause.meldset) ∧
  (∀ c k, Does (.accRel c (some k)) fun x => x.raise Cause.meldset)) ∧
  ((∀ core u s, s.clk % 4096 ≠ 0 → exec (.engineFaultRetry core u) s = .next s) ∧
  (∀ core s e g va, s.clk % 4096 = 0 → (s.core core).mq.head? = some e → s.group? core e.gk = some g →
    e.stopped = some va → g.stop = none →
    exec (.engineFaultRetry core .matrix) s = .next (s.runMatrix core g e)) ∧
  (∀ core s e g, s.clk % 4096 = 0 → (s.core core).mq.head? = some e → s.group? core e.gk = some g →
    e.stopped = none ∨ g.stop.isSome = true → exec (.engineFaultRetry core .matrix) s = .next s) ∧
  (∀ core s q e g va, s.clk % 4096 = 0 → (s.core core).copyHead q = some e → s.group? core e.gk = some g →
    e.stopped = some va → g.stop = none → e.probed = none →
    exec (.engineFaultRetry core (.copy q)) s = .next (s.runProbe core g e)) ∧
  (∀ core s q e g va f, s.clk % 4096 = 0 → (s.core core).copyHead q = some e → s.group? core e.gk = some g →
    e.stopped = some va → g.stop = none → e.probed = some f →
    exec (.engineFaultRetry core (.copy q)) s = .next (s.runChunk core g e f)) ∧
  (∀ core s gk g o, s.clk % 4096 = 0 → s.group? core gk = some g → g.tile = some o → o.reload = true →
    g.stop = none → exec (.engineFaultRetry core (.reload gk)) s = .next (s.reloadTile core g o)) ∧
  (∀ core s gang, s.clk % 4096 = 0 → s.planePending core gang = none →
    exec (.engineFaultRetry core (.restore gang)) s = .next s))

/-- R205-R209: the copy at the head of a queue is probed once before it moves a byte; a probe that passes fixes
its formats, one that fails ends the copy with its cause; each chunk then writes at most its share and the last
one completes the copy. That such steps stand on their own, and when they are taken, is the model's choice (log
2). -/
def Obligations.CopyEngine : Prop :=
  (∀ core q s, (s.core core).copyHead q = none →
    exec (.copyProbe core q) s = .next s ∧ exec (.copyChunk core q) s = .next s) ∧
  (∀ core q s e g, (s.core core).copyHead q = some e → s.group? core e.gk = some g →
    e.stopped = none → g.stop = none →
    (e.probed = none → ∀ f, s.probeOf core g e = .ok f →
      exec (.copyProbe core q) s = .next (s.modEntry core e.eid fun e => { e with probed := some f, stopped := none })) ∧
    (e.probed = none → ∀ c, s.probeOf core g e = .bad c →
      exec (.copyProbe core q) s = .next (s.complete core e (some c))) ∧
    (e.probed = none → ∀ va, s.probeOf core g e = .page va →
      exec (.copyProbe core q) s = .next (s.stopEntry core g e va)) ∧
    (e.probed = none → exec (.copyChunk core q) s = .next s) ∧
    (∀ f, e.probed = some f → exec (.copyProbe core q) s = .next s) ∧
    (∀ f, e.probed = some f → ∀ t n, s.chunk core g e e.copyFn f = .ok (.part t n false) →
      exec (.copyChunk core q) s = .next (t.modEntry core e.eid fun e => { e with done := n, stopped := none })) ∧
    (∀ f, e.probed = some f → ∀ t n, s.chunk core g e e.copyFn f = .ok (.part t n true) →
      exec (.copyChunk core q) s = .next (t.complete core e none)) ∧
    (∀ f, e.probed = some f → ∀ t c, s.chunk core g e e.copyFn f = .ok (.fail t c) →
      exec (.copyChunk core q) s = .next (t.complete core e (some c))))

/-- R205, R206, R208, R209: the copy at the head of a queue that fills a tile of whole-byte elements with zeros
passes its probe, and each chunk writes zeros to at most 4 KiB of elements and leaves the copy at its next
element, or completes it with the last. Under these conditions alone: its group goes on, no poison lies in
memory or in a copy that an L2 holds, and every byte of the tile translates for a store, at elements aligned to
their size, in pages of the named format or of none. Each chunk of a copy between such tiles whose elements can
be read writes to each element of the destination the stored bits of the same element of the source (.raw), or
its exact value encoded once to nearest (.cvt, saturated in E5M2 with .sat). The bytes that such a write changes
are its own, and each is the one written. That such steps stand on their own, and when they are taken, is the
model's choice (log 2). -/
def Obligations.CopiesRun : Prop :=
  (∀ core q s e g d a t tok qn, (s.core core).copyHead q = some e → s.group? core e.gk = some g →
    e.stopped = none → g.stop = none → e.op.instr = .acpy .zero qn d a tok →
    t = e.op.desc → Dsc.layout t ≤ 1 → 1 ≤ Dsc.fmtsel t → Dsc.fmtsel t ≤ 6 → s.noPoison = true →
    let n := elemBits (Dsc.fmtsel t) / 8
    let pos (r c : Nat) : Nat := (tilePos t (elemBits (Dsc.fmtsel t)) r c).1
    let fits (x : Xlat) : Prop := x.lost = false ∧ (x.fmt = 0 ∨ x.fmt = Dsc.fmtsel t)
    (∀ r c, r ≤ Dsc.rows t → c ≤ Dsc.cols t → pos r c % n = 0 ∧
      ∀ i, i < n → ∃ x, s.translate (g.copySpace core e) .store (pos r c + i) = .ok x ∧ fits x) →
    let f : Probe := ⟨none, none, Dsc.fmtsel e.op.src, Dsc.fmtsel t, []⟩
    (e.probed = none → e.done = 0 → exec (.copyProbe core q) s =
      .next (s.modEntry core e.eid fun e => { e with probed := some f, stopped := none })) ∧
    (e.probed = some f → ∀ xs : List Xlat,
      let cells := ((tileCells t).drop (e.done / n)).take (4096 / n)
      (cells.flatMap fun (r, c) => upto (pos r c) n).map (s.translate (g.copySpace core e) .store) = xs.map .ok →
      let w := s.writeCells (core / 128) (xs.map fun x => (x, 0))
      exec (.copyChunk core q) s = .next (
        if (tileCells t).length ≤ e.done / n + 4096 / n then w.complete core e none
        else w.modEntry core e.eid fun e => { e with done := e.done + n * cells.length, stopped := none }))) ∧
  (∀ (s : State) die (xs : List Xlat), Sound s → (∀ c, (s.core c).spills = []) → (∀ x ∈ xs, isEdge x.key = false) →
    ∀ b, (s.writeCells die (xs.map fun x => (x, 0))).byte b = if ∃ x ∈ xs, x.key = b then 0 else s.byte b) ∧
  (∀ core q (s : State) e g sfn qn d a t₀ t tok f, (s.core core).copyHead q = some e → s.group? core e.gk = some g →
    e.stopped = none → g.stop = none → e.op.instr = .acpy sfn qn d a tok → sfn = .raw ∨ sfn = .cvt ∨ sfn = .cvtSat →
    t₀ = e.op.src → t = e.op.desc → Dsc.layout t₀ ≤ 1 → Dsc.layout t ≤ 1 →
    1 ≤ Dsc.fmtsel t₀ → Dsc.fmtsel t₀ ≤ 6 → 1 ≤ Dsc.fmtsel t → Dsc.fmtsel t ≤ 6 →
    s.noPoison = true → (∀ c, (s.core c).spills = []) →
    f = ⟨none, none, Dsc.fmtsel t₀, Dsc.fmtsel t, []⟩ → e.probed = some f →
    let from_ (r c : Nat) : Nat := (tilePos t₀ (elemBits (Dsc.fmtsel t₀)) r c).1
    let to_ (r c : Nat) : Nat := (tilePos t (elemBits (Dsc.fmtsel t)) r c).1
    let m := elemBits (Dsc.fmtsel t₀) / 8
    let n := elemBits (Dsc.fmtsel t) / 8
    let cells := ((tileCells t).drop (e.done / n)).take (4096 / n)
    ∀ xs ys : List Xlat,
    cells.map (fun p => s.translate (g.copySpace core e) .load (from_ p.1 p.2)) = xs.map .ok →
    (cells.flatMap fun p => upto (to_ p.1 p.2) n).map (s.translate (g.copySpace core e) .store) = ys.map .ok →
    (∀ p ∈ cells, from_ p.1 p.2 % m = 0 ∧ to_ p.1 p.2 % n = 0) →
    (∀ x ∈ xs, x.lost = false ∧ (x.fmt = 0 ∨ x.fmt = Dsc.fmtsel t₀) ∧ isEdge x.key = false) →
    (∀ y ∈ ys, y.lost = false ∧ (y.fmt = 0 ∨ y.fmt = Dsc.fmtsel t)) →
    let moved (x : Xlat) : List Byte :=
      let v := leNat (Memory.readN s.mem x.key m)
      leBytes n (if sfn = .raw then v
        else ((Fmt.ofCode (Dsc.fmtsel t)).encode .rn ((Fmt.ofCode (Dsc.fmtsel t₀)).decode v)
          (sfn == .cvtSat && Dsc.fmtsel t == 6)).1)
    let w := s.writeCells (core / 128) (ys.zip (xs.flatMap moved))
    exec (.copyChunk core q) s = .next (
      if (tileCells t).length ≤ e.done / n + 4096 / n then w.complete core e none
      else w.modEntry core e.eid fun e => { e with done := e.done + n * cells.length, stopped := none })) ∧
  (∀ (s : State) die (l : List (Xlat × Byte)), Sound s → (∀ c, (s.core c).spills = []) →
    (∀ e ∈ l, isEdge e.1.key = false) → (l.map fun e => e.1.key).Nodup →
    (∀ e ∈ l, (s.writeCells die l).byte e.1.key = e.2) ∧
    ∀ b, (∀ e ∈ l, e.1.key ≠ b) → (s.writeCells die l).byte b = s.byte b)

/-! ### Fences (R167, R175, R179-R184, R213-R216) -/

/-- R175, R183, R158: FENC.Q goes on where no entry of its queue set that the lanes issued or signed is left,
and waits otherwise; that `Ctx.queued` counts a complete meld that has no room yet, and what a program that the
lanes forked has still to enter, is the model's reading (log 12). A register with a bit above 5 raises ILLOP.
FENC.R cleans and invalidates the lines of a well-formed list, going on at once where nothing was dirty or on
its way and waiting for the acknowledgement otherwise; a list that is not 16-byte aligned raises ALIGN, a
malformed one PROT; what the list's words were read from leaves its copies, as a load does (R181). FENC.RCOMMIT
stages its image, its token pending, an image that is not 64-byte aligned raising ALIGN. An acknowledgement puts
the oldest cleaning's bytes at their homes, drops its lines and lets its waiters go on. That such steps stand on
their own, and when they are taken, is the model's choice (log 2). -/
def Obligations.Fences : Prop :=
  (∀ q, DoesWhen (.fencQImm q) (fun x => x.queued q = false ∧ q ≠ 0) fun x =>
    x.done (x.s.sync x.core x.g x.slot) fun _ th => th) ∧
  (Does (.fencQImm 0) fun x => x.done x.s fun _ th => th) ∧
  (∀ q, DoesWhen (.fencQImm q) (fun x => x.queued q = true) fun x =>
    x.waitAt x.s x.ls (.retry (.fencQImm q) x.s.stepNo)) ∧
  (∀ a, DoesWhen (.fencQReg a) (fun x => (x.u a.toNat).toNat < 64) fun x =>
    x.fencQ (.fencQReg a) ((x.u a.toNat).setWidth 6)) ∧
  (∀ a, DoesWhen (.fencQReg a) (fun x => 64 ≤ (x.u a.toNat).toNat) fun x => x.raise Cause.illop) ∧
  (∀ (x : Ctx) i q, x.queued q = false → q ≠ 0 →
    x.fencQ i q = x.done (x.s.sync x.core x.g x.slot) fun _ th => th) ∧
  (∀ (x : Ctx) i q, x.queued q = true → x.fencQ i q = x.waitAt x.s x.ls (.retry i x.s.stepNo)) ∧
  (∀ a rs cl inv t, DoesWhen (.fencR a) (fun x => (x.u64 a.toNat).toNat % 16 = 0 ∧
      x.s.regionList x.space x.die (x.u64 a.toNat).toNat = .ok (some rs) ∧
      x.s.listLines x.space rs = .ok (cl, inv) ∧
      (x.listKept (x.u64 a.toNat).toNat).s.bump.startClean cl inv x.s.fresh = (t, false)) fun x =>
    x.fenceDone (x.done t fun _ th => th) (x.u64 a.toNat).toNat) ∧
  (∀ a rs cl inv t, DoesWhen (.fencR a) (fun x => (x.u64 a.toNat).toNat % 16 = 0 ∧
      x.s.regionList x.space x.die (x.u64 a.toNat).toNat = .ok (some rs) ∧
      x.s.listLines x.space rs = .ok (cl, inv) ∧
      (x.listKept (x.u64 a.toNat).toNat).s.bump.startClean cl inv x.s.fresh = (t, true)) fun x =>
    x.waitAt t x.ls (.fencR x.s.fresh (x.u64 a.toNat).toNat)) ∧
  (∀ a, DoesWhen (.fencR a) (fun x => (x.u64 a.toNat).toNat % 16 ≠ 0) fun x => x.raise Cause.align) ∧
  (∀ a, DoesWhen (.fencR a) (fun x => (x.u64 a.toNat).toNat % 16 = 0 ∧
      x.s.regionList x.space x.die (x.u64 a.toNat).toNat = .ok none) fun x =>
    (x.listKept (x.u64 a.toNat).toNat).raise Cause.prot) ∧
  (∀ a b, DoesWhen (.fencRcommit a b) (fun x => (x.u64 a.toNat).toNat % 64 = 0 ∧
      x.s.recorderOf x.g.gang = none) fun x =>
    let t := ((x.done x.s fun _ th => th).pendTok x.core x.g.gk (x.slot, b.toNat)).emit
      (.rangeStage (x.u64 a.toNat).toNat)
    { t with commits := t.commits ++
        [⟨x.u64 a.toNat, x.g.ctx, x.g.root, x.core, x.g.gk, x.slot, b.toNat, none, none⟩] }) ∧
  (∀ a b, DoesWhen (.fencRcommit a b) (fun x => (x.u64 a.toNat).toNat % 64 ≠ 0 ∧
      x.s.recorderOf x.g.gang = none) fun x => x.raise Cause.align) ∧
  (∀ s, s.cleans = [] → exec .cleanAcknowledgement s = .next s) ∧
  (∀ s c r, s.cleans = c :: r → exec .cleanAcknowledgement s = .next
    (let t := (State.homePut { s with cleans := r } c.bytes c.bad).dropLines c.inv
     (t.cores.map Prod.fst).foldl (fun t core => t.fencesResume core c.id) t))

/-! ### Threads, bins and barriers (R217-R244, R290-R295) -/

/-- R219-R222, R227, R241, R290-R292: SPAWN makes a thread of the group for each lane from the lowest up while a
slot is free and writes whether it did; REFORM files its threads at the next word and frees their lanes; EXIT
ends its threads and frees their slots and lanes; RCV waits. SPAWN to an address with a bit above 51 raises
PROT, to one that is no multiple of 4 ALIGN, and SPAWN and REFORM of a group with a mapped pipe raise PIPEFE. -/
def Obligations.ThreadWords : Prop :=
  (∀ d a b, DoesWhen (.spawn d a b) (fun x => (x.s.core x.core).piped x.g = false ∧
      (x.u64 a.toNat).toNat < 2 ^ 52 ∧ (x.u64 a.toNat).toNat % 4 = 0) fun x =>
    x.ls.foldl (fun s l =>
      let r := s.spawn x.core x.g.gk ((x.u64 a.toNat).setWidth 52) (x.th l).lvl (x.th l).rmode fun n =>
        (List.range 8).foldl (fun (n : Thread) i => n.setV i (x.v (b.toNat + i) l)) n
      x.lanesDo (r.getD s) [l] fun _ th => (th.setV d.toNat (if r.isSome then 1 else 0)).goto (x.pc + 4)) x.s) ∧
  (∀ d a b, DoesWhen (.spawn d a b) (fun x => (x.s.core x.core).piped x.g = true) fun x =>
    x.raise Cause.pipefe) ∧
  (∀ d a b, DoesWhen (.spawn d a b) (fun x => (x.s.core x.core).piped x.g = false ∧
      2 ^ 52 ≤ (x.u64 a.toNat).toNat) fun x => x.raise Cause.prot) ∧
  (∀ d a b, DoesWhen (.spawn d a b) (fun x => (x.s.core x.core).piped x.g = false ∧
      (x.u64 a.toNat).toNat < 2 ^ 52 ∧ (x.u64 a.toNat).toNat % 4 ≠ 0) fun x => x.raise Cause.align) ∧
  (DoesWhen .reform (fun x => (x.s.core x.core).piped x.g = false) fun x =>
    x.left (x.ls.foldl (fun s l =>
      x.modW (s.file x.core x.g (x.slotOf l) (x.pc + 4)) fun w => w.freed l) x.s)) ∧
  (DoesWhen .reform (fun x => (x.s.core x.core).piped x.g = true) fun x => x.raise Cause.pipefe) ∧
  (Does .rcv fun x => x.waitAt x.s x.ls .rcv) ∧
  (Does .exit fun x => x.left x.endThreads) ∧
  (∀ (s : State) core gk g entry lvl rm init, s.group? core gk = some g →
    (∀ t, t < 32 * g.warps.length → (sfind g.threads t).isSome) →
    s.spawn core gk entry lvl rm init = none) ∧
  (∀ (g : Group), g.spawnTid.toNat =
    2 ^ 31 + g.gid.toNat % 2 ^ 15 * 2 ^ 16 + g.spawnCount.toNat)

/-- R234-R237, R295: BAR of level 0 goes on at once; of a level the task has, it waits, counted at once where
the unit lies in the group and by message above it, and a lane without such a unit raises SYNCMASK. That this
holds of level 0 too, for a lane whose thread has no unit of level 0, is read by inference, against the letter
of R234 (log 29). The threads of a unit within the group are released exactly when every live thread of it waits
there. R237: SYNCW of lanes that all name the issuing set goes on at once; of lanes that all name a greater set
of live lanes, none of them waiting, it waits; lanes that name a set without themselves or with a dead lane
raise SYNCMASK. That such steps stand on their own, and when they are taken, is the model's choice (log 2). -/
def Obligations.BarriersAndSyncw : Prop :=
  ((DoesWhen (.bar 0) (fun x => ∀ l ∈ x.ls, x.barOk 0 l = true) fun x =>
    x.settle ((x.lanesDo x.s x.ls fun _ th => th.goto (x.pc + 4)).sync x.core x.g x.slot)) ∧
  (∀ k, k ≠ 0 → DoesWhen (.bar k) (fun x => ∀ l ∈ x.ls, x.barOk k.toNat l = true) fun x =>
    x.settle (x.lanesDo x.s x.ls fun _ th =>
      { th with wait := .bar k.toNat (decide (k.toNat ≤ Rec.groupLevel x.g.record)) })) ∧
  (∀ k, DoesWhen (.bar k) (fun x => ∀ l ∈ x.ls, x.barOk k.toNat l = false) fun x =>
    x.settle (x.park x.s (maskOf x.ls) (Cause.bit Cause.syncmask))) ∧
  (∀ (g : Group) t, t ∈ g.barDone ↔ ∃ th k c, (t, th) ∈ g.threads ∧ th.wait = .bar k c ∧
    k ≤ Rec.groupLevel g.record ∧
    ∀ u uh, (u, uh) ∈ g.threads → uh.lvl.drop k = th.lvl.drop k → ∃ c', uh.wait = .bar k c') ∧
  (∀ core gk s, exec (.barrierArrival core gk) s = .next (s.modGroup core gk fun g =>
    { g with threads := g.threads.map fun (t, th) =>
      (t, match th.wait with | .bar k _ => { th with wait := .bar k true } | _ => th) })) ∧
  (∀ core gk k thread s, s.group? core gk = none → exec (.barrierComplete core gk k thread) s = .next s) ∧
  (∀ core gk k thread s g, s.group? core gk = some g →
    ((sfind g.threads thread).any fun th => th.wait.atBar k.toNat) = true → s.barReady g k.toNat = true →
    exec (.barrierComplete core gk k thread) s = .next
      (let ts := s.unitThreads g k.toNat
       (((ts.map fun e => (e.1, e.2.1)).eraseDups.foldl (fun (s : State) p =>
        s.release p.1 p.2 ((ts.filter fun e => e.1 == p.1 && e.2.1 == p.2).map fun e => e.2.2.1)) s).releaseAway
          g k.toNat))) ∧
  (∀ core gk k thread s g, s.group? core gk = some g → s.barReady g k.toNat = false →
    exec (.barrierComplete core gk k thread) s = .next s)) ∧
  ((∀ a, Does (.syncw a) fun x => x.syncw fun l => x.v a.toNat l) ∧
  (∀ a, Does (.syncwU a) fun x => x.syncw fun _ => x.u a.toNat) ∧
  (∀ (x : Ctx) m, maskLanes x.lanes ≠ [] → x.g.syncWaiters x.w = [] → (∀ l ∈ x.ls, m l = x.lanes) →
    x.lanes &&& ~~~(maskOf (x.g.liveLanes x.w)) = 0 →
    x.syncw m = x.settle (x.lanesDo ((x.lanesDo x.s x.ls fun _ th =>
      { th with pc := th.pc + 4, wait := .none }).sync x.core x.g x.slot) [] fun _ th => th)) ∧
  (∀ (x : Ctx) (k : Mask) m, x.g.syncWaiters x.w = [] → (∀ l ∈ x.ls, m l = k) →
    x.lanes &&& ~~~k = 0 → k ≠ x.lanes → k &&& ~~~(maskOf (x.g.liveLanes x.w)) = 0 →
    x.syncw m = x.settle (x.lanesDo (x.lanesDo x.s [] fun _ th => th) x.ls fun _ th =>
      { th with wait := .syncw k })) ∧
  (∀ (x : Ctx) m, x.g.syncWaiters x.w = [] → (∀ l ∈ x.ls, (m l).getLsbD l = false ∨
      m l &&& ~~~(maskOf (x.g.liveLanes x.w)) ≠ 0) →
    x.syncw m = x.settle (x.park (x.lanesDo (x.lanesDo x.s [] fun _ th => th) [] fun _ th => th)
      (maskOf x.ls) (Cause.bit Cause.syncmask))))

/-- R223-R226, R239: a bin whose timer is 0 is marked; a launch fills the lowest warp slot, free since an
earlier clock, of a group that is not stopping from its ready bin filed earliest, once in a clock of its core;
an expired bin of a group without a free slot is injected into free lanes; a path, or a warp, that has waited
AGEMAX goes next. That such steps stand on their own, and when they are taken, is the model's choice (log 2). -/
def Obligations.Shuffler : Prop :=
  (∀ core bin s, exec (.binTimer core bin) s = .next (s.modCore core fun k => { k with bins := k.bins.map fun b =>
    if b.num = bin ∧ b.timer = 0 then { b with expired := true } else b })) ∧
  (∀ core gk s g slot b, (s.core core).group? gk = some g → g.stop = none → g.launchSlot s.clk = some slot →
    (s.core core).launched ≠ some s.clk →
    minBy (fun b => (b.threads.headD (0, 0)).2)
      ((s.core core).bins.filter fun b => b.gk == gk && (s.core core).binReady b) = some b →
    exec (.warpLaunch core gk) s = .next (((s.modWarp core gk slot fun w =>
      w.launched ((b.threads.take 32).map Prod.fst) s.fresh).modCore core fun k =>
        { k.takeBin b.num 32 g.binTime with launched := some s.clk }).bump)) ∧
  (∀ core gk s, (s.core core).launched = some s.clk → exec (.warpLaunch core gk) s = .next s) ∧
  (∀ core gk s, (s.core core).group? gk = none → exec (.warpLaunch core gk) s = .next s) ∧
  (∀ core gk s g, (s.core core).group? gk = some g → g.stop.isSome = true ∨ g.launchSlot s.clk = none →
    exec (.warpLaunch core gk) s = .next s) ∧
  (∀ core bin s b g, (s.core core).bins.find? (fun b => b.num == bin) = some b →
    (s.core core).group? b.gk = some g → g.stop = none → g.freeSlot = none → b.expired = true →
    exec (.injection core bin) s = .next
      (let ps := b.threads.zip g.freeLanes
       (s.modGroup core b.gk fun g => ps.foldl (fun (g : Group) p =>
          g.modWarp p.2.1 fun w => w.injected p.2.2 p.1.1) g).modCore core fun k =>
            k.takeBin bin ps.length g.binTime)) ∧
  (∀ core bin s, (s.core core).bins.find? (fun b => b.num == bin) = none →
    exec (.injection core bin) s = .next s) ∧
  (∀ core wid s g slot w p, (s.core core).findWid wid = some (g, slot, w) → (s.core core).mayIssue s.clk g = true →
    minBy (fun p => 65536 - w.pathAge p)
      (((g.paths w).map Prod.snd).filter fun p => decide (ageMax ≤ w.pathAge p) && !(s.core core).isStalled w p) = some p →
    exec (.pathAge core wid) s = .next
      { s with agenda := .issue core wid (maskOf p) :: s.agenda }) ∧
  (∀ core wid s, (s.core core).findWid wid = none → exec (.pathAge core wid) s = .next s) ∧
  (∀ core sched s g slot w, ((s.core core).readyWarps s.clk sched).find?
      (fun (_, _, w) => decide (ageMax ≤ w.passed)) = some (g, slot, w) →
    exec (.warpAge core sched) s = .next
      { s.modWarp core g.gk slot fun w => { w with passed := 0 } with
        agenda := (((s.core core).pick g w).map fun p => .issue core w.wid (maskOf p)) ++ s.agenda }) ∧
  (∀ core sched s, (∀ e ∈ (s.core core).readyWarps s.clk sched, e.2.2.passed < ageMax) →
    exec (.warpAge core sched) s = .next s)

/-! ### The Banker, engine programs and queues (R245-R274, R293-R304) -/

/-- R251-R256, R270, R293, R294, R298: a malformed request word raises ILLOP; ACQ.B and ACQ.T of a request that
is grantable now are granted, beyond the claim ACQ.B raises CLAIM, and otherwise ACQ.B waits in order and ACQ.T
goes on with the code; REL returns amounts the group holds; QRY gives holding and claim; HANDOFF passes its
highest pages to a successor whose claim has room; YIELD reloads the budget and offers the gang. -/
def Obligations.BankingWords : Prop :=
  (∀ a, DoesWhen (.acqB a) (fun x => Hold.ofWord (x.u a.toNat).toNat = none) fun x => x.raise Cause.illop) ∧
  (∀ d a, DoesWhen (.acqT d a) (fun x => Hold.ofWord (x.u a.toNat).toNat = none) fun x => x.raise Cause.illop) ∧
  (∀ a, DoesWhen (.rel a) (fun x => Hold.ofWord (x.u a.toNat).toNat = none) fun x => x.raise Cause.illop) ∧
  (∀ a h, DoesWhen (.acqB a) (fun x => Hold.ofWord (x.u a.toNat).toNat = some h ∧
      x.s.judge x.core x.g h = 0) fun x =>
    (x.done (x.s.grantTo x.core x.g.gk h) fun _ th => th).granted x.core x.g x.slot
      (x.s.syncOf x.core x.g.gk x.slot) (x.u a.toNat).toNat) ∧
  (∀ a h, DoesWhen (.acqB a) (fun x => Hold.ofWord (x.u a.toNat).toNat = some h ∧
      x.s.judge x.core x.g h = 3) fun x => x.raise Cause.claim) ∧
  (∀ a h, DoesWhen (.acqB a) (fun x => Hold.ofWord (x.u a.toNat).toNat = some h ∧
      x.s.judge x.core x.g h ≠ 0 ∧ x.s.judge x.core x.g h ≠ 3) fun x =>
    x.waitAt (x.s.modCore x.core fun k => { k with reqs :=
      (k.reqs.filter fun r => !(r.gk == x.g.gk && r.wslot == x.slot && r.lanes &&& x.lanes != 0)) ++
        [⟨x.g.gk, x.slot, x.lanes, x.u a.toNat, x.s.clk, false, x.s.syncOf x.core x.g.gk x.slot⟩] }) x.ls .bank) ∧
  (∀ d a h, DoesWhen (.acqT d a) (fun x => Hold.ofWord (x.u a.toNat).toNat = some h ∧
      x.s.judge x.core x.g h = 0) fun x =>
    (x.doneW (x.s.grantTo x.core x.g.gk h) fun w => w.setU d.toNat 0).granted x.core x.g x.slot
      (x.s.syncOf x.core x.g.gk x.slot) (x.u a.toNat).toNat) ∧
  (∀ d a h, DoesWhen (.acqT d a) (fun x => Hold.ofWord (x.u a.toNat).toNat = some h ∧
      x.s.judge x.core x.g h ≠ 0) fun x =>
    x.doneW x.s fun w => w.setU d.toNat (BitVec.ofNat 32 (x.s.judge x.core x.g h))) ∧
  (∀ a h, DoesWhen (.rel a) (fun x => Hold.ofWord (x.u a.toNat).toNat = some h ∧ x.relCause h = none) fun x =>
    (x.done (x.s.giveBack x.core x.g h) fun _ th => th).recordOf x.core x.g x.slot
      (.bank true (x.u a.toNat).toNat)) ∧
  (∀ a h c, DoesWhen (.rel a) (fun x => Hold.ofWord (x.u a.toNat).toNat = some h ∧ x.relCause h = some c)
    fun x => x.raise c) ∧
  (∀ d, Does (.qry d) fun x => x.doneW x.s fun w =>
    (w.setU d.toNat (BitVec.ofNat 32 x.g.holds.toNat)).setU (d.toNat + 1) (BitVec.ofNat 32 x.g.claim.toNat)) ∧
  (∀ a b, DoesWhen (.handoff a b) (fun x => x.u a.toNat = 0 ∧ x.s.recorderOf x.g.gang = none) fun x =>
    x.done x.s fun _ th => th) ∧
  (∀ a b h, DoesWhen (.handoff a b) (fun x => x.u a.toNat ≠ 0 ∧ x.s.recorderOf x.g.gang = none ∧
      ¬(bitAt (x.u b.toNat) 31 = true ∧ fld (x.u b.toNat) 30 2 ≠ 0) ∧ x.successor (x.u b.toNat) = some h ∧
      x.s.tilePages x.g + (x.u a.toNat).toNat ≤ x.g.pages.length ∧
      h.pages.length + (x.u a.toNat).toNat ≤ h.claim.pages) fun x =>
    x.done (x.passPages x.s (x.u a.toNat).toNat h) fun _ th => th) ∧
  (∀ a b, DoesWhen (.handoff a b) (fun x => x.u a.toNat ≠ 0 ∧ x.s.recorderOf x.g.gang = none ∧
      ¬(bitAt (x.u b.toNat) 31 = true ∧ fld (x.u b.toNat) 30 2 ≠ 0) ∧ x.successor (x.u b.toNat) = none) fun x =>
    x.raise Cause.prot) ∧
  (Does .yield fun x =>
    let s := x.modG (x.done x.s fun _ th => th) fun g =>
      { g with budget := Rec.budget (x.s.leadOf x.g), budgetRaised := false }
    s.offer x.core (x.g' s))

/-- R252, R253, R260, R270: a request that has waited 4096 clocks at the front becomes the head; the Banker
grants what is grantable, in order, to the lanes that asked, and nothing to a gang that is stopping; a budget
that reaches 0 raises BUDGET in each warp, deferred or not. That such steps stand on their own, and when they
are taken, is the model's choice (log 2). -/
def Obligations.BankerSteps : Prop :=
  (∀ core s r l, (s.core core).headReq = none → (s.core core).waiting = r :: l → r.since + 4096 ≤ s.clk →
    exec (.head core) s = .next (s.modCore core fun k =>
      { k with reqs := k.reqs.map fun q => if q = r then { q with isHead := true } else q })) ∧
  (∀ core s, (s.core core).waiting = [] → exec (.head core) s = .next s) ∧
  (∀ core s r l, (s.core core).waiting = r :: l → s.clk < r.since + 4096 → exec (.head core) s = .next s) ∧
  (∀ core s, exec (.grant core) s = .next
    (let t := s.modCore core fun k => { k with reqs := k.waiting }
     (t.core core).reqs.foldl (fun (u : State) r => u.tryGrant core r) t)) ∧
  (∀ (s : State) core r g h, s.group? core r.gk = some g → Hold.ofWord r.word.toNat = some h →
    (s.core core).waits r = true → s.judge core g h = 0 →
    s.tryGrant core r = ((((s.grantTo core r.gk h).modCore core fun k =>
      { k with reqs := k.reqs.filter (· != r) }).modGroup core r.gk fun g =>
        g.resume r.wslot r.lanes fun k => k == Wait.bank).granted core g r.wslot r.fence r.word.toNat).replayGranted g) ∧
  (∀ (s : State) core r g, s.group? core r.gk = some g → g.stop.isSome = true → s.tryGrant core r = s) ∧
  (∀ core gk s, s.group? core gk = none → exec (.budget core gk) s = .next s) ∧
  (∀ core gk s g, s.group? core gk = some g → g.budget ≠ 0 ∨ g.budgetRaised = true →
    exec (.budget core gk) s = .next s) ∧
  (∀ core gk s g, s.group? core gk = some g → g.budget = 0 → g.budgetRaised = false → g.replay = false →
    Rec.budget (s.leadOf g) ≠ 0 → exec (.budget core gk) s = .next ((g.warps.zipIdx).foldl
      (fun (t : State) e => t.budgetWarp core g e.2 e.1)
      (s.modGroup core gk fun g => { g with budgetRaised := true })))

/-- R274, R299-R302: FORK starts a sequencer on a program that lies in the group's window and is 8-byte aligned,
raising ALIGN or PROT otherwise and stalling until one of its kind has finished; RDV without a fork goes on,
with one it arrives; TQ enters its operation as often as its entry says; a sequencer's step performs its current
entry, as it was read when it was reached, and then every instance of a rendezvous of its fork that has all its
parties completes. That a TQ word which is a form of both sequencers is taken as a matrix one, and that a
stalled TQ keeps count of what it has entered, is read by inference (log 39). That such steps stand on their
own, and when they are taken, is the model's choice (log 2). -/
def Obligations.EnginePrograms : Prop :=
  (∀ w a, DoesWhen (.forkMx w a none) (fun x => (x.u a.toNat).toNat % 8 = 0 ∧
      (x.u a.toNat).toNat < x.g.pages.length * 4096 ∧
      (∀ q ∈ (x.s.core x.core).seqs, q.copy = true ∨ q.finished = true)) fun x =>
    (x.done x.s.bump fun _ th => th).modCore x.core fun k => { k with seqs := k.seqs ++
      [{ gk := x.g.gk, wslot := x.slot, off := (x.u a.toNat).toNat, idx := 0, cur := none, rep := none, copy := false,
         fork := x.s.fresh, atRdv := none, finished := false, failed := none, tok := none, w := w.toNat,
         lanes := x.lanes, threads := x.ls.map x.slotOf, fence := x.w.sync, met := false }] }) ∧
  (∀ w a t, DoesWhen (.forkCp w a (some t)) (fun x => (x.u a.toNat).toNat % 8 = 0 ∧
      (x.u a.toNat).toNat < x.g.pages.length * 4096 ∧
      (∀ q ∈ (x.s.core x.core).seqs, q.copy = false ∨ q.finished = true)) fun x =>
    ((x.done x.s.bump fun _ th => th).modCore x.core fun k => { k with seqs := k.seqs ++
      [{ gk := x.g.gk, wslot := x.slot, off := (x.u a.toNat).toNat, idx := 0, cur := none, rep := none, copy := true,
         fork := x.s.fresh, atRdv := none, finished := false, failed := none, tok := some t.toNat, w := w.toNat,
         lanes := x.lanes, threads := x.ls.map x.slotOf, fence := x.w.sync, met := false }] }).pendTok x.core x.g.gk
      (x.slot, t.toNat)) ∧
  (∀ w a t, Does (.forkMx w a t) fun x => x.fork w t [(false, (x.u a.toNat).toNat)]) ∧
  (∀ w a t, Does (.forkCp w a t) fun x => x.fork w t [(true, (x.u a.toNat).toNat)]) ∧
  (∀ w a t, Does (.forkBoth w a t) fun x =>
    x.fork w t [(false, (x.u a.toNat).toNat), (true, (x.u (a.toNat + 1)).toNat)]) ∧
  (∀ (x : Ctx) w t p ps, p.2 % 8 ≠ 0 → x.fork w t (p :: ps) = x.raise Cause.align) ∧
  (∀ (x : Ctx) w t p ps, p.2 % 8 = 0 → x.g.pages.length * 4096 ≤ p.2 →
    x.fork w t (p :: ps) = x.raise Cause.prot) ∧
  (∀ (x : Ctx) w t c off, off % 8 = 0 → off < x.g.pages.length * 4096 →
    (∃ q ∈ (x.s.core x.core).seqs, q.copy = c ∧ q.finished = false) → x.fork w t [(c, off)] = x.stall x.s (.seq c)) ∧
  (∀ n, DoesWhen (.rdv n) (fun x => ∀ q ∈ (x.s.core x.core).seqs, q.gk ≠ x.g.gk) fun x =>
    (x.done x.s fun _ th => th).sync x.core x.g x.slot) ∧
  (∀ n, DoesWhen (.rdv n) (fun x => ∃ q ∈ (x.s.core x.core).seqs, q.gk = x.g.gk) fun x =>
    ((x.s.core x.core).seqs.filter fun q => q.gk == x.g.gk).foldl
      (fun (s : State) q => s.rendezvous x.core q rdvFuel)
      (x.waitAt x.s.bump x.ls (.rdv n.toNat x.s.fresh))) ∧
  (∀ a, DoesWhen (.tq a) (fun x => seqEntry false ((x.u64 a.toNat).toNat % 2 ^ 63) = none ∧
      seqEntry true ((x.u64 a.toNat).toNat % 2 ^ 63) = none) fun x => x.raise Cause.illop) ∧
  (∀ a i reps last mk, engineWord i = some mk → DoesWhen (.tq a) (fun x =>
      (seqEntry false ((x.u64 a.toNat).toNat % 2 ^ 63) = some (i, reps, last) ∨
        (seqEntry false ((x.u64 a.toNat).toNat % 2 ^ 63) = none ∧
          seqEntry true ((x.u64 a.toNat).toNat % 2 ^ 63) = some (i, reps, last))) ∧
      (∀ e ∈ x.w.tqs, e.isOf x = false) ∧ gate i x = .go ∧ x.s.opCheck x.core x.g (x.w.opOf i) = none) fun x => x.tqOp i reps) ∧
  (∀ core c s, (∀ q ∈ (s.core core).seqs, q.copy ≠ c ∨ q.finished = true) →
    exec (.sequencerEntry core c) s = .next s) ∧
  (∀ core c s q, (s.core core).seqs.find? (fun q => q.copy == c && !q.finished) = some q →
    exec (.sequencerEntry core c) s = .next ((s.seqStep core q).rendezvous core q rdvFuel)) ∧
  (∀ (s : State) core q g w e i reps last, s.group? core q.gk = some g → g.warp? q.wslot = some w →
    g.stop = none → q.finished = false → (s.core core).entering g.gang = false → q.failed = none →
    (∀ r ∈ (s.core core).seqs, q.forks r = true → r.failed = none) → q.idx < 256 →
    s.seqAt core g q q.idx = .ok e → seqEntry q.copy e = some (i, reps, last) →
    s.seqStep core q =
      (s.modSeq core q fun r => { r with cur := some e }).seqPerform core g { q with cur := some e } w i reps last) ∧
  (∀ (s : State) core q g, s.group? core q.gk = some g → (s.core core).entering g.gang = true →
    s.seqStep core q = s) ∧
  (∀ (s : State) core g q e, q.cur = some e → s.seqAt core g q q.idx = .ok e) ∧
  (∀ (s : State) core q n k, (List.range 8).find? (s.rdvReady core q) = some k →
    s.rendezvous core q (n + 1) = (s.rdvPass core q k).rendezvous core q n) ∧
  (∀ (s : State) core q n, (∀ k, k < 8 → s.rdvReady core q k = false) → s.rendezvous core q n = s)

/-- R303, R304, R267, R268: ENQ submits lane by lane from the lowest lane up; a remote one awaits its
acknowledgement, which lowers the sender's count and writes the result, unless its thread has ended; while the
count's page is being moved the push keeps its answer, and every clock tries again (R321, log 66); a push from
another module is accepted where its queue has room, and refused without an export record for its sender. That
such steps stand on their own, and when they are taken, is the model's choice (log 2). -/
def Obligations.QueueSubmission : Prop :=
  (∀ d a b, Does (.enq d a b) fun x => x.perLane x.ls .none fun s l => x.enqLane d a b s l) ∧
  (∀ (x : Ctx) d a b s l, (x.v64 a.toNat l).toNat % 128 ≠ 0 → x.enqLane d a b s l = .bad s Cause.align) ∧
  (∀ (x : Ctx) d a b s l bs, (x.v64 a.toNat l).toNat % 128 = 0 →
    s.loadWords x.space x.die (x.v64 a.toNat l).toNat 16 = .ok bs → qwordBad (x.v b.toNat l).toNat = true →
    x.enqLane d a b s l = .bad (s.touchSpan x.space x.die (x.v64 a.toNat l).toNat 128) Cause.prot) ∧
  (∀ acc s, (∀ p ∈ s.pushes, p.answer.isSome = true) → exec (.pushAcknowledgement acc) s = .next s) ∧
  (∀ acc s p r t, s.pushes = p :: r → p.answer = none → State.pushDone { s with pushes := r } p = .ok t () →
    exec (.pushAcknowledgement acc) s = .next (t.pushResult p acc)) ∧
  (∀ acc s p r, s.pushes = p :: r → p.answer = none → p ∉ r → State.pushDone { s with pushes := r } p = .wait →
    exec (.pushAcknowledgement acc) s = .next { s with pushes := { p with answer := some acc } :: r }) ∧
  (∀ acc (s : State) p t, s.pushes = [p] → p.answer = some acc → State.pushDone { s with pushes := [] } p = .ok t () →
    s.answeredPushes = t.pushResult p acc) ∧
  (∀ (s : State) p g acc, s.group? p.core p.gk = some g → g.replay = false → s.recorderOf g.gang = none →
    p.live = false → s.pushResult p acc = s) ∧
  (∀ (s : State) p g acc, s.group? p.core p.gk = some g → g.replay = false → s.recorderOf g.gang = none →
    p.live = true → (s.core p.core).pipes = [] → State.pushResult s p acc = s.modGroup p.core p.gk fun g => (g.modThread p.slot fun th =>
      { th with vr := sset th.vr p.d (if acc then 0 else 2) 0, vpoison := th.vpoison.filter (· != p.d),
                vpend := eraseOne th.vpend p.d }).answered p.slot) ∧
  (∀ ep q rec s t, s.takePush ep q.toNat rec = .ok t true →
    exec (.remotePush ep q rec) s = .next (t.reply .ack)) ∧
  (∀ ep q rec s t, s.takePush ep q.toNat rec = .ok t false →
    exec (.remotePush ep q rec) s = .next (t.reply .refused)) ∧
  (∀ ep q rec s, s.takePush ep q.toNat rec = .wait →
    exec (.remotePush ep q rec) s = .next { s with heldPushes := s.heldPushes ++ [(ep, q, rec)] }) ∧
  (∀ ep q rec (s : State), s.exported ep 21 0 0 = false → s.takePush ep q rec = .ok s false)

/-! ### Pipes, fetches and the instruction buffer (R38, R46, R48, R398-R400) -/

/-- R38, R227: PIPE.map gives the warp slot an empty partner mask in a pipe that the group is an end of, a slot
already mapped as it was; PIPE.unmap takes the slot out of the pipe, of a slot that was not mapped it changes
nothing, and of a mapped one the lanes of that slot in the pipe's ends that wait on the pipe raise PIPEFE, none
where none waits, a lane counting as waiting on every pipe that its instruction names (log 93); PIPE.qry writes
the mask of pipe bits of register 0, 0 where the slot is not mapped, and 0, raising nothing, in a group that is
no end of the pipe (R305). A pipe the gang does not declare raises ILLOP, for map and unmap one whose ends are
other members PROT, and map in a group with a thread in a bin PIPEFE. -/
def Obligations.PipeWords : Prop :=
  (∀ k q, DoesWhen (.pipeMap k) (fun x => x.pipe? k.toNat = some q ∧ q.ends x.g.member = true ∧
      (∀ b ∈ (x.s.core x.core).bins, b.gk ≠ x.g.gk) ∧ sfind q.maps x.slot = none) fun x =>
    x.done (x.s.modPipe x.core x.g.gang k.toNat fun q => { q with maps := sput q.maps x.slot [] }) fun _ th => th) ∧
  (∀ k q, DoesWhen (.pipeMap k) (fun x => x.pipe? k.toNat = some q ∧ q.ends x.g.member = true ∧
      (∀ b ∈ (x.s.core x.core).bins, b.gk ≠ x.g.gk) ∧ (sfind q.maps x.slot).isSome = true) fun x =>
    x.done x.s fun _ th => th) ∧
  (∀ k q, DoesWhen (.pipeMap k) (fun x => x.pipe? k.toNat = some q ∧ q.ends x.g.member = true ∧
      (∃ b ∈ (x.s.core x.core).bins, b.gk = x.g.gk)) fun x => x.raise Cause.pipefe) ∧
  (∀ k, DoesWhen (.pipeMap k) (fun x => x.pipe? k.toNat = none) fun x => x.raise Cause.illop) ∧
  (∀ k q, DoesWhen (.pipeMap k) (fun x => x.pipe? k.toNat = some q ∧ q.ends x.g.member = false) fun x =>
    x.raise Cause.prot) ∧
  (∀ k q, DoesWhen (.pipeUnmap k) (fun x => x.pipe? k.toNat = some q ∧ q.ends x.g.member = true ∧
      sfind q.maps x.slot = none) fun x =>
    x.done (x.s.modPipe x.core x.g.gang k.toNat fun q => { q with maps := sdel q.maps x.slot }) fun _ th => th) ∧
  (∀ k q, DoesWhen (.pipeUnmap k) (fun x => x.pipe? k.toNat = some q ∧ q.ends x.g.member = true ∧
      (sfind q.maps x.slot).isSome = true ∧
      ∀ h ∈ (x.s.core x.core).gangGroups x.g.gang, q.ends h.member = true → ∀ w, h.warp? x.slot = some w →
        ∀ l ∈ h.liveLanes w, ∀ t, h.laneThread w l = some t → t.wait.onPipe k.toNat = false) fun x =>
    x.done (x.s.modPipe x.core x.g.gang k.toNat fun q => { q with maps := sdel q.maps x.slot }) fun _ th => th) ∧
  (∀ k q, DoesWhen (.pipeUnmap k) (fun x => x.pipe? k.toNat = some q ∧ q.ends x.g.member = true ∧
      (sfind q.maps x.slot).isSome = true) fun x =>
    (((x.s.core x.core).gangGroups x.g.gang).filter fun h => q.ends h.member).foldl
      (fun (s : State) (h : Group) =>
        match h.warp? x.slot with
        | none => s
        | some w => s.parkLanes x.core h.gk x.slot
            ((h.liveLanes w).filter fun l => (h.laneThread w l).any fun t => t.wait.onPipe k.toNat)
            (Cause.bit Cause.pipefe))
      (x.done (x.s.modPipe x.core x.g.gang k.toNat fun q => { q with maps := sdel q.maps x.slot })
        fun _ th => th)) ∧
  (∀ k, DoesWhen (.pipeUnmap k) (fun x => x.pipe? k.toNat = none) fun x => x.raise Cause.illop) ∧
  (∀ k q, DoesWhen (.pipeUnmap k) (fun x => x.pipe? k.toNat = some q ∧ q.ends x.g.member = false) fun x =>
    x.raise Cause.prot) ∧
  (∀ d k q, DoesWhen (.pipeQry d k) (fun x => x.pipe? k.toNat = some q ∧ q.ends x.g.member = true) fun x =>
    x.doneW x.s fun w => w.setU d.toNat (sget (sget q.maps x.slot []) 0 0)) ∧
  (∀ d k q, DoesWhen (.pipeQry d k) (fun x => x.pipe? k.toNat = some q ∧ q.ends x.g.member = false) fun x =>
    x.doneW x.s fun w => w.setU d.toNat 0) ∧
  (∀ d k, DoesWhen (.pipeQry d k) (fun x => x.pipe? k.toNat = none) fun x => x.raise Cause.illop)

/-! ### Tapes (R354-R358, R401, R402) -/

/-- R354-R358, R401, R402: ARM of a tape that records or has users answers 1 and changes nothing, of a space
that starts below entry 64, is shorter than 25 entries or passes entry 65,536 it answers 2, of a space that
meets another tape's 3, of a malformed block 4; otherwise it leaves the tape ARMED, without users, at its base
and capacity, and answers 0. OFF leaves a tape OFF, its record otherwise kept. QUERY changes nothing. TAPE.ARM,
TAPE.OFF and TAPE.QRY send their operation to the grove's Talon, their registers pending; the Talon performs
what it was sent in order, and writes the status, or the record and the command count. A tape above 63 raises
ILLOP, a block that is not 32-byte aligned ALIGN. An operation that meets poison in what it reads is not
performed, and its destination registers fail with DATAERR (R382), as tokens do by the model's choice (log 101).
That the Talon performs the oldest operation sent in a step of its own, and that an ARM, OFF or QUERY which no
TAPE word has sent is the control plane's, is read by inference and the model's choice (logs 47 and 2). -/
def Obligations.TapeDirectory : Prop :=
  (∀ (s : State) g n base cap blk, tapeBusy (s.entry g n) → s.armTape g n base cap blk = (s, 1)) ∧
  (∀ (s : State) g n base cap blk, ¬ tapeBusy (s.entry g n) →
    base < 64 ∨ cap < 25 ∨ 65536 < base + cap → s.armTape g n base cap blk = (s, 2)) ∧
  (∀ (s : State) g n base cap blk m, ¬ tapeBusy (s.entry g n) → 64 ≤ base → 25 ≤ cap →
    base + cap ≤ 65536 → m < 64 → m ≠ n → Dir.state (s.entry g m) ≠ 0 →
    base < Dir.base (s.entry g m) + Dir.cap (s.entry g m) → Dir.base (s.entry g m) < base + cap →
    s.armTape g n base cap blk = (s, 3)) ∧
  (∀ (s : State) g n base cap blk, ¬ tapeBusy (s.entry g n) → 64 ≤ base → 25 ≤ cap →
    base + cap ≤ 65536 → s.tapeClash g n base cap = false →
    nbits blk 255 152 ≠ 0 ∨ (∃ k, k < 8 ∧ 4 < nbits blk (130 + 3 * k) (128 + 3 * k)) →
    s.armTape g n base cap blk = (s, 4)) ∧
  (∀ (s : State) g n base cap blk, ¬ tapeBusy (s.entry g n) → 64 ≤ base → 25 ≤ cap →
    base + cap ≤ 65536 → s.tapeClash g n base cap = false → nbits blk 255 152 = 0 →
    (∀ k, k < 8 → nbits blk (130 + 3 * k) (128 + 3 * k) ≤ 4) →
    ∃ t : State, s.armTape g n base cap blk = (t.setEntry g n (Dir.mk 1 0 0 base cap), 0)) ∧
  (∀ (s : State) g n, tapeBusy (s.entry g n) → s.offTape g n = (s, 1)) ∧
  (∀ (s : State) g n, ¬ tapeBusy (s.entry g n) → s.poisoned (entryKey g n) 8 = false →
    s.offTape g n = (s.setEntry g n (Dir.withState (s.entry g n) 0 (Dir.why (s.entry g n))), 0)) ∧
  (∀ g n base cap blk s, n < 64 → s.tapeHead g = none → s.tapeLost g n (.arm base cap blk) = false →
    exec (.arm g n base cap blk) s = .next (s.armTape g n base cap blk.toNat).1) ∧
  (∀ g n s, n < 64 → s.tapeHead g = none → s.poisoned (entryKey g n) 8 = false →
    exec (.off g n) s = .next (s.offTape g n).1) ∧
  (∀ g n s base cap blk, n < 64 → s.tapeHead g = none → s.poisoned (entryKey g n) 8 = true →
    exec (.arm g n base cap blk) s = .next s ∧ exec (.off g n) s = .next s) ∧
  (∀ g n s, s.tapeHead g = none → exec (.query g n) s = .next s) ∧
  (∀ g s o, s.tapeHead g = some o → o.tape < 64 → s.tapeLost g o.tape o.kind = false → exec o.step s = .next (
    let r := State.tapeDo { s with tapeOps := s.tapeOps.erase o } g o.tape o.kind
    r.1.tapeAnswer o r.2)) ∧
  (∀ g s o, s.tapeHead g = some o → o.tape < 64 → s.tapeLost g o.tape o.kind = true → exec o.step s = .next (
    if o.d = goneReg then { s with tapeOps := s.tapeOps.erase o }
    else (upto o.d o.kind.regs).foldl (fun (t : State) r => t.writeTok o.core o.gk (o.wslot, r) (tokFail Cause.dataerr))
      { s with tapeOps := s.tapeOps.erase o })) ∧
  (∀ (s : State) g n base cap blk, s.poison = [] → s.tapeLost g n (.arm base cap blk) = false ∧
    s.tapeLost g n .off = false ∧ s.tapeLost g n .query = false) ∧
  (∀ (s : State) o v, o.d < 64 → s.tapeAnswer o [v] = s.modWarp o.core o.gk o.wslot fun w =>
    { w.setU o.d (BitVec.ofNat 32 v) with
      upend := eraseOne w.upend o.d, stalls := w.stalls.filter fun e => e.2 != .token }) ∧
  (∀ (s : State) g n, let r := s.entry g n
    s.tapeDo g n .query = (s, [r % 2 ^ 32, r / 2 ^ 32 % 2 ^ 32, nbits (s.entry g (Dir.base r)) 31 0, 0])) ∧
  (∀ d a b bs, DoesWhen (.tapeArm d a b) (fun x => (x.u b.toNat).toNat < 64 ∧ (x.u64 a.toNat).toNat % 32 = 0 ∧
      x.s.loadWords x.space x.die (x.u64 a.toNat).toNat 4 = .ok bs) fun x =>
    let w := x.u (b.toNat + 1)
    let t := x.doneW ((x.s.touchSpan x.space x.die (x.u64 a.toNat).toNat 32).abandon x.g.gang 2) fun w =>
      { w with upend := w.upend ++ [d.toNat] }
    { t with tapeOps := t.tapeOps ++ [⟨x.grove, (x.u b.toNat).toNat,
        .arm (fld w 15 0) (fld w 31 16) (BitVec.ofNat 256 (leNat bs)), x.core, x.g.gk, x.slot, d.toNat⟩] }) ∧
  (∀ d b, DoesWhen (.tapeOff d b) (fun x => (x.u b.toNat).toNat < 64) fun x =>
    let t := x.doneW (x.s.abandon x.g.gang 2) fun w => { w with upend := w.upend ++ [d.toNat] }
    { t with tapeOps := t.tapeOps ++ [⟨x.grove, (x.u b.toNat).toNat, .off, x.core, x.g.gk, x.slot, d.toNat⟩] }) ∧
  (∀ d b, DoesWhen (.tapeQry d b) (fun x => (x.u b.toNat).toNat < 64) fun x =>
    let t := x.doneW (x.s.abandon x.g.gang 2) fun w =>
      { w with upend := w.upend ++ [d.toNat, d.toNat + 1, d.toNat + 2, d.toNat + 3] }
    { t with tapeOps := t.tapeOps ++ [⟨x.grove, (x.u b.toNat).toNat, .query, x.core, x.g.gk, x.slot, d.toNat⟩] }) ∧
  (∀ d a b, DoesWhen (.tapeArm d a b) (fun x => (x.u b.toNat).toNat < 64 ∧ (x.u64 a.toNat).toNat % 32 ≠ 0) fun x =>
    x.raise Cause.align) ∧
  (∀ i d a b, i = Instr.tapeArm d a b ∨ i = Instr.tapeOff d b ∨ i = Instr.tapeQry d b →
    DoesWhen i (fun x => 64 ≤ (x.u b.toNat).toNat) fun x => x.raise Cause.illop)

/-! ### The words of a tile (R309-R313) -/

/-- R309-R313: PLD and PST act lane by lane on the plane they name of the issuing group's tile, a 16-bit channel
read as it stands; a group without a tile raises PROT, a plane the draw does not have ILLOP, a channel the plane
does not have PROT, a store to a block-scaled plane FMTSTORE. SAMPLE acts lane by lane and refuses a LAYOUT 2
descriptor. BLEND acts on the lane's own pixel, waits for the fragments before it, and refuses another pixel or
a thread that is no fragment. TDONE waits for the write-back. DCMP checks its descriptor's alignment and the
block number. That a descriptor which is not 256-byte aligned raises ALIGN (log 55), and that a recording is
abandoned only where such a word is performed (log 52), is read by inference. -/
def Obligations.TileWords : Prop :=
  (∀ d a p e, DoesWhen (.pld d a p) (fun x => x.s.ownDesc x.g = some e ∧
      p.toNat < DrawD.npl e) fun x =>
    x.perLane (x.s.laneOrder x.ls) .none fun s l => (x.pldLane d a (DrawD.plane e p.toNat) s l).untaped x.g.gang) ∧
  (∀ d a p e, DoesWhen (.pst d a p) (fun x => x.s.ownDesc x.g = some e ∧
      p.toNat < DrawD.npl e) fun x =>
    x.perLane (x.s.laneOrder x.ls) .none fun s l => (x.pstLane d a (DrawD.plane e p.toNat) s l).untaped x.g.gang) ∧
  (∀ i d a p, i = Instr.pld d a p ∨ i = Instr.pst d a p →
    DoesWhen i (fun x => x.s.ownDesc x.g = none) fun x =>
      x.raise Cause.prot) ∧
  (∀ i d a p e, i = Instr.pld d a p ∨ i = Instr.pst d a p →
    DoesWhen i (fun x => x.s.ownDesc x.g = some e ∧ DrawD.npl e ≤ p.toNat) fun x =>
      x.raise Cause.illop) ∧
  (∀ (x : Ctx) d a e s l bs t, planeFmt e = 0 → nbits (x.v a.toNat l).toNat 21 16 < planeChan e →
    s.loadBytes x.space x.die (lsWindow + planeOffs e +
      (nbits (x.v a.toNat l).toNat 9 0 * planeChan e + nbits (x.v a.toNat l).toNat 21 16) * 2) 2 = .ok (t, bs) →
    ∃ f, x.pldLane d a e s l = .ok s f [] ∧ ∀ th, f th = th.setV d.toNat (BitVec.ofNat 32 (leNat bs))) ∧
  (∀ (x : Ctx) d a e s l, planeFmt e = 1 → nbits (x.v a.toNat l).toNat 21 16 < planeChan e →
    x.pstLane d a e s l = .bad s Cause.fmtstore) ∧
  (∀ (x : Ctx) d a e s l, (planeFmt e < 2 → planeChan e ≤ nbits (x.v a.toNat l).toNat 21 16) →
    (2 ≤ planeFmt e → 1 ≤ nbits (x.v a.toNat l).toNat 21 16) →
    x.pldLane d a e s l = .bad s Cause.prot ∧ x.pstLane d a e s l = .bad s Cause.prot) ∧
  (∀ c f d t b, DoesWhen (.sample c f d t b) (fun x => Dsc.layout (x.w.t t.toNat) ≠ 2) fun x =>
    x.perLane (x.s.laneOrder x.ls) .none fun s l => x.sampleLane c f d (x.w.t t.toNat) b s l) ∧
  (∀ c f d t b, DoesWhen (.sample c f d t b) (fun x => Dsc.layout (x.w.t t.toNat) = 2) fun x =>
    x.raise Cause.illop) ∧
  (∀ op a b d o, DoesWhen (.blend op a b) (fun x => x.s.ownDesc x.g = some d ∧
      x.g.tile = some o) fun x =>
    x.perLane (x.s.laneOrder x.ls) (.retry (.blend op a b) x.s.stepNo) fun s l =>
      (x.blendLane op a b d o s l).untaped x.g.gang) ∧
  (∀ op a b, DoesWhen (.blend op a b) (fun x => x.s.ownDesc x.g = none) fun x =>
    x.raise Cause.prot) ∧
  (∀ (x : Ctx) op a b d o s l, (x.th l).frag = none → x.blendLane op a b d o s l = .bad s Cause.prot) ∧
  (∀ (x : Ctx) op a b d o s l f, (x.th l).frag = some f → f.q ≠ nbits (x.v a.toNat l).toNat 9 0 →
    x.blendLane op a b d o s l = .bad s Cause.prot) ∧
  (∀ (x : Ctx) op a b d o s l f, (x.th l).frag = some f → f.q = nbits (x.v a.toNat l).toNat 9 0 →
    (x.g' s).fragBefore o f = true → x.blendLane op a b d o s l = .hold s) ∧
  (∀ s d a, blendChan .rep s d a = s ∧ blendChan .add s d a = min 255 (s + d) ∧
    blendChan .mul s d a = (s * d + 127) / 255 ∧
    blendChan .over s d a = min 255 (s + (d * (255 - a) + 127) / 255)) ∧
  (∀ d, DoesWhen .tdone (fun x => x.s.ownDesc x.g = some d) fun x =>
    x.waitAt (x.s.modOwn x.core x.g.gk fun o => { o with tdone := true }) x.ls .tdone) ∧
  (DoesWhen .tdone (fun x => x.s.ownDesc x.g = none) fun x =>
    x.raise Cause.prot) ∧
  (∀ a b, Does (.dcmp a b) fun x =>
    x.perLane (x.s.laneOrder x.ls) .none fun s l => (x.dcmpLane a b s l).untaped x.g.gang) ∧
  (∀ gang (s : State) f r, LaneRes.untaped gang (.ok s f r) = .ok (s.abandon gang 2) f r) ∧
  (∀ (x : Ctx) a b s l, (x.u64 a.toNat).toNat % 256 ≠ 0 → x.dcmpLane a b s l = .bad s Cause.align) ∧
  (∀ (x : Ctx) a b s l bs, (x.u64 a.toNat).toNat % 256 = 0 →
    s.loadWords x.space x.die (x.u64 a.toNat).toNat 32 = .ok bs →
    16 * DrawD.tiles (BitVec.ofNat 2048 (leNat bs)) ≤ (x.v b.toNat l).toNat →
    x.dcmpLane a b s l = .bad (s.touchSpan x.space x.die (x.u64 a.toNat).toNat 256) Cause.prot)

/-! ### The scheduler (R222, R264-R269) -/

/-- R222, R264, R267-R269, R316: a group whose last thread has exited and whose engine work is done, committed
primitives among it, leaves its core, its task having one live group fewer; a record of a queue above 511, of a
disabled queue, or without VALID is left alone, and one that breaks a rule of R264 is consumed and answered, its
job's count lowered first (log 66: held while that count cannot be reached, left for later while its page is
being moved); a well-formed record without a gang table becomes a task with as many groups as it says, and the
head of a queue that is a task already is not checked again; a record is admitted only while it is the chosen
candidate and cores that can take it are found, unless its launch decision waits or meets poison, which holds it
(R382, log 101); a task without an edge completes when no group of it lives and its job's count falls, and stays
while it does not. That a hold's event record is sent once (log 48), and that a record with SIGNAL 0 completes
whatever its EDGE list holds (log 56), is read by inference. That such steps stand on their own, and when they
are taken, is the model's choice (log 2). -/
def Obligations.SchedulerSteps : Prop :=
  (∀ core gk s, s.group? core gk = none → exec (.groupEnd core gk) s = .next s) ∧
  (∀ core gk s g, s.group? core gk = some g → g.replay = false → g.stop = none → g.threads = [] → g.backlog = [] →
    (∀ e ∈ (s.core core).mq ++ (s.core core).cq, e.gk ≠ g.gk) → (∀ q ∈ (s.core core).seqs, q.gk ≠ g.gk) →
    (∀ d ∈ s.draws, d.ctx = g.ctx → ∀ a ∈ d.accepted, d.next ≤ a.s → a.task = g.task → a.gid ≠ g.gid) →
    g.tile = none →
    exec (.groupEnd core gk) s = .next ((s.leave core gk true).taskLess g.task 1)) ∧
  (∀ core gk s g o, s.group? core gk = some g → g.replay = false → g.stop = none → g.threads = [] → g.backlog = [] →
    (∀ e ∈ (s.core core).mq ++ (s.core core).cq, e.gk ≠ g.gk) → (∀ q ∈ (s.core core).seqs, q.gk ≠ g.gk) →
    (∀ d ∈ s.draws, d.ctx = g.ctx → ∀ a ∈ d.accepted, d.next ≤ a.s → a.task = g.task → a.gid ≠ g.gid) →
    g.tile = some o → o.closed = true ∨ o.waveDone = true →
    exec (.groupEnd core gk) s =
      .next (((s.leave core gk true).taskLess g.task 1).emit (.tileEnd o.draw o.tile))) ∧
  (∀ core gk s g, s.group? core gk = some g → g.replay = false →
    g.stop.isSome = true ∨ g.threads ≠ [] ∨ g.backlog ≠ [] ∨ (∃ e ∈ (s.core core).mq ++ (s.core core).cq, e.gk = g.gk) ∨
      (∃ d ∈ s.draws, d.ctx = g.ctx ∧ ∃ a ∈ d.accepted, d.next ≤ a.s ∧ a.task = g.task ∧ a.gid = g.gid) →
    exec (.groupEnd core gk) s = .next s) ∧
  (∀ q s, 512 ≤ q → exec (.recordCheck q) s = .next s) ∧
  (∀ q s, q < 512 → s.poisoned (queueKey q) 32 = false → nbit (s.queue q) 56 = false →
    exec (.recordCheck q) s = .next s) ∧
  (∀ q s, q < 512 → s.poisoned (queueKey q) 32 = true →
    exec (.recordCheck q) s = .next (s.emitOnce (.hold q (nbits (s.queue q) 95 64)))) ∧
  (∀ q s d r ctx, q < 512 → d = s.queue q → s.poisoned (queueKey q) 32 = false → nbit d 56 = true →
    (∀ t ∈ s.tasks, ¬ (t.q = q ∧ t.index = nbits d 95 64 ∧ t.next < t.total)) → ringOk d = true → s.poisoned (ringSlot d (nbits d 95 64)) 128 = false →
    r = BitVec.ofNat 1024 (s.num (ringSlot d (nbits d 95 64)) 128) → ctx = queueCtx d →
    s.poisoned (Config.contextTable + 64 * ctx) 64 = false → ctxValid (s.ctxDesc ctx) = true →
    (Rec.valid r = false → exec (.recordCheck q) s = .next s) ∧
    (∀ t u, Rec.valid r = true → refused r = true → s.schedDone ctx (Rec.job r) = .ok t u →
      exec (.recordCheck q) s = .next ((t.consume q).emit (.refuse q (nbits d 95 64)))) ∧
    (∀ t c, Rec.valid r = true → refused r = true → s.schedDone ctx (Rec.job r) = .bad t c →
      exec (.recordCheck q) s = .next (t.emitOnce (.hold q (nbits d 95 64)))) ∧
    (Rec.valid r = true → refused r = true → s.schedDone ctx (Rec.job r) = .wait → exec (.recordCheck q) s = .next s) ∧
    (Rec.valid r = true → refused r = false → Rec.gang r = 0 → exec (.recordCheck q) s = .next { s.bump with tasks := s.tasks ++
      [{ key := s.fresh, q := q, index := nbits d 95 64, ctx := ctx, lead := r, members := [], pipes := [],
         next := 0, total := Rec.groups r, live := 0, stage := 0, cid := 0 }] })) ∧
  (∀ q s t, q < 512 → s.poisoned (queueKey q) 32 = false → t ∈ s.tasks → t.q = q → t.index = nbits (s.queue q) 95 64 →
    t.next < t.total → exec (.recordCheck q) s = .next s) ∧
  (∀ q s, (∀ t ∈ s.tasks, t.q = q → t.total ≤ t.next) → exec (.admission q) s = .next s) ∧
  (∀ q s t, s.tasks.find? (fun t => t.q == q && decide (t.next < t.total)) = some t → s.mp1Open = true →
    s.taskReady t = .yes → ∀ u, s.placing t = some u → u.beyond t = true → s.chosen = some (.record t.key) →
    exec (.admission q) s = .next (s.admitted t)) ∧
  (∀ q s t, s.tasks.find? (fun t => t.q == q && decide (t.next < t.total)) = some t → s.mp1Open = true →
    s.taskReady t = .yes → s.placing t = none → exec (.admission q) s = .next s) ∧
  (∀ q s t, s.tasks.find? (fun t => t.q == q && decide (t.next < t.total)) = some t → s.mp1Open = true →
    s.taskReady t = .yes → ∀ u, s.placing t = some u →
    (u.beyond t = true → s.chosen ≠ some (.record t.key) → exec (.admission q) s = .next s) ∧
    (u.beyond t = false → exec (.admission q) s = .next u)) ∧
  (∀ q s t, s.tasks.find? (fun t => t.q == q && decide (t.next < t.total)) = some t → s.mp1Open = true →
    s.taskReady t = .held → exec (.admission q) s = .next (s.emitOnce (.hold q t.index))) ∧
  (∀ key s, (∀ t ∈ s.tasks, t.key ≠ key) → exec (.taskCompletion key) s = .next s) ∧
  (∀ key s t, s.tasks.find? (fun t => t.key == key) = some t →
    exec (.taskCompletion key) s = .next (s.completeTask t)) ∧
  (∀ (s : State) (t : Task), t.stage = 0 → t.live ≠ 0 ∨ t.next < t.total → s.completeTask t = s) ∧
  (∀ (s : State) (t : Task), t.stage = 0 → t.live = 0 → t.total ≤ t.next → Rec.signal t.lead = 0 →
    (∀ r ∈ s.recorders, r.task ≠ t.key) →
    (∀ u v, s.schedDone t.ctx (Rec.job t.lead) = .ok u v →
      s.completeTask t = (u.emit (.complete t.q t.index (Rec.job t.lead))).dropTask t.key) ∧
    (∀ u c, s.schedDone t.ctx (Rec.job t.lead) = .bad u c → s.completeTask t = u.emitOnce (.hold t.q t.index)) ∧
    (s.schedDone t.ctx (Rec.job t.lead) = .wait → s.completeTask t = s))

/-! ### Draws (R275-R283, R306-R308, R431-R433) -/

/-- R277, R280, R281, R308: a draw commits the primitive of its next sequence number if it has been submitted,
while meeting point 1 is open and no flush holds commits; a lane's primitive at or above PRIMS, or accepted from
another thread, raises PROT, one accepted from the same thread is skipped, the next one to commit is always
accepted, and one that finds the die's buffer full waits with what its lane has read. A flush completes when its
tiles are PARTIAL; a tile is issued to the lowest core that can take its group, unless a pre-emption in progress
names it, and for good only from UNSEEN, BINNED or PARTIAL. What the lists gain is written into their pool
blocks, whose bytes are open (log 88); on a block whose page is missing a draw stops with one record, before any
effect, until it is mapped, and it waits for one that is being moved (R321, R322, log 95). That BIN keeps what
it has read while it is stalled, and raises its causes after acceptance, is read by inference (log 54), and so
is a tile's hold record sent once (log 48). That such steps stand on their own, and when they are taken, is the
model's choice (log 2). -/
def Obligations.DrawSteps : Prop :=
  (∀ key s, s.drawOf key = none → exec (.commit key) s = .next s ∧ exec (.flushComplete key) s = .next s ∧
    exec (.flushStall key) s = .next s ∧ exec (.binningStall key) s = .next s ∧
    ∀ tile core, exec (.tileIssue key tile core) s = .next s) ∧
  (∀ key s d, s.drawOf key = some d → d.killed = true ∨ d.flush.isSome = true ∨ s.mp1Open = false ∨
      (d.stopped.isSome = true ∧ s.clk % 4096 ≠ 0) ∨ (∀ e ∈ d.buf, e.1 ≠ d.next) → exec (.commit key) s = .next s) ∧
  (∀ (s : State) (d e : Draw), s.poolReady e (d.added e) = .ok () →
    s.putDraw d e = (d.added e).foldl (fun (t : State) b => t.poolPut e b) (s.modDraw d.key fun _ => { e with stopped := none })) ∧
  (∀ (s : State) (d e : Draw) va, s.poolReady e (d.added e) = .page va → d.stopped ≠ some va →
    s.putDraw d e = (s.modDraw d.key fun d => { d with stopped := some va }).faultRecord 0 d.ctx va) ∧
  (∀ (s : State) (d e : Draw), s.poolReady e (d.added e) = .wait → s.putDraw d e = s) ∧
  (∀ (s : State) (d : Draw) b r, s.translate (s.schedSpace d.ctx) .store (DrawD.pool d.desc + 4096 * b.1) = .wait →
    s.poolReady d (b :: r) = .wait) ∧
  (∀ (s : State) (d : Draw) b r, s.translate (s.schedSpace d.ctx) .store (DrawD.pool d.desc + 4096 * b.1) = .bad Cause.page →
    s.poolReady d (b :: r) = .page (DrawD.pool d.desc + 4096 * b.1)) ∧
  (∀ key s d die p, s.drawOf key = some d → d.killed = false → d.flush = none → s.mp1Open = true →
    d.buf.find? (fun e => e.1 == d.next) = some (d.next, die, p) → d.stopped = none ∨ s.clk % 4096 = 0 →
    exec (.commit key) s = .next ((s.putDraw d (d.commit s.clk p)).flushNote key)) ∧
  (∀ (d : Draw) clk p, (d.place p []).2 = [] ∧ (d.finish clk p []).next = d.next + 1 ∧
    (d.finish clk p []).flush = none ∧ ∀ e ∈ (d.finish clk p []).buf, e.1 ≠ d.next) ∧
  (∀ key s d f, s.drawOf key = some d → d.flush = some f → f.stuck = false → f.todo = [] → s.mp1Open = true →
    d.stopped = none ∨ s.clk % 4096 = 0 →
    (∀ t ∈ f.tiles, (d.tile t).state = .partialSaved) → exec (.flushComplete key) s =
      .next ((s.putDraw d ((d.freeBlocks f.tiles).finish s.clk f.prim f.held)).flushNote key)) ∧
  (∀ key s d, s.drawOf key = some d → d.flush = none → exec (.flushComplete key) s = .next s ∧
    exec (.flushStall key) s = .next s) ∧
  (∀ key s d f, s.drawOf key = some d → d.flush = some f →
    exec (.flushStall key) s = .next (s.flushEvict d f)) ∧
  (∀ (s : State) d f, f.stuck = true ∨ f.todo = [] ∨ s.clk < f.since + 4096 → s.flushEvict d f = s) ∧
  (∀ key s d, s.drawOf key = some d → d.killed = false → d.next < DrawD.prims d.desc → d.since + 2 ^ 24 ≤ s.clk →
    exec (.binningStall key) s =
      .next ((s.emit (.binStall key d.next)).modDraw key fun d => { d with since := s.clk })) ∧
  (∀ key s d, s.drawOf key = some d → d.killed = true ∨ DrawD.prims d.desc ≤ d.next ∨ s.clk < d.since + 2 ^ 24 →
    exec (.binningStall key) s = .next s) ∧
  (∀ key tile core s d final, s.drawOf key = some d → d.nextTile = some (tile, final) → s.mp1Open = true → s.preempt = none →
    s.ctxUsable d.ctx = true → s.tileCore d = some core → (final = true → s.chosen = some (.tile key)) →
    exec (.tileIssue key tile core) s = .next (s.issueTile core d tile final)) ∧
  (∀ key tile core s d final, s.drawOf key = some d → d.nextTile = some (tile, final) → s.mp1Open = true → s.preempt = none →
    s.ctxUsable d.ctx = false → exec (.tileIssue key tile core) s = .next (s.emitOnce (.tileHold key tile))) ∧
  (∀ key tile core s d p sc, s.drawOf key = some d → s.preempt = some p → sc ∈ p.scopes →
    Scope.stopsTile sc d tile core = true → exec (.tileIssue key tile core) s = .next s) ∧
  (∀ key tile core s d, s.drawOf key = some d → d.nextTile = none → exec (.tileIssue key tile core) s = .next s) ∧
  (∀ d a b, DoesWhen (.bin d a b) (fun x => x.binKilled = true) fun x =>
    x.park (x.binClear x.s) x.lanes (Cause.bit Cause.prot)) ∧
  (∀ d a b, DoesWhen (.bin d a b) (fun x => x.binKilled = false ∧ x.w.binStall = [] ∧
      ∀ l ∈ x.ls, (x.v64 b.toNat l).toNat % 64 ≠ 0) fun x =>
    let y : Ctx := { x with s := x.binTouch b (x.u64 a.toNat).toNat }
    y.parkAll (y.advance (y.binClear y.s) []) (y.ls.map fun l => (l, Cause.align))) ∧
  (∀ d a b dr l p, DoesWhen (.bin d a b) (fun x => x.w.binStall = [] ∧ x.ls = [l] ∧
      x.readPrim x.s d b (x.readDraw x.s (x.u64 a.toNat).toNat) l = .ok (dr, p)) fun x =>
    let y : Ctx := { x with s := x.binTouch b (x.u64 a.toNat).toNat }
    match y.submit y.s (y.u64 a.toNat).toNat l dr p with
    | .taken t => y.parkAll (y.advance (y.binClear (t.abandon y.g.gang 2)) [l]) []
    | .bad => y.parkAll (y.advance (y.binClear y.s) []) [(l, Cause.prot)]
    | .full key => y.stall (y.modW (y.binClear y.s) fun w =>
        { w with binStall := w.binStall ++ [⟨l, key, (y.u64 a.toNat).toNat, some (dr, p), 0⟩] }) .other) ∧
  (∀ (d : Draw) t, d.nextTile = some (t, true) →
    (d.tile t).state = .unseen ∨ (d.tile t).state = .binned ∨ (d.tile t).state = .partialSaved) ∧
  (∀ (x : Ctx) d b va, (∀ l ∈ x.ls, ∃ e ∈ x.w.binStall, e.lane = l) →
    x.binReads d b va = some (x.ls.filterMap fun l => x.w.binStall.find? fun e => e.lane == l)) ∧
  (∀ (x : Ctx) s va l r p d, s.boundDraw x.g.ctx va = some d → (∀ e ∈ d.accepted, e.s ≠ p.s) →
    DrawD.prims d.desc ≤ p.s → x.submit s va l r p = .bad) ∧
  (∀ (x : Ctx) (s : State) va l r p d e, s.boundDraw x.g.ctx va = some d →
    d.accepted.find? (fun e => e.s == p.s) = some e →
    (e.gid = x.g.gid ∧ e.tid = (x.th l).tid → x.submit s va l r p = .taken s) ∧
    (¬ (e.gid = x.g.gid ∧ e.tid = (x.th l).tid) → x.submit s va l r p = .bad)) ∧
  (∀ (x : Ctx) (s : State) va l r p d, s.boundDraw x.g.ctx va = some d → (∀ e ∈ d.accepted, e.s ≠ p.s) →
    p.s < DrawD.prims d.desc → p.s ≠ d.next → 256 ≤ s.dieBuffer x.die → x.submit s va l r p = .full d.key) ∧
  (∀ (x : Ctx) (s : State) va l r p d, s.boundDraw x.g.ctx va = some d → (∀ e ∈ d.accepted, e.s ≠ p.s) →
    p.s < DrawD.prims d.desc → p.s = d.next → ∃ t, x.submit s va l r p = .taken t)

/-- R279, R281, R282, R312: the visibility wave runs once, the shading wave spawns at most 32 fragments of it,
and the write-back writes the tile once every fragment thread has gone or waits at TDONE and no entry of the
group that names tile memory is left. That such steps stand on their own, and when they are taken, is the
model's choice (log 2). -/
def Obligations.TileWaves : Prop :=
  (∀ core gk s, s.waveTile core gk = none → exec (.visibilityWave core gk) s = .next s ∧
    exec (.shadingWave core gk) s = .next s ∧ exec (.writeBack core gk) s = .next s) ∧
  (∀ core gk s g o d, s.waveTile core gk = some (g, o, d) → o.visDone = true →
    exec (.visibilityWave core gk) s = .next s) ∧
  (∀ core gk s g o d, s.waveTile core gk = some (g, o, d) → o.visDone = false →
    exec (.visibilityWave core gk) s = .next (s.visWave core g o d)) ∧
  (∀ core gk s g o d, s.waveTile core gk = some (g, o, d) → o.visDone = false ∨ o.pending = [] →
    exec (.shadingWave core gk) s = .next s) ∧
  (∀ core gk s g o d t rest, s.waveTile core gk = some (g, o, d) → o.visDone = true → o.pending ≠ [] →
    s.spawnFrags core g 32 o.pending = (t, rest) →
    exec (.shadingWave core gk) s =
      .next (t.modOwn core gk fun o => { o with pending := rest, waveDone := rest.isEmpty }) ∧
    o.pending.length ≤ rest.length + 32 ∧ ∃ done, o.pending = done ++ rest) ∧
  (∀ core gk s g o d, s.waveTile core gk = some (g, o, d) → g.tdoneReady o = false →
    exec (.writeBack core gk) s = .next (s.modOwn core gk fun o => { o with drain := none })) ∧
  (∀ core gk s g o d e, s.waveTile core gk = some (g, o, d) → g.tdoneReady o = true → o.drain = none →
    e ∈ (s.core core).planeEntries gk →
    exec (.writeBack core gk) s =
      .next (s.modOwn core gk fun o => { o with drain := some ((s.core core).planeEntries gk) })) ∧
  (∀ core gk s g o d, s.waveTile core gk = some (g, o, d) → g.tdoneReady o = true → o.drain = none →
    (s.core core).planeEntries gk = [] → o.stopped = none →
    exec (.writeBack core gk) s = .next (s.tdoneWrite core g o d)) ∧
  (∀ core gk s g o d, s.waveTile core gk = some (g, o, d) → g.tdoneReady o = true → o.drain = none →
    (s.core core).planeEntries gk = [] → o.stopped.isSome = true → s.clk % 4096 ≠ 0 →
    exec (.writeBack core gk) s = .next s)

/-- R283: a block of 64 pixels equal to CLEAR has mode 0 and no slot bytes; any other block that is not stored
raw has mode 0x41 to 0x47, fits in fewer than 226 bytes, and is restored whole; every mode is a legal one. -/
def Obligations.BlockCompression : Prop :=
  (∀ clear, compress clear (List.replicate 64 clear) = (0, [])) ∧
  (∀ clear px m bs, px.length = 64 → (∀ p ∈ px, p < 2 ^ 32) → clear < 2 ^ 32 → compress clear px = (m, bs) →
    modeOk m = true ∧
    (m ≠ 0x80 → decompress clear m bs = px ∧ bs.length = slotBytes m ∧ bs.length ≤ 225) ∧
    (m = 0x80 → bs = px.flatMap (leBytes 4)))

/-! ### Pre-emption, images and kills (R21, R278, R341-R351) -/

/-- R21, R341-R343, R351: requests at meeting point 3 are taken in arrival order, a power state and the end of a
quiesce waiting while acknowledgements are gathered, and what arrives behind a request that waits waits too; a
pre-emption of a scope stops its gangs; QUIESCE closes meeting point 1 and pre-empts the package, and the end of
a quiesce opens it, from boot stage 5 on (R437); that a request which comes while another is gathered is taken
at once, and that the end of a quiesce waits, is the model's choice (log 91); a core acknowledges a pre-emption,
by one trap event record of kind 3, once no group of it is stopping, and the last core ends it; a gang swaps out
once it stands still, into a free slot; an image re-enters only while it is the chosen candidate, a poisoned one
is held and one that fails its check is refused; KILL takes only an image that waits for it; a resident group to
be killed stops with disposition 2, and a killed draw keeps no submission that is not committed. That no image
re-enters while meeting point 1 is closed (log 57), that an image's hold record is sent once (log 48), and the
disposition numbers (log 53) are read by inference. That such steps stand on their own, and when they are taken,
is the model's choice (log 2). -/
def Obligations.PreemptionSteps : Prop :=
  (∀ sc s, s.mp3 = [] → exec (.preemption sc) s = .next (s.preemptScope sc)) ∧
  (∀ s q rest, s.mp3 = q :: rest → s.canTake q = false →
    (∀ sc, exec (.preemption sc) s = .next { s with mp3 := s.mp3 ++ [.preempt sc] }) ∧
    exec .quiesce s = .next { s with mp3 := s.mp3 ++ [.quiesce] } ∧
    exec .quiesceEnd s = .next { s with mp3 := s.mp3 ++ [.quiesceEnd] } ∧
    ∀ die p, exec (.powerState die p) s = .next { s with mp3 := s.mp3 ++ [.power die p] }) ∧
  (∀ sc s t core g, s.mp3 = [] → exec (.preemption sc) s = .next t → g ∈ (t.core core).groups →
    Scope.covers sc core g = true → g.stop.isSome = true) ∧
  (∀ s, s.mp3 = [] → ∃ t, exec .quiesce s = .next t ∧ t = { s with mp1Open := false }.preemptScope .package ∧
    t.mp1Open = false) ∧
  (∀ s, s.mp3 = [] → s.preempt = none → exec .quiesceEnd s =
    .next { s with mp1Open := decide (5 ≤ s.bootStage) && s.recovery.isNone }) ∧
  (∀ s p, s.mp3 = [] → s.preempt = some p → exec .quiesceEnd s = .next { s with mp3 := [.quiesceEnd] } ∧
    ∀ die q, exec (.powerState die q) s = .next { s with mp3 := [.power die q] }) ∧
  (∀ core s, s.preempt = none → exec (.acknowledgement core) s = .next s) ∧
  (∀ core s p, s.preempt = some p → core ∉ p.cores ∨ (∃ g ∈ (s.core core).groups, g.stop.isSome = true) →
    exec (.acknowledgement core) s = .next s) ∧
  (∀ core s p, s.preempt = some p → p.cores = [core] → (∀ g ∈ (s.core core).groups, g.stop = none) →
    exec (.acknowledgement core) s = .next (State.settle { s.emit (.trap (trapRecord 3 0 p.ctx noSlot 0 0 core)) with
      preempt := none })) ∧
  (∀ core s p c, s.preempt = some p → core ∈ p.cores → c ∈ p.cores → c ≠ core →
    (∀ g ∈ (s.core core).groups, g.stop = none) →
    exec (.acknowledgement core) s = .next (State.settle { s.emit (.trap (trapRecord 3 0 p.ctx noSlot 0 0 core)) with
      preempt := some { p with cores := p.cores.filter (· != core) } })) ∧
  (∀ core gang s, (∀ g ∈ (s.core core).gangGroups gang, g.stop = none) → exec (.swapOut core gang) s = .next s) ∧
  (∀ core gang s st u, ((s.core core).gangGroups gang).findSome? (·.stop) = some st → u = s.tapeDrain (core / 32) →
    u.standing core ((u.core core).gangGroups gang) ((s.replayOf gang).map fun r => r.atStop st) = false →
    exec (.swapOut core gang) s = .next u) ∧
  (∀ core gang s st r u v t, ((s.core core).gangGroups gang).findSome? (·.stop) = some st →
    r = (s.replayOf gang).map (fun r => r.atStop st) → u = s.tapeDrain (core / 32) →
    u.standing core ((u.core core).gangGroups gang) r = true → v = (u.abandon gang 3).endFailed core gang →
    t = v.drainSpills core (fun p => (((v.core core).gangGroups gang).map (·.gk)).contains p.gk) →
    (t.freeSlots = [] → exec (.swapOut core gang) s = .next t) ∧
    (∀ n, t.freeSlots = [n] → exec (.swapOut core gang) s =
      .next (t.swapInto core gang n ((t.core core).gangGroups gang) st r))) ∧
  (∀ slot core s, s.mp1Open = false ∨ slot ∉ s.imagesAt 1 → exec (.restore slot core) s = .next s) ∧
  (∀ slot core s, s.mp1Open = true → slot ∈ s.imagesAt 1 → s.imgPoisoned slot = true →
    exec (.restore slot core) s = .next (s.emitOnce (.imageHold slot))) ∧
  (∀ slot core s, s.mp1Open = true → slot ∈ s.imagesAt 1 → s.imgPoisoned slot = false → s.imgStatus slot ≠ 0 →
    exec (.restore slot core) s = .next (s.refuseImage slot (s.imgStatus slot) core)) ∧
  (∀ slot core s g, s.mp1Open = true → slot ∈ s.imagesAt 1 → s.imgPoisoned slot = false → s.imgStatus slot = 0 →
    s.chosen = some (.image slot) → s.canRestore slot core = true →
    ((s.loadImage slot core).core core).groups.getLast? = some g →
    exec (.restore slot core) s = .next ((s.loadImage slot core).reloadGang core g.gang)) ∧
  (∀ slot core s, s.mp1Open = true → slot ∈ s.imagesAt 1 → s.imgPoisoned slot = false → s.imgStatus slot = 0 →
    s.chosen ≠ some (.image slot) → exec (.restore slot core) s = .next s) ∧
  (∀ slot s, slot ∉ s.imagesAt 2 → exec (.kill slot) s = .next s) ∧
  (∀ slot s, slot ∈ s.imagesAt 2 → s.imgPoisoned slot = false → exec (.kill slot) s = .next (s.killImage slot)) ∧
  (∀ slot s, slot ∈ s.imagesAt 2 → s.imgPoisoned slot = true →
    exec (.kill slot) s = .next (s.emitOnce (.imageHold slot))) ∧
  (∀ core gk s, s.group? core gk = none → exec (.killOfResidentGroup (.group core gk)) s = .next s) ∧
  (∀ core gk s g, s.group? core gk = some g →
    exec (.killOfResidentGroup (.group core gk)) s = .next (s.killGang core g.gang)) ∧
  (∀ core gk s g h t, s.group? core gk = some g → h ∈ (t.core core).groups → h.gang = g.gang →
    exec (.killOfResidentGroup (.group core gk)) s = .next t → ∃ st, h.stop = some st ∧ st.disp = 2) ∧
  (∀ d s t x, exec (.killOfResidentGroup (.draw d)) s = .next t → x ∈ t.draws → x.key = d →
    x.killed = true ∧ x.buf = [] ∧ x.accepted = [] ∧ x.used = 0 ∧ x.flush = none) ∧
  (∀ d s, ∃ t, exec (.killOfResidentGroup (.draw d)) s = .next t)

/-! ### Range commits (R156-R160, R439) -/

/-- R157-R160, R439: the check of the oldest commit writes its verdict with the next sequence number, once; a
verdict of 1 replaces the whole set, raises RGEN by one and answers 1, any other verdict changes no range and
answers itself; a page of the image that is being moved is waited for (R321). That an image which cannot be read
at the swap answers 0x00040000 is read by inference (log 23), and that a swap goes on where the header takes no
store is the model's choice (log 70). The status of an image is 1 exactly when no entry is malformed, overlaps a
lower one or lacks backing, and otherwise names the first entry that fails. That such steps stand on their own,
and when they are taken, is the model's choice (log 2). -/
def Obligations.RangeCommits : Prop :=
  (∀ s, s.commits = [] → exec .rangeCommitCheck s = .next s ∧ exec .rangeSwap s = .next s) ∧
  (∀ s c r v, s.commits = c :: r → c.verdict = some v → exec .rangeCommitCheck s = .next s) ∧
  (∀ s c r, s.commits = c :: r → c.verdict = none → s.rangeStatus c = none → exec .rangeCommitCheck s = .next s) ∧
  (∀ s c r v, s.commits = c :: r → c.verdict = none → s.rangeStatus c = some v → ∃ t, exec .rangeCommitCheck s = .next t ∧
    t.verdictSeq = s.verdictSeq + 1 ∧ t.lastCommit = BitVec.ofNat 32 v ∧
    t.commits = { c with verdict := some (BitVec.ofNat 32 v) } :: r ∧
    t.ranges = s.ranges ∧ t.rgen = s.rgen) ∧
  (∀ s c r, s.commits = c :: r → c.verdict = none → exec .rangeSwap s = .next s) ∧
  (∀ s c r v, s.commits = c :: r → c.verdict = some v → v ≠ 1 →
    exec .rangeSwap s = .next (State.rangeAnswer { s with commits := r } c v) ∧
    (State.rangeAnswer { s with commits := r } c v).ranges = s.ranges ∧
    (State.rangeAnswer { s with commits := r } c v).rgen = s.rgen) ∧
  (∀ s c r es u, s.commits = c :: r → c.verdict = some 1 → s.stagingEntries c = .ok es →
    State.swapRanges { s with commits := r } c es = some u →
    exec .rangeSwap s = .next (u.rangeAnswer c 1) ∧ u.rgen = s.rgen + 1 ∧
    ∀ n e, es[n]? = some e → sget u.ranges n 0 = e) ∧
  (∀ s c r es, s.commits = c :: r → c.verdict = some 1 → s.stagingEntries c = .ok es →
    State.swapRanges { s with commits := r } c es = none → exec .rangeSwap s = .next s) ∧
  (∀ s c r cause, s.commits = c :: r → c.verdict = some 1 → s.stagingEntries c = .bad cause →
    exec .rangeSwap s = .next (State.rangeAnswer { s with commits := r } c 0x00040000)) ∧
  (∀ s c r, s.commits = c :: r → c.verdict = some 1 → s.stagingEntries c = .wait → exec .rangeSwap s = .next s) ∧
  (∀ es : List RangeEntry, (entriesStatus [] 0 es = 1 ↔
    (∀ e ∈ es, entryBad e = false ∧ (Range.valid e = true → entryBacked e = true)) ∧
    es.Pairwise fun a b => entriesMeet b a = false)) ∧
  (∀ (pre post : List RangeEntry) e, entriesStatus [] 0 pre = 1 →
    (entryBad e = true → entriesStatus [] 0 (pre ++ e :: post) = 0x00010000 + pre.length) ∧
    (entryBad e = false → (∃ a ∈ pre, entriesMeet e a = true) →
      entriesStatus [] 0 (pre ++ e :: post) = 0x00020000 + pre.length) ∧
    (entryBad e = false → (∀ a ∈ pre, entriesMeet e a = false) → Range.valid e = true → entryBacked e = false →
      entriesStatus [] 0 (pre ++ e :: post) = 0x00030000 + pre.length)) ∧
  (∀ (s : State) c cause, s.stagingEntries c = .bad cause → s.rangeStatus c = some 0x00040000) ∧
  (∀ (s : State) c, s.stagingEntries c = .wait → s.rangeStatus c = none) ∧
  (∀ (s : State) c es, s.stagingEntries c = .ok es → s.rangeStatus c = some (entriesStatus [] 0 es))

/-- R360, R369-R371, R382: the next command of a replay is performed by the event of its kind for its member's
group, when its fence allows it and no push or cleaning of the replay is under way; a malformed command, and one
of a member without a group, stops the replay with ILLOP, one whose entries are poisoned with DATAERR, at the
command's index. A command that is done moves the index past its entries; one that waits leaves it. That a
command of a second queue is held back while one of the first is open (`Replay.mayEnter`) is read by inference
(log 67). That such steps stand on their own, and when they are taken, is the model's choice (log 2). -/
def Obligations.ReplayCommands : Prop :=
  (∀ k key i s, replayEvent key k = some i → (∀ r ∈ s.replays, r.key ≠ key) → exec i s = .next s) ∧
  (∀ k i s r, replayEvent r.key k = some i → ReplayGoes s r → r.command = none →
    exec i s = .next (s.replayFault r.key r.e
      (if s.tapeBad r (entryOff r.e) 16 then Cause.dataerr else Cause.illop))) ∧
  (∀ k i s r c, replayEvent r.key k = some i → ReplayGoes s r → r.command = some c →
    c.kind ≠ k ∨ Replay.mayEnter r s c = false → exec i s = .next s) ∧
  (∀ k i s r c, replayEvent r.key k = some i → ReplayGoes s r → r.command = some c → c.kind = k →
    r.mayEnter s c = true → s.tapePoison r c = true → exec i s = .next (s.replayFault r.key r.e Cause.dataerr)) ∧
  (∀ k i s r c, replayEvent r.key k = some i → ReplayGoes s r → r.command = some c → c.kind = k →
    r.mayEnter s c = true → s.tapePoison r c = false → (∀ g ∈ s.replayGroups r, g.member ≠ c.member) →
    exec i s = .next (s.replayFault r.key r.e Cause.illop)) ∧
  (∀ k i s r c g, replayEvent r.key k = some i → ReplayGoes s r → r.command = some c → c.kind = k →
    r.mayEnter s c = true → s.tapePoison r c = false →
    (s.replayGroups r).find? (fun g => g.member == c.member) = some g →
    exec i s = .next (s.cmdTake r c (replayPerform s r c g))) ∧
  (∀ (s t : State) r c, s.cmdTake r c (.done t) = (t.modReplay r.key fun q =>
    { q with e := r.e + c.size, nir := q.nir || c.ni, waitOn := none }).replayEnd r.key) ∧
  (∀ (s t : State) r c, s.cmdTake r c (.hold t) =
    t.modReplay r.key fun q => { q with waitOn := none }) ∧
  (∀ (s t : State) r c cause, s.cmdTake r c (.bad t cause) = t.replayFault r.key r.e cause) ∧
  (∀ (s : State) (r : Replay) c g va bs t, c.kind = 3 → nbits c.e 75 68 = 2 → nbit c.e 8 = false →
    va = nbits c.e 67 16 → va % 4 = 0 → bs = leBytes 4 (nbits c.e 111 80) →
    s.storeBytes (g.space r.core g.sup) (dieOf r.core) va bs = .ok t () →
    replayPerform s r c g = .done t) ∧
  (∀ (r : Replay) lead slot a, r.addr lead false slot a = some a) ∧
  (∀ (r : Replay) lead slot a w base, r.patch slot = (true, w, base) → base ≤ a → a < 2 ^ 52 →
    patchBase lead w + (a - base) < 2 ^ 52 → r.addr lead true slot a = some (patchBase lead w + (a - base)))

/-! ### The root mailbox and the SPDM responder (R323-R326) -/

/-- R323, R326: LOG_READ and STATUS answer any caller, with the measurement log from the index on, and with the
boot stage, the recovery code and the last range verdict. APERTURE_SET, EXPORT_SET and FW_STAGE are the host's:
they write the fields of one record of their table, whose reserved bits read as 0 (R6, log 71), or store an
image whose signature holds and whose counter is not below the fuse in the place of one of its kind; any other
caller is refused and changes nothing. A command outside the set is refused. R325: the responder speaks versions
1.2 and 1.3, offers RSASSA with a 4096-bit key and SHA-512, answers the digest and the certificate of one slot,
a challenge, and the measurements as one block for each log entry in log order, every answer signed over its
bytes, and refuses sessions, key exchange and mutual authentication. The certificate, its digest and the
signature are free (log 8). That such steps stand on their own, and when they are taken, is the model's choice
(log 2). -/
def Obligations.MailboxAndResponder : Prop :=
  ((∀ who n s, exec (.logRead who n) s = .next { s with mailOut := s.mailOut ++ [.log (s.mlog.drop n)] }) ∧
  (∀ who s, exec (.status who) s =
    .next { s with mailOut := s.mailOut ++ [.status s.bootStage s.recovery s.lastCommit] }) ∧
  (∀ n r s, ∃ t, exec (.apertureSet .host n r) s = .next t ∧ t.mailOut = s.mailOut ++ [.done] ∧
    t.mem = (s.putNum (Config.apertureTable + 8 * n.toNat) 8 (r.toNat % 2 ^ 19)).mem) ∧
  (∀ n r s, ∃ t, exec (.exportSet .host n r) s = .next t ∧ t.mailOut = s.mailOut ++ [.done] ∧
    t.mem = (s.putNum (Config.exportTable + 16 * n.toNat) 16
      (r.toNat % 2 ^ 22 + r.toNat / 2 ^ 64 % 2 ^ 58 * 2 ^ 64)).mem) ∧
  (∀ img s, img.sigOk = true → Config.antiRollback ≤ img.version → exec (.fwStage .host img) s =
    .next { s with staged := s.staged.filter (fun i => i.which != img.which) ++ [img], mailOut := s.mailOut ++ [.fw 0] }) ∧
  (∀ img s, img.sigOk = false → exec (.fwStage .host img) s = .next { s with mailOut := s.mailOut ++ [.fw 1] }) ∧
  (∀ img s, img.sigOk = true → img.version < Config.antiRollback →
    exec (.fwStage .host img) s = .next { s with mailOut := s.mailOut ++ [.fw 2] }) ∧
  (∀ who s, who ≠ .host →
    (∀ n r, exec (.apertureSet who n r) s = .next { s with mailOut := s.mailOut ++ [.refused] }) ∧
    (∀ n r, exec (.exportSet who n r) s = .next { s with mailOut := s.mailOut ++ [.refused] }) ∧
    (∀ img, exec (.fwStage who img) s = .next { s with mailOut := s.mailOut ++ [.refused] })) ∧
  (∀ who code s, code = 0 ∨ 5 < code →
    exec (.mailboxRefused who code) s = .next { s with mailOut := s.mailOut ++ [.refused] }) ∧
  (∀ who code s, 1 ≤ code → code ≤ 5 → who = .host → exec (.mailboxRefused who code) s = .next s)) ∧
  (∀ (s : State) (answer : SpdmBody → State),
  (∀ b, answer b = { s with spdmOut := s.spdmOut ++ [⟨b, Config.sign b.bytes⟩] }) →
  exec .getVersion s = .next (answer (.versions [0x12, 0x13])) ∧
  exec .getCapabilities s = .next (answer (.capabilities [.getVersion, .getCapabilities, .negotiateAlgorithms,
    .getDigests, .getCertificate, .challenge, .getMeasurements])) ∧
  exec .negotiateAlgorithms s = .next (answer (.algorithms 4096 512)) ∧
  exec .getDigests s = .next (answer (.digests [(0, Config.sha512 Config.certificate)])) ∧
  exec .getCertificate s = .next (answer (.certificate 0 Config.certificate)) ∧
  (∀ nonce, exec (.challenge nonce) s = .next (answer (.challengeAuth nonce))) ∧
  exec .getMeasurements s = .next (answer (.measurements s.mlog)) ∧
  (∀ r, exec (.unsupportedRequest r) s = .next (answer .unsupportedRequest)) ∧
  (∀ e l, logBytes (e :: l) = leBytes 8 e.stage ++ leBytes 8 e.version ++ leBytes 64 e.digest.toNat ++ logBytes l))

/-! ### The host and peers (R168, R327-R329) -/

/-- R168, R327, R329: while the links are up the host reads the raw bytes of LPDDR with their poison, and writes
them at their home; an access of a line that only a die whose link is down or waking may hold is held, or
answered as pending, until that die answers (R387); an access outside LPDDR, or before stage 5, and a write into
memory that firmware alone writes (log 72), is refused and changes nothing. A peer's load, store or atomic is
performed when a valid export record of that peer allows its kind over its span, and is otherwise refused. That
such steps stand on their own, and when they are taken, is the model's choice (log 2). -/
def Obligations.HostMemory : Prop :=
  (∀ a n s, s.linksUp = true → a + n ≤ lpddrEnd → exec (.hostCxlMemRead a n) s = .next (match s.holder a n with
    | none => { s with hostOut := s.hostOut ++ [.data (s.bytes a n) (s.poisoned a n)] }
    | some die => s.atDie die (.read a n))) ∧
  (∀ a n s, s.linksUp = false ∨ lpddrEnd < a + n → exec (.hostCxlMemRead a n) s =
    .next { s with hostOut := s.hostOut ++ [.refused] }) ∧
  (∀ (s : State) a n, (∀ e ∈ s.owned, ∀ d, s.dies[e.2]? = some d → d.link = .up ∨ d.link = .lost) → s.holder a n = none) ∧
  (∀ a bs s, s.linksUp = true → hostWrites a bs.length = true → exec (.hostCxlMemWrite a bs) s =
    .next (match s.holder a bs.length with
      | none => (s.homeWrite a bs).reply .ack
      | some die => s.atDie die (.write a bs))) ∧
  (∀ a bs s t, Sound s → s.linksUp = true → hostWrites a bs.length = true → s.holder a bs.length = none → s.poison = [] →
    exec (.hostCxlMemWrite a bs) s = .next t → t.bytes a bs.length = bs ∧
    ∀ k, k < a ∨ a + bs.length ≤ k → t.bytes k 1 = s.bytes k 1) ∧
  (∀ a bs s, s.linksUp = false ∨ hostWrites a bs.length = false → exec (.hostCxlMemWrite a bs) s =
    .next { s with hostOut := s.hostOut ++ [.refused] }) ∧
  (∀ a n, 0 < n → (hostWrites a n = true ↔ a + n ≤ lpddrEnd ∧ ∀ k, a ≤ k → k < a + n → firmwareOnly k = false)) ∧
  (∀ (s : State) e kind lo hi n, n < 256 → nbits (s.exportRecord n) 17 0 = e.toNat → nbit (s.exportRecord n) 18 = true →
    nbit (s.exportRecord n) kind = true → 4096 * nbits (s.exportRecord n) 92 64 ≤ lo →
    hi ≤ 4096 * nbits (s.exportRecord n) 121 93 → s.exported e kind lo hi = true) ∧
  (∀ e a n s, s.linksUp = true → a + n ≤ lpddrEnd → s.exported e 19 a (a + n) = true →
    exec (.peerRequest e a (.load n)) s =
      .next { s with hostOut := s.hostOut ++ [.data (s.bytes a n) (s.poisoned a n)] }) ∧
  (∀ e a bs s, s.linksUp = true → hostWrites a bs.length = true → s.exported e 20 a (a + bs.length) = true →
    exec (.peerRequest e a (.store bs)) s = .next (s.peerStore a bs)) ∧
  (∀ e a op v new s, s.linksUp = true → hostWrites a 4 = true → s.exported e 20 a (a + 4) = true →
    s.poisoned a 4 = false → exec (.peerRequest e a (.atom op false v new)) s =
      .next ((s.putNum a 4 (atomNew op 32 (s.num a 4) (v.toNat % 2 ^ 32) (new.toNat % 2 ^ 32))).reply
        (.data (leBytes 4 (s.num a 4)) false))) ∧
  (∀ e a k s, s.linksUp = false → exec (.peerRequest e a k) s =
    .next { s with hostOut := s.hostOut ++ [.refused] }) ∧
  (∀ e a n s, s.exported e 19 a (a + n) = false → exec (.peerRequest e a (.load n)) s =
    .next { s with hostOut := s.hostOut ++ [.refused] }) ∧
  (∀ e a bs s, s.exported e 20 a (a + bs.length) = false ∨ hostWrites a bs.length = false → exec (.peerRequest e a (.store bs)) s =
    .next { s with hostOut := s.hostOut ++ [.refused] }) ∧
  (∀ e a op w v new s, s.exported e 20 a (a + if w then 8 else 4) = false ∨ hostWrites a (if w then 8 else 4) = false →
    exec (.peerRequest e a (.atom op w v new)) s = .next { s with hostOut := s.hostOut ++ [.refused] })

/-! ### Dies and links (R385-R389) -/

/-- R387-R389: a snoop of a die in reach is performed at it; one of a sleeping die wakes it, is held, and is
answered as pending, as is one of a waking die; a lost die's snoops are answered with poison. The held ones are
performed when the link comes up. A waking die that has not come up T_WAKE (12 us) after it started to wake
becomes unresponsive, that being its first missed answer, and an unresponsive one is lost once T_DEAD (2 ms) has
passed since then: its link is lost and it holds no request; an answer that comes at that moment is dropped and
the die is lost (R389). R384-R386: a RETRY_REQUEST of a link in service sends the flit named and every later one
that is in the replay buffer again, each one time more, and is logged as a link error where flits still on the
wire were dropped; the sixteenth time of one of them takes the link down. An acknowledgement takes the flits up
to it out of the replay buffer. The receiver takes the flit it expects, drops one it has taken before, and drops
one with a bad CRC or beyond the one expected with all that follow, asking for a retry from the one expected. It
sends PAUSE of a class whose buffer has reached its threshold and RESUME once less than half of it is held. A
link without an acknowledgement for 100 us while flits wait for one, or with a class paused that long, goes
down. PAUSE and RESUME stop and free one class: no new flit of a paused class is sent, and a remote push over a
port whose pushes are paused waits. A link that goes down stays down until it comes up again, and a die whose
link goes down becomes unresponsive. That an acknowledgement or a retry request which names a later flit says
that flits up to it have been sent, and the thresholds, are log 59. That such steps stand on their own, and when
they are taken, is the model's choice (log 2). -/
def Obligations.DiesAndLinks : Prop :=
  ((∀ die line s, s.dies[die]? = none → exec (.hostSnoop die line) s = .next s ∧ exec (.linkUp die) s = .next s ∧
    exec (.tDead die) s = .next s) ∧
  (∀ die line s d, s.dies[die]? = some d → d.link = .up → exec (.hostSnoop die line) s = .next ((s.useLink (.d2d die)).snoop die line)) ∧
  (∀ die line s d, s.dies[die]? = some d → d.link = .asleep ∨ d.link = .waking →
    ∃ t, exec (.hostSnoop die line) s = .next t ∧
      t.dies[die]? = some { d with link := .waking, held := d.held ++ [.snoop line],
                                   woken := if d.link = .asleep then some s.ts.toNat else d.woken } ∧
      t.hostOut = s.hostOut ++ [.wakePending] ∧ t.mem = s.mem) ∧
  (∀ die line s d, s.dies[die]? = some d → d.link = .unresponsive → ∃ t, exec (.hostSnoop die line) s = .next t ∧
    t.dies[die]? = some { d with held := d.held ++ [.snoop line] } ∧ t.hostOut = s.hostOut ∧ t.mem = s.mem) ∧
  (∀ die line s d, s.dies[die]? = some d → d.link = .lost →
    exec (.hostSnoop die line) s = .next ((s.useLink (.d2d die)).reply (.data [] true))) ∧
  (∀ die s d, s.dies[die]? = some d → d.link = .waking ∨ d.link = .unresponsive → d.dead s.ts.toNat = false →
    ∃ u, exec (.linkUp die) s = .next (d.held.foldl (fun (s : State) r => s.serve die r) u) ∧
    u.dies[die]? = some { d with link := .up, held := [], missed := none, woken := none } ∧ u.mem = s.mem ∧ u.edge = s.edge) ∧
  (∀ die s d, s.dies[die]? = some d → d.dead s.ts.toNat = true → exec (.linkUp die) s = .next (s.loseDie die)) ∧
  (∀ die s d, s.dies[die]? = some d → d.link ≠ .waking ∧ d.link ≠ .unresponsive →
    exec (.linkUp die) s = .next s) ∧
  (∀ die s d w, s.dies[die]? = some d → d.link = .waking → d.woken = some w → w + 12000 ≤ s.ts.toNat →
    ∃ t, exec (.tWake die) s = .next t ∧
    t.dies[die]? = some { d with link := .unresponsive, missed := some s.ts.toNat, woken := none } ∧ t.mem = s.mem ∧
    t.cores = s.cores) ∧
  (∀ die s, (∀ d, s.dies[die]? = some d → d.link ≠ .waking ∨ ∃ w, d.woken = some w ∧ s.ts.toNat < w + 12000) → ∃ t, exec (.tWake die) s = .next t ∧
    t.dies = s.dies ∧ t.mem = s.mem ∧ t.cores = s.cores) ∧
  (∀ die s d, s.dies[die]? = some d → d.link ≠ .unresponsive → exec (.tDead die) s = .next s) ∧
  (∀ die s d t, s.dies[die]? = some d → d.link = .unresponsive → d.missed = some t →
    exec (.tDead die) s = .next (if t + 2000000 ≤ s.ts.toNat then s.loseDie die else s)) ∧
  (∀ die (s : State) d, s.dies[die]? = some d → d.link = .unresponsive → ∃ e, (s.loseDie die).dies[die]? = some e ∧
    e.link = .lost ∧ e.held = [])) ∧
  ((∀ l n s, (s.link l).down = true → exec (.retryRequest l n) s = .next s ∧ exec (.linkDown l) s = .next s) ∧
  (∀ l n s x, (s.link l).down = false → x = s.sent (s.link l) (n + 1) → (∀ f ∈ (x.resend n).buf, f.resent < 16) →
    ∃ t, exec (.retryRequest l n) s = .next t ∧ t.link l = x.resend n ∧ (∀ m, m ≠ l → t.link m = s.link m) ∧
      t.logSeq = s.logSeq + if ∃ k ∈ x.wire, n ≤ k then 1 else 0) ∧
  (∀ l n s x, (s.link l).down = false → x = s.sent (s.link l) (n + 1) → (∃ f ∈ (x.resend n).buf, 16 ≤ f.resent) →
    ∃ t, exec (.retryRequest l n) s = .next t ∧ (t.link l).down = true) ∧
  (∀ (x : LinkState) n, (x.resend n).buf = (x.buf.map fun f =>
      { f with resent := if n ≤ f.seq then f.resent + 1 else f.resent }) ∧
    ∀ k, k ∈ (x.resend n).wire ↔ (k ∈ x.wire ∧ k < n) ∨ ∃ f ∈ x.buf, n ≤ f.seq ∧ f.seq = k) ∧
  (∀ (s : State) (x : LinkState) n f, f ∈ x.buf → f ∈ (s.sent x n).buf) ∧
  (∀ (s : State) (x : LinkState) n k, x.next ≤ k → k < n → ∃ c, ⟨k, c, 0⟩ ∈ (s.sent x n).buf ∧ k ∈ (s.sent x n).wire) ∧
  (∀ (s : State) (x : LinkState) n, n ≤ x.next → s.sent x n = x) ∧
  (∀ l s, (s.link l).down = false → exec (.linkDown l) s = .next (s.downLink l)) ∧
  (∀ l (s : State), ((s.downLink l).link l).down = true) ∧
  (∀ die (s : State) d, s.dies[die]? = some d → d.link = .up ∨ d.link = .waking →
    (s.downLink (.d2d die)).dies[die]? =
      some { d with link := .unresponsive, missed := some s.ts.toNat, woken := none }) ∧
  (∀ l n s x, x = s.sent (s.link l) (n + 1) → ∃ t, exec (.flitAcknowledgement l n) s = .next t ∧
    t.link l = { x with buf := x.buf.filter (fun f => decide (n < f.seq)), wire := x.wire.filter (fun k => decide (n < k)),
                        expect := max x.expect (n + 1), acked := s.ts.toNat } ∧
    ∀ m, m ≠ l → t.link m = s.link m) ∧
  (∀ (s : State) (x : LinkState) rest ack, x.wire = x.expect :: rest →
    (s.receive x true ack = s.dropFlit x) ∧
    ∃ t, s.receive x false ack = t ∧ t.link x.id = { x with
      wire := rest, expect := x.expect + 1,
      held := x.held ++ ((x.buf.find? fun f => f.seq == x.expect).map (·.cls)).toList } ∧ t.logSeq = s.logSeq) ∧
  (∀ (s : State) (x : LinkState) n rest bad ack, x.wire = n :: rest →
    (x.expect < n → s.receive x bad ack = s.dropFlit x) ∧
    (n < x.expect → ((s.receive x false ack).link x.id) = { x with wire := rest })) ∧
  (∀ (s : State) (x : LinkState), ((s.dropFlit x).link x.id).wire = [] ∧ (s.dropFlit x).logSeq = s.logSeq + 1 ∧
    (s.dropFlit x).agenda = s.agenda ++ [.event (.retryRequest x.id x.expect)]) ∧
  (∀ (s : State) l c, c ∉ (s.link l).stopped →
    Config.pauseAt (classNum c) < ((s.link l).held.filter (· == c)).length →
    (s.pauseCheck l c).agenda = s.agenda ++ [.event (.pause l c)]) ∧
  (∀ (s : State) l c, c ∈ (s.link l).stopped →
    2 * ((s.link l).held.filter (· == c)).length ≤ Config.pauseAt (classNum c) →
    (s.pauseCheck l c).agenda = s.agenda ++ [.event (.resume l c)]) ∧
  (∀ l c s, ∃ t, exec (.pause l c) s = .next t ∧ (c, s.ts.toNat) ∈ (t.link l).paused ∧
    (∀ p, p.1 ≠ c → (p ∈ (t.link l).paused ↔ p ∈ (s.link l).paused)) ∧ ∀ m, m ≠ l → t.link m = s.link m) ∧
  (∀ l c s, ∃ t, exec (.resume l c) s = .next t ∧ (∀ p ∈ (t.link l).paused, p.1 ≠ c) ∧
    (∀ p, p.1 ≠ c → (p ∈ (t.link l).paused ↔ p ∈ (s.link l).paused)) ∧ ∀ m, m ≠ l → t.link m = s.link m) ∧
  (∀ (x : LinkState) ts, x.late ts = true ↔ x.down = false ∧
    ((x.buf ≠ [] ∧ x.acked + 100000 ≤ ts) ∨ ∃ p ∈ x.paused, p.2 + 100000 ≤ ts)) ∧
  (∀ (s : State) (x : LinkState) salt c, s.freeClass x salt = some c → ∀ p ∈ x.paused, p.1 ≠ c) ∧
  (∀ (s : State) l, (∀ c, ∃ p ∈ (s.link l).paused, p.1 = c) → ((s.flitClock l).link l).next = (s.link l).next) ∧
  (∀ (x : Ctx) s d l ea w r, s.routeDown (nbits w 27 10) = false → s.routePaused (nbits w 27 10) .enqueue = true →
    x.sendPush s d l ea w r = .wait) ∧
  (∀ (x : Ctx) s d l ea w r q t u, s.routeDown (nbits w 27 10) = true → q = Push.mk (BitVec.ofNat 18 (nbits w 27 10))
      (nbits w 8 0) r x.g.ctx x.g.root x.g.jtab x.core x.g.gk (x.slotOf l)
      ((x.th l).winbase.toNat * 8 + d.toNat) x.slot ea w true none → s.pushDone q = .ok t u →
    x.sendPush s d l ea w r = .ok t (·.setV d.toNat 2) []))

/-! ### Management (R21, R323, R324, R384, R437-R441) -/

/-- R323, R324, R380, R381, R384, R437, R438, R440, R441: a scrub outside LPDDR does nothing; inside it logs the
error, of an uncorrectable one after its unit is poisoned, and a corrected one changes nothing else. What a
check at a boundary finds (`State.found`) is logged in the same way: in a word, a register, or a line of host or
peer memory that an L2 holds, whose copy is poisoned; a flit that is found wrong is dropped, and asked for
again; that these findings come from outside, as steps, is log 58. Telemetry changes only the management area,
and its state words give the dies' power states (log 90). RESET boots again: each image is verified, measured
and run in turn; with every image good the log has one entry for each, and the first stage that fails, because
its image is refused or its hardware fails, leaves the device in recovery in that stage, with meeting point 1
closed and the entries of the images before it. That RESET keeps what is still to come, the counter of free
values, the upper dies, the stored images and the bytes of host and peer memory is the model's choice (logs 60
and 6). A power state asked for while a pre-emption collects waits; the thresholds force a die, or every die, to
D1, in which it neither sleeps nor refuses admission (log 89), and let it go again; above 110 degrees module
power is gone. That such steps stand on their own, and when they are taken, is the model's choice (log 2). -/
def Obligations.Management : Prop :=
  (∀ a c s, isLpddr a = false → exec (.scrub a c) s = .next s) ∧
  (∀ a s, isLpddr a = true →
    exec (.scrub a true) s = .next (s.logError 3 false (a / 8 * 8)) ∨
    exec (.scrub a true) s = .next (s.logError 4 false (a / 32 * 32))) ∧
  (∀ a s, isLpddr a = true →
    exec (.scrub a false) s = .next ((s.poisonUnit (a / 8)).logError 3 true (a / 8 * 8)) ∨
    exec (.scrub a false) s = .next ((s.poisonSpan a 1 true).logError 4 true (a / 32 * 32))) ∧
  (∀ (s : State) k, isEdge k = false → s.found (.word 2 k) true = (s.poisonUnit (k / 8)).logError 2 true (k / 8 * 8)) ∧
  (∀ (s : State) k e, isEdge k = true → s.edge.filter (fun e => e.line == k / 128) = [e] →
    s.found (.word 2 k) true = (s.poisonCopy e.die (k / 8)).logError 2 true (s.unitAddr (k / 8 * 8))) ∧
  (∀ (s : State) e, (∀ l, e ≠ .link l) → ∃ a, s.found e false = s.logError e.store false a) ∧
  (∀ (s : State) l u, s.found (.link (some l)) u = s.dropFlit (s.link l)) ∧
  (∀ (s : State) u, ∃ a, s.found (.link none) u = s.logError 7 false a) ∧
  (∀ (s : State) core gk slot n t, s.found (.uniform core gk slot n) true = t →
    ∃ a, t = (s.modWarp core gk slot fun w => { w with upoison := n :: w.upoison }).logError 6 true a) ∧
  (∀ (s : State) store u a, (s.logError store u a).logSeq = s.logSeq + 1 ∧
    (s.logError store u a).events = s.events ++ [.errorLog (s.logSeq + 1).toNat]) ∧
  (∀ s, Sound s → ∃ t, exec .telemetry s = .next t ∧ ∀ k, k < Config.mgmtArea + 0x10000 ∨
    Config.mgmtArea + 0x10300 ≤ k → t.bytes k 1 = s.bytes k 1) ∧
  (∀ s, ∃ bs : List Byte, bs.length = 768 ∧ exec .telemetry s =
    .next (State.put { s with telemetryAt := s.ts.toNat } (Config.mgmtArea + 0x10000) bs)) ∧
  (∀ s t d x, Sound s → exec .telemetry s = .next t → d < 8 → s.dies[d]? = some x →
    t.num (Config.mgmtArea + 0x10000 + 64 * d + 8) 4 = if x.link = .asleep then 2 else powerNum (s.powerOf x)) ∧
  (∀ s, s.upper = 0xFF → s.bootFault = none →
    (∀ i ∈ s.resetImages, i.sigOk = true ∧ Config.antiRollback ≤ i.version) →
    exec .reset s = .next { State.reset with
      mem := s.mem.filter fun c => isEdge c.1, poison := s.poison.filter fun u => isEdge (8 * u),
      agenda := s.agenda, stepNo := s.stepNo, upper := s.upper, staged := s.staged, mlog := s.resetImages.map imageEntry }) ∧
  (∀ s k, s.bootFault = some k → k = 0 ∨ k = 2 ∨ k = 3 ∨ k = 4 →
    (∀ i ∈ s.resetImages, i.sigOk = true ∧ Config.antiRollback ≤ i.version) → ∃ t, exec .reset s = .next t ∧
    t.bootStage = k ∧ t.recovery.isSome = true ∧ t.mp1Open = false ∧ t.cores = [] ∧ (k < 3 → t.mem = s.mem)) ∧
  (∀ s pre i post, s.bootFault = none → s.resetImages = pre ++ i :: post →
    (∀ j ∈ pre, j.sigOk = true ∧ Config.antiRollback ≤ j.version) →
    i.sigOk = false ∨ i.version < Config.antiRollback → ∃ t, exec .reset s = .next t ∧
    t.bootStage = imageStage i.which ∧ t.recovery = some (if i.sigOk then 2 else 1) ∧ t.mp1Open = false ∧ t.cores = [] ∧
    t.mlog = pre.map imageEntry ∧ t.upper = s.upper ∧ t.staged = s.staged) ∧
  (∀ (s : State) b i, s.staged.find? (fun i => i.which == b) = some i → b ∈ bootImages → i ∈ s.resetImages) ∧
  (∀ d p s, s.preempt.isSome = true → s.mp3 = [] →
    exec (.powerState d p) s = .next { s with mp3 := [.power d p] }) ∧
  (∀ d p s, s.preempt = none → s.mp3 = [] → exec (.powerState d p) s = .next (s.applyPower d p)) ∧
  (∀ d p (s : State) x, p ≠ PState.d2 ∨ x.hot = true ∨ s.forcedCurrent = true ∨ s.forcedFlow = true →
    s.dies[d]? = some x → ∃ y, (s.applyPower d p).dies[d]? = some y ∧ y.want = p ∧
    (x.link = .asleep → y.link = .waking ∧ y.woken = some s.ts.toNat) ∧ (x.link ≠ .asleep → y.link = x.link)) ∧
  (∀ d (s : State) x, s.dies[d]? = some x → x.link = .up → s.busyCores d = [] → x.hot = false →
    s.forcedCurrent = false → s.forcedFlow = false →
    ∃ y, (s.applyPower d .d2).dies[d]? = some y ∧ y.want = .d2 ∧ y.link = .asleep) ∧
  (∀ (s : State) x, s.powerOf x = if x.hot = true ∨ s.forcedCurrent = true ∨ s.forcedFlow = true then .d1 else x.want) ∧
  (∀ (s : State) core x, s.dies[core / 128]? = some x →
    (s.coreOpen core = true ↔ x.link = .up ∧ s.powerOf x ≠ .d2)) ∧
  (∀ d s x, s.dies[d]? = some x → ∃ t y, exec (.temperatureAbove95 d) s = .next t ∧ t.dies[d]? = some y ∧
    y.hot = true ∧ y.want = x.want ∧ (x.link = .asleep → s.powerOf x ≠ .d1 → y.link = .waking) ∧
    (x.link ≠ .asleep ∨ s.powerOf x = .d1 → y.link = x.link)) ∧
  (∀ d s x, s.dies[d]? = some x → x.want ≠ .d2 → ∃ t y, exec (.temperatureBelow90 d) s = .next t ∧
    t.dies[d]? = some y ∧ y.hot = false ∧ s.powerOf y = if s.forcedCurrent = true ∨ s.forcedFlow = true then .d1 else x.want) ∧
  (∀ d s x, s.dies[d]? = some x → x.want = .d2 → x.link = .up → x.hot = true → s.forcedCurrent = false → s.forcedFlow = false →
    s.preempt = none → s.mp3 = [] → s.busyCores d = [] → ∃ t y, exec (.temperatureBelow90 d) s = .next t ∧
    t.dies[d]? = some y ∧ y.hot = false ∧ y.link = .asleep) ∧
  (∀ d s, ∃ a, exec (.temperatureAbove110 d) s = .next { s.logError 8 false a with powered := false }) ∧
  (∀ s, exec .currentAbove85a s = .next (State.repower { s with forcedCurrent := true } s (List.range 8)) ∧
    exec .currentBelow80a s = .next (State.repower { s with forcedCurrent := false } s (List.range 8)) ∧
    exec .flowBelow15 s = .next (State.repower { s with forcedFlow := true } s (List.range 8))) ∧
  (∀ (s old : State) ds, s.forcedCurrent = true ∨ s.forcedFlow = true → old.dies = s.dies →
    ∀ d x, d ∈ ds → s.dies[d]? = some x → ∃ y, (s.repower old ds).dies[d]? = some y ∧ y.want = x.want ∧
      (x.link = .asleep → old.powerOf x ≠ .d1 → y.link = .waking) ∧
      (x.link ≠ .asleep ∨ old.powerOf x = .d1 → y.link = x.link)) ∧
  (∀ d (s : State) q rest, s.mp3 = q :: rest → s.canTake q = false →
    s.request (.follow d) = { s with mp3 := s.mp3 ++ [.follow d] })

/-! ### The machine as a whole -/

/-- R437, R15: after reset every stage has run: the memory is in canonical form and, outside the two maps that
root firmware writes into the management area, reads zero, nothing is poisoned, TS is 0, no core holds a group,
no task, draw, replay or recording exists, every die's link is up and meeting point 1 is open. The model starts
after the boot, and where the maps lie is its choice (logs 5 and 6). -/
def Obligations.ResetState : Prop :=
  Sound State.reset ∧
  (∀ k, k < Config.mgmtArea ∨ Config.mgmtArea + 0x808 ≤ k → State.reset.byte k = 0) ∧
  State.reset.poison = [] ∧ State.reset.ts = 0 ∧ (∀ c, State.reset.core c = Core.empty) ∧
  State.reset.tasks = [] ∧ State.reset.draws = [] ∧ State.reset.replays = [] ∧ State.reset.recorders = [] ∧
  (∀ d, d < 8 → ∃ x, State.reset.dies[d]? = some x ∧ x.link = .up) ∧
  State.reset.bootStage = 5 ∧ State.reset.recovery = none ∧ State.reset.mp1Open = true

/-- Every step keeps the memory in canonical form. -/
def Obligations.StepKeepsMemoryCanonical : Prop :=
  ∀ s t, Sound s → step s = .next t → Sound t

/-- R40-R46: decoding the word of a well-formed instruction gives the instruction back, with every operand. -/
def Obligations.DecodeOfEncode : Prop :=
  ∀ i w, i.wellFormed = true → encode i = some w → decode w = .ok i

/-- R46: what the decoder answers is well-formed, and it has a word. -/
def Obligations.DecodedIsWellFormed : Prop :=
  ∀ w i, decode w = .ok i → i.wellFormed = true ∧ (encode i).isSome = true

/-- R41-R46: words of most families, written out from the encodings of the spec, decode to their instructions,
and a reserved major, the zero word and a word with a reserved bit are refused. -/
def Obligations.DecodeOfWrittenWords : Prop :=
  decode 0x00000001 = .ok .nop ∧
  decode 0x30504FFB = .ok (.iaddi 10 4 0xFFB) ∧
  decode 0x401803E8 = .ok (.movl 3 1000) ∧
  decode 0xC907FFFD = .ok (.bra 0x7FFFD) ∧
  decode 0x0438AEA0 = .ok (.iadd .s32 false 7 10 0x75) ∧
  decode 0x50402064 = .ok (.ffma .f32 .rn 8 2 3) ∧
  decode 0x782060EE = .ok (.wred .minidxZ32 4 6 7) ∧
  decode 0x84107001 = .ok (.meldDecl 2 7) ∧
  decode 0x8D185123 = .ok (.mstr 3 5 false true (some 9) (some 2)) ∧
  decode 0x9C402BFF = .ok (.st .b64 8 2 0x1FF) ∧
  decode 0xB4182085 = .ok (.acpy .cvt 1 3 2 (some 4)) ∧
  decode 0xD4000004 = .ok .exit ∧
  decode 0xE4304002 = .ok (.acqT 6 4) ∧
  decode 0xF4002065 = .ok (.blend .rep 2 3) ∧
  decode 0x00000000 = .error .unassignedSubcode ∧
  decode 0x00080001 = .error .reservedField ∧
  ∀ w : Word, w.extractLsb' 26 6 = 0x3F → decode w = .error .reservedMajor

/-- R46, R50, R238: where the agenda's head names lanes of a warp that issue and the word fetched decodes to i,
a step is exec of i at the set that issues, then the ages of the warp's paths, the stepped lanes' trap and the
counters; a word that decodes to nothing raises ILLOP there; lanes that wait try their instruction again with no
fetch, no age and no trap; a step of the package runs its event. The agenda, the steps of waiting lanes and of
the package, and that some of the latter let stalled paths try again are the model's choice (log 2). Where the
fetch address translates to an unpoisoned word no store has replaced, the word fetched is the one memory holds,
little-endian. -/
def Obligations.StepRunsTheDecodedInstruction : Prop :=
  (∀ s rest core wid lanes x w i, s.powered = true → s.agenda = .issue core wid lanes :: rest →
    State.issuingSet { s with agenda := rest } core wid lanes = some x → x.deliver = none → x.fetch = .ok w →
    decode w = .ok i →
    step s = onNext (onNext (exec i x.entered) fun t => x.stepTrap (x.aged t)) State.tick) ∧
  (∀ s rest core wid lanes x w r, s.powered = true → s.agenda = .issue core wid lanes :: rest →
    State.issuingSet { s with agenda := rest } core wid lanes = some x → x.deliver = none → x.fetch = .ok w →
    decode w = .error r →
    step s = onNext (onNext (exec .wordNotAnInstruction x.entered) fun t => x.stepTrap (x.aged t)) State.tick) ∧
  (∀ s rest core wid lanes x i, s.powered = true → s.agenda = .retry core wid lanes :: rest →
    State.waitingSet { s with agenda := rest } core wid lanes = some (x, i) →
    step s = onNext (exec i x.entered) State.tick) ∧
  (∀ s rest i, s.powered = true → s.agenda = .event i :: rest →
    step s = onNext (onNext (exec i { s with agenda := rest }) fun t => if wakes i then t.unstallAll else t)
      State.tick) ∧
  (∀ (x : Ctx) t, x.s.translate x.space .fetch x.pc.toNat = .ok t → x.s.dataBad x.die t 4 = false →
    (∀ e ∈ x.s.stale, e.1 ≠ t.key) →
    x.fetch = .ok (BitVec.ofNat 32 (leNat (x.s.readAt x.die t x.pc.toNat 4)))) ∧
  (∀ s : State, s.tick.stepNo = s.stepNo + 1 ∧ s.tick.mem = s.mem ∧ s.tick.cores = s.cores)

/-- R50, R238: the set that issues is some of the lanes asked for, each live, not waiting and at the set's
program counter, and its gang may issue; once it has entered, the machine's issuing set is that set, and memory
is as it was. A word of it that touches no pipe, in a gang that is not recorded, leaves what its effect leaves.
-/
def Obligations.SetThatIssues : Prop :=
  (∀ s core wid lanes x, State.issuingSet s core wid lanes = some x → x.s = s ∧ x.core = core ∧ x.lanes ≠ 0 ∧
    (s.core core).mayIssue s.clk x.g = true ∧ ∀ l, l ∈ maskLanes x.lanes → lanes.getLsbD l = true ∧
      ∃ t, x.g.laneThread x.w l = some t ∧ t.wait = .none ∧ t.pc = x.pc) ∧
  (∀ s core wid lanes x, State.issuingSet s core wid lanes = some x →
    ∃ y, ctxOf x.entered = some y ∧ y.core = core ∧ y.lanes = x.lanes ∧ y.pc = x.pc ∧ y.slot = x.slot ∧
      y.g.gk = x.g.gk ∧ y.s = x.entered ∧ y.s.mem = s.mem) ∧
  (∀ i (x : Ctx) eff, (∀ q ∈ (x.s.core x.core).pipes, q.gang ≠ x.g.gang) →
    x.s.recorderOf x.g.gang = none → performed i x eff = eff x) ∧
  (∀ i (x : Ctx) eff, (∀ q ∈ (x.s.core x.core).pipes, q.gang ≠ x.g.gang) →
    (∀ r ∈ (opndsOf i).ur, r ∉ x.w.tokw) → performed i x eff = eff x)

/-- R26, R29, R30, R39, R46, R47, R51, R132, R382: a word that names a register outside its holding, uses a
descriptor that does not pass R30, or writes a special register that cannot be written raises ILLOP; then a
privileged word in user mode raises ILLPRIV; then a failed token raises its cause once; then a pending register
stalls the path; then a poisoned register raises DATAERR; then a pipe register that is not ready raises PIPEFE
where the partner warp is gone and makes the lanes wait otherwise. None of them has any other effect. The order
among the failed token, the pending register, the poisoned one and the pipe is the model's choice (log 77). -/
def Obligations.WhatStopsAWord : Prop :=
  ∀ i s x, (encode i).isSome = true → ctxOf s = some x →
    (x.held (opndsOf i) = false ∨ x.tilesOk (opndsOf i) = false ∨ x.mtsLanes i = true →
      exec i s = .next (x.raise Cause.illop)) ∧
    (x.held (opndsOf i) = true → x.tilesOk (opndsOf i) = true → x.mtsLanes i = false →
      ((opndsOf i).priv = true → x.sup = false → exec i s = .next (x.raise Cause.illpriv)) ∧
      (((opndsOf i).priv = true → x.sup = true) →
        (∀ r c, x.failed (opndsOf i) = some (r, c) →
          exec i s = .next (x.park (x.modW x.s fun w =>
            { w with failTok := w.failTok.filter (fun e => e.1 != r), upstall := w.upstall.filter (· != r) })
            x.lanes (Cause.bit c))) ∧
        (x.failed (opndsOf i) = none →
          (x.pendingU i (opndsOf i) ≠ [] → ∃ f, exec i s = .next (x.stall (x.modW x.s f) .token) ∧
            ∀ w, f w = { w with upstall := (f w).upstall }) ∧
          (x.pendingU i (opndsOf i) = [] →
            (x.pendingV (opndsOf i) = true → exec i s = .next (x.stall x.s .token)) ∧
            (x.pendingV (opndsOf i) = false →
              (x.readsPoison (opndsOf i) = true → exec i s = .next (x.raise Cause.dataerr)) ∧
              (x.readsPoison (opndsOf i) = false →
                ((∃ q ∈ x.pipeBlocked (opndsOf i), x.partnerGone q = true) →
                  exec i s = .next (x.raise Cause.pipefe)) ∧
                (x.pipeBlocked (opndsOf i) ≠ [] → (∀ q ∈ x.pipeBlocked (opndsOf i), x.partnerGone q = false) →
                  ∃ ks, exec i s = .next (x.waitAt x.s x.ls (.pipe i ks x.s.stepNo)))))))))

/-- R332-R336, R338, R393: lanes in no sub-warp that raise causes form one more sub-warp of their warp, with the
union of the causes and the warp's notes, which leave the warp, and with TRAPPC at the instruction; their
threads stand at the trap entry and no longer wait. If PAGE is among the causes the gang stops with reason 1,
the threads staying where they are. Lanes of a sub-warp that raise causes stop their gang with reason 3 and form
nothing; a gang that stops already is not asked about here. A return takes all the lanes of a sub-warp to its
TRAPPC and its causes to the warp, and the sub-warp is gone. -/
def Obligations.HandlerEntryAndReturn : Prop :=
  (∀ (s : State) c gk slot lanes bits pc g w, s.group? c gk = some g → g.warp? slot = some w → lanes ≠ 0 →
    w.subOf ((maskLanes lanes).headD 0) = none →
    bits &&& (Cause.bit Cause.brk ||| Cause.bit Cause.step) = 0 → bits.getLsbD Cause.page = false →
    (w.cause &&& Cause.notes).getLsbD Cause.page = false →
    ∃ h v, (s.park c gk slot lanes bits pc).group? c gk = some h ∧ h.warp? slot = some v ∧ h.stop = g.stop ∧
      v.subs = w.subs ++ [⟨lanes, bits ||| (w.cause &&& Cause.notes), pc, false⟩] ∧
      v.cause = w.cause &&& ~~~(w.cause &&& Cause.notes) ∧
      ∀ l t th, l ∈ maskLanes lanes → w.tslot l = some t → sfind g.threads t = some th →
        ∃ u, sfind h.threads t = some u ∧ u.pc = trapEntry ∧ u.wait = .none ∧ u.vr = th.vr ∧ u.pr = th.pr ∧
          u.winbase = th.winbase) ∧
  (∀ (s : State) c gk slot lanes bits pc g w, s.group? c gk = some g → g.warp? slot = some w → lanes ≠ 0 →
    w.subOf ((maskLanes lanes).headD 0) = none → bits.getLsbD Cause.page = true → g.stop = none →
    ∃ h v, (s.park c gk slot lanes bits pc).group? c gk = some h ∧ h.warp? slot = some v ∧
      (∃ st, h.stop = some st ∧ st.reason = 1 ∧ st.pc = pc) ∧
      v.subs = w.subs ++ [⟨lanes, bits ||| (w.cause &&& Cause.notes), pc, false⟩] ∧
      ∀ l t th, l ∈ maskLanes lanes → w.tslot l = some t → sfind g.threads t = some th →
        ∃ u, sfind h.threads t = some u ∧ u.pc = th.pc) ∧
  (∀ (s : State) c gk slot lanes bits pc g w, s.group? c gk = some g → g.warp? slot = some w → lanes ≠ 0 →
    (w.subOf ((maskLanes lanes).headD 0)).isSome = true →
    bits &&& (Cause.bit Cause.brk ||| Cause.bit Cause.step) = 0 → g.stop = none →
    ∃ h, (s.park c gk slot lanes bits pc).group? c gk = some h ∧ h = { g with stop := some ⟨3, bits, pc, 0, s.clk, g.member⟩ }) ∧
  (∀ (s : State) c gk slot lanes g w b, s.group? c gk = some g → g.warp? slot = some w → lanes ≠ 0 →
    w.subOf ((maskLanes lanes).headD 0) = some b → b.lanes = lanes →
    ∃ h v, (s.tret c gk slot lanes).group? c gk = some h ∧ h.warp? slot = some v ∧ h.stop = g.stop ∧
      v.subs = w.subs.filter (fun q => q.lanes != lanes) ∧ v.cause = w.cause ||| b.cause ∧
      ∀ l t th, l ∈ maskLanes lanes → w.tslot l = some t → sfind g.threads t = some th →
        ∃ u, sfind h.threads t = some u ∧ u.pc = b.pc ∧ u.wait = .none ∧ u.vr = th.vr)

/-- The frame of the words that touch registers only: of the package only the issuing group changes; of the
group only the threads of the issuing lanes and the issuing warp slot; of those threads only the word's vector
destinations, its predicate, FPSTAT flags that are set and never cleared, and the program counter; of the warp
slot only the word's uniform destinations and what the scoreboard notes of them. Memory is as before. -/
def Obligations.RegisterWordFrame : Prop :=
  ∀ i s x t, registerWord i = true → i.wellFormed = true → Runs i s x → exec i s = .next t →
    (∀ q ∈ (s.core x.core).pipes, q.gang ≠ x.g.gang) → s.recorderOf x.g.gang = none →
    PackageKept s t ∧ CoreKept x.core s t ∧ GroupKept x.core x.g.gk s t ∧
    ∀ g h, s.group? x.core x.g.gk = some g → t.group? x.core x.g.gk = some h →
      (∀ k th, sfind g.threads k = some th → ∃ u, sfind h.threads k = some u ∧
        ((∃ l ∈ x.ls, x.slotOf l = k) → ThreadKept (opndsOf i).vw (predDst i) th u) ∧
        ((∀ l ∈ x.ls, x.slotOf l ≠ k) → u = th)) ∧
      (∀ k, k ≠ x.slot → h.warp? k = g.warp? k) ∧
      (∀ w, g.warp? x.slot = some w → ∃ v, h.warp? x.slot = some v ∧ (∀ n, n ∉ (opndsOf i).uw → v.u n = w.u n) ∧
        { v with ur := w.ur, upoison := w.upoison, failTok := w.failTok, upstall := w.upstall, tokw := w.tokw } = w)

/-- The memory frame of the words that store nothing: every byte of every store, and its poison, is as before,
where no gang is being recorded and no write-back is on its way. -/
def Obligations.WordsThatStoreNothing : Prop :=
  ∀ i s t, (encode i).isSome = true → mayStore i = false → s.recorders = [] → s.cleans = [] → exec i s = .next t →
    (∀ k, t.byte k = s.byte k) ∧ t.poison = s.poison

/-- R26, R27, R29: a vector or uniform register reads what was last written to it and the others keep their
values, in tables whose keys rise, which writes keep so; a pair is two registers, the lower one low; p0 reads
true and a write to it is discarded; every other predicate below 16 reads what was written. A word that
completes moves every lane of its set past it, each with its own result. -/
def Obligations.RegisterFiles : Prop :=
  (∀ (th : Thread) n v, risingFrom 0 th.vr = true → (th.setV n v).v n = v ∧ risingFrom 0 (th.setV n v).vr = true ∧
    ∀ m, m ≠ n → (th.setV n v).v m = th.v m) ∧
  (∀ (th : Thread) n v, risingFrom 0 th.vr = true → (th.setV64 n v).v64 n = v ∧ (th.setV64 n v).v n = lo64 v ∧
    (th.setV64 n v).v (n + 1) = hi64 v) ∧
  (∀ (w : Warp) n v, risingFrom 0 w.ur = true → (w.setU n v).u n = v ∧ risingFrom 0 (w.setU n v).ur = true ∧
    ∀ m, m ≠ n → (w.setU n v).u m = w.u m) ∧
  (∀ (th : Thread) b, th.setP 0 b = th ∧ th.p 0 = true) ∧
  (∀ (th : Thread) n b, 0 < n → n < 16 → (th.setP n b).p n = b ∧ ∀ m, m ≠ n → (th.setP n b).p m = th.p m) ∧
  (∀ (x : Ctx) (s : State) f g, s.group? x.core x.g.gk = some g →
    ∃ h, (x.done s f).group? x.core x.g.gk = some h ∧
      (∀ l t th, l ∈ x.ls → x.slotOf l = t → (∀ m ∈ x.ls, m ≠ l → x.slotOf m ≠ t) → sfind g.threads t = some th →
        sfind h.threads t = some { f l th with pc := x.pc + 4 }) ∧
      (∀ t, (∀ l ∈ x.ls, x.slotOf l ≠ t) → sfind h.threads t = sfind g.threads t))

end
end

