-- ==== Sys2Proof/Laws/Sparse.lean ====
section
/-! SUPPORT. Reading a sparse table after a change of it. -/

namespace Sys2Proof.Laws

open Sys2Proof.Machine

variable {α : Type}

/-- The entry put is the one read. -/
theorem sget_sput_self (l : Sparse α) (k : Nat) (v d : α) : sget (sput l k v) k d = v := by
  induction l with
  | nil => simp [sput, sget]
  | cons a r ih =>
    obtain ⟨j, u⟩ := a
    simp only [sput]
    split
    · simp [sget]
    · split
      · simp [sget]
      · rename_i h; simp [sget, Ne.symm h, ih]

/-- Other entries stay. -/
theorem sget_sput_of_ne (l : Sparse α) {j k : Nat} (h : j ≠ k) (v d : α) :
    sget (sput l k v) j d = sget l j d := by
  induction l with
  | nil => simp [sput, sget, Ne.symm h]
  | cons a r ih =>
    obtain ⟨i, u⟩ := a
    simp only [sput]
    split
    · simp [sget, Ne.symm h]
    · split
      · rename_i e; subst e; simp [sget, Ne.symm h]
      · simp [sget, ih]

/-- The entry put is the one found. -/
theorem sfind_sput_self (l : Sparse α) (k : Nat) (v : α) : sfind (sput l k v) k = some v := by
  induction l with
  | nil => simp [sput, sfind]
  | cons a r ih =>
    obtain ⟨j, u⟩ := a
    simp only [sput]
    split
    · simp [sfind]
    · split
      · simp [sfind]
      · rename_i h; simp [sfind, Ne.symm h, ih]

/-- Other entries are found as before. -/
theorem sfind_sput_of_ne (l : Sparse α) {j k : Nat} (h : j ≠ k) (v : α) :
    sfind (sput l k v) j = sfind l j := by
  induction l with
  | nil => simp [sput, sfind, Ne.symm h]
  | cons a r ih =>
    obtain ⟨i, u⟩ := a
    simp only [sput]
    split
    · simp [sfind, Ne.symm h]
    · split
      · rename_i e; subst e; simp [sfind, Ne.symm h]
      · simp [sfind, ih]

/-- Removing an entry leaves the others. -/
theorem sget_sdel_of_ne (l : Sparse α) {j k : Nat} (h : j ≠ k) (d : α) : sget (sdel l k) j d = sget l j d := by
  induction l with
  | nil => rfl
  | cons a r ih =>
    obtain ⟨i, u⟩ := a
    simp only [sdel]
    split
    · rename_i e; subst e; simp [sget, Ne.symm h]
    · simp [sget, ih]

/-- Below the keys of a rising table nothing is listed. -/
theorem sget_of_rising {l : Sparse α} {lo k : Nat} (h : risingFrom lo l = true) (hk : k < lo) (d : α) :
    sget l k d = d := by
  induction l generalizing lo with
  | nil => rfl
  | cons a r ih =>
    obtain ⟨j, u⟩ := a
    simp only [risingFrom, Bool.and_eq_true, decide_eq_true_eq] at h
    have hj : j ≠ k := by omega
    simp only [sget, hj, if_false]
    exact ih h.2 (by omega)

/-- An entry removed from a rising table reads as the default. -/
theorem sget_sdel_self {l : Sparse α} {lo : Nat} (h : risingFrom lo l = true) (k : Nat) (d : α) :
    sget (sdel l k) k d = d := by
  induction l generalizing lo with
  | nil => rfl
  | cons a r ih =>
    obtain ⟨j, u⟩ := a
    simp only [risingFrom, Bool.and_eq_true, decide_eq_true_eq] at h
    simp only [sdel]
    split
    · rename_i e; subst e; exact sget_of_rising h.2 (by omega) d
    · rename_i e; simp only [sget, e, if_false]; exact ih h.2

/-- A table that rises from a key rises from every lower one. -/
theorem rising_mono {l : Sparse α} {lo hi : Nat} (h : risingFrom hi l = true) (hle : lo ≤ hi) :
    risingFrom lo l = true := by
  cases l with
  | nil => rfl
  | cons a r =>
    obtain ⟨j, u⟩ := a
    simp only [risingFrom, Bool.and_eq_true, decide_eq_true_eq] at h ⊢
    exact ⟨by omega, h.2⟩

/-- Putting keeps the keys rising. -/
theorem rising_sput {l : Sparse α} {lo k : Nat} (h : risingFrom lo l = true) (hk : lo ≤ k) (v : α) :
    risingFrom lo (sput l k v) = true := by
  induction l generalizing lo with
  | nil => simp [sput, risingFrom, hk]
  | cons a r ih =>
    obtain ⟨j, u⟩ := a
    have h' := h
    simp only [risingFrom, Bool.and_eq_true, decide_eq_true_eq] at h'
    simp only [sput]
    split
    · rename_i hkj
      simp only [risingFrom, Bool.and_eq_true, decide_eq_true_eq]
      exact ⟨hk, by omega, h'.2⟩
    · split
      · rename_i e; subst e; simp [risingFrom, hk, h'.2]
      · simp only [risingFrom, Bool.and_eq_true, decide_eq_true_eq]
        exact ⟨h'.1, ih h'.2 (by omega)⟩

/-- Removing keeps the keys rising. -/
theorem rising_sdel {l : Sparse α} {lo : Nat} (h : risingFrom lo l = true) (k : Nat) :
    risingFrom lo (sdel l k) = true := by
  induction l generalizing lo with
  | nil => rfl
  | cons a r ih =>
    obtain ⟨j, u⟩ := a
    simp only [risingFrom, Bool.and_eq_true, decide_eq_true_eq] at h
    simp only [sdel]
    split
    · exact rising_mono h.2 (by omega)
    · simp only [risingFrom, Bool.and_eq_true, decide_eq_true_eq]; exact ⟨h.1, ih h.2⟩

variable [DecidableEq α]

/-- What was set is read, in a rising table. -/
theorem sget_sset_self {l : Sparse α} {lo : Nat} (h : risingFrom lo l = true) (k : Nat) (v d : α) :
    sget (sset l k v d) k d = v := by
  simp only [sset]
  split
  · rename_i e; rw [e]; exact sget_sdel_self h k d
  · exact sget_sput_self l k v d

/-- Setting an entry leaves the others. -/
theorem sget_sset_of_ne (l : Sparse α) {j k : Nat} (h : j ≠ k) (v d : α) :
    sget (sset l k v d) j d = sget l j d := by
  simp only [sset]
  split
  · exact sget_sdel_of_ne l h d
  · exact sget_sput_of_ne l h v d

/-- Setting keeps the keys rising. -/
theorem rising_sset {l : Sparse α} {lo k : Nat} (h : risingFrom lo l = true) (hk : lo ≤ k) (v d : α) :
    risingFrom lo (sset l k v d) = true := by
  simp only [sset]
  split
  · exact rising_sdel h k
  · exact rising_sput h hk v

end Sys2Proof.Laws
end

