-- ==== Sys2Proof/Laws/State.lean ====
section
/-! SUPPORT. What each change of a state, a group, a warp slot and a thread does to each field. -/

namespace Sys2Proof.Laws

open Sys2Proof.Machine

variable (s : State)

/-! ### setCore -/

@[simp] theorem setCore_mem (c : Nat) (k : Core) : (s.setCore c k).mem = s.mem := rfl
@[simp] theorem setCore_poison (c : Nat) (k : Core) : (s.setCore c k).poison = s.poison := rfl
@[simp] theorem setCore_owned (c : Nat) (k : Core) : (s.setCore c k).owned = s.owned := rfl
@[simp] theorem setCore_issue (c : Nat) (k : Core) : (s.setCore c k).issue = s.issue := rfl
@[simp] theorem setCore_agenda (c : Nat) (k : Core) : (s.setCore c k).agenda = s.agenda := rfl
@[simp] theorem setCore_stepNo (c : Nat) (k : Core) : (s.setCore c k).stepNo = s.stepNo := rfl
@[simp] theorem setCore_stale (c : Nat) (k : Core) : (s.setCore c k).stale = s.stale := rfl
@[simp] theorem setCore_clk (c : Nat) (k : Core) : (s.setCore c k).clk = s.clk := rfl
@[simp] theorem setCore_ts (c : Nat) (k : Core) : (s.setCore c k).ts = s.ts := rfl
@[simp] theorem setCore_cores (c : Nat) (k : Core) : (s.setCore c k).cores = sset s.cores c k Core.empty := rfl
@[simp] theorem setCore_ranges (c : Nat) (k : Core) : (s.setCore c k).ranges = s.ranges := rfl
@[simp] theorem setCore_rgen (c : Nat) (k : Core) : (s.setCore c k).rgen = s.rgen := rfl
@[simp] theorem setCore_commits (c : Nat) (k : Core) : (s.setCore c k).commits = s.commits := rfl
@[simp] theorem setCore_upper (c : Nat) (k : Core) : (s.setCore c k).upper = s.upper := rfl
@[simp] theorem setCore_edge (c : Nat) (k : Core) : (s.setCore c k).edge = s.edge := rfl
@[simp] theorem setCore_cleans (c : Nat) (k : Core) : (s.setCore c k).cleans = s.cleans := rfl
@[simp] theorem setCore_tasks (c : Nat) (k : Core) : (s.setCore c k).tasks = s.tasks := rfl
@[simp] theorem setCore_draws (c : Nat) (k : Core) : (s.setCore c k).draws = s.draws := rfl
@[simp] theorem setCore_replays (c : Nat) (k : Core) : (s.setCore c k).replays = s.replays := rfl
@[simp] theorem setCore_recorders (c : Nat) (k : Core) : (s.setCore c k).recorders = s.recorders := rfl
@[simp] theorem setCore_pushes (c : Nat) (k : Core) : (s.setCore c k).pushes = s.pushes := rfl
@[simp] theorem setCore_tapeOps (c : Nat) (k : Core) : (s.setCore c k).tapeOps = s.tapeOps := rfl
@[simp] theorem setCore_events (c : Nat) (k : Core) : (s.setCore c k).events = s.events := rfl
@[simp] theorem setCore_mp1Open (c : Nat) (k : Core) : (s.setCore c k).mp1Open = s.mp1Open := rfl
@[simp] theorem setCore_preempt (c : Nat) (k : Core) : (s.setCore c k).preempt = s.preempt := rfl
@[simp] theorem setCore_mp3 (c : Nat) (k : Core) : (s.setCore c k).mp3 = s.mp3 := rfl
@[simp] theorem setCore_dies (c : Nat) (k : Core) : (s.setCore c k).dies = s.dies := rfl
@[simp] theorem setCore_forcedCurrent (c : Nat) (k : Core) : (s.setCore c k).forcedCurrent = s.forcedCurrent := rfl
@[simp] theorem setCore_forcedFlow (c : Nat) (k : Core) : (s.setCore c k).forcedFlow = s.forcedFlow := rfl
@[simp] theorem setCore_powered (c : Nat) (k : Core) : (s.setCore c k).powered = s.powered := rfl
@[simp] theorem setCore_links (c : Nat) (k : Core) : (s.setCore c k).links = s.links := rfl
@[simp] theorem setCore_bootStage (c : Nat) (k : Core) : (s.setCore c k).bootStage = s.bootStage := rfl
@[simp] theorem setCore_recovery (c : Nat) (k : Core) : (s.setCore c k).recovery = s.recovery := rfl
@[simp] theorem setCore_bootFault (c : Nat) (k : Core) : (s.setCore c k).bootFault = s.bootFault := rfl
@[simp] theorem setCore_mlog (c : Nat) (k : Core) : (s.setCore c k).mlog = s.mlog := rfl
@[simp] theorem setCore_staged (c : Nat) (k : Core) : (s.setCore c k).staged = s.staged := rfl
@[simp] theorem setCore_lastCommit (c : Nat) (k : Core) : (s.setCore c k).lastCommit = s.lastCommit := rfl
@[simp] theorem setCore_verdictSeq (c : Nat) (k : Core) : (s.setCore c k).verdictSeq = s.verdictSeq := rfl
@[simp] theorem setCore_logSeq (c : Nat) (k : Core) : (s.setCore c k).logSeq = s.logSeq := rfl
@[simp] theorem setCore_telemetryAt (c : Nat) (k : Core) : (s.setCore c k).telemetryAt = s.telemetryAt := rfl
@[simp] theorem setCore_mailOut (c : Nat) (k : Core) : (s.setCore c k).mailOut = s.mailOut := rfl
@[simp] theorem setCore_spdmOut (c : Nat) (k : Core) : (s.setCore c k).spdmOut = s.spdmOut := rfl
@[simp] theorem setCore_hostOut (c : Nat) (k : Core) : (s.setCore c k).hostOut = s.hostOut := rfl
@[simp] theorem setCore_heldPushes (c : Nat) (k : Core) : (s.setCore c k).heldPushes = s.heldPushes := rfl
@[simp] theorem setCore_images (c : Nat) (k : Core) : (s.setCore c k).images = s.images := rfl
@[simp] theorem setCore_fresh (c : Nat) (k : Core) : (s.setCore c k).fresh = s.fresh := rfl

/-! ### modCore -/

@[simp] theorem modCore_mem (c : Nat) (f : Core → Core) : (s.modCore c f).mem = s.mem := rfl
@[simp] theorem modCore_poison (c : Nat) (f : Core → Core) : (s.modCore c f).poison = s.poison := rfl
@[simp] theorem modCore_owned (c : Nat) (f : Core → Core) : (s.modCore c f).owned = s.owned := rfl
@[simp] theorem modCore_issue (c : Nat) (f : Core → Core) : (s.modCore c f).issue = s.issue := rfl
@[simp] theorem modCore_agenda (c : Nat) (f : Core → Core) : (s.modCore c f).agenda = s.agenda := rfl
@[simp] theorem modCore_stepNo (c : Nat) (f : Core → Core) : (s.modCore c f).stepNo = s.stepNo := rfl
@[simp] theorem modCore_stale (c : Nat) (f : Core → Core) : (s.modCore c f).stale = s.stale := rfl
@[simp] theorem modCore_clk (c : Nat) (f : Core → Core) : (s.modCore c f).clk = s.clk := rfl
@[simp] theorem modCore_ts (c : Nat) (f : Core → Core) : (s.modCore c f).ts = s.ts := rfl
@[simp] theorem modCore_cores (c : Nat) (f : Core → Core) : (s.modCore c f).cores = sset s.cores c (f (s.core c)) Core.empty := rfl
@[simp] theorem modCore_ranges (c : Nat) (f : Core → Core) : (s.modCore c f).ranges = s.ranges := rfl
@[simp] theorem modCore_rgen (c : Nat) (f : Core → Core) : (s.modCore c f).rgen = s.rgen := rfl
@[simp] theorem modCore_commits (c : Nat) (f : Core → Core) : (s.modCore c f).commits = s.commits := rfl
@[simp] theorem modCore_upper (c : Nat) (f : Core → Core) : (s.modCore c f).upper = s.upper := rfl
@[simp] theorem modCore_edge (c : Nat) (f : Core → Core) : (s.modCore c f).edge = s.edge := rfl
@[simp] theorem modCore_cleans (c : Nat) (f : Core → Core) : (s.modCore c f).cleans = s.cleans := rfl
@[simp] theorem modCore_tasks (c : Nat) (f : Core → Core) : (s.modCore c f).tasks = s.tasks := rfl
@[simp] theorem modCore_draws (c : Nat) (f : Core → Core) : (s.modCore c f).draws = s.draws := rfl
@[simp] theorem modCore_replays (c : Nat) (f : Core → Core) : (s.modCore c f).replays = s.replays := rfl
@[simp] theorem modCore_recorders (c : Nat) (f : Core → Core) : (s.modCore c f).recorders = s.recorders := rfl
@[simp] theorem modCore_pushes (c : Nat) (f : Core → Core) : (s.modCore c f).pushes = s.pushes := rfl
@[simp] theorem modCore_tapeOps (c : Nat) (f : Core → Core) : (s.modCore c f).tapeOps = s.tapeOps := rfl
@[simp] theorem modCore_events (c : Nat) (f : Core → Core) : (s.modCore c f).events = s.events := rfl
@[simp] theorem modCore_mp1Open (c : Nat) (f : Core → Core) : (s.modCore c f).mp1Open = s.mp1Open := rfl
@[simp] theorem modCore_preempt (c : Nat) (f : Core → Core) : (s.modCore c f).preempt = s.preempt := rfl
@[simp] theorem modCore_mp3 (c : Nat) (f : Core → Core) : (s.modCore c f).mp3 = s.mp3 := rfl
@[simp] theorem modCore_dies (c : Nat) (f : Core → Core) : (s.modCore c f).dies = s.dies := rfl
@[simp] theorem modCore_forcedCurrent (c : Nat) (f : Core → Core) : (s.modCore c f).forcedCurrent = s.forcedCurrent := rfl
@[simp] theorem modCore_forcedFlow (c : Nat) (f : Core → Core) : (s.modCore c f).forcedFlow = s.forcedFlow := rfl
@[simp] theorem modCore_powered (c : Nat) (f : Core → Core) : (s.modCore c f).powered = s.powered := rfl
@[simp] theorem modCore_links (c : Nat) (f : Core → Core) : (s.modCore c f).links = s.links := rfl
@[simp] theorem modCore_bootStage (c : Nat) (f : Core → Core) : (s.modCore c f).bootStage = s.bootStage := rfl
@[simp] theorem modCore_recovery (c : Nat) (f : Core → Core) : (s.modCore c f).recovery = s.recovery := rfl
@[simp] theorem modCore_bootFault (c : Nat) (f : Core → Core) : (s.modCore c f).bootFault = s.bootFault := rfl
@[simp] theorem modCore_mlog (c : Nat) (f : Core → Core) : (s.modCore c f).mlog = s.mlog := rfl
@[simp] theorem modCore_staged (c : Nat) (f : Core → Core) : (s.modCore c f).staged = s.staged := rfl
@[simp] theorem modCore_lastCommit (c : Nat) (f : Core → Core) : (s.modCore c f).lastCommit = s.lastCommit := rfl
@[simp] theorem modCore_verdictSeq (c : Nat) (f : Core → Core) : (s.modCore c f).verdictSeq = s.verdictSeq := rfl
@[simp] theorem modCore_logSeq (c : Nat) (f : Core → Core) : (s.modCore c f).logSeq = s.logSeq := rfl
@[simp] theorem modCore_telemetryAt (c : Nat) (f : Core → Core) : (s.modCore c f).telemetryAt = s.telemetryAt := rfl
@[simp] theorem modCore_mailOut (c : Nat) (f : Core → Core) : (s.modCore c f).mailOut = s.mailOut := rfl
@[simp] theorem modCore_spdmOut (c : Nat) (f : Core → Core) : (s.modCore c f).spdmOut = s.spdmOut := rfl
@[simp] theorem modCore_hostOut (c : Nat) (f : Core → Core) : (s.modCore c f).hostOut = s.hostOut := rfl
@[simp] theorem modCore_heldPushes (c : Nat) (f : Core → Core) : (s.modCore c f).heldPushes = s.heldPushes := rfl
@[simp] theorem modCore_images (c : Nat) (f : Core → Core) : (s.modCore c f).images = s.images := rfl
@[simp] theorem modCore_fresh (c : Nat) (f : Core → Core) : (s.modCore c f).fresh = s.fresh := rfl

/-! ### modGroup -/

@[simp] theorem modGroup_mem (c gk : Nat) (f : Group → Group) : (s.modGroup c gk f).mem = s.mem := rfl
@[simp] theorem modGroup_poison (c gk : Nat) (f : Group → Group) : (s.modGroup c gk f).poison = s.poison := rfl
@[simp] theorem modGroup_owned (c gk : Nat) (f : Group → Group) : (s.modGroup c gk f).owned = s.owned := rfl
@[simp] theorem modGroup_issue (c gk : Nat) (f : Group → Group) : (s.modGroup c gk f).issue = s.issue := rfl
@[simp] theorem modGroup_agenda (c gk : Nat) (f : Group → Group) : (s.modGroup c gk f).agenda = s.agenda := rfl
@[simp] theorem modGroup_stepNo (c gk : Nat) (f : Group → Group) : (s.modGroup c gk f).stepNo = s.stepNo := rfl
@[simp] theorem modGroup_stale (c gk : Nat) (f : Group → Group) : (s.modGroup c gk f).stale = s.stale := rfl
@[simp] theorem modGroup_clk (c gk : Nat) (f : Group → Group) : (s.modGroup c gk f).clk = s.clk := rfl
@[simp] theorem modGroup_ts (c gk : Nat) (f : Group → Group) : (s.modGroup c gk f).ts = s.ts := rfl
@[simp] theorem modGroup_cores (c gk : Nat) (f : Group → Group) : (s.modGroup c gk f).cores = sset s.cores c ((s.core c).modGroup gk f) Core.empty := rfl
@[simp] theorem modGroup_ranges (c gk : Nat) (f : Group → Group) : (s.modGroup c gk f).ranges = s.ranges := rfl
@[simp] theorem modGroup_rgen (c gk : Nat) (f : Group → Group) : (s.modGroup c gk f).rgen = s.rgen := rfl
@[simp] theorem modGroup_commits (c gk : Nat) (f : Group → Group) : (s.modGroup c gk f).commits = s.commits := rfl
@[simp] theorem modGroup_upper (c gk : Nat) (f : Group → Group) : (s.modGroup c gk f).upper = s.upper := rfl
@[simp] theorem modGroup_edge (c gk : Nat) (f : Group → Group) : (s.modGroup c gk f).edge = s.edge := rfl
@[simp] theorem modGroup_cleans (c gk : Nat) (f : Group → Group) : (s.modGroup c gk f).cleans = s.cleans := rfl
@[simp] theorem modGroup_tasks (c gk : Nat) (f : Group → Group) : (s.modGroup c gk f).tasks = s.tasks := rfl
@[simp] theorem modGroup_draws (c gk : Nat) (f : Group → Group) : (s.modGroup c gk f).draws = s.draws := rfl
@[simp] theorem modGroup_replays (c gk : Nat) (f : Group → Group) : (s.modGroup c gk f).replays = s.replays := rfl
@[simp] theorem modGroup_recorders (c gk : Nat) (f : Group → Group) : (s.modGroup c gk f).recorders = s.recorders := rfl
@[simp] theorem modGroup_pushes (c gk : Nat) (f : Group → Group) : (s.modGroup c gk f).pushes = s.pushes := rfl
@[simp] theorem modGroup_tapeOps (c gk : Nat) (f : Group → Group) : (s.modGroup c gk f).tapeOps = s.tapeOps := rfl
@[simp] theorem modGroup_events (c gk : Nat) (f : Group → Group) : (s.modGroup c gk f).events = s.events := rfl
@[simp] theorem modGroup_mp1Open (c gk : Nat) (f : Group → Group) : (s.modGroup c gk f).mp1Open = s.mp1Open := rfl
@[simp] theorem modGroup_preempt (c gk : Nat) (f : Group → Group) : (s.modGroup c gk f).preempt = s.preempt := rfl
@[simp] theorem modGroup_mp3 (c gk : Nat) (f : Group → Group) : (s.modGroup c gk f).mp3 = s.mp3 := rfl
@[simp] theorem modGroup_dies (c gk : Nat) (f : Group → Group) : (s.modGroup c gk f).dies = s.dies := rfl
@[simp] theorem modGroup_forcedCurrent (c gk : Nat) (f : Group → Group) : (s.modGroup c gk f).forcedCurrent = s.forcedCurrent := rfl
@[simp] theorem modGroup_forcedFlow (c gk : Nat) (f : Group → Group) : (s.modGroup c gk f).forcedFlow = s.forcedFlow := rfl
@[simp] theorem modGroup_powered (c gk : Nat) (f : Group → Group) : (s.modGroup c gk f).powered = s.powered := rfl
@[simp] theorem modGroup_links (c gk : Nat) (f : Group → Group) : (s.modGroup c gk f).links = s.links := rfl
@[simp] theorem modGroup_bootStage (c gk : Nat) (f : Group → Group) : (s.modGroup c gk f).bootStage = s.bootStage := rfl
@[simp] theorem modGroup_recovery (c gk : Nat) (f : Group → Group) : (s.modGroup c gk f).recovery = s.recovery := rfl
@[simp] theorem modGroup_bootFault (c gk : Nat) (f : Group → Group) : (s.modGroup c gk f).bootFault = s.bootFault := rfl
@[simp] theorem modGroup_mlog (c gk : Nat) (f : Group → Group) : (s.modGroup c gk f).mlog = s.mlog := rfl
@[simp] theorem modGroup_staged (c gk : Nat) (f : Group → Group) : (s.modGroup c gk f).staged = s.staged := rfl
@[simp] theorem modGroup_lastCommit (c gk : Nat) (f : Group → Group) : (s.modGroup c gk f).lastCommit = s.lastCommit := rfl
@[simp] theorem modGroup_verdictSeq (c gk : Nat) (f : Group → Group) : (s.modGroup c gk f).verdictSeq = s.verdictSeq := rfl
@[simp] theorem modGroup_logSeq (c gk : Nat) (f : Group → Group) : (s.modGroup c gk f).logSeq = s.logSeq := rfl
@[simp] theorem modGroup_telemetryAt (c gk : Nat) (f : Group → Group) : (s.modGroup c gk f).telemetryAt = s.telemetryAt := rfl
@[simp] theorem modGroup_mailOut (c gk : Nat) (f : Group → Group) : (s.modGroup c gk f).mailOut = s.mailOut := rfl
@[simp] theorem modGroup_spdmOut (c gk : Nat) (f : Group → Group) : (s.modGroup c gk f).spdmOut = s.spdmOut := rfl
@[simp] theorem modGroup_hostOut (c gk : Nat) (f : Group → Group) : (s.modGroup c gk f).hostOut = s.hostOut := rfl
@[simp] theorem modGroup_heldPushes (c gk : Nat) (f : Group → Group) : (s.modGroup c gk f).heldPushes = s.heldPushes := rfl
@[simp] theorem modGroup_images (c gk : Nat) (f : Group → Group) : (s.modGroup c gk f).images = s.images := rfl
@[simp] theorem modGroup_fresh (c gk : Nat) (f : Group → Group) : (s.modGroup c gk f).fresh = s.fresh := rfl

/-! ### modWarp -/

@[simp] theorem modWarp_mem (c gk slot : Nat) (f : Warp → Warp) : (s.modWarp c gk slot f).mem = s.mem := rfl
@[simp] theorem modWarp_poison (c gk slot : Nat) (f : Warp → Warp) : (s.modWarp c gk slot f).poison = s.poison := rfl
@[simp] theorem modWarp_owned (c gk slot : Nat) (f : Warp → Warp) : (s.modWarp c gk slot f).owned = s.owned := rfl
@[simp] theorem modWarp_issue (c gk slot : Nat) (f : Warp → Warp) : (s.modWarp c gk slot f).issue = s.issue := rfl
@[simp] theorem modWarp_agenda (c gk slot : Nat) (f : Warp → Warp) : (s.modWarp c gk slot f).agenda = s.agenda := rfl
@[simp] theorem modWarp_stepNo (c gk slot : Nat) (f : Warp → Warp) : (s.modWarp c gk slot f).stepNo = s.stepNo := rfl
@[simp] theorem modWarp_stale (c gk slot : Nat) (f : Warp → Warp) : (s.modWarp c gk slot f).stale = s.stale := rfl
@[simp] theorem modWarp_clk (c gk slot : Nat) (f : Warp → Warp) : (s.modWarp c gk slot f).clk = s.clk := rfl
@[simp] theorem modWarp_ts (c gk slot : Nat) (f : Warp → Warp) : (s.modWarp c gk slot f).ts = s.ts := rfl
@[simp] theorem modWarp_cores (c gk slot : Nat) (f : Warp → Warp) : (s.modWarp c gk slot f).cores = sset s.cores c ((s.core c).modGroup gk fun g => g.modWarp slot f) Core.empty := rfl
@[simp] theorem modWarp_ranges (c gk slot : Nat) (f : Warp → Warp) : (s.modWarp c gk slot f).ranges = s.ranges := rfl
@[simp] theorem modWarp_rgen (c gk slot : Nat) (f : Warp → Warp) : (s.modWarp c gk slot f).rgen = s.rgen := rfl
@[simp] theorem modWarp_commits (c gk slot : Nat) (f : Warp → Warp) : (s.modWarp c gk slot f).commits = s.commits := rfl
@[simp] theorem modWarp_upper (c gk slot : Nat) (f : Warp → Warp) : (s.modWarp c gk slot f).upper = s.upper := rfl
@[simp] theorem modWarp_edge (c gk slot : Nat) (f : Warp → Warp) : (s.modWarp c gk slot f).edge = s.edge := rfl
@[simp] theorem modWarp_cleans (c gk slot : Nat) (f : Warp → Warp) : (s.modWarp c gk slot f).cleans = s.cleans := rfl
@[simp] theorem modWarp_tasks (c gk slot : Nat) (f : Warp → Warp) : (s.modWarp c gk slot f).tasks = s.tasks := rfl
@[simp] theorem modWarp_draws (c gk slot : Nat) (f : Warp → Warp) : (s.modWarp c gk slot f).draws = s.draws := rfl
@[simp] theorem modWarp_replays (c gk slot : Nat) (f : Warp → Warp) : (s.modWarp c gk slot f).replays = s.replays := rfl
@[simp] theorem modWarp_recorders (c gk slot : Nat) (f : Warp → Warp) : (s.modWarp c gk slot f).recorders = s.recorders := rfl
@[simp] theorem modWarp_pushes (c gk slot : Nat) (f : Warp → Warp) : (s.modWarp c gk slot f).pushes = s.pushes := rfl
@[simp] theorem modWarp_tapeOps (c gk slot : Nat) (f : Warp → Warp) : (s.modWarp c gk slot f).tapeOps = s.tapeOps := rfl
@[simp] theorem modWarp_events (c gk slot : Nat) (f : Warp → Warp) : (s.modWarp c gk slot f).events = s.events := rfl
@[simp] theorem modWarp_mp1Open (c gk slot : Nat) (f : Warp → Warp) : (s.modWarp c gk slot f).mp1Open = s.mp1Open := rfl
@[simp] theorem modWarp_preempt (c gk slot : Nat) (f : Warp → Warp) : (s.modWarp c gk slot f).preempt = s.preempt := rfl
@[simp] theorem modWarp_mp3 (c gk slot : Nat) (f : Warp → Warp) : (s.modWarp c gk slot f).mp3 = s.mp3 := rfl
@[simp] theorem modWarp_dies (c gk slot : Nat) (f : Warp → Warp) : (s.modWarp c gk slot f).dies = s.dies := rfl
@[simp] theorem modWarp_forcedCurrent (c gk slot : Nat) (f : Warp → Warp) : (s.modWarp c gk slot f).forcedCurrent = s.forcedCurrent := rfl
@[simp] theorem modWarp_forcedFlow (c gk slot : Nat) (f : Warp → Warp) : (s.modWarp c gk slot f).forcedFlow = s.forcedFlow := rfl
@[simp] theorem modWarp_powered (c gk slot : Nat) (f : Warp → Warp) : (s.modWarp c gk slot f).powered = s.powered := rfl
@[simp] theorem modWarp_links (c gk slot : Nat) (f : Warp → Warp) : (s.modWarp c gk slot f).links = s.links := rfl
@[simp] theorem modWarp_bootStage (c gk slot : Nat) (f : Warp → Warp) : (s.modWarp c gk slot f).bootStage = s.bootStage := rfl
@[simp] theorem modWarp_recovery (c gk slot : Nat) (f : Warp → Warp) : (s.modWarp c gk slot f).recovery = s.recovery := rfl
@[simp] theorem modWarp_bootFault (c gk slot : Nat) (f : Warp → Warp) : (s.modWarp c gk slot f).bootFault = s.bootFault := rfl
@[simp] theorem modWarp_mlog (c gk slot : Nat) (f : Warp → Warp) : (s.modWarp c gk slot f).mlog = s.mlog := rfl
@[simp] theorem modWarp_staged (c gk slot : Nat) (f : Warp → Warp) : (s.modWarp c gk slot f).staged = s.staged := rfl
@[simp] theorem modWarp_lastCommit (c gk slot : Nat) (f : Warp → Warp) : (s.modWarp c gk slot f).lastCommit = s.lastCommit := rfl
@[simp] theorem modWarp_verdictSeq (c gk slot : Nat) (f : Warp → Warp) : (s.modWarp c gk slot f).verdictSeq = s.verdictSeq := rfl
@[simp] theorem modWarp_logSeq (c gk slot : Nat) (f : Warp → Warp) : (s.modWarp c gk slot f).logSeq = s.logSeq := rfl
@[simp] theorem modWarp_telemetryAt (c gk slot : Nat) (f : Warp → Warp) : (s.modWarp c gk slot f).telemetryAt = s.telemetryAt := rfl
@[simp] theorem modWarp_mailOut (c gk slot : Nat) (f : Warp → Warp) : (s.modWarp c gk slot f).mailOut = s.mailOut := rfl
@[simp] theorem modWarp_spdmOut (c gk slot : Nat) (f : Warp → Warp) : (s.modWarp c gk slot f).spdmOut = s.spdmOut := rfl
@[simp] theorem modWarp_hostOut (c gk slot : Nat) (f : Warp → Warp) : (s.modWarp c gk slot f).hostOut = s.hostOut := rfl
@[simp] theorem modWarp_heldPushes (c gk slot : Nat) (f : Warp → Warp) : (s.modWarp c gk slot f).heldPushes = s.heldPushes := rfl
@[simp] theorem modWarp_images (c gk slot : Nat) (f : Warp → Warp) : (s.modWarp c gk slot f).images = s.images := rfl
@[simp] theorem modWarp_fresh (c gk slot : Nat) (f : Warp → Warp) : (s.modWarp c gk slot f).fresh = s.fresh := rfl

/-! ### modGang -/

@[simp] theorem modGang_mem (c gang : Nat) (f : Group → Group) : (s.modGang c gang f).mem = s.mem := rfl
@[simp] theorem modGang_poison (c gang : Nat) (f : Group → Group) : (s.modGang c gang f).poison = s.poison := rfl
@[simp] theorem modGang_owned (c gang : Nat) (f : Group → Group) : (s.modGang c gang f).owned = s.owned := rfl
@[simp] theorem modGang_issue (c gang : Nat) (f : Group → Group) : (s.modGang c gang f).issue = s.issue := rfl
@[simp] theorem modGang_agenda (c gang : Nat) (f : Group → Group) : (s.modGang c gang f).agenda = s.agenda := rfl
@[simp] theorem modGang_stepNo (c gang : Nat) (f : Group → Group) : (s.modGang c gang f).stepNo = s.stepNo := rfl
@[simp] theorem modGang_stale (c gang : Nat) (f : Group → Group) : (s.modGang c gang f).stale = s.stale := rfl
@[simp] theorem modGang_clk (c gang : Nat) (f : Group → Group) : (s.modGang c gang f).clk = s.clk := rfl
@[simp] theorem modGang_ts (c gang : Nat) (f : Group → Group) : (s.modGang c gang f).ts = s.ts := rfl
@[simp] theorem modGang_ranges (c gang : Nat) (f : Group → Group) : (s.modGang c gang f).ranges = s.ranges := rfl
@[simp] theorem modGang_rgen (c gang : Nat) (f : Group → Group) : (s.modGang c gang f).rgen = s.rgen := rfl
@[simp] theorem modGang_commits (c gang : Nat) (f : Group → Group) : (s.modGang c gang f).commits = s.commits := rfl
@[simp] theorem modGang_upper (c gang : Nat) (f : Group → Group) : (s.modGang c gang f).upper = s.upper := rfl
@[simp] theorem modGang_edge (c gang : Nat) (f : Group → Group) : (s.modGang c gang f).edge = s.edge := rfl
@[simp] theorem modGang_cleans (c gang : Nat) (f : Group → Group) : (s.modGang c gang f).cleans = s.cleans := rfl
@[simp] theorem modGang_tasks (c gang : Nat) (f : Group → Group) : (s.modGang c gang f).tasks = s.tasks := rfl
@[simp] theorem modGang_draws (c gang : Nat) (f : Group → Group) : (s.modGang c gang f).draws = s.draws := rfl
@[simp] theorem modGang_replays (c gang : Nat) (f : Group → Group) : (s.modGang c gang f).replays = s.replays := rfl
@[simp] theorem modGang_recorders (c gang : Nat) (f : Group → Group) : (s.modGang c gang f).recorders = s.recorders := rfl
@[simp] theorem modGang_pushes (c gang : Nat) (f : Group → Group) : (s.modGang c gang f).pushes = s.pushes := rfl
@[simp] theorem modGang_tapeOps (c gang : Nat) (f : Group → Group) : (s.modGang c gang f).tapeOps = s.tapeOps := rfl
@[simp] theorem modGang_events (c gang : Nat) (f : Group → Group) : (s.modGang c gang f).events = s.events := rfl
@[simp] theorem modGang_mp1Open (c gang : Nat) (f : Group → Group) : (s.modGang c gang f).mp1Open = s.mp1Open := rfl
@[simp] theorem modGang_preempt (c gang : Nat) (f : Group → Group) : (s.modGang c gang f).preempt = s.preempt := rfl
@[simp] theorem modGang_mp3 (c gang : Nat) (f : Group → Group) : (s.modGang c gang f).mp3 = s.mp3 := rfl
@[simp] theorem modGang_dies (c gang : Nat) (f : Group → Group) : (s.modGang c gang f).dies = s.dies := rfl
@[simp] theorem modGang_forcedCurrent (c gang : Nat) (f : Group → Group) : (s.modGang c gang f).forcedCurrent = s.forcedCurrent := rfl
@[simp] theorem modGang_forcedFlow (c gang : Nat) (f : Group → Group) : (s.modGang c gang f).forcedFlow = s.forcedFlow := rfl
@[simp] theorem modGang_powered (c gang : Nat) (f : Group → Group) : (s.modGang c gang f).powered = s.powered := rfl
@[simp] theorem modGang_links (c gang : Nat) (f : Group → Group) : (s.modGang c gang f).links = s.links := rfl
@[simp] theorem modGang_bootStage (c gang : Nat) (f : Group → Group) : (s.modGang c gang f).bootStage = s.bootStage := rfl
@[simp] theorem modGang_recovery (c gang : Nat) (f : Group → Group) : (s.modGang c gang f).recovery = s.recovery := rfl
@[simp] theorem modGang_bootFault (c gang : Nat) (f : Group → Group) : (s.modGang c gang f).bootFault = s.bootFault := rfl
@[simp] theorem modGang_mlog (c gang : Nat) (f : Group → Group) : (s.modGang c gang f).mlog = s.mlog := rfl
@[simp] theorem modGang_staged (c gang : Nat) (f : Group → Group) : (s.modGang c gang f).staged = s.staged := rfl
@[simp] theorem modGang_lastCommit (c gang : Nat) (f : Group → Group) : (s.modGang c gang f).lastCommit = s.lastCommit := rfl
@[simp] theorem modGang_verdictSeq (c gang : Nat) (f : Group → Group) : (s.modGang c gang f).verdictSeq = s.verdictSeq := rfl
@[simp] theorem modGang_logSeq (c gang : Nat) (f : Group → Group) : (s.modGang c gang f).logSeq = s.logSeq := rfl
@[simp] theorem modGang_telemetryAt (c gang : Nat) (f : Group → Group) : (s.modGang c gang f).telemetryAt = s.telemetryAt := rfl
@[simp] theorem modGang_mailOut (c gang : Nat) (f : Group → Group) : (s.modGang c gang f).mailOut = s.mailOut := rfl
@[simp] theorem modGang_spdmOut (c gang : Nat) (f : Group → Group) : (s.modGang c gang f).spdmOut = s.spdmOut := rfl
@[simp] theorem modGang_hostOut (c gang : Nat) (f : Group → Group) : (s.modGang c gang f).hostOut = s.hostOut := rfl
@[simp] theorem modGang_heldPushes (c gang : Nat) (f : Group → Group) : (s.modGang c gang f).heldPushes = s.heldPushes := rfl
@[simp] theorem modGang_images (c gang : Nat) (f : Group → Group) : (s.modGang c gang f).images = s.images := rfl
@[simp] theorem modGang_fresh (c gang : Nat) (f : Group → Group) : (s.modGang c gang f).fresh = s.fresh := rfl

/-! ### bump -/

@[simp] theorem bump_mem : (s.bump).mem = s.mem := rfl
@[simp] theorem bump_poison : (s.bump).poison = s.poison := rfl
@[simp] theorem bump_owned : (s.bump).owned = s.owned := rfl
@[simp] theorem bump_issue : (s.bump).issue = s.issue := rfl
@[simp] theorem bump_agenda : (s.bump).agenda = s.agenda := rfl
@[simp] theorem bump_stepNo : (s.bump).stepNo = s.stepNo := rfl
@[simp] theorem bump_stale : (s.bump).stale = s.stale := rfl
@[simp] theorem bump_clk : (s.bump).clk = s.clk := rfl
@[simp] theorem bump_ts : (s.bump).ts = s.ts := rfl
@[simp] theorem bump_cores : (s.bump).cores = s.cores := rfl
@[simp] theorem bump_ranges : (s.bump).ranges = s.ranges := rfl
@[simp] theorem bump_rgen : (s.bump).rgen = s.rgen := rfl
@[simp] theorem bump_commits : (s.bump).commits = s.commits := rfl
@[simp] theorem bump_upper : (s.bump).upper = s.upper := rfl
@[simp] theorem bump_edge : (s.bump).edge = s.edge := rfl
@[simp] theorem bump_cleans : (s.bump).cleans = s.cleans := rfl
@[simp] theorem bump_tasks : (s.bump).tasks = s.tasks := rfl
@[simp] theorem bump_draws : (s.bump).draws = s.draws := rfl
@[simp] theorem bump_replays : (s.bump).replays = s.replays := rfl
@[simp] theorem bump_recorders : (s.bump).recorders = s.recorders := rfl
@[simp] theorem bump_pushes : (s.bump).pushes = s.pushes := rfl
@[simp] theorem bump_tapeOps : (s.bump).tapeOps = s.tapeOps := rfl
@[simp] theorem bump_events : (s.bump).events = s.events := rfl
@[simp] theorem bump_mp1Open : (s.bump).mp1Open = s.mp1Open := rfl
@[simp] theorem bump_preempt : (s.bump).preempt = s.preempt := rfl
@[simp] theorem bump_mp3 : (s.bump).mp3 = s.mp3 := rfl
@[simp] theorem bump_dies : (s.bump).dies = s.dies := rfl
@[simp] theorem bump_forcedCurrent : (s.bump).forcedCurrent = s.forcedCurrent := rfl
@[simp] theorem bump_forcedFlow : (s.bump).forcedFlow = s.forcedFlow := rfl
@[simp] theorem bump_powered : (s.bump).powered = s.powered := rfl
@[simp] theorem bump_links : (s.bump).links = s.links := rfl
@[simp] theorem bump_bootStage : (s.bump).bootStage = s.bootStage := rfl
@[simp] theorem bump_recovery : (s.bump).recovery = s.recovery := rfl
@[simp] theorem bump_bootFault : (s.bump).bootFault = s.bootFault := rfl
@[simp] theorem bump_mlog : (s.bump).mlog = s.mlog := rfl
@[simp] theorem bump_staged : (s.bump).staged = s.staged := rfl
@[simp] theorem bump_lastCommit : (s.bump).lastCommit = s.lastCommit := rfl
@[simp] theorem bump_verdictSeq : (s.bump).verdictSeq = s.verdictSeq := rfl
@[simp] theorem bump_logSeq : (s.bump).logSeq = s.logSeq := rfl
@[simp] theorem bump_telemetryAt : (s.bump).telemetryAt = s.telemetryAt := rfl
@[simp] theorem bump_mailOut : (s.bump).mailOut = s.mailOut := rfl
@[simp] theorem bump_spdmOut : (s.bump).spdmOut = s.spdmOut := rfl
@[simp] theorem bump_hostOut : (s.bump).hostOut = s.hostOut := rfl
@[simp] theorem bump_heldPushes : (s.bump).heldPushes = s.heldPushes := rfl
@[simp] theorem bump_images : (s.bump).images = s.images := rfl
@[simp] theorem bump_fresh : (s.bump).fresh = s.fresh + 1 := rfl

/-! ### emit -/

@[simp] theorem emit_mem (e : Event) : (s.emit e).mem = s.mem := rfl
@[simp] theorem emit_poison (e : Event) : (s.emit e).poison = s.poison := rfl
@[simp] theorem emit_owned (e : Event) : (s.emit e).owned = s.owned := rfl
@[simp] theorem emit_issue (e : Event) : (s.emit e).issue = s.issue := rfl
@[simp] theorem emit_agenda (e : Event) : (s.emit e).agenda = s.agenda := rfl
@[simp] theorem emit_stepNo (e : Event) : (s.emit e).stepNo = s.stepNo := rfl
@[simp] theorem emit_stale (e : Event) : (s.emit e).stale = s.stale := rfl
@[simp] theorem emit_clk (e : Event) : (s.emit e).clk = s.clk := rfl
@[simp] theorem emit_ts (e : Event) : (s.emit e).ts = s.ts := rfl
@[simp] theorem emit_cores (e : Event) : (s.emit e).cores = s.cores := rfl
@[simp] theorem emit_ranges (e : Event) : (s.emit e).ranges = s.ranges := rfl
@[simp] theorem emit_rgen (e : Event) : (s.emit e).rgen = s.rgen := rfl
@[simp] theorem emit_commits (e : Event) : (s.emit e).commits = s.commits := rfl
@[simp] theorem emit_upper (e : Event) : (s.emit e).upper = s.upper := rfl
@[simp] theorem emit_edge (e : Event) : (s.emit e).edge = s.edge := rfl
@[simp] theorem emit_cleans (e : Event) : (s.emit e).cleans = s.cleans := rfl
@[simp] theorem emit_tasks (e : Event) : (s.emit e).tasks = s.tasks := rfl
@[simp] theorem emit_draws (e : Event) : (s.emit e).draws = s.draws := rfl
@[simp] theorem emit_replays (e : Event) : (s.emit e).replays = s.replays := rfl
@[simp] theorem emit_recorders (e : Event) : (s.emit e).recorders = s.recorders := rfl
@[simp] theorem emit_pushes (e : Event) : (s.emit e).pushes = s.pushes := rfl
@[simp] theorem emit_tapeOps (e : Event) : (s.emit e).tapeOps = s.tapeOps := rfl
@[simp] theorem emit_events (e : Event) : (s.emit e).events = s.events ++ [e] := rfl
@[simp] theorem emit_mp1Open (e : Event) : (s.emit e).mp1Open = s.mp1Open := rfl
@[simp] theorem emit_preempt (e : Event) : (s.emit e).preempt = s.preempt := rfl
@[simp] theorem emit_mp3 (e : Event) : (s.emit e).mp3 = s.mp3 := rfl
@[simp] theorem emit_dies (e : Event) : (s.emit e).dies = s.dies := rfl
@[simp] theorem emit_forcedCurrent (e : Event) : (s.emit e).forcedCurrent = s.forcedCurrent := rfl
@[simp] theorem emit_forcedFlow (e : Event) : (s.emit e).forcedFlow = s.forcedFlow := rfl
@[simp] theorem emit_powered (e : Event) : (s.emit e).powered = s.powered := rfl
@[simp] theorem emit_links (e : Event) : (s.emit e).links = s.links := rfl
@[simp] theorem emit_bootStage (e : Event) : (s.emit e).bootStage = s.bootStage := rfl
@[simp] theorem emit_recovery (e : Event) : (s.emit e).recovery = s.recovery := rfl
@[simp] theorem emit_bootFault (e : Event) : (s.emit e).bootFault = s.bootFault := rfl
@[simp] theorem emit_mlog (e : Event) : (s.emit e).mlog = s.mlog := rfl
@[simp] theorem emit_staged (e : Event) : (s.emit e).staged = s.staged := rfl
@[simp] theorem emit_lastCommit (e : Event) : (s.emit e).lastCommit = s.lastCommit := rfl
@[simp] theorem emit_verdictSeq (e : Event) : (s.emit e).verdictSeq = s.verdictSeq := rfl
@[simp] theorem emit_logSeq (e : Event) : (s.emit e).logSeq = s.logSeq := rfl
@[simp] theorem emit_telemetryAt (e : Event) : (s.emit e).telemetryAt = s.telemetryAt := rfl
@[simp] theorem emit_mailOut (e : Event) : (s.emit e).mailOut = s.mailOut := rfl
@[simp] theorem emit_spdmOut (e : Event) : (s.emit e).spdmOut = s.spdmOut := rfl
@[simp] theorem emit_hostOut (e : Event) : (s.emit e).hostOut = s.hostOut := rfl
@[simp] theorem emit_heldPushes (e : Event) : (s.emit e).heldPushes = s.heldPushes := rfl
@[simp] theorem emit_images (e : Event) : (s.emit e).images = s.images := rfl
@[simp] theorem emit_fresh (e : Event) : (s.emit e).fresh = s.fresh := rfl

/-! ### put -/

@[simp] theorem put_mem (k : Nat) (bs : List Byte) : (s.put k bs).mem = Memory.writeN s.mem k bs := rfl
@[simp] theorem put_issue (k : Nat) (bs : List Byte) : (s.put k bs).issue = s.issue := by
  simp only [State.put, State.clearCovered]; split <;> rfl
@[simp] theorem put_agenda (k : Nat) (bs : List Byte) : (s.put k bs).agenda = s.agenda := by
  simp only [State.put, State.clearCovered]; split <;> rfl
@[simp] theorem put_stepNo (k : Nat) (bs : List Byte) : (s.put k bs).stepNo = s.stepNo := by
  simp only [State.put, State.clearCovered]; split <;> rfl
@[simp] theorem put_clk (k : Nat) (bs : List Byte) : (s.put k bs).clk = s.clk := by
  simp only [State.put, State.clearCovered]; split <;> rfl
@[simp] theorem put_ts (k : Nat) (bs : List Byte) : (s.put k bs).ts = s.ts := by
  simp only [State.put, State.clearCovered]; split <;> rfl
@[simp] theorem put_cores (k : Nat) (bs : List Byte) : (s.put k bs).cores = s.cores := by
  simp only [State.put, State.clearCovered]; split <;> rfl
@[simp] theorem put_ranges (k : Nat) (bs : List Byte) : (s.put k bs).ranges = s.ranges := by
  simp only [State.put, State.clearCovered]; split <;> rfl
@[simp] theorem put_rgen (k : Nat) (bs : List Byte) : (s.put k bs).rgen = s.rgen := by
  simp only [State.put, State.clearCovered]; split <;> rfl
@[simp] theorem put_commits (k : Nat) (bs : List Byte) : (s.put k bs).commits = s.commits := by
  simp only [State.put, State.clearCovered]; split <;> rfl
@[simp] theorem put_upper (k : Nat) (bs : List Byte) : (s.put k bs).upper = s.upper := by
  simp only [State.put, State.clearCovered]; split <;> rfl
@[simp] theorem put_edge (k : Nat) (bs : List Byte) : (s.put k bs).edge = s.edge := by
  simp only [State.put, State.clearCovered]; split <;> rfl
@[simp] theorem put_cleans (k : Nat) (bs : List Byte) : (s.put k bs).cleans = s.cleans := by
  simp only [State.put, State.clearCovered]; split <;> rfl
@[simp] theorem put_tasks (k : Nat) (bs : List Byte) : (s.put k bs).tasks = s.tasks := by
  simp only [State.put, State.clearCovered]; split <;> rfl
@[simp] theorem put_draws (k : Nat) (bs : List Byte) : (s.put k bs).draws = s.draws := by
  simp only [State.put, State.clearCovered]; split <;> rfl
@[simp] theorem put_replays (k : Nat) (bs : List Byte) : (s.put k bs).replays = s.replays := by
  simp only [State.put, State.clearCovered]; split <;> rfl
@[simp] theorem put_recorders (k : Nat) (bs : List Byte) : (s.put k bs).recorders = s.recorders := by
  simp only [State.put, State.clearCovered]; split <;> rfl
@[simp] theorem put_pushes (k : Nat) (bs : List Byte) : (s.put k bs).pushes = s.pushes := by
  simp only [State.put, State.clearCovered]; split <;> rfl
@[simp] theorem put_owned (k : Nat) (bs : List Byte) : (s.put k bs).owned = s.owned := by
  simp only [State.put, State.clearCovered]; split <;> rfl
@[simp] theorem put_tapeOps (k : Nat) (bs : List Byte) : (s.put k bs).tapeOps = s.tapeOps := by
  simp only [State.put, State.clearCovered]; split <;> rfl
@[simp] theorem put_events (k : Nat) (bs : List Byte) : (s.put k bs).events = s.events := by
  simp only [State.put, State.clearCovered]; split <;> rfl
@[simp] theorem put_mp1Open (k : Nat) (bs : List Byte) : (s.put k bs).mp1Open = s.mp1Open := by
  simp only [State.put, State.clearCovered]; split <;> rfl
@[simp] theorem put_preempt (k : Nat) (bs : List Byte) : (s.put k bs).preempt = s.preempt := by
  simp only [State.put, State.clearCovered]; split <;> rfl
@[simp] theorem put_mp3 (k : Nat) (bs : List Byte) : (s.put k bs).mp3 = s.mp3 := by
  simp only [State.put, State.clearCovered]; split <;> rfl
@[simp] theorem put_dies (k : Nat) (bs : List Byte) : (s.put k bs).dies = s.dies := by
  simp only [State.put, State.clearCovered]; split <;> rfl
@[simp] theorem put_forcedCurrent (k : Nat) (bs : List Byte) : (s.put k bs).forcedCurrent = s.forcedCurrent := by
  simp only [State.put, State.clearCovered]; split <;> rfl
@[simp] theorem put_forcedFlow (k : Nat) (bs : List Byte) : (s.put k bs).forcedFlow = s.forcedFlow := by
  simp only [State.put, State.clearCovered]; split <;> rfl
@[simp] theorem put_powered (k : Nat) (bs : List Byte) : (s.put k bs).powered = s.powered := by
  simp only [State.put, State.clearCovered]; split <;> rfl
@[simp] theorem put_links (k : Nat) (bs : List Byte) : (s.put k bs).links = s.links := by
  simp only [State.put, State.clearCovered]; split <;> rfl
@[simp] theorem put_bootStage (k : Nat) (bs : List Byte) : (s.put k bs).bootStage = s.bootStage := by
  simp only [State.put, State.clearCovered]; split <;> rfl
@[simp] theorem put_recovery (k : Nat) (bs : List Byte) : (s.put k bs).recovery = s.recovery := by
  simp only [State.put, State.clearCovered]; split <;> rfl
@[simp] theorem put_bootFault (k : Nat) (bs : List Byte) : (s.put k bs).bootFault = s.bootFault := by
  simp only [State.put, State.clearCovered]; split <;> rfl
@[simp] theorem put_mlog (k : Nat) (bs : List Byte) : (s.put k bs).mlog = s.mlog := by
  simp only [State.put, State.clearCovered]; split <;> rfl
@[simp] theorem put_staged (k : Nat) (bs : List Byte) : (s.put k bs).staged = s.staged := by
  simp only [State.put, State.clearCovered]; split <;> rfl
@[simp] theorem put_lastCommit (k : Nat) (bs : List Byte) : (s.put k bs).lastCommit = s.lastCommit := by
  simp only [State.put, State.clearCovered]; split <;> rfl
@[simp] theorem put_verdictSeq (k : Nat) (bs : List Byte) : (s.put k bs).verdictSeq = s.verdictSeq := by
  simp only [State.put, State.clearCovered]; split <;> rfl
@[simp] theorem put_logSeq (k : Nat) (bs : List Byte) : (s.put k bs).logSeq = s.logSeq := by
  simp only [State.put, State.clearCovered]; split <;> rfl
@[simp] theorem put_telemetryAt (k : Nat) (bs : List Byte) : (s.put k bs).telemetryAt = s.telemetryAt := by
  simp only [State.put, State.clearCovered]; split <;> rfl
@[simp] theorem put_mailOut (k : Nat) (bs : List Byte) : (s.put k bs).mailOut = s.mailOut := by
  simp only [State.put, State.clearCovered]; split <;> rfl
@[simp] theorem put_spdmOut (k : Nat) (bs : List Byte) : (s.put k bs).spdmOut = s.spdmOut := by
  simp only [State.put, State.clearCovered]; split <;> rfl
@[simp] theorem put_hostOut (k : Nat) (bs : List Byte) : (s.put k bs).hostOut = s.hostOut := by
  simp only [State.put, State.clearCovered]; split <;> rfl
@[simp] theorem put_heldPushes (k : Nat) (bs : List Byte) : (s.put k bs).heldPushes = s.heldPushes := by
  simp only [State.put, State.clearCovered]; split <;> rfl
@[simp] theorem put_images (k : Nat) (bs : List Byte) : (s.put k bs).images = s.images := by
  simp only [State.put, State.clearCovered]; split <;> rfl
@[simp] theorem put_fresh (k : Nat) (bs : List Byte) : (s.put k bs).fresh = s.fresh := by
  simp only [State.put, State.clearCovered]; split <;> rfl

/-! ### putNum -/

@[simp] theorem putNum_mem (k n v : Nat) : (s.putNum k n v).mem = Memory.writeN s.mem k (leBytes n v) := rfl
@[simp] theorem putNum_issue (k n v : Nat) : (s.putNum k n v).issue = s.issue := by
  simp only [State.putNum, State.put, State.clearCovered]; split <;> rfl
@[simp] theorem putNum_agenda (k n v : Nat) : (s.putNum k n v).agenda = s.agenda := by
  simp only [State.putNum, State.put, State.clearCovered]; split <;> rfl
@[simp] theorem putNum_stepNo (k n v : Nat) : (s.putNum k n v).stepNo = s.stepNo := by
  simp only [State.putNum, State.put, State.clearCovered]; split <;> rfl
@[simp] theorem putNum_clk (k n v : Nat) : (s.putNum k n v).clk = s.clk := by
  simp only [State.putNum, State.put, State.clearCovered]; split <;> rfl
@[simp] theorem putNum_ts (k n v : Nat) : (s.putNum k n v).ts = s.ts := by
  simp only [State.putNum, State.put, State.clearCovered]; split <;> rfl
@[simp] theorem putNum_cores (k n v : Nat) : (s.putNum k n v).cores = s.cores := by
  simp only [State.putNum, State.put, State.clearCovered]; split <;> rfl
@[simp] theorem putNum_ranges (k n v : Nat) : (s.putNum k n v).ranges = s.ranges := by
  simp only [State.putNum, State.put, State.clearCovered]; split <;> rfl
@[simp] theorem putNum_rgen (k n v : Nat) : (s.putNum k n v).rgen = s.rgen := by
  simp only [State.putNum, State.put, State.clearCovered]; split <;> rfl
@[simp] theorem putNum_commits (k n v : Nat) : (s.putNum k n v).commits = s.commits := by
  simp only [State.putNum, State.put, State.clearCovered]; split <;> rfl
@[simp] theorem putNum_upper (k n v : Nat) : (s.putNum k n v).upper = s.upper := by
  simp only [State.putNum, State.put, State.clearCovered]; split <;> rfl
@[simp] theorem putNum_edge (k n v : Nat) : (s.putNum k n v).edge = s.edge := by
  simp only [State.putNum, State.put, State.clearCovered]; split <;> rfl
@[simp] theorem putNum_cleans (k n v : Nat) : (s.putNum k n v).cleans = s.cleans := by
  simp only [State.putNum, State.put, State.clearCovered]; split <;> rfl
@[simp] theorem putNum_tasks (k n v : Nat) : (s.putNum k n v).tasks = s.tasks := by
  simp only [State.putNum, State.put, State.clearCovered]; split <;> rfl
@[simp] theorem putNum_draws (k n v : Nat) : (s.putNum k n v).draws = s.draws := by
  simp only [State.putNum, State.put, State.clearCovered]; split <;> rfl
@[simp] theorem putNum_replays (k n v : Nat) : (s.putNum k n v).replays = s.replays := by
  simp only [State.putNum, State.put, State.clearCovered]; split <;> rfl
@[simp] theorem putNum_recorders (k n v : Nat) : (s.putNum k n v).recorders = s.recorders := by
  simp only [State.putNum, State.put, State.clearCovered]; split <;> rfl
@[simp] theorem putNum_pushes (k n v : Nat) : (s.putNum k n v).pushes = s.pushes := by
  simp only [State.putNum, State.put, State.clearCovered]; split <;> rfl
@[simp] theorem putNum_owned (k n v : Nat) : (s.putNum k n v).owned = s.owned := by
  simp only [State.putNum, State.put, State.clearCovered]; split <;> rfl
@[simp] theorem putNum_tapeOps (k n v : Nat) : (s.putNum k n v).tapeOps = s.tapeOps := by
  simp only [State.putNum, State.put, State.clearCovered]; split <;> rfl
@[simp] theorem putNum_events (k n v : Nat) : (s.putNum k n v).events = s.events := by
  simp only [State.putNum, State.put, State.clearCovered]; split <;> rfl
@[simp] theorem putNum_mp1Open (k n v : Nat) : (s.putNum k n v).mp1Open = s.mp1Open := by
  simp only [State.putNum, State.put, State.clearCovered]; split <;> rfl
@[simp] theorem putNum_preempt (k n v : Nat) : (s.putNum k n v).preempt = s.preempt := by
  simp only [State.putNum, State.put, State.clearCovered]; split <;> rfl
@[simp] theorem putNum_mp3 (k n v : Nat) : (s.putNum k n v).mp3 = s.mp3 := by
  simp only [State.putNum, State.put, State.clearCovered]; split <;> rfl
@[simp] theorem putNum_dies (k n v : Nat) : (s.putNum k n v).dies = s.dies := by
  simp only [State.putNum, State.put, State.clearCovered]; split <;> rfl
@[simp] theorem putNum_forcedCurrent (k n v : Nat) : (s.putNum k n v).forcedCurrent = s.forcedCurrent := by
  simp only [State.putNum, State.put, State.clearCovered]; split <;> rfl
@[simp] theorem putNum_forcedFlow (k n v : Nat) : (s.putNum k n v).forcedFlow = s.forcedFlow := by
  simp only [State.putNum, State.put, State.clearCovered]; split <;> rfl
@[simp] theorem putNum_powered (k n v : Nat) : (s.putNum k n v).powered = s.powered := by
  simp only [State.putNum, State.put, State.clearCovered]; split <;> rfl
@[simp] theorem putNum_links (k n v : Nat) : (s.putNum k n v).links = s.links := by
  simp only [State.putNum, State.put, State.clearCovered]; split <;> rfl
@[simp] theorem putNum_bootStage (k n v : Nat) : (s.putNum k n v).bootStage = s.bootStage := by
  simp only [State.putNum, State.put, State.clearCovered]; split <;> rfl
@[simp] theorem putNum_recovery (k n v : Nat) : (s.putNum k n v).recovery = s.recovery := by
  simp only [State.putNum, State.put, State.clearCovered]; split <;> rfl
@[simp] theorem putNum_bootFault (k n v : Nat) : (s.putNum k n v).bootFault = s.bootFault := by
  simp only [State.putNum, State.put, State.clearCovered]; split <;> rfl
@[simp] theorem putNum_mlog (k n v : Nat) : (s.putNum k n v).mlog = s.mlog := by
  simp only [State.putNum, State.put, State.clearCovered]; split <;> rfl
@[simp] theorem putNum_staged (k n v : Nat) : (s.putNum k n v).staged = s.staged := by
  simp only [State.putNum, State.put, State.clearCovered]; split <;> rfl
@[simp] theorem putNum_lastCommit (k n v : Nat) : (s.putNum k n v).lastCommit = s.lastCommit := by
  simp only [State.putNum, State.put, State.clearCovered]; split <;> rfl
@[simp] theorem putNum_verdictSeq (k n v : Nat) : (s.putNum k n v).verdictSeq = s.verdictSeq := by
  simp only [State.putNum, State.put, State.clearCovered]; split <;> rfl
@[simp] theorem putNum_logSeq (k n v : Nat) : (s.putNum k n v).logSeq = s.logSeq := by
  simp only [State.putNum, State.put, State.clearCovered]; split <;> rfl
@[simp] theorem putNum_telemetryAt (k n v : Nat) : (s.putNum k n v).telemetryAt = s.telemetryAt := by
  simp only [State.putNum, State.put, State.clearCovered]; split <;> rfl
@[simp] theorem putNum_mailOut (k n v : Nat) : (s.putNum k n v).mailOut = s.mailOut := by
  simp only [State.putNum, State.put, State.clearCovered]; split <;> rfl
@[simp] theorem putNum_spdmOut (k n v : Nat) : (s.putNum k n v).spdmOut = s.spdmOut := by
  simp only [State.putNum, State.put, State.clearCovered]; split <;> rfl
@[simp] theorem putNum_hostOut (k n v : Nat) : (s.putNum k n v).hostOut = s.hostOut := by
  simp only [State.putNum, State.put, State.clearCovered]; split <;> rfl
@[simp] theorem putNum_heldPushes (k n v : Nat) : (s.putNum k n v).heldPushes = s.heldPushes := by
  simp only [State.putNum, State.put, State.clearCovered]; split <;> rfl
@[simp] theorem putNum_images (k n v : Nat) : (s.putNum k n v).images = s.images := by
  simp only [State.putNum, State.put, State.clearCovered]; split <;> rfl
@[simp] theorem putNum_fresh (k n v : Nat) : (s.putNum k n v).fresh = s.fresh := by
  simp only [State.putNum, State.put, State.clearCovered]; split <;> rfl

/-! ### tick -/

@[simp] theorem tick_mem : (s.tick).mem = s.mem := rfl
@[simp] theorem tick_poison : (s.tick).poison = s.poison := rfl
@[simp] theorem tick_owned : (s.tick).owned = s.owned := rfl
@[simp] theorem tick_issue : (s.tick).issue = s.issue := rfl
@[simp] theorem tick_agenda : (s.tick).agenda = s.agenda := rfl
@[simp] theorem tick_stepNo : (s.tick).stepNo = s.stepNo + 1 := rfl
@[simp] theorem tick_stale : (s.tick).stale = s.stale := rfl
@[simp] theorem tick_clk : (s.tick).clk = s.clk := rfl
@[simp] theorem tick_cores : (s.tick).cores = s.cores := rfl
@[simp] theorem tick_ranges : (s.tick).ranges = s.ranges := rfl
@[simp] theorem tick_rgen : (s.tick).rgen = s.rgen := rfl
@[simp] theorem tick_commits : (s.tick).commits = s.commits := rfl
@[simp] theorem tick_upper : (s.tick).upper = s.upper := rfl
@[simp] theorem tick_edge : (s.tick).edge = s.edge := rfl
@[simp] theorem tick_cleans : (s.tick).cleans = s.cleans := rfl
@[simp] theorem tick_tasks : (s.tick).tasks = s.tasks := rfl
@[simp] theorem tick_draws : (s.tick).draws = s.draws := rfl
@[simp] theorem tick_replays : (s.tick).replays = s.replays := rfl
@[simp] theorem tick_recorders : (s.tick).recorders = s.recorders := rfl
@[simp] theorem tick_pushes : (s.tick).pushes = s.pushes := rfl
@[simp] theorem tick_tapeOps : (s.tick).tapeOps = s.tapeOps := rfl
@[simp] theorem tick_events : (s.tick).events = s.events := rfl
@[simp] theorem tick_mp1Open : (s.tick).mp1Open = s.mp1Open := rfl
@[simp] theorem tick_preempt : (s.tick).preempt = s.preempt := rfl
@[simp] theorem tick_mp3 : (s.tick).mp3 = s.mp3 := rfl
@[simp] theorem tick_dies : (s.tick).dies = s.dies := rfl
@[simp] theorem tick_forcedCurrent : (s.tick).forcedCurrent = s.forcedCurrent := rfl
@[simp] theorem tick_forcedFlow : (s.tick).forcedFlow = s.forcedFlow := rfl
@[simp] theorem tick_powered : (s.tick).powered = s.powered := rfl
@[simp] theorem tick_links : (s.tick).links = s.links := rfl
@[simp] theorem tick_bootStage : (s.tick).bootStage = s.bootStage := rfl
@[simp] theorem tick_recovery : (s.tick).recovery = s.recovery := rfl
@[simp] theorem tick_bootFault : (s.tick).bootFault = s.bootFault := rfl
@[simp] theorem tick_mlog : (s.tick).mlog = s.mlog := rfl
@[simp] theorem tick_staged : (s.tick).staged = s.staged := rfl
@[simp] theorem tick_lastCommit : (s.tick).lastCommit = s.lastCommit := rfl
@[simp] theorem tick_verdictSeq : (s.tick).verdictSeq = s.verdictSeq := rfl
@[simp] theorem tick_logSeq : (s.tick).logSeq = s.logSeq := rfl
@[simp] theorem tick_telemetryAt : (s.tick).telemetryAt = s.telemetryAt := rfl
@[simp] theorem tick_mailOut : (s.tick).mailOut = s.mailOut := rfl
@[simp] theorem tick_spdmOut : (s.tick).spdmOut = s.spdmOut := rfl
@[simp] theorem tick_hostOut : (s.tick).hostOut = s.hostOut := rfl
@[simp] theorem tick_heldPushes : (s.tick).heldPushes = s.heldPushes := rfl
@[simp] theorem tick_images : (s.tick).images = s.images := rfl
@[simp] theorem tick_fresh : (s.tick).fresh = s.fresh := rfl

/-! ### Thread.setV -/

@[simp] theorem thread_setV_pc (t : Thread) (n : Nat) (x : Word) : (t.setV n x).pc = t.pc := rfl
@[simp] theorem thread_setV_tid (t : Thread) (n : Nat) (x : Word) : (t.setV n x).tid = t.tid := rfl
@[simp] theorem thread_setV_lvl (t : Thread) (n : Nat) (x : Word) : (t.setV n x).lvl = t.lvl := rfl
@[simp] theorem thread_setV_fpstat (t : Thread) (n : Nat) (x : Word) : (t.setV n x).fpstat = t.fpstat := rfl
@[simp] theorem thread_setV_rmode (t : Thread) (n : Nat) (x : Word) : (t.setV n x).rmode = t.rmode := rfl
@[simp] theorem thread_setV_winbase (t : Thread) (n : Nat) (x : Word) : (t.setV n x).winbase = t.winbase := rfl
@[simp] theorem thread_setV_vr (t : Thread) (n : Nat) (x : Word) : (t.setV n x).vr = sset t.vr (t.winbase.toNat * 8 + n) x 0 := rfl
@[simp] theorem thread_setV_pr (t : Thread) (n : Nat) (x : Word) : (t.setV n x).pr = t.pr := rfl
@[simp] theorem thread_setV_vpoison (t : Thread) (n : Nat) (x : Word) : (t.setV n x).vpoison = t.vpoison.filter (· != t.winbase.toNat * 8 + n) := rfl
@[simp] theorem thread_setV_vpend (t : Thread) (n : Nat) (x : Word) : (t.setV n x).vpend = t.vpend := rfl
@[simp] theorem thread_setV_wait (t : Thread) (n : Nat) (x : Word) : (t.setV n x).wait = t.wait := rfl
@[simp] theorem thread_setV_frag (t : Thread) (n : Nat) (x : Word) : (t.setV n x).frag = t.frag := rfl

/-! ### Thread.setV64 -/

@[simp] theorem thread_setV64_pc (t : Thread) (n : Nat) (x : DWord) : (t.setV64 n x).pc = t.pc := rfl
@[simp] theorem thread_setV64_tid (t : Thread) (n : Nat) (x : DWord) : (t.setV64 n x).tid = t.tid := rfl
@[simp] theorem thread_setV64_lvl (t : Thread) (n : Nat) (x : DWord) : (t.setV64 n x).lvl = t.lvl := rfl
@[simp] theorem thread_setV64_fpstat (t : Thread) (n : Nat) (x : DWord) : (t.setV64 n x).fpstat = t.fpstat := rfl
@[simp] theorem thread_setV64_rmode (t : Thread) (n : Nat) (x : DWord) : (t.setV64 n x).rmode = t.rmode := rfl
@[simp] theorem thread_setV64_winbase (t : Thread) (n : Nat) (x : DWord) : (t.setV64 n x).winbase = t.winbase := rfl
@[simp] theorem thread_setV64_pr (t : Thread) (n : Nat) (x : DWord) : (t.setV64 n x).pr = t.pr := rfl
@[simp] theorem thread_setV64_vpend (t : Thread) (n : Nat) (x : DWord) : (t.setV64 n x).vpend = t.vpend := rfl
@[simp] theorem thread_setV64_wait (t : Thread) (n : Nat) (x : DWord) : (t.setV64 n x).wait = t.wait := rfl
@[simp] theorem thread_setV64_frag (t : Thread) (n : Nat) (x : DWord) : (t.setV64 n x).frag = t.frag := rfl

/-! ### Thread.setP -/

@[simp] theorem thread_setP_pc (t : Thread) (n : Nat) (b : Bool) : (t.setP n b).pc = t.pc := by
 simp only [Thread.setP]; split <;> rfl
@[simp] theorem thread_setP_tid (t : Thread) (n : Nat) (b : Bool) : (t.setP n b).tid = t.tid := by
 simp only [Thread.setP]; split <;> rfl
@[simp] theorem thread_setP_lvl (t : Thread) (n : Nat) (b : Bool) : (t.setP n b).lvl = t.lvl := by
 simp only [Thread.setP]; split <;> rfl
@[simp] theorem thread_setP_fpstat (t : Thread) (n : Nat) (b : Bool) : (t.setP n b).fpstat = t.fpstat := by
 simp only [Thread.setP]; split <;> rfl
@[simp] theorem thread_setP_rmode (t : Thread) (n : Nat) (b : Bool) : (t.setP n b).rmode = t.rmode := by
 simp only [Thread.setP]; split <;> rfl
@[simp] theorem thread_setP_winbase (t : Thread) (n : Nat) (b : Bool) : (t.setP n b).winbase = t.winbase := by
 simp only [Thread.setP]; split <;> rfl
@[simp] theorem thread_setP_vr (t : Thread) (n : Nat) (b : Bool) : (t.setP n b).vr = t.vr := by
 simp only [Thread.setP]; split <;> rfl
@[simp] theorem thread_setP_vpoison (t : Thread) (n : Nat) (b : Bool) : (t.setP n b).vpoison = t.vpoison := by
 simp only [Thread.setP]; split <;> rfl
@[simp] theorem thread_setP_vpend (t : Thread) (n : Nat) (b : Bool) : (t.setP n b).vpend = t.vpend := by
 simp only [Thread.setP]; split <;> rfl
@[simp] theorem thread_setP_wait (t : Thread) (n : Nat) (b : Bool) : (t.setP n b).wait = t.wait := by
 simp only [Thread.setP]; split <;> rfl
@[simp] theorem thread_setP_frag (t : Thread) (n : Nat) (b : Bool) : (t.setP n b).frag = t.frag := by
 simp only [Thread.setP]; split <;> rfl

/-! ### Thread.flag -/

@[simp] theorem thread_flag_pc (t : Thread) (f : BitVec 5) : (t.flag f).pc = t.pc := rfl
@[simp] theorem thread_flag_tid (t : Thread) (f : BitVec 5) : (t.flag f).tid = t.tid := rfl
@[simp] theorem thread_flag_lvl (t : Thread) (f : BitVec 5) : (t.flag f).lvl = t.lvl := rfl
@[simp] theorem thread_flag_fpstat (t : Thread) (f : BitVec 5) : (t.flag f).fpstat = t.fpstat ||| f := rfl
@[simp] theorem thread_flag_rmode (t : Thread) (f : BitVec 5) : (t.flag f).rmode = t.rmode := rfl
@[simp] theorem thread_flag_winbase (t : Thread) (f : BitVec 5) : (t.flag f).winbase = t.winbase := rfl
@[simp] theorem thread_flag_vr (t : Thread) (f : BitVec 5) : (t.flag f).vr = t.vr := rfl
@[simp] theorem thread_flag_pr (t : Thread) (f : BitVec 5) : (t.flag f).pr = t.pr := rfl
@[simp] theorem thread_flag_vpoison (t : Thread) (f : BitVec 5) : (t.flag f).vpoison = t.vpoison := rfl
@[simp] theorem thread_flag_vpend (t : Thread) (f : BitVec 5) : (t.flag f).vpend = t.vpend := rfl
@[simp] theorem thread_flag_wait (t : Thread) (f : BitVec 5) : (t.flag f).wait = t.wait := rfl
@[simp] theorem thread_flag_frag (t : Thread) (f : BitVec 5) : (t.flag f).frag = t.frag := rfl

/-! ### Thread.goto -/

@[simp] theorem thread_goto_pc (t : Thread) (a : Addr) : (t.goto a).pc = a := rfl
@[simp] theorem thread_goto_tid (t : Thread) (a : Addr) : (t.goto a).tid = t.tid := rfl
@[simp] theorem thread_goto_lvl (t : Thread) (a : Addr) : (t.goto a).lvl = t.lvl := rfl
@[simp] theorem thread_goto_fpstat (t : Thread) (a : Addr) : (t.goto a).fpstat = t.fpstat := rfl
@[simp] theorem thread_goto_rmode (t : Thread) (a : Addr) : (t.goto a).rmode = t.rmode := rfl
@[simp] theorem thread_goto_winbase (t : Thread) (a : Addr) : (t.goto a).winbase = t.winbase := rfl
@[simp] theorem thread_goto_vr (t : Thread) (a : Addr) : (t.goto a).vr = t.vr := rfl
@[simp] theorem thread_goto_pr (t : Thread) (a : Addr) : (t.goto a).pr = t.pr := rfl
@[simp] theorem thread_goto_vpoison (t : Thread) (a : Addr) : (t.goto a).vpoison = t.vpoison := rfl
@[simp] theorem thread_goto_vpend (t : Thread) (a : Addr) : (t.goto a).vpend = t.vpend := rfl
@[simp] theorem thread_goto_wait (t : Thread) (a : Addr) : (t.goto a).wait = t.wait := rfl
@[simp] theorem thread_goto_frag (t : Thread) (a : Addr) : (t.goto a).frag = t.frag := rfl

/-! ### Warp.setU -/

@[simp] theorem warp_setU_wid (w : Warp) (n : Nat) (x : Word) : (w.setU n x).wid = w.wid := rfl
@[simp] theorem warp_setU_lanes (w : Warp) (n : Nat) (x : Word) : (w.setU n x).lanes = w.lanes := rfl
@[simp] theorem warp_setU_ur (w : Warp) (n : Nat) (x : Word) : (w.setU n x).ur = sset w.ur n x 0 := rfl
@[simp] theorem warp_setU_tr (w : Warp) (n : Nat) (x : Word) : (w.setU n x).tr = w.tr := rfl
@[simp] theorem warp_setU_upoison (w : Warp) (n : Nat) (x : Word) : (w.setU n x).upoison = w.upoison.filter (· != n) := rfl
@[simp] theorem warp_setU_cause (w : Warp) (n : Nat) (x : Word) : (w.setU n x).cause = w.cause := rfl
@[simp] theorem warp_setU_trappc (w : Warp) (n : Nat) (x : Word) : (w.setU n x).trappc = w.trappc := rfl
@[simp] theorem warp_setU_trapmask (w : Warp) (n : Nat) (x : Word) : (w.setU n x).trapmask = w.trapmask := rfl
@[simp] theorem warp_setU_age (w : Warp) (n : Nat) (x : Word) : (w.setU n x).age = w.age := rfl
@[simp] theorem warp_setU_cap (w : Warp) (n : Nat) (x : Word) : (w.setU n x).cap = w.cap := rfl
@[simp] theorem warp_setU_ages (w : Warp) (n : Nat) (x : Word) : (w.setU n x).ages = w.ages := rfl
@[simp] theorem warp_setU_subs (w : Warp) (n : Nat) (x : Word) : (w.setU n x).subs = w.subs := rfl
@[simp] theorem warp_setU_upend (w : Warp) (n : Nat) (x : Word) : (w.setU n x).upend = w.upend := rfl
@[simp] theorem warp_setU_upstall (w : Warp) (n : Nat) (x : Word) : (w.setU n x).upstall = w.upstall.filter (· != n) := rfl
@[simp] theorem warp_setU_tokw (w : Warp) (n : Nat) (x : Word) : (w.setU n x).tokw = w.tokw.filter (· != n) := rfl
@[simp] theorem warp_setU_failLanes (w : Warp) (n : Nat) (x : Word) : (w.setU n x).failLanes = w.failLanes := rfl
@[simp] theorem warp_setU_firstFail (w : Warp) (n : Nat) (x : Word) : (w.setU n x).firstFail = w.firstFail := rfl
@[simp] theorem warp_setU_budgetDue (w : Warp) (n : Nat) (x : Word) : (w.setU n x).budgetDue = w.budgetDue := rfl
@[simp] theorem warp_setU_budgetMoves (w : Warp) (n : Nat) (x : Word) : (w.setU n x).budgetMoves = w.budgetMoves := rfl
@[simp] theorem warp_setU_rpf (w : Warp) (n : Nat) (x : Word) : (w.setU n x).rpf = w.rpf := rfl
@[simp] theorem warp_setU_stamp (w : Warp) (n : Nat) (x : Word) : (w.setU n x).stamp = w.stamp := rfl
@[simp] theorem warp_setU_issuedAt (w : Warp) (n : Nat) (x : Word) : (w.setU n x).issuedAt = w.issuedAt := rfl
@[simp] theorem warp_setU_stepping (w : Warp) (n : Nat) (x : Word) : (w.setU n x).stepping = w.stepping := rfl
@[simp] theorem warp_setU_sync (w : Warp) (n : Nat) (x : Word) : (w.setU n x).sync = w.sync := rfl
@[simp] theorem warp_setU_passed (w : Warp) (n : Nat) (x : Word) : (w.setU n x).passed = w.passed := rfl
@[simp] theorem warp_setU_waited (w : Warp) (n : Nat) (x : Word) : (w.setU n x).waited = w.waited := rfl
@[simp] theorem warp_setU_stalls (w : Warp) (n : Nat) (x : Word) : (w.setU n x).stalls = w.stalls := rfl
@[simp] theorem warp_setU_binStall (w : Warp) (n : Nat) (x : Word) : (w.setU n x).binStall = w.binStall := rfl
@[simp] theorem warp_setU_tqs (w : Warp) (n : Nat) (x : Word) : (w.setU n x).tqs = w.tqs := rfl

/-! ### Warp.setU64 -/

@[simp] theorem warp_setU64_wid (w : Warp) (n : Nat) (x : DWord) : (w.setU64 n x).wid = w.wid := rfl
@[simp] theorem warp_setU64_lanes (w : Warp) (n : Nat) (x : DWord) : (w.setU64 n x).lanes = w.lanes := rfl
@[simp] theorem warp_setU64_tr (w : Warp) (n : Nat) (x : DWord) : (w.setU64 n x).tr = w.tr := rfl
@[simp] theorem warp_setU64_cause (w : Warp) (n : Nat) (x : DWord) : (w.setU64 n x).cause = w.cause := rfl
@[simp] theorem warp_setU64_trappc (w : Warp) (n : Nat) (x : DWord) : (w.setU64 n x).trappc = w.trappc := rfl
@[simp] theorem warp_setU64_trapmask (w : Warp) (n : Nat) (x : DWord) : (w.setU64 n x).trapmask = w.trapmask := rfl
@[simp] theorem warp_setU64_age (w : Warp) (n : Nat) (x : DWord) : (w.setU64 n x).age = w.age := rfl
@[simp] theorem warp_setU64_cap (w : Warp) (n : Nat) (x : DWord) : (w.setU64 n x).cap = w.cap := rfl
@[simp] theorem warp_setU64_ages (w : Warp) (n : Nat) (x : DWord) : (w.setU64 n x).ages = w.ages := rfl
@[simp] theorem warp_setU64_subs (w : Warp) (n : Nat) (x : DWord) : (w.setU64 n x).subs = w.subs := rfl
@[simp] theorem warp_setU64_upend (w : Warp) (n : Nat) (x : DWord) : (w.setU64 n x).upend = w.upend := rfl
@[simp] theorem warp_setU64_failLanes (w : Warp) (n : Nat) (x : DWord) : (w.setU64 n x).failLanes = w.failLanes := rfl
@[simp] theorem warp_setU64_firstFail (w : Warp) (n : Nat) (x : DWord) : (w.setU64 n x).firstFail = w.firstFail := rfl
@[simp] theorem warp_setU64_budgetDue (w : Warp) (n : Nat) (x : DWord) : (w.setU64 n x).budgetDue = w.budgetDue := rfl
@[simp] theorem warp_setU64_budgetMoves (w : Warp) (n : Nat) (x : DWord) : (w.setU64 n x).budgetMoves = w.budgetMoves := rfl
@[simp] theorem warp_setU64_rpf (w : Warp) (n : Nat) (x : DWord) : (w.setU64 n x).rpf = w.rpf := rfl
@[simp] theorem warp_setU64_stamp (w : Warp) (n : Nat) (x : DWord) : (w.setU64 n x).stamp = w.stamp := rfl
@[simp] theorem warp_setU64_issuedAt (w : Warp) (n : Nat) (x : DWord) : (w.setU64 n x).issuedAt = w.issuedAt := rfl
@[simp] theorem warp_setU64_stepping (w : Warp) (n : Nat) (x : DWord) : (w.setU64 n x).stepping = w.stepping := rfl
@[simp] theorem warp_setU64_sync (w : Warp) (n : Nat) (x : DWord) : (w.setU64 n x).sync = w.sync := rfl
@[simp] theorem warp_setU64_passed (w : Warp) (n : Nat) (x : DWord) : (w.setU64 n x).passed = w.passed := rfl
@[simp] theorem warp_setU64_waited (w : Warp) (n : Nat) (x : DWord) : (w.setU64 n x).waited = w.waited := rfl
@[simp] theorem warp_setU64_stalls (w : Warp) (n : Nat) (x : DWord) : (w.setU64 n x).stalls = w.stalls := rfl
@[simp] theorem warp_setU64_binStall (w : Warp) (n : Nat) (x : DWord) : (w.setU64 n x).binStall = w.binStall := rfl
@[simp] theorem warp_setU64_tqs (w : Warp) (n : Nat) (x : DWord) : (w.setU64 n x).tqs = w.tqs := rfl

/-! ### Warp.setT -/

@[simp] theorem warp_setT_wid (w : Warp) (n : Nat) (x : Desc) : (w.setT n x).wid = w.wid := rfl
@[simp] theorem warp_setT_lanes (w : Warp) (n : Nat) (x : Desc) : (w.setT n x).lanes = w.lanes := rfl
@[simp] theorem warp_setT_ur (w : Warp) (n : Nat) (x : Desc) : (w.setT n x).ur = w.ur := rfl
@[simp] theorem warp_setT_tr (w : Warp) (n : Nat) (x : Desc) : (w.setT n x).tr = sset w.tr n x 0 := rfl
@[simp] theorem warp_setT_upoison (w : Warp) (n : Nat) (x : Desc) : (w.setT n x).upoison = w.upoison := rfl
@[simp] theorem warp_setT_cause (w : Warp) (n : Nat) (x : Desc) : (w.setT n x).cause = w.cause := rfl
@[simp] theorem warp_setT_trappc (w : Warp) (n : Nat) (x : Desc) : (w.setT n x).trappc = w.trappc := rfl
@[simp] theorem warp_setT_trapmask (w : Warp) (n : Nat) (x : Desc) : (w.setT n x).trapmask = w.trapmask := rfl
@[simp] theorem warp_setT_age (w : Warp) (n : Nat) (x : Desc) : (w.setT n x).age = w.age := rfl
@[simp] theorem warp_setT_cap (w : Warp) (n : Nat) (x : Desc) : (w.setT n x).cap = w.cap := rfl
@[simp] theorem warp_setT_ages (w : Warp) (n : Nat) (x : Desc) : (w.setT n x).ages = w.ages := rfl
@[simp] theorem warp_setT_subs (w : Warp) (n : Nat) (x : Desc) : (w.setT n x).subs = w.subs := rfl
@[simp] theorem warp_setT_upend (w : Warp) (n : Nat) (x : Desc) : (w.setT n x).upend = w.upend := rfl
@[simp] theorem warp_setT_failTok (w : Warp) (n : Nat) (x : Desc) : (w.setT n x).failTok = w.failTok := rfl
@[simp] theorem warp_setT_upstall (w : Warp) (n : Nat) (x : Desc) : (w.setT n x).upstall = w.upstall := rfl
@[simp] theorem warp_setT_tokw (w : Warp) (n : Nat) (x : Desc) : (w.setT n x).tokw = w.tokw := rfl
@[simp] theorem warp_setT_failLanes (w : Warp) (n : Nat) (x : Desc) : (w.setT n x).failLanes = w.failLanes := rfl
@[simp] theorem warp_setT_firstFail (w : Warp) (n : Nat) (x : Desc) : (w.setT n x).firstFail = w.firstFail := rfl
@[simp] theorem warp_setT_budgetDue (w : Warp) (n : Nat) (x : Desc) : (w.setT n x).budgetDue = w.budgetDue := rfl
@[simp] theorem warp_setT_budgetMoves (w : Warp) (n : Nat) (x : Desc) : (w.setT n x).budgetMoves = w.budgetMoves := rfl
@[simp] theorem warp_setT_rpf (w : Warp) (n : Nat) (x : Desc) : (w.setT n x).rpf = w.rpf := rfl
@[simp] theorem warp_setT_stamp (w : Warp) (n : Nat) (x : Desc) : (w.setT n x).stamp = w.stamp := rfl
@[simp] theorem warp_setT_issuedAt (w : Warp) (n : Nat) (x : Desc) : (w.setT n x).issuedAt = w.issuedAt := rfl
@[simp] theorem warp_setT_stepping (w : Warp) (n : Nat) (x : Desc) : (w.setT n x).stepping = w.stepping := rfl
@[simp] theorem warp_setT_sync (w : Warp) (n : Nat) (x : Desc) : (w.setT n x).sync = w.sync := rfl
@[simp] theorem warp_setT_passed (w : Warp) (n : Nat) (x : Desc) : (w.setT n x).passed = w.passed := rfl
@[simp] theorem warp_setT_waited (w : Warp) (n : Nat) (x : Desc) : (w.setT n x).waited = w.waited := rfl
@[simp] theorem warp_setT_stalls (w : Warp) (n : Nat) (x : Desc) : (w.setT n x).stalls = w.stalls := rfl
@[simp] theorem warp_setT_binStall (w : Warp) (n : Nat) (x : Desc) : (w.setT n x).binStall = w.binStall := rfl
@[simp] theorem warp_setT_tqs (w : Warp) (n : Nat) (x : Desc) : (w.setT n x).tqs = w.tqs := rfl

/-! ### Group.modWarp -/

@[simp] theorem group_modWarp_gk (g : Group) (k : Nat) (f : Warp → Warp) : (g.modWarp k f).gk = g.gk := rfl
@[simp] theorem group_modWarp_gid (g : Group) (k : Nat) (f : Warp → Warp) : (g.modWarp k f).gid = g.gid := rfl
@[simp] theorem group_modWarp_ctx (g : Group) (k : Nat) (f : Warp → Warp) : (g.modWarp k f).ctx = g.ctx := rfl
@[simp] theorem group_modWarp_sup (g : Group) (k : Nat) (f : Warp → Warp) : (g.modWarp k f).sup = g.sup := rfl
@[simp] theorem group_modWarp_root (g : Group) (k : Nat) (f : Warp → Warp) : (g.modWarp k f).root = g.root := rfl
@[simp] theorem group_modWarp_htab (g : Group) (k : Nat) (f : Warp → Warp) : (g.modWarp k f).htab = g.htab := rfl
@[simp] theorem group_modWarp_jtab (g : Group) (k : Nat) (f : Warp → Warp) : (g.modWarp k f).jtab = g.jtab := rfl
@[simp] theorem group_modWarp_record (g : Group) (k : Nat) (f : Warp → Warp) : (g.modWarp k f).record = g.record := rfl
@[simp] theorem group_modWarp_task (g : Group) (k : Nat) (f : Warp → Warp) : (g.modWarp k f).task = g.task := rfl
@[simp] theorem group_modWarp_gang (g : Group) (k : Nat) (f : Warp → Warp) : (g.modWarp k f).gang = g.gang := rfl
@[simp] theorem group_modWarp_member (g : Group) (k : Nat) (f : Warp → Warp) : (g.modWarp k f).member = g.member := rfl
@[simp] theorem group_modWarp_vh (g : Group) (k : Nat) (f : Warp → Warp) : (g.modWarp k f).vh = g.vh := rfl
@[simp] theorem group_modWarp_uh (g : Group) (k : Nat) (f : Warp → Warp) : (g.modWarp k f).uh = g.uh := rfl
@[simp] theorem group_modWarp_claim (g : Group) (k : Nat) (f : Warp → Warp) : (g.modWarp k f).claim = g.claim := rfl
@[simp] theorem group_modWarp_pages (g : Group) (k : Nat) (f : Warp → Warp) : (g.modWarp k f).pages = g.pages := rfl
@[simp] theorem group_modWarp_slots (g : Group) (k : Nat) (f : Warp → Warp) : (g.modWarp k f).slots = g.slots := rfl
@[simp] theorem group_modWarp_warps (g : Group) (k : Nat) (f : Warp → Warp) : (g.modWarp k f).warps = modAt g.warps k f := rfl
@[simp] theorem group_modWarp_threads (g : Group) (k : Nat) (f : Warp → Warp) : (g.modWarp k f).threads = g.threads := rfl
@[simp] theorem group_modWarp_budget (g : Group) (k : Nat) (f : Warp → Warp) : (g.modWarp k f).budget = g.budget := rfl
@[simp] theorem group_modWarp_budgetRaised (g : Group) (k : Nat) (f : Warp → Warp) : (g.modWarp k f).budgetRaised = g.budgetRaised := rfl
@[simp] theorem group_modWarp_spawnCount (g : Group) (k : Nat) (f : Warp → Warp) : (g.modWarp k f).spawnCount = g.spawnCount := rfl
@[simp] theorem group_modWarp_melds (g : Group) (k : Nat) (f : Warp → Warp) : (g.modWarp k f).melds = g.melds := rfl
@[simp] theorem group_modWarp_tile (g : Group) (k : Nat) (f : Warp → Warp) : (g.modWarp k f).tile = g.tile := rfl
@[simp] theorem group_modWarp_stop (g : Group) (k : Nat) (f : Warp → Warp) : (g.modWarp k f).stop = g.stop := rfl
@[simp] theorem group_modWarp_entered (g : Group) (k : Nat) (f : Warp → Warp) : (g.modWarp k f).entered = g.entered := rfl
@[simp] theorem group_modWarp_replay (g : Group) (k : Nat) (f : Warp → Warp) : (g.modWarp k f).replay = g.replay := rfl
@[simp] theorem group_modWarp_backlog (g : Group) (k : Nat) (f : Warp → Warp) : (g.modWarp k f).backlog = g.backlog := rfl
@[simp] theorem group_modWarp_planeLoads (g : Group) (k : Nat) (f : Warp → Warp) : (g.modWarp k f).planeLoads = g.planeLoads := rfl

/-! ### Group.modThread -/

@[simp] theorem group_modThread_gk (g : Group) (k : Nat) (f : Thread → Thread) : (g.modThread k f).gk = g.gk := by
 simp only [Group.modThread]; split <;> rfl
@[simp] theorem group_modThread_gid (g : Group) (k : Nat) (f : Thread → Thread) : (g.modThread k f).gid = g.gid := by
 simp only [Group.modThread]; split <;> rfl
@[simp] theorem group_modThread_ctx (g : Group) (k : Nat) (f : Thread → Thread) : (g.modThread k f).ctx = g.ctx := by
 simp only [Group.modThread]; split <;> rfl
@[simp] theorem group_modThread_sup (g : Group) (k : Nat) (f : Thread → Thread) : (g.modThread k f).sup = g.sup := by
 simp only [Group.modThread]; split <;> rfl
@[simp] theorem group_modThread_root (g : Group) (k : Nat) (f : Thread → Thread) : (g.modThread k f).root = g.root := by
 simp only [Group.modThread]; split <;> rfl
@[simp] theorem group_modThread_htab (g : Group) (k : Nat) (f : Thread → Thread) : (g.modThread k f).htab = g.htab := by
 simp only [Group.modThread]; split <;> rfl
@[simp] theorem group_modThread_jtab (g : Group) (k : Nat) (f : Thread → Thread) : (g.modThread k f).jtab = g.jtab := by
 simp only [Group.modThread]; split <;> rfl
@[simp] theorem group_modThread_record (g : Group) (k : Nat) (f : Thread → Thread) : (g.modThread k f).record = g.record := by
 simp only [Group.modThread]; split <;> rfl
@[simp] theorem group_modThread_task (g : Group) (k : Nat) (f : Thread → Thread) : (g.modThread k f).task = g.task := by
 simp only [Group.modThread]; split <;> rfl
@[simp] theorem group_modThread_gang (g : Group) (k : Nat) (f : Thread → Thread) : (g.modThread k f).gang = g.gang := by
 simp only [Group.modThread]; split <;> rfl
@[simp] theorem group_modThread_member (g : Group) (k : Nat) (f : Thread → Thread) : (g.modThread k f).member = g.member := by
 simp only [Group.modThread]; split <;> rfl
@[simp] theorem group_modThread_vh (g : Group) (k : Nat) (f : Thread → Thread) : (g.modThread k f).vh = g.vh := by
 simp only [Group.modThread]; split <;> rfl
@[simp] theorem group_modThread_uh (g : Group) (k : Nat) (f : Thread → Thread) : (g.modThread k f).uh = g.uh := by
 simp only [Group.modThread]; split <;> rfl
@[simp] theorem group_modThread_claim (g : Group) (k : Nat) (f : Thread → Thread) : (g.modThread k f).claim = g.claim := by
 simp only [Group.modThread]; split <;> rfl
@[simp] theorem group_modThread_pages (g : Group) (k : Nat) (f : Thread → Thread) : (g.modThread k f).pages = g.pages := by
 simp only [Group.modThread]; split <;> rfl
@[simp] theorem group_modThread_slots (g : Group) (k : Nat) (f : Thread → Thread) : (g.modThread k f).slots = g.slots := by
 simp only [Group.modThread]; split <;> rfl
@[simp] theorem group_modThread_warps (g : Group) (k : Nat) (f : Thread → Thread) : (g.modThread k f).warps = g.warps := by
 simp only [Group.modThread]; split <;> rfl
@[simp] theorem group_modThread_budget (g : Group) (k : Nat) (f : Thread → Thread) : (g.modThread k f).budget = g.budget := by
 simp only [Group.modThread]; split <;> rfl
@[simp] theorem group_modThread_budgetRaised (g : Group) (k : Nat) (f : Thread → Thread) : (g.modThread k f).budgetRaised = g.budgetRaised := by
 simp only [Group.modThread]; split <;> rfl
@[simp] theorem group_modThread_spawnCount (g : Group) (k : Nat) (f : Thread → Thread) : (g.modThread k f).spawnCount = g.spawnCount := by
 simp only [Group.modThread]; split <;> rfl
@[simp] theorem group_modThread_melds (g : Group) (k : Nat) (f : Thread → Thread) : (g.modThread k f).melds = g.melds := by
 simp only [Group.modThread]; split <;> rfl
@[simp] theorem group_modThread_tile (g : Group) (k : Nat) (f : Thread → Thread) : (g.modThread k f).tile = g.tile := by
 simp only [Group.modThread]; split <;> rfl
@[simp] theorem group_modThread_stop (g : Group) (k : Nat) (f : Thread → Thread) : (g.modThread k f).stop = g.stop := by
 simp only [Group.modThread]; split <;> rfl
@[simp] theorem group_modThread_entered (g : Group) (k : Nat) (f : Thread → Thread) : (g.modThread k f).entered = g.entered := by
 simp only [Group.modThread]; split <;> rfl
@[simp] theorem group_modThread_replay (g : Group) (k : Nat) (f : Thread → Thread) : (g.modThread k f).replay = g.replay := by
 simp only [Group.modThread]; split <;> rfl
@[simp] theorem group_modThread_backlog (g : Group) (k : Nat) (f : Thread → Thread) : (g.modThread k f).backlog = g.backlog := by
 simp only [Group.modThread]; split <;> rfl
@[simp] theorem group_modThread_planeLoads (g : Group) (k : Nat) (f : Thread → Thread) : (g.modThread k f).planeLoads = g.planeLoads := by
 simp only [Group.modThread]; split <;> rfl

/-! ### Core.modGroup -/

@[simp] theorem core_modGroup_groups (k : Core) (gk : Nat) (f : Group → Group) : (k.modGroup gk f).groups = k.groups.map fun g => if g.gk = gk then f g else g := rfl
@[simp] theorem core_modGroup_act (k : Core) (gk : Nat) (f : Group → Group) : (k.modGroup gk f).act = k.act := rfl
@[simp] theorem core_modGroup_shd (k : Core) (gk : Nat) (f : Group → Group) : (k.modGroup gk f).shd = k.shd := rfl
@[simp] theorem core_modGroup_acc (k : Core) (gk : Nat) (f : Group → Group) : (k.modGroup gk f).acc = k.acc := rfl
@[simp] theorem core_modGroup_apoison (k : Core) (gk : Nat) (f : Group → Group) : (k.modGroup gk f).apoison = k.apoison := rfl
@[simp] theorem core_modGroup_owner (k : Core) (gk : Nat) (f : Group → Group) : (k.modGroup gk f).owner = k.owner := rfl
@[simp] theorem core_modGroup_mq (k : Core) (gk : Nat) (f : Group → Group) : (k.modGroup gk f).mq = k.mq := rfl
@[simp] theorem core_modGroup_cq (k : Core) (gk : Nat) (f : Group → Group) : (k.modGroup gk f).cq = k.cq := rfl
@[simp] theorem core_modGroup_seqs (k : Core) (gk : Nat) (f : Group → Group) : (k.modGroup gk f).seqs = k.seqs := rfl
@[simp] theorem core_modGroup_bins (k : Core) (gk : Nat) (f : Group → Group) : (k.modGroup gk f).bins = k.bins := rfl
@[simp] theorem core_modGroup_tags (k : Core) (gk : Nat) (f : Group → Group) : (k.modGroup gk f).tags = k.tags := rfl
@[simp] theorem core_modGroup_tpoison (k : Core) (gk : Nat) (f : Group → Group) : (k.modGroup gk f).tpoison = k.tpoison := rfl
@[simp] theorem core_modGroup_recPages (k : Core) (gk : Nat) (f : Group → Group) : (k.modGroup gk f).recPages = k.recPages := rfl
@[simp] theorem core_modGroup_recSlots (k : Core) (gk : Nat) (f : Group → Group) : (k.modGroup gk f).recSlots = k.recSlots := rfl
@[simp] theorem core_modGroup_reqs (k : Core) (gk : Nat) (f : Group → Group) : (k.modGroup gk f).reqs = k.reqs := rfl
@[simp] theorem core_modGroup_pipes (k : Core) (gk : Nat) (f : Group → Group) : (k.modGroup gk f).pipes = k.pipes := rfl
@[simp] theorem core_modGroup_spills (k : Core) (gk : Nat) (f : Group → Group) : (k.modGroup gk f).spills = k.spills := rfl
@[simp] theorem core_modGroup_linger (k : Core) (gk : Nat) (f : Group → Group) : (k.modGroup gk f).linger = k.linger := rfl
@[simp] theorem core_modGroup_fetchFloor (k : Core) (gk : Nat) (f : Group → Group) : (k.modGroup gk f).fetchFloor = k.fetchFloor := rfl
@[simp] theorem core_modGroup_last (k : Core) (gk : Nat) (f : Group → Group) : (k.modGroup gk f).last = k.last := rfl
@[simp] theorem core_modGroup_launched (k : Core) (gk : Nat) (f : Group → Group) : (k.modGroup gk f).launched = k.launched := rfl

end Sys2Proof.Laws
end

