-- ==== Sys2Proof/Laws/Groups.lean ====
section
/-! SUPPORT. Reaching a core, a group and a thread after a change: what each shared operation over them does, said
once. -/

namespace Sys2Proof.Laws

open Sys2Proof.Machine

/-! ### Cores -/

/-- A core that is not at its reset state is read back. -/
theorem core_setCore_self (s : State) (c : Nat) {k : Core} (h : k ≠ Core.empty) : (s.setCore c k).core c = k := by
  simp only [State.core, State.setCore, sset, if_neg h]
  exact sget_sput_self _ _ _ _

/-- Another core is as before. -/
theorem core_setCore_of_ne (s : State) {c d : Nat} (h : d ≠ c) (k : Core) : (s.setCore c k).core d = s.core d :=
  sget_sset_of_ne _ h _ _

/-- A core with a group is not at its reset state. -/
theorem ne_empty_of_groups {k : Core} (h : k.groups ≠ []) : k ≠ Core.empty := fun e => h (by rw [e]; rfl)

/-- Changing groups of a core leaves it with as many. -/
theorem core_modGroup_self (s : State) (c gk : Nat) (f : Group → Group) (h : (s.core c).groups ≠ []) :
    (s.modGroup c gk f).core c = (s.core c).modGroup gk f := by
  apply core_setCore_self
  apply ne_empty_of_groups
  simpa [Core.modGroup] using h

/-- Another core is as before a change of a group. -/
theorem core_modGroup_of_ne (s : State) {c d : Nat} (h : d ≠ c) (gk : Nat) (f : Group → Group) :
    (s.modGroup c gk f).core d = s.core d := core_setCore_of_ne s h _

/-- A core on which a group is found has groups. -/
theorem groups_ne_nil {s : State} {c gk : Nat} {g : Group} (h : s.group? c gk = some g) : (s.core c).groups ≠ [] := by
  intro e; simp [State.group?, Core.group?, e] at h

/-! ### Groups -/

/-- A change of the groups of a key, found by the key. -/
theorem group?_modGroup_self (s : State) {c gk : Nat} {g : Group} (f : Group → Group) (h : s.group? c gk = some g)
    (hf : ∀ g : Group, (f g).gk = g.gk) : (s.modGroup c gk f).group? c gk = some (f g) := by
  simp only [State.group?, Core.group?, core_modGroup_self s c gk f (groups_ne_nil h)] at h ⊢
  simp only [Core.modGroup]
  generalize (s.core c).groups = l at h
  induction l with
  | nil => simp at h
  | cons a r ih =>
    simp only [List.find?_cons, List.map_cons] at h ⊢
    by_cases ha : a.gk = gk
    · simp only [ha, if_true, hf, beq_self_eq_true, Option.some.injEq] at h ⊢
      rw [h]
    · have hb : (a.gk == gk) = false := by simpa using ha
      simp only [ha, if_false, hb] at h ⊢
      exact ih h

/-- Another group is found as before. -/
theorem group?_modGroup_of_ne (s : State) {c gk k : Nat} (f : Group → Group) (hk : k ≠ gk)
    (hf : ∀ g : Group, (f g).gk = g.gk) (hs : (s.core c).groups ≠ []) :
    (s.modGroup c gk f).group? c k = s.group? c k := by
  simp only [State.group?, Core.group?]
  rw [core_modGroup_self s c gk f hs]
  simp only [Core.modGroup]
  induction (s.core c).groups with
  | nil => rfl
  | cons a r ih =>
    simp only [List.find?_cons, List.map_cons]
    by_cases ha : a.gk = gk
    · have hb : (gk == k) = false := by simpa using Ne.symm hk
      simp only [ha, if_true, hf, hb]
      exact ih
    · simp only [ha, if_false]
      rw [ih]

/-- A warp slot after its change. -/
theorem warp?_modWarp_self (g : Group) (k : Nat) (f : Warp → Warp) : (g.modWarp k f).warp? k = (g.warp? k).map f := by
  simp only [Group.warp?, Group.modWarp]
  generalize g.warps = l
  induction l generalizing k with
  | nil => rfl
  | cons a r ih => cases k with
    | zero => rfl
    | succ k => simpa [modAt] using ih k

/-- Another warp slot is as before. -/
theorem warp?_modWarp_of_ne (g : Group) {j k : Nat} (h : j ≠ k) (f : Warp → Warp) :
    (g.modWarp k f).warp? j = g.warp? j := by
  simp only [Group.warp?, Group.modWarp]
  generalize g.warps = l
  induction l generalizing j k with
  | nil => rfl
  | cons a r ih => cases k with
    | zero => cases j with
      | zero => exact absurd rfl h
      | succ j => simp [modAt]
    | succ k => cases j with
      | zero => simp [modAt]
      | succ j => simpa [modAt] using ih (by omega : j ≠ k)

/-! ### Threads -/

/-- A live thread after its change. -/
theorem sfind_modThread_self {g : Group} {t : Nat} {th : Thread} (h : sfind g.threads t = some th)
    (f : Thread → Thread) : sfind (g.modThread t f).threads t = some (f th) := by
  simp only [Group.modThread, h]
  exact sfind_sput_self _ _ _

/-- Another thread is as before. -/
theorem sfind_modThread_of_ne (g : Group) {t u : Nat} (h : u ≠ t) (f : Thread → Thread) :
    sfind (g.modThread t f).threads u = sfind g.threads u := by
  simp only [Group.modThread]
  split
  · exact sfind_sput_of_ne _ h _
  · rfl

/-! ### Lanes -/

/-- A change of threads leaves the rest of a group. -/
theorem modThread_eq (g : Group) (t : Nat) (f : Thread → Thread) :
    ∃ ts, g.modThread t f = { g with threads := ts } := by
  simp only [Group.modThread]
  split
  · exact ⟨_, rfl⟩
  · exact ⟨g.threads, rfl⟩

/-- Changes of the threads of a list of lanes leave the rest of a group. -/
theorem lanes_fold_frame (x : Ctx) (f : Nat → Thread → Thread) (ls : List Nat) (g : Group) :
    ∃ ts, ls.foldl (fun (g : Group) l => g.modThread (x.slotOf l) (f l)) g = { g with threads := ts } := by
  induction ls generalizing g with
  | nil => exact ⟨g.threads, rfl⟩
  | cons l r ih =>
    obtain ⟨ts, hts⟩ := modThread_eq g (x.slotOf l) (f l)
    obtain ⟨us, hus⟩ := ih { g with threads := ts }
    exact ⟨us, by rw [List.foldl_cons, hts, hus]⟩

/-- A thread of no lane of the list is as before. -/
theorem lanes_fold_other (x : Ctx) (f : Nat → Thread → Thread) (ls : List Nat) (g : Group) {t : Nat}
    (h : ∀ l ∈ ls, x.slotOf l ≠ t) :
    sfind (ls.foldl (fun (g : Group) l => g.modThread (x.slotOf l) (f l)) g).threads t = sfind g.threads t := by
  induction ls generalizing g with
  | nil => rfl
  | cons l r ih =>
    rw [List.foldl_cons, ih _ (fun m hm => h m (List.mem_cons_of_mem _ hm)),
      sfind_modThread_of_ne _ (Ne.symm (h l List.mem_cons_self))]

/-- The thread of a lane that shares its slot with no other lane of the list. -/
theorem lanes_fold_self (x : Ctx) (f : Nat → Thread → Thread) (ls : List Nat) (g : Group) {l t : Nat} {th : Thread}
    (hn : ls.Nodup) (hl : l ∈ ls) (ht : x.slotOf l = t) (hu : ∀ m ∈ ls, m ≠ l → x.slotOf m ≠ t)
    (hg : sfind g.threads t = some th) :
    sfind (ls.foldl (fun (g : Group) l => g.modThread (x.slotOf l) (f l)) g).threads t = some (f l th) := by
  induction ls generalizing g with
  | nil => simp at hl
  | cons a r ih =>
    simp only [List.nodup_cons] at hn
    rw [List.foldl_cons]
    by_cases ha : a = l
    · subst ha
      rw [lanes_fold_other x f r _ fun m hm => hu m (List.mem_cons_of_mem _ hm) fun e => hn.1 (e ▸ hm), ht]
      exact sfind_modThread_self hg _
    · have hl' : l ∈ r := by
        rcases List.mem_cons.mp hl with e | e
        · exact absurd e.symm ha
        · exact e
      apply ih _ hn.2 hl' fun m hm => hu m (List.mem_cons_of_mem _ hm)
      rw [sfind_modThread_of_ne _ (Ne.symm (hu a List.mem_cons_self ha))]
      exact hg

/-- The lanes of a mask are listed once each. -/
theorem maskLanes_nodup (m : Mask) : (maskLanes m).Nodup := List.Nodup.filter _ List.nodup_range

/-- Changing threads of lanes keeps the memory. -/
@[simp] theorem lanesDo_mem (x : Ctx) (s : State) (ls : List Nat) (f : Nat → Thread → Thread) :
    (x.lanesDo s ls f).mem = s.mem := rfl
/-- Completing keeps the memory. -/
@[simp] theorem done_mem (x : Ctx) (s : State) (f : Nat → Thread → Thread) : (x.done s f).mem = s.mem := rfl
/-- Completing with a change of the warp keeps the memory. -/
@[simp] theorem doneW_mem (x : Ctx) (s : State) (f : Warp → Warp) : (x.doneW s f).mem = s.mem := rfl
/-- Moving past the word keeps the memory. -/
@[simp] theorem advance_mem (x : Ctx) (s : State) (ls : List Nat) : (x.advance s ls).mem = s.mem := rfl
/-- Stalling keeps the memory. -/
@[simp] theorem stall_mem (x : Ctx) (s : State) (why : Stall) : (x.stall s why).mem = s.mem := rfl
/-- Waiting keeps the memory. -/
@[simp] theorem waitAt_mem (x : Ctx) (s : State) (ls : List Nat) (k : Wait) : (x.waitAt s ls k).mem = s.mem := by
  rfl
/-- Setting the sync flag keeps the memory. -/
@[simp] theorem sync_mem (s : State) (c : Nat) (g : Group) (slot : Nat) : (s.sync c g slot).mem = s.mem := by
  simp only [State.sync]; split <;> rfl
/-- Beginning to stop keeps the memory. -/
@[simp] theorem escape_mem (s : State) (c gang m r : Nat) (b : Word) (pc : Addr) :
    (s.escape c gang m r b pc).mem = s.mem := rfl
/-- A token write keeps the memory. -/
@[simp] theorem writeTok_mem (s : State) (c gk : Nat) (t : Tok) (v : Word) : (s.writeTok c gk t v).mem = s.mem := by
  simp only [State.writeTok]; split <;> rfl
/-- Returning from a handler keeps the memory. -/
@[simp] theorem tret_mem (s : State) (c gk slot : Nat) (m : Mask) : (s.tret c gk slot m).mem = s.mem := by
  simp only [State.tret]; split
  · rfl
  · split <;> rfl

/-- Abandoning a recording writes its directory record only: nothing where the gang is not recorded. -/
theorem abandon_of_none {s : State} {gang : Nat} (h : s.recorderOf gang = none) (why : Nat) :
    s.abandon gang why = s := by simp [State.abandon, h]

/-- Parking keeps the memory where the gang is not recorded. -/
theorem park_mem {s : State} (h : ∀ gang, s.recorderOf gang = none) (c gk slot : Nat) (m : Mask) (b : Word) (pc : Addr) :
    (s.park c gk slot m b pc).mem = s.mem := by
  simp only [State.park]
  split
  · rfl
  · split
    · rfl
    · split
      · rfl
      · split
        · rfl
        · rw [abandon_of_none (h _)]
          split
          · rfl
          · split <;> rfl

end Sys2Proof.Laws
end

