-- ==== Sys2Proof/Laws/Memory.lean ====
section
/-! SUPPORT. Reading memory after a write, and the canonical form that every write keeps. -/

namespace Sys2Proof.Laws

open Sys2Proof.Machine

/-! ### The canonical form -/

/-- A list in canonical form from a key is so from every lower one. -/
theorem wfFrom_mono {m : List Host.Cell} {lo hi : Nat} (h : Memory.wfFrom hi m = true) (hle : lo ≤ hi) :
    Memory.wfFrom lo m = true := by
  cases m with
  | nil => rfl
  | cons a r =>
    obtain ⟨j, b⟩ := a
    simp only [Memory.wfFrom, Bool.and_eq_true, decide_eq_true_eq] at h ⊢
    exact ⟨⟨by omega, h.1.2⟩, h.2⟩

/-- A write keeps the canonical form. -/
theorem wfFrom_write {m : List Host.Cell} {lo k : Nat} (h : Memory.wfFrom lo m = true) (hk : lo ≤ k) (v : Byte) :
    Memory.wfFrom lo (Memory.write m k v) = true := by
  induction m generalizing lo with
  | nil =>
    simp only [Memory.write]
    split
    · rfl
    · rename_i hv; simp [Memory.wfFrom, hk, hv]
  | cons a r ih =>
    obtain ⟨j, b⟩ := a
    have h' := h
    simp only [Memory.wfFrom, Bool.and_eq_true, decide_eq_true_eq] at h'
    simp only [Memory.write]
    split
    · split
      · exact h
      · rename_i hkj hv
        simp only [Memory.wfFrom, Bool.and_eq_true, decide_eq_true_eq]
        exact ⟨⟨hk, hv⟩, ⟨by omega, h'.1.2⟩, h'.2⟩
    · split
      · rename_i e
        subst e
        split
        · exact wfFrom_mono h'.2 (by omega)
        · rename_i hv; simp [Memory.wfFrom, hk, hv, h'.2]
      · simp only [Memory.wfFrom, Bool.and_eq_true, decide_eq_true_eq]
        exact ⟨h'.1, ih h'.2 (by omega)⟩

/-- A write of bytes keeps the canonical form. -/
theorem wf_writeN {m : List Host.Cell} (h : Memory.wf m = true) (k : Nat) (bs : List Byte) :
    Memory.wf (Memory.writeN m k bs) = true := by
  induction bs generalizing m k with
  | nil => exact h
  | cons b r ih => exact ih (wfFrom_write h (Nat.zero_le k) b) (k + 1)

/-- Leaving out cells keeps the canonical form. -/
theorem wfFrom_filter {m : List Host.Cell} {lo : Nat} (h : Memory.wfFrom lo m = true) (p : Host.Cell → Bool) :
    Memory.wfFrom lo (m.filter p) = true := by
  induction m generalizing lo with
  | nil => rfl
  | cons a r ih =>
    obtain ⟨j, b⟩ := a
    simp only [Memory.wfFrom, Bool.and_eq_true, decide_eq_true_eq] at h
    simp only [List.filter]
    split
    · simp only [Memory.wfFrom, Bool.and_eq_true, decide_eq_true_eq]; exact ⟨h.1, ih h.2⟩
    · exact wfFrom_mono (ih h.2) (by omega)

/-! ### Reading after a write -/

/-- Below the cells of a list in canonical form every key reads as unlisted. -/
theorem read_of_wfFrom {m : List Host.Cell} {lo k : Nat} (h : Memory.wfFrom lo m = true) (hk : k < lo) :
    Memory.read m k = unlisted k := by
  cases m with
  | nil => rfl
  | cons a r =>
    obtain ⟨j, b⟩ := a
    simp only [Memory.wfFrom, Bool.and_eq_true, decide_eq_true_eq] at h
    simp only [Memory.read]
    rw [if_pos (by omega)]

/-- The byte written is the byte read. -/
theorem read_write_self {m : List Host.Cell} {lo : Nat} (h : Memory.wfFrom lo m = true) (k : Nat) (v : Byte) :
    Memory.read (Memory.write m k v) k = v := by
  induction m generalizing lo with
  | nil =>
    simp only [Memory.write]
    split
    · rename_i e; simp [Memory.read, e]
    · simp [Memory.read]
  | cons a r ih =>
    obtain ⟨j, b⟩ := a
    simp only [Memory.wfFrom, Bool.and_eq_true, decide_eq_true_eq] at h
    simp only [Memory.write]
    split
    · rename_i hkj
      split
      · rename_i e; simp [Memory.read, hkj, e]
      · simp [Memory.read]
    · split
      · rename_i e
        subst e
        split
        · rename_i hv; rw [read_of_wfFrom h.2 (by omega), hv]
        · simp [Memory.read]
      · rename_i h1 h2
        simp only [Memory.read, h1, h2, if_false]
        exact ih h.2

/-- A write leaves every other byte. -/
theorem read_write_of_ne {m : List Host.Cell} {lo : Nat} (h : Memory.wfFrom lo m = true) {j k : Nat} (hj : j ≠ k)
    (v : Byte) : Memory.read (Memory.write m k v) j = Memory.read m j := by
  induction m generalizing lo with
  | nil =>
    simp only [Memory.write]
    split
    · rfl
    · simp only [Memory.read]; split
      · rfl
      · rw [if_neg (Ne.symm hj)]
  | cons a r ih =>
    obtain ⟨i, b⟩ := a
    simp only [Memory.wfFrom, Bool.and_eq_true, decide_eq_true_eq] at h
    simp only [Memory.write]
    split
    · rename_i hki
      split
      · rfl
      · simp only [Memory.read]
        rcases Nat.lt_or_ge j k with hjk | hjk
        · rw [if_pos hjk, if_pos (by omega)]
        · rw [if_neg (by omega), if_neg (Ne.symm hj)]
    · split
      · rename_i e
        subst e
        split
        · simp only [Memory.read]
          rcases Nat.lt_or_ge j i with hji | hji
          · rw [if_pos hji, read_of_wfFrom h.2 (by omega)]
          · rw [if_neg (by omega), if_neg (Ne.symm hj)]
        · simp only [Memory.read]
          rcases Nat.lt_or_ge j i with hji | hji
          · rw [if_pos hji, if_pos hji]
          · have hn : ¬ j < i := by omega
            simp only [hn, Ne.symm hj, if_false]
      · simp only [Memory.read]
        split
        · rfl
        · split
          · rfl
          · exact ih h.2

/-- A write of bytes leaves every byte outside its span. -/
theorem read_writeN_outside {m : List Host.Cell} (h : Memory.wf m = true) {k j : Nat} {bs : List Byte}
    (hj : j < k ∨ k + bs.length ≤ j) : Memory.read (Memory.writeN m k bs) j = Memory.read m j := by
  induction bs generalizing m k with
  | nil => rfl
  | cons b r ih =>
    simp only [List.length_cons] at hj
    simp only [Memory.writeN]
    rw [ih (wfFrom_write h (Nat.zero_le k) b) (by omega), read_write_of_ne h (by omega)]

/-- The bytes written are the bytes read. -/
theorem readN_writeN {m : List Host.Cell} (h : Memory.wf m = true) (k : Nat) (bs : List Byte) :
    Memory.readN (Memory.writeN m k bs) k bs.length = bs := by
  induction bs generalizing m k with
  | nil => rfl
  | cons b r ih =>
    have hw := wfFrom_write h (Nat.zero_le k) b
    simp only [Memory.writeN, List.length_cons, Memory.readN]
    rw [read_writeN_outside hw (by omega), read_write_self h, ih hw (k + 1)]

/-! ### The state's operations -/

/-- A raw write keeps the canonical form. -/
theorem put_wf {s : State} (h : Memory.wf s.mem = true) (k : Nat) (bs : List Byte) :
    Memory.wf (s.put k bs).mem = true := wf_writeN h k bs

/-- A raw write of a number keeps the canonical form. -/
theorem putNum_wf {s : State} (h : Memory.wf s.mem = true) (k n v : Nat) :
    Memory.wf (s.putNum k n v).mem = true := wf_writeN h k (leBytes n v)

/-- What a raw write wrote is read back. -/
theorem bytes_put {s : State} (h : Memory.wf s.mem = true) (k : Nat) (bs : List Byte) :
    (s.put k bs).bytes k bs.length = bs := readN_writeN h k bs

/-- A raw write leaves every byte outside its span. -/
theorem byte_put_outside {s : State} (h : Memory.wf s.mem = true) {k j : Nat} {bs : List Byte}
    (hj : j < k ∨ k + bs.length ≤ j) : (s.put k bs).byte j = s.byte j := read_writeN_outside h hj

/-- The n low bytes of a number are n. -/
theorem length_leBytes (n v : Nat) : (leBytes n v).length = n := by
  induction n generalizing v with
  | zero => rfl
  | succ n ih => simp [leBytes, ih]

/-- The low bytes of a number, read little-endian, are the number's remainder. -/
theorem leNat_leBytes (n v : Nat) : leNat (leBytes n v) = v % 2 ^ (8 * n) := by
  induction n generalizing v with
  | zero => simp [leBytes, leNat, Nat.mod_one]
  | succ n ih =>
    simp only [leBytes, leNat, ih, BitVec.toNat_ofNat]
    have e : 2 ^ (8 * (n + 1)) = 2 ^ 8 * 2 ^ (8 * n) := by rw [← pow_add]; congr 1; omega
    rw [e, Nat.mod_mul]
    norm_num

/-- A number written is the number read. -/
theorem num_putNum {s : State} (h : Memory.wf s.mem = true) (k n v : Nat) :
    (s.putNum k n v).num k n = v % 2 ^ (8 * n) := by
  have hb := bytes_put h k (leBytes n v)
  rw [length_leBytes] at hb
  simp only [State.num, State.putNum, hb, leNat_leBytes]

end Sys2Proof.Laws
end

