-- ==== Sys2Proof/Laws/Numbers.lean ====
section
/-! SUPPORT. The number helpers of R55 as operations on bit vectors. -/

namespace Sys2Proof.Laws

open Sys2Proof.Machine

/-- zx and wrap: an integer's low bits. -/
theorem ofNat_wrap (n : Nat) (v : Int) : BitVec.ofNat n (wrap v n) = BitVec.ofInt n v := by
  apply BitVec.eq_of_toNat_eq
  simp [wrap, BitVec.toNat_ofInt]
  apply Nat.mod_eq_of_lt
  have := Int.emod_lt_of_pos v (by positivity : (0 : Int) < 2 ^ n)
  have h0 := Int.emod_nonneg v (by positivity : (2 : Int) ^ n ≠ 0)
  zify
  rw [Int.toNat_of_nonneg h0]
  exact this

/-- sx of a bit vector's value is its signed value. -/
theorem sx_toNat {n : Nat} (h : 0 < n) (v : BitVec n) : sx v.toNat n = v.toInt := by
  have hl := v.isLt
  have hp : 2 ^ n = 2 * 2 ^ (n - 1) := by rw [← pow_succ']; congr 1; omega
  simp only [sx, Nat.mod_eq_of_lt hl, BitVec.toInt_eq_toNat_cond, if_neg (by omega : ¬ n = 0)]
  split <;> split <;> first | rfl | omega

end Sys2Proof.Laws
end

