-- ==== Sys2Proof/Laws/PerInstr.lean ====
section
/-! SUPPORT. The round trip of every instruction, one lemma per constructor: decoding the word of a
well-formed instruction gives the instruction back (R41-R46). -/

namespace Sys2Proof.Laws

/-- Decoding the word of a well-formed instruction gives it back. -/
def RoundTrip.Statement (i : Instr) : Prop :=
  ∀ w, i.wellFormed = true → encode i = some w → decode w = .ok i

/-! ### Codes -/

theorem code_IType : ∀ x : IType, IType.ofCode x.code = some x := by intro x; cases x <;> rfl
theorem code_LogicFn : ∀ x : LogicFn, LogicFn.ofCode x.code = some x := by intro x; cases x <;> rfl
theorem code_ShiftFn : ∀ x : ShiftFn, ShiftFn.ofCode x.code = some x := by intro x; cases x <;> rfl
theorem code_BitsFn : ∀ x : BitsFn, BitsFn.ofCode x.code = some x := by intro x; cases x <;> rfl
theorem code_Cmp : ∀ x : Cmp, Cmp.ofCode x.code = some x := by intro x; cases x <;> rfl
theorem code_FFmt : ∀ x : FFmt, FFmt.ofCode x.code = some x := by intro x; cases x <;> rfl
theorem code_Rnd : ∀ x : Rnd, Rnd.ofCode x.code = some x := by intro x; cases x <;> rfl
theorem code_FmnxFn : ∀ x : FmnxFn, FmnxFn.ofCode x.code = some x := by intro x; cases x <;> rfl
theorem code_FCmp : ∀ x : FCmp, FCmp.ofCode x.code = some x := by intro x; cases x <;> rfl
theorem code_CvtType : ∀ x : CvtType, CvtType.ofCode x.code = some x := by intro x; cases x <;> rfl
theorem code_SfuFn : ∀ x : SfuFn, SfuFn.ofCode x.code = some x := by intro x; cases x <;> rfl
theorem code_Hop2Op : ∀ x : Hop2Op, Hop2Op.ofCode x.code = some x := by intro x; cases x <;> rfl
theorem code_Hop2Rnd : ∀ x : Hop2Rnd, Hop2Rnd.ofCode x.code = some x := by intro x; cases x <;> rfl
theorem code_DotType : ∀ x : DotType, DotType.ofCode x.code = some x := by intro x; cases x <;> rfl
theorem code_ShflMode : ∀ x : ShflMode, ShflMode.ofCode x.code = some x := by intro x; cases x <;> rfl
theorem code_ShflSeg : ∀ x : ShflSeg, ShflSeg.ofCode x.code = some x := by intro x; cases x <;> rfl
theorem code_VoteOp : ∀ x : VoteOp, VoteOp.ofCode x.code = some x := by intro x; cases x <;> rfl
theorem code_WredOp : ∀ x : WredOp, WredOp.ofCode x.code = some x := by intro x; cases x <;> rfl
theorem code_PlogOp : ∀ x : PlogOp, PlogOp.ofCode x.code = some x := by intro x; cases x <;> rfl
theorem code_XmovKind : ∀ x : XmovKind, XmovKind.ofCode x.code = some x := by intro x; cases x <;> rfl
theorem code_LdKind : ∀ x : LdKind, LdKind.ofCode x.code = some x := by intro x; cases x <;> rfl
theorem code_StKind : ∀ x : StKind, StKind.ofCode x.code = some x := by intro x; cases x <;> rfl
theorem code_AtomOp : ∀ x : AtomOp, AtomOp.ofCode x.code = some x := by intro x; cases x <;> rfl
theorem code_CopyFn : ∀ x : CopyFn, CopyFn.ofCode x.code = some x := by intro x; cases x <;> rfl
theorem code_BlendOp : ∀ x : BlendOp, BlendOp.ofCode x.code = some x := by intro x; cases x <;> rfl
theorem code_SReg : ∀ x : SReg, SReg.ofCode x.code = some x := by intro x; cases x <;> rfl

/-! ### Fields -/

/-- A low field of a concatenation. -/
theorem ext_low {n k : Nat} (x : BitVec n) (y : BitVec k) : (x ++ y).extractLsb' 0 k = y := by
  apply BitVec.eq_of_getLsbD_eq; intro i hi; simp [BitVec.getLsbD_append, hi]

/-- A high field of a concatenation. -/
theorem ext_high {n k : Nat} (x : BitVec n) (y : BitVec k) : (x ++ y).extractLsb' k n = x := by
  apply BitVec.eq_of_getLsbD_eq; intro i hi; simp [BitVec.getLsbD_append, hi]

/-- A field inside the high part of a concatenation. -/
theorem ext_up {n k : Nat} (x : BitVec n) (y : BitVec k) (s l : Nat) (h : k ≤ s) :
    (x ++ y).extractLsb' s l = x.extractLsb' (s - k) l := by
  apply BitVec.eq_of_getLsbD_eq; intro i hi
  have h1 : ¬ s + i < k := by omega
  have h2 : s + i - k = s - k + i := by omega
  simp [BitVec.getLsbD_append, hi, h1, h2]


/-- The whole of a field. -/
theorem ext_all {n : Nat} (x : BitVec n) : x.extractLsb' 0 n = x := by
  apply BitVec.eq_of_getLsbD_eq; intro i hi; simp [hi]

theorem bit_one (b : Bool) : fbit (bit1 b) 0 = b := by cases b <;> rfl

/-- The fields of a word are the fields it was built from. -/
theorem fields_of_word (f : Fields) : Fields.ofWord f.toWord = f := by
  obtain ⟨op, d, a, b, m⟩ := f
  have h1 : (op ++ d ++ a ++ b ++ m : BitVec 32).extractLsb' 26 6 = op :=
    (ext_up (op ++ d ++ a ++ b) m 26 6 (by decide)).trans
      ((ext_up (op ++ d ++ a) b 21 6 (by decide)).trans
        ((ext_up (op ++ d) a 14 6 (by decide)).trans (ext_high op d)))
  have h2 : (op ++ d ++ a ++ b ++ m : BitVec 32).extractLsb' 19 7 = d :=
    (ext_up (op ++ d ++ a ++ b) m 19 7 (by decide)).trans
      ((ext_up (op ++ d ++ a) b 14 7 (by decide)).trans
        ((ext_up (op ++ d) a 7 7 (by decide)).trans (ext_low op d)))
  have h3 : (op ++ d ++ a ++ b ++ m : BitVec 32).extractLsb' 12 7 = a :=
    (ext_up (op ++ d ++ a ++ b) m 12 7 (by decide)).trans
      ((ext_up (op ++ d ++ a) b 7 7 (by decide)).trans (ext_low (op ++ d) a))
  have h4 : (op ++ d ++ a ++ b ++ m : BitVec 32).extractLsb' 5 7 = b :=
    (ext_up (op ++ d ++ a ++ b) m 5 7 (by decide)).trans (ext_low (op ++ d ++ a) b)
  have h5 : (op ++ d ++ a ++ b ++ m : BitVec 32).extractLsb' 0 5 = m :=
    ext_low (op ++ d ++ a ++ b) m
  simp only [Fields.ofWord, Fields.toWord, h1, h2, h3, h4, h5]

/-- A field and the one below it are one field. -/
theorem ext_join {n : Nat} (x : BitVec n) (s l k : Nat) :
    x.extractLsb' (s + k) l ++ x.extractLsb' s k = x.extractLsb' s (l + k) := by
  apply BitVec.eq_of_getLsbD_eq; intro i hi
  simp only [BitVec.getLsbD_append, BitVec.getLsbD_extractLsb']
  by_cases h : i < k
  · simp [h, hi]
  · have h1 : i - k < l := by omega
    have h2 : s + k + (i - k) = s + i := by omega
    simp [h, h1, h2, hi]

/-- What an I-format word's immediate reads back as. -/
theorem imm12_i (op : BitVec 6) (d a : BitVec 7) (i : BitVec 12) : (Fields.i op d a i).imm12 = i :=
  (ext_join i 0 7 5).trans (ext_all i)
/-- What an L-format word's immediate reads back as. -/
theorem imm19_l (op : BitVec 6) (d : BitVec 7) (i : BitVec 19) : (Fields.l op d i).imm19 = i :=
  (congrArg (· ++ i.extractLsb' 0 5) (ext_join i 5 7 7)).trans ((ext_join i 0 14 5).trans (ext_all i))

theorem i_op (op : BitVec 6) (d a : BitVec 7) (i : BitVec 12) : (Fields.i op d a i).op = op := rfl
theorem i_d (op : BitVec 6) (d a : BitVec 7) (i : BitVec 12) : (Fields.i op d a i).d = d := rfl
theorem i_a (op : BitVec 6) (d a : BitVec 7) (i : BitVec 12) : (Fields.i op d a i).a = a := rfl
theorem l_op (op : BitVec 6) (d : BitVec 7) (i : BitVec 19) : (Fields.l op d i).op = op := rfl
theorem l_d (op : BitVec 6) (d : BitVec 7) (i : BitVec 19) : (Fields.l op d i).d = d := rfl
theorem e_top (x : BitVec 6) : (eU x).getLsbD 6 = false := by
  have h : (0#1 ++ x).getLsbD 6 = _ := BitVec.getLsbD_append
  exact h.trans (by simp)
theorem uni_e (x : BitVec 6) (k : BitVec 6 → Dec) : uni (eU x) k = k x := by
  have h : (eU x).extractLsb' 0 6 = x := ext_low 0#1 x
  simp only [uni, fbit, h, e_top]; rfl
theorem low6_e (x : BitVec 6) (k : BitVec 6 → Dec) : low6 (eU x) k = k x := by
  have h : (eU x).extractLsb' 0 6 = x := ext_low 0#1 x
  simp only [low6, fbit, h, e_top]; rfl
theorem pred_e (x : BitVec 4) (k : BitVec 4 → Dec) : pred (eP x) k = k x := by
  have h : (eP x).extractLsb' 0 4 = x := ext_low 0#3 x
  have h' : (eP x).extractLsb' 4 3 = 0 := ext_high 0#3 x
  simp [pred, h, h']
theorem tile_e (x : BitVec 5) (k : BitVec 5 → Dec) : tile (eT x) k = k x := by
  have h : (eT x).extractLsb' 0 5 = x := ext_low 0#2 x
  have h' : (eT x).extractLsb' 5 2 = 0 := ext_high 0#2 x
  simp [tile, zero, h, h']
theorem token_e (t : Token) : token (eTok t) = t := by
  cases t with
  | none => rfl
  | some x =>
    have h : (eU x).extractLsb' 0 6 = x := ext_low 0#1 x
    have hx : eTok (some x) = eU x := rfl
    simp only [token, fbit, hx, h, e_top]; rfl
theorem zero_e {n : Nat} (k : Dec) : zero (0 : BitVec n) k = k := by simp [zero]
theorem zero_lit (n : Nat) (k : Dec) : zero (0#n) k = k := zero_e k
theorem mk_none : eMk none = 0#1 := rfl
theorem mk_some (k : BitVec 3) : eMk (some k) = 1#1 := rfl
theorem bit_true : bit1 true = 1#1 := rfl
theorem bit_false : bit1 false = 0#1 := rfl
theorem some_mk (k : BitVec 3) (x : BitVec 3) (f : MeldOp → Dec) (h : x = k) : meldOp true x f = f (some k) := by
  subst h; rfl
theorem none_mk (f : MeldOp → Dec) : meldOp false 0#3 f = f none := rfl
theorem fbit_zero : fbit 0#1 0 = false := rfl
theorem fbit_one : fbit 1#1 0 = true := rfl
theorem fbit_lit (n x i : Nat) : fbit (BitVec.ofNat n x) i = (BitVec.ofNat n x).getLsbD i := rfl
theorem bar_lt (k : BitVec 3) : (0#2 ++ k : BitVec 5).toNat < 8 := by revert k; decide
theorem need_e {α : Type} (x : α) (k : α → Dec) : need (some x) k = k x := rfl
theorem meld_lo (m : MeldOp) (c : BitVec 4) : (eMeld m c).extractLsb' 0 4 = c := ext_low _ c
theorem meld_hi (m : MeldOp) (c : BitVec 4) : (eMeld m c).extractLsb' 4 3 = m.getD 0 := ext_high _ c
theorem k_lo (k : BitVec 3) : (eK k).extractLsb' 0 3 = k := ext_low _ k
theorem k_hi (k : BitVec 3) : (eK k).extractLsb' 3 4 = 0 := ext_high _ k
theorem p_lo (k : BitVec 4) : (eP k).extractLsb' 0 4 = k := ext_low _ k
theorem p_hi (k : BitVec 4) : (eP k).extractLsb' 4 3 = 0 := ext_high _ k

/-! ### The parts of a field built from parts -/

theorem part_212_0 (x0 : BitVec 2) (x1 : BitVec 1) (x2 : BitVec 2) :
    (x0 ++ x1 ++ x2 : BitVec 5).extractLsb' 3 2 = x0 :=
  (ext_up (x0 ++ x1) x2 3 2 (by decide)).trans (ext_high x0 x1)
theorem part_212_1 (x0 : BitVec 2) (x1 : BitVec 1) (x2 : BitVec 2) :
    (x0 ++ x1 ++ x2 : BitVec 5).extractLsb' 2 1 = x1 :=
  (ext_up (x0 ++ x1) x2 2 1 (by decide)).trans (ext_low (x0) x1)
theorem bit_212_1 (x0 : BitVec 2) (x1 : BitVec 1) (x2 : BitVec 2) :
    fbit (x0 ++ x1 ++ x2 : BitVec 5) 2 = fbit x1 0 := by
  have h := congrArg (fun z => z.getLsbD 0) (part_212_1 x0 x1 x2)
  simpa [fbit] using h
theorem part_2111_0 (x0 : BitVec 2) (x1 : BitVec 1) (x2 : BitVec 1) (x3 : BitVec 1) :
    (x0 ++ x1 ++ x2 ++ x3 : BitVec 5).extractLsb' 3 2 = x0 :=
  (ext_up (x0 ++ x1 ++ x2) x3 3 2 (by decide)).trans ((ext_up (x0 ++ x1) x2 2 2 (by decide)).trans (ext_high x0 x1))
theorem part_2111_1 (x0 : BitVec 2) (x1 : BitVec 1) (x2 : BitVec 1) (x3 : BitVec 1) :
    (x0 ++ x1 ++ x2 ++ x3 : BitVec 5).extractLsb' 2 1 = x1 :=
  (ext_up (x0 ++ x1 ++ x2) x3 2 1 (by decide)).trans ((ext_up (x0 ++ x1) x2 1 1 (by decide)).trans (ext_low (x0) x1))
theorem bit_2111_1 (x0 : BitVec 2) (x1 : BitVec 1) (x2 : BitVec 1) (x3 : BitVec 1) :
    fbit (x0 ++ x1 ++ x2 ++ x3 : BitVec 5) 2 = fbit x1 0 := by
  have h := congrArg (fun z => z.getLsbD 0) (part_2111_1 x0 x1 x2 x3)
  simpa [fbit] using h
theorem part_2111_2 (x0 : BitVec 2) (x1 : BitVec 1) (x2 : BitVec 1) (x3 : BitVec 1) :
    (x0 ++ x1 ++ x2 ++ x3 : BitVec 5).extractLsb' 1 1 = x2 :=
  (ext_up (x0 ++ x1 ++ x2) x3 1 1 (by decide)).trans (ext_low (x0 ++ x1) x2)
theorem bit_2111_2 (x0 : BitVec 2) (x1 : BitVec 1) (x2 : BitVec 1) (x3 : BitVec 1) :
    fbit (x0 ++ x1 ++ x2 ++ x3 : BitVec 5) 1 = fbit x2 0 := by
  have h := congrArg (fun z => z.getLsbD 0) (part_2111_2 x0 x1 x2 x3)
  simpa [fbit] using h
theorem part_113_0 (x0 : BitVec 1) (x1 : BitVec 1) (x2 : BitVec 3) :
    (x0 ++ x1 ++ x2 : BitVec 5).extractLsb' 4 1 = x0 :=
  (ext_up (x0 ++ x1) x2 4 1 (by decide)).trans (ext_high x0 x1)
theorem bit_113_0 (x0 : BitVec 1) (x1 : BitVec 1) (x2 : BitVec 3) :
    fbit (x0 ++ x1 ++ x2 : BitVec 5) 4 = fbit x0 0 := by
  have h := congrArg (fun z => z.getLsbD 0) (part_113_0 x0 x1 x2)
  simpa [fbit] using h
theorem part_113_1 (x0 : BitVec 1) (x1 : BitVec 1) (x2 : BitVec 3) :
    (x0 ++ x1 ++ x2 : BitVec 5).extractLsb' 3 1 = x1 :=
  (ext_up (x0 ++ x1) x2 3 1 (by decide)).trans (ext_low (x0) x1)
theorem bit_113_1 (x0 : BitVec 1) (x1 : BitVec 1) (x2 : BitVec 3) :
    fbit (x0 ++ x1 ++ x2 : BitVec 5) 3 = fbit x1 0 := by
  have h := congrArg (fun z => z.getLsbD 0) (part_113_1 x0 x1 x2)
  simpa [fbit] using h
theorem part_14_0 (x0 : BitVec 1) (x1 : BitVec 4) :
    (x0 ++ x1 : BitVec 5).extractLsb' 4 1 = x0 :=
  ext_high x0 x1
theorem bit_14_0 (x0 : BitVec 1) (x1 : BitVec 4) :
    fbit (x0 ++ x1 : BitVec 5) 4 = fbit x0 0 := by
  have h := congrArg (fun z => z.getLsbD 0) (part_14_0 x0 x1)
  simpa [fbit] using h
theorem part_122_0 (x0 : BitVec 1) (x1 : BitVec 2) (x2 : BitVec 2) :
    (x0 ++ x1 ++ x2 : BitVec 5).extractLsb' 4 1 = x0 :=
  (ext_up (x0 ++ x1) x2 4 1 (by decide)).trans (ext_high x0 x1)
theorem bit_122_0 (x0 : BitVec 1) (x1 : BitVec 2) (x2 : BitVec 2) :
    fbit (x0 ++ x1 ++ x2 : BitVec 5) 4 = fbit x0 0 := by
  have h := congrArg (fun z => z.getLsbD 0) (part_122_0 x0 x1 x2)
  simpa [fbit] using h
theorem part_122_1 (x0 : BitVec 1) (x1 : BitVec 2) (x2 : BitVec 2) :
    (x0 ++ x1 ++ x2 : BitVec 5).extractLsb' 2 2 = x1 :=
  (ext_up (x0 ++ x1) x2 2 2 (by decide)).trans (ext_low (x0) x1)
theorem part_311_0 (x0 : BitVec 3) (x1 : BitVec 1) (x2 : BitVec 1) :
    (x0 ++ x1 ++ x2 : BitVec 5).extractLsb' 2 3 = x0 :=
  (ext_up (x0 ++ x1) x2 2 3 (by decide)).trans (ext_high x0 x1)
theorem part_311_1 (x0 : BitVec 3) (x1 : BitVec 1) (x2 : BitVec 1) :
    (x0 ++ x1 ++ x2 : BitVec 5).extractLsb' 1 1 = x1 :=
  (ext_up (x0 ++ x1) x2 1 1 (by decide)).trans (ext_low (x0) x1)
theorem bit_311_1 (x0 : BitVec 3) (x1 : BitVec 1) (x2 : BitVec 1) :
    fbit (x0 ++ x1 ++ x2 : BitVec 5) 1 = fbit x1 0 := by
  have h := congrArg (fun z => z.getLsbD 0) (part_311_1 x0 x1 x2)
  simpa [fbit] using h
theorem part_311_2 (x0 : BitVec 3) (x1 : BitVec 1) (x2 : BitVec 1) :
    (x0 ++ x1 ++ x2 : BitVec 5).extractLsb' 0 1 = x2 :=
  ext_low (x0 ++ x1) x2
theorem bit_311_2 (x0 : BitVec 3) (x1 : BitVec 1) (x2 : BitVec 1) :
    fbit (x0 ++ x1 ++ x2 : BitVec 5) 0 = fbit x2 0 := by
  have h := congrArg (fun z => z.getLsbD 0) (part_311_2 x0 x1 x2)
  simpa [fbit] using h
theorem part_124_0 (x0 : BitVec 1) (x1 : BitVec 2) (x2 : BitVec 4) :
    (x0 ++ x1 ++ x2 : BitVec 7).extractLsb' 6 1 = x0 :=
  (ext_up (x0 ++ x1) x2 6 1 (by decide)).trans (ext_high x0 x1)
theorem bit_124_0 (x0 : BitVec 1) (x1 : BitVec 2) (x2 : BitVec 4) :
    fbit (x0 ++ x1 ++ x2 : BitVec 7) 6 = fbit x0 0 := by
  have h := congrArg (fun z => z.getLsbD 0) (part_124_0 x0 x1 x2)
  simpa [fbit] using h
theorem part_124_1 (x0 : BitVec 1) (x1 : BitVec 2) (x2 : BitVec 4) :
    (x0 ++ x1 ++ x2 : BitVec 7).extractLsb' 4 2 = x1 :=
  (ext_up (x0 ++ x1) x2 4 2 (by decide)).trans (ext_low (x0) x1)
theorem part_757_0 (x0 : BitVec 7) (x1 : BitVec 5) (x2 : BitVec 7) :
    (x0 ++ x1 ++ x2 : BitVec 19).extractLsb' 12 7 = x0 :=
  (ext_up (x0 ++ x1) x2 12 7 (by decide)).trans (ext_high x0 x1)
theorem part_757_1 (x0 : BitVec 7) (x1 : BitVec 5) (x2 : BitVec 7) :
    (x0 ++ x1 ++ x2 : BitVec 19).extractLsb' 7 5 = x1 :=
  (ext_up (x0 ++ x1) x2 7 5 (by decide)).trans (ext_low (x0) x1)
theorem part_115_0 (x0 : BitVec 1) (x1 : BitVec 1) (x2 : BitVec 5) :
    (x0 ++ x1 ++ x2 : BitVec 7).extractLsb' 6 1 = x0 :=
  (ext_up (x0 ++ x1) x2 6 1 (by decide)).trans (ext_high x0 x1)
theorem part_115_1 (x0 : BitVec 1) (x1 : BitVec 1) (x2 : BitVec 5) :
    (x0 ++ x1 ++ x2 : BitVec 7).extractLsb' 5 1 = x1 :=
  (ext_up (x0 ++ x1) x2 5 1 (by decide)).trans (ext_low (x0) x1)
theorem bit_115_1 (x0 : BitVec 1) (x1 : BitVec 1) (x2 : BitVec 5) :
    fbit (x0 ++ x1 ++ x2 : BitVec 7) 5 = fbit x1 0 := by
  have h := congrArg (fun z => z.getLsbD 0) (part_115_1 x0 x1 x2)
  simpa [fbit] using h
theorem part_133_0 (x0 : BitVec 1) (x1 : BitVec 3) (x2 : BitVec 3) :
    (x0 ++ x1 ++ x2 : BitVec 7).extractLsb' 6 1 = x0 :=
  (ext_up (x0 ++ x1) x2 6 1 (by decide)).trans (ext_high x0 x1)
theorem bit_133_0 (x0 : BitVec 1) (x1 : BitVec 3) (x2 : BitVec 3) :
    fbit (x0 ++ x1 ++ x2 : BitVec 7) 6 = fbit x0 0 := by
  have h := congrArg (fun z => z.getLsbD 0) (part_133_0 x0 x1 x2)
  simpa [fbit] using h
theorem part_133_1 (x0 : BitVec 1) (x1 : BitVec 3) (x2 : BitVec 3) :
    (x0 ++ x1 ++ x2 : BitVec 7).extractLsb' 3 3 = x1 :=
  (ext_up (x0 ++ x1) x2 3 3 (by decide)).trans (ext_low (x0) x1)

/-- The round trip from the fields: a word that decodes to i, and i passes its own check. -/
theorem round_trip {i : Instr} {f : Fields} (hf : fields i = some f) (hd : decodeFields f = .ok i) :
    RoundTrip.Statement i := by
  intro w hw he
  simp only [encode, hf, Option.map_some, Option.some.injEq] at he
  subst he
  simp only [decode, fields_of_word, hd]
  simp only [Instr.wellFormed, Option.isNone_iff_eq_none] at hw
  simp [hw]

/-- A step that is no word has nothing to decode. -/
theorem no_word {i : Instr} (h : fields i = none) : RoundTrip.Statement i := by
  intro w _ he; simp [encode, h] at he

theorem RoundTrip.nop :
    RoundTrip.Statement .nop :=
  round_trip rfl (by simp only [decodeFields, decSys, ↓reduceIte, BitVec.ofNat_eq_ofNat, zero_lit,
      BitVec.reduceToNat])
theorem RoundTrip.brk (code : BitVec 7) :
    RoundTrip.Statement (.brk code) :=
  round_trip rfl (by simp only [decodeFields, decSys, ↓reduceIte, BitVec.ofNat_eq_ofNat, zero_lit,
      BitVec.reduceToNat])
theorem RoundTrip.trap (code : BitVec 7) :
    RoundTrip.Statement (.trap code) :=
  round_trip rfl (by simp only [decodeFields, decSys, ↓reduceIte, BitVec.ofNat_eq_ofNat, zero_lit,
      BitVec.reduceToNat])
theorem RoundTrip.trapEsc (code : BitVec 7) :
    RoundTrip.Statement (.trapEsc code) :=
  round_trip rfl (by simp only [decodeFields, decSys, ↓reduceIte, BitVec.ofNat_eq_ofNat, zero_lit,
      BitVec.reduceToNat])
theorem RoundTrip.tret :
    RoundTrip.Statement .tret :=
  round_trip rfl (by simp only [decodeFields, decSys, ↓reduceIte, BitVec.ofNat_eq_ofNat, zero_lit,
      BitVec.reduceToNat])
theorem RoundTrip.mfs (d : BitVec 7) (sel : Sel) :
    RoundTrip.Statement (.mfs d sel) :=
  round_trip rfl (by simp only [decodeFields, decSys, code_SReg, bit_133_0, part_133_1, ext_low,
      bit_one, ↓reduceIte, BitVec.ofNat_eq_ofNat, Sel.bField, zero_lit, BitVec.reduceToNat])
theorem RoundTrip.mts (d : BitVec 7) (sel : Sel) :
    RoundTrip.Statement (.mts d sel) :=
  round_trip rfl (by simp only [decodeFields, decSys, code_SReg, bit_133_0, part_133_1, ext_low,
      bit_one, ↓reduceIte, BitVec.ofNat_eq_ofNat, Sel.bField, zero_lit, BitVec.reduceToNat])
theorem RoundTrip.causeclr (a : BitVec 6) :
    RoundTrip.Statement (.causeclr a) :=
  round_trip rfl (by simp only [decodeFields, decSys, uni_e, ↓reduceIte, BitVec.ofNat_eq_ofNat,
      zero_lit, BitVec.reduceToNat])
theorem RoundTrip.icinv :
    RoundTrip.Statement .icinv :=
  round_trip rfl (by simp only [decodeFields, decSys, ↓reduceIte, BitVec.ofNat_eq_ofNat, zero_lit,
      BitVec.reduceToNat])
theorem RoundTrip.halt :
    RoundTrip.Statement .halt :=
  round_trip rfl (by simp only [decodeFields, decSys, ↓reduceIte, BitVec.ofNat_eq_ofNat, zero_lit,
      BitVec.reduceToNat])
theorem RoundTrip.iadd (t : IType) (sat : Bool) (d a b : BitVec 7) :
    RoundTrip.Statement (.iadd t sat d a b) :=
  round_trip rfl (by simp only [decodeFields, decInt, itype, mzero, code_IType, part_212_0, bit_212_1,
      ext_low, bit_one, need_e, ↓reduceIte, BitVec.ofNat_eq_ofNat, zero_lit, BitVec.reduceToNat,
      Nat.reduceEqDiff, Nat.reduceLT])
theorem RoundTrip.isub (t : IType) (sat : Bool) (d a b : BitVec 7) :
    RoundTrip.Statement (.isub t sat d a b) :=
  round_trip rfl (by simp only [decodeFields, decInt, itype, mzero, code_IType, part_212_0, bit_212_1,
      ext_low, bit_one, need_e, ↓reduceIte, BitVec.ofNat_eq_ofNat, zero_lit, BitVec.reduceToNat,
      Nat.reduceEqDiff, Nat.reduceLT])
theorem RoundTrip.imul (t : IType) (sat hi : Bool) (d a b : BitVec 7) :
    RoundTrip.Statement (.imul t sat hi d a b) :=
  round_trip rfl (by simp only [decodeFields, decInt, itype, mzero, code_IType, part_2111_0, bit_2111_1,
      bit_2111_2, ext_low, bit_one, need_e, ↓reduceIte, BitVec.ofNat_eq_ofNat, zero_lit,
      BitVec.reduceToNat, Nat.reduceEqDiff, Nat.reduceLT])
theorem RoundTrip.imad (t : IType) (sat wide : Bool) (d a b : BitVec 7) :
    RoundTrip.Statement (.imad t sat wide d a b) :=
  round_trip rfl (by simp only [decodeFields, decInt, itype, mzero, code_IType, part_2111_0, bit_2111_1,
      bit_2111_2, ext_low, bit_one, need_e, ↓reduceIte, BitVec.ofNat_eq_ofNat, zero_lit,
      BitVec.reduceToNat, Nat.reduceEqDiff, Nat.reduceLT])
theorem RoundTrip.imnx (t : IType) (max : Bool) (d a b : BitVec 7) :
    RoundTrip.Statement (.imnx t max d a b) :=
  round_trip rfl (by simp only [decodeFields, decInt, itype, mzero, code_IType, part_212_0, bit_212_1,
      ext_low, bit_one, need_e, ↓reduceIte, BitVec.ofNat_eq_ofNat, zero_lit, BitVec.reduceToNat,
      Nat.reduceEqDiff, Nat.reduceLT])
theorem RoundTrip.logic (fn : LogicFn) (w64 : Bool) (d a b : BitVec 7) :
    RoundTrip.Statement (.logic fn w64 d a b) :=
  round_trip rfl (by simp only [decodeFields, decInt, mzero, code_LogicFn, part_113_0, bit_113_1,
      ext_low, bit_one, need_e, ↓reduceIte, BitVec.ofNat_eq_ofNat, zero_lit, BitVec.reduceToNat,
      Nat.reduceEqDiff, Nat.reduceLT])
theorem RoundTrip.shift (fn : ShiftFn) (w64 : Bool) (d a b : BitVec 7) :
    RoundTrip.Statement (.shift fn w64 d a b) :=
  round_trip rfl (by simp only [decodeFields, decInt, mzero, code_ShiftFn, part_212_0, bit_212_1,
      ext_low, bit_one, need_e, ↓reduceIte, BitVec.ofNat_eq_ofNat, zero_lit, BitVec.reduceToNat,
      Nat.reduceEqDiff, Nat.reduceLT])
theorem RoundTrip.bits (fn : BitsFn) (w64 : Bool) (d a b : BitVec 7) :
    RoundTrip.Statement (.bits fn w64 d a b) :=
  round_trip rfl (by simp only [decodeFields, decInt, mzero, code_BitsFn, part_113_0, bit_113_1,
      ext_low, bit_one, need_e, ↓reduceIte, BitVec.ofNat_eq_ofNat, zero_lit, BitVec.reduceToNat,
      Nat.reduceEqDiff, Nat.reduceLT])
theorem RoundTrip.iset (c : Cmp) (t : IType) (d : BitVec 4) (a b : BitVec 7) :
    RoundTrip.Statement (.iset c t d a b) :=
  round_trip rfl (by simp only [decodeFields, decInt, itype, code_IType, code_Cmp, ext_low, ext_high,
      pred_e, need_e, ↓reduceIte, BitVec.ofNat_eq_ofNat, BitVec.reduceToNat, Nat.reduceEqDiff,
      Nat.reduceLT])
theorem RoundTrip.sel (inv : Bool) (p : BitVec 4) (d a b : BitVec 7) :
    RoundTrip.Statement (.sel inv p d a b) :=
  round_trip rfl (by simp only [decodeFields, decInt, bit_14_0, ext_low, bit_one, ↓reduceIte,
      BitVec.ofNat_eq_ofNat, BitVec.reduceToNat, Nat.reduceEqDiff, Nat.reduceLT])
theorem RoundTrip.lea (sgn : Bool) (sh : BitVec 3) (d a b : BitVec 7) :
    RoundTrip.Statement (.lea sgn sh d a b) :=
  round_trip rfl (by simp only [decodeFields, decInt, mzero, part_113_0, bit_113_1, ext_low, bit_one,
      ↓reduceIte, BitVec.ofNat_eq_ofNat, zero_lit, BitVec.reduceToNat, Nat.reduceEqDiff, Nat.reduceLT])
theorem RoundTrip.iaddi (d a : BitVec 7) (imm : BitVec 12) :
    RoundTrip.Statement (.iaddi d a imm) :=
  round_trip rfl (by simp only [decodeFields, ↓reduceIte, BitVec.ofNat_eq_ofNat, BitVec.reduceToNat,
      Nat.reduceEqDiff, Nat.reduceLT, imm12_i, i_op, i_d, i_a])
theorem RoundTrip.andi (d a : BitVec 7) (imm : BitVec 12) :
    RoundTrip.Statement (.andi d a imm) :=
  round_trip rfl (by simp only [decodeFields, ↓reduceIte, BitVec.ofNat_eq_ofNat, BitVec.reduceToNat,
      Nat.reduceEqDiff, Nat.reduceLT, imm12_i, i_op, i_d, i_a])
theorem RoundTrip.ori (d a : BitVec 7) (imm : BitVec 12) :
    RoundTrip.Statement (.ori d a imm) :=
  round_trip rfl (by simp only [decodeFields, ↓reduceIte, BitVec.ofNat_eq_ofNat, BitVec.reduceToNat,
      Nat.reduceEqDiff, Nat.reduceLT, imm12_i, i_op, i_d, i_a])
theorem RoundTrip.xori (d a : BitVec 7) (imm : BitVec 12) :
    RoundTrip.Statement (.xori d a imm) :=
  round_trip rfl (by simp only [decodeFields, ↓reduceIte, BitVec.ofNat_eq_ofNat, BitVec.reduceToNat,
      Nat.reduceEqDiff, Nat.reduceLT, imm12_i, i_op, i_d, i_a])
theorem RoundTrip.movl (d : BitVec 7) (imm : BitVec 19) :
    RoundTrip.Statement (.movl d imm) :=
  round_trip rfl (by simp only [decodeFields, ↓reduceIte, BitVec.ofNat_eq_ofNat, BitVec.reduceToNat,
      Nat.reduceEqDiff, Nat.reduceLT, imm19_l, l_op, l_d])
theorem RoundTrip.lui (d : BitVec 7) (imm : BitVec 19) :
    RoundTrip.Statement (.lui d imm) :=
  round_trip rfl (by simp only [decodeFields, ↓reduceIte, BitVec.ofNat_eq_ofNat, BitVec.reduceToNat,
      Nat.reduceEqDiff, Nat.reduceLT, imm19_l, l_op, l_d])
theorem RoundTrip.fadd (f : FFmt) (r : Rnd) (d a b : BitVec 7) :
    RoundTrip.Statement (.fadd f r d a b) :=
  round_trip rfl (by simp only [decodeFields, decFloat, ffmt, rnd, code_FFmt, code_Rnd, ext_low,
      ext_high, need_e, ↓reduceIte, BitVec.ofNat_eq_ofNat, BitVec.reduceToNat, Nat.reduceEqDiff,
      Nat.reduceLT])
theorem RoundTrip.fmul (f : FFmt) (r : Rnd) (d a b : BitVec 7) :
    RoundTrip.Statement (.fmul f r d a b) :=
  round_trip rfl (by simp only [decodeFields, decFloat, ffmt, rnd, code_FFmt, code_Rnd, ext_low,
      ext_high, need_e, ↓reduceIte, BitVec.ofNat_eq_ofNat, BitVec.reduceToNat, Nat.reduceEqDiff,
      Nat.reduceLT])
theorem RoundTrip.ffma (f : FFmt) (r : Rnd) (d a b : BitVec 7) :
    RoundTrip.Statement (.ffma f r d a b) :=
  round_trip rfl (by simp only [decodeFields, decFloat, ffmt, rnd, code_FFmt, code_Rnd, ext_low,
      ext_high, need_e, ↓reduceIte, BitVec.ofNat_eq_ofNat, BitVec.reduceToNat, Nat.reduceEqDiff,
      Nat.reduceLT])
theorem RoundTrip.fmnx (f : FFmt) (fn : FmnxFn) (d a b : BitVec 7) :
    RoundTrip.Statement (.fmnx f fn d a b) :=
  round_trip rfl (by simp only [decodeFields, decFloat, ffmt, code_FFmt, code_FmnxFn, ext_low, ext_high,
      need_e, ↓reduceIte, BitVec.ofNat_eq_ofNat, BitVec.reduceToNat, Nat.reduceEqDiff, Nat.reduceLT])
theorem RoundTrip.fset (f : FFmt) (c : FCmp) (d : BitVec 4) (a b : BitVec 7) :
    RoundTrip.Statement (.fset f c d a b) :=
  round_trip rfl (by simp only [decodeFields, decFloat, ffmt, code_FFmt, code_FCmp, ext_low, ext_high,
      pred_e, need_e, ↓reduceIte, BitVec.ofNat_eq_ofNat, BitVec.reduceToNat, Nat.reduceEqDiff,
      Nat.reduceLT])
theorem RoundTrip.fcvt (dst src : CvtType) (sat : Bool) (r : Rnd) (d a : BitVec 7) :
    RoundTrip.Statement (.fcvt dst src sat r d a) :=
  round_trip rfl (by simp only [decodeFields, decFloat, code_Rnd, code_CvtType, bit_14_0, ext_low,
      ext_high, bit_one, need_e, ↓reduceIte, BitVec.ofNat_eq_ofNat, BitVec.reduceToNat,
      Nat.reduceEqDiff, Nat.reduceLT])
theorem RoundTrip.sfu (half : Bool) (fn : SfuFn) (d a b : BitVec 7) :
    RoundTrip.Statement (.sfu half fn d a b) :=
  round_trip rfl (by simp only [decodeFields, decFloat, code_SfuFn, bit_14_0, ext_low, bit_one, need_e,
      ↓reduceIte, BitVec.ofNat_eq_ofNat, BitVec.reduceToNat, Nat.reduceEqDiff, Nat.reduceLT])
theorem RoundTrip.frnd (f : FFmt) (r : Rnd) (d a : BitVec 7) :
    RoundTrip.Statement (.frnd f r d a) :=
  round_trip rfl (by simp only [decodeFields, decFloat, ffmt, rnd, code_FFmt, code_Rnd, ext_low,
      ext_high, need_e, ↓reduceIte, BitVec.ofNat_eq_ofNat, zero_lit, BitVec.reduceToNat,
      Nat.reduceEqDiff, Nat.reduceLT])
theorem RoundTrip.hop2 (bf : Bool) (op : Hop2Op) (r : Hop2Rnd) (d a b : BitVec 7) :
    RoundTrip.Statement (.hop2 bf op r d a b) :=
  round_trip rfl (by simp only [decodeFields, decFloat, code_Hop2Op, code_Hop2Rnd, bit_122_0,
      part_122_1, ext_low, bit_one, need_e, ↓reduceIte, BitVec.ofNat_eq_ofNat, BitVec.reduceToNat,
      Nat.reduceEqDiff, Nat.reduceLT])
theorem RoundTrip.dot (t : DotType) (sat : Bool) (d a b : BitVec 7) :
    RoundTrip.Statement (.dot t sat d a b) :=
  round_trip rfl (by simp only [decodeFields, decFloat, mzero, code_DotType, part_113_0, bit_113_1,
      ext_low, bit_one, need_e, ↓reduceIte, BitVec.ofNat_eq_ofNat, zero_lit, BitVec.reduceToNat,
      Nat.reduceEqDiff, Nat.reduceLT])
theorem RoundTrip.shfl (mode : ShflMode) (w : ShflSeg) (d a : BitVec 7) (idx : ShflIdx) :
    RoundTrip.Statement (.shfl mode w d a idx) := by
  cases idx <;>
    exact round_trip rfl (by simp only [decodeFields, decCross, code_ShflMode, code_ShflSeg, part_212_0,
      bit_212_1, ext_low, ext_high, need_e, ↓reduceIte, BitVec.ofNat_eq_ofNat, zero_lit,
      BitVec.reduceToNat, Nat.reduceEqDiff, Nat.reduceLT, fbit_zero, fbit_one, Bool.false_eq_true])
theorem RoundTrip.vote (op : VoteOp) (neg : Bool) (d a : BitVec 7) :
    RoundTrip.Statement (.vote op neg d a) :=
  round_trip rfl (by simp only [decodeFields, decCross, mzero, code_VoteOp, part_113_0, bit_113_1,
      ext_low, bit_one, need_e, ↓reduceIte, BitVec.ofNat_eq_ofNat, zero_lit, BitVec.reduceToNat,
      Nat.reduceEqDiff, Nat.reduceLT])
theorem RoundTrip.wred (op : WredOp) (d : BitVec 6) (a b : BitVec 7) :
    RoundTrip.Statement (.wred op d a b) :=
  round_trip rfl (by simp only [decodeFields, decCross, code_WredOp, uni_e, need_e, ↓reduceIte,
      BitVec.ofNat_eq_ofNat, BitVec.reduceToNat, Nat.reduceEqDiff, Nat.reduceLT])
theorem RoundTrip.plog (op : PlogOp) (d a b : BitVec 4) :
    RoundTrip.Statement (.plog op d a b) :=
  round_trip rfl (by simp only [decodeFields, decCross, mzero, code_PlogOp, ext_low, ext_high, pred_e,
      need_e, ↓reduceIte, BitVec.ofNat_eq_ofNat, zero_lit, BitVec.reduceToNat, Nat.reduceEqDiff,
      Nat.reduceLT])
theorem RoundTrip.xmov (k : XmovKind) (w64 : Bool) (d a : BitVec 7) :
    RoundTrip.Statement (.xmov k w64 d a) :=
  round_trip rfl (by simp only [decodeFields, decCross, code_XmovKind, bit_14_0, ext_low, bit_one,
      need_e, ↓reduceIte, BitVec.ofNat_eq_ofNat, zero_lit, BitVec.reduceToNat, Nat.reduceEqDiff,
      Nat.reduceLT])
theorem RoundTrip.meldDecl (k : BitVec 3) (a : BitVec 6) :
    RoundTrip.Statement (.meldDecl k a) :=
  round_trip rfl (by simp only [decodeFields, decMeld, uni_e, k_lo, k_hi, ↓reduceIte,
      BitVec.ofNat_eq_ofNat, zero_lit, BitVec.reduceToNat, Nat.reduceEqDiff, Nat.reduceLT])
theorem RoundTrip.meldSign (k : BitVec 3) (tok : Token) :
    RoundTrip.Statement (.meldSign k tok) :=
  round_trip rfl (by simp only [decodeFields, decMeld, token_e, k_lo, k_hi, ↓reduceIte,
      BitVec.ofNat_eq_ofNat, zero_lit, BitVec.reduceToNat, Nat.reduceEqDiff, Nat.reduceLT])
theorem RoundTrip.meldCancel (k : BitVec 3) :
    RoundTrip.Statement (.meldCancel k) :=
  round_trip rfl (by simp only [decodeFields, decMeld, k_lo, k_hi, ↓reduceIte, BitVec.ofNat_eq_ofNat,
      zero_lit, BitVec.reduceToNat, Nat.reduceEqDiff, Nat.reduceLT])
theorem RoundTrip.meldQry (d : BitVec 6) (k : BitVec 3) :
    RoundTrip.Statement (.meldQry d k) :=
  round_trip rfl (by simp only [decodeFields, decMeld, uni_e, k_lo, k_hi, ↓reduceIte,
      BitVec.ofNat_eq_ofNat, zero_lit, BitVec.reduceToNat, Nat.reduceEqDiff, Nat.reduceLT])
theorem RoundTrip.ldw (t : BitVec 5) (tok : Token) (mk : MeldOp) :
    RoundTrip.Statement (.ldw t tok mk) := by
  cases mk <;>
    exact round_trip rfl (by simp only [decodeFields, decLdw, mzero, tile_e, token_e, meld_lo, meld_hi,
      ↓reduceIte, BitVec.ofNat_eq_ofNat, zero_lit, BitVec.reduceToNat, Nat.reduceEqDiff, Nat.reduceLT,
      mk_none, mk_some, Option.getD_none, Option.getD_some, BitVec.reduceAppend,
      BitVec.reduceExtractLsb', fbit_lit, BitVec.reduceGetLsb, some_mk, none_mk])
theorem RoundTrip.ldwSwap (tok : Token) (mk : MeldOp) :
    RoundTrip.Statement (.ldwSwap tok mk) := by
  cases mk <;>
    exact round_trip rfl (by simp only [decodeFields, decLdw, mzero, token_e, meld_lo, meld_hi,
      ↓reduceIte, BitVec.ofNat_eq_ofNat, zero_lit, BitVec.reduceToNat, Nat.reduceEqDiff, Nat.reduceLT,
      mk_none, mk_some, Option.getD_none, Option.getD_some, BitVec.reduceAppend,
      BitVec.reduceExtractLsb', fbit_lit, BitVec.reduceGetLsb, some_mk, none_mk])
theorem RoundTrip.mstr (c : BitVec 4) (t : BitVec 5) (cg init : Bool) (tok : Token) (mk : MeldOp) :
    RoundTrip.Statement (.mstr c t cg init tok mk) := by
  cases init <;> cases mk <;>
    exact round_trip rfl (by simp only [decodeFields, decMstr, mzero, part_115_0, bit_115_1, ext_low,
      bit_one, token_e, meld_lo, meld_hi, ↓reduceIte, BitVec.ofNat_eq_ofNat, zero_lit,
      BitVec.reduceToNat, Nat.reduceEqDiff, Nat.reduceLT, mk_none, mk_some, Option.getD_none,
      Option.getD_some, bit_true, bit_false, BitVec.reduceAppend, BitVec.reduceExtractLsb', fbit_lit,
      BitVec.reduceGetLsb, some_mk, none_mk])
theorem RoundTrip.accAcq (c : BitVec 4) (mk : MeldOp) :
    RoundTrip.Statement (.accAcq c mk) := by
  cases mk <;>
    exact round_trip rfl (by simp only [decodeFields, decAcc, mzero, meld_lo, meld_hi, ↓reduceIte,
      BitVec.ofNat_eq_ofNat, zero_lit, BitVec.reduceToNat, Nat.reduceEqDiff, Nat.reduceLT, mk_none,
      mk_some, Option.getD_none, Option.getD_some, BitVec.reduceAppend, BitVec.reduceExtractLsb',
      fbit_lit, BitVec.reduceGetLsb, some_mk, none_mk])
theorem RoundTrip.accRel (c : BitVec 4) (mk : MeldOp) :
    RoundTrip.Statement (.accRel c mk) := by
  cases mk <;>
    exact round_trip rfl (by simp only [decodeFields, decAcc, mzero, meld_lo, meld_hi, ↓reduceIte,
      BitVec.ofNat_eq_ofNat, zero_lit, BitVec.reduceToNat, Nat.reduceEqDiff, Nat.reduceLT, mk_none,
      mk_some, Option.getD_none, Option.getD_some, BitVec.reduceAppend, BitVec.reduceExtractLsb',
      fbit_lit, BitVec.reduceGetLsb, some_mk, none_mk])
theorem RoundTrip.accZ (c : BitVec 4) (tok : Token) (mk : MeldOp) :
    RoundTrip.Statement (.accZ c tok mk) := by
  cases mk <;>
    exact round_trip rfl (by simp only [decodeFields, decAcc, mzero, token_e, meld_lo, meld_hi,
      ↓reduceIte, BitVec.ofNat_eq_ofNat, zero_lit, BitVec.reduceToNat, Nat.reduceEqDiff, Nat.reduceLT,
      mk_none, mk_some, Option.getD_none, Option.getD_some, BitVec.reduceAppend,
      BitVec.reduceExtractLsb', fbit_lit, BitVec.reduceGetLsb, some_mk, none_mk])
theorem RoundTrip.accRd (c : BitVec 4) (t : BitVec 5) (tok : Token) (mk : MeldOp) :
    RoundTrip.Statement (.accRd c t tok mk) := by
  cases mk <;>
    exact round_trip rfl (by simp only [decodeFields, decAcc, mzero, tile_e, token_e, meld_lo, meld_hi,
      ↓reduceIte, BitVec.ofNat_eq_ofNat, zero_lit, BitVec.reduceToNat, Nat.reduceEqDiff, Nat.reduceLT,
      mk_none, mk_some, Option.getD_none, Option.getD_some, BitVec.reduceAppend,
      BitVec.reduceExtractLsb', fbit_lit, BitVec.reduceGetLsb, some_mk, none_mk])
theorem RoundTrip.accWr (c : BitVec 4) (t : BitVec 5) (tok : Token) (mk : MeldOp) :
    RoundTrip.Statement (.accWr c t tok mk) := by
  cases mk <;>
    exact round_trip rfl (by simp only [decodeFields, decAcc, mzero, tile_e, token_e, meld_lo, meld_hi,
      ↓reduceIte, BitVec.ofNat_eq_ofNat, zero_lit, BitVec.reduceToNat, Nat.reduceEqDiff, Nat.reduceLT,
      mk_none, mk_some, Option.getD_none, Option.getD_some, BitVec.reduceAppend,
      BitVec.reduceExtractLsb', fbit_lit, BitVec.reduceGetLsb, some_mk, none_mk])
theorem RoundTrip.tilePlane (t : BitVec 5) (a : BitVec 6) (p : BitVec 6) :
    RoundTrip.Statement (.tilePlane t a p) :=
  round_trip rfl (by simp only [decodeFields, decTile, uni_e, tile_e, low6_e, ↓reduceIte,
      BitVec.ofNat_eq_ofNat, BitVec.reduceToNat, Nat.reduceEqDiff, Nat.reduceLT])
theorem RoundTrip.tileHnd (t : BitVec 5) (a : BitVec 6) :
    RoundTrip.Statement (.tileHnd t a) :=
  round_trip rfl (by simp only [decodeFields, decTile, uni_e, tile_e, ↓reduceIte, BitVec.ofNat_eq_ofNat,
      zero_lit, BitVec.reduceToNat, Nat.reduceEqDiff, Nat.reduceLT])
theorem RoundTrip.tileDim (t : BitVec 5) (a : BitVec 6) :
    RoundTrip.Statement (.tileDim t a) :=
  round_trip rfl (by simp only [decodeFields, decTile, uni_e, tile_e, ↓reduceIte, BitVec.ofNat_eq_ofNat,
      zero_lit, BitVec.reduceToNat, Nat.reduceEqDiff, Nat.reduceLT])
theorem RoundTrip.tileAdv (t : BitVec 5) (a : BitVec 6) :
    RoundTrip.Statement (.tileAdv t a) :=
  round_trip rfl (by simp only [decodeFields, decTile, uni_e, tile_e, ↓reduceIte, BitVec.ofNat_eq_ofNat,
      zero_lit, BitVec.reduceToNat, Nat.reduceEqDiff, Nat.reduceLT])
theorem RoundTrip.ld (k : LdKind) (d a : BitVec 7) (off : BitVec 9) :
    RoundTrip.Statement (.ld k d a off) :=
  round_trip rfl (by simp only [decodeFields, decMem, code_LdKind, ext_low, ext_high, need_e,
      ↓reduceIte, BitVec.ofNat_eq_ofNat, BitVec.reduceToNat, Nat.reduceEqDiff, Nat.reduceLT, imm12_i,
      i_op, i_d, i_a])
theorem RoundTrip.st (k : StKind) (d a : BitVec 7) (off : BitVec 9) :
    RoundTrip.Statement (.st k d a off) :=
  round_trip rfl (by simp only [decodeFields, decMem, code_StKind, ext_low, ext_high, need_e,
      ↓reduceIte, BitVec.ofNat_eq_ofNat, BitVec.reduceToNat, Nat.reduceEqDiff, Nat.reduceLT, imm12_i,
      i_op, i_d, i_a])
theorem RoundTrip.ldx (k : LdKind) (ub ua : Bool) (d a b : BitVec 7) :
    RoundTrip.Statement (.ldx k ub ua d a b) :=
  round_trip rfl (by simp only [decodeFields, decMem, code_LdKind, bit_113_0, bit_113_1, ext_low,
      bit_one, need_e, ↓reduceIte, BitVec.ofNat_eq_ofNat, BitVec.reduceToNat, Nat.reduceEqDiff,
      Nat.reduceLT])
theorem RoundTrip.stx (k : StKind) (ub ua : Bool) (d a b : BitVec 7) :
    RoundTrip.Statement (.stx k ub ua d a b) :=
  round_trip rfl (by simp only [decodeFields, decMem, code_StKind, bit_113_0, bit_113_1, ext_low,
      bit_one, need_e, ↓reduceIte, BitVec.ofNat_eq_ofNat, BitVec.reduceToNat, Nat.reduceEqDiff,
      Nat.reduceLT])
theorem RoundTrip.lde (nf : BitVec 4) (h : Bool) (d a b : BitVec 7) :
    RoundTrip.Statement (.lde nf h d a b) :=
  round_trip rfl (by simp only [decodeFields, decMem, bit_14_0, ext_low, bit_one, ↓reduceIte,
      BitVec.ofNat_eq_ofNat, BitVec.reduceToNat, Nat.reduceEqDiff, Nat.reduceLT])
theorem RoundTrip.ste (nf : BitVec 4) (sat : Bool) (d a b : BitVec 7) :
    RoundTrip.Statement (.ste nf sat d a b) :=
  round_trip rfl (by simp only [decodeFields, decMem, bit_14_0, ext_low, bit_one, ↓reduceIte,
      BitVec.ofNat_eq_ofNat, BitVec.reduceToNat, Nat.reduceEqDiff, Nat.reduceLT])
theorem RoundTrip.atom (op : AtomOp) (w64 : Bool) (d a b : BitVec 7) :
    RoundTrip.Statement (.atom op w64 d a b) :=
  round_trip rfl (by simp only [decodeFields, decMem, code_AtomOp, bit_14_0, ext_low, bit_one, need_e,
      ↓reduceIte, BitVec.ofNat_eq_ofNat, BitVec.reduceToNat, Nat.reduceEqDiff, Nat.reduceLT])
theorem RoundTrip.acpy (fn : CopyFn) (q : BitVec 2) (d a : BitVec 5) (tok : Token) :
    RoundTrip.Statement (.acpy fn q d a tok) :=
  round_trip rfl (by simp only [decodeFields, decMem, decAcpy, code_CopyFn, ext_low, ext_high, tile_e,
      token_e, need_e, ↓reduceIte, BitVec.ofNat_eq_ofNat, BitVec.reduceToNat, Nat.reduceEqDiff,
      Nat.reduceLT])
theorem RoundTrip.tagLook (d a : BitVec 7) :
    RoundTrip.Statement (.tagLook d a) :=
  round_trip rfl (by simp only [decodeFields, decMem, decTag, ↓reduceIte, BitVec.ofNat_eq_ofNat,
      zero_lit, BitVec.reduceToNat, Nat.reduceEqDiff, Nat.reduceLT])
theorem RoundTrip.tagSet (a b : BitVec 7) :
    RoundTrip.Statement (.tagSet a b) :=
  round_trip rfl (by simp only [decodeFields, decMem, decTag, ↓reduceIte, BitVec.ofNat_eq_ofNat,
      zero_lit, BitVec.reduceToNat, Nat.reduceEqDiff, Nat.reduceLT])
theorem RoundTrip.tagInv (b : BitVec 7) :
    RoundTrip.Statement (.tagInv b) :=
  round_trip rfl (by simp only [decodeFields, decMem, decTag, ↓reduceIte, BitVec.ofNat_eq_ofNat,
      zero_lit, BitVec.reduceToNat, Nat.reduceEqDiff, Nat.reduceLT])
theorem RoundTrip.tagRd (d b : BitVec 7) :
    RoundTrip.Statement (.tagRd d b) :=
  round_trip rfl (by simp only [decodeFields, decMem, decTag, ↓reduceIte, BitVec.ofNat_eq_ofNat,
      zero_lit, BitVec.reduceToNat, Nat.reduceEqDiff, Nat.reduceLT])
theorem RoundTrip.tagWr (a b : BitVec 7) :
    RoundTrip.Statement (.tagWr a b) :=
  round_trip rfl (by simp only [decodeFields, decMem, decTag, ↓reduceIte, BitVec.ofNat_eq_ofNat,
      zero_lit, BitVec.reduceToNat, Nat.reduceEqDiff, Nat.reduceLT])
theorem RoundTrip.splfSt (d a : BitVec 7) (k : BitVec 7) :
    RoundTrip.Statement (.splfSt d a k) :=
  round_trip rfl (by simp only [decodeFields, decMem, ↓reduceIte, BitVec.ofNat_eq_ofNat,
      BitVec.reduceToNat, Nat.reduceEqDiff, Nat.reduceLT])
theorem RoundTrip.splfLd (d a : BitVec 7) (k : BitVec 7) :
    RoundTrip.Statement (.splfLd d a k) :=
  round_trip rfl (by simp only [decodeFields, decMem, ↓reduceIte, BitVec.ofNat_eq_ofNat,
      BitVec.reduceToNat, Nat.reduceEqDiff, Nat.reduceLT])
theorem RoundTrip.fencM :
    RoundTrip.Statement .fencM :=
  round_trip rfl (by simp only [decodeFields, decMem, decFenc, ↓reduceIte, BitVec.ofNat_eq_ofNat,
      zero_lit, BitVec.reduceToNat, Nat.reduceEqDiff, Nat.reduceLT])
theorem RoundTrip.fencQImm (q : BitVec 6) :
    RoundTrip.Statement (.fencQImm q) :=
  round_trip rfl (by simp only [decodeFields, decMem, decFenc, low6_e, ↓reduceIte,
      BitVec.ofNat_eq_ofNat, zero_lit, BitVec.reduceToNat, Nat.reduceEqDiff, Nat.reduceLT])
theorem RoundTrip.fencQReg (a : BitVec 6) :
    RoundTrip.Statement (.fencQReg a) :=
  round_trip rfl (by simp only [decodeFields, decMem, decFenc, uni_e, ↓reduceIte, BitVec.ofNat_eq_ofNat,
      zero_lit, BitVec.reduceToNat, Nat.reduceEqDiff, Nat.reduceLT])
theorem RoundTrip.fencR (a : BitVec 6) :
    RoundTrip.Statement (.fencR a) :=
  round_trip rfl (by simp only [decodeFields, decMem, decFenc, uni_e, ↓reduceIte, BitVec.ofNat_eq_ofNat,
      zero_lit, BitVec.reduceToNat, Nat.reduceEqDiff, Nat.reduceLT])
theorem RoundTrip.fencRcommit (a b : BitVec 6) :
    RoundTrip.Statement (.fencRcommit a b) :=
  round_trip rfl (by simp only [decodeFields, decMem, decFenc, uni_e, low6_e, ↓reduceIte,
      BitVec.ofNat_eq_ofNat, zero_lit, BitVec.reduceToNat, Nat.reduceEqDiff, Nat.reduceLT])
theorem RoundTrip.futFill (d a b : BitVec 7) :
    RoundTrip.Statement (.futFill d a b) :=
  round_trip rfl (by simp only [decodeFields, decMem, decFut, ↓reduceIte, BitVec.ofNat_eq_ofNat,
      BitVec.reduceToNat, Nat.reduceEqDiff, Nat.reduceLT])
theorem RoundTrip.futWait (d a : BitVec 7) :
    RoundTrip.Statement (.futWait d a) :=
  round_trip rfl (by simp only [decodeFields, decMem, decFut, ↓reduceIte, BitVec.ofNat_eq_ofNat,
      zero_lit, BitVec.reduceToNat, Nat.reduceEqDiff, Nat.reduceLT])
theorem RoundTrip.futTake (d a : BitVec 7) :
    RoundTrip.Statement (.futTake d a) :=
  round_trip rfl (by simp only [decodeFields, decMem, decFut, ↓reduceIte, BitVec.ofNat_eq_ofNat,
      zero_lit, BitVec.reduceToNat, Nat.reduceEqDiff, Nat.reduceLT])
theorem RoundTrip.futClr (a : BitVec 7) :
    RoundTrip.Statement (.futClr a) :=
  round_trip rfl (by simp only [decodeFields, decMem, decFut, ↓reduceIte, BitVec.ofNat_eq_ofNat,
      zero_lit, BitVec.reduceToNat, Nat.reduceEqDiff, Nat.reduceLT])
theorem RoundTrip.bra (disp : BitVec 19) :
    RoundTrip.Statement (.bra disp) :=
  round_trip rfl (by simp only [decodeFields, decCtl, decBra, ↓reduceIte, BitVec.ofNat_eq_ofNat,
      BitVec.reduceToNat, Nat.reduceEqDiff, Nat.reduceLT, Bool.false_eq_true, imm19_l, l_op, l_d,
      fbit_lit, BitVec.reduceGetLsb, BitVec.reduceExtractLsb'])
theorem RoundTrip.braPred (sense : Bool) (p : BitVec 4) (disp : BitVec 19) :
    RoundTrip.Statement (.braPred sense p disp) :=
  round_trip rfl (by simp only [decodeFields, decCtl, decBra, bit_124_0, part_124_1, ext_low, bit_one,
      ↓reduceIte, BitVec.ofNat_eq_ofNat, BitVec.reduceToNat, Nat.reduceEqDiff, Nat.reduceLT, imm19_l,
      l_op, l_d])
theorem RoundTrip.braU (sense : Bool) (p : BitVec 4) (disp : BitVec 19) :
    RoundTrip.Statement (.braU sense p disp) :=
  round_trip rfl (by simp only [decodeFields, decCtl, decBra, bit_124_0, part_124_1, ext_low, bit_one,
      ↓reduceIte, BitVec.ofNat_eq_ofNat, BitVec.reduceToNat, Nat.reduceEqDiff, Nat.reduceLT, imm19_l,
      l_op, l_d])
theorem RoundTrip.jmpr (ub : Bool) (a : BitVec 7) :
    RoundTrip.Statement (.jmpr ub a) :=
  round_trip rfl (by simp only [decodeFields, decCtl, decJmpr, mzero, part_311_0, bit_311_1, bit_311_2,
      bit_one, ↓reduceIte, BitVec.ofNat_eq_ofNat, zero_lit, BitVec.reduceToNat, Nat.reduceEqDiff,
      Nat.reduceLT, fbit_zero, Bool.false_eq_true])
theorem RoundTrip.jmprLink (ub : Bool) (d a : BitVec 7) :
    RoundTrip.Statement (.jmprLink ub d a) :=
  round_trip rfl (by simp only [decodeFields, decCtl, decJmpr, mzero, part_311_0, bit_311_1, bit_311_2,
      bit_one, ↓reduceIte, BitVec.ofNat_eq_ofNat, zero_lit, BitVec.reduceToNat, Nat.reduceEqDiff,
      Nat.reduceLT, fbit_one])
theorem RoundTrip.call (d : BitVec 7) (imm : BitVec 19) :
    RoundTrip.Statement (.call d imm) :=
  round_trip rfl (by simp only [decodeFields, decCtl, ↓reduceIte, BitVec.ofNat_eq_ofNat,
      BitVec.reduceToNat, Nat.reduceEqDiff, Nat.reduceLT, imm19_l, l_op, l_d])
theorem RoundTrip.spawn (d : BitVec 7) (a : BitVec 6) (b : BitVec 7) :
    RoundTrip.Statement (.spawn d a b) :=
  round_trip rfl (by simp only [decodeFields, decCtl, decThrd, uni_e, ↓reduceIte, BitVec.ofNat_eq_ofNat,
      BitVec.reduceToNat, Nat.reduceEqDiff, Nat.reduceLT])
theorem RoundTrip.reform :
    RoundTrip.Statement .reform :=
  round_trip rfl (by simp only [decodeFields, decCtl, decThrd, ↓reduceIte, BitVec.ofNat_eq_ofNat,
      zero_lit, BitVec.reduceToNat, Nat.reduceEqDiff, Nat.reduceLT])
theorem RoundTrip.rcv :
    RoundTrip.Statement .rcv :=
  round_trip rfl (by simp only [decodeFields, decCtl, decThrd, ↓reduceIte, BitVec.ofNat_eq_ofNat,
      zero_lit, BitVec.reduceToNat, Nat.reduceEqDiff, Nat.reduceLT])
theorem RoundTrip.exit :
    RoundTrip.Statement .exit :=
  round_trip rfl (by simp only [decodeFields, decCtl, decThrd, ↓reduceIte, BitVec.ofNat_eq_ofNat,
      zero_lit, BitVec.reduceToNat, Nat.reduceEqDiff, Nat.reduceLT])
theorem RoundTrip.yield :
    RoundTrip.Statement .yield :=
  round_trip rfl (by simp only [decodeFields, decCtl, decThrd, ↓reduceIte, BitVec.ofNat_eq_ofNat,
      zero_lit, BitVec.reduceToNat, Nat.reduceEqDiff, Nat.reduceLT])
theorem RoundTrip.handoff (a b : BitVec 6) :
    RoundTrip.Statement (.handoff a b) :=
  round_trip rfl (by simp only [decodeFields, decCtl, decThrd, uni_e, ↓reduceIte, BitVec.ofNat_eq_ofNat,
      zero_lit, BitVec.reduceToNat, Nat.reduceEqDiff, Nat.reduceLT])
theorem RoundTrip.bar (k : BitVec 3) :
    RoundTrip.Statement (.bar k) :=
  round_trip rfl (by simp only [decodeFields, decCtl, decBar, ext_low, ↓reduceIte,
      BitVec.ofNat_eq_ofNat, zero_lit, BitVec.reduceToNat, Nat.reduceEqDiff, Nat.reduceLT, bar_lt])
theorem RoundTrip.syncw (a : BitVec 7) :
    RoundTrip.Statement (.syncw a) :=
  round_trip rfl (by simp only [decodeFields, decCtl, decBar, ↓reduceIte, BitVec.ofNat_eq_ofNat,
      zero_lit, BitVec.reduceToNat, Nat.reduceEqDiff, Nat.reduceLT])
theorem RoundTrip.syncwU (a : BitVec 6) :
    RoundTrip.Statement (.syncwU a) :=
  round_trip rfl (by simp only [decodeFields, decCtl, decBar, uni_e, ↓reduceIte, BitVec.ofNat_eq_ofNat,
      zero_lit, BitVec.reduceToNat, Nat.reduceEqDiff, Nat.reduceLT])
theorem RoundTrip.wbase (n : BitVec 7) :
    RoundTrip.Statement (.wbase n) :=
  round_trip rfl (by simp only [decodeFields, decCtl, ext_low, ext_high, ↓reduceIte,
      BitVec.ofNat_eq_ofNat, zero_lit, BitVec.reduceToNat, Nat.reduceEqDiff, Nat.reduceLT, imm19_l,
      l_op, l_d])
theorem RoundTrip.rpf (start : BitVec 7) (count : BitVec 5) :
    RoundTrip.Statement (.rpf start count) :=
  round_trip rfl (by simp only [decodeFields, decCtl, part_757_0, part_757_1, ext_low, ↓reduceIte,
      BitVec.ofNat_eq_ofNat, zero_lit, BitVec.reduceToNat, Nat.reduceEqDiff, Nat.reduceLT, imm19_l,
      l_op, l_d])
theorem RoundTrip.acqB (a : BitVec 6) :
    RoundTrip.Statement (.acqB a) :=
  round_trip rfl (by simp only [decodeFields, decCtl, decBank, uni_e, ↓reduceIte, BitVec.ofNat_eq_ofNat,
      zero_lit, BitVec.reduceToNat, Nat.reduceEqDiff, Nat.reduceLT])
theorem RoundTrip.acqT (d a : BitVec 6) :
    RoundTrip.Statement (.acqT d a) :=
  round_trip rfl (by simp only [decodeFields, decCtl, decBank, uni_e, ↓reduceIte, BitVec.ofNat_eq_ofNat,
      zero_lit, BitVec.reduceToNat, Nat.reduceEqDiff, Nat.reduceLT])
theorem RoundTrip.rel (a : BitVec 6) :
    RoundTrip.Statement (.rel a) :=
  round_trip rfl (by simp only [decodeFields, decCtl, decBank, uni_e, ↓reduceIte, BitVec.ofNat_eq_ofNat,
      zero_lit, BitVec.reduceToNat, Nat.reduceEqDiff, Nat.reduceLT])
theorem RoundTrip.qry (d : BitVec 6) :
    RoundTrip.Statement (.qry d) :=
  round_trip rfl (by simp only [decodeFields, decCtl, decBank, uni_e, ↓reduceIte, BitVec.ofNat_eq_ofNat,
      zero_lit, BitVec.reduceToNat, Nat.reduceEqDiff, Nat.reduceLT])
theorem RoundTrip.forkMx (w : BitVec 6) (a : BitVec 6) (tok : Token) :
    RoundTrip.Statement (.forkMx w a tok) :=
  round_trip rfl (by simp only [decodeFields, decCtl, decEng, uni_e, token_e, low6_e, ↓reduceIte,
      BitVec.ofNat_eq_ofNat, BitVec.reduceToNat, Nat.reduceEqDiff, Nat.reduceLT])
theorem RoundTrip.forkCp (w : BitVec 6) (a : BitVec 6) (tok : Token) :
    RoundTrip.Statement (.forkCp w a tok) :=
  round_trip rfl (by simp only [decodeFields, decCtl, decEng, uni_e, token_e, low6_e, ↓reduceIte,
      BitVec.ofNat_eq_ofNat, BitVec.reduceToNat, Nat.reduceEqDiff, Nat.reduceLT])
theorem RoundTrip.forkBoth (w : BitVec 6) (a : BitVec 6) (tok : Token) :
    RoundTrip.Statement (.forkBoth w a tok) :=
  round_trip rfl (by simp only [decodeFields, decCtl, decEng, uni_e, token_e, low6_e, ↓reduceIte,
      BitVec.ofNat_eq_ofNat, BitVec.reduceToNat, Nat.reduceEqDiff, Nat.reduceLT])
theorem RoundTrip.rdv (n : BitVec 3) :
    RoundTrip.Statement (.rdv n) :=
  round_trip rfl (by simp only [decodeFields, decCtl, decEng, k_lo, k_hi, ↓reduceIte,
      BitVec.ofNat_eq_ofNat, zero_lit, BitVec.reduceToNat, Nat.reduceEqDiff, Nat.reduceLT])
theorem RoundTrip.tq (a : BitVec 6) :
    RoundTrip.Statement (.tq a) :=
  round_trip rfl (by simp only [decodeFields, decCtl, decEng, uni_e, ↓reduceIte, BitVec.ofNat_eq_ofNat,
      zero_lit, BitVec.reduceToNat, Nat.reduceEqDiff, Nat.reduceLT])
theorem RoundTrip.enq (d a b : BitVec 7) :
    RoundTrip.Statement (.enq d a b) :=
  round_trip rfl (by simp only [decodeFields, decCtl, ↓reduceIte, BitVec.ofNat_eq_ofNat,
      BitVec.reduceToNat, Nat.reduceEqDiff, Nat.reduceLT])
theorem RoundTrip.tapeArm (d a b : BitVec 6) :
    RoundTrip.Statement (.tapeArm d a b) :=
  round_trip rfl (by simp only [decodeFields, decCtl, decTape, uni_e, ↓reduceIte, BitVec.ofNat_eq_ofNat,
      BitVec.reduceToNat, Nat.reduceEqDiff, Nat.reduceLT])
theorem RoundTrip.tapeOff (d b : BitVec 6) :
    RoundTrip.Statement (.tapeOff d b) :=
  round_trip rfl (by simp only [decodeFields, decCtl, decTape, uni_e, ↓reduceIte, BitVec.ofNat_eq_ofNat,
      zero_lit, BitVec.reduceToNat, Nat.reduceEqDiff, Nat.reduceLT])
theorem RoundTrip.tapeQry (d b : BitVec 6) :
    RoundTrip.Statement (.tapeQry d b) :=
  round_trip rfl (by simp only [decodeFields, decCtl, decTape, uni_e, ↓reduceIte, BitVec.ofNat_eq_ofNat,
      zero_lit, BitVec.reduceToNat, Nat.reduceEqDiff, Nat.reduceLT])
theorem RoundTrip.bin (d : BitVec 7) (a : BitVec 6) (b : BitVec 7) :
    RoundTrip.Statement (.bin d a b) :=
  round_trip rfl (by simp only [decodeFields, decCtl, decGfx, mzero, uni_e, ↓reduceIte,
      BitVec.ofNat_eq_ofNat, zero_lit, BitVec.reduceToNat, Nat.reduceEqDiff, Nat.reduceLT,
      BitVec.reduceExtractLsb'])
theorem RoundTrip.pld (d a : BitVec 7) (p : BitVec 4) :
    RoundTrip.Statement (.pld d a p) :=
  round_trip rfl (by simp only [decodeFields, decCtl, decGfx, mzero, p_lo, p_hi, ↓reduceIte,
      BitVec.ofNat_eq_ofNat, zero_lit, BitVec.reduceToNat, Nat.reduceEqDiff, Nat.reduceLT,
      BitVec.reduceExtractLsb'])
theorem RoundTrip.pst (d a : BitVec 7) (p : BitVec 4) :
    RoundTrip.Statement (.pst d a p) :=
  round_trip rfl (by simp only [decodeFields, decCtl, decGfx, mzero, p_lo, p_hi, ↓reduceIte,
      BitVec.ofNat_eq_ofNat, zero_lit, BitVec.reduceToNat, Nat.reduceEqDiff, Nat.reduceLT,
      BitVec.reduceExtractLsb'])
theorem RoundTrip.sample (clamp lin : Bool) (d : BitVec 7) (t : BitVec 5) (b : BitVec 7) :
    RoundTrip.Statement (.sample clamp lin d t b) :=
  round_trip rfl (by simp only [decodeFields, decCtl, decGfx, bit_113_0, bit_113_1, ext_low, bit_one,
      tile_e, ↓reduceIte, BitVec.ofNat_eq_ofNat, BitVec.reduceToNat, Nat.reduceEqDiff, Nat.reduceLT])
theorem RoundTrip.blend (op : BlendOp) (a b : BitVec 7) :
    RoundTrip.Statement (.blend op a b) :=
  round_trip rfl (by simp only [decodeFields, decCtl, decGfx, code_BlendOp, ext_low, ext_high, need_e,
      ↓reduceIte, BitVec.ofNat_eq_ofNat, zero_lit, BitVec.reduceToNat, Nat.reduceEqDiff, Nat.reduceLT])
theorem RoundTrip.tdone :
    RoundTrip.Statement .tdone :=
  round_trip rfl (by simp only [decodeFields, decCtl, decGfx, mzero, ↓reduceIte, BitVec.ofNat_eq_ofNat,
      zero_lit, BitVec.reduceToNat, Nat.reduceEqDiff, Nat.reduceLT, BitVec.reduceExtractLsb'])
theorem RoundTrip.dcmp (a : BitVec 6) (b : BitVec 7) :
    RoundTrip.Statement (.dcmp a b) :=
  round_trip rfl (by simp only [decodeFields, decCtl, decGfx, mzero, uni_e, ↓reduceIte,
      BitVec.ofNat_eq_ofNat, zero_lit, BitVec.reduceToNat, Nat.reduceEqDiff, Nat.reduceLT,
      BitVec.reduceExtractLsb'])
theorem RoundTrip.pipeMap (k : BitVec 3) :
    RoundTrip.Statement (.pipeMap k) :=
  round_trip rfl (by simp only [decodeFields, decCtl, decPipe, k_lo, k_hi, ↓reduceIte,
      BitVec.ofNat_eq_ofNat, zero_lit, BitVec.reduceToNat, Nat.reduceEqDiff, Nat.reduceLT])
theorem RoundTrip.pipeUnmap (k : BitVec 3) :
    RoundTrip.Statement (.pipeUnmap k) :=
  round_trip rfl (by simp only [decodeFields, decCtl, decPipe, k_lo, k_hi, ↓reduceIte,
      BitVec.ofNat_eq_ofNat, zero_lit, BitVec.reduceToNat, Nat.reduceEqDiff, Nat.reduceLT])
theorem RoundTrip.pipeQry (d : BitVec 6) (k : BitVec 3) :
    RoundTrip.Statement (.pipeQry d k) :=
  round_trip rfl (by simp only [decodeFields, decCtl, decPipe, uni_e, k_lo, k_hi, ↓reduceIte,
      BitVec.ofNat_eq_ofNat, zero_lit, BitVec.reduceToNat, Nat.reduceEqDiff, Nat.reduceLT])
theorem RoundTrip.meldEntry (core : Nat) : RoundTrip.Statement (.meldEntry core) := no_word rfl
theorem RoundTrip.matrixOperation (core : Nat) : RoundTrip.Statement (.matrixOperation core) := no_word rfl
theorem RoundTrip.copyProbe (core q : Nat) : RoundTrip.Statement (.copyProbe core q) := no_word rfl
theorem RoundTrip.copyChunk (core q : Nat) : RoundTrip.Statement (.copyChunk core q) := no_word rfl
theorem RoundTrip.sequencerEntry (core : Nat) (copy : Bool) : RoundTrip.Statement (.sequencerEntry core copy) := no_word rfl
theorem RoundTrip.engineFaultRetry (core : Nat) (u : EngUnit) : RoundTrip.Statement (.engineFaultRetry core u) := no_word rfl
theorem RoundTrip.binTimer (core bin : Nat) : RoundTrip.Statement (.binTimer core bin) := no_word rfl
theorem RoundTrip.warpLaunch (core gk : Nat) : RoundTrip.Statement (.warpLaunch core gk) := no_word rfl
theorem RoundTrip.injection (core bin : Nat) : RoundTrip.Statement (.injection core bin) := no_word rfl
theorem RoundTrip.pathAge (core wid : Nat) : RoundTrip.Statement (.pathAge core wid) := no_word rfl
theorem RoundTrip.warpAge (core sched : Nat) : RoundTrip.Statement (.warpAge core sched) := no_word rfl
theorem RoundTrip.budget (core gk : Nat) : RoundTrip.Statement (.budget core gk) := no_word rfl
theorem RoundTrip.head (core : Nat) : RoundTrip.Statement (.head core) := no_word rfl
theorem RoundTrip.grant (core : Nat) : RoundTrip.Statement (.grant core) := no_word rfl
theorem RoundTrip.futAttempt (core wid : Nat) : RoundTrip.Statement (.futAttempt core wid) := no_word rfl
theorem RoundTrip.barrierArrival (core gk : Nat) : RoundTrip.Statement (.barrierArrival core gk) := no_word rfl
theorem RoundTrip.barrierComplete (core gk : Nat) (k : BitVec 3) (thread : Nat) : RoundTrip.Statement (.barrierComplete core gk k thread) := no_word rfl
theorem RoundTrip.icinvCompletion (core wid : Nat) : RoundTrip.Statement (.icinvCompletion core wid) := no_word rfl
theorem RoundTrip.groupEnd (core gk : Nat) : RoundTrip.Statement (.groupEnd core gk) := no_word rfl
theorem RoundTrip.recordCheck (q : Nat) : RoundTrip.Statement (.recordCheck q) := no_word rfl
theorem RoundTrip.admission (q : Nat) : RoundTrip.Statement (.admission q) := no_word rfl
theorem RoundTrip.taskCompletion (task : Nat) : RoundTrip.Statement (.taskCompletion task) := no_word rfl
theorem RoundTrip.commit (draw : Nat) : RoundTrip.Statement (.commit draw) := no_word rfl
theorem RoundTrip.flushComplete (draw : Nat) : RoundTrip.Statement (.flushComplete draw) := no_word rfl
theorem RoundTrip.flushStall (draw : Nat) : RoundTrip.Statement (.flushStall draw) := no_word rfl
theorem RoundTrip.binningStall (draw : Nat) : RoundTrip.Statement (.binningStall draw) := no_word rfl
theorem RoundTrip.tileIssue (draw tile core : Nat) : RoundTrip.Statement (.tileIssue draw tile core) := no_word rfl
theorem RoundTrip.visibilityWave (core gk : Nat) : RoundTrip.Statement (.visibilityWave core gk) := no_word rfl
theorem RoundTrip.shadingWave (core gk : Nat) : RoundTrip.Statement (.shadingWave core gk) := no_word rfl
theorem RoundTrip.writeBack (core gk : Nat) : RoundTrip.Statement (.writeBack core gk) := no_word rfl
theorem RoundTrip.preemption (sc : Scope) : RoundTrip.Statement (.preemption sc) := no_word rfl
theorem RoundTrip.quiesce : RoundTrip.Statement .quiesce := no_word rfl
theorem RoundTrip.acknowledgement (core : Nat) : RoundTrip.Statement (.acknowledgement core) := no_word rfl
theorem RoundTrip.swapOut (core gang : Nat) : RoundTrip.Statement (.swapOut core gang) := no_word rfl
theorem RoundTrip.restore (slot core : Nat) : RoundTrip.Statement (.restore slot core) := no_word rfl
theorem RoundTrip.kill (slot : Nat) : RoundTrip.Statement (.kill slot) := no_word rfl
theorem RoundTrip.rangeCommitCheck : RoundTrip.Statement .rangeCommitCheck := no_word rfl
theorem RoundTrip.rangeSwap : RoundTrip.Statement .rangeSwap := no_word rfl
theorem RoundTrip.arm (grove tape base cap : Nat) (blk : BitVec 256) : RoundTrip.Statement (.arm grove tape base cap blk) := no_word rfl
theorem RoundTrip.off (grove tape : Nat) : RoundTrip.Statement (.off grove tape) := no_word rfl
theorem RoundTrip.query (grove tape : Nat) : RoundTrip.Statement (.query grove tape) := no_word rfl
theorem RoundTrip.engCommand (replay : Nat) : RoundTrip.Statement (.engCommand replay) := no_word rfl
theorem RoundTrip.memCommand (replay : Nat) : RoundTrip.Statement (.memCommand replay) := no_word rfl
theorem RoundTrip.enqCommand (replay : Nat) : RoundTrip.Statement (.enqCommand replay) := no_word rfl
theorem RoundTrip.bankCommand (replay : Nat) : RoundTrip.Statement (.bankCommand replay) := no_word rfl
theorem RoundTrip.rfenceCommand (replay : Nat) : RoundTrip.Statement (.rfenceCommand replay) := no_word rfl
theorem RoundTrip.logRead (who : Caller) (index : Nat) : RoundTrip.Statement (.logRead who index) := no_word rfl
theorem RoundTrip.apertureSet (who : Caller) (n : BitVec 9) (r : DWord) : RoundTrip.Statement (.apertureSet who n r) := no_word rfl
theorem RoundTrip.exportSet (who : Caller) (n : BitVec 8) (r : BitVec 128) : RoundTrip.Statement (.exportSet who n r) := no_word rfl
theorem RoundTrip.fwStage (who : Caller) (img : FwImage) : RoundTrip.Statement (.fwStage who img) := no_word rfl
theorem RoundTrip.status (who : Caller) : RoundTrip.Statement (.status who) := no_word rfl
theorem RoundTrip.mailboxRefused (who : Caller) (code : Nat) : RoundTrip.Statement (.mailboxRefused who code) := no_word rfl
theorem RoundTrip.getVersion : RoundTrip.Statement .getVersion := no_word rfl
theorem RoundTrip.getCapabilities : RoundTrip.Statement .getCapabilities := no_word rfl
theorem RoundTrip.negotiateAlgorithms : RoundTrip.Statement .negotiateAlgorithms := no_word rfl
theorem RoundTrip.getDigests : RoundTrip.Statement .getDigests := no_word rfl
theorem RoundTrip.getCertificate : RoundTrip.Statement .getCertificate := no_word rfl
theorem RoundTrip.challenge (nonce : List Byte) : RoundTrip.Statement (.challenge nonce) := no_word rfl
theorem RoundTrip.getMeasurements : RoundTrip.Statement .getMeasurements := no_word rfl
theorem RoundTrip.unsupportedRequest (r : SpdmUnsupported) : RoundTrip.Statement (.unsupportedRequest r) := no_word rfl
theorem RoundTrip.hostCxlMemRead (addr len : Nat) : RoundTrip.Statement (.hostCxlMemRead addr len) := no_word rfl
theorem RoundTrip.hostCxlMemWrite (addr : Nat) (bytes : List Byte) : RoundTrip.Statement (.hostCxlMemWrite addr bytes) := no_word rfl
theorem RoundTrip.hostSnoop (die line : Nat) : RoundTrip.Statement (.hostSnoop die line) := no_word rfl
theorem RoundTrip.tWake (die : Nat) : RoundTrip.Statement (.tWake die) := no_word rfl
theorem RoundTrip.tDead (die : Nat) : RoundTrip.Statement (.tDead die) := no_word rfl
theorem RoundTrip.linkUp (die : Nat) : RoundTrip.Statement (.linkUp die) := no_word rfl
theorem RoundTrip.retryRequest (l : Link) (seq : Nat) : RoundTrip.Statement (.retryRequest l seq) := no_word rfl
theorem RoundTrip.linkDown (l : Link) : RoundTrip.Statement (.linkDown l) := no_word rfl
theorem RoundTrip.pause (l : Link) (c : TClass) : RoundTrip.Statement (.pause l c) := no_word rfl
theorem RoundTrip.resume (l : Link) (c : TClass) : RoundTrip.Statement (.resume l c) := no_word rfl
theorem RoundTrip.peerRequest (endpoint : BitVec 18) (addr : Nat) (k : PeerKind) : RoundTrip.Statement (.peerRequest endpoint addr k) := no_word rfl
theorem RoundTrip.remotePush (endpoint : BitVec 18) (q : BitVec 9) (record : List Byte) : RoundTrip.Statement (.remotePush endpoint q record) := no_word rfl
theorem RoundTrip.pushAcknowledgement (accepted : Bool) : RoundTrip.Statement (.pushAcknowledgement accepted) := no_word rfl
theorem RoundTrip.scrub (addr : Nat) (correctable : Bool) : RoundTrip.Statement (.scrub addr correctable) := no_word rfl
theorem RoundTrip.telemetry : RoundTrip.Statement .telemetry := no_word rfl
theorem RoundTrip.reset : RoundTrip.Statement .reset := no_word rfl
theorem RoundTrip.powerState (die : Nat) (p : PState) : RoundTrip.Statement (.powerState die p) := no_word rfl
theorem RoundTrip.temperatureAbove95 (die : Nat) : RoundTrip.Statement (.temperatureAbove95 die) := no_word rfl
theorem RoundTrip.temperatureBelow90 (die : Nat) : RoundTrip.Statement (.temperatureBelow90 die) := no_word rfl
theorem RoundTrip.temperatureAbove110 (die : Nat) : RoundTrip.Statement (.temperatureAbove110 die) := no_word rfl
theorem RoundTrip.currentAbove85a : RoundTrip.Statement .currentAbove85a := no_word rfl
theorem RoundTrip.currentBelow80a : RoundTrip.Statement .currentBelow80a := no_word rfl
theorem RoundTrip.flowBelow15 : RoundTrip.Statement .flowBelow15 := no_word rfl
theorem RoundTrip.wordNotAnInstruction : RoundTrip.Statement .wordNotAnInstruction := no_word rfl
theorem RoundTrip.instructionFetchFault (page : Bool) : RoundTrip.Statement (.instructionFetchFault page) := no_word rfl
theorem RoundTrip.spillWrite (core : Nat) : RoundTrip.Statement (.spillWrite core) := no_word rfl
theorem RoundTrip.cleanAcknowledgement : RoundTrip.Statement .cleanAcknowledgement := no_word rfl
theorem RoundTrip.flitAcknowledgement (l : Link) (seq : Nat) : RoundTrip.Statement (.flitAcknowledgement l seq) := no_word rfl
theorem RoundTrip.quiesceEnd : RoundTrip.Statement .quiesceEnd := no_word rfl
theorem RoundTrip.killOfResidentGroup (t : KillTarget) : RoundTrip.Statement (.killOfResidentGroup t) := no_word rfl

end Sys2Proof.Laws
end

