-- ==== Sys2Proof/Laws/Words.lean ====
section
/-! SUPPORT. What runWord answers for a word that runs, and for one that the checks before its effect
stop. -/

namespace Sys2Proof.Laws

open Sys2Proof.Machine

/-- The checks pass a word that runs. -/
theorem gate_of_runs {i : Instr} {s : State} {x : Ctx} (h : Runs i s x) : gate i x = .go := by
  have hm : ((opndsOf i).priv && !x.sup) = false := by
    cases hp : (opndsOf i).priv
    · rfl
    · simp [h.mode hp]
  simp [gate, h.held, h.tiles, h.writable, hm, h.tokens, h.uniform, h.vector, h.clean, h.pipes]

/-- A word that runs leaves what its effect performs. -/
theorem runWord_of_runs {i : Instr} {s : State} {x : Ctx} (eff : Ctx → State) (h : Runs i s x) :
    runWord i s eff = .next (performed i x eff) := by
  simp [runWord, h.set, gate_of_runs h, performed]

/-- Two effects that agree leave the same. -/
theorem performed_congr {i : Instr} {x : Ctx} {e f : Ctx → State}
    (h : e (x.marked (opndsOf i)) = f (x.marked (opndsOf i))) : performed i x e = performed i x f := by
  simp [performed, h]

/-- A meaning that is runWord of an effect does that effect. -/
theorem does_of_eq {i : Instr} {e f : Ctx → State} (he : ∀ s, exec i s = runWord i s e)
    (h : ∀ x, e x = f x) : Does i f := by
  intro s x hr
  rw [he, runWord_of_runs e hr, performed_congr (h _)]

/-- The same where the set meets a condition. -/
theorem doesWhen_of_eq {i : Instr} {c : Ctx → Prop} {e f : Ctx → State}
    (he : ∀ s, exec i s = runWord i s e) (h : ∀ x, c x → e x = f x) : DoesWhen i c f := by
  intro s x hr hc
  rw [he, runWord_of_runs e hr, performed_congr (h _ hc)]

end Sys2Proof.Laws
end

