-- ==== Sys2Proof/Tests/Slice0.lean ====
section
/-! SUPPORT. Tests: an ill-formed term for each static check, words written out from the spec's encodings,
results calculated by hand from the spec's rules, and for each statement of Certificates/Slice0 that has
hypotheses a state and operands that meet them. -/

namespace Sys2Proof.Tests

open Sys2Proof.Machine

/-! ### Ill-formed terms (R46) -/

/-- R27, R80: a pair, of an integer type, a floating-point type, an address or a result, is even. -/
theorem test_odd_pairs_refused :
    [Instr.iadd .s64 false 3 4 6, .isub .z64 false 2 5 6, .imnx .s64 true 2 4 7, .imad .s32 false true 3 4 5,
      .logic .and true 2 4 7, .shift .shl true 3 4 5, .bits .popc true 2 3 0, .bits .brev true 3 4 0,
      .iset .eq .s64 1 3 4, .lea true 0 2 3 4, .fadd .f64 .rn 2 4 5, .fset .f64 .eq 1 3 4, .frnd .f64 .rn 2 3,
      .fcvt .f64 .s32 false .rn 3 4, .wred .minidxZ32 3 4 5, .xmov .vv true 3 4, .ld .b64 3 4 0, .ld .b32 3 5 0,
      .st .b32 3 5 0, .ldx .b32 false false 3 5 6, .ldx .b32 true false 3 5 6, .lde 1 false 3 4 5, .ste 1 false 3 4 5,
      .atom .add true 2 4 5, .atom .cas false 2 4 5, .tagLook 2 3, .tagSet 3 4, .tagRd 3 4, .splfSt 1 3 2, .fencR 3,
      .futFill 2 3 4, .futWait 2 3, .futClr 3, .jmpr false 3, .jmprLink false 3 4, .call 3 0, .spawn 2 3 4, .qry 3,
      .forkBoth 0 3 none, .tq 3, .enq 2 3 4, .tapeArm 2 3 4, .bin 2 3 4, .sample false false 2 3 5, .dcmp 3 4,
      .mfs 3 ⟨.clock, 0, true⟩].all (fun i => i.reject == some .oddPair) = true := by decide
/-- R112, R192, R200, R401: runs of four start at a multiple of 4. -/
theorem test_misaligned_runs_refused :
    [Instr.ld .b128 2 4 0, .st .b128 6 4 0, .atom .cas true 2 4 6, .xmov .ts false 2 1, .xmov .st false 1 2,
      .tapeQry 2 1].all (fun i => i.reject == some .misalignedRun) = true := by decide
/-- R87, R102, R106, R108, R112, R199, R200: combinations of modifiers no chapter assigns. -/
theorem test_modifiers_refused :
    [Instr.imul .s32 true true 1 2 3, .imad .s64 false true 2 4 6, .bits .bfeS true 2 4 6, .fcvt .f32 .s32 true .rn 1 2,
      .fcvt .s32 .z32 false .rn 1 2, .dot .f16 true 1 2 3, .vote .mtch true 1 2, .xmov .pv true 2 4, .ste 2 true 1 2 3,
      .atom .fadd true 2 4 6].all (fun i => i.reject == some .modifiers) = true := by decide
/-- R46 check 3: an operand the word does not have is 0. -/
theorem test_unused_operands_refused :
    [Instr.logic .not false 1 2 3, .bits .clz false 1 2 3, .fmnx .f32 .neg 1 2 3, .sfu false .rcp 1 2 3,
      .wred .addB32 1 2 3, .plog .not 1 2 3, .acpy .zero 0 1 2 none].all
      (fun i => i.reject == some .reservedField) = true := by decide
/-- R25: uniform, predicate and tile fields in range, at the first value beyond. -/
theorem test_class_ranges_refused :
    ([Instr.vote .ballot false 64 1, .xmov .sv false 1 64, .ldx .b32 true false 1 64 2, .jmpr true 64].all
      fun i => i.reject == some .uniformRange) &&
    ([Instr.vote .all false 16 1, .vote .any false 1 16, .xmov .pv false 1 16].all
      fun i => i.reject == some .predicateRange) &&
    ([Instr.xmov .tt false 32 1, .xmov .ts false 4 32].all fun i => i.reject == some .tileRange) = true := by decide
/-- R291, R297, R299: operands beyond a limit, at the first value beyond. -/
theorem test_limits_refused :
    [Instr.spawn 1 2 121, .rpf 0 17, .rpf 127 2, .forkMx 33 2 none].all
      (fun i => i.reject == some .limit) = true := by decide
/-- R394: a selector of an instance that is not listed, or with a W64 it does not take. R196: formats 9 to 15. -/
theorem test_selectors_refused :
    ([Instr.mfs 2 ⟨.clock, 2, false⟩, .mfs 2 ⟨.lane, 1, false⟩, .mfs 2 ⟨.tid, 0, true⟩, .mts 2 ⟨.clock, 0, true⟩].all
      fun i => i.reject == some .selector) &&
    ([Instr.lde 9 false 1 2 3, .ste 15 false 1 2 3].all fun i => i.reject == some .unassignedSubcode) = true := by
  decide
/-- The same words at the last value allowed are well-formed. -/
theorem test_limits_allowed :
    [Instr.spawn 1 2 120, .rpf 112 16, .forkMx 32 63 none, .lde 8 false 1 2 3, .mfs 2 ⟨.lvl, 7, false⟩,
      .xmov .sv false 127 63, .vote .all true 15 15, .ld .b128 124 126 255].all Instr.wellFormed = true := by decide

/-! ### Words written out from the encodings (R41-R46 and each chapter's tables) -/

/-- op[31:26] d[25:19] a[18:12] b[11:5] m[4:0]; SYS and the integer words (spec/17 R390, spec/04 R87-R96). -/
theorem test_decode_sys_integer :
    [(0x00000001, Instr.nop), (0x00001006, .mfs 0 ⟨.tid, 0, false⟩), (0x0438AEA0, .iadd .s32 false 7 10 0x75),
      (0x241040A2, .iset .lt .s32 2 4 5), (0x2408002A, .iset .lt .z32 1 0 1), (0x2C104006, .lea false 6 2 4 0),
      (0x30000020, .iaddi 0 0 32), (0x30504FFB, .iaddi 10 4 0xFFB), (0x40181234, .movl 3 0x1234),
      (0x4419FE00, .lui 3 0x1FE00)].all (fun p => decide (decode p.1 = .ok p.2)) = true := by decide
/-- Floating-point, cross-lane and move words (spec/04 R97-R112). -/
theorem test_decode_float_cross :
    [(0x50402064, Instr.ffma .f32 .rn 8 2 3), (0x5C1068A8, .fcvt .e4m3 .f32 false .rn 2 6),
      (0x782060EE, .wred .minidxZ32 4 6 7), (0x80202002, .xmov .sv false 4 2)].all
      (fun p => decide (decode p.1 = .ok p.2)) = true := by decide
/-- Engine words (spec/05 R137-R142): NOTOK is bit 6 of the token field, the meld number d[6:4]. -/
theorem test_decode_engine :
    [(0x84107001, Instr.meldDecl 2 7), (0x88000802, .ldwSwap none none), (0x8C185120, .mstr 3 5 false false (some 9) none),
      (0x8D185123, .mstr 3 5 false true (some 9) (some 2)), (0x90180001, .accAcq 3 none)].all
      (fun p => decide (decode p.1 = .ok p.2)) = true := by decide
/-- Memory words (spec/08). -/
theorem test_decode_memory :
    [(0x98384804, Instr.ld .b32 7 4 4), (0x9C402BFF, .st .b64 8 2 0x1FF), (0xA03820DC, .ldx .b32 true true 7 2 6),
      (0xB01040C0, .atom .add false 2 4 6), (0xB4182085, .acpy .cvt 1 3 2 (some 4)), (0xC0000042, .fencQImm 2)].all
      (fun p => decide (decode p.1 = .ok p.2)) = true := by decide
/-- Control, thread, Banker, queue and graphics words (spec/12). -/
theorem test_decode_control :
    [(0xC907FFFD, Instr.bra 0x7FFFD), (0xC81FFFF8, .braPred false 3 0x7FFF8), (0xD0A00010, .call 0x14 0x10),
      (0xD4000004, .exit), (0xD8000002, .bar 2), (0xD8005008, .syncw 5), (0xDC000004, .wbase 4), (0xE0000608, .rpf 8 12),
      (0xE4304002, .acqT 6 4), (0xF4000041, .bin 0 0 2), (0xF4002065, .blend .rep 2 3), (0xF4000006, .tdone),
      (0xF4000007, .dcmp 0 0)].all (fun p => decide (decode p.1 = .ok p.2)) = true := by decide
/-- R44, R46: reserved majors, unassigned subcodes and nonzero reserved fields are refused by name. -/
theorem test_decode_refuses :
    [(0x00000000, Reject.unassignedSubcode), (0x00080001, .reservedField), (0xFC000000, .reservedMajor),
      (0xFFFFFFFF, .reservedMajor), (0x0438AEA1, .reservedField)].all
      (fun p => decide (decode p.1 = .error p.2)) = true := by decide

/-! ### States -/

/-- One group in supervisor mode on core 0, with one live lane, whose set has issued at the base of its local
store. -/
def base : State :=
  { (State.reset.placed 32 1) with agenda := [], issue := some ⟨0, 0, 1, BitVec.ofNat 52 lsWindow⟩ }
/-- The group of `base` changed by g, its warp by w, its thread by t. -/
def on (g : Group → Group) (w : Warp → Warp) (t : Thread → Thread) : State :=
  base.modCore 0 fun k =>
    let f (h : Group) : Group := g { h with warps := h.warps.map w, threads := h.threads.map fun e => (e.1, t e.2) }
    { k with groups := k.groups.map f }
/-- `base` with vector registers set. -/
def vs (l : List (Nat × Word)) : State := on id id fun t => l.foldl (fun t e => t.setV e.1 e.2) t
/-- `base` with uniform registers set. -/
def us (l : List (Nat × Word)) : State := on id (fun w => l.foldl (fun w e => w.setU e.1 e.2) w) id
/-- `base` with the group changed. -/
def gs (g : Group → Group) : State := on g id id
/-- `base` with core 0 changed. -/
def ks (f : Core → Core) : State := base.modCore 0 f
/-- `base` with n lanes issuing, lane l with the vector registers that f lists. -/
def lanes (n : Nat) (f : Nat → List (Nat × Word)) : State :=
  let s := gs fun g =>
    { g with
      warps := [Warp.new 0 ((List.range 32).map fun l => if l < n then some l else none) 0]
      threads := (List.range n).map fun l => (l, (f l).foldl (fun t e => t.setV e.1 e.2) placedThread) }
  { s with issue := some ⟨0, 0, maskOf (List.range n), BitVec.ofNat 52 lsWindow⟩ }

/-- The group after a word that completes. -/
def after (i : Instr) (s : State) : Option Group :=
  match exec i s with
  | .next t => (t.core 0).groups.head?
  | .fault _ | .refused _ => none
/-- Register n of the thread in slot k. -/
def vAt (g : Option Group) (k n : Nat) : Option Word := g.bind fun g => (sfind g.threads k).map (·.v n)
/-- Register n of lane 0 after the word. -/
def v0 (i : Instr) (s : State) (n : Nat) : Option Word := vAt (after i s) 0 n
/-- Uniform register n after the word. -/
def u0 (i : Instr) (s : State) (n : Nat) : Option Word := (after i s).bind fun g => (g.warp? 0).map (·.u n)
/-- Predicate n of lane 0 after the word. -/
def p0 (i : Instr) (s : State) (n : Nat) : Option Bool := (after i s).bind fun g => (sfind g.threads 0).map (·.p n)
/-- FPSTAT of lane 0 after the word. -/
def f0 (i : Instr) (s : State) : Option (BitVec 5) := (after i s).bind fun g => (sfind g.threads 0).map (·.fpstat)
/-- The causes and TRAPPC of the one parked sub-warp after the word. -/
def trap0 (i : Instr) (s : State) : Option (Nat × Nat) :=
  (after i s).bind fun g => (g.warp? 0).bind fun w => w.subs.head?.map fun b => (b.cause.toNat, b.pc.toNat)

/-! ### Results calculated by hand from the rules -/

/-- R88: IADD.s32.sat at the upper bound, ISUB wraps below 0, ISUB.z32.sat stops at 0. -/
theorem test_add_sub :
    v0 (.iadd .s32 true 1 2 3) (vs [(2, 0x7FFFFFFF), (3, 1)]) 1 = some 0x7FFFFFFF ∧
    v0 (.isub .z32 false 1 2 3) (vs [(3, 1)]) 1 = some 0xFFFFFFFF ∧
    v0 (.isub .z32 true 1 2 3) (vs [(3, 1)]) 1 = some 0 := by decide
/-- R88: the upper half of −1 × 2 is −1; the wide accumulate adds to the pair d. -/
theorem test_multiply :
    v0 (.imul .s32 false true 1 2 3) (vs [(2, 0xFFFFFFFF), (3, 2)]) 1 = some 0xFFFFFFFF ∧
    v0 (.imad .z32 false true 4 2 3) (vs [(2, 0xFFFFFFFF), (3, 0xFFFFFFFF), (4, 1), (5, 1)]) 5 = some 0xFFFFFFFF := by
  decide
/-- R90: a shift by 32 leaves no bit, of the sign everywhere in .sra; .rot turns right modulo the width. -/
theorem test_shifts :
    v0 (.shift .shl false 1 2 3) (vs [(2, 1), (3, 32)]) 1 = some 0 ∧
    v0 (.shift .sra false 1 2 3) (vs [(2, 0x80000000), (3, 32)]) 1 = some 0xFFFFFFFF ∧
    v0 (.shift .rot false 1 2 3) (vs [(2, 1), (3, 33)]) 1 = some 0x80000000 := by decide
/-- R91: clz of 0 is 32; a field of 4 bits at bit 4, with its sign. -/
theorem test_bits :
    v0 (.bits .clz false 1 2 0) (vs []) 1 = some 32 ∧
    v0 (.bits .bfeS false 1 2 3) (vs [(2, 0x80), (3, 0x404)]) 1 = some 0xFFFFFFF8 := by decide
/-- R92: a signed and an unsigned comparison of −1 with 1. -/
theorem test_iset :
    p0 (.iset .lt .s32 2 4 5) (vs [(4, 0xFFFFFFFF), (5, 1)]) 2 = some true ∧
    p0 (.iset .lt .z32 2 4 5) (vs [(4, 0xFFFFFFFF), (5, 1)]) 2 = some false := by decide
/-- R94: LEA sign-extends its index before it scales it. -/
theorem test_lea : v0 (.lea true 2 6 4 3) (vs [(4, 8), (3, 0xFFFFFFFF)]) 6 = some 4 ∧
    v0 (.lea true 2 6 4 3) (vs [(4, 8), (3, 0xFFFFFFFF)]) 7 = some 0 := by decide
/-- R96: the spec's own pair of words that place 0x3FC01234 in v3. -/
theorem test_lui : v0 (.lui 3 0x1FE00) (vs [(3, 0x1234)]) 3 = some 0x3FC01234 := by decide
/-- R95: IADDI sign-extends, ANDI extends with zeros. -/
theorem test_immediates :
    v0 (.iaddi 10 4 0xFFB) (vs [(4, 3)]) 10 = some 0xFFFFFFFE ∧
    v0 (.andi 10 4 0xFFF) (vs [(4, 0xFFFFFFFF)]) 10 = some 0xFFF := by decide
/-- R28: b of 112 and more names a uniform register, 117 being s5. -/
theorem test_uniform_b : v0 (.iadd .s32 false 7 10 0x75)
    (on id (fun w => w.setU 5 40) fun t => t.setV 10 2) 7 = some 42 := by decide

/-- R98: 1 + 1; the greatest finite number twice overflows: OF and NX, which are bits 2 and 4 (R34). -/
theorem test_fadd :
    v0 (.fadd .f32 .rn 1 2 3) (vs [(2, 0x3F800000), (3, 0x3F800000)]) 1 = some 0x40000000 ∧
    v0 (.fadd .f32 .rn 1 2 3) (vs [(2, 0x7F7FFFFF), (3, 0x7F7FFFFF)]) 1 = some 0x7F800000 ∧
    f0 (.fadd .f32 .rn 1 2 3) (vs [(2, 0x7F7FFFFF), (3, 0x7F7FFFFF)]) = some 0b10100 := by decide
/-- R98: one rounding: (1 + 2^−12)² − 1 = 2^−11 + 2^−24 exactly. -/
theorem test_ffma : v0 (.ffma .f32 .rn 8 2 3)
    (vs [(2, 0x3F800800), (3, 0x3F800800), (8, 0xBF800000)]) 8 = some 0x3A000400 := by decide
/-- R98: infinity less infinity is the canonical NaN with NV, bit 0. -/
theorem test_invalid :
    v0 (.fadd .f32 .rn 1 2 3) (vs [(2, 0x7F800000), (3, 0xFF800000)]) 1 = some 0x7FC00000 ∧
    f0 (.fadd .f32 .rn 1 2 3) (vs [(2, 0x7F800000), (3, 0xFF800000)]) = some 1 := by decide
/-- The worked encodings of spec/03: 0.1, 65520, 1/3, 300, 1000 and 70000. -/
theorem test_worked_conversions :
    cvtEval .f32 .f64 false .rn 0x3FB999999999999A = (0x3DCCCCCD, { nx := true }) ∧
    cvtEval .f32 .f64 false .rz 0x3FB999999999999A = (0x3DCCCCCC, { nx := true }) ∧
    cvtEval .f16 .f32 false .rn 0x477FF000 = (0x7C00, { of := true, nx := true }) ∧
    cvtEval .f16 .f32 false .rz 0x477FF000 = (0x7BFF, { nx := true }) ∧
    cvtEval .bf16 .f32 false .rn 0x3EAAAAAB = (0x3EAB, { nx := true }) ∧
    cvtEval .e4m3 .f32 false .rn 0x43960000 = (0x79, { nx := true }) ∧
    cvtEval .e4m3 .f32 false .rn 0x447A0000 = (0x7E, { of := true, nx := true }) ∧
    cvtEval .e5m2 .f32 false .rn 0x447A0000 = (0x64, { nx := true }) ∧
    cvtEval .e5m2 .f32 false .rn 0x4788B800 = (0x7C, { of := true, nx := true }) ∧
    cvtEval .e5m2 .f32 true .rn 0x4788B800 = (0x7B, { of := true, nx := true }) := by decide
/-- R102: a conversion of −1 to an unsigned type is 0 with NV. -/
theorem test_convert_bound : cvtEval .z32 .f32 false .rn 0xBF800000 = (0, .invalid) := by decide
/-- The worked MXFP8 block and NQ4 elements of spec/03. -/
theorem test_worked_blocks :
    packMx [Fmt.f32.decode 0x453B8000, Fmt.f32.decode 0x3F800000, Fmt.f32.decode 0x80000000] =
      (0x82, [0x7C, 0x20, 0x80]) ∧
    nq4Val 12 128 0x40000000 = 0x3EE20000 ∧ nq4Val 3 128 0x40000000 = 0xBEC58000 ∧
    nq4Val 14 200 0x3F000000 = 0x3E940C00 := by decide
set_option maxRecDepth 4096 in
/-- The worked reduction of spec/04: the minimum 3 is held with the indices 41 and 12. -/
theorem test_worked_reduction :
    let s := lanes 4 fun l => [(6, [7, 3, 3, 9].getD l 0), (7, [40, 41, 12, 43].getD l 0)]
    u0 (.wred .minidxZ32 4 6 7) s 4 = some 3 ∧ u0 (.wred .minidxZ32 4 6 7) s 5 = some 12 := by decide
/-- R107: SHFL.up by 1: lane 0 keeps its own value, lane 1 takes that of lane 0. -/
theorem test_shfl :
    let s := lanes 2 fun l => [(2, BitVec.ofNat 32 (10 + l))]
    vAt (after (.shfl .up .w32 1 2 (.imm 1)) s) 0 1 = some 10 ∧
    vAt (after (.shfl .up .w32 1 2 (.imm 1)) s) 1 1 = some 10 := by decide
/-- R108: BALLOT of p0, which reads true (R29). R111: PLOG.not p5, p0 clears p5. -/
theorem test_vote_plog :
    u0 (.vote .ballot false 3 0) (lanes 3 fun _ => []) 3 = some 7 ∧
    p0 (.plog .not 5 0 0) (on id id fun t => t.setP 5 true) 5 = some false := by decide
set_option maxRecDepth 4096 in
/-- The worked block of spec/11. -/
theorem test_worked_block :
    let px := (0xFF1E140A : Nat) :: 0xFF1E130C :: List.replicate 62 0xFF1E140A
    (compress 0 px).1 = 0x43 ∧ (compress 0 px).2.take 5 = [0x0A, 0x14, 0x1E, 0xFF, 0x3A] ∧
    (compress 0 px).2.length = 99 := by decide
/-- The worked BLEND of spec/12: (64, 0, 0, 128) over (200, 100, 40, 255). -/
theorem test_worked_blend :
    blendChan .over 64 200 128 = 164 ∧ blendChan .over 0 100 128 = 50 ∧ blendChan .over 0 40 128 = 20 ∧
    blendChan .over 128 255 128 = 255 := by decide
/-- The worked check of spec/10: its state is safe, and would not be with 300 more pages of G3. -/
theorem test_worked_banker :
    let p (pages slots : Nat) : Hold := ⟨0, 0, pages, slots, 0⟩
    bankSafe [(p 500 1, p 800 2), (p 400 1, p 600 1), (p 300 0, p 700 2)] (p 336 1) = true ∧
    bankSafe [(p 500 1, p 800 2), (p 400 1, p 600 1), (p 600 0, p 700 2)] (p 36 1) = false ∧
    bankSafe [(p 600 2, p 800 2), (p 400 1, p 600 1), (p 300 0, p 700 2)] (p 236 0) = true := by decide
set_option maxRecDepth 4096 in
/-- The worked walk of spec/13, with its tables at 0x10000, 0x20000, 0x30000 and 0x40000: user stores go to the
page, a fetch finds EX clear. -/
theorem test_worked_walk :
    let s := (((State.reset.putNum 0x10008 8 0x20001).putNum 0x20010 8 0x30001).putNum 0x30018 8 0x40001).putNum
      0x40020 8 0x7654302F
    let sp : Space := ⟨some 0, 0, false, 0x10000, [], []⟩
    (match s.translate sp .store 0x40200C045A8 with | .ok t => t.key == 0x765435A8 | _ => false) = true ∧
    (match s.translate sp .fetch 0x40200C045A8 with | .bad c => c == Cause.prot | _ => false) = true := by decide

/-! ### Control, memory and traps by hand -/

/-- The program counter of lane 0 after the word. -/
def pc0 (i : Instr) (s : State) : Option Nat := (after i s).bind fun g => (sfind g.threads 0).map (·.pc.toNat)

/-- R286, R287: a displacement of −3 words from the word's own address. -/
theorem test_bra : pc0 (.bra 0x7FFFD) base = some (lsWindow - 12) := by decide
/-- R287: p0 reads true, so `BRA !p0` goes to the next word. -/
theorem test_bra_pred : pc0 (.braPred true 0 8) base = some (lsWindow + 4) ∧
    pc0 (.braPred false 0 8) base = some (lsWindow + 32) := by decide
/-- R288: CALL writes the next word's address to its pair. -/
theorem test_call : pc0 (.call 4 0x10) base = some (lsWindow + 64) ∧ v0 (.call 4 0x10) base 4 = some 4 ∧
    v0 (.call 4 0x10) base 5 = some 0x000FFFF0 := by decide
/-- R289: an address that is no multiple of 4 parks its lane with ALIGN, one above bit 51 with PROT; no jump. -/
theorem test_jmpr_faults :
    trap0 (.jmpr false 2) (vs [(2, 2)]) = some (2 ^ Cause.align, lsWindow) ∧
    trap0 (.jmpr false 2) (vs [(2, 4), (3, 0x00100000)]) = some (2 ^ Cause.prot, lsWindow) ∧
    pc0 (.jmpr false 2) (vs [(2, 0x2104)]) = some 0x2104 := by decide
/-- R391, R332, R333: BRK parks the lane with its cause at the trap entry. -/
theorem test_brk : trap0 (.brk 3) base = some (2 ^ Cause.brk, lsWindow) ∧ pc0 (.brk 3) base = some 0x1000 := by decide
/-- R192, R193: a store of a byte and the load of the word that holds it, with the offset scaled by the size. -/
theorem test_load_store :
    v0 (.ld .b32 7 4 2) ((vs [(4, 0), (5, 0x000FFFF0)]).put (lsKey 0 8) [0x11, 0x22, 0x33, 0x84]) 7 = some 0x84332211 ∧
    v0 (.ld .s8 7 4 11) ((vs [(4, 0), (5, 0x000FFFF0)]).put (lsKey 0 8) [0x11, 0x22, 0x33, 0x84]) 7 = some 0xFFFFFF84 ∧
    (match exec (.st .b8 7 4 9) (vs [(4, 0), (5, 0x000FFFF0), (7, 0xABCD)]) with
      | .next t => t.byte (lsKey 0 9) == 0xCD && t.byte (lsKey 0 8) == 0
      | _ => false) = true := by decide
/-- R192: a misaligned LD raises ALIGN; LDX.u goes byte by byte. -/
theorem test_misaligned :
    trap0 (.ld .b32 7 4 0) (vs [(4, 2), (5, 0x000FFFF0)]) = some (2 ^ Cause.align, lsWindow) ∧
    v0 (.ldx .b32 false true 7 4 6) ((vs [(4, 6), (5, 0x000FFFF0)]).put (lsKey 0 6) [1, 2, 3, 4]) 7 =
      some 0x04030201 := by decide
/-- R200: ATOM.add returns the old value. -/
theorem test_atom :
    v0 (.atom .add false 7 4 6) ((vs [(4, 8), (5, 0x000FFFF0), (6, 5)]).put (lsKey 0 8) [9, 0, 0, 0]) 7 = some 9 ∧
    (match exec (.atom .add false 7 4 6) ((vs [(4, 8), (5, 0x000FFFF0), (6, 5)]).put (lsKey 0 8) [9, 0, 0, 0]) with
      | .next t => t.byte (lsKey 0 8) == 14
      | _ => false) = true := by decide
/-- R202: FUT.FILL of an empty future answers 1, of a full one 0. -/
theorem test_future_fill :
    v0 (.futFill 7 4 6) (vs [(4, 8), (5, 0x000FFFF0), (6, 42)]) 7 = some 1 ∧
    v0 (.futFill 7 4 6) ((vs [(4, 8), (5, 0x000FFFF0), (6, 42)]).put (lsKey 0 8) [9, 0, 0, 0, 1]) 7 = some 0 := by
  decide
/-- The worked address of spec/06: core 17 of the issuing core's grove, physical page 800, byte 0x40; with the upper
die of die 0 absent it raises PROT. -/
theorem test_worked_grove_address :
    let s := base.setCore 17 { Core.empty with groups := [{ placedGroup 9 with pages := [800] }] }
    let sp : Space := ⟨some 0, 0, false, 0, [], []⟩
    (match s.translate sp .store 0xFFFE008B20040 with | .ok t => t.key == lsKey 17 (800 * 4096 + 0x40) | _ => false) &&
    (match State.translate { s with upper := 0xFE } sp .store 0xFFFE008B20040 with
      | .bad c => c == Cause.prot | _ => false) = true := by decide
/-- R32, R395: CORE and PROFILE. -/
theorem test_mfs : v0 (.mfs 1 ⟨.core, 0, false⟩) base 1 = some 0 ∧
    v0 (.mfs 1 ⟨.profile, 0, false⟩) base 1 = some 0x98400004 := by decide
/-- R396: an MTS that would set a reserved bit raises ILLOP. -/
theorem test_mts_reserved :
    trap0 (.mts 2 ⟨.rmode, 0, false⟩) (vs [(2, 4)]) = some (2 ^ Cause.illop, lsWindow) := by decide
/-- R137: MELD.decl opens an idle meld with its count; a count of 0 raises MELDSET. -/
theorem test_meld_decl :
    ((after (.meldDecl 2 7) (us [(7, 3)])).bind fun g => g.melds[2]?.map fun m => (m.opened, m.expect)) = some (true, 3) ∧
    trap0 (.meldDecl 2 7) base = some (2 ^ Cause.meldset, lsWindow) := by decide

/-- R48, R50: the placed word runs as the next step: IADDI v10, v0, 5. -/
theorem test_step_runs :
    (match step (State.reset.withFetchWord 32 0x30500005) with
      | .next t => vAt (t.core 0).groups.head? 0 10 == some 5 && t.stepNo == 1
      | _ => false) = true := by decide
/-- R46: a placed word that is no instruction raises ILLOP. -/
theorem test_step_illop :
    (match step (State.reset.withFetchWord 32 0) with
      | .next t => ((t.core 0).groups.head?.bind fun g => (g.warp? 0).bind fun w => w.subs.head?.map (·.cause)) ==
          some (Cause.bit Cause.illop)
      | _ => false) = true := by decide

/-! ### Witnesses: states and operands that meet the hypotheses of the statements -/

/-- The conditions of `Runs`, and c of the set that then performs the word. -/
def meets (i : Instr) (s : State) (c : Ctx → Bool) : Bool :=
  match ctxOf s with
  | none => false
  | some x =>
    let o := opndsOf i
    x.held o && x.tilesOk o && !x.mtsLanes i && (!o.priv || x.sup) && (x.failed o).isNone && (x.pendingU i o).isEmpty
      && !x.pendingV o && !x.readsPoison o && (x.pipeBlocked o).isEmpty && c (x.marked o)

/-- What `meets` computes is what the statements assume. -/
theorem meets_runs {i : Instr} {s : State} {c : Ctx → Bool} (h : meets i s c = true) :
    ∃ x, Runs i s x ∧ c (x.marked (opndsOf i)) = true := by
  unfold meets at h
  split at h
  · cases h
  · rename_i x hx
    simp only [Bool.and_eq_true, Bool.not_eq_true', Bool.or_eq_true, Option.isNone_iff_eq_none, List.isEmpty_iff] at h
    obtain ⟨⟨⟨⟨⟨⟨⟨⟨⟨h1, h2⟩, h3⟩, h4⟩, h5⟩, h6⟩, h7⟩, h8⟩, h9⟩, h10⟩ := h
    exact ⟨x, ⟨hx, h1, h2, h3, fun hp => by simpa [hp] using h4, h5, h6, h7, h8, h9⟩, h10⟩

/-- Some state runs word i at a set that meets c: the hypotheses of `DoesWhen i c`. -/
def Meets (i : Instr) (c : Ctx → Prop) : Prop := ∃ s x, Runs i s x ∧ c (x.marked (opndsOf i))

theorem of_meets {i : Instr} {c : Ctx → Prop} [DecidablePred c] (s : State)
    (h : meets i s (fun x => decide (c x)) = true) : Meets i c :=
  let ⟨x, hx, hc⟩ := meets_runs h
  ⟨s, x, hx, of_decide_eq_true hc⟩

theorem Meets.imp {i : Instr} {c d : Ctx → Prop} (h : Meets i c) (f : ∀ x, c x → d x) : Meets i d :=
  let ⟨s, x, hx, hc⟩ := h
  ⟨s, x, hx, f _ hc⟩

/-- `Does`: the words run in `base`. -/
theorem test_meets_integer :
    [Instr.iadd .s32 true 1 2 3, .isub .z64 false 2 4 6, .imul .s32 true false 1 2 3, .imul .s64 false true 2 4 6,
      .imad .s32 true false 1 2 3, .imad .s32 false true 2 4 5, .imad .z32 true true 126 4 5, .imnx .s32 true 1 2 3,
      .imnx .z64 false 2 4 6, .logic .and false 1 2 3, .logic .not true 2 4 0, .shift .shl false 1 2 3,
      .shift .rot true 2 4 127, .bits .popc false 1 2 0, .bits .popc true 1 2 0, .bits .clz false 1 2 0,
      .bits .clz true 1 2 0, .bits .ctz false 1 2 0, .bits .ctz true 1 2 0, .bits .brev false 1 2 0,
      .bits .brev true 2 4 0, .bits .bfeS false 1 2 3, .bits .bfeZ false 1 2 3, .bits .bfi false 1 2 3,
      .iset .le .s64 15 2 4, .sel true 15 1 2 3, .lea true 7 2 4 3, .lea false 0 2 4 3, .iaddi 1 2 0xFFF, .andi 1 2 3,
      .ori 1 2 3, .xori 1 2 3, .movl 127 0x7FFFF, .lui 1 2].all (fun i => meets i base fun _ => true) = true := by decide
theorem test_meets_float :
    [Instr.fadd .f32 .rn 1 2 3, .fmul .f64 .rz 2 4 6, .ffma .f16 .dflt 1 2 3, .fmnx .bf16 .min 1 2 3, .frnd .f32 .rp 1 2,
      .fset .f64 .nan 1 2 4, .fcvt .f64 .s32 false .rn 2 4, .sfu false .div 1 2 3, .sfu true .rcp 1 2 0,
      .hop2 true .fma .rn 1 2 3, .dot .f16 false 1 2 3, .dot .s8 true 1 2 3, .shfl .idx .w4 1 2 (.reg 3),
      .shfl .xor .w32 1 2 (.imm 31), .vote .all true 15 15, .vote .any false 1 2, .vote .uni false 1 2,
      .vote .ballot false 63 2, .vote .mtch false 1 2, .plog .xor 15 14 13, .wred .addB32 63 2 0, .wred .addS32sat 1 2 0,
      .wred .addZ32sat 1 2 0, .wred .minS32 1 2 0, .wred .maxZ32 1 2 0, .wred .minidxS32 62 2 3, .wred .maxidxZ32 2 2 3,
      .wred .andB32 1 2 0, .wred .orB32 1 2 0, .wred .xorB32 1 2 0, .wred .faddF32 1 2 0, .wred .fminF32 1 2 0,
      .wred .fmaxF32 1 2 0].all (fun i => meets i base fun _ => true) = true ∧
    dotFmt .f16 ≠ none ∧ dotFmt .s8 = none := by decide
/-- R86, R98-R100: a NaN, infinities of both signs, zeros of both signs and a number. -/
theorem test_meets_special_cases :
    Fmt.f32.decode 0x7FC00000 = .nan ∧ Fmt.f32.decode 0x7F800000 = .inf false ∧ Fmt.f32.decode 0xFF800000 = .inf true ∧
    (∃ e, Fmt.f32.decode 0 = .fin false 0 e) ∧ (∃ e, Fmt.f32.decode 0x80000000 = .fin true 0 e) ∧
    Fmt.f32.decode 1 ≠ .nan := ⟨by decide, by decide, by decide, ⟨_, rfl⟩, ⟨_, rfl⟩, by decide⟩
theorem test_meets_moves :
    [Instr.xmov .vv false 1 2, .xmov .vv true 2 4, .xmov .vs false 63 2, .xmov .vs true 62 4, .xmov .sv false 1 63,
      .xmov .sv true 2 62, .xmov .ss false 1 2, .xmov .ss true 2 4, .xmov .pv false 1 15, .xmov .vp false 15 1,
      .xmov .sp false 15 63, .xmov .ts false 60 31, .xmov .tt false 31 0].all (fun i => meets i base fun _ => true) &&
    meets (.xmov .st false 1 4) base (fun x => Dsc.ok (x.w.u128 4)) &&
    meets (.xmov .st false 31 60) (us [(61, 0x10000000)]) (fun x => !Dsc.ok (x.w.u128 60)) = true := by decide

/-- A draw descriptor of one tile with `prims` primitives and the plane entries of `pl`. -/
def desc (prims : Nat) (pl : List Nat) : BitVec 2048 :=
  BitVec.ofNat 2048 ((pl.zipIdx).foldl (fun a e => a + e.1 % 2 ^ 16 * 2 ^ (768 + 16 * e.2))
    (prims * 2 ^ 18 + (pl.length - 1) * 2 ^ 715))
/-- A bound draw of key 7 in address space 0. -/
def draw (d : BitVec 2048) : Draw where
  key := 7
  addr := 0x5000
  ctx := 0
  desc := d
  record := 0
  torders := [0]
  forders := [0]
  next := 0
  accepted := []
  buf := []
  tiles := []
  used := 0
  flush := none
  since := 0
  killed := false
  stopped := none
/-- An owned tile of that draw. -/
def own : Own where
  draw := 7
  tile := 0
  final := true
  visDone := false
  pending := []
  waveDone := false
  tdone := false
  closed := false
  addr := 0x5000
  drain := none
  reload := false
  stopped := none
/-- `base`, its group the owner of a tile of a draw with the planes pl, its warp changed by w, its thread by t. -/
def tiled (pl : List Nat) (w : Warp → Warp) (t : Thread → Thread) : State :=
  { on (fun g => { g with tile := some own }) w t with draws := [draw (desc 1 pl)] }

/-- R142, R162: a plane of 16-bit values and one of MXFP8, step 15; no tile; a valid handle and one of another
generation; extents and bases. -/
theorem test_meets_tile_words :
    let p16 := 0x0300
    let p8 := 0x4300
    meets (.tilePlane 31 2 0) (tiled [p16] (fun w => w.setU 2 15) id) (fun x => match x.s.ownDesc x.g with
      | some d => decide (0 < DrawD.npl d) && planeFmt (DrawD.plane d 0) == 0 && decide ((x.u 2).toNat < 16)
      | none => false) &&
    meets (.tilePlane 31 2 1) (tiled [p16, p8] (fun w => w.setU 2 15) id) (fun x => match x.s.ownDesc x.g with
      | some d => decide (1 < DrawD.npl d) && planeFmt (DrawD.plane d 1) == 1 && decide ((x.u 2).toNat < 16)
      | none => false) &&
    meets (.tilePlane 1 2 0) base (fun x => decide (x.s.ownDesc x.g = none)) &&
    meets (.tileDim 1 2) (us [(2, 0xFFFFFF)]) (fun x => Dsc.layout (x.w.t 1) != 2 && decide ((x.u 2).toNat < 2 ^ 24)) &&
    meets (.tileDim 1 2) (tiled [0x0300] (fun w => (w.setT 1 (Dsc.mk (lsWindow + 8) 2 3 63 3 0 0)).setU 2 0xFFF) id) (fun x =>
      Dsc.layout (x.w.t 1) == 2 && decide ((x.u 2).toNat < 2 ^ 24) &&
      (match x.s.planeCheck x.g (BitVec.ofNat 128 (setField (x.w.t 1).toNat 87 64 (x.u 2).toNat)) with
        | .bad c => c == Cause.illop | _ => false)) &&
    meets (.tileDim 1 2) (us [(2, 0x1000000)]) (fun x => decide (2 ^ 24 ≤ (x.u 2).toNat)) &&
    meets (.tileAdv 1 2) (us [(2, 0xFFFFFFFF)]) (fun x => Dsc.layout (x.w.t 1) != 2) &&
    meets (.tileAdv 1 2) (tiled [0x0300] (fun w => w.setT 1 (Dsc.mk lsWindow 2 3 63 3 0 0)) id)
      (fun x => Dsc.layout (x.w.t 1) == 2) = true := by decide +kernel
/-- R162: slot 0 of a table of one handle at the base of the local store, valid with generation 5. -/
theorem test_meets_handles :
    let s (h : Word) := ((on (fun g => { g with htab := lsWindow + 0x100 }) (fun w => w.setU 2 h) id).putNum
      (lsKey 0 0x100) 8 1).putNum (lsKey 0 0x150) 8 0x10005
    meets (.tileHnd 31 2) (s 5) (fun x => match x.shape (x.u 2).toNat with | .ok (some _) => true | _ => false) &&
    meets (.tileHnd 31 2) (s 6) (fun x => match x.shape (x.u 2).toNat with | .ok none => true | _ => false) &&
    meets (.tileHnd 31 2) (s 0x1005) (fun x => match x.shape (x.u 2).toNat with | .ok none => true | _ => false) =
      true := by decide +kernel

/-- R296, R297, R398, R36: bases and prefetched sets at the ends of their ranges (the holding is 1024 registers). -/
theorem test_meets_plain_system :
    ([Instr.nop, .fencM, .rpf 5 0, .icinv, .brk 127, .trap 0, .trapEsc 1, .halt, .rcv, .exit, .yield, .tret].all
      fun i => meets i base fun _ => true) &&
    meets (.wbase 127) base (fun x => decide (8 * 127 < x.g.vh)) && meets (.wbase 0) base (fun _ => true) &&
    meets (.wbase 2) (gs fun g => { g with vh := 16 }) (fun x => decide (x.g.vh ≤ 8 * 2)) &&
    meets (.rpf 112 16) base (fun x => x.ls.all fun l => decide (8 * (x.th l).winbase.toNat + 128 ≤ x.g.vh)) &&
    meets (.rpf 0 16) (gs fun g => { g with vh := 8 })
      (fun x => x.ls.any fun l => decide (x.g.vh < 8 * (x.th l).winbase.toNat + 16)) = true := by decide +kernel
/-- A set that issues at the end of a completion: the lane waits at ICINV. -/
theorem test_meets_icinv_completion :
    let s := on id id fun t => { t with wait := .icinv }
    (((gs fun g => { g with stop := some ⟨2, 0, 0, 0, 0, 0⟩ }).core 0).findWid 0).any (fun e => e.1.stop.isSome) &&
    (match (s.core 0).findWid 0 with
      | some (g, _, w) => g.stop.isNone && (g.liveLanes w).contains 0 && decide (((g.laneThread w 0).getD Thread.absent).wait = .icinv)
      | none => false) && ((s.core 0).findWid 9).isNone = true := by decide +kernel

/-- `base` with its lane a parked sub-warp whose handler runs. -/
def handler : State :=
  on id (fun w => { w with subs := [⟨1, Cause.bit Cause.brk, 0x2000, true⟩] }) id
theorem test_meets_tret : meets .tret handler (fun x => x.sub?.isSome) && meets .tret base (fun x => x.sub?.isNone) =
    true := by decide +kernel
/-- R32: every readable register at its last instance. -/
theorem test_meets_mfs :
    ([(SReg.lane, 0), (.tid, 0), (.wid, 0), (.gid, 0), (.core, 0), (.grove, 0), (.die, 0), (.lvl, 7), (.clock, 0),
      (.clock, 1), (.ts, 0), (.cause, 0), (.trappc, 0), (.traplanes, 0), (.trapmask, 0), (.age, 0), (.budget, 0),
      (.deadline, 0), (.deadline, 1), (.job, 0), (.profile, 0), (.lscap, 0), (.fpstat, 0), (.rmode, 0),
      (.winbase, 0)].all fun p => meets (.mfs 2 ⟨p.1, p.2, false⟩) base fun _ => true) &&
    meets (.mfs 2 ⟨.trappc, 0, true⟩) base (fun _ => true) && meets (.mfs 2 ⟨.clock, 0, true⟩) base (fun _ => true) =
      true := by decide +kernel
/-- R396: values at the ends of the ranges, outside a handler. -/
theorem test_meets_mts :
    meets (.mts 2 ⟨.fpstat, 0, false⟩) (vs [(2, 31)]) (fun x => decide (∀ l ∈ x.ls, (x.v 2 l).toNat < 2 ^ 5)) &&
    meets (.mts 2 ⟨.fpstat, 0, false⟩) (vs [(2, 32)]) (fun x => decide (∃ l ∈ x.ls, 2 ^ 5 ≤ (x.v 2 l).toNat)) &&
    meets (.mts 2 ⟨.rmode, 0, false⟩) (vs [(2, 3)]) (fun x => decide (∀ l ∈ x.ls, (x.v 2 l).toNat < 2 ^ 2)) &&
    meets (.mts 2 ⟨.rmode, 0, false⟩) (vs [(2, 4)]) (fun x => decide (∃ l ∈ x.ls, 2 ^ 2 ≤ (x.v 2 l).toNat)) &&
    meets (.mts 2 ⟨.winbase, 0, false⟩) (vs [(2, 127)]) (fun x =>
      decide (∀ l ∈ x.ls, (x.v 2 l).toNat < 2 ^ 7 ∧ (x.v 2 l = 0 ∨ 8 * (x.v 2 l).toNat < x.g.vh))) &&
    meets (.mts 2 ⟨.winbase, 0, false⟩) (vs [(2, 128)]) (fun x => decide (∃ l ∈ x.ls, 2 ^ 7 ≤ (x.v 2 l).toNat)) &&
    meets (.mts 2 ⟨.winbase, 0, false⟩) (on (fun g => { g with vh := 8 }) id fun t => t.setV 2 1) (fun x =>
      decide (∃ l ∈ x.ls, x.v 2 l ≠ 0 ∧ x.g.vh ≤ 8 * (x.v 2 l).toNat)) &&
    meets (.mts 2 ⟨.trapmask, 0, false⟩) (vs [(2, 0xC00FFFFF)]) (fun x => x.v 2 x.l0 &&& 0x3FF00000 == 0) &&
    meets (.mts 2 ⟨.trapmask, 0, false⟩) (vs [(2, 0x00100000)]) (fun x => x.v 2 x.l0 &&& 0x3FF00000 != 0) = true := by
  decide +kernel
theorem test_meets_mts_trappc :
    meets (.mts 2 ⟨.trappc, 0, true⟩) (vs [(2, 0xFFFFFFFC), (3, 0xFFFFF)]) (fun x => x.sub?.isNone &&
      decide ((x.v64 2 x.l0).toNat < 2 ^ 52 ∧ (x.v64 2 x.l0).toNat % 4 = 0)) &&
    meets (.mts 2 ⟨.trappc, 0, true⟩) handler (fun x => x.sub?.isSome &&
      decide ((x.v64 2 x.l0).toNat < 2 ^ 52 ∧ (x.v64 2 x.l0).toNat % 4 = 0)) &&
    meets (.mts 2 ⟨.trappc, 0, false⟩) (vs [(2, 4)]) (fun x => x.sub?.isNone && (x.v 2 x.l0).toNat % 4 == 0) &&
    meets (.mts 2 ⟨.trappc, 0, false⟩) handler (fun x => x.sub?.isSome && (x.v 2 x.l0).toNat % 4 == 0) &&
    meets (.mts 2 ⟨.trappc, 0, true⟩) (vs [(2, 2), (3, 0xFFFFF)]) (fun x =>
      decide ((x.v 2 x.l0).toNat % 4 ≠ 0 ∧ (x.v64 2 x.l0).toNat < 2 ^ 52)) &&
    meets (.mts 2 ⟨.trappc, 0, false⟩) (vs [(2, 3)]) (fun x => (x.v 2 x.l0).toNat % 4 != 0) &&
    meets (.mts 2 ⟨.trappc, 0, true⟩) (vs [(3, 0x100000)]) (fun x => decide (2 ^ 52 ≤ (x.v64 2 x.l0).toNat)) = true := by
  decide +kernel
/-- A handler of two lanes, with v2 of lane 0 set. -/
def handler2 (v : Word) : State :=
  let s := lanes 2 fun _ => [(2, v)]
  s.modCore 0 fun k => { k with groups := k.groups.map fun g =>
    { g with warps := g.warps.map fun w => { w with subs := [⟨3, 0, 0x2000, true⟩] } } }
theorem test_meets_mts_traplanes :
    meets (.mts 2 ⟨.traplanes, 0, false⟩) (handler2 1) (fun x => match x.sub? with
      | some b => x.v 2 x.l0 &&& ~~~b.lanes == 0 && x.v 2 x.l0 != b.lanes
      | none => false) &&
    meets (.mts 2 ⟨.traplanes, 0, false⟩) (handler2 3) (fun x => match x.sub? with
      | some b => x.v 2 x.l0 == b.lanes
      | none => false) &&
    meets (.mts 2 ⟨.traplanes, 0, false⟩) (handler2 4) (fun x => match x.sub? with
      | some b => x.v 2 x.l0 &&& ~~~b.lanes != 0
      | none => false) = true := by decide +kernel
theorem test_meets_causeclr :
    meets (.causeclr 2) (handler.modCore 0 fun k => { k with groups := k.groups.map fun g =>
      { g with warps := g.warps.map fun w => w.setU 2 0xFFFFF } }) (fun x => x.sub?.isSome &&
        decide ((x.u 2).toNat < 2 ^ 20)) &&
    meets (.causeclr 2) (us [(2, 0xFFFFF)]) (fun x => x.sub?.isNone && decide ((x.u 2).toNat < 2 ^ 20)) &&
    meets (.causeclr 2) (us [(2, 0x100000)]) (fun x => decide (2 ^ 20 ≤ (x.u 2).toNat)) = true := by decide +kernel

/-- R286-R289, R188-R203, R210-R212: control and memory words run in `base`. -/
theorem test_meets_control_memory :
    [Instr.bra 0x40000, .braPred true 15 0x3FFFF, .braU false 1 0, .call 126 5, .jmpr false 2, .jmpr true 62,
      .jmprLink false 4 2, .jmprLink true 4 62, .ld .z8 1 2 0x100, .ld .b128 4 2 0xFF, .st .b64 2 4 1,
      .ldx .s16 false false 1 2 3, .ldx .b64 true true 2 62 3, .stx .b8 false false 1 2 3, .stx .b128 true true 4 62 3,
      .lde 1 false 2 4 3, .lde 8 true 1 2 3, .ste 6 true 1 2 3, .atom .cas true 2 4 8, .atom .add false 1 2 3,
      .futFill 1 2 3, .futWait 1 2, .futTake 1 2, .futClr 2, .tagLook 1 2, .tagSet 2 4, .tagInv 3, .tagRd 2 4,
      .tagWr 2 3, .splfLd 1 2 127, .qry 62].all (fun i => meets i base fun _ => true) = true := by decide +kernel
/-- A load and a store by one lane in the local store. -/
theorem test_meets_load_store_bytes :
    let s := vs [(4, 0), (5, 0x000FFFF0)]
    (meets (.ld .b128 8 4 255) s fun x =>
      let ea := (x.v64 4 0 + BitVec.ofInt 64 ((255 : BitVec 9).toInt * 16)).toNat
      decide (x.ls = [0]) && (x.s.recorderOf x.g.gang).isNone && ea % 16 == 0 &&
      (match x.s.translate x.space .load ea with
        | .ok t => decide (t.fmt < 7) && !t.lost && !isEdge t.key && !x.s.poisoned t.key 16
        | _ => false) && (x.s.cores.all fun k => k.2.spills.isEmpty)) &&
    (meets (.st .b128 8 4 255) s fun x =>
      let ea := (x.v64 4 0 + BitVec.ofInt 64 ((255 : BitVec 9).toInt * 16)).toNat
      decide (x.ls = [0]) && (x.s.recorderOf x.g.gang).isNone && ea % 16 == 0 && Memory.wf x.s.mem &&
      (match x.s.translate x.space .store ea with
        | .ok t => decide (t.fmt < 7) && !t.lost && !isEdge t.key && !x.s.partialPoison t.key 16
        | _ => false) && (x.s.cores.all fun k => k.2.spills.isEmpty)) = true := by decide +kernel
/-- R202-R204: a full and an empty future; a lane that waits at one, and none that does. -/
theorem test_meets_futures :
    let s := base.put (lsKey 0 8) [9, 0, 0, 0, 1]
    let waiting := on id id fun t => { t with wait := .fut true 1 2 }
    (match s.translate (Space.mk (some 0) 0 true 0 [0] []) .atomic (lsWindow + 8) with
      | .ok t => !isEdge t.key && decide (t.fmt < 7) && !t.lost && !s.poisoned t.key 8 &&
          leNat (s.readAt 0 t (lsWindow + 8) 8) / 2 ^ 32 % 2 == 1 &&
          leNat (base.readAt 0 t (lsWindow + 8) 8) / 2 ^ 32 % 2 == 0
      | _ => false) &&
    (match (base.core 0).findWid 0 with
      | some (g, _, w) => g.stop.isNone && decide (g.liveLanes w = [0]) &&
          decide ((g.laneThread w 0).map (·.wait) = some .none)
      | none => false) &&
    (match (waiting.core 0).findWid 0 with
      | some (g, _, w) => decide (g.liveLanes w = [0]) &&
          decide ((g.laneThread w 0).map (·.wait) = some (.fut true 1 2))
      | none => false) &&
    ((ctxOf base).any fun x => x.held (opndsOf (.futTake 1 2)) && (x.pipeUses (opndsOf (.futTake 1 2))).isEmpty) &&
    ((ctxOf (gs fun g => { g with vh := 2 })).any fun x => !x.held (opndsOf (.futWait 1 2))) = true := by decide +kernel
/-- R382: a lookup that meets no poisoned tag of its pages, and one that does. -/
theorem test_meets_tag_poison :
    let bad := ks fun k => { k with tpoison := [0] }
    meets (.tagLook 1 2) base (fun x => !x.g.pages.any (x.s.core x.core).tpoison.contains) &&
    meets (.tagLook 1 2) bad (fun x => x.g.pages.any (x.s.core x.core).tpoison.contains) = true := by decide +kernel
/-- R211, R212: a full forwarding table, one with room for the last entry, and a pending spill. -/
theorem test_meets_spills :
    let full (n : Nat) := (vs [(2, 0), (3, 0x000FFFF0)]).modCore 0 fun k => { k with spills := List.replicate n ⟨1, [(lsKey 0 0, 5)]⟩ }
    meets (.splfSt 1 2 0) (full 32) (fun x => decide (32 ≤ (x.s.core x.core).spills.length)) &&
    meets (.splfSt 1 2 127) (full 31) (fun x => decide (x.ls = [0]) && (x.s.recorderOf x.g.gang).isNone &&
      decide ((x.s.core x.core).spills.length < 32) && (match x.splfAt 2 127 0 with
        | .ok t => !x.s.partialPoison t.key 4
        | _ => false)) && ((base.core 0).spills.isEmpty) && !base.partialPoison (lsKey 0 0) 4 = true := by decide +kernel

/-- A queued entry of the group of `base`: word i, descriptors d and a. -/
def entry (i : Instr) (d a : Desc) : Entry where
  eid := 9
  gk := 1
  op := ⟨i, d, a⟩
  toks := []
  origin := .lanes [(0, 1)]
  melded := false
  threads := [0]
  pages := [0]
  named := []
  q := (copyQueue i).getD 0
  probed := none
  done := 0
  stopped := none
/-- `base` with matrix and copy queues. -/
def queued (m c : List Entry) : State := ks fun k => { k with mq := m, cq := c }
/-- A 16-bit tile of one row of four elements at the base of the local store. -/
def small : Desc := Dsc.mk lsWindow 0 3 0 3 8 0
/-- A page no table maps, and a grove page no group holds. -/
def unmapped : Desc := Dsc.mk 0x4000 0 3 0 3 8 0
def unheld : Desc := Dsc.mk (groveWindow + 2 ^ 23) 0 3 0 3 8 0
/-- The group owns accumulators 0 to 15 of `base`. -/
def owning (k : Core) : Core := { k with owner := (List.range 16).map fun a => (a, 1) }

/-- R126, R172: each engine word at a full queue and at one with a last free place; an issue check that fails. -/
theorem test_meets_engine_words :
    ([Instr.ldw 0 (some 63) none, .ldwSwap none none, .mstr 15 0 false false (some 1) none, .accZ 0 none none,
      .accRd 0 1 none none, .accWr 15 1 (some 0) none].all fun i =>
        let s (n : Nat) := (on id (fun w => w.setT 1 (Dsc.mk lsWindow 0 2 0 3 8 0)) id).modCore 0 fun k =>
          { owning k with mq := List.replicate n (entry .nop 0 0) }
        meets i (s 64) (fun x => decide (x.s.opCheck x.core x.g (x.w.opOf i) = none ∧ 64 ≤ (x.s.core x.core).mq.length)) &&
        meets i (s 63) (fun x => decide (x.s.opCheck x.core x.g (x.w.opOf i) = none ∧
          (x.s.core x.core).mq.length < 64 ∧ x.s.recorderOf x.g.gang = none))) &&
    ([Instr.acpy .raw 3 0 1 (some 2), .acpy .zero 0 0 0 none].all fun i =>
        let s (n : Nat) := queued [] (List.replicate n (entry i 0 0))
        meets i (s 32) (fun x => decide (x.s.opCheck x.core x.g (x.w.opOf i) = none ∧
          32 ≤ ((x.s.core x.core).cq.filter fun e => some e.q == copyQueue i).length)) &&
        meets i (s 31) (fun x => decide (x.s.opCheck x.core x.g (x.w.opOf i) = none ∧
          ((x.s.core x.core).cq.filter fun e => some e.q == copyQueue i).length < 32))) &&
    ([Instr.accZ 4 none none, .mstr 0 0 false false none (some 7)].all fun i =>
        meets i base fun x => decide (x.s.opCheck x.core x.g (x.w.opOf i) = some Cause.accown)) &&
    meets (.ldwSwap none (some 7)) base (fun x => decide (x.s.opCheck x.core x.g (x.w.opOf (.ldwSwap none (some 7))) =
      none)) = true := by decide +kernel

/-- `base` with meld 7 open: it expects n and threads l have signed. -/
def melding (n : Nat) (l : List Nat) (op : Option Op) : State :=
  gs fun g => { g with melds := List.replicate 7 Meld.idle ++ [⟨true, n, l, op, [], []⟩] }
/-- R127-R130, R137. -/
theorem test_meets_melds :
    meets (.meldDecl 7 2) (us [(2, 1024)]) (fun x => decide (x.g.melds[7]? = some Meld.idle ∧
      1 ≤ (x.u 2).toNat ∧ (x.u 2).toNat ≤ 1024)) &&
    meets (.meldDecl 7 2) (melding 1 [] none) (fun x => decide ((x.g.melds[7]?.map (·.opened)) = some true)) &&
    meets (.meldDecl 0 2) (us [(2, 1025)]) (fun x => decide (1024 < (x.u 2).toNat)) &&
    ([Instr.meldSign 7 (some 3), .meldCancel 7].all fun i => meets i base fun _ => true) &&
    meets (.meldQry 63 7) (melding 1 [] none) (fun x => decide ((x.g.melds[7]?.map (·.opened)) = some true)) &&
    meets (.meldQry 63 0) base (fun x => decide ((x.g.melds[0]?.map (·.opened)) = some false)) &&
    decide (((melding 2 [] none).core 0).meldsWaiting = []) &&
    decide (((melding 1 [0] (some ⟨.ldwSwap none (some 7), 0, 0⟩)).core 0).meldsWaiting = [(1, 7)]) = true := by
  decide +kernel
/-- R129: a signing that is refused, for each reason: an idle meld, a thread that has signed, too many threads,
another operation or descriptor, no operation at the end. -/
theorem test_meets_meld_refused :
    let o : Op := ⟨.ldwSwap none (some 7), 0, 0⟩
    let m (s : State) (c : Ctx → Meld → Bool) : Bool := match ctxOf s with
      | some x => (x.g.melds[7]?).any (c x)
      | none => false
    m base (fun _ m => !m.opened) && m (melding 5 [0] none) (fun x m => x.ls.any fun l => m.signed.contains (x.slotOf l)) &&
    m (melding 0 [] none) (fun x m => decide (m.expect < m.signed.length + x.ls.length)) &&
    m (melding 5 [] (some o)) (fun _ m => m.op.any fun p => decide (blank (.accZ 0 none (some 7)) ≠ blank p.instr)) &&
    m (melding 1 [] none) (fun x m => m.op.isNone && m.signed.length + x.ls.length == m.expect) &&
    m (melding 2 [5] (some o)) (fun x m => m.opened && !(x.ls.any fun l => m.signed.contains (x.slotOf l)) &&
      decide (m.signed.length + x.ls.length ≤ m.expect)) = true := by decide +kernel
/-- R130: a complete meld that enters: its operation is owned and its queue has room. -/
theorem test_meets_meld_enters :
    let s := melding 1 [0] (some ⟨.ldwSwap none (some 7), 0, 0⟩)
    (match s.group? 0 1 with
      | some g => (g.melds[7]?).any fun m => m.op.isSome && m.opened && m.signed.length == m.expect &&
          !(s.core 0).full (.ldwSwap none (some 7)) && (s.core 0).owns g (.ldwSwap none (some 7))
      | none => false) = true := by decide +kernel

/-- What the matrix engine would do with an entry at its head. -/
def matrixRes (e : Entry) : Option (EngRes State) :=
  let s := queued [e] []
  (s.group? 0 1).bind fun g => if g.stop.isNone && e.stopped.isNone then some (s.matrixEffect 0 g e.op) else none
/-- R133, R138-R141: an operation with its effect, one without an active plane, one of an unmapped page. -/
theorem test_meets_matrix_engine :
    (match matrixRes (entry (.ldw 0 none none) small 0) with | some (.ok _) => true | _ => false) &&
    (match matrixRes (entry (.ldwSwap none none) 0 0) with | some (.ok _) => true | _ => false) &&
    (match matrixRes (entry (.accZ 3 none none) 0 0) with | some (.ok _) => true | _ => false) &&
    (match matrixRes (entry (.mstr 0 0 false false none none) small 0) with
      | some (.bad c) => c == Cause.illop | _ => false) &&
    (match matrixRes (entry (.ldw 0 none none) unmapped 0) with | some (.page va) => va == 0x4000 | _ => false) &&
    (base.core 0).mq.isEmpty && !(base.core 0).reloading 1 &&
    ((gs fun g => { g with planeLoads := [(false, small, none)] }).core 0).reloading 1 && (base.clk % 4096 == 0) && (({ base with clk := 1 } : State).clk % 4096 != 0) &&
    ((base.group? 0 1).isSome) && (base.planePending 0 1).isNone = true := by decide +kernel
/-- R124: a free token, the group's own, another member's, a slot the gang has not; R140. -/
theorem test_meets_acc_tokens :
    let held (gk : Nat) := ks fun k => { k with owner := [(15, gk)] }
    meets (.accAcq 15 none) base (fun x => (x.s.core x.core).useSlot x.g 3 && (sfind (x.s.core x.core).owner 15).isNone &&
      x.w.waited &&& x.lanes == 0) &&
    meets (.accAcq 15 none) (held 1) (fun x => decide (sfind (x.s.core x.core).owner 15 = some x.g.gk ∧
      x.w.waited &&& x.lanes = 0)) &&
    meets (.accAcq 15 none) (held 2) (fun x => decide (sfind (x.s.core x.core).owner 15 = some 2 ∧ 2 ≠ x.g.gk)) &&
    meets (.accAcq 0 none) (gs fun g => { g with slots := [] }) (fun x => !(x.s.core x.core).useSlot x.g 0) &&
    meets (.accRel 15 none) (held 1) (fun x => decide (sfind (x.s.core x.core).owner 15 = some x.g.gk)) &&
    meets (.accRel 15 none) base (fun x => decide (sfind (x.s.core x.core).owner 15 ≠ some x.g.gk)) &&
    meets (.accAcq 0 (some 0)) base (fun _ => true) && meets (.accRel 0 (some 7)) base (fun _ => true) = true := by
  decide +kernel
/-- R133, R135, R279: stopped units of each kind, at a clock that is a multiple of 4096. -/
theorem test_meets_retry :
    let e := { entry (.acpy .raw 3 0 1 none) small small with stopped := some 0x4000 }
    let s := queued [{ entry (.ldw 0 none none) unmapped 0 with stopped := some 0x4000 }] [e]
    ((s.core 0).mq.head?.map (·.stopped)) == some (some 0x4000) && ((s.core 0).copyHead 3 == some e) &&
    (((s.group? 0 1).map (·.stop)) == some none) && e.probed.isNone &&
    (({ e with probed := some ⟨none, none, 3, 3, []⟩ } : Entry).probed == some ⟨none, none, 3, 3, []⟩) &&
    ((tiled [0x0300] id id).group? 0 1).any (fun g => (g.tile.map fun o => ({ o with reload := true } : Own).reload) ==
      some true) = true := by decide +kernel
/-- R205-R209: a probe that passes, one that fails, one of an unmapped page; a first and last chunk. -/
theorem test_meets_copies :
    let probe (d a : Desc) : Option (EngRes Probe) :=
      let s := queued [] [entry (.acpy .raw 3 0 1 none) d a]
      (s.group? 0 1).map fun g => s.probeOf 0 g (entry (.acpy .raw 3 0 1 none) d a)
    let chunk (d a : Desc) : Option (EngRes Chunk) :=
      let s := queued [] [entry (.acpy .raw 3 0 1 none) d a]
      (s.group? 0 1).map fun g => s.chunk 0 g (entry (.acpy .raw 3 0 1 none) d a) .raw ⟨none, none, 3, 3, []⟩
    (match probe small small with | some (.ok _) => true | _ => false) &&
    (match probe small unheld with | some (.bad c) => c == Cause.prot | _ => false) &&
    (match probe unmapped small with | some (.page _) => true | _ => false) &&
    (match chunk small small with | some (.ok (.part _ _ true)) => true | _ => false) &&
    ((base.core 0).copyHead 3).isNone = true := by decide +kernel
/-- R208, R381: the first of two blocks of a pack, and a chunk that meets a poisoned unit it does not cover. -/
theorem test_meets_chunks :
    let chunk (fn : CopyFn) (d a : Desc) (f : Probe) (u : List Nat) : Option (EngRes Chunk) :=
      let e := { entry (.acpy fn 3 0 1 none) d a with pages := [0, 1] }
      let s := { queued [] [e] with poison := u }
      (s.group? 0 1).map fun g => s.chunk 0 g e fn f
    let one (off : Nat) := Dsc.mk (lsWindow + off) 0 3 0 0 8 0
    (match chunk .pack (Dsc.mk lsWindow 0 7 0 63 64 0) (Dsc.mk (lsWindow + 4096) 0 3 0 63 128 0) ⟨none, none, 3, 7, [(lsWindow, 4096, 0), (lsWindow, 4096, 1)]⟩ [] with
      | some (.ok (.part _ _ false)) => true | _ => false) &&
    (match chunk .raw (one 0) (one 8) ⟨none, none, 3, 3, []⟩ [lsKey 0 0 / 8] with
      | some (.ok (.fail _ c)) => c == Cause.dataerr | _ => false) = true := by decide +kernel
/-- R205-R209: a zero copy of a tile of 16-bit elements in the group's own window, at its probe and at its chunk. -/
theorem test_meets_copies_run :
    let e := entry (.acpy .zero 3 0 1 none) small 0
    let f : Probe := ⟨none, none, 0, 3, []⟩
    let s (p : Option Probe) := queued [] [{ e with probed := p }]
    let cells := ((tileCells small).drop 0).take 2048
    let pos (r c : Nat) := (tilePos small 16 r c).1
    (((s none).core 0).copyHead 3 == some e) && Dsc.layout small == 0 && Dsc.fmtsel small == 3 &&
    (match (s none).group? 0 1 with
      | some g => g.stop.isNone && (s none).noPoison && (cells.all fun (r, c) => pos r c % 2 == 0 &&
          (upto (pos r c) 2).all fun va => match (s none).translate (g.copySpace 0 e) .store va with
            | .ok x => !x.lost && x.fmt == 0
            | _ => false)
      | none => false) &&
    (match exec (.copyProbe 0 3) (s none) with
      | .next t => ((t.core 0).copyHead 3).any fun e => e.probed == some f
      | _ => false) &&
    (match exec (.copyChunk 0 3) ((s (some f)).put (lsKey 0 0) (List.replicate 12 7)) with
      | .next t => (t.core 0).cq.isEmpty && t.bytes (lsKey 0 0) 12 == List.replicate 8 0 ++ List.replicate 4 7
      | _ => false) = true := by decide +kernel

/-- R175, R183, R184, R158: an empty and a waited-for queue set, a register beyond 6 bits, region lists that are empty,
malformed (257 regions) and not aligned, images that are aligned and not. A list with dirty lines in reach needs the
host to accept an access, which is free (log 7), so no closed state shows it. -/
theorem test_meets_fences :
    let at_ (a : Word) := us [(2, a), (3, 0x000FFFF0)]
    let list (x : Ctx) := x.s.regionList x.space x.die (x.u64 2).toNat
    meets (.fencQImm 63) base (fun x => !x.queued 63) && meets (.fencQImm 0) base (fun _ => true) &&
    meets (.fencQImm 1) (queued [entry .nop 0 0] []) (fun x => x.queued 1) &&
    meets (.fencQImm 0x10) (queued [] [entry (.acpy .raw 3 0 1 none) 0 0]) (fun x => x.queued 0x10) &&
    meets (.fencQReg 2) (us [(2, 63)]) (fun x => decide ((x.u 2).toNat < 64)) &&
    meets (.fencQReg 2) (us [(2, 64)]) (fun x => decide (64 ≤ (x.u 2).toNat)) &&
    meets (.fencR 2) (at_ 0x100) (fun x => (x.u64 2).toNat % 16 == 0 && (match list x with
      | .ok (some rs) => (match x.s.listLines x.space rs with
        | .ok (cl, inv) => !((x.listKept (x.u64 2).toNat).s.bump.startClean cl inv x.s.fresh).2 | _ => false)
      | _ => false)) &&
    meets (.fencR 2) (at_ 8) (fun x => (x.u64 2).toNat % 16 != 0) &&
    meets (.fencR 2) ((at_ 0x100).putNum (lsKey 0 0x100) 2 257) (fun x => (x.u64 2).toNat % 16 == 0 && (match list x with
      | .ok none => true | _ => false)) &&
    meets (.fencRcommit 2 63) (at_ 0x40) (fun x => (x.u64 2).toNat % 64 == 0 && (x.s.recorderOf x.g.gang).isNone) &&
    meets (.fencRcommit 2 63) (at_ 0x20) (fun x => (x.u64 2).toNat % 64 != 0 && (x.s.recorderOf x.g.gang).isNone) &&
    base.cleans.isEmpty = true := by decide +kernel

/-- A declared pipe 7 of the gang of `base`, member 0 to itself, over registers no test names. -/
def pipe (dst : Nat) (maps : Sparse (Sparse Mask)) : Pipe := ⟨1, 7, dst, dst, 900, 900, 2, maps⟩
/-- `base` with that pipe. -/
def piped (dst : Nat) (maps : Sparse (Sparse Mask)) : State := ks fun k => { k with pipes := [pipe dst maps] }
/-- R219-R222, R290-R292. -/
theorem test_meets_thread_words :
    let to_ (s : State) (lo hi : Word) : State := s.modCore 0 fun k => { k with groups := k.groups.map fun g =>
      { g with warps := g.warps.map fun w => (w.setU 2 lo).setU 3 hi } }
    let mapped := piped 0 [(0, [])]
    meets (.spawn 1 2 120) (to_ base 0xFFFFFFFC 0xFFFFF) (fun x => !(x.s.core x.core).piped x.g &&
      decide ((x.u64 2).toNat < 2 ^ 52) && (x.u64 2).toNat % 4 == 0) &&
    meets (.spawn 1 2 3) (to_ mapped 0 0) (fun x => (x.s.core x.core).piped x.g) &&
    meets (.spawn 1 2 3) (to_ base 0 0x100000) (fun x => !(x.s.core x.core).piped x.g && decide (2 ^ 52 ≤ (x.u64 2).toNat)) &&
    meets (.spawn 1 2 3) (to_ base 2 0) (fun x => !(x.s.core x.core).piped x.g && decide ((x.u64 2).toNat < 2 ^ 52) &&
      (x.u64 2).toNat % 4 != 0) &&
    meets .reform base (fun x => !(x.s.core x.core).piped x.g) && meets .reform mapped (fun x => (x.s.core x.core).piped x.g) &&
    (match (lanes 32 fun _ => []).group? 0 1 with
      | some g => (List.range (32 * g.warps.length)).all fun t => (sfind g.threads t).isSome
      | none => false) = true := by decide +kernel
/-- A record of two levels, the second above the core: TOP 1, its domain grove. -/
def twoLevels : BitVec 1024 := BitVec.ofNat 1024 (2 ^ 54 + 3 * 2 ^ 280)
/-- R234-R237, R295. -/
theorem test_meets_barriers :
    let tall (t : Thread → Thread) := on (fun g => { g with record := twoLevels }) id t
    let arrived := tall fun t => { t with wait := .bar 1 true }
    meets (.bar 0) base (fun x => x.ls.all fun l => x.barOk 0 l) &&
    meets (.bar 1) (tall id) (fun x => x.ls.all fun l => x.barOk 1 l) &&
    meets (.bar 1) base (fun x => x.ls.all fun l => !x.barOk 1 l) &&
    (match arrived.group? 0 1 with
      | some g => ((sfind g.threads 0).any fun th => th.wait.atBar 1) && arrived.barReady g 1 && !arrived.barReady g 0
      | none => false) && (base.group? 0 5).isNone &&
    meets (.syncw 2) (vs [(2, 1)]) (fun x => decide (x.g.syncWaiters x.w = [] ∧ (∀ l ∈ x.ls, x.v 2 l = x.lanes) ∧
      x.lanes &&& ~~~(maskOf (x.g.liveLanes x.w)) = 0)) &&
    meets (.syncwU 2) (us [(2, 2)]) (fun x => decide (x.g.syncWaiters x.w = [] ∧
      ∀ l ∈ x.ls, ((x.u 2).getLsbD l = false))) &&
    meets (.syncwU 2) ({ lanes 2 fun _ => [] with issue := some ⟨0, 0, 1, BitVec.ofNat 52 lsWindow⟩ }) (fun x =>
      decide (x.g.syncWaiters x.w = [] ∧ x.lanes &&& ~~~(3 : Mask) = 0 ∧ 3 ≠ x.lanes ∧
        3 &&& ~~~(maskOf (x.g.liveLanes x.w)) = 0)) = true := by decide +kernel

/-- `base` with a second, empty warp slot and a bin of one thread. -/
def binned (timer : Nat) (expired : Bool) (free : Bool) : State :=
  (gs fun g => { g with warps := g.warps ++ (if free then [Warp.new 1 (List.replicate 32 none) 0] else []) }).modCore 0
    fun k => { k with bins := [⟨some 63, 1, 0x2000, [(5, 3)], timer, expired⟩] }
/-- R223-R226, R239: a timer at 0, a ready bin with a free slot, an expired bin without one, a path and a warp at
AGEMAX. -/
theorem test_meets_shuffler :
    (((binned 0 false false).core 0).bins.any fun b => b.num == 63 && b.timer == 0) &&
    (match ((binned 9 true true).core 0).group? 1 with
      | some g => g.stop.isNone && g.launchSlot base.clk == some 1 && (minBy (fun b => (b.threads.headD (0, 0)).2)
          (((binned 9 true true).core 0).bins.filter fun b => b.gk == 1 && ((binned 9 true true).core 0).binReady b)).isSome
      | none => false) &&
    (match ((binned 0 true false).core 0).group? 1 with
      | some g => g.stop.isNone && g.freeSlot.isNone && ((binned 0 true false).core 0).bins.any fun b =>
          b.num == 63 && b.expired && b.gk == 1
      | none => false) &&
    (let s := on id (fun w => { w with ages := [(0, 256)], passed := 256 }) id
     (match (s.core 0).findWid 0 with
      | some (g, _, w) => (s.core 0).mayIssue s.clk g && (minBy (fun p => 65536 - w.pathAge p)
          (((g.paths w).map Prod.snd).filter fun p => decide (ageMax ≤ w.pathAge p) && !(s.core 0).isStalled w p)).isSome
      | none => false) &&
     (((s.core 0).readyWarps s.clk 0).find? fun (_, _, w) => decide (ageMax ≤ w.passed)).isSome) &&
    (((base.core 0).readyWarps base.clk 0).all fun e => decide (e.2.2.passed < ageMax)) &&
    ((base.core 0).findWid 9).isNone && ((base.core 0).bins.find? fun b => b.num == 3).isNone = true := by decide +kernel

/-- A second group on the core, of another gang or a second member of the same. -/
def beside (g : Group → Group) (other : Group) : State :=
  (gs g).modCore 0 fun k => { k with groups := k.groups ++ [other] }
/-- `s` with uniform register 2 set. -/
def u2 (s : State) (v : Word) : State := s.modCore 0 fun k => { k with groups := k.groups.map fun g =>
  if g.gk = 1 then { g with warps := g.warps.map fun w => w.setU 2 v } else g }
/-- R251-R256, R294, R298: a malformed word (bit 11), a page that is granted, a granule beyond the claim, a slot that
does not fit; amounts held and not held. -/
theorem test_meets_banking :
    let short := beside (fun g => { g with slots := [0] }) { placedGroup 2 with slots := [1, 2, 3], claim := Hold.zero }
    let h (x : Ctx) := Hold.ofWord (x.u 2).toNat
    ([Instr.acqB 2, .acqT 3 2, .rel 2].all fun i => meets i (u2 base 0x800) fun x => (h x).isNone) &&
    ([Instr.acqB 2, .acqT 3 2].all fun i => meets i (u2 base 0x1000) fun x => (h x).any fun h =>
      x.s.judge x.core x.g h == 0) &&
    ([Instr.acqB 2, .acqT 3 2].all fun i => meets i (u2 base 1) fun x => (h x).any fun h =>
      x.s.judge x.core x.g h == 3) &&
    ([Instr.acqB 2, .acqT 3 2].all fun i => meets i (u2 short 0x800000) fun x => (h x).any fun h =>
      x.s.judge x.core x.g h == 2) &&
    meets (.rel 2) (u2 base 0x1000) (fun x => (h x).any fun h => x.relCause h == none) &&
    meets (.rel 2) (u2 base 0x2000) (fun x => (h x).any fun h => x.relCause h == some Cause.claim) = true := by
  decide +kernel
/-- R294: no page, a page to member 1 of the gang whose claim has room for one, and no such member. -/
theorem test_meets_handoff :
    let two := u2 (beside id { placedGroup 2 with gang := 1, member := 1, pages := [], claim := ⟨0, 0, 1, 0, 0⟩ }) 1
    meets (.handoff 2 3) base (fun x => x.u 2 == 0 && (x.s.recorderOf x.g.gang).isNone) &&
    meets (.handoff 2 3) (two.modCore 0 fun k => { k with groups := k.groups.map fun g =>
        { g with warps := g.warps.map fun w => w.setU 3 0x80000001 } }) (fun x => x.u 2 != 0 &&
      (x.s.recorderOf x.g.gang).isNone && !(bitAt (x.u 3) 31 && fld (x.u 3) 30 2 != 0) &&
      (x.successor (x.u 3)).any fun h => decide (x.s.tilePages x.g + (x.u 2).toNat ≤ x.g.pages.length) &&
        decide (h.pages.length + (x.u 2).toNat ≤ h.claim.pages)) &&
    meets (.handoff 2 3) (u2 base 1) (fun x => x.u 2 != 0 && (x.s.recorderOf x.g.gang).isNone &&
      !(bitAt (x.u 3) 31 && fld (x.u 3) 30 2 != 0) && (x.successor (x.u 3)).isNone) = true := by decide +kernel
/-- R252, R253, R270: a request that has waited 4096 clocks and one that has waited 4095, grantable; a budget at 0. -/
theorem test_meets_banker_steps :
    let s (clk : Nat) : State := { (on id id fun t => { t with wait := .bank }).modCore 0 fun k =>
      { k with reqs := [⟨1, 0, 1, 0x1000, 0, false, false⟩] } with clk := clk }
    let spent := gs fun g => { g with record := BitVec.ofNat 1024 (2 ^ 192), budget := 0 }
    ((s 4096).core 0).headReq.isNone && (((s 4096).core 0).waiting.head?.any fun r => decide (r.since + 4096 ≤ 4096)) &&
    (((s 4095).core 0).waiting.head?.any fun r => decide (4095 < r.since + 4096)) && (base.core 0).waiting.isEmpty &&
    (match (s 0).group? 0 1, Hold.ofWord 0x1000 with
      | some g, some h => (s 0).judge 0 g h == 0 && ((s 0).core 0).waits ⟨1, 0, 1, 0x1000, 0, false, false⟩
      | _, _ => false) &&
    ((spent.group? 0 1).any fun g => g.budget == 0 && !g.budgetRaised && !g.replay && Rec.budget (spent.leadOf g) != 0) &&
    ((gs fun g => { g with budget := 1 }).group? 0 1).any (fun g => g.budget != 0) = true := by decide +kernel

/-- A sequencer of the group of `base`, its program at the base of the local store. -/
def seq (copy : Bool) : Seq where
  gk := 1
  wslot := 0
  off := 0
  idx := 0
  cur := none
  rep := none
  copy := copy
  fork := 0
  atRdv := none
  finished := false
  failed := none
  tok := none
  w := 0
  lanes := 1
  threads := [0]
  fence := false
  met := false
/-- R274, R299-R302: programs at the last and past the last byte of the window, kinds that run and that do not, entries
that are none and that are, a step of a sequencer. -/
theorem test_meets_engine_programs :
    let s (off : Word) (l : List Seq) := u2 (ks fun k => { k with seqs := l }) off
    ([Instr.forkMx 32 2 none, .forkCp 0 2 (some 5), .forkBoth 1 2 none, .forkMx 1 2 (some 3)].all fun i =>
      meets i base fun _ => true) &&
    meets (.forkMx 32 2 none) (s 4088 [seq true]) (fun x => (x.u 2).toNat % 8 == 0 &&
      decide ((x.u 2).toNat < x.g.pages.length * 4096) && (x.s.core x.core).seqs.all fun q => q.copy) &&
    meets (.forkCp 32 2 (some 5)) (s 4088 [seq false]) (fun x => (x.u 2).toNat % 8 == 0 &&
      decide ((x.u 2).toNat < x.g.pages.length * 4096) && (x.s.core x.core).seqs.all fun q => !q.copy) &&
    (match ctxOf (s 0 [seq true]) with
      | some x => decide (4096 = x.g.pages.length * 4096) && (x.s.core x.core).seqs.any fun q => q.copy
      | none => false) &&
    meets (.rdv 7) base (fun x => (x.s.core x.core).seqs.all fun q => q.gk != x.g.gk) &&
    meets (.rdv 7) (s 0 [seq true]) (fun x => (x.s.core x.core).seqs.any fun q => q.gk == x.g.gk) &&
    meets (.tq 2) base (fun x => (seqEntry false ((x.u64 2).toNat % 2 ^ 63)).isNone &&
      (seqEntry true ((x.u64 2).toNat % 2 ^ 63)).isNone) &&
    (let q (r : Option Nat) : Seq := { seq false with cur := some 0x88000802, atRdv := r, finished := r.isNone, w := 0 }
     ((List.range 8).find? ((s 0 [q (some 7)]).rdvReady 0 (q (some 7))) == some 7) &&
       (List.range 8).all fun k => !(s 0 [q none]).rdvReady 0 (q none) k) = true := by decide +kernel
theorem test_meets_tq_and_sequencer :
    meets (.tq 2) (u2 base 0x88000802) (fun x =>
      match seqEntry false ((x.u64 2).toNat % 2 ^ 63) with
      | some (i, reps, _) => reps == 1 && (engineWord i).isSome && x.w.tqs.isEmpty && (match gate i x with
          | .go => true | .stop _ => false) && (x.s.opCheck x.core x.g (x.w.opOf i)).isNone
      | none => false) &&
    meets (.tq 2) (u2 base 0xB4001800) (fun x => (seqEntry false ((x.u64 2).toNat % 2 ^ 63)).isNone &&
      match seqEntry true ((x.u64 2).toNat % 2 ^ 63) with
      | some (i, _, _) => (engineWord i).isSome && x.w.tqs.isEmpty && (match gate i x with
          | .go => true | .stop _ => false) && (x.s.opCheck x.core x.g (x.w.opOf i)).isNone
      | none => false) &&
    (let s := (ks fun k => { k with seqs := [seq false] }).putNum (lsKey 0 0) 4 0x88000802
     match s.group? 0 1 with
     | some g => (g.warp? 0).isSome && g.stop.isNone && (match s.seqRead 0 g (seq false) 0 with
         | .ok e => (seqEntry false e).isSome
         | _ => false)
     | none => false) && (base.core 0).seqs.isEmpty = true := by decide +kernel

/-- A remote push of lane 0's record, to register 5. -/
def push : Push := ⟨3, 4, 0, 0, 0x10000, 0x40200C04000, 0, 1, 0, 5, 0, 0, 0, true, none⟩

/-- R38, R272. -/
theorem test_meets_pipes :
    let ends (x : Ctx) (b : Bool) := (x.pipe? 7).any fun q => q.ends x.g.member == b
    let idle (x : Ctx) := (x.s.core x.core).bins.all fun b => b.gk != x.g.gk
    let isMapped (x : Ctx) (b : Bool) := (x.pipe? 7).any fun q => (sfind q.maps x.slot).isSome == b
    let filed := (piped 0 []).modCore 0 fun k => { k with bins := [⟨some 0, 1, 0, [(5, 0)], 9, false⟩] }
    meets (.pipeMap 7) (piped 0 []) (fun x => ends x true && idle x && isMapped x false) &&
    meets (.pipeMap 7) (piped 0 [(0, [])]) (fun x => ends x true && idle x && isMapped x true) &&
    meets (.pipeMap 7) filed (fun x => ends x true && !idle x) &&
    ([Instr.pipeMap 7, .pipeUnmap 7, .pipeQry 63 7].all fun i => meets i base (fun x => (x.pipe? 7).isNone) &&
      meets i (piped 2 []) (fun x => ends x false)) &&
    meets (.pipeUnmap 7) (piped 0 []) (fun x => ends x true && isMapped x false) &&
    meets (.pipeUnmap 7) (piped 0 [(0, [])]) (fun x => ends x true && isMapped x true &&
      ((x.s.core x.core).gangGroups x.g.gang).all fun h => (h.warp? 0).all fun w => (h.liveLanes w).all fun l =>
        (h.laneThread w l).all fun t => !t.wait.onPipe 7) &&
    meets (.pipeQry 63 7) (piped 0 []) (fun x => ends x true) = true := by decide +kernel
/-- `base` with directory record d for tape n of grove 0. -/
def tape (n d : Nat) : State := base.setEntry 0 n d

/-- R309-R313: the words of a tile with one plane of pixels, at its last plane and past it, and without a tile. -/
theorem test_meets_tile_group :
    let t := tiled [0x8000] id id
    let owns (x : Ctx) := x.s.ownDesc x.g
    ([Instr.pld 1 2 0, .pst 1 2 0].all fun i => meets i t fun x => (owns x).any fun e => decide (0 < DrawD.npl e)) &&
    ([Instr.pld 1 2 1, .pst 1 2 1].all fun i => meets i t fun x => (owns x).any fun e => decide (DrawD.npl e ≤ 1)) &&
    ([Instr.pld 1 2 0, .pst 1 2 0, .blend .over 1 2, .tdone].all fun i => meets i base fun x => (owns x).isNone) &&
    meets (.blend .rep 1 2) t (fun x => (owns x).isSome && x.g.tile.isSome) && meets .tdone t (fun x => (owns x).isSome) &&
    meets (.dcmp 2 4) base (fun _ => true) &&
    meets (.sample true false 1 3 4) base (fun x => Dsc.layout (x.w.t 3) != 2) &&
    meets (.sample false true 1 3 4) (tiled [0x0300] (fun w => w.setT 3 (Dsc.mk lsWindow 2 3 63 3 0 0)) id)
      (fun x => Dsc.layout (x.w.t 3) == 2) = true := by decide +kernel
/-- R309-R311, R313: a 16-bit channel, one past the last, a block-scaled plane; fragments of the pixel, of another
and one that waits for a lower sequence number; a descriptor that is not aligned, and a block past the last. -/
theorem test_meets_tile_lanes :
    let lane (c : Word) (f : Ctx → Nat → Bool) := (ctxOf (vs [(2, c)])).any fun x => f x (x.v 2 0).toNat
    let threads (g : Group) (q s : Nat) := g.threads.map fun e => (e.1, { e.2 with frag := some ⟨q, s⟩ })
    let frag (q s : Nat) (o : Own) := gs fun g => { g with tile := some o, threads := threads g q s }
    planeFmt 0x0300 == 0 && planeFmt 0x4300 == 1 && planeFmt 0x8000 == 2 &&
    lane 0x30000 (fun _ n => decide (nbits n 21 16 < planeChan 0x0300)) &&
    lane 0x40000 (fun _ n => decide (planeChan 0x0300 ≤ nbits n 21 16)) &&
    lane 0x10000 (fun _ n => decide (1 ≤ nbits n 21 16)) &&
    lane 0x30000 (fun x n => match x.s.loadBytes x.space x.die (lsWindow + planeOffs 0x0300 +
      (nbits n 9 0 * planeChan 0x0300 + nbits n 21 16) * 2) 2 with | .ok _ => true | _ => false) &&
    ((ctxOf base).any fun x => (x.th 0).frag.isNone) &&
    ((ctxOf (frag 0 1 own)).any fun x => (x.th 0).frag.any fun f => f.q == nbits (x.v 2 0).toNat 9 0) &&
    ((ctxOf (frag 5 1 own)).any fun x => (x.th 0).frag.any fun f => f.q != nbits (x.v 2 0).toNat 9 0) &&
    ((ctxOf (frag 0 1 { own with pending := [(0, 0, 0, 0)] })).any fun x => x.g.tile.any fun o =>
      (x.g' x.s).fragBefore o ⟨0, 1⟩) &&
    ((ctxOf (us [(2, 0x80)])).any fun x => (x.u64 2).toNat % 256 != 0) &&
    ((ctxOf (us [(2, 0x100), (3, 0x000FFFF0)])).any fun x => (x.u64 2).toNat % 256 == 0 &&
      (match x.s.loadWords x.space x.die (x.u64 2).toNat 32 with
        | .ok bs => decide (16 * DrawD.tiles (BitVec.ofNat 2048 (leNat bs)) ≤ 16)
        | _ => false)) = true := by decide +kernel

/-! ### Queues, draws and tiles -/

/-- A record that passes every check: one group of one thread, nothing held, job 0. -/
def record : Nat := 2 ^ 54 + 9 * 2 ^ 280 + 2 ^ 448
/-- `base` with queue 3 enabled on a ring of 16 slots, address space 0 valid, and r in slot 0. -/
def queue3 (r : Nat) : State :=
  ((base.putNum (queueKey 3) 32 (0x200000 + 2 ^ 56)).putNum Config.contextTable 64 1).putNum 0x200000 128 r
/-- The task of that record, some groups admitted, some live. -/
def task (next live : Nat) : Task :=
  ⟨11, 3, 0, 0, BitVec.ofNat 1024 (record + 2 ^ 63), [], [], next, 1, live, 0, 0⟩
/-- R222: no such group; one that has ended, with and without a tile; one that has not. -/
theorem test_meets_group_end :
    let ended := gs fun g => { g with threads := [] }
    let check (g : Group) (o : Option Own) := !g.replay && g.stop.isNone && g.threads.isEmpty && g.backlog.isEmpty &&
      decide (g.tile = o)
    let idle (s : State) := ((s.core 0).mq ++ (s.core 0).cq).all (fun e => e.gk != 1) && (s.core 0).seqs.all fun q => q.gk != 1
    (base.group? 0 3).isNone && (ended.group? 0 1).any (fun g => check g none) && idle ended &&
    (let s := gs fun g => { g with threads := [], tile := some { own with closed := true } }
     (s.group? 0 1).any (fun g => check g (some { own with closed := true })) && idle s) &&
    (base.group? 0 1).any (fun g => !g.replay && !g.threads.isEmpty) = true := by decide +kernel
/-- An address space 0 whose job table is at the address of R320's worked walk, with the leaf given. -/
def jobs (s : State) (leaf : Nat) : State :=
  (((((s.putNum 0x10008 8 0x20001).putNum 0x20010 8 0x30001).putNum 0x30018 8 0x40001).putNum 0x40020 8 leaf).putNum
    Config.contextTable 64 (1 + 0x10000 * 2 ^ 64 + 0x40200C045A8 * 2 ^ 192))
/-- What becomes of the count of job 0: lowered, not reached, left while its page is moved. -/
def jobIs (s : State) : List Bool :=
  match s.schedDone 0 0 with
  | .ok _ _ => [true, false, false]
  | .bad _ _ => [false, true, false]
  | .wait => [false, false, true]
/-- R267: a live task, one to be completed. -/
theorem test_meets_completion :
    let t := task 1 0
    (task 0 1).live != 0 && decide ((task 0 0).next < (task 0 0).total) && t.live == 0 && decide (t.total ≤ t.next) &&
    t.stage == 0 && Rec.signal t.lead == 0 && base.recorders.isEmpty && Rec.job t.lead == 0 &&
    jobIs (jobs base 0x7654302F) == [true, false, false] && jobIs (jobs base 0) == [false, true, false] &&
    jobIs (jobs base 0x8000007654302E) == [false, false, true] &&
    (({ base with tasks := [t] } : State).tasks.find? fun t => t.key == 11) == some t = true := by decide +kernel

/-- A primitive record of zeros with sequence number n: no pixel. -/
def prim (n : Nat) : Prim := ⟨n, 0⟩
/-- `base` with one draw. -/
def drawn (d : Draw) : State := { base with draws := [d] }
/-- A flush of tile 0. -/
def flush (todo : List Nat) : Flush := ⟨[0], todo, prim 0, [], 0, false⟩
/-- A draw of n primitives. -/
def drawOfN (n : Nat) : Draw := draw (desc n [0x8000])
/-- R277, R280: what may commit, what holds commits, flushes that complete and that wait, stalls. -/
theorem test_meets_draw_steps :
    let two := drawOfN 2
    let found (d : Draw) := decide ((drawn d).drawOf 7 = some d)
    (base.drawOf 7).isNone && found { two with killed := true } && found { two with flush := some (flush []) } &&
    (({ drawn two with mp1Open := false } : State).drawOf 7 == some two) && two.buf.isEmpty &&
    (let d := { two with buf := [(1, 0, prim 1), (0, 8, prim 0)] }
     found d && !d.killed && d.flush.isNone && (drawn d).mp1Open &&
       d.buf.find? (fun e => e.1 == d.next) == some (d.next, 8, prim 0)) &&
    (let d := (two.setTile 0 { two.tile 0 with state := .partialSaved })
     let d := { d with flush := some (flush []) }
     found d && !(flush []).stuck && (flush []).todo.isEmpty && (drawn d).mp1Open &&
       (flush []).tiles.all fun t => (d.tile t).state == .partialSaved) &&
    found two && two.flush.isNone && decide (base.clk < (flush [0]).since + 4096) &&
    (let s : State := { drawn two with clk := 2 ^ 24 }
     s.drawOf 7 == some two && decide (two.next < DrawD.prims two.desc) && decide (two.since + 2 ^ 24 ≤ s.clk)) &&
    decide (DrawD.prims two.desc ≤ { two with next := 2 }.next) && decide (base.clk < two.since + 2 ^ 24) = true := by
  decide +kernel
/-- R280: a tile for a flush and one for its final issue, each with a core; an address space not valid; no tile. -/
theorem test_meets_tile_issue :
    let d := { drawOfN 1 with record := BitVec.ofNat 1024 record }
    let fl := { d with flush := some (flush [0]) }
    let fin := { d with next := 1 }
    let ok (d : Draw) : State := { base.putNum Config.contextTable 64 1 with draws := [d] }
    fl.nextTile == some (0, false) && fin.nextTile == some (0, true) && d.nextTile.isNone &&
    (let p : Preempt := ⟨[0], 0, [.package]⟩
     let s : State := { ok fl with preempt := some p }
     (s.drawOf 7).isSome && s.preempt == some p && p.scopes.any fun sc => Scope.stopsTile sc fl 0 0) &&
    (ok fl).preempt.isNone && (drawn fl).preempt.isNone && (ok fl).mp1Open && (ok fl).ctxUsable 0 && (ok fl).tileCore fl == some 0 && !(drawn fl).ctxUsable 0 &&
    (ok fin).ctxUsable 0 && (ok fin).tileCore fin == some 0 && (ok fin).chosen == some (.tile 7) = true := by decide +kernel

/-- The local-store window address of offset n, as a number. -/
def at_ (n : Nat) : Nat := lsWindow + n
/-- A descriptor with pool, tables and TASK record in the local store: one tile, n primitives, one plane. -/
def full (n : Nat) : Nat :=
  (desc n [0x8000]).toNat + 2 ^ 128 + 2 ^ 152 + at_ 0xE00 * 2 ^ 256 + at_ 0xE00 * 2 ^ 320 + at_ 0x400 * 2 ^ 640 + 2 ^ 704
/-- `base` with that descriptor at 0x100 and its record, which starts with a granule and a page, at 0x400; lane 0
gives primitive s, of zeros, at the offset p. -/
def binning (n p s : Nat) : State :=
  ((on id (fun w => (w.setU 2 0x100).setU 3 0x000FFFF0)
    (fun t => ((t.setV 4 (BitVec.ofNat 32 p)).setV 5 0x000FFFF0).setV 6 (BitVec.ofNat 32 s))).putNum
      (lsKey 0 0x100) 256 (full n)).putNum (lsKey 0 0x400) 128 (record + 2 ^ 63 + 0x1001 * 2 ^ 64 + 0x1001 * 2 ^ 96)
/-- `s` with a draw bound at that descriptor. -/
def bound (d : Draw) (s : State) : State := { s with draws := [{ d with addr := at_ 0x100 }] }
theorem test_meets_submit :
    let va := at_ 0x100
    let b (d : Draw) := ((bound d base).boundDraw 0 va).isSome
    let d := drawOfN 2
    b d && d.accepted.isEmpty && decide (DrawD.prims d.desc ≤ (prim 2).s) &&
    (let e := { d with accepted := [⟨1, 0, 0, none⟩, ⟨0, 3, 0, none⟩] }
     b e && e.accepted.find? (fun e => e.s == 1) == some ⟨1, 0, 0, none⟩ && e.accepted.find? (fun e => e.s == 0) == some ⟨0, 3, 0, none⟩ &&
       ((base.group? 0 1).any fun g => g.gid == 0 && ((sfind g.threads 0).any fun t => t.tid == 0))) &&
    (let e := { d with buf := (List.range 256).map fun n => (n + 9, 0, prim 1) }
     b e && decide ((prim 1).s < DrawD.prims e.desc) && (prim 1).s != e.next && decide (256 ≤ (bound e base).dieBuffer 0)) &&
    b d && (prim 0).s == d.next = true := by decide +kernel

/-- R279, R281, R282, R312: a group without a tile; the visibility wave before and after; a shading wave of 33
fragments; TDONE not ready, with an entry that names tile memory, with none, and stopped between retries. -/
theorem test_meets_tile_waves :
    let s (o : Own) (t : Thread → Thread) (m : List Entry) : State :=
      { (on (fun g => { g with tile := some o }) id t).modCore 0 fun k => { k with mq := m } with draws := [drawOfN 1] }
    let tdone (t : Thread) : Thread := { t with wait := .tdone }
    let wave (s : State) (f : Group → Own → Bool) := match s.waveTile 0 1 with
      | some (g, o, _) => f g o
      | none => false
    let vis := { own with visDone := true }
    let plane := Dsc.mk lsWindow 2 3 63 3 0 0
    (base.waveTile 0 1).isNone && wave (s own id []) (fun _ o => !o.visDone) && wave (s vis id []) (fun _ o => o.visDone &&
      o.pending.isEmpty) &&
    wave (s { vis with pending := List.replicate 33 (0, 0, 0, 0) } id []) (fun _ o => o.visDone && !o.pending.isEmpty) &&
    wave (s vis id []) (fun g o => !g.tdoneReady o) &&
    (let u := s vis tdone [entry .nop plane 0]
     wave u (fun g o => g.tdoneReady o && o.drain.isNone) && decide (9 ∈ (u.core 0).planeEntries 1)) &&
    (let u := s vis tdone []
     wave u (fun g o => g.tdoneReady o && o.drain.isNone && o.stopped.isNone) && ((u.core 0).planeEntries 1).isEmpty) &&
    (let u : State := { s { vis with stopped := some 0 } tdone [] with clk := 4095 }
     wave u (fun g o => g.tdoneReady o && o.drain.isNone && o.stopped.isSome) && ((u.core 0).planeEntries 1).isEmpty &&
       u.clk % 4096 != 0) = true := by decide +kernel
/-- R283: a block of one difference, and one of no two like pixels. -/
theorem test_meets_blocks :
    let raw (l : List Nat) := (compress 5 l).1 == 0x80
    (!raw (0 :: List.replicate 63 1) && raw ((List.range 64).map fun k => k * k * 0x1234567 % 2 ^ 32)) = true := by
  decide +kernel

/-! ### Pre-emption, ranges, replays -/

/-- A group that stops for re-entry by itself, with nothing to save but its warp and thread; the first seven image
slots are taken. -/
def stopping : State :=
  (List.range 7).foldl (fun (s : State) n => s.putNum (imgKey n 0) 8 1)
    ((gs fun g => { g with vh := 0, uh := 0, pages := ([] : List Nat), slots := ([] : List Nat), record := BitVec.ofNat 1024 record
                           stop := some ⟨2, 0, 0, 1, 0, 0⟩ }).putNum Config.contextTable 64 1)
/-- A replay of tape 0 by the gang of `base`, its commands the entries l. -/
def replaying (l : List Nat) : Replay where
  key := 21
  core := 0
  gang := 1
  store := none
  header := List.replicate 384 0
  cmds := l.flatMap (leBytes 16)
  first := 0
  e := 0
  count := l.length
  nir := false
  open_ := 0
  waitOn := none
  clean := none
  asked := false
  pushing := false
  bad := []
/-- What a group of a replay leaves when it stops before its first command that cannot be done twice. -/
def left : State :=
  let s := stopping.modCore 0 fun k => { k with groups := k.groups.map fun g => { g with replay := true } }
  match exec (.swapOut 0 1) { s with replays := [replaying [0]] } with
  | .next t => t
  | .fault _ | .refused _ => stopping
/-- R21, R341: a core in and out of the pre-emption, with and without a stopping group. -/
theorem test_meets_preemption :
    let asked (l : List Nat) (f : Group → Group) : State := { gs f with preempt := some ⟨l, 0, []⟩ }
    let after (r : Request) (p : Option Preempt) : State := { base with mp3 := [r], preempt := p }
    let stop (g : Group) : Group := { g with stop := some ⟨2, 0, 0, 0, 0, 0⟩ }
    let quiet (s : State) := (s.core 0).groups.all fun g => g.stop.isNone
    base.mp3.isEmpty && !(after (.power 0 .d2) (some ⟨[0], 0, []⟩)).canTake (.power 0 .d2) && (asked [0] id).mp3.isEmpty &&
    base.preempt.isNone && Scope.covers .package 0 (placedGroup 1) && Scope.covers (.core 0) 0 (placedGroup 1) &&
    Scope.covers (.gang 0 0) 0 (placedGroup 1) && Scope.covers (.job 0 0) 0 (placedGroup 1) &&
    !(0 ∈ [3]) && (asked [0] stop |> quiet |> not) && quiet (asked [0] id) && quiet (asked [0, 3] id) &&
    (base.group? 0 1).isSome && (base.group? 0 9).isNone = true := by decide +kernel
/-- R341: a gang that does not stop, one with a push under way, one that stands, with a free slot and with none. -/
theorem test_meets_swap_out :
    let gangs (s : State) := (s.core 0).gangGroups 1
    let gone (s : State) := (((s.abandon 1 3).endFailed 0 1).drainSpills 0 fun p =>
      ((((((s.abandon 1 3).endFailed 0 1).core 0).gangGroups 1).map (·.gk)).contains p.gk))
    let held := on (fun g => { g with stop := some ⟨2, 0, 0, 0, 0, 0⟩ }) id fun t => { t with vpend := [3] }
    (gangs base).all (fun g => g.stop.isNone) && ((gangs held).findSome? (·.stop)).isSome && !(held.tapeDrain 0).standing 0 (gangs (held.tapeDrain 0)) none &&
    ((gangs stopping).findSome? (·.stop)).isSome && (stopping.tapeDrain 0).standing 0 (gangs (stopping.tapeDrain 0)) none &&
    (stopping.replayOf 1).isNone && (gone (stopping.tapeDrain 0)).freeSlots == [7] &&
    (gone ((stopping.putNum (imgKey 7 0) 8 1).tapeDrain 0)).freeSlots.isEmpty = true := by decide +kernel
/-- A range entry: v to w at the physical address p, readable and writable by all. -/
def range (v w p : Nat) : RangeEntry := BitVec.ofNat 256 (v + w * 2 ^ 64 + p * 2 ^ 128 + 31 * 2 ^ 192)
/-- A commit of the staging image at 0x40000, in the one range of the set. -/
def commit (v : Option Word) : Commit := ⟨0x40000, 0, 0, 0, 1, 0, 7, none, v⟩
/-- `base` with one range and that commit first; the image is 64 entries of zeros. -/
def committing (v : Option Word) : State :=
  { base.putNum Config.contextTable 64 1 with ranges := [(0, range 0x40000 0x42000 0x300000)], commits := [commit v] }
/-- R157-R160: an unchecked commit, verdicts of 1 and not; entries that are malformed, meet and lack backing. -/
theorem test_meets_range_commits :
    base.commits.isEmpty && (commit none).verdict.isNone && (commit (some 1)).verdict == some 1 &&
    (commit (some 0x10000)).verdict == some 0x10000 && entryBad (range 0x1001 0x2000 0) &&
    (let a := range 0x1000 0x3000 0x1000
     let b := range 0x2000 0x4000 0x9000
     entriesStatus [] 0 [a] == 1 && !entryBad b && entriesMeet b a && !entriesMeet (range 0x3000 0x4000 0) a &&
       !entryBad (range 0x3000 0x4000 (2 ^ 49)) && Range.valid (range 0x3000 0x4000 (2 ^ 49)) &&
       !entryBacked (range 0x3000 0x4000 (2 ^ 49)) && !entriesMeet (range 0x3000 0x4000 (2 ^ 49)) a) = true := by decide +kernel

/-- A MEM entry: a store of 4 bytes of d at address a. -/
def store4 (a d : Nat) : Nat := 3 + a * 2 ^ 16 + 2 * 2 ^ 68 + d * 2 ^ 80
/-- `base` with its gang in a replay of l. -/
def replays (l : List Nat) (f : Replay → Replay) : State :=
  { gs (fun g => { g with replay := true }) with replays := [f (replaying l)] }
/-- R369-R371, R382: commands of each kind, one that waits at its fence, a malformed one, one of a member without a
group, one whose entries are poisoned; a patched address. -/
theorem test_meets_replay_commands :
    let go (s : State) := match s.replays with
      | r :: _ => s.replays.find? (fun q => q.key == r.key) == some r && !(s.replayGroups r).isEmpty &&
          (s.replayGroups r).all (fun g => g.stop.isNone && g.backlog.isEmpty && g.planeLoads.isEmpty) &&
          decide (r.e < r.count) && r.waitOn.isNone
      | [] => false
    let cmd (s : State) (f : Replay → TapeCmd → Bool) := go s && match s.replays with
      | r :: _ => r.command.any fun c => f r c
      | [] => false
    let is (k : Nat) (s : State) := cmd s fun r c => c.kind == k && r.mayEnter s c && !s.tapePoison r c &&
      (s.replayGroups r).any fun g => g.member == c.member
    (List.range 8).all (fun k => (replayEvent 21 k).isSome == [2, 3, 5, 6, 7].contains k) &&
    is 2 (replays [2] id) && is 3 (replays [store4 0x100 7] id) && is 5 (replays [5] id) && is 6 (replays [6] id) &&
    is 7 (replays [7] id) && go (replays [0] id) && ((replays [0] id).replays.all fun r => r.command.isNone) &&
    (let s := replays [3 + 2 ^ 5] fun r => { r with open_ := 1 }
     cmd s fun r c => !r.mayEnter s c) &&
    (let s := replays [3 + 2 ^ 6] id
     cmd s fun r c => r.mayEnter s c && !s.tapePoison r c && (s.replayGroups r).all fun g => g.member != c.member) &&
    (let s : State := { (replays [3] fun r => { r with store := some (0, 0) }) with poison := [talonKey 0 (16 * 24) / 8] }
     cmd s fun r c => r.mayEnter s c && s.tapePoison r c) &&
    (let s := replays [store4 (lsWindow + 0x100) 7] id
     cmd s fun r c => c.kind == 3 && nbits c.e 75 68 == 2 && !nbit c.e 8 && nbits c.e 67 16 % 4 == 0 &&
       (s.replayGroups r).any fun g => match s.storeBytes (g.space 0 g.sup) 0 (nbits c.e 67 16) (leBytes 4 7) with
         | .ok _ _ => true
         | .bad _ _ | .wait => false) &&
    (let r := { replaying [] with header := List.replicate 128 0 ++ leBytes 8 (2 + 8 + 0x3000) ++ List.replicate 248 0 }
     r.patch 0 == (true, 2, 3) && decide (patchBase 0 2 + (5 - 3) < 2 ^ 52)) = true := by decide +kernel

/-! ### The package: mailbox, host, dies, links, management -/

/-- The runtime image, whose signature holds or not, its counter at the fuse. A counter below the fuse needs a fuse
above 0, which is free (log 6), so no closed image shows it. -/
def image (ok : Bool) : FwImage := ⟨.runtime, Config.antiRollback, 0, ok⟩
theorem test_meets_fw_stage : (image true).sigOk = true ∧ Config.antiRollback ≤ (image true).version ∧
    (image false).sigOk = false ∧ Caller.runtime ≠ Caller.host := ⟨rfl, Nat.le_refl _, rfl, by decide⟩
/-- R385-R389: a die in each link state; a die at T_DEAD and before, at T_WAKE and before; a link in service, down, with a
flit sent again 15 times, too long without an acknowledgement or with a class paused, and with every class paused. -/
theorem test_meets_dies_and_links :
    let die (l : DLink) (missed : Option Nat) : State := { base with dies := [⟨.d0, false, l, [], missed, none⟩], ts := 2000000 }
    let is (l : DLink) := ((die l none).dies[0]?).any fun d => d.link == l
    let wakes (t : Nat) (ts : BitVec 64) : Bool :=
      let s : State := { base with dies := [⟨.d0, false, .waking, [], none, some t⟩], ts := ts }
      (s.dies[0]?).any fun d => d.link == .waking && d.woken == some t && decide (t + 12000 ≤ s.ts.toNat)
    let link (n : Nat) (down : Bool) : LinkState := ⟨.d2d 0, 5, [⟨4, .request, n⟩], 0, [], 4, [4], [], [], down⟩
    let flits (n : Nat) (down : Bool) : State := { base with links := [link n down] }
    let resent (s : State) := ((s.sent (s.link (.d2d 0)) (4 + 1)).resend 4).buf.map (·.resent)
    let dead (m : Nat) := ((die .unresponsive (some m)).dies[0]?).any fun d => d.dead (die .unresponsive none).ts.toNat
    dead 0 && !dead 1 && (((die .unresponsive (some 0)).dies[0]?).any fun d => d.missed == some 0) &&
    wakes 5 12005 && !wakes 5 12004 &&
    (let x := (flits 0 false).link (.d2d 0)
     decide (⟨4, .request, 0⟩ ∈ x.buf) && x.next == 5 && x.late 100000 && !x.late 99999 && ({ x with buf := [], paused := [(.response, 7)] } : LinkState).late 100007 &&
       x.wire == [x.expect] && (x.buf.find? fun f => f.seq == x.expect).isSome &&
       decide (({ x with wire := [6] } : LinkState).expect < 6) && decide (3 < ({ x with wire := [3] } : LinkState).expect) &&
       !x.stopped.contains .request && ({ x with stopped := [.request] } : LinkState).stopped.contains .request &&
       (trafficClasses.all fun c => ({ x with paused := trafficClasses.map fun c => (c, 0) } : LinkState).paused.any fun p => p.1 == c)) &&
    (base.dies[8]?).isNone && is .up && is .asleep && is .waking && is .unresponsive && is .lost &&
    ((flits 0 true).link (.d2d 0)).down && !((flits 15 false).link (.d2d 0)).down &&
    (resent (flits 14 false)).all (fun n => decide (n < 16)) && (resent (flits 15 false)).any (fun n => decide (16 ≤ n)) &&
    !(base.link (.rolik 3)).down = true := by decide +kernel
/-- R386: a receiver's buffer at the threshold of a class, whatever it is, and one drained below half of it. -/
theorem test_meets_pause : ∀ c : TClass,
    (∃ l : List TClass, Config.pauseAt (classNum c) < (l.filter (· == c)).length) ∧
    2 * (([] : List TClass).filter (· == c)).length ≤ Config.pauseAt (classNum c) := fun c =>
  ⟨⟨List.replicate (Config.pauseAt (classNum c) + 1) c, by simp⟩, Nat.zero_le _⟩
/-- The 16 Rolik ports, all down, or all with pushes paused: whichever a request is routed over (R328). -/
def ports (down : Bool) : State :=
  { gs (fun g => { g with jtab := 0x40000 }) with
    ranges := [(0, range 0x40000 0x42000 0x300000)]
    links := (List.range 16).map fun n => ⟨.rolik n, 0, [], 0, [(.enqueue, 0)], 0, [], [], [], down⟩ }
theorem test_meets_ports : (ports true).routeDown 5 = true ∧ (ports false).routeDown 5 = false ∧
    (ports false).routePaused 5 .enqueue = true ∧ ((ctxOf (ports true)).any fun x =>
      match (ports true).pushDone ⟨5, 3, 0, x.g.ctx, x.g.root, x.g.jtab + 8 * Rec.job 0, x.core, x.g.gk, x.slotOf 0,
        (x.th 0).winbase.toNat * 8 + 1, x.slot, 0, 5 * 1024 + 3, true, none⟩ with
      | .ok _ _ => nbits (5 * 1024 + 3) 27 10 == 5 && nbits (5 * 1024 + 3) 8 0 == 3
      | .bad _ _ | .wait => false) = true := by
  have h : ∀ (f : Nat → Bool), (∀ n < 16, f n = true) → ∀ s : State, ∀ k, f (s.choose k 16) = true := fun f hf s k =>
    hf _ (Nat.mod_lt _ (by decide))
  refine ⟨h (fun n => ((ports true).link (.rolik n)).down) (by decide) _ _,
    Bool.not_eq_true' _ |>.mp (h (fun n => !((ports false).link (.rolik n)).down) (by decide) _ _),
    h (fun n => (ports false).classPaused (.rolik n) .enqueue) (by decide) _ _, by decide +kernel⟩
/-- Images for every stage: good ones, and the second stage before a runtime whose signature fails. -/
def images (ok : Bool) : State := { base with staged := [{ image true with which := .secondStage }, image ok,
  { image true with which := .talon }, { image true with which := .scheduler }] }
theorem test_meets_boot : (images true).upper = 0xFF ∧
    (∀ i ∈ (images true).resetImages, i.sigOk = true ∧ Config.antiRollback ≤ i.version) ∧
    (∃ post, (images false).resetImages = [{ image true with which := .secondStage }] ++ image false :: post) ∧
    ((images true).staged.find? fun i => i.which == .runtime) = some (image true) := by
  refine ⟨rfl, ?_, ⟨_, rfl⟩, rfl⟩
  have h : (images true).resetImages = [{ image true with which := .secondStage }, image true,
    { image true with which := .talon }, { image true with which := .scheduler }] := rfl
  simp [h, image]
/-- R21, R323, R384, R437, R438, R441: addresses inside LPDDR and outside, of a line that one L2 holds; a boot whose hardware
fails in a stage; a pre-emption that collects; a die asleep, idle, hot or with D2 asked for, and every die forced. -/
theorem test_meets_management :
    isLpddr (lpddrEnd - 1) = true ∧ isLpddr lpddrEnd = false ∧ Memory.wf base.mem = true ∧ base.upper = 0xFF ∧
    isEdge 0x3000 = false ∧ isEdge (2 ^ 50) = true ∧
    ({ base with edge := [EdgeLine.mk 3 ((2 ^ 50) / 128) [] [] []] } : State).edge.filter (fun e => e.line == (2 ^ 50) / 128) =
      [EdgeLine.mk 3 ((2 ^ 50) / 128) [] [] []] ∧
    base.bootFault = none ∧ ({ base with bootFault := some 2 } : State).bootFault = some 2 ∧
    ({ base with preempt := some ⟨[0], 0, []⟩ } : State).preempt.isSome = true ∧ base.preempt = none ∧ base.mp3 = [] ∧
    ({ base with dies := [⟨.d2, true, .asleep, [], none, none⟩] } : State).dies[0]? = some ⟨.d2, true, .asleep, [], none, none⟩ ∧
    ({ base with dies := [⟨.d2, true, .up, [], none, none⟩] } : State).dies[0]? = some ⟨.d2, true, .up, [], none, none⟩ ∧
    base.dies[7]? = some Die.reset ∧ Die.reset.link = .up ∧ Die.reset.want ≠ .d2 ∧ Die.reset.hot = false ∧ base.busyCores 7 = [] ∧
    base.forcedCurrent = false ∧ base.forcedFlow = false ∧ ({ base with forcedFlow := true } : State).forcedFlow = true :=
  ⟨by decide +kernel, by decide +kernel, by decide +kernel, rfl, by decide +kernel, by decide +kernel, by decide +kernel,
    rfl, rfl, rfl, rfl, rfl, rfl, rfl, rfl, rfl, by decide, rfl, by decide +kernel, rfl, rfl, rfl⟩

/-- R325: the function that the statement of the responder's answers names. -/
theorem test_meets_spdm : ∀ b, (fun b => ({ base with spdmOut := base.spdmOut ++ [⟨b, Config.sign b.bytes⟩] } : State)) b =
    { base with spdmOut := base.spdmOut ++ [⟨b, Config.sign b.bytes⟩] } := fun _ => rfl
/-- R267, R303: a push by a peer that an export record lets push, into an empty ring. -/
theorem test_meets_remote_push :
    let s := (((base.putNum (queueKey 3) 32 (0x200000 + 2 ^ 56)).putNum Config.contextTable 64 (1 + 0x40000 * 2 ^ 192)).putNum
      Config.exportTable 16 (5 + 2 ^ 18 + 2 ^ 21))
    (match State.takePush { s with ranges := [(0, range 0x40000 0x42000 0x300000)] } 5 3 (leBytes 128 record) with
      | .ok _ taken => taken
      | .bad _ _ | .wait => false) = true := by
  decide +kernel

/-! ### The machine as a whole -/

/-- R50, R238: a word that decodes, a word that does not, an event; a set that issues; a set of no pipe and no
recording that reads no register an engine writes. -/
theorem test_meets_step :
    let s := State.reset.withFetchWord 32 0x30500005
    let t : State := { s with agenda := [] }
    s.powered && s.agenda == [.issue 0 0 1] && (match t.issuingSet 0 0 1 with
      | some x => x.deliver.isNone && x.lanes == 1 && (match x.fetch with
        | .ok w => (match decode w with | .ok _ => true | .error _ => false)
        | .bad _ | .wait => false) && (match x.s.translate x.space .fetch x.pc.toNat with
        | .ok y => !x.s.dataBad x.die y 4 && x.s.stale.all fun e => e.1 != y.key
        | .bad _ | .wait => false) && (x.s.core x.core).pipes.isEmpty && (x.s.recorderOf x.g.gang).isNone &&
          x.w.tokw.isEmpty
      | none => false) &&
    (match decode 0 with | .ok _ => false | .error _ => true) &&
    (let u := on id id fun t => { t with wait := .retry (.bar 0) 7 }
     (({ u with agenda := [.retry 0 0 1] } : State).agenda == [.retry 0 0 1]) && match u.waitingSet 0 0 1 with
      | some (x, i) => x.lanes == 1 && decide (i = .bar 0)
      | none => false) &&
    (({ base with agenda := [.event .telemetry] } : State).agenda == [.event .telemetry]) && base.powered = true := by
  decide +kernel
/-- R26, R29, R30, R39, R46, R132, R382: what stops a word, one at a time and after everything before it. -/
theorem test_meets_stops :
    let w (f : Warp → Warp) := on id f id
    let st (i : Instr) (s : State) (c : Ctx → Opnds → Bool) := (encode i).isSome &&
      (ctxOf s).any fun x => c x (opndsOf i)
    let free (i : Instr) (x : Ctx) (o : Opnds) := x.held o && x.tilesOk o && !x.mtsLanes i
    let add : Instr := .iaddi 1 2 3
    let pipes (wait : Bool) : State := (beside id { placedGroup 2 with gang := 1, member := 1 }).modCore 0 fun k =>
      { k with pipes := [⟨1, 7, if wait then 1 else 2, 0, 2, 2, 1, [(0, [])]⟩] }
    let clear (i : Instr) (x : Ctx) (o : Opnds) := free i x o && !o.priv && (x.failed o).isNone && (x.pendingU i o).isEmpty
    st add (gs fun g => { g with vh := 1 }) (fun x o => !x.held o) &&
    st (.accRd 0 1 none none) (w fun v => v.setT 1 (BitVec.ofNat 128 (2 ^ 127))) (fun x o => !x.tilesOk o) &&
    st (.mts 1 ⟨.lane, 0, false⟩) base (fun x _ => x.mtsLanes (.mts 1 ⟨.lane, 0, false⟩)) &&
    st .tret (gs fun g => { g with sup := false }) (fun x o => free .tret x o && o.priv && !x.sup) &&
    st (.xmov .sv false 1 2) (w fun v => { v with failTok := [(2, 5)] }) (fun x o => free (.xmov .sv false 1 2) x o &&
      x.failed o == some (2, 5)) &&
    st (.xmov .sv false 1 2) (w fun v => { v with upend := [2] }) (fun x o => (x.failed o).isNone &&
      !(x.pendingU (.xmov .sv false 1 2) o).isEmpty) &&
    st (.xmov .sv false 1 2) (on id (fun v => { v with upend := [2] }) fun t => { t with vpend := [1] }) (fun x o =>
      (x.failed o).isNone && !(x.pendingU (.xmov .sv false 1 2) o).isEmpty && x.pendingV o) &&
    st add (on id id fun t => { t with vpend := [2] }) (fun x o => clear add x o && x.pendingV o) &&
    st add (on id id fun t => { t with vpoison := [2] }) (fun x o => clear add x o && !x.pendingV o && x.readsPoison o) &&
    st add (pipes false) (fun x o => clear add x o && !x.pendingV o && !x.readsPoison o &&
      (x.pipeBlocked o).any x.partnerGone) &&
    st add (pipes true) (fun x o => clear add x o && !x.pendingV o && !x.readsPoison o &&
      !(x.pipeBlocked o).isEmpty && (x.pipeBlocked o).all fun q => !x.partnerGone q) = true := by decide +kernel
/-- R332-R338: a lane in no sub-warp, and one in a sub-warp; causes without PAGE, with it, a single step. -/
theorem test_meets_handlers :
    let sub (s : State) := (s.group? 0 1).bind fun g => (g.warp? 0).map fun w => (g.stop.isNone,
      w.subOf ((maskLanes 1).headD 0), !(w.cause &&& Cause.notes).getLsbD Cause.page)
    sub base == some (true, none, true) && sub handler == some (true, some ⟨1, Cause.bit Cause.brk, 0x2000, true⟩, true) &&
    Cause.bit Cause.dataerr &&& (Cause.bit Cause.brk ||| Cause.bit Cause.step) == 0 &&
    !(Cause.bit Cause.dataerr).getLsbD Cause.page && (Cause.bit Cause.page).getLsbD Cause.page &&
    ((base.group? 0 1).bind fun g => (g.warp? 0).bind fun w => (w.tslot 0).bind fun t => sfind g.threads t).isSome =
      true := by decide +kernel
/-- The frames: the words of each statement run in `base`, where no pipe is declared and nothing recorded. -/
theorem test_meets_frames :
    let i : Instr := .iadd .s32 true 1 2 3
    registerWord i && i.wellFormed && meets i base (fun x => (x.s.core x.core).pipes.isEmpty &&
      (x.s.recorderOf x.g.gang).isNone) && (encode i).isSome && !mayStore i && base.recorders.isEmpty &&
    risingFrom 0 ((placedThread.setV 9 1).setV 3 2).vr && risingFrom 0 (((Warp.new 0 [] 0).setU 9 1).setU 3 2).ur &&
    (match exec i base with | .next _ => true | .fault _ | .refused _ => false) = true := by decide +kernel

/-! ### Numbers: a value in each case of the statements about conversions, functions, sums and atomics -/

/-- R102, R103: formats and integer types; infinities, NaNs and finite values; the ends of the integer types. -/
theorem test_meets_fcvt_values :
    cvtFmt .f32 = some .f32 ∧ cvtFmt .e5m2 = some .e5m2 ∧ 0xFB < 2 ^ Fmt.e5m2.size ∧ Fmt.e5m2.decode 0xFB ≠ .nan ∧
    Fmt.e4m3.decode (0x17F % 2 ^ Fmt.e4m3.size) = .nan ∧ Fmt.f16.decode (0xFC00 % 2 ^ Fmt.f16.size) = .inf true ∧
    Fmt.f16.decode (0x7C00 % 2 ^ Fmt.f16.size) = .inf false ∧ isFinite (Fmt.f16.decode (1 % 2 ^ Fmt.f16.size)) ∧
    intHeld (-128, 127) 0x180 (-128) ∧ intHeld (0, 255) 0x1FF 255 ∧ intHeld (-2147483648, 2147483647) 128 128 ∧
    -128 ≤ (-128 : Int) ∧ (127 - -128 + 1 : Int) ∣ 128 - -128 := by
  simp only [intHeld, isFinite]
  decide +kernel
/-- R81: a rounding in each mode, at a tie. -/
theorem test_meets_roundings : roundsTo .rn (5 / 2) 2 ∧ roundsTo .rz (-5 / 2) (-2) ∧ roundsTo .rp (5 / 2) 3 ∧
    roundsTo .rm (-5 / 2) (-3) := by
  refine ⟨⟨by norm_num [abs_of_nonneg], fun _ => by decide⟩, ?_, ?_, ?_⟩ <;> norm_num [roundsTo, Int.floor_eq_iff, Int.ceil_eq_iff]
/-- R104: operands that are NaN, infinite, zero and negative, a power of two, an integer at 511, a half, a square, and
quotients of each kind. -/
theorem test_meets_sfu_values :
    Fmt.f16.decode 0x7E00 = .nan ∧ Fmt.f32.decode 0x80000000 = .fin true 0 (-149) ∧ Fmt.f32.decode 0 = .fin false 0 (-149) ∧
    Fmt.f32.decode 0xFF800000 = .inf true ∧ Fmt.f32.decode 0x7F800000 = .inf false ∧
    Fmt.f32.decode 0xBF800000 = .fin true 8388608 (-23) ∧ Fmt.f32.decode 1 = .fin false (2 ^ 0) (-149) ∧
    Fmt.f32.decode 0x3F800000 = .fin false (2 ^ 23) (-23) ∧
    Fmt.f32.decode 0x43FF8000 = .fin false 16744448 (-15) ∧ ((511 : Int) : ℚ) = (16744448 : Nat) * (2 : ℚ) ^ (-15 : Int) ∧
    Fmt.f32.decode 0x3F000000 = .fin false 8388608 (-24) ∧ (2 * (0 : Int) + 1 : ℚ) = 2 * ((8388608 : Nat) * (2 : ℚ) ^ (-24 : Int)) ∧
    Fmt.f32.decode 0x40800000 = .fin false 8388608 (-21) ∧ (2 * 2 : ℚ) = (8388608 : Nat) * (2 : ℚ) ^ (-21 : Int) ∧
    Fmt.f32.decode 0x40C00000 = .fin false 12582912 (-21) ∧ Fmt.f32.decode 0x40400000 = .fin false 12582912 (-22) ∧
    ((2 : Nat) : ℚ) * (2 : ℚ) ^ (0 : Int) * ((12582912 : Nat) * (2 : ℚ) ^ (-22 : Int)) =
      (12582912 : Nat) * (2 : ℚ) ^ (-21 : Int) := by
  refine ⟨?_, ?_, ?_, ?_, ?_, ?_, ?_, ?_, ?_, by norm_num, ?_, by norm_num, ?_, by norm_num, ?_, ?_, by norm_num⟩ <;> decide +kernel
/-- R106: sums that are not 0 and that are, a NaN, infinity by 0, an infinite product and d of the other sign, d alone. -/
theorem test_meets_dot_values :
    let el (v i : Nat) : FVal := Fmt.f16.decode (v / 2 ^ (16 * i) % 2 ^ 16)
    dotFmt .f16 = some .f16 ∧ dotFmt .z8 = none ∧
    (∀ i, i < 2 → isFinite (el 0x3C003C00 i)) ∧ isFinite (Fmt.f32.decode 0) ∧
    (ratOf (Fmt.f32.decode 0) + ((List.range 2).map fun i => ratOf (el 0x3C003C00 i) * ratOf (el 0x3C003C00 i)).sum ≠ 0) ∧
    (ratOf (Fmt.f32.decode 0) + ((List.range 2).map fun i => ratOf (el 0 i) * ratOf (el 0x3C003C00 i)).sum = 0) ∧
    (∀ e, Fmt.f32.decode 0 ≠ .fin true 0 e) ∧ Fmt.f32.decode 0x7FC00000 = .nan ∧ el 0x7E000000 1 = .nan ∧
    el 0x7C00 0 = .inf false ∧ el 0x8000 0 = .fin true 0 (-24) ∧ el 0xC000 0 = .fin true 1024 (-9) ∧
    Fmt.f32.decode 0x7F800000 = .inf (false == true) ∧ Fmt.f32.decode 0xFF800000 = .inf true := by
  have h0 : Fmt.f32.decode 0 = .fin false 0 (-149) := by decide +kernel
  have z (i : Nat) (h : i < 2) : Fmt.f16.decode (0 / 2 ^ (16 * i) % 2 ^ 16) = .fin false 0 (-24) := by
    interval_cases i <;> decide +kernel
  have o (i : Nat) (h : i < 2) : Fmt.f16.decode (0x3C003C00 / 2 ^ (16 * i) % 2 ^ 16) = .fin false 1024 (-10) := by
    interval_cases i <;> decide +kernel
  have sum2 (f : Nat → ℚ) : ((List.range 2).map f).sum = f 0 + f 1 := by simp [List.range_succ]
  refine ⟨rfl, rfl, fun i h => by simp only [o i h]; rfl, by rw [h0]; rfl, ?_, ?_, by simp [h0], ?_⟩
  · simp only [sum2, h0, o 0 (by decide), o 1 (by decide)]; norm_num [ratOf]
  · simp only [sum2, h0, z 0 (by decide), z 1 (by decide)]; norm_num [ratOf]
  · decide +kernel
/-- R110: a set whose values are finite, with a sum that is not 0 and one that is; both infinities, one, and a NaN. -/
theorem test_meets_wred_values : (List.all [[0x3F800000, 0x3F800000], [0x80000000, 0x80000000], [0x7F800000, 0xFF800000],
      [0x7F800000, 0], [0x7FC00000, 0]] fun p => (ctxOf (lanes 2 fun l => [(2, BitVec.ofNat 32 (p.getD l 0))])).any fun x =>
        decide (x.ls.map (fun l => (x.v 2 l).toNat) = p)) ∧
    ([0x3F800000, 0x3F800000].map fun v => ratOf (Fmt.f32.decode v)).sum ≠ 0 ∧
    ([0x80000000, 0x80000000].map fun v => ratOf (Fmt.f32.decode v)).sum = 0 := by
  have h1 : Fmt.f32.decode 0x3F800000 = .fin false 8388608 (-23) := by decide +kernel
  have h2 : Fmt.f32.decode 0x80000000 = .fin true 0 (-149) := by decide +kernel
  refine ⟨by decide +kernel, ?_, ?_⟩ <;> simp [h1, h2, ratOf]
/-- R200, R201: values of either order, equal with opposite signs, infinite and NaN. -/
theorem test_meets_atom_values :
    Fmt.f32.decode 0x7FC00000 = .nan ∧ Fmt.f32.decode 0x7F800000 = .inf false ∧ Fmt.f32.decode 0xFF800000 = .inf (!false) ∧
    isFinite (Fmt.f32.decode 0x3F800000) ∧ isFinite (Fmt.f32.decode 0xBF800000) ∧
    ratOf (Fmt.f32.decode 0xBF800000) < ratOf (Fmt.f32.decode 0x3F800000) ∧
    ratOf (Fmt.f32.decode 0x3F800000) + ratOf (Fmt.f32.decode 0xBF800000) = 0 ∧
    ratOf (Fmt.f32.decode 0x3F800000) + ratOf (Fmt.f32.decode 0x3F800000) ≠ 0 := by
  have h1 : Fmt.f32.decode 0x3F800000 = .fin false 8388608 (-23) := by decide +kernel
  have h2 : Fmt.f32.decode 0xBF800000 = .fin true 8388608 (-23) := by decide +kernel
  refine ⟨by decide +kernel, by decide +kernel, by decide +kernel, by rw [h1]; rfl, by rw [h2]; rfl, ?_, ?_, ?_⟩ <;>
    norm_num [h1, h2, ratOf]
/-- R117, R119: a pass of one product that is not 0 and of one that is; an accumulator that is NaN; a weight's NaN scale; a
group of 64 under one scale. -/
theorem test_meets_pass_values :
    let one : Raw := (0x3F800000, 0, 0)
    let ws : List Raw := (List.range 64).map fun i => (i % 16, 1, 0x3F800000)
    let xs : List Raw := (List.range 64).map fun _ => one
    isFinite (rawVal 2 one) ∧ isFinite (rawVal 3 (0x3C00, 0, 0)) ∧ isFinite (Fmt.f32.decode 0) ∧
    Fmt.f32.decode 0x7FC00000 = .nan ∧ (∀ e, Fmt.f32.decode 0 ≠ .fin true 0 e) ∧ Fmt.e4m3.decode 0x38 ≠ .nan ∧
    ratOf (Fmt.f32.decode 0) + (([one].zip [(0x3C00, 0, 0)]).map fun (p : Raw × Raw) =>
      ratOf (rawVal 2 p.1) * ratOf (rawVal 3 p.2)).sum ≠ 0 ∧
    ratOf (Fmt.f32.decode 0) + (([one].zip [((0, 0, 0) : Raw)]).map fun (p : Raw × Raw) =>
      ratOf (rawVal 2 p.1) * ratOf (rawVal 3 p.2)).sum = 0 ∧
    xs.length = 64 ∧ ws.length = 64 ∧ (∀ w ∈ ws, w.2 = (1, 0x3F800000)) ∧ (∀ x ∈ xs, isFinite (rawVal 2 x)) ∧
    isFinite (Fmt.f32.decode 0x3F800000) := by
  have h0 : Fmt.f32.decode 0 = .fin false 0 (-149) := by decide +kernel
  have h1 : rawVal 2 (0x3F800000, 0, 0) = .fin false 8388608 (-23) := by decide +kernel
  have h2 : rawVal 3 (0x3C00, 0, 0) = .fin false 1024 (-10) := by decide +kernel
  have h3 : rawVal 3 (0, 0, 0) = .fin false 0 (-24) := by decide +kernel
  refine ⟨by rw [h1]; rfl, by rw [h2]; rfl, by rw [h0]; rfl, by decide +kernel, by simp [h0], by decide +kernel, ?_, ?_,
    rfl, rfl, by decide +kernel, ?_, by simp only [isFinite]; decide +kernel⟩
  · simp [h0, h1, h2, ratOf]
  · simp [h0, h1, h3, ratOf]
  · simp only [isFinite]; decide +kernel

/-! ### Effects and waits of the engines, the Talon, the scheduler and the LCEs -/

/-- R113-R119, R138-R141: each operation of the matrix engine with its effect, MSTR on each column group of a plane of
32-bit elements too, with the accumulators and the poison that the statements ask for; an element that a tile names. -/
theorem test_meets_matrix_effects :
    let plane (f kw nw : Nat) : Plane := ⟨f, kw, nw, List.replicate kw (List.replicate nw (0x3C00, 0, 0)), 0⟩
    let res (p : Option Plane) (i : Instr) (d : Desc) : Bool :=
      let e := entry i d 0
      let s := ks fun k => { k with mq := [e], act := p, acc := [(4096 * 3, 7)] }
      (s.group? 0 1).any (fun g => match s.matrixEffect 0 g e.op with | .ok _ => true | _ => false) &&
        risingFrom 0 (s.core 0).acc && s.noPoison
    let wide := Dsc.mk lsWindow 0 2 0 3 16 0
    res none (.ldw 0 none none) small && res (some (plane 3 4 64)) (.mstr 3 0 false false none none) small &&
    res (some (plane 2 4 32)) (.mstr 3 0 true true none none) wide && res none (.accRd 3 0 none none) small &&
    res none (.accRd 3 0 none none) wide && res none (.accWr 3 0 none none) small && Dsc.fmtsel small == 3 &&
    decide (4 ≤ widestPlane 3 ∧ 64 ≤ widestPlane 3 ∧ 32 ≤ widestPlane 2) && Dsc.layout small == 0 && decide (Dsc.rows small ≤ 63) &&
    decide (Dsc.cols small ≤ 63) && (tileCells small).contains (0, 3) && (base.group? 0 1).any (fun g =>
      match base.translate (g.space 0 g.sup) .load (tilePos small 16 0 3).1 with
      | .ok x => x.fmt == 0 && !x.lost && !isEdge x.key && (tilePos small 16 0 3).1 % 2 == 0
      | .bad _ | .wait => false) && (List.range 1024).all (fun c => (base.core c).spills.isEmpty) = true := by
  decide +kernel
/-- R206: a raw copy and one that converts, between tiles of 16-bit elements in the group's own window, at a chunk. -/
theorem test_meets_copies_move :
    let to_ := Dsc.mk (lsWindow + 64) 0 5 0 3 8 0
    [(CopyFn.raw, Dsc.mk (lsWindow + 64) 0 3 0 3 8 0), (.cvt, Dsc.mk (lsWindow + 64) 0 4 0 3 8 0), (.cvtSat, Dsc.mk (lsWindow + 64) 0 6 0 3 8 0)].all
      (fun (fn, to_) =>
        let f : Probe := ⟨none, none, 3, Dsc.fmtsel to_, []⟩
        let e := { entry (.acpy fn 3 0 1 none) to_ small with probed := some f }
        let s := (queued [] [e]).put (lsKey 0 0) [0x00, 0x3C, 0x00, 0xC0]
        let n := elemBits (Dsc.fmtsel to_) / 8
        let from_ (r c : Nat) := (tilePos small 16 r c).1
        let at_ (r c : Nat) := (tilePos to_ (elemBits (Dsc.fmtsel to_)) r c).1
        let cells := ((tileCells to_).drop 0).take (4096 / n)
        (s.core 0).copyHead 3 == some e && s.noPoison && cells.length == 4 && (s.group? 0 1).any (fun g =>
          g.stop.isNone && cells.all fun (r, c) => from_ r c % 2 == 0 && at_ r c % n == 0 &&
            (match s.translate (g.copySpace 0 e) .load (from_ r c) with
              | .ok x => !x.lost && x.fmt == 0 && !isEdge x.key
              | .bad _ | .wait => false) &&
            (upto (at_ r c) n).all fun va => match s.translate (g.copySpace 0 e) .store va with
              | .ok x => !x.lost && x.fmt == 0
              | .bad _ | .wait => false) &&
        (match exec (.copyChunk 0 3) s with
          | .next t => (t.core 0).cq.isEmpty && t.bytes (lsKey 0 64) (2 * n) ==
              (match fn with | .raw => [0x00, 0x3C, 0x00, 0xC0] | .cvt => [0x80, 0x3F, 0x00, 0xC0] | _ => [0x3C, 0xC0])
          | .fault _ | .refused _ => false)) && Dsc.fmtsel to_ == 5 = true := by decide +kernel
/-- R135: a sequencer of a gang that reloads a plane, and of one that has a saved entry to enter. -/
theorem test_meets_entering :
    let s (f : Group → Group) := (gs f).modCore 0 fun k => { k with seqs := [seq false] }
    !((s id).core 0).entering 1 && ((s fun g => { g with planeLoads := [(false, small, none)] }).core 0).entering 1 &&
    ((s fun g => { g with backlog := [entry .nop 0 0] }).core 0).entering 1 &&
    ((s id).group? 0 1).any (fun g => g.gang == 1) = true := by decide +kernel
/-- R382: a poisoned directory record, an operation on it with a destination and one without, a clean directory. -/
theorem test_meets_tape_poison :
    let lost : State := { base with poison := [entryKey 0 3 / 8] }
    let op (d : Nat) : TapeOp := ⟨0, 3, .off, 0, 1, 0, d⟩
    let sent (d : Nat) : State := { lost with tapeOps := [op d] }
    lost.poisoned (entryKey 0 3) 8 && !base.poisoned (entryKey 0 3) 8 && lost.tapeHead 0 == none &&
    ([TapeKind.arm 64 25 0, .off, .query].all fun k => lost.tapeLost 0 3 k && !base.tapeLost 0 3 k) &&
    base.poison.isEmpty && [4, goneReg].all (fun d => (sent d).tapeHead 0 == some (op d) && (sent d).tapeLost 0 3 .off) =
      true := by decide +kernel
/-- R222: an ended group with a primitive that is accepted and not committed, and with a committed one. -/
theorem test_meets_uncommitted :
    let s (next : Nat) : State :=
      { gs (fun g => { g with threads := [] }) with draws := [{ drawOfN 2 with next := next, accepted := [⟨0, 0, 0, none⟩] }] }
    [0, 1].all (fun n => ((s n).group? 0 1).any fun g => g.task == none && g.gid == 0 && g.ctx == 0 &&
      (s n).uncommitted g (fun _ => true) == decide (n = 0)) = true := by decide +kernel
/-- R269, R382: a task with a place, its launch decision clear and on a poisoned directory record, and one with none. -/
theorem test_meets_placing :
    let s : State := { queue3 (2 ^ 63 + record) with tasks := [task 0 0] }
    let t := task 0 0
    ((s.placing t).any fun u => u.beyond t) && (({ s with dies := [] } : State).placing t).isNone = true := by decide +kernel
theorem test_meets_placing_lost :
    let s : State := { queue3 (2 ^ 63 + record) with tasks := [task 0 0], poison := [entryKey 0 0 / 8] }
    let t := task 0 0
    s.taskReady t = .yes ∧ s.mp1Open = true ∧ ((s.placing t).any fun u => !u.beyond t) = true :=
  ⟨by decide +kernel, by decide +kernel, by decide +kernel⟩
/-- R321, R322: a draw whose pool's block is on a page of R320's worked walk: mapped, not mapped, and being moved. -/
theorem test_meets_pool :
    let d := { drawOfN 2 with desc := (drawOfN 2).desc ||| BitVec.ofNat 2048 (0x40200C03000 * 2 ^ 64) }
    let ready (leaf : Nat) := (jobs base leaf).poolReady d [(1, 0)]
    let e := { d with tiles := [(0, { d.tile 0 with recs := [prim 0], blocks := [1] })] }
    (match ready 0x7654302F with | .ok _ => true | _ => false) &&
    (match ready 0 with | .page va => va == 0x40200C04000 && d.stopped != some va | _ => false) &&
    (match ready 0x8000007654302E with | .wait => true | _ => false) && d.added e == [(1, 0)] &&
    (let x := { d with stopped := some 0x40200C04000, buf := [(0, 8, prim 0)] }
     let s : State := { drawn x with clk := 1 }
     s.drawOf 7 == some x && s.clk % 4096 != 0) = true := by decide +kernel
/-- R321: a push by a peer whose job count is on a page that is being moved. -/
theorem test_meets_push_waits :
    let s := (jobs (base.putNum (queueKey 3) 32 (0x200000 + 2 ^ 56)) 0x8000007654302E).putNum Config.exportTable 16
      (5 + 2 ^ 18 + 2 ^ 21)
    (match s.takePush 5 3 (leBytes 128 record) with
      | .wait => true
      | .ok _ _ | .bad _ _ => false) = true := by decide +kernel
/-- R438: a request that waits before a power state that waits; R437: a boot whose firmware is never ready. -/
theorem test_meets_follow :
    let s : State := { base with preempt := some ⟨[0], 0, []⟩, mp3 := [.power 0 .d2] }
    s.mp3 == [.power 0 .d2] && !s.canTake (.power 0 .d2) && ({ base with bootFault := some 4 } : State).bootFault == some 4 =
      true := by decide +kernel
/-- R142: a handle whose table lies in device memory. -/
theorem test_meets_shape_touch : base.ranges = [] ∧ ((ctxOf base).any fun x => (List.range 128).all fun k =>
    match x.s.translate x.space .load (x.g.htab + k) with
    | .ok e => !isEdge e.key
    | .bad _ | .wait => true) = true := by decide +kernel

/-! ### The tests that take the kernel longest -/

/-- R303, R304, R267: a record that is not 128-byte aligned, a queue word with a reserved bit, an acknowledgement. -/
theorem test_meets_submission :
    meets (.enq 1 2 4) (vs [(2, 0x80), (3, 0x000FFFF0), (4, 0x10000000)]) (fun x =>
      (x.v64 2 0).toNat % 128 == 0 && qwordBad (x.v 4 0).toNat && (match x.s.loadWords x.space x.die (x.v64 2 0).toNat 16 with
        | .ok bs => bs.length == 128 | _ => false)) &&
    meets (.enq 1 2 4) (vs [(2, 0x40)]) (fun x => (x.v64 2 0).toNat % 128 != 0) &&
    (match ({ base with pushes := [push] } : State).pushes with
      | p :: _ => (base.group? p.core p.gk).any fun g => !g.replay && (base.recorderOf g.gang).isNone
      | [] => false) && base.pushes.isEmpty &&
    (match base.takePush 3 511 [] with | .ok _ taken => !taken | _ => false) && !base.exported 3 21 0 0 &&
    (let s (leaf : Nat) := (((base.putNum 0x10008 8 0x20001).putNum 0x20010 8 0x30001).putNum 0x30018 8 0x40001).putNum
        0x40020 8 leaf
     (match (s 0x7654302F).pushDone push with | .ok _ _ => true | _ => false) && push.answer.isNone && push.live &&
     (match (s 0x7654302F).pushDone { push with answer := some true } with | .ok _ _ => true | _ => false) &&
     (match (s 0x8000007654302E).pushDone push with | .wait => true | _ => false)) = true := by decide +kernel
/-- R354-R358, R401, R402. -/
theorem test_meets_tapes :
    let clean (s : State) (n : Nat) := Dir.state (s.entry 0 n) != 2 && Dir.users (s.entry 0 n) == 0
    Dir.state ((tape 3 (Dir.mk 2 0 0 64 25)).entry 0 3) == 2 && Dir.users ((tape 3 (Dir.mk 1 0 1 64 25)).entry 0 3) == 1 &&
    clean base 3 && clean (tape 4 (Dir.mk 1 0 0 88 25)) 3 &&
    (let s := tape 4 (Dir.mk 1 0 0 88 25)
     Dir.state (s.entry 0 4) != 0 && decide (64 < Dir.base (s.entry 0 4) + Dir.cap (s.entry 0 4)) &&
       decide (Dir.base (s.entry 0 4) < 64 + 25) && !s.tapeClash 0 3 113 25 && s.tapeClash 0 3 64 25) &&
    !base.tapeClash 0 3 65511 25 && nbits (2 ^ 152) 255 152 != 0 && decide (4 < nbits (5 * 2 ^ 128) 130 128) &&
    (let op : TapeOp := ⟨0, 63, .off, 0, 1, 0, 4⟩
     (({ base with tapeOps := [op] } : State).tapeHead 0 == some op) && (base.tapeHead 0).isNone) &&
    ([Instr.tapeOff 4 2, .tapeQry 4 2].all fun i =>
      meets i (u2 base 63) (fun x => decide ((x.u 2).toNat < 64)) &&
      meets i (u2 base 64) (fun x => decide (64 ≤ (x.u 2).toNat))) &&
    meets (.tapeArm 1 4 2) (us [(2, 63), (4, 0x20), (5, 0x000FFFF0)]) (fun x => decide ((x.u 2).toNat < 64) &&
      (x.u64 4).toNat % 32 == 0 && (match x.s.loadWords x.space x.die (x.u64 4).toNat 4 with
        | .ok _ => true | _ => false)) &&
    meets (.tapeArm 1 4 2) (us [(2, 64)]) (fun x => decide (64 ≤ (x.u 2).toNat)) &&
    meets (.tapeArm 1 4 2) (us [(2, 63), (4, 0x10)]) (fun x => decide ((x.u 2).toNat < 64) && (x.u64 4).toNat % 32 != 0) =
      true := by decide +kernel
/-- R264, R267: a disabled and a poisoned queue descriptor; a valid ring whose record has no VALID, breaks R264 (UNITS
0), and passes. -/
theorem test_meets_record_check :
    let ok (s : State) (f : BitVec 1024 → Bool) := !s.poisoned (queueKey 3) 32 && nbit (s.queue 3) 56 &&
      s.tasks.all (fun t => !(t.q == 3 && t.index == nbits (s.queue 3) 95 64 && decide (t.next < t.total))) && ringOk (s.queue 3) && !s.poisoned (ringSlot (s.queue 3) 0) 128 &&
      nbits (s.queue 3) 95 64 == 0 && !s.poisoned Config.contextTable 64 && queueCtx (s.queue 3) == 0 &&
      ctxValid (s.ctxDesc 0) && f (BitVec.ofNat 1024 (s.num (ringSlot (s.queue 3) 0) 128))
    !base.poisoned (queueKey 511) 32 && !nbit (base.queue 511) 56 &&
    ({ base with poison := [queueKey 511 / 8] } : State).poisoned (queueKey 511) 32 &&
    ok (queue3 record) (fun r => !Rec.valid r) &&
    ok (queue3 (2 ^ 63 + 2 ^ 54)) (fun r => Rec.valid r && refused r) &&
    (let s (leaf : Nat) := jobs (queue3 (2 ^ 63 + 2 ^ 54)) leaf
     [0x7654302F, 0, 0x8000007654302E].all (fun l => ok (s l) fun r => Rec.valid r && refused r && Rec.job r == 0) &&
     jobIs (s 0x7654302F) == [true, false, false] && jobIs (s 0) == [false, true, false] &&
     jobIs (s 0x8000007654302E) == [false, false, true]) &&
    (let s : State := { queue3 (2 ^ 63 + record) with tasks := [task 0 0] }
     !s.poisoned (queueKey 3) 32 && s.tasks.any fun t => t.q == 3 && t.index == nbits (s.queue 3) 95 64 && decide (t.next < t.total)) &&
    ok (queue3 (2 ^ 63 + record)) (fun r => Rec.valid r && !refused r && Rec.gang r == 0) = true := by decide +kernel
/-- R268, R269, R316: a task that is chosen, one behind a draw's flush group, one whose address space is not valid. -/
theorem test_meets_admission :
    let s : State := { queue3 (2 ^ 63 + record) with tasks := [task 0 0] }
    let t := task 0 0
    base.tasks.isEmpty && s.mp1Open && s.tasks.find? (fun t => t.q == 3 && decide (t.next < t.total)) == some t &&
    s.taskReady t == .yes && s.chosen == some (.record 11) &&
    (let u : State := { s with dies := [] }
     u.mp1Open && u.taskReady t == .yes && u.chosen != some (.record 11)) &&
    (let u : State := { base.putNum (queueKey 3) 32 (0x200000 + 2 ^ 56) with tasks := [t] }
     u.mp1Open && u.taskReady t == .held) = true := by decide +kernel
/-- R306-R308: a killed draw and one that a lane waits for, a misaligned record, a lane that reads its primitive, and what comes of it. -/
theorem test_meets_bin :
    let i : Instr := .bin 6 2 4
    let wait (s : State) : State := s.modCore 0 fun k => { k with groups := k.groups.map fun g =>
      { g with warps := g.warps.map fun w => { w with binStall := [⟨0, 7, at_ 0x100, none, 0⟩] } } }
    meets i (wait (bound { drawOfN 2 with killed := true } (binning 2 0x800 0))) (fun x => x.binKilled) &&
    meets i (wait (bound (drawOfN 2) (binning 2 0x800 0))) (fun x => !x.binKilled &&
      x.ls.all fun l => x.w.binStall.any fun e => e.lane == l) &&
    meets i (binning 2 0x820 0) (fun x => !x.binKilled && x.w.binStall.isEmpty && x.ls.all fun l => (x.v64 4 l).toNat % 64 != 0) &&
    meets i (binning 2 0x800 1) (fun x => x.w.binStall.isEmpty && decide (x.ls = [0]) &&
      match x.readPrim x.s 6 4 (x.readDraw x.s (x.u64 2).toNat) 0 with
      | .ok (dr, p) => p.s == 1 && DrawD.prims dr.desc == 2
      | .bad _ | .wait => false) = true := by decide +kernel
/-- R327-R329: spans at the end of LPDDR and past it, links up and not; an export record of peer 5 for one page. -/
theorem test_meets_host_memory :
    let down : State := { base with bootStage := 4 }
    let out : State := base.putNum (Config.exportTable + 16 * 255) 16 (5 + 2 ^ 18 + 2 ^ 19 + 2 ^ 20 + 3 * 2 ^ 64 + 4 * 2 ^ 93)
    let r := out.exportRecord 255
    base.owned.isEmpty && (base.holder 0x3000 64).isNone && hostWrites (lpddrEnd - 2 ^ 24 - 8) 8 && !hostWrites (lpddrEnd - 8) 8 &&
    !hostWrites lpddrEnd 1 && hostWrites 0x3FFC 4 &&
    base.linksUp && decide (lpddrEnd - 1 + 1 ≤ lpddrEnd) && decide (lpddrEnd < lpddrEnd + 1) && !down.linksUp &&
    Memory.wf base.mem && base.poison.isEmpty &&
    nbits r 17 0 == 5 && nbit r 18 && nbit r 19 && decide (4096 * nbits r 92 64 ≤ 0x3000) &&
    decide (0x4000 ≤ 4096 * nbits r 121 93) && out.linksUp && out.exported 5 19 0x3FFC 0x4000 &&
    out.exported 5 20 0x3FFC 0x4000 && !out.exported 5 20 0x3FFD 0x4001 && !out.exported 5 19 0x2FFF 0x3000 &&
    !out.exported 5 20 0x3FFC 0x4004 && !out.poisoned 0x3FFC 4 = true := by decide +kernel
/-- R343, R351: the image just written, poisoned, of another status, and not chosen. -/
theorem test_meets_restore :
    let bad := left.putNum (imgKey 7 0) 2 2
    let killed := left.putNum (imgKey 7 8) 1 2
    (left.core 0).groups.isEmpty && left.imagesAt 1 == [7] && left.mp1Open && !left.imgPoisoned 7 && left.imgStatus 7 == 0 &&
    left.chosen == some (.image 7) && left.canRestore 7 0 && ((left.loadImage 7 0).core 0).groups.getLast?.isSome &&
    (({ left with poison := [imgKey 7 0 / 8] } : State).imagesAt 1).contains 7 &&
    ({ left with poison := [imgKey 7 0 / 8] } : State).imgPoisoned 7 &&
    (let u : State := { left with dies := [] }
     u.mp1Open && (u.imagesAt 1).contains 7 && u.imgStatus 7 == 0 && u.chosen != some (.image 7)) &&
    bad.mp1Open && (bad.imagesAt 1).contains 7 && !bad.imgPoisoned 7 && bad.imgStatus 7 == 1 &&
    (base.imagesAt 1).isEmpty && (base.imagesAt 2).isEmpty && (killed.imagesAt 2).contains 7 && !killed.imgPoisoned 7 &&
    (let u : State := { killed with poison := [imgKey 7 0 / 8] }
     (u.imagesAt 2).contains 7 && u.imgPoisoned 7) = true := by decide +kernel
/-- A commit whose image's page is translated by R320's worked walk, with the leaf given, in the ranges given. -/
def walked (v : Option Word) (leaf : Nat) (l : Sparse RangeEntry) : State × Commit :=
  let c : Commit := { commit v with img := 0x40200C04000, root := 0x10000 }
  ({ jobs base leaf with ranges := l, commits := [c] }, c)
/-- The entries of a commit's image are read, cannot be read, wait. -/
def staging (p : State × Commit) : List Bool :=
  match p.1.stagingEntries p.2 with
  | .ok _ => [true, false, false]
  | .bad _ => [false, true, false]
  | .wait => [false, false, true]
/-- R158: an image that is read, its swap carried out; one that cannot be read. -/
theorem test_meets_staging :
    (match (committing (some 1)).stagingEntries (commit (some 1)) with
      | .ok es => (State.swapRanges { committing (some 1) with commits := [] } (commit (some 1)) es).isSome
      | .bad _ | .wait => false) &&
    (staging ({ committing (some 1) with ranges := [] }, commit (some 1)) == [false, true, false]) = true := by decide +kernel
theorem test_meets_range_status : ((committing none).rangeStatus (commit none)).isSome = true := by decide +kernel
/-- R321: an image on a page that is being moved, under a verdict and under none. -/
theorem test_meets_staging_waits :
    (let p := walked (some 1) 0x8000007654302E []
     staging p == [false, false, true] && p.2.verdict == some 1) = true := by decide +kernel
theorem test_meets_status_waits :
    (let p := walked none 0x8000007654302E []
     (p.1.rangeStatus p.2).isNone && p.2.verdict.isNone) = true := by decide +kernel
/-- R321: the header's page is being moved under the new set. -/
theorem test_meets_swap_waits :
    (let p := walked (some 1) 0x8000007654302E [(0, range 0x40200C04000 0x40200C05000 0x300000)]
     match p.1.stagingEntries p.2 with
      | .ok es => (State.swapRanges { p.1 with commits := [] } p.2 es).isNone
      | .bad _ | .wait => false) = true := by decide +kernel

end Sys2Proof.Tests
end

section
/-! SUPPORT. Requests at meeting point 3, stops, swap-out, re-entry and kills (R21, R341-R343, R351). -/

namespace Sys2Proof.Laws

open Sys2Proof.Machine

/-! ### Requests at meeting point 3 (R21) -/

section Requests

variable {s : State} {r q : Request} {rest : List Request}

/-- Where nothing waits, a request that can be taken is taken at once. -/
theorem request_of_taken (h : s.mp3 = []) (hr : s.canTake r = true) : s.request r = s.takeRequest r := by
  have hr' : State.canTake { s with mp3 := [r] } r = true := hr
  have hs : ({ s with mp3 := [] } : State) = s := by rw [← h]
  simp [State.request, State.takeRequests, h, hr', hs]

/-- Where nothing waits, a request that cannot be taken is the only one that waits. -/
theorem request_of_waits (h : s.mp3 = []) (hr : s.canTake r = false) : s.request r = { s with mp3 := [r] } := by
  have hr' : State.canTake { s with mp3 := [r] } r = false := hr
  simp [State.request, State.takeRequests, h, hr']

/-- Behind a request that waits every request waits. -/
theorem request_behind (h : s.mp3 = q :: rest) (hq : s.canTake q = false) :
    s.request r = { s with mp3 := s.mp3 ++ [r] } := by
  have hq' : State.canTake { s with mp3 := q :: (rest ++ [r]) } q = false := hq
  simp [State.request, State.takeRequests, h, hq']

end Requests

theorem exec_preemption (sc : Scope) (s : State) : exec (.preemption sc) s = .next (s.request (.preempt sc)) := rfl
theorem exec_quiesce (s : State) : exec .quiesce s = .next (s.request .quiesce) := rfl
theorem exec_quiesceEnd (s : State) : exec .quiesceEnd s = .next (s.request .quiesceEnd) := rfl
theorem exec_powerState (die : Nat) (p : PState) (s : State) :
    exec (.powerState die p) s = .next (s.request (.power die p)) := rfl

/-! ### Groups that stop (R341, R348) -/

/-- Changing the groups of a gang, on a core that has groups. -/
theorem groups_modGang_self (s : State) {c : Nat} (gang : Nat) (f : Group → Group) (h : (s.core c).groups ≠ []) :
    ((s.modGang c gang f).core c).groups = (s.core c).groups.map fun g => if g.gang = gang then f g else g := by
  unfold State.modGang State.modCore
  rw [core_setCore_self]
  exact ne_empty_of_groups (by simpa using h)

/-- Another core is as before a change of a gang. -/
theorem core_modGang_of_ne (s : State) {c d : Nat} (h : d ≠ c) (gang : Nat) (f : Group → Group) :
    (s.modGang c gang f).core d = s.core d := core_setCore_of_ne s h _

/-- A gang that begins to stop: each of its groups has a stop, and nothing else of it changes. -/
theorem escape_eq_modGang (s : State) (c gang m r : Nat) (b : Word) (pc : Addr) :
    ∃ f : Group → Group, s.escape c gang m r b pc = s.modGang c gang f ∧ ∀ g, ∃ p, f g = { g with stop := some p } := by
  refine ⟨_, rfl, fun g => ?_⟩
  split
  next p hp =>
    split
    · exact ⟨_, rfl⟩
    · exact ⟨p, by rw [← hp]⟩
  next => exact ⟨_, rfl⟩

/-- Every group of t stands in s, apart from its stop, and one that stops in s stops in t. -/
def StopsFrom (s t : State) : Prop :=
  ∀ c, ∀ h ∈ (t.core c).groups, ∃ g ∈ (s.core c).groups,
    h = { g with stop := h.stop } ∧ (g.stop.isSome = true → h.stop.isSome = true)

theorem StopsFrom.refl (s : State) : StopsFrom s s := fun _ h hm => ⟨h, hm, rfl, id⟩

theorem StopsFrom.trans {s t u : State} (hst : StopsFrom s t) (htu : StopsFrom t u) : StopsFrom s u := by
  intro c k hk
  obtain ⟨h, hm, hkh, hh⟩ := htu c k hk
  obtain ⟨g, gm, hhg, hg⟩ := hst c h hm
  exact ⟨g, gm, by rw [hkh, hhg], hh ∘ hg⟩

theorem escape_groups {s : State} {c : Nat} (hs : (s.core c).groups ≠ []) (gang m r : Nat) (b : Word) (pc : Addr) :
    ∃ f : Group → Group, (∀ g, ∃ p, f g = { g with stop := some p }) ∧
      ((s.escape c gang m r b pc).core c).groups = (s.core c).groups.map fun g => if g.gang = gang then f g else g := by
  obtain ⟨f, he, hf⟩ := escape_eq_modGang s c gang m r b pc
  exact ⟨f, hf, he ▸ groups_modGang_self s gang f hs⟩

/-- A core with groups has groups when a gang of it begins to stop. -/
theorem escape_groups_ne_nil {s : State} {c : Nat} (hs : (s.core c).groups ≠ []) (gang m r : Nat) (b : Word)
    (pc : Addr) : ((s.escape c gang m r b pc).core c).groups ≠ [] := by
  obtain ⟨f, -, hf⟩ := escape_groups hs gang m r b pc
  simpa [hf] using hs

/-- Every group of a gang that has begun to stop has a stop. -/
theorem escape_stops {s : State} {c : Nat} (hs : (s.core c).groups ≠ []) {gang m r : Nat} {b : Word} {pc : Addr}
    {h : Group} (hm : h ∈ ((s.escape c gang m r b pc).core c).groups) (hg : h.gang = gang) :
    h.stop.isSome = true := by
  obtain ⟨f, hf, he⟩ := escape_groups hs gang m r b pc
  rw [he, List.mem_map] at hm
  obtain ⟨g, -, rfl⟩ := hm
  obtain ⟨p, hp⟩ := hf g
  split
  next => simp [hp]
  next hne => rw [if_neg hne] at hg; exact absurd hg hne

/-- A gang that begins to stop leaves every group as it is, apart from its stop. -/
theorem escape_stopsFrom {s : State} {c : Nat} (hs : (s.core c).groups ≠ []) (gang m r : Nat) (b : Word) (pc : Addr) :
    StopsFrom s (s.escape c gang m r b pc) := by
  intro d h hm
  by_cases hd : d = c
  · subst hd
    obtain ⟨f, hf, he⟩ := escape_groups hs gang m r b pc
    rw [he, List.mem_map] at hm
    obtain ⟨g, hg, rfl⟩ := hm
    obtain ⟨p, hp⟩ := hf g
    refine ⟨g, hg, ?_⟩
    split
    next => simp [hp]
    next => exact ⟨rfl, id⟩
  · obtain ⟨f, he, -⟩ := escape_eq_modGang s c gang m r b pc
    rw [he, core_modGang_of_ne s hd] at hm
    exact ⟨h, hm, rfl, id⟩

/-- Gangs of a core begin to stop one after the other. -/
theorem escapes_stop {s : State} {c : Nat} (hs : (s.core c).groups ≠ []) (gangs : List Nat) :
    let t := gangs.foldl (fun (s : State) n => s.escape c n 0 2 0 0) s
    StopsFrom s t ∧ ∀ h ∈ (t.core c).groups, h.gang ∈ gangs → h.stop.isSome = true := by
  induction gangs generalizing s with
  | nil => exact ⟨.refl s, by simp⟩
  | cons n r ih =>
    obtain ⟨hfrom, hstop⟩ := ih (escape_groups_ne_nil hs n 0 2 0 0)
    refine ⟨(escape_stopsFrom hs n 0 2 0 0).trans hfrom, fun h hm hg => ?_⟩
    rcases List.mem_cons.mp hg with hn | hr
    · obtain ⟨g, gm, hhg, hsome⟩ := hfrom c h hm
      exact hsome (escape_stops hs gm (by rw [← hn, hhg]))
    · exact hstop h hm hr

theorem stopWhere_of_nil {s : State} {c : Nat} (hs : (s.core c).groups = []) (sel : Group → Bool) :
    s.stopWhere c sel = s := by simp [State.stopWhere, hs]

/-- Stopping the gangs of a core leaves every group as it is, apart from its stop. -/
theorem stopWhere_stopsFrom (s : State) (c : Nat) (sel : Group → Bool) : StopsFrom s (s.stopWhere c sel) := by
  by_cases hs : (s.core c).groups = []
  · rw [stopWhere_of_nil hs]; exact .refl s
  · exact (escapes_stop hs _).1

/-- Every group that a test selects has a stop, where the test does not look at stops. -/
theorem stopWhere_stops {s : State} {c : Nat} {sel : Group → Bool} (hsel : ∀ g p, sel { g with stop := p } = sel g)
    {h : Group} (hm : h ∈ ((s.stopWhere c sel).core c).groups) (hh : sel h = true) : h.stop.isSome = true := by
  obtain ⟨g, gm, hhg, -⟩ := stopWhere_stopsFrom s c sel c h hm
  have hsg : sel g = true := by rwa [hhg, hsel] at hh
  have hgang : h.gang = g.gang := by rw [hhg]
  refine (escapes_stop (List.ne_nil_of_mem gm) _).2 h hm ?_
  rw [hgang]
  exact List.mem_eraseDups.mpr (List.mem_map_of_mem (List.mem_filter.mpr ⟨gm, hsg⟩))

/-! ### Pre-emption of a scope (R341, R348) -/

/-- A scope does not look at stops. -/
theorem covers_stop (sc : Scope) (c : Nat) (g : Group) (p : Option Stop) :
    Scope.covers sc c { g with stop := p } = Scope.covers sc c g := by cases sc <;> rfl

/-- The gangs in a scope stop, on a list of cores. -/
theorem stopCores_stop (sc : Scope) (cs : List Nat) (s : State) :
    let t := cs.foldl (fun (s : State) c => s.stopWhere c (Scope.covers sc c)) s
    StopsFrom s t ∧ ∀ c ∈ cs, ∀ h ∈ (t.core c).groups, Scope.covers sc c h = true → h.stop.isSome = true := by
  induction cs generalizing s with
  | nil => exact ⟨.refl s, by simp⟩
  | cons d r ih =>
    obtain ⟨hfrom, hstop⟩ := ih (s.stopWhere d (Scope.covers sc d))
    refine ⟨(stopWhere_stopsFrom s d _).trans hfrom, fun c hc h hm hcov => ?_⟩
    rcases List.mem_cons.mp hc with rfl | hr
    · obtain ⟨g, gm, hhg, hsome⟩ := hfrom c h hm
      rw [hhg, covers_stop] at hcov
      exact hsome (stopWhere_stops (covers_stop sc c) gm hcov)
    · exact hstop c hr h hm hcov

/-- The cores that hold a group of a scope. -/
def coveredCores (s : State) (sc : Scope) : List Nat :=
  (s.cores.filter fun e => e.2.groups.any (Scope.covers sc e.1)).map Prod.fst

/-- What a table reads at a key is the default or stands in it. -/
theorem sget_mem_or {α : Type} (l : Sparse α) (k : Nat) (d : α) : sget l k d = d ∨ (k, sget l k d) ∈ l := by
  induction l with
  | nil => exact .inl rfl
  | cons a r ih =>
    obtain ⟨j, v⟩ := a
    simp only [sget]
    split
    next e => exact .inr (e ▸ List.mem_cons_self)
    next => exact ih.imp_right (List.mem_cons_of_mem _)

/-- A core with a group of a scope is among them. -/
theorem mem_coveredCores {s : State} {sc : Scope} {c : Nat} {g : Group} (hm : g ∈ (s.core c).groups)
    (hc : Scope.covers sc c g = true) : c ∈ coveredCores s sc := by
  have hin : (c, s.core c) ∈ s.cores := by
    rcases sget_mem_or s.cores c Core.empty with e | hin
    · exact absurd e (ne_empty_of_groups (List.ne_nil_of_mem hm))
    · exact hin
  exact List.mem_map.mpr ⟨_, List.mem_filter.mpr ⟨hin, List.any_eq_true.mpr ⟨g, hm, hc⟩⟩, rfl⟩

/-- Pre-empting a scope stops its gangs on the cores that hold them, and changes no field but the gathering of
acknowledgements besides. -/
theorem preemptScope_eq (s : State) (sc : Scope) : ∃ p, s.preemptScope sc =
    { (coveredCores s sc).foldl (fun (s : State) c => s.stopWhere c (Scope.covers sc c)) s with preempt := p } := by
  unfold State.preemptScope
  dsimp only
  split
  · exact ⟨_, rfl⟩
  · split <;> exact ⟨_, rfl⟩

/-- Every group in the scope of a pre-emption stops. -/
theorem preemptScope_stops {s : State} {sc : Scope} {c : Nat} {h : Group} (hm : h ∈ ((s.preemptScope sc).core c).groups)
    (hc : Scope.covers sc c h = true) : h.stop.isSome = true := by
  obtain ⟨p, hp⟩ := preemptScope_eq s sc
  obtain ⟨hfrom, hstop⟩ := stopCores_stop sc (coveredCores s sc) s
  rw [hp] at hm
  obtain ⟨g, gm, hhg, -⟩ := hfrom c h hm
  have hg : Scope.covers sc c g = true := by rwa [hhg, covers_stop] at hc
  exact hstop c (mem_coveredCores gm hg) h hm hc

/-- Stopping the gangs of a core neither opens nor closes meeting point 1. -/
theorem stopWhere_mp1Open (s : State) (c : Nat) (sel : Group → Bool) : (s.stopWhere c sel).mp1Open = s.mp1Open :=
  List.foldlRecOn (motive := fun t : State => t.mp1Open = s.mp1Open) _ _ rfl fun _ ht _ _ => ht

/-- Pre-empting a scope neither opens nor closes meeting point 1. -/
theorem preemptScope_mp1Open (s : State) (sc : Scope) : (s.preemptScope sc).mp1Open = s.mp1Open := by
  obtain ⟨p, hp⟩ := preemptScope_eq s sc
  rw [hp]
  exact List.foldlRecOn (motive := fun t : State => t.mp1Open = s.mp1Open) _ _ rfl fun t ht c _ =>
    (stopWhere_mp1Open t c _).trans ht

/-! ### Acknowledgements (R21, R349) -/

/-- Where nothing is gathered an acknowledgement does nothing. -/
theorem ack_of_none {core : Nat} {s : State} (h : s.preempt = none) : exec (.acknowledgement core) s = .next s := by
  change execAcknowledgement core s = _
  simp [execAcknowledgement, h]

/-- A core that owes none, or on which a group is stopping, sends none. -/
theorem ack_of_not_due {core : Nat} {s : State} {p : Preempt} (h : s.preempt = some p)
    (hn : core ∉ p.cores ∨ ∃ g ∈ (s.core core).groups, g.stop.isSome = true) :
    exec (.acknowledgement core) s = .next s := by
  change execAcknowledgement core s = _
  have hd : (!p.cores.contains core || (s.core core).groups.any fun g => g.stop.isSome) = true := by simpa using hn
  simp only [execAcknowledgement, h]
  rw [if_pos hd]

/-- A core that owes one sends it once no group of it is stopping; the last core ends the gathering. -/
theorem ack_of_due {core : Nat} {s : State} {p : Preempt} (h : s.preempt = some p) (hc : core ∈ p.cores)
    (hg : ∀ g ∈ (s.core core).groups, g.stop = none) : exec (.acknowledgement core) s =
      .next (State.settle { s.emit (.trap (trapRecord 3 0 p.ctx noSlot 0 0 core)) with
        preempt := if (p.cores.filter (· != core)).isEmpty then none
          else some { p with cores := p.cores.filter (· != core) } }) := by
  change execAcknowledgement core s = _
  have hd : ¬ (!p.cores.contains core || (s.core core).groups.any fun g => g.stop.isSome) = true := by
    simpa [hc] using hg
  simp only [execAcknowledgement, h]
  rw [if_neg hd]

/-! ### Swap-out (R341) -/

section SwapOut

variable {core gang : Nat} {s : State} {st : Stop}

/-- A gang that is not stopping is not swapped out. -/
theorem swapOut_of_running (h : ∀ g ∈ (s.core core).gangGroups gang, g.stop = none) :
    exec (.swapOut core gang) s = .next s := by
  change execSwapOut core gang s = _
  simp only [execSwapOut, List.findSome?_eq_none_iff.mpr h]

/-- A stopping gang waits until its engines stand. -/
theorem swapOut_of_moving (h : ((s.core core).gangGroups gang).findSome? (·.stop) = some st)
    (hn : (s.tapeDrain (core / 32)).standing core (((s.tapeDrain (core / 32)).core core).gangGroups gang)
      ((s.replayOf gang).map fun r => r.atStop st) = false) :
    exec (.swapOut core gang) s = .next (s.tapeDrain (core / 32)) := by
  change execSwapOut core gang s = _
  simp only [execSwapOut, h, hn, Bool.false_eq_true, if_false]

/-- A gang about to be swapped out: its recording is abandoned, its failed forks end, its spills drain. -/
def readyToSwap (s : State) (core gang : Nat) : State :=
  let v := ((s.tapeDrain (core / 32)).abandon gang 3).endFailed core gang
  v.drainSpills core fun p => (((v.core core).gangGroups gang).map (·.gk)).contains p.gk

/-- A gang that stands goes into the slot that is chosen of those that are free, if there is one. -/
theorem swapOut_of_standing (h : ((s.core core).gangGroups gang).findSome? (·.stop) = some st)
    (hs : (s.tapeDrain (core / 32)).standing core (((s.tapeDrain (core / 32)).core core).gangGroups gang)
      ((s.replayOf gang).map fun r => r.atStop st) = true) :
    let t := readyToSwap s core gang
    (t.freeSlots = [] → exec (.swapOut core gang) s = .next t) ∧
    ∀ n, t.freeSlots = [n] → exec (.swapOut core gang) s =
      .next (t.swapInto core gang n ((t.core core).gangGroups gang) st
        ((s.replayOf gang).map fun r => r.atStop st)) := by
  change let t := readyToSwap s core gang
    (t.freeSlots = [] → execSwapOut core gang s = .next t) ∧ ∀ n, t.freeSlots = [n] → execSwapOut core gang s = _
  simp only [execSwapOut, h, hs, if_true]
  constructor
  · intro hf
    unfold readyToSwap at hf
    simp only [hf]
    rfl
  · intro n hf
    unfold readyToSwap at hf
    simp only [hf]
    rfl

end SwapOut

/-! ### Re-entry (R343, R351) -/

section Restore

variable {slot core : Nat} {s : State}

/-- While meeting point 1 is closed nothing re-enters, nor what is no image that re-enters by itself. -/
theorem restore_of_closed (h : s.mp1Open = false ∨ slot ∉ s.imagesAt 1) :
    exec (.restore slot core) s = .next s := by
  change execRestore slot core s = _
  have hc : (!s.mp1Open || !(s.imagesAt 1).contains slot) = true := by simpa using h
  simp only [execRestore]
  rw [if_pos hc]

variable (ho : s.mp1Open = true) (hi : slot ∈ s.imagesAt 1)
include ho hi

/-- A poisoned image is held. -/
theorem restore_of_poisoned (hp : s.imgPoisoned slot = true) :
    exec (.restore slot core) s = .next (s.emitOnce (.imageHold slot)) := by
  change execRestore slot core s = _
  simp [execRestore, ho, hi, hp]

/-- An image that fails its check is refused. -/
theorem restore_of_failed (hp : s.imgPoisoned slot = false) (hs : s.imgStatus slot ≠ 0) :
    exec (.restore slot core) s = .next (s.refuseImage slot (s.imgStatus slot) core) := by
  change execRestore slot core s = _
  simp [execRestore, ho, hi, hp, hs]

/-- An image that is not the chosen candidate stays. -/
theorem restore_of_not_chosen (hp : s.imgPoisoned slot = false) (hs : s.imgStatus slot = 0)
    (hc : s.chosen ≠ some (.image slot)) : exec (.restore slot core) s = .next s := by
  change execRestore slot core s = _
  simp [execRestore, ho, hi, hp, hs, hc]

/-- The chosen image re-enters on a core that can take it. -/
theorem restore_of_chosen (hp : s.imgPoisoned slot = false) (hs : s.imgStatus slot = 0)
    (hc : s.chosen = some (.image slot)) (hr : s.canRestore slot core = true) {g : Group}
    (hg : ((s.loadImage slot core).core core).groups.getLast? = some g) :
    exec (.restore slot core) s = .next ((s.loadImage slot core).reloadGang core g.gang) := by
  change execRestore slot core s = _
  simp [execRestore, ho, hi, hp, hs, hc, hr, hg]

end Restore

/-! ### Kills (R278, R341, R343) -/

/-- An image that waits for KILL is killed, or held while it is poisoned; any other stays. -/
theorem kill_eq (slot : Nat) (s : State) : exec (.kill slot) s = .next (if slot ∈ s.imagesAt 2 then
    if s.imgPoisoned slot then s.emitOnce (.imageHold slot) else s.killImage slot else s) := by
  change execKill slot s = _
  simp only [execKill, List.contains_iff_mem]
  split <;> rfl

/-- Every group of a gang that is to be killed stops with disposition 2. -/
theorem killGang_disp {s : State} {core gang : Nat} (hs : (s.core core).groups ≠ []) {h : Group}
    (hm : h ∈ ((s.killGang core gang).core core).groups) (hg : h.gang = gang) :
    ∃ st, h.stop = some st ∧ st.disp = 2 := by
  unfold State.killGang at hm
  rw [groups_modGang_self _ _ _ (escape_groups_ne_nil hs gang 0 8 0 0), List.mem_map] at hm
  obtain ⟨g, gm, rfl⟩ := hm
  by_cases hgg : g.gang = gang
  · obtain ⟨st, hst⟩ := Option.isSome_iff_exists.mp (escape_stops hs gm hgg)
    simp [hgg, hst]
  · rw [if_neg hgg] at hg
    exact absurd hg hgg

/-- Killing a resident group kills its gang. -/
theorem killOfGroup_of_some {core gk : Nat} {s : State} {g : Group} (h : s.group? core gk = some g) :
    exec (.killOfResidentGroup (.group core gk)) s = .next (s.killGang core g.gang) := by
  change execKillOfResidentGroup (.group core gk) s = _
  simp [execKillOfResidentGroup, h]

/-- Where no such group is resident nothing is killed. -/
theorem killOfGroup_of_none {core gk : Nat} {s : State} (h : s.group? core gk = none) :
    exec (.killOfResidentGroup (.group core gk)) s = .next s := by
  change execKillOfResidentGroup (.group core gk) s = _
  simp [execKillOfResidentGroup, h]

/-- A draw of that key, once it is killed, keeps no submission that is not committed. -/
theorem killed_draw {s : State} {d : Nat} {x : Draw}
    (hx : x ∈ s.draws.map fun x => if x.key = d then x.kill else x) (hk : x.key = d) :
    x.killed = true ∧ x.buf = [] ∧ x.accepted = [] ∧ x.used = 0 ∧ x.flush = none := by
  obtain ⟨y, -, rfl⟩ := List.mem_map.mp hx
  split at hk
  next h => rw [if_pos h]; exact ⟨rfl, rfl, rfl, rfl, rfl⟩
  next h => exact absurd hk h

/-! ### The statement -/

/-- Settles O42, clause by clause from the laws of requests, stops, swap-out, re-entry and kills above. -/
theorem preemptionSteps : Obligations.PreemptionSteps := by
  refine ⟨fun sc s h => ?preemption, fun s q rest h hq => ?behind, fun sc s t core g h ht hm hc => ?scope_stops,
    fun s h => ?quiesce, fun s h hp => ?quiesce_end, fun s p h hp => ?gathering,
    fun _ _ => ack_of_none, fun _ _ _ => ack_of_not_due, fun core s p hp hcs hg => ?last_ack,
    fun core s p c hp hcore hc hne hg => ?ack,
    fun _ _ _ => swapOut_of_running, fun core gang s st u hst hu hn => ?swap_moving,
    fun core gang s st r u v t hst hr hu hs hv ht => ?swap_standing,
    fun _ _ _ => restore_of_closed, fun _ _ _ => restore_of_poisoned, fun _ _ _ => restore_of_failed,
    fun _ _ _ _ ho hi hp hs hc hr => restore_of_chosen ho hi hp hs hc hr, fun _ _ _ => restore_of_not_chosen,
    fun slot s h => ?kill_none, fun slot s h hp => ?kill, fun slot s h hp => ?kill_poisoned,
    fun _ _ _ => killOfGroup_of_none, fun _ _ _ _ => killOfGroup_of_some,
    fun core gk s g h t hg hm hgang ht => ?kill_gang, fun d s t x ht hx hk => ?kill_draw, fun d s => ⟨_, rfl⟩⟩
  case preemption => rw [exec_preemption, request_of_taken h rfl]; rfl
  case behind =>
    simp only [exec_preemption, exec_quiesce, exec_quiesceEnd, exec_powerState, request_behind h hq, implies_true,
      and_self]
  case scope_stops =>
    rw [exec_preemption, request_of_taken h rfl] at ht
    injection ht with ht
    subst ht
    exact preemptScope_stops hm hc
  case quiesce =>
    rw [exec_quiesce, request_of_taken h rfl]
    exact ⟨_, rfl, rfl, preemptScope_mp1Open _ _⟩
  case quiesce_end => rw [exec_quiesceEnd, request_of_taken h (by simp [State.canTake, hp])]; rfl
  case gathering =>
    simp [exec_quiesceEnd, exec_powerState, request_of_waits h, State.canTake, hp]
  case last_ack =>
    rw [ack_of_due hp (by simp [hcs]) hg]
    simp [hcs]
  case ack =>
    have hin : c ∈ p.cores.filter (· != core) := List.mem_filter.mpr ⟨hc, by simpa using hne⟩
    have hrest : (p.cores.filter (· != core)).isEmpty = false := by simpa using List.ne_nil_of_mem hin
    rw [ack_of_due hp hcore hg, hrest]
    rfl
  case swap_moving => subst hu; exact swapOut_of_moving hst hn
  case swap_standing => subst hr hu hv ht; exact swapOut_of_standing hst hs
  case kill_none => rw [kill_eq, if_neg h]
  case kill => rw [kill_eq, if_pos h, hp]; rfl
  case kill_poisoned => rw [kill_eq, if_pos h, hp]; rfl
  case kill_gang =>
    rw [killOfGroup_of_some hg] at ht
    injection ht with ht
    subst ht
    exact killGang_disp (groups_ne_nil hg) hm hgang
  case kill_draw =>
    injection ht with ht
    subst ht
    exact killed_draw hx hk

end Sys2Proof.Laws
end

section
/-! SUPPORT. Scrubs and errors found at a boundary, telemetry, resets, power states and sensors (R323, R324, R380,
R381, R384, R437-R441). -/

namespace Sys2Proof.Laws

open Sys2Proof.Machine

/-! ### The error log and what a check finds (R380, R384, R440) -/

@[simp] theorem logError_logSeq (s : State) (store : Nat) (u : Bool) (a : Nat) :
    (s.logError store u a).logSeq = s.logSeq + 1 := by simp [State.logError]

@[simp] theorem logError_events (s : State) (store : Nat) (u : Bool) (a : Nat) :
    (s.logError store u a).events = s.events ++ [.errorLog (s.logSeq + 1).toNat] := by simp [State.logError]

/-- Below peer memory a key is the physical address. -/
theorem unitAddr_of_lt {k : Nat} (s : State) (h : k < 2 ^ 55) : s.unitAddr k = k := by
  rw [State.unitAddr, if_neg (by omega)]

/-- An error in a store is logged, an uncorrectable one after its unit is poisoned. -/
theorem found_eq_logError {e : ErrAt} (s : State) (h : ∀ l, e ≠ .link l) (u : Bool) :
    s.found e u = (if u then s.poisonAt e else s).logError e.store u (s.errAddr e) := by
  cases e with
  | link l => exact absurd rfl (h l)
  | _ => rfl

/-- The address that is logged for a word of L2 or L3. -/
theorem errAddr_word {n : Nat} (s : State) (h : n = 2 ∨ n = 3) (k : Nat) :
    s.errAddr (.word n k) = s.unitAddr (k / 8 * 8) := if_pos h

/-- An error in a word of L3 (R440). -/
theorem found_l3Word {a : Nat} (s : State) (h : isLpddr a = true) (u : Bool) :
    s.found (.word 3 a) u = (if u then s.poisonUnit (a / 8) else s).logError 3 u (a / 8 * 8) := by
  have ha : a / 8 * 8 < 2 ^ 55 := by
    have hlt : a < lpddrEnd := by simpa [isLpddr] using h
    unfold lpddrEnd at hlt
    omega
  rw [found_eq_logError s (by simp), errAddr_word s (.inr rfl), unitAddr_of_lt s ha]
  simp [State.poisonAt, ErrAt.store]

/-- An uncorrectable error in a word that no die holds of another memory. -/
theorem found_l2Word_of_home {k : Nat} (s : State) (h : isEdge k = false) :
    s.found (.word 2 k) true = (s.poisonUnit (k / 8)).logError 2 true (k / 8 * 8) := by
  have hk : k / 8 * 8 < 2 ^ 55 := by
    simp only [isEdge, Bool.or_eq_false_iff, decide_eq_false_iff_not] at h
    omega
  rw [found_eq_logError s (by simp), errAddr_word s (.inl rfl), unitAddr_of_lt s hk]
  simp [State.poisonAt, h, ErrAt.store]

/-- An uncorrectable error in a word of host or peer memory, of a line that one die holds. -/
theorem found_l2Word_of_edge {k : Nat} {e : EdgeLine} (s : State) (h : isEdge k = true)
    (he : s.edge.filter (fun e => e.line == k / 128) = [e]) :
    s.found (.word 2 k) true = (s.poisonCopy e.die (k / 8)).logError 2 true (s.unitAddr (k / 8 * 8)) := by
  rw [found_eq_logError s (by simp), errAddr_word s (.inl rfl)]
  simp [State.poisonAt, State.poisonHeld, State.choose, h, he, ErrAt.store]

theorem exec_scrub (a : Nat) (c : Bool) (s : State) : exec (.scrub a c) s =
    .next (if isLpddr a then s.found (if s.choose 200001 2 = 0 then .word 3 a else .block a) (!c) else s) := rfl

/-- Outside LPDDR a scrub does nothing. -/
theorem scrub_outside {a : Nat} (h : isLpddr a = false) (c : Bool) (s : State) : exec (.scrub a c) s = .next s := by
  simp [exec_scrub, h]

/-- A scrub in LPDDR finds a word of L3 or a block in error. -/
theorem scrub_inside {a : Nat} (h : isLpddr a = true) (c : Bool) (s : State) :
    exec (.scrub a c) s = .next ((if c then s else s.poisonUnit (a / 8)).logError 3 (!c) (a / 8 * 8)) ∨
    exec (.scrub a c) s = .next ((if c then s else s.poisonSpan a 1 true).logError 4 (!c) (a / 32 * 32)) := by
  rw [exec_scrub, if_pos h]
  by_cases hc : s.choose 200001 2 = 0
  · left
    rw [if_pos hc, found_l3Word s h]
    cases c <;> rfl
  · right
    rw [if_neg hc]
    cases c <;> rfl

/-! ### Reading a part of what was written -/

/-- Bytes written in two parts. -/
theorem writeN_append (m : List Host.Cell) (k : Nat) (a b : List Byte) :
    Memory.writeN m k (a ++ b) = Memory.writeN (Memory.writeN m k a) (k + a.length) b := by
  induction a generalizing m k with
  | nil => rfl
  | cons x r ih =>
    simp only [List.cons_append, Memory.writeN, ih, List.length_cons]
    congr 1
    omega

/-- Bytes outside the span of a write are read as before. -/
theorem readN_writeN_outside {m : List Host.Cell} (h : Memory.wf m = true) {k j n : Nat} {bs : List Byte}
    (hj : j + n ≤ k ∨ k + bs.length ≤ j) : Memory.readN (Memory.writeN m k bs) j n = Memory.readN m j n := by
  induction n generalizing j with
  | zero => rfl
  | succ n ih =>
    simp only [Memory.readN]
    rw [read_writeN_outside h (by omega), ih (by omega)]

/-- A part of what was written is read back. -/
theorem readN_writeN_part {m : List Host.Cell} (h : Memory.wf m = true) (k : Nat) (a b c : List Byte) :
    Memory.readN (Memory.writeN m k (a ++ (b ++ c))) (k + a.length) b.length = b := by
  have ha := wf_writeN h k a
  rw [writeN_append, writeN_append, readN_writeN_outside (wf_writeN ha _ b) (.inl le_rfl), readN_writeN ha]

/-- The records of a list of numbers, split at one of them. -/
theorem flatMap_range_split {α : Type} (f : Nat → List α) {d n : Nat} (h : d < n) :
    ∃ c, (List.range n).flatMap f = (List.range d).flatMap f ++ (f d ++ c) := by
  obtain ⟨m, rfl⟩ : ∃ m, n = d + (m + 1) := ⟨n - d - 1, by omega⟩
  rw [List.range_add, List.flatMap_append, List.range_succ_eq_map]
  exact ⟨_, rfl⟩

/-! ### Telemetry (R439) -/

theorem length_telemetryBytes (s : State) (n : Nat) : (s.telemetryBytes n).length = 64 := by
  simp [State.telemetryBytes, length_leBytes]

/-- The records before die d. -/
theorem length_telemetry (s : State) (d : Nat) : ((List.range d).flatMap s.telemetryBytes).length = 64 * d := by
  simp [List.length_flatMap, length_telemetryBytes, Nat.mul_comm]

theorem exec_telemetry (s : State) : exec .telemetry s = .next (State.put { s with telemetryAt := s.ts.toNat }
    (Config.mgmtArea + 0x10000) ((List.range 12).flatMap s.telemetryBytes)) := rfl

/-- Telemetry leaves every byte outside its records. -/
theorem telemetry_outside {s : State} (hs : Sound s) {k : Nat}
    (hk : k < Config.mgmtArea + 0x10000 ∨ Config.mgmtArea + 0x10300 ≤ k) :
    (State.put { s with telemetryAt := s.ts.toNat } (Config.mgmtArea + 0x10000)
      ((List.range 12).flatMap s.telemetryBytes)).bytes k 1 = s.bytes k 1 := by
  have hm : Memory.wf s.mem = true := hs
  simp only [State.bytes, put_mem]
  exact readN_writeN_outside hm (by rw [length_telemetry]; omega)

/-- The state word of each die is read back at its place in the records. -/
theorem telemetry_stateWord {s : State} (hs : Sound s) {d : Nat} (hd : d < 12) :
    (State.put { s with telemetryAt := s.ts.toNat } (Config.mgmtArea + 0x10000)
      ((List.range 12).flatMap s.telemetryBytes)).num (Config.mgmtArea + 0x10000 + 64 * d + 8) 4 =
      s.stateWord d % 2 ^ 32 := by
  obtain ⟨c, hc⟩ := flatMap_range_split s.telemetryBytes hd
  let a := (List.range d).flatMap s.telemetryBytes ++
    (leBytes 4 (Config.freeNat s.stepNo (300000 + 3 * d)) ++ leBytes 4 (Config.freeNat s.stepNo (300001 + 3 * d)))
  have ha : a.length = 64 * d + 8 := by
    simp only [a, List.length_append, length_telemetry, length_leBytes]
  have hsplit : (List.range 12).flatMap s.telemetryBytes =
      a ++ (leBytes 4 (s.stateWord d) ++ (leBytes 4 s.ts.toNat ++ leBytes 48 0 ++ c)) := by
    simp [hc, a, State.telemetryBytes]
  have hread := readN_writeN_part hs (Config.mgmtArea + 0x10000) a (leBytes 4 (s.stateWord d))
    (leBytes 4 s.ts.toNat ++ leBytes 48 0 ++ c)
  rw [← hsplit, ha, length_leBytes] at hread
  rw [State.num, State.bytes, put_mem, Nat.add_assoc, hread, leNat_leBytes]

/-- The state word of a compute die is the number of its power state. -/
theorem stateWord_of_die {s : State} {d : Nat} {x : Die} (h : s.dies[d]? = some x) :
    s.stateWord d = if x.link = .asleep then 2 else powerNum (s.powerOf x) := by
  simp [State.stateWord, h]

/-- It is one of three. -/
theorem stateWord_le {s : State} {d : Nat} {x : Die} (h : s.dies[d]? = some x) : s.stateWord d ≤ 2 := by
  rw [stateWord_of_die h]
  split
  · exact le_rfl
  · cases s.powerOf x <;> decide

/-! ### Boot and reset (R323, R324, R437) -/

/-- An image passes where its signature does and its version is not below the fuse. -/
theorem fwCheck_eq_zero_iff (i : FwImage) : fwCheck i = 0 ↔ i.sigOk = true ∧ Config.antiRollback ≤ i.version := by
  unfold fwCheck
  cases i.sigOk <;> simp

/-- The reason an image is refused for. -/
theorem fwCheck_of_refused {i : FwImage} (h : i.sigOk = false ∨ i.version < Config.antiRollback) :
    fwCheck i = if i.sigOk then 2 else 1 := by
  unfold fwCheck
  cases hs : i.sigOk with
  | false => rfl
  | true => simp [h.resolve_left (by simp [hs])]

/-- Images that pass run, and are measured, before what follows them. -/
theorem bootRun_append {pre : List FwImage} (h : ∀ i ∈ pre, i.sigOk = true ∧ Config.antiRollback ≤ i.version)
    (l : List FwImage) : bootRun (pre ++ l) = (pre.map imageEntry ++ (bootRun l).1, (bootRun l).2) := by
  induction pre with
  | nil => rfl
  | cons i r ih =>
    have hi := (fwCheck_eq_zero_iff i).mpr (h i List.mem_cons_self)
    simp [bootRun, hi, ih fun j hj => h j (List.mem_cons_of_mem _ hj)]

/-- Where every image passes each has its entry and none is refused. -/
theorem bootRun_of_good {l : List FwImage} (h : ∀ i ∈ l, i.sigOk = true ∧ Config.antiRollback ≤ i.version) :
    bootRun l = (l.map imageEntry, none) := by
  simpa [bootRun] using bootRun_append h []

/-- The first image that fails is refused; those before it have their entries. -/
theorem bootRun_of_refused {pre post : List FwImage} {i : FwImage}
    (h : ∀ j ∈ pre, j.sigOk = true ∧ Config.antiRollback ≤ j.version)
    (hi : i.sigOk = false ∨ i.version < Config.antiRollback) :
    bootRun (pre ++ i :: post) = (pre.map imageEntry, some i) := by
  have hne : fwCheck i ≠ 0 := by rw [fwCheck_of_refused hi]; split <;> decide
  simp [bootRun_append h, bootRun, hne]

/-- A reset runs an image of each kind, in order. -/
theorem resetImages_which (s : State) : s.resetImages.map (·.which) = bootImages := by
  rw [State.resetImages, List.map_map]
  refine (List.map_congr_left fun b _ => ?_).trans (List.map_id _)
  cases hf : s.staged.find? fun i => i.which == b with
  | none => simp [hf, carriedImage]
  | some i => simpa [hf] using List.find?_some hf

/-- A stored image is run in the place of the one that the module carries. -/
theorem staged_mem_resetImages {s : State} {b : BootImage} {i : FwImage}
    (h : s.staged.find? (fun i => i.which == b) = some i) (hb : b ∈ bootImages) : i ∈ s.resetImages :=
  List.mem_map.mpr ⟨b, hb, by rw [h]; rfl⟩

/-- No image runs in an earlier stage than one before it. -/
theorem imageStage_le {s : State} {pre post : List FwImage} {i : FwImage} (h : s.resetImages = pre ++ i :: post) :
    ∀ j ∈ pre, imageStage j.which ≤ imageStage i.which := by
  have hp : (s.resetImages.map (·.which)).Pairwise fun a b => imageStage a ≤ imageStage b := by
    rw [resetImages_which]
    decide
  rw [List.pairwise_map, h, List.pairwise_append] at hp
  obtain ⟨-, -, hpre⟩ := hp
  exact fun j hj => hpre j hj i List.mem_cons_self

/-- A stage that does not come to its end fails the reset where no image is refused. -/
theorem bootFailure_of_fault {s : State} {k : Nat} (h : s.bootFault = some k) (hk : k = 0 ∨ k = 2 ∨ k = 3 ∨ k = 4) :
    s.bootFailure none = some (k, Config.freeNat s.stepNo 200010) := by
  rw [State.bootFailure, h]
  rcases hk with rfl | rfl | rfl | rfl <;> rfl

/-- Where every stage's hardware is sound, an image that is refused fails its stage. -/
theorem bootFailure_of_sound {s : State} (h : s.bootFault = none) (bad : Option FwImage) :
    s.bootFailure bad = bad.map fun i => (imageStage i.which, fwCheck i) := by
  cases bad <;> simp [State.bootFailure, h]

/-- A reset that no stage fails, on a module with every upper die: every image has run. -/
theorem reset_of_success {s : State} {log : List LogEntry} {bad : Option FwImage}
    (hb : bootRun s.resetImages = (log, bad)) (hf : s.bootFailure bad = none) (hu : s.upper = 0xFF) :
    exec .reset s = .next { s.cleared with mlog := log } := by
  change execReset s = _
  simp [execReset, hb, hf, hu]

/-- A reset that a stage fails: the device is in recovery in that stage, with meeting point 1 closed. -/
theorem reset_of_failure {s : State} {log : List LogEntry} {bad : Option FwImage} {stage reason : Nat}
    (hb : bootRun s.resetImages = (log, bad)) (hf : s.bootFailure bad = some (stage, reason)) :
    ∃ m p, (stage < 3 → m = s.mem) ∧ exec .reset s = .next { s.cleared with
      mem := m, poison := p, mlog := log.filter fun e => decide (e.stage ≤ stage)
      bootStage := stage, recovery := some reason, mp1Open := false } := by
  change ∃ m p, _ ∧ execReset s = _
  simp only [execReset, hb, hf]
  by_cases h3 : stage < 3
  · exact ⟨s.mem, s.poison, fun _ => rfl, by rw [if_pos h3]⟩
  rw [if_neg h3]
  by_cases he : stage = 3
  · exact ⟨s.cleared.mem, s.cleared.poison, fun h => absurd h h3, by rw [if_pos he]⟩
  rw [if_neg he]
  by_cases hu : s.upper = 0xFF
  · exact ⟨s.cleared.mem, s.cleared.poison, fun h => absurd h h3, by rw [if_pos hu]⟩
  · exact ⟨Memory.writeN s.cleared.mem (Config.mgmtArea + 0x800) (upperMap s.upper), s.cleared.poison,
      fun h => absurd h h3, by rw [if_neg hu]⟩

/-! ### Elements of a list, by index -/

/-- The element of an index after its change. -/
theorem getElem?_modAt_self {α : Type} (l : List α) (n : Nat) (f : α → α) : (modAt l n f)[n]? = (l[n]?).map f := by
  induction l generalizing n with
  | nil => rfl
  | cons a r ih => cases n with
    | zero => rfl
    | succ n => simpa [modAt] using ih n

/-- The other elements are as before. -/
theorem getElem?_modAt_of_ne {α : Type} (l : List α) {m n : Nat} (h : m ≠ n) (f : α → α) :
    (modAt l n f)[m]? = l[m]? := by
  induction l generalizing m n with
  | nil => rfl
  | cons a r ih => cases n with
    | zero => obtain ⟨m, rfl⟩ := Nat.exists_eq_succ_of_ne_zero h; rfl
    | succ n => cases m with
      | zero => rfl
      | succ m => simpa [modAt] using ih (fun e => h (congrArg _ e))

/-! ### Dies and their power states (R438, R441) -/

section Power

variable {s t old : State} {d : Nat} {x : Die}

theorem die_modDie_self (hx : s.dies[d]? = some x) (f : Die → Die) : (s.modDie d f).dies[d]? = some (f x) :=
  (getElem?_modAt_self _ _ _).trans (by rw [hx]; rfl)

theorem die_modDie_of_ne {e : Nat} (h : e ≠ d) (f : Die → Die) : (s.modDie d f).dies[e]? = s.dies[e]? :=
  getElem?_modAt_of_ne _ h _

/-- The power state of a die: D1 while something forces it, and what was requested otherwise. -/
theorem powerOf_eq (s : State) (x : Die) : s.powerOf x =
    if x.hot = true ∨ s.forcedCurrent = true ∨ s.forcedFlow = true then .d1 else x.want := by
  simp [State.powerOf, or_assoc]

/-- A die is not to be in D2 where it was not asked to be, or is forced to D1. -/
theorem powerOf_ne_d2 (h : x.want ≠ .d2 ∨ x.hot = true ∨ s.forcedCurrent = true ∨ s.forcedFlow = true) :
    s.powerOf x ≠ .d2 := by
  rw [powerOf_eq]
  by_cases hf : x.hot = true ∨ s.forcedCurrent = true ∨ s.forcedFlow = true
  · rw [if_pos hf]
    decide
  · rw [if_neg hf]
    exact h.resolve_right hf

/-- A die that is told to wake does so if it sleeps, and is as before otherwise. -/
theorem die_wakeDie (hx : s.dies[d]? = some x) : ∃ y, (s.wakeDie d).dies[d]? = some y ∧ y.want = x.want ∧
    y.hot = x.hot ∧ (x.link = .asleep → y.link = .waking ∧ y.woken = some s.ts.toNat) ∧
    (x.link ≠ .asleep → y.link = x.link) := by
  refine ⟨_, die_modDie_self hx _, ?_⟩
  by_cases hl : x.link = .asleep <;> simp [hl]

/-- A die that is up, is to be in D2 and holds no group goes to sleep. -/
theorem die_sleepDie (hx : s.dies[d]? = some x) (hp : s.powerOf x = .d2) (hu : x.link = .up) (hb : s.busyCores d = []) :
    (s.sleepDie d).dies[d]? = some { x with link := .asleep } := by
  refine (die_modDie_self hx _).trans ?_
  simp [hp, hu, hb]

/-- A die that is not to be in D2 wakes. -/
theorem followPower_of_awake (hx : s.dies[d]? = some x) (hp : s.powerOf x ≠ .d2) : s.followPower d = s.wakeDie d := by
  simp [State.followPower, hx, hp]

/-- A die that is to be in D2 and holds no group goes to sleep. -/
theorem followPower_of_empty (hx : s.dies[d]? = some x) (hp : s.powerOf x = .d2) (hb : s.busyCores d = []) :
    s.followPower d = s.sleepDie d := by
  simp [State.followPower, hx, hp, hb]

/-- A power state other than D2, or one for a die that is forced to D1, wakes the die. -/
theorem applyPower_awake {p : PState} (hp : p ≠ .d2 ∨ x.hot = true ∨ s.forcedCurrent = true ∨ s.forcedFlow = true)
    (hx : s.dies[d]? = some x) : ∃ y, (s.applyPower d p).dies[d]? = some y ∧ y.want = p ∧
    (x.link = .asleep → y.link = .waking ∧ y.woken = some s.ts.toNat) ∧ (x.link ≠ .asleep → y.link = x.link) := by
  have hw := die_modDie_self hx fun x => { x with want := p }
  have hn : (s.modDie d fun x => { x with want := p }).powerOf { x with want := p } ≠ .d2 :=
    powerOf_ne_d2 hp
  obtain ⟨y, hy, hyw, -, hasleep, hawake⟩ := die_wakeDie hw
  rw [State.applyPower, followPower_of_awake hw hn]
  exact ⟨y, hy, hyw, hasleep, hawake⟩

/-- D2, for a die that is up, not forced, and holds no group: it sleeps. -/
theorem applyPower_d2 (hx : s.dies[d]? = some x) (hu : x.link = .up) (hb : s.busyCores d = []) (hh : x.hot = false)
    (hc : s.forcedCurrent = false) (hf : s.forcedFlow = false) :
    (s.applyPower d .d2).dies[d]? = some { x with want := .d2, link := .asleep } := by
  have hw := die_modDie_self hx fun x => { x with want := .d2 }
  have hp : (s.modDie d fun x => { x with want := .d2 }).powerOf { x with want := .d2 } = .d2 := by
    simp [State.powerOf, State.modDie, hh, hc, hf]
  rw [State.applyPower, followPower_of_empty hw hp hb]
  exact die_sleepDie hw hp hu hb

/-- A core takes admissions while its die is up and not to go to D2. -/
theorem coreOpen_iff {core : Nat} (hx : s.dies[core / 128]? = some x) :
    s.coreOpen core = true ↔ x.link = .up ∧ s.powerOf x ≠ .d2 := by
  simp [State.coreOpen, hx]

/-! ### What forces a die, and lets it go (R438, R441) -/

/-- One die takes on the power state that a change of what forces it has given it. -/
def repowerDie (old t : State) (d : Nat) : State :=
  if t.powerAt d = old.powerAt d then t
  else if t.powerAt d = some .d2 then t.request (.follow d)
  else t.followPower d

theorem repower_eq (s old : State) (ds : List Nat) : s.repower old ds = ds.foldl (repowerDie old) s := rfl

/-- A die that is not to be in D2 wakes if its power state has changed. -/
theorem die_repowerDie_awake {p : PState} (hx : t.dies[d]? = some x) (hn : t.powerOf x ≠ .d2)
    (hp : old.powerAt d = some p) : ∃ y, (repowerDie old t d).dies[d]? = some y ∧ y.want = x.want ∧ y.hot = x.hot ∧
    (x.link = .asleep → p ≠ t.powerOf x → y.link = .waking) ∧
    (x.link ≠ .asleep ∨ p = t.powerOf x → y.link = x.link) := by
  have ht : t.powerAt d = some (t.powerOf x) := by simp [State.powerAt, hx]
  by_cases he : p = t.powerOf x
  · exact ⟨x, by rw [repowerDie, ht, hp, he, if_pos rfl, hx], rfl, rfl, fun _ h => absurd he h, fun _ => rfl⟩
  · have hstep : repowerDie old t d = t.wakeDie d := by
      simp [repowerDie, ht, hp, hn, Ne.symm he, followPower_of_awake hx hn]
    obtain ⟨y, hy, hw, hh, hasleep, hawake⟩ := die_wakeDie hx
    exact ⟨y, hstep ▸ hy, hw, hh, fun hl _ => (hasleep hl).1, fun h => hawake (h.resolve_right he)⟩

/-- The input current or the coolant flow forces every die to D1. -/
def Forced (s : State) : Prop := s.forcedCurrent = true ∨ s.forcedFlow = true

theorem powerOf_of_forced (h : Forced s) (x : Die) : s.powerOf x = .d1 := by
  rw [powerOf_eq, if_pos (.inr h)]

/-- While every die is forced to D1 a die is left as it is, or woken. -/
theorem repowerDie_of_forced (h : Forced t) (e : Nat) : repowerDie old t e = t ∨ repowerDie old t e = t.wakeDie e := by
  unfold repowerDie
  split
  · exact .inl rfl
  · right
    cases hx : t.dies[e]? with
    | none => simp [State.powerAt, State.followPower, hx]
    | some x => simp [State.powerAt, hx, powerOf_of_forced h, followPower_of_awake hx]

theorem forced_repowerDie (h : Forced t) (e : Nat) : Forced (repowerDie old t e) := by
  rcases repowerDie_of_forced (old := old) h e with he | he <;> rw [he] <;> exact h

/-- A die whose turn it is not is as before. -/
theorem die_repowerDie_of_ne (h : Forced t) {e : Nat} (hd : d ≠ e) : (repowerDie old t e).dies[d]? = t.dies[d]? := by
  rcases repowerDie_of_forced (old := old) h e with he | he <;> rw [he]
  exact die_modDie_of_ne hd _

/-- Forcing dies to D1: one of them that sleeps and was not in D1 wakes; any other keeps its link. -/
theorem die_repower_of_forced (ds : List Nat) {p : PState} (hf : Forced t) (hx : t.dies[d]? = some x)
    (hp : old.powerAt d = some p) : ∃ y, (ds.foldl (repowerDie old) t).dies[d]? = some y ∧ y.want = x.want ∧
    (d ∈ ds → x.link = .asleep → p ≠ .d1 → y.link = .waking) ∧ (x.link ≠ .asleep ∨ p = .d1 → y.link = x.link) := by
  induction ds generalizing t x with
  | nil => exact ⟨x, hx, rfl, by simp, fun _ => rfl⟩
  | cons e r ih =>
    have hf' := forced_repowerDie (old := old) hf e
    by_cases hd : d = e
    · subst hd
      have hd1 := powerOf_of_forced hf x
      obtain ⟨z, hz, hzw, -, hwake, hkeep⟩ := die_repowerDie_awake hx (by rw [hd1]; decide) hp
      rw [hd1] at hwake hkeep
      obtain ⟨y, hy, hyw, -, hlater⟩ := ih hf' hz
      refine ⟨y, hy, hyw.trans hzw, fun _ hl hne => ?_, fun h => ?_⟩
      · have hzl := hwake hl hne
        rw [hlater (.inl (by rw [hzl]; decide)), hzl]
      · have hzl := hkeep h
        rw [hlater (by rwa [hzl]), hzl]
    · obtain ⟨y, hy, hyw, hwake, hkeep⟩ := ih hf' ((die_repowerDie_of_ne hf hd).trans hx)
      exact ⟨y, hy, hyw, fun hm => hwake ((List.mem_cons.mp hm).resolve_left hd), hkeep⟩

/-- A die above 95 degrees is in D1, and wakes if it slept and was not. -/
theorem tooHot_die (hx : s.dies[d]? = some x) : ∃ t y, exec (.temperatureAbove95 d) s = .next t ∧
    t.dies[d]? = some y ∧ y.hot = true ∧ y.want = x.want ∧
    (x.link = .asleep → s.powerOf x ≠ .d1 → y.link = .waking) ∧
    (x.link ≠ .asleep ∨ s.powerOf x = .d1 → y.link = x.link) := by
  have hh := die_modDie_self hx fun x => { x with hot := true }
  have hd1 : (s.modDie d fun x => { x with hot := true }).powerOf { x with hot := true } = .d1 := by
    simp [State.powerOf]
  have hold : s.powerAt d = some (s.powerOf x) := by simp [State.powerAt, hx]
  obtain ⟨y, hy, hw, hhot, hwake, hkeep⟩ := die_repowerDie_awake hh (by rw [hd1]; decide) hold
  rw [hd1] at hwake hkeep
  exact ⟨_, y, rfl, hy, hhot, hw, hwake, hkeep⟩

/-- A die below 90 degrees returns to its requested state, unless that is D2. -/
theorem coolAgain_die (hx : s.dies[d]? = some x) (hw : x.want ≠ .d2) : ∃ t y,
    exec (.temperatureBelow90 d) s = .next t ∧ t.dies[d]? = some y ∧ y.hot = false ∧
    s.powerOf y = if s.forcedCurrent = true ∨ s.forcedFlow = true then .d1 else x.want := by
  have hh := die_modDie_self hx fun x => { x with hot := false }
  have hn : (s.modDie d fun x => { x with hot := false }).powerOf { x with hot := false } ≠ .d2 :=
    powerOf_ne_d2 (.inl hw)
  have hold : s.powerAt d = some (s.powerOf x) := by simp [State.powerAt, hx]
  obtain ⟨y, hy, hyw, hhot, -, -⟩ := die_repowerDie_awake hh hn hold
  exact ⟨_, y, rfl, hy, hhot, by simp [State.powerOf, hhot, hyw]⟩

/-- A die below 90 degrees that is to be in D2, is up and holds no group goes to sleep, where nothing waits or is
gathered at meeting point 3. -/
theorem coolAgain_asleep (hx : s.dies[d]? = some x) (hw : x.want = .d2) (hu : x.link = .up) (hh : x.hot = true)
    (hc : s.forcedCurrent = false) (hf : s.forcedFlow = false) (hp : s.preempt = none) (hm : s.mp3 = [])
    (hb : s.busyCores d = []) : ∃ t y, exec (.temperatureBelow90 d) s = .next t ∧ t.dies[d]? = some y ∧
    y.hot = false ∧ y.link = .asleep := by
  let t := s.modDie d fun x => { x with hot := false }
  have ht : t.dies[d]? = some { x with hot := false } := die_modDie_self hx _
  have hd2 : t.powerOf { x with hot := false } = .d2 := by simp [t, State.powerOf, State.modDie, hc, hf, hw]
  have hnew : t.powerAt d = some .d2 := by rw [State.powerAt, ht, Option.map_some, hd2]
  have hold : s.powerAt d = some .d1 := by simp [State.powerAt, State.powerOf, hx, hh]
  have hstep : repowerDie s t d = t.sleepDie d := by
    have hreq : t.request (.follow d) = t.followPower d :=
      request_of_taken hm (by simp [State.canTake, t, State.modDie, hp])
    rw [repowerDie, hnew, hold, if_neg (by decide), if_pos rfl, hreq, followPower_of_empty ht hd2 hb]
  exact ⟨repowerDie s t d, _, rfl, by rw [hstep]; exact die_sleepDie ht hd2 hu hb, rfl, rfl⟩

end Power

/-! ### The statement -/

/-- Settles O48, clause by clause from the laws of errors, telemetry, resets and power states above. -/
theorem management : Obligations.Management := by
  refine ⟨fun a c s h => scrub_outside h c s, fun a s h => scrub_inside h true s, fun a s h => scrub_inside h false s,
    fun s k h => found_l2Word_of_home s h, fun s k e h he => found_l2Word_of_edge s h he,
    fun s e h => ⟨_, found_eq_logError s h false⟩, fun s l u => rfl, fun s u => ⟨_, rfl⟩,
    fun s core gk slot n t ht => ⟨_, ht.symm⟩,
    fun s store u a => ⟨logError_logSeq s store u a, logError_events s store u a⟩,
    fun s hs => ⟨_, rfl, fun k hk => telemetry_outside hs hk⟩, fun s => ⟨_, length_telemetry s 12, rfl⟩,
    fun s t d x hs ht hd hx => ?state_word, fun s hu hf hi => ?reset, fun s k hf hk hi => ?stage_fails,
    fun s pre i post hf hr hpre hi => ?image_refused, fun s b i h hb => staged_mem_resetImages h hb,
    fun d p s hp hm => ?power_waits, fun d p s hp hm => ?power_taken, fun d p s x hp hx => applyPower_awake hp hx,
    fun d s x hx hu hb hh hc hf => ⟨_, applyPower_d2 hx hu hb hh hc hf, rfl, rfl⟩, powerOf_eq,
    fun s core x hx => coreOpen_iff hx, fun d s x hx => tooHot_die hx, fun d s x hx hw => coolAgain_die hx hw,
    fun d s x hx hw hu hh hc hf hp hm hb => coolAgain_asleep hx hw hu hh hc hf hp hm hb, fun d s => ⟨_, rfl⟩,
    fun s => ⟨rfl, rfl, rfl⟩, fun s old ds hf hd d x hds hx => ?forced, fun d s q rest hm hq => request_behind hm hq⟩
  case state_word =>
    rw [exec_telemetry] at ht
    injection ht with ht
    have hle := stateWord_le hx
    rw [← ht, telemetry_stateWord hs (by omega), Nat.mod_eq_of_lt (by omega), stateWord_of_die hx]
  case reset =>
    rw [reset_of_success (bootRun_of_good hi) (bootFailure_of_sound hf none) hu, State.cleared, hf]
    rfl
  case stage_fails =>
    obtain ⟨m, p, hm, ht⟩ := reset_of_failure (bootRun_of_good hi) (bootFailure_of_fault hf hk)
    exact ⟨_, ht, rfl, rfl, rfl, rfl, hm⟩
  case image_refused =>
    have hb := bootRun_of_refused (post := post) hpre hi
    rw [← hr] at hb
    obtain ⟨m, p, -, ht⟩ := reset_of_failure hb (bootFailure_of_sound hf (some i))
    refine ⟨_, ht, rfl, congrArg some (fwCheck_of_refused hi), rfl, rfl, ?_, rfl, rfl⟩
    have hle := imageStage_le hr
    simpa [List.filter_eq_self, imageEntry] using hle
  case power_waits =>
    rw [exec_powerState, request_of_waits hm (by simpa [State.canTake] using hp)]
  case power_taken => rw [exec_powerState, request_of_taken hm (by simp [State.canTake, hp])]; rfl
  case forced =>
    have hold : old.powerAt d = some (old.powerOf x) := by simp [State.powerAt, hd, hx]
    obtain ⟨y, hy, hw, hwake, hkeep⟩ := die_repower_of_forced ds hf hx hold
    exact ⟨y, hy, hw, hwake hds, hkeep⟩

end Sys2Proof.Laws
end

section
/-! SUPPORT. What the decoder answers (R40-R46): the instruction that was encoded, only well-formed instructions that
have a word, and the words that the encodings write out. -/

namespace Sys2Proof.Laws

/-! ### Decoding what was encoded -/

/-- The round trip of every instruction word; a step that is no word has nothing to decode. -/
theorem roundTrip_of_instr (i : Instr) : RoundTrip.Statement i := by
  cases i with
  | nop => apply RoundTrip.nop | brk => apply RoundTrip.brk | trap => apply RoundTrip.trap
  | trapEsc => apply RoundTrip.trapEsc | tret => apply RoundTrip.tret | mfs => apply RoundTrip.mfs
  | mts => apply RoundTrip.mts | causeclr => apply RoundTrip.causeclr | icinv => apply RoundTrip.icinv
  | halt => apply RoundTrip.halt | iadd => apply RoundTrip.iadd | isub => apply RoundTrip.isub
  | imul => apply RoundTrip.imul | imad => apply RoundTrip.imad | imnx => apply RoundTrip.imnx
  | logic => apply RoundTrip.logic | shift => apply RoundTrip.shift | bits => apply RoundTrip.bits
  | iset => apply RoundTrip.iset | sel => apply RoundTrip.sel | lea => apply RoundTrip.lea
  | iaddi => apply RoundTrip.iaddi | andi => apply RoundTrip.andi | ori => apply RoundTrip.ori
  | xori => apply RoundTrip.xori | movl => apply RoundTrip.movl | lui => apply RoundTrip.lui
  | fadd => apply RoundTrip.fadd | fmul => apply RoundTrip.fmul | ffma => apply RoundTrip.ffma
  | fmnx => apply RoundTrip.fmnx | fset => apply RoundTrip.fset | fcvt => apply RoundTrip.fcvt
  | sfu => apply RoundTrip.sfu | frnd => apply RoundTrip.frnd | hop2 => apply RoundTrip.hop2
  | dot => apply RoundTrip.dot | shfl => apply RoundTrip.shfl | vote => apply RoundTrip.vote
  | wred => apply RoundTrip.wred | plog => apply RoundTrip.plog | xmov => apply RoundTrip.xmov
  | meldDecl => apply RoundTrip.meldDecl | meldSign => apply RoundTrip.meldSign
  | meldCancel => apply RoundTrip.meldCancel | meldQry => apply RoundTrip.meldQry | ldw => apply RoundTrip.ldw
  | ldwSwap => apply RoundTrip.ldwSwap | mstr => apply RoundTrip.mstr | accAcq => apply RoundTrip.accAcq
  | accRel => apply RoundTrip.accRel | accZ => apply RoundTrip.accZ | accRd => apply RoundTrip.accRd
  | accWr => apply RoundTrip.accWr | tilePlane => apply RoundTrip.tilePlane
  | tileHnd => apply RoundTrip.tileHnd | tileDim => apply RoundTrip.tileDim
  | tileAdv => apply RoundTrip.tileAdv | ld => apply RoundTrip.ld | st => apply RoundTrip.st
  | ldx => apply RoundTrip.ldx | stx => apply RoundTrip.stx | lde => apply RoundTrip.lde
  | ste => apply RoundTrip.ste | atom => apply RoundTrip.atom | acpy => apply RoundTrip.acpy
  | tagLook => apply RoundTrip.tagLook | tagSet => apply RoundTrip.tagSet | tagInv => apply RoundTrip.tagInv
  | tagRd => apply RoundTrip.tagRd | tagWr => apply RoundTrip.tagWr | splfSt => apply RoundTrip.splfSt
  | splfLd => apply RoundTrip.splfLd | fencM => apply RoundTrip.fencM | fencQImm => apply RoundTrip.fencQImm
  | fencQReg => apply RoundTrip.fencQReg | fencR => apply RoundTrip.fencR
  | fencRcommit => apply RoundTrip.fencRcommit | futFill => apply RoundTrip.futFill
  | futWait => apply RoundTrip.futWait | futTake => apply RoundTrip.futTake | futClr => apply RoundTrip.futClr
  | bra => apply RoundTrip.bra | braPred => apply RoundTrip.braPred | braU => apply RoundTrip.braU
  | jmpr => apply RoundTrip.jmpr | jmprLink => apply RoundTrip.jmprLink | call => apply RoundTrip.call
  | spawn => apply RoundTrip.spawn | reform => apply RoundTrip.reform | rcv => apply RoundTrip.rcv
  | exit => apply RoundTrip.exit | yield => apply RoundTrip.yield | handoff => apply RoundTrip.handoff
  | bar => apply RoundTrip.bar | syncw => apply RoundTrip.syncw | syncwU => apply RoundTrip.syncwU
  | wbase => apply RoundTrip.wbase | rpf => apply RoundTrip.rpf | acqB => apply RoundTrip.acqB
  | acqT => apply RoundTrip.acqT | rel => apply RoundTrip.rel | qry => apply RoundTrip.qry
  | forkMx => apply RoundTrip.forkMx | forkCp => apply RoundTrip.forkCp | forkBoth => apply RoundTrip.forkBoth
  | rdv => apply RoundTrip.rdv | tq => apply RoundTrip.tq | enq => apply RoundTrip.enq
  | tapeArm => apply RoundTrip.tapeArm | tapeOff => apply RoundTrip.tapeOff
  | tapeQry => apply RoundTrip.tapeQry | bin => apply RoundTrip.bin | pld => apply RoundTrip.pld
  | pst => apply RoundTrip.pst | sample => apply RoundTrip.sample | blend => apply RoundTrip.blend
  | tdone => apply RoundTrip.tdone | dcmp => apply RoundTrip.dcmp | pipeMap => apply RoundTrip.pipeMap
  | pipeUnmap => apply RoundTrip.pipeUnmap | pipeQry => apply RoundTrip.pipeQry
  | _ => exact no_word rfl

/-- Settles O51, from the round trip of each instruction. -/
theorem decodeOfEncode : Obligations.DecodeOfEncode := roundTrip_of_instr

/-! ### What the decoders' steps answer (R46) -/

/-- Whatever instruction a decoder answers has a word. -/
def AnswersWords (k : Dec) : Prop := ∀ i, k = .ok i → (fields i).isSome = true

@[simp] theorem answersWords_error (r : Reject) : AnswersWords (.error r) := by simp [AnswersWords]

@[simp] theorem answersWords_ok (i : Instr) : AnswersWords (.ok i) ↔ (fields i).isSome = true := by
  simp [AnswersWords]

@[simp] theorem answersWords_need {α : Type} (x : Option α) (k : α → Dec) :
    AnswersWords (need x k) ↔ ∀ a, x = some a → AnswersWords (k a) := by
  cases x <;> simp [need]

@[simp] theorem answersWords_zero {n : Nat} (x : BitVec n) (k : Dec) :
    AnswersWords (zero x k) ↔ (x = 0 → AnswersWords k) := by
  unfold zero; split <;> simp_all

@[simp] theorem answersWords_uni (x : BitVec 7) (k : BitVec 6 → Dec) :
    AnswersWords (uni x k) ↔ (fbit x 6 = false → AnswersWords (k (x.extractLsb' 0 6))) := by
  unfold uni; split <;> simp [*]

@[simp] theorem answersWords_low6 (x : BitVec 7) (k : BitVec 6 → Dec) :
    AnswersWords (low6 x k) ↔ (fbit x 6 = false → AnswersWords (k (x.extractLsb' 0 6))) := by
  unfold low6; split <;> simp [*]

@[simp] theorem answersWords_pred (x : BitVec 7) (k : BitVec 4 → Dec) :
    AnswersWords (pred x k) ↔ (x.extractLsb' 4 3 = 0 → AnswersWords (k (x.extractLsb' 0 4))) := by
  unfold pred; split <;> simp_all

@[simp] theorem answersWords_meldOp (x : Bool) (k : BitVec 3) (f : MeldOp → Dec) :
    AnswersWords (meldOp x k f) ↔
      (x = true → AnswersWords (f (some k))) ∧ (x = false → k = 0 → AnswersWords (f none)) := by
  cases x <;> simp [meldOp]

@[simp] theorem answersWords_tile (x : BitVec 7) (k : BitVec 5 → Dec) :
    AnswersWords (tile x k) ↔ (x.extractLsb' 5 2 = 0 → AnswersWords (k (x.extractLsb' 0 5))) :=
  answersWords_zero _ _

@[simp] theorem answersWords_ite {p : Prop} [Decidable p] (k j : Dec) :
    AnswersWords (if p then k else j) ↔ (p → AnswersWords k) ∧ (¬ p → AnswersWords j) := by
  split <;> simp [*]

/-! ### The decoder of each major: every arm ends in a refusal or in an instruction that has a word (R44) -/

@[simp] theorem answersWords_decSys (f : Fields) : AnswersWords (decSys f) := by
  unfold decSys
  split <;> split <;> simp <;> intros <;> rfl

@[simp] theorem answersWords_decInt (f : Fields) : AnswersWords (decInt f) := by
  unfold decInt
  split <;> simp [itype, mzero] <;> intros <;> rfl

@[simp] theorem answersWords_decFloat (f : Fields) : AnswersWords (decFloat f) := by
  unfold decFloat
  split <;> simp [ffmt, rnd, mzero] <;> intros <;> rfl

@[simp] theorem answersWords_decCross (f : Fields) : AnswersWords (decCross f) := by
  unfold decCross
  split <;> simp [mzero] <;> intros <;> and_intros <;> intros <;> rfl

@[simp] theorem answersWords_decMeld (f : Fields) : AnswersWords (decMeld f) := by
  unfold decMeld
  split <;> simp <;> intros <;> rfl

@[simp] theorem answersWords_decLdw (f : Fields) : AnswersWords (decLdw f) := by
  unfold decLdw
  split <;> simp [mzero] <;> intros <;> and_intros <;> intros <;> rfl

@[simp] theorem answersWords_decMstr (f : Fields) : AnswersWords (decMstr f) := by
  simp [decMstr, mzero]
  intros; and_intros <;> intros <;> rfl

@[simp] theorem answersWords_decAcc (f : Fields) : AnswersWords (decAcc f) := by
  unfold decAcc
  split <;> simp [mzero] <;> intros <;> and_intros <;> intros <;> rfl

@[simp] theorem answersWords_decTile (f : Fields) : AnswersWords (decTile f) := by
  unfold decTile
  split <;> simp <;> intros <;> rfl

@[simp] theorem answersWords_decAcpy (f : Fields) : AnswersWords (decAcpy f) := by
  simp [decAcpy]
  intros; rfl

@[simp] theorem answersWords_decTag (f : Fields) : AnswersWords (decTag f) := by
  unfold decTag
  split <;> simp <;> intros <;> rfl

@[simp] theorem answersWords_decFenc (f : Fields) : AnswersWords (decFenc f) := by
  unfold decFenc
  split <;> simp <;> intros <;> rfl

@[simp] theorem answersWords_decFut (f : Fields) : AnswersWords (decFut f) := by
  unfold decFut
  split <;> simp <;> intros <;> rfl

@[simp] theorem answersWords_decMem (f : Fields) : AnswersWords (decMem f) := by
  unfold decMem
  split
  case h_10 => split <;> simp <;> rfl
  all_goals simp <;> intros <;> rfl

@[simp] theorem answersWords_decBra (f : Fields) : AnswersWords (decBra f) := by
  unfold decBra
  split <;> simp <;> intros <;> rfl

@[simp] theorem answersWords_decJmpr (f : Fields) : AnswersWords (decJmpr f) := by
  simp [decJmpr, mzero]
  intros; and_intros <;> intros <;> rfl

@[simp] theorem answersWords_decThrd (f : Fields) : AnswersWords (decThrd f) := by
  unfold decThrd
  split <;> simp <;> intros <;> rfl

@[simp] theorem answersWords_decBar (f : Fields) : AnswersWords (decBar f) := by
  unfold decBar
  split_ifs <;> simp <;> intros <;> rfl

@[simp] theorem answersWords_decBank (f : Fields) : AnswersWords (decBank f) := by
  unfold decBank
  split <;> simp <;> intros <;> rfl

@[simp] theorem answersWords_decEng (f : Fields) : AnswersWords (decEng f) := by
  unfold decEng
  split <;> simp <;> intros <;> rfl

@[simp] theorem answersWords_decTape (f : Fields) : AnswersWords (decTape f) := by
  unfold decTape
  split <;> simp <;> intros <;> rfl

@[simp] theorem answersWords_decGfx (f : Fields) : AnswersWords (decGfx f) := by
  unfold decGfx
  split <;> simp [mzero] <;> intros <;> rfl

@[simp] theorem answersWords_decPipe (f : Fields) : AnswersWords (decPipe f) := by
  unfold decPipe
  split <;> simp <;> intros <;> rfl

@[simp] theorem answersWords_decCtl (f : Fields) : AnswersWords (decCtl f) := by
  unfold decCtl
  split <;> simp <;> intros <;> rfl

/-- The fields of every format, by ranges of the major (R44). -/
theorem answersWords_decodeFields (f : Fields) : AnswersWords (decodeFields f) := by
  unfold decodeFields
  split_ifs
  · exact answersWords_decSys f
  · exact answersWords_decInt f
  · split <;> simp <;> rfl
  · exact answersWords_decFloat f
  · exact answersWords_decCross f
  · split <;> simp
  · split <;> simp

/-- Settles O52: the check of R46 lets nothing else through, and every answer of the fields' decoder has a word. -/
theorem decodedIsWellFormed : Obligations.DecodedIsWellFormed := by
  intro w i hw
  unfold decode at hw
  cases hf : decodeFields (Fields.ofWord w) with
  | error r => simp [hf] at hw
  | ok j =>
    cases hr : j.reject with
    | some r => simp [hf, hr] at hw
    | none =>
      obtain rfl : j = i := by simpa [hf, hr] using hw
      exact ⟨by simp [Instr.wellFormed, hr], by
        simpa [encode] using answersWords_decodeFields _ j hf⟩

/-! ### Words written out -/

/-- Settles O53: each word by evaluation; major 0x3F is beyond every range of R44, whatever the other fields hold. -/
theorem decodeOfWrittenWords : Obligations.DecodeOfWrittenWords := by
  refine ⟨?_, ?_, ?_, ?_, ?_, ?_, ?_, ?_, ?_, ?_, ?_, ?_, ?_, ?_, ?_, ?_, fun w h => ?reserved⟩
  case reserved => simp [decode, decodeFields, decCtl, Fields.ofWord, h]
  all_goals decide

end Sys2Proof.Laws
end

section
/-! SUPPORT. What stops a word before its effect (R26, R29, R30, R39, R46, R47, R51, R132, R382). -/

namespace Sys2Proof.Laws

open Sys2Proof.Machine

/-! ### Every instruction word is run by runWord -/

/-- The meaning of an instruction word is its checks and then some effect; a step that is no word has no encoding. -/
theorem exec_eq_runWord {i : Instr} (hi : (encode i).isSome = true) :
    ∃ eff, ∀ s, exec i s = runWord i s eff := by
  cases i
  all_goals try cases hi
  all_goals (apply Exists.intro; intro s; dsimp only [exec]; rfl)

/-- A word that its checks stop leaves what they decide. -/
theorem exec_of_stop {i : Instr} {s t : State} {x : Ctx} (hi : (encode i).isSome = true) (hx : ctxOf s = some x)
    (hg : gate i x = .stop t) : exec i s = .next t := by
  obtain ⟨eff, he⟩ := exec_eq_runWord hi
  simp [he, runWord, hx, hg]

/-! ### The checks in their order (R46, log 77) -/

/-- A word that is illegal raises ILLOP. -/
theorem gate_of_illegal {i : Instr} {x : Ctx}
    (h : x.held (opndsOf i) = false ∨ x.tilesOk (opndsOf i) = false ∨ x.mtsLanes i = true) :
    gate i x = .stop (x.raise Cause.illop) := by
  rcases h with h | h | h <;> simp [gate, h]

/-- The word is legal at the set and its privilege is held: the checks of R46 pass it (R26, R29, R30, R394). -/
structure Permitted (i : Instr) (x : Ctx) : Prop where
  held : x.held (opndsOf i) = true
  tiles : x.tilesOk (opndsOf i) = true
  writable : x.mtsLanes i = false
  mode : (opndsOf i).priv = true → x.sup = true

/-- A privileged word in user mode raises ILLPRIV. -/
theorem gate_of_userMode {i : Instr} {x : Ctx} (hh : x.held (opndsOf i) = true) (ht : x.tilesOk (opndsOf i) = true)
    (hm : x.mtsLanes i = false) (hp : (opndsOf i).priv = true) (hs : x.sup = false) :
    gate i x = .stop (x.raise Cause.illpriv) := by
  simp [gate, hh, ht, hm, hp, hs]

section Gate

variable {i : Instr} {x : Ctx} (h : Permitted i x)
include h

theorem Permitted.mode_passes : ((opndsOf i).priv && !x.sup) = false := by
  cases hp : (opndsOf i).priv
  · rfl
  · simp [h.mode hp]

/-- A permitted word that meets a failed token raises its cause. -/
theorem gate_of_failed {r c : Nat} (hf : x.failed (opndsOf i) = some (r, c)) : gate i x = .stop (x.raiseTok r c) := by
  simp [gate, h.held, h.tiles, h.writable, h.mode_passes, hf]

variable (hf : x.failed (opndsOf i) = none)
include hf

/-- With no failed token a pending uniform register stalls it. -/
theorem gate_of_pendingU (hu : x.pendingU i (opndsOf i) ≠ []) :
    gate i x = .stop (x.stallTok x.s (x.pendingU i (opndsOf i))) := by
  simp [gate, h.held, h.tiles, h.writable, h.mode_passes, hf, hu]

variable (hu : x.pendingU i (opndsOf i) = [])
include hu

/-- Then a pending vector register does. -/
theorem gate_of_pendingV (hv : x.pendingV (opndsOf i) = true) : gate i x = .stop (x.stall x.s .token) := by
  simp [gate, h.held, h.tiles, h.writable, h.mode_passes, hf, hu, hv]

variable (hv : x.pendingV (opndsOf i) = false)
include hv

/-- Then a poisoned register raises DATAERR. -/
theorem gate_of_poison (hp : x.readsPoison (opndsOf i) = true) : gate i x = .stop (x.raise Cause.dataerr) := by
  simp [gate, h.held, h.tiles, h.writable, h.mode_passes, hf, hu, hv, hp]

variable (hp : x.readsPoison (opndsOf i) = false)
include hp

/-- Then a pipe whose partner is gone raises PIPEFE. -/
theorem gate_of_partnerGone {q : Pipe} (hq : q ∈ x.pipeBlocked (opndsOf i)) (hg : x.partnerGone q = true) :
    gate i x = .stop (x.raise Cause.pipefe) := by
  have hne : x.pipeBlocked (opndsOf i) ≠ [] := List.ne_nil_of_mem hq
  have hany : ∃ q ∈ x.pipeBlocked (opndsOf i), x.partnerGone q = true := ⟨q, hq, hg⟩
  simp [gate, h.held, h.tiles, h.writable, h.mode_passes, hf, hu, hv, hp, hne, hany]

/-- And any other pipe that blocks makes the lanes wait. -/
theorem gate_of_blocked (hne : x.pipeBlocked (opndsOf i) ≠ [])
    (hg : ∀ q ∈ x.pipeBlocked (opndsOf i), x.partnerGone q = false) :
    ∃ ks, gate i x = .stop (x.waitAt x.s x.ls (.pipe i ks x.s.stepNo)) := by
  have hany : (x.pipeBlocked (opndsOf i)).any x.partnerGone = false := by simpa using hg
  exact ⟨(x.pipeUses (opndsOf i)).map fun e => e.2.1.k,
    by simp [gate, h.held, h.tiles, h.writable, h.mode_passes, hf, hu, hv, hp, hne, hany]⟩

end Gate

/-- Settles O56: the checks are those of every word, and each decides in its turn. -/
theorem whatStopsAWord : Obligations.WhatStopsAWord := by
  intro i s x hi hx
  refine ⟨fun h => exec_of_stop hi hx (gate_of_illegal h), fun hh ht hm => ⟨fun hp hs => ?_, fun hp => ?_⟩⟩
  · exact exec_of_stop hi hx (gate_of_userMode hh ht hm hp hs)
  have h : Permitted i x := ⟨hh, ht, hm, hp⟩
  refine ⟨fun r c hf => exec_of_stop hi hx (gate_of_failed h hf), fun hf => ⟨fun hu => ?pending, fun hu =>
    ⟨fun hv => exec_of_stop hi hx (gate_of_pendingV h hf hu hv), fun hv =>
      ⟨fun hp => exec_of_stop hi hx (gate_of_poison h hf hu hv hp), fun hp => ⟨?gone, ?blocked⟩⟩⟩⟩⟩
  case pending => exact ⟨_, exec_of_stop hi hx (gate_of_pendingU h hf hu), fun _ => rfl⟩
  case gone =>
    rintro ⟨q, hq, hg⟩
    exact exec_of_stop hi hx (gate_of_partnerGone h hf hu hv hp hq hg)
  case blocked =>
    intro hne hg
    obtain ⟨ks, hk⟩ := gate_of_blocked h hf hu hv hp hne hg
    exact ⟨ks, exec_of_stop hi hx hk⟩

end Sys2Proof.Laws
end

section
/-! SUPPORT. Masks of lanes, the warp slot of a warp number, the set that issues, and a word that touches no pipe (R50,
R238). -/

namespace Sys2Proof.Laws

open Sys2Proof.Machine

/-! ### Masks and lists of lanes (R242) -/

@[simp] theorem mem_maskLanes {m : Mask} {l : Nat} : l ∈ maskLanes m ↔ m.getLsbD l = true := by
  simp only [maskLanes, List.mem_filter, List.mem_range, and_iff_right_iff_imp]
  exact BitVec.lt_of_getLsbD

theorem getLsbD_laneBit {j l : Nat} (h : j < 32) : (laneBit l).getLsbD j = decide (j = l) := by
  simp only [laneBit, BitVec.getLsbD_shiftLeft, BitVec.getLsbD_one]
  grind

/-- The mask of a list has the lanes of the list. -/
theorem getLsbD_maskOf (ls : List Nat) {j : Nat} (h : j < 32) : (maskOf ls).getLsbD j = decide (j ∈ ls) := by
  suffices H : ∀ m : Mask, (ls.foldl (fun m l => m ||| laneBit l) m).getLsbD j = (m.getLsbD j || decide (j ∈ ls)) by
    simpa [maskOf] using H 0
  induction ls with
  | nil => simp
  | cons l r ih =>
    intro m
    rw [List.foldl_cons, ih, BitVec.getLsbD_or, getLsbD_laneBit h]
    simp [Bool.or_assoc]

theorem mem_maskLanes_maskOf {ls : List Nat} {l : Nat} : l ∈ maskLanes (maskOf ls) ↔ l < 32 ∧ l ∈ ls := by
  rw [mem_maskLanes]
  by_cases h : l < 32
  · rw [getLsbD_maskOf ls h]; simp [h]
  · simp [h, BitVec.getLsbD_of_ge _ _ (by omega : 32 ≤ l)]

/-- A mask is that of its lanes. -/
@[simp] theorem maskOf_maskLanes (m : Mask) : maskOf (maskLanes m) = m :=
  BitVec.eq_of_getLsbD_eq fun i hi => by simp [getLsbD_maskOf _ hi]

theorem maskOf_ne_zero {ls : List Nat} {l : Nat} (hl : l ∈ ls) (h : l < 32) : maskOf ls ≠ 0 := by
  intro e
  have := getLsbD_maskOf ls h
  simp [e, hl] at this

/-! ### The warp slot of a warp number -/

theorem indexOf?_map {α β : Type} (f : α → β) (p : β → Bool) (l : List α) :
    indexOf? (l.map f) p = indexOf? l fun a => p (f a) := by
  induction l with
  | nil => rfl
  | cons a r ih => simp [indexOf?, ih]

theorem getElem?_of_indexOf? {α : Type} {l : List α} {p : α → Bool} {i : Nat} (h : indexOf? l p = some i) :
    ∃ a, l[i]? = some a ∧ p a = true := by
  induction l generalizing i with
  | nil => simp [indexOf?] at h
  | cons a r ih =>
    simp only [indexOf?] at h
    split at h
    · next hp => simp only [Option.some.injEq] at h; subst h; exact ⟨a, rfl, hp⟩
    · obtain ⟨j, hj, rfl⟩ := Option.map_eq_some_iff.mp h
      simpa using ih hj

/-- The warp slot found for a number holds the warp of that number, in a group of the core. -/
theorem findWid_spec {k : Core} {wid slot : Nat} {g : Group} {w : Warp} (h : k.findWid wid = some (g, slot, w)) :
    g ∈ k.groups ∧ g.warp? slot = some w ∧ w.wid = wid := by
  obtain ⟨a, ha, hf⟩ := List.exists_of_findSome?_eq_some h
  obtain ⟨i, hi, hw⟩ := Option.bind_eq_some_iff.mp hf
  obtain ⟨v, hv, he⟩ := Option.map_eq_some_iff.mp hw
  obtain ⟨u, hu, hp⟩ := getElem?_of_indexOf? hi
  obtain ⟨rfl, rfl, rfl⟩ : a = g ∧ i = slot ∧ v = w := by simpa using he
  obtain rfl : v = u := by simpa [hv] using hu
  exact ⟨ha, hv, by simpa using hp⟩

/-- A change of groups that leaves every warp its number leaves a number where it was. -/
theorem findWid_map {k j : Core} {wid slot : Nat} {g : Group} {w : Warp} {F : Group → Group}
    (hj : j.groups = k.groups.map F) (hF : ∀ h, (F h).warps.map (·.wid) = h.warps.map (·.wid))
    (h : k.findWid wid = some (g, slot, w)) :
    ∃ v, (F g).warp? slot = some v ∧ j.findWid wid = some (F g, slot, v) := by
  have hidx (a : Group) : indexOf? (F a).warps (fun w => w.wid == wid) = indexOf? a.warps fun w => w.wid == wid := by
    rw [← indexOf?_map Warp.wid (· == wid), ← indexOf?_map Warp.wid (· == wid), hF]
  simp only [Core.findWid, hj] at h ⊢
  generalize k.groups = l at h
  induction l with
  | nil => simp at h
  | cons a r ih =>
    simp only [List.map_cons, List.findSome?_cons, hidx] at h ⊢
    cases hi : indexOf? a.warps fun w => w.wid == wid with
    | none => simp only [hi, Option.bind_none] at h ⊢; exact ih h
    | some i =>
      have hlen : (F a).warps.length = a.warps.length := by simpa using congrArg List.length (hF a)
      obtain ⟨u, hu, -⟩ := getElem?_of_indexOf? hi
      have hv : i < (F a).warps.length := by rw [hlen]; exact (List.getElem?_eq_some_iff.mp hu).1
      obtain ⟨rfl, rfl, -⟩ : a = g ∧ i = slot ∧ u = w := by simpa [hi, hu] using h
      exact ⟨_, List.getElem?_eq_getElem hv, by simp [List.getElem?_eq_getElem hv]⟩

/-! ### The set that issues (R238) -/

theorem mem_pathOf {g : Group} {w : Warp} {l j : Nat} : j ∈ g.pathOf w l ↔ ∃ a b, g.laneThread w l = some a ∧
    g.laneThread w j = some b ∧ j < 32 ∧ b.wait = .none ∧ b.pc = a.pc ∧ w.together j l = true := by
  unfold Group.pathOf
  cases hl : g.laneThread w l with
  | none => simp
  | some a =>
    cases hj : g.laneThread w j with
    | none => simp [hj]
    | some b => simp [hj, Wait.issuable, and_assoc]

theorem mem_eligible {g : Group} {w : Warp} {l : Nat} :
    l ∈ g.eligible w ↔ ∃ a, g.laneThread w l = some a ∧ l < 32 ∧ a.wait = .none := by
  unfold Group.eligible
  cases hl : g.laneThread w l <;> simp [hl, Wait.issuable]

theorem together_refl (w : Warp) (l : Nat) : w.together l l = true := by simp [Warp.together]

/-- The issuing set of a mover: where it was found, and the path that its lanes share. -/
theorem issuingSet_spec {s : State} {core wid : Nat} {lanes : Mask} {x : Ctx}
    (h : s.issuingSet core wid lanes = some x) :
    x.s = s ∧ x.core = core ∧ (s.core core).findWid wid = some (x.g, x.slot, x.w) ∧
      (s.core core).mayIssue s.clk x.g = true ∧ x.lanes ≠ 0 ∧
      ∀ l, l ∈ maskLanes x.lanes → lanes.getLsbD l = true ∧
        ∃ t, x.g.laneThread x.w l = some t ∧ t.wait = .none ∧ t.pc = x.pc := by
  unfold State.issuingSet at h
  obtain ⟨⟨g, slot, w⟩, hf, h⟩ := Option.bind_eq_some_iff.mp h
  have hm : (s.core core).mayIssue s.clk g = true := by
    by_contra hm
    simp [hm] at h
  obtain ⟨l, ls, hls⟩ : ∃ l ls, (maskLanes lanes).filter (g.eligible w).contains = l :: ls := by
    refine List.exists_cons_of_ne_nil fun hls => ?_
    simp [hm, hls] at h
  simp only [hm, hls, Bool.not_true, Bool.false_eq_true, if_false] at h
  obtain ⟨a, ha, rfl⟩ := Option.map_eq_some_iff.mp h
  have hl : l ∈ l :: ls := List.mem_cons_self
  rw [← hls] at hl
  simp only [List.mem_filter, List.contains_iff_mem, mem_eligible] at hl
  obtain ⟨-, b, hb, hlt, hw⟩ := hl
  obtain rfl : a = b := by simpa [ha] using hb
  have hpath : l ∈ g.pathOf w l := mem_pathOf.mpr ⟨a, a, ha, ha, hlt, hw, rfl, together_refl w l⟩
  refine ⟨rfl, rfl, hf, hm, maskOf_ne_zero (l := l) (by simp [hpath]) hlt, fun j hj => ?_⟩
  obtain ⟨-, hj⟩ := mem_maskLanes_maskOf.mp hj
  rw [List.mem_filter, ← hls] at hj
  obtain ⟨hin, hp⟩ := hj
  obtain ⟨a', b, ha', hb, -, hwait, hpc, -⟩ := mem_pathOf.mp (List.contains_iff_mem.mp hp)
  obtain rfl : a = a' := by simpa [ha] using ha'
  exact ⟨mem_maskLanes.mp (List.mem_filter.mp hin).1, b, hb, hwait, hpc⟩

/-! ### The set once it has entered -/

/-- Changes of the threads of a list of lanes keep every thread slot that is live. -/
theorem lanes_fold_isSome (x : Ctx) (f : Nat → Thread → Thread) (ls : List Nat) (g : Group) (t : Nat) :
    (sfind (ls.foldl (fun (g : Group) l => g.modThread (x.slotOf l) (f l)) g).threads t).isSome =
      (sfind g.threads t).isSome := by
  induction ls generalizing g with
  | nil => rfl
  | cons l r ih =>
    rw [List.foldl_cons, ih]
    by_cases ht : t = x.slotOf l
    · subst ht
      cases hs : sfind g.threads (x.slotOf l) with
      | none => simp [Group.modThread, hs]
      | some th => simp [sfind_modThread_self hs]
    · rw [sfind_modThread_of_ne _ ht]

/-- Two changes of the groups of one key are one change of them. -/
theorem modGroup_modGroup (k : Core) (gk : Nat) (f h : Group → Group) (hf : ∀ g, (f g).gk = g.gk) :
    (k.modGroup gk f).modGroup gk h = k.modGroup gk fun g => h (f g) := by
  simp only [Core.modGroup, List.map_map]
  congr 1
  apply List.map_congr_left
  intro g _
  by_cases hg : g.gk = gk <;> simp [hg, hf]

/-- The core after two such changes. -/
theorem core_modGroup_modGroup (s : State) {c gk : Nat} {f h : Group → Group} (hne : (s.core c).groups ≠ [])
    (hf : ∀ g, (f g).gk = g.gk) :
    ((s.modGroup c gk f).modGroup c gk h).core c = (s.core c).modGroup gk fun g => h (f g) := by
  have hne' : ((s.modGroup c gk f).core c).groups ≠ [] := by
    simpa [core_modGroup_self s c gk f hne] using hne
  rw [core_modGroup_self _ c gk h hne', core_modGroup_self s c gk f hne, modGroup_modGroup _ gk f h hf]

/-- What entering does to the warp slot of the set: its handler has begun, and its stalls are over (R240, R332). -/
def enteredWarp (x : Ctx) (w : Warp) : Warp :=
  { w with subs := w.subs.map fun b => if b.lanes &&& x.lanes = 0 then b else { b with begun := true }
           waited := maskOf (x.ls.filter fun l => (x.th l).wait != .none)
           stalls := cutStalls w.stalls x.lanes, tqs := x.tqsKept w.tqs }

/-- What entering does to the group of the set: its lanes wait no longer. -/
def enteredGroup (x : Ctx) (g : Group) : Group :=
  x.ls.foldl (fun g l => g.modThread (x.slotOf l) fun th => { th with wait := .none })
    (g.modWarp x.slot (enteredWarp x))

/-- The state in which the set is the machine's issuing set. -/
def issueState (x : Ctx) : State := { x.s with issue := some ⟨x.core, x.w.wid, x.lanes, x.pc⟩ }

theorem entered_eq (x : Ctx) : x.entered =
    ((issueState x).modGroup x.core x.g.gk fun g => g.modWarp x.slot (enteredWarp x)).modGroup x.core x.g.gk
      fun g => x.ls.foldl (fun g l => g.modThread (x.slotOf l) fun th => { th with wait := .none }) g := rfl

theorem entered_core {x : Ctx} (h : (x.s.core x.core).groups ≠ []) :
    x.entered.core x.core = (x.s.core x.core).modGroup x.g.gk (enteredGroup x) := by
  rw [entered_eq, core_modGroup_modGroup (issueState x) h fun g => group_modWarp_gk g _ _]
  rfl

theorem enteredGroup_warps (x : Ctx) (g : Group) :
    (enteredGroup x g).warps = modAt g.warps x.slot (enteredWarp x) := by
  obtain ⟨ts, hts⟩ := lanes_fold_frame x (fun _ th => { th with wait := .none }) x.ls (g.modWarp x.slot (enteredWarp x))
  rw [enteredGroup, hts]
  rfl

theorem map_modAt {α β : Type} (p : α → β) (f : α → α) (hf : ∀ a, p (f a) = p a) (l : List α) (n : Nat) :
    (modAt l n f).map p = l.map p := by
  induction l generalizing n with
  | nil => rfl
  | cons a r ih => cases n <;> simp [modAt, hf, ih]

theorem enteredGroup_laneThread_isSome (x : Ctx) (g : Group) (w : Warp) (l : Nat) :
    ((enteredGroup x g).laneThread (enteredWarp x w) l).isSome = (g.laneThread w l).isSome := by
  have ht : (enteredWarp x w).tslot l = w.tslot l := rfl
  simp only [Group.laneThread, ht]
  cases w.tslot l with
  | none => rfl
  | some t => exact lanes_fold_isSome x (fun _ th => { th with wait := .none }) x.ls _ t

/-- The machine's issuing set, once a set has entered, is that set. -/
theorem ctxOf_entered {x : Ctx} {wid : Nat} (hw : (x.s.core x.core).findWid wid = some (x.g, x.slot, x.w))
    (h0 : x.lanes ≠ 0) (hl : ∀ l, l ∈ maskLanes x.lanes → (x.g.laneThread x.w l).isSome = true) :
    ctxOf x.entered = some { x with s := x.entered, g := enteredGroup x x.g, w := enteredWarp x x.w } := by
  obtain ⟨hg, hslot, rfl⟩ := findWid_spec hw
  have hne : (x.s.core x.core).groups ≠ [] := List.ne_nil_of_mem hg
  obtain ⟨v, hv, hfind⟩ := findWid_map (F := fun h => if h.gk = x.g.gk then enteredGroup x h else h)
    (j := x.entered.core x.core) (by rw [entered_core hne]; rfl)
    (fun h => by
      split
      · rw [enteredGroup_warps, map_modAt Warp.wid (enteredWarp x) fun _ => rfl]
      · rfl) hw
  rw [if_pos rfl] at hv hfind
  obtain rfl : enteredWarp x x.w = v := by
    have hs := warp?_modWarp_self x.g x.slot (enteredWarp x)
    rw [hslot, Group.warp?, group_modWarp_warps, ← enteredGroup_warps] at hs
    simpa [Group.warp?, hv] using hs.symm.trans hv
  have hlanes : (maskLanes x.lanes).filter (fun l => ((enteredGroup x x.g).laneThread (enteredWarp x x.w) l).isSome) =
      maskLanes x.lanes :=
    List.filter_eq_self.mpr fun l h => (enteredGroup_laneThread_isSome x x.g x.w l).trans (hl l h)
  have hi : x.entered.issue = some ⟨x.core, x.w.wid, x.lanes, x.pc⟩ := rfl
  simp only [ctxOf, hi, Option.bind_some, hfind, hlanes, maskOf_maskLanes, h0, if_false]

/-! ### A word that touches no pipe, in a gang that is not recorded -/

theorem pipeUses_of_unpiped {x : Ctx} (h : ∀ q ∈ (x.s.core x.core).pipes, q.gang ≠ x.g.gang) (o : Opnds) :
    x.pipeUses o = [] := by
  have hr (n : Nat) : x.pipeReg n = none := by
    simp only [Ctx.pipeReg, Core.pipeAt, List.findSome?_eq_none_iff]
    intro q hq
    rw [if_neg fun e => h q hq e.1]
  simp [Ctx.pipeUses, hr]

theorem marked_of_unrecorded {x : Ctx} (h : x.s.recorderOf x.g.gang = none) (o : Opnds) : x.marked o = x := by
  simp [Ctx.marked, State.sync, h]

theorem marked_of_unread {x : Ctx} {o : Opnds} (hp : ∀ q ∈ (x.s.core x.core).pipes, q.gang ≠ x.g.gang)
    (h : ∀ r ∈ o.ur, r ∉ x.w.tokw) : x.marked o = x := by
  have ht : o.ur.any (fun r => x.w.tokw.contains r) = false := by simpa using h
  simp only [Ctx.marked, pipeUses_of_unpiped hp, ht, List.any_nil, Bool.or_self, Bool.false_eq_true, if_false]

/-- Where nothing is marked and no pipe is used, a word leaves what its effect leaves. -/
theorem performed_of_unpiped {i : Instr} {x : Ctx} (eff : Ctx → State)
    (hp : ∀ q ∈ (x.s.core x.core).pipes, q.gang ≠ x.g.gang) (hm : x.marked (opndsOf i) = x) :
    performed i x eff = eff x := by
  simp [performed, hm, Ctx.pipeAfter, pipeUses_of_unpiped hp]

/-- Settles O55: the set is found with its lanes, is the machine's once it has entered, and nothing but its effect is
left where no pipe and no recorder stands. -/
theorem setThatIssues : Obligations.SetThatIssues := by
  refine ⟨fun s core wid lanes x h => ?_, fun s core wid lanes x h => ?_,
    fun i x eff hp hr => performed_of_unpiped eff hp (marked_of_unrecorded hr _),
    fun i x eff hp ht => performed_of_unpiped eff hp (marked_of_unread hp ht)⟩
  all_goals obtain ⟨rfl, rfl, hf, hm, h0, hl⟩ := issuingSet_spec h
  · exact ⟨rfl, rfl, h0, hm, hl⟩
  · have hlive : ∀ l, l ∈ maskLanes x.lanes → (x.g.laneThread x.w l).isSome = true := fun l h => by
      obtain ⟨-, t, ht, -⟩ := hl l h
      simp [ht]
    refine ⟨_, ctxOf_entered hf h0 hlive, rfl, rfl, rfl, rfl, ?_, rfl, rfl⟩
    obtain ⟨ts, hts⟩ :=
      lanes_fold_frame x (fun _ th => { th with wait := .none }) x.ls (x.g.modWarp x.slot (enteredWarp x))
    simp only [enteredGroup, hts, group_modWarp_gk]

end Sys2Proof.Laws
end

section
/-! SUPPORT. What one step performs, and the word that a fetch reads (R46, R48, R50, R238). -/

namespace Sys2Proof.Laws

open Sys2Proof.Machine

/-! ### The mover at the agenda's head (log 2) -/

/-- A module with power performs the mover at the head of its agenda, and its counters move. -/
theorem step_of_agenda {s : State} {m : Mover} {rest : List Mover} (hp : s.powered = true) (ha : s.agenda = m :: rest) :
    step s = onNext (State.perform { s with agenda := rest } m) State.tick := by
  simp [step, State.stepOnce, ha, hp]

/-- A set with nothing due runs. -/
theorem perform_issue {s : State} {core wid : Nat} {lanes : Mask} {x : Ctx}
    (hx : s.issuingSet core wid lanes = some x) (hd : x.deliver = none) : s.perform (.issue core wid lanes) = x.run := by
  simp [State.perform, hx, hd]

/-- What a set runs whose fetch gives an instruction. -/
theorem run_of_ok {x : Ctx} {w : Word} {i : Instr} (hf : x.fetch = .ok w) (hd : decode w = .ok i) :
    x.run = onNext (exec i x.entered) fun t => x.stepTrap (x.aged t) := by
  simp [Ctx.run, Ctx.perform, hf, hd]

/-- What a set runs whose fetch gives a word that is no instruction. -/
theorem run_of_error {x : Ctx} {w : Word} {r : Reject} (hf : x.fetch = .ok w) (hd : decode w = .error r) :
    x.run = onNext (exec .wordNotAnInstruction x.entered) fun t => x.stepTrap (x.aged t) := by
  simp [Ctx.run, Ctx.perform, hf, hd]

/-- What waiting lanes try again. -/
theorem perform_retry {s : State} {core wid : Nat} {lanes : Mask} {x : Ctx} {i : Instr}
    (hx : s.waitingSet core wid lanes = some (x, i)) : s.perform (.retry core wid lanes) = exec i x.entered := by
  simp [State.perform, hx, Ctx.attempt]

/-! ### The word that is fetched (R40, R48) -/

/-- The bytes of a number that bytes spell are those bytes. -/
theorem leBytes_leNat (bs : List Byte) : leBytes bs.length (leNat bs) = bs := by
  induction bs with
  | nil => rfl
  | cons b r ih =>
    have hb := b.isLt
    simp only [List.length_cons, leNat, leBytes]
    rw [show (b.toNat + 256 * leNat r) / 256 = leNat r by omega, ih]
    simp [BitVec.ofNat_add, BitVec.ofNat_mul]

theorem leNat_lt (bs : List Byte) : leNat bs < 2 ^ (8 * bs.length) := by
  rw [← leBytes_leNat bs, leNat_leBytes, length_leBytes]
  exact Nat.mod_lt _ (by positivity)

@[simp] theorem length_readAt (s : State) (die : Nat) (t : Xlat) (va n : Nat) : (s.readAt die t va n).length = n := by
  simp [State.readAt]

/-- A read already shows its reserved bytes as zero (R77). -/
theorem readAt_shown (s : State) (die : Nat) (t : Xlat) (va n : Nat) :
    ((s.readAt die t va n).zipIdx.map fun e => if t.reserved (va + e.2) then 0 else e.1) = s.readAt die t va n := by
  apply List.ext_getElem
  · simp
  · intro i h h'
    simp only [State.readAt, List.getElem_map, List.getElem_zipIdx, List.getElem_range, Nat.zero_add]
    split <;> rfl

/-- A word read from memory shows as it is. -/
theorem shown_readAt (s : State) (die : Nat) (t : Xlat) (va : Nat) :
    t.shown va (BitVec.ofNat 32 (leNat (s.readAt die t va 4))) = BitVec.ofNat 32 (leNat (s.readAt die t va 4)) := by
  have hlt := leNat_lt (s.readAt die t va 4)
  have hle := leBytes_leNat (s.readAt die t va 4)
  rw [length_readAt] at hlt hle
  rw [Xlat.shown, BitVec.toNat_ofNat, Nat.mod_eq_of_lt (by simpa using hlt), hle, readAt_shown]

/-- Where nothing replaced the word, a fetch has one word to return. -/
theorem fetchWords_of_fresh {s : State} {key : Nat} (h : ∀ e ∈ s.stale, e.1 ≠ key) (core : Nat) (now : Word) :
    s.fetchWords core key now = [now] := by
  simp only [State.fetchWords, List.cons.injEq, true_and, List.filterMap_eq_nil_iff]
  rintro ⟨a, n, w⟩ he
  simp [h _ he]

theorem choose_one (s : State) (salt : Nat) : s.choose salt 1 = 0 := rfl

/-- The word fetched at a clean address that no store has replaced is memory's. -/
theorem fetch_of_fresh {x : Ctx} {t : Xlat} (ht : x.s.translate x.space .fetch x.pc.toNat = .ok t)
    (hb : x.s.dataBad x.die t 4 = false) (hs : ∀ e ∈ x.s.stale, e.1 ≠ t.key) :
    x.fetch = .ok (BitVec.ofNat 32 (leNat (x.s.readAt x.die t x.pc.toNat 4))) := by
  simp [Ctx.fetch, ht, Res.andThen, hb, fetchWords_of_fresh hs, shown_readAt, choose_one]

/-- Settles O54: the mover at the head is performed, and what a set performs is the instruction it fetched. -/
theorem stepRunsTheDecodedInstruction : Obligations.StepRunsTheDecodedInstruction := by
  refine ⟨fun s rest core wid lanes x w i hp ha hx hd hf hi => ?_, fun s rest core wid lanes x w r hp ha hx hd hf hr => ?_,
    fun s rest core wid lanes x i hp ha hx => ?_, fun s rest i hp ha => ?_, fun x t ht hb hs => fetch_of_fresh ht hb hs,
    fun s => ⟨rfl, rfl, rfl⟩⟩
  · rw [step_of_agenda hp ha, perform_issue hx hd, run_of_ok hf hi]
  · rw [step_of_agenda hp ha, perform_issue hx hd, run_of_error hf hr]
  · rw [step_of_agenda hp ha, perform_retry hx]
  · rw [step_of_agenda hp ha]; rfl

end Sys2Proof.Laws
end

section
/-! SUPPORT. What the register files read after a write, and the group after a word that completes (R26, R27, R29). -/

namespace Sys2Proof.Laws

open Sys2Proof.Machine

/-! ### Vector and uniform registers (R26) -/

theorem v_setV_self {th : Thread} (h : risingFrom 0 th.vr = true) (n : Nat) (v : Word) : (th.setV n v).v n = v :=
  sget_sset_self h _ v 0

theorem v_setV_of_ne (th : Thread) {m n : Nat} (h : m ≠ n) (v : Word) : (th.setV n v).v m = th.v m :=
  sget_sset_of_ne th.vr (by omega : th.winbase.toNat * 8 + m ≠ th.winbase.toNat * 8 + n) v 0

theorem rising_setV {th : Thread} (h : risingFrom 0 th.vr = true) (n : Nat) (v : Word) :
    risingFrom 0 (th.setV n v).vr = true := rising_sset h (Nat.zero_le _) v 0

theorem u_setU_self {w : Warp} (h : risingFrom 0 w.ur = true) (n : Nat) (v : Word) : (w.setU n v).u n = v :=
  sget_sset_self h n v 0

theorem u_setU_of_ne (w : Warp) {m n : Nat} (h : m ≠ n) (v : Word) : (w.setU n v).u m = w.u m :=
  sget_sset_of_ne w.ur h v 0

theorem rising_setU {w : Warp} (h : risingFrom 0 w.ur = true) (n : Nat) (v : Word) :
    risingFrom 0 (w.setU n v).ur = true := rising_sset h (Nat.zero_le _) v 0

/-! ### Pairs (R27) -/

/-- A pair's halves are the pair. -/
theorem join64_halves (v : DWord) : join64 (lo64 v) (hi64 v) = v := (ext_join v 0 32 32).trans (ext_all v)

theorem v_setV64_low {th : Thread} (h : risingFrom 0 th.vr = true) (n : Nat) (v : DWord) :
    (th.setV64 n v).v n = lo64 v := by
  rw [Thread.setV64, v_setV_of_ne _ (by omega), v_setV_self h]

theorem v_setV64_high {th : Thread} (h : risingFrom 0 th.vr = true) (n : Nat) (v : DWord) :
    (th.setV64 n v).v (n + 1) = hi64 v := v_setV_self (rising_setV h n _) _ _

theorem v64_setV64_self {th : Thread} (h : risingFrom 0 th.vr = true) (n : Nat) (v : DWord) :
    (th.setV64 n v).v64 n = v := by
  rw [Thread.v64, v_setV64_low h, v_setV64_high h, join64_halves]

/-! ### Predicates (R29) -/

/-- The predicate bits after a write to one that is not p0. -/
theorem getLsbD_setP (th : Thread) {n : Nat} (hn : n ≠ 0) (b : Bool) (m : Nat) :
    (th.setP n b).pr.getLsbD m = if m = n ∧ m < 16 then b else th.pr.getLsbD m := by
  have hlt : 16 ≤ m → th.pr.getLsbD m = false := BitVec.getLsbD_of_ge _ _
  cases b <;> simp only [Thread.setP, hn, if_false, if_true, Bool.false_eq_true, BitVec.getLsbD_or, BitVec.getLsbD_and,
    BitVec.getLsbD_not, BitVec.getLsbD_shiftLeft, BitVec.getLsbD_one] <;> grind

theorem p_setP_self (th : Thread) {n : Nat} (h0 : 0 < n) (hn : n < 16) (b : Bool) : (th.setP n b).p n = b := by
  have hne : n ≠ 0 := by omega
  rw [Thread.p, getLsbD_setP th hne]
  simp [hne, hn]

theorem p_setP_of_ne (th : Thread) {m n : Nat} (h : m ≠ n) (b : Bool) : (th.setP n b).p m = th.p m := by
  by_cases hn : n = 0
  · simp [Thread.setP, hn]
  · simp [Thread.p, getLsbD_setP th hn, h]

/-! ### A word that completes -/

/-- The group of the set after a change of the threads of lanes. -/
theorem group?_lanesDo {x : Ctx} {s : State} {g : Group} (ls : List Nat) (f : Nat → Thread → Thread)
    (h : s.group? x.core x.g.gk = some g) : (x.lanesDo s ls f).group? x.core x.g.gk =
      some (ls.foldl (fun (g : Group) l => g.modThread (x.slotOf l) (f l)) g) :=
  group?_modGroup_self s _ h fun g => by
    obtain ⟨ts, hts⟩ := lanes_fold_frame x f ls g
    simp [hts]

/-- Settles O60, from the laws of each register class and of the fold over the lanes of the set. -/
theorem registerFiles : Obligations.RegisterFiles := by
  refine ⟨fun th n v h => ⟨v_setV_self h n v, rising_setV h n v, fun m hm => v_setV_of_ne th hm v⟩,
    fun th n v h => ⟨v64_setV64_self h n v, v_setV64_low h n v, v_setV64_high h n v⟩,
    fun w n v h => ⟨u_setU_self h n v, rising_setU h n v, fun m hm => u_setU_of_ne w hm v⟩,
    fun th b => ⟨rfl, rfl⟩,
    fun th n b h0 hn => ⟨p_setP_self th h0 hn b, fun m hm => p_setP_of_ne th hm b⟩,
    fun x s f g hg => ⟨_, group?_lanesDo x.ls _ hg, fun l t th hl ht hu hth => ?_, fun t ht => ?_⟩⟩
  · exact lanes_fold_self x _ x.ls g (maskLanes_nodup x.lanes) hl ht hu hth
  · exact lanes_fold_other x _ x.ls g ht

end Sys2Proof.Laws
end

section
/-! SUPPORT. What the words change that touch registers only: threads of the issuing lanes and their warp slot, and of
these their destinations (R26, R34, R47). -/

namespace Sys2Proof.Laws

open Sys2Proof.Machine

/-! ### Registers of a field -/

theorem mem_regs {n k m : Nat} {d : BitVec n} : m ∈ regs d k ↔ d.toNat ≤ m ∧ m < d.toNat + k := by
  simp only [regs, upto, List.mem_map, List.mem_range]
  exact ⟨fun ⟨i, hi, he⟩ => by omega, fun h => ⟨m - d.toNat, by omega, by omega⟩⟩

/-! ### Threads that keep what they do not name -/

section Threads

variable {dst : List Nat} {p : Option Nat} {t u : Thread}

theorem threadKept_refl (dst : List Nat) (p : Option Nat) (t : Thread) : ThreadKept dst p t t :=
  ⟨⟨rfl, rfl, rfl⟩, ⟨rfl, rfl⟩, BitVec.and_self, ⟨rfl, rfl⟩, fun _ _ => rfl, fun _ _ => rfl⟩

theorem threadKept_trans {r : Thread} (h : ThreadKept dst p t u) (k : ThreadKept dst p u r) : ThreadKept dst p t r where
  identity := ⟨k.identity.1.trans h.identity.1, k.identity.2.1.trans h.identity.2.1,
    k.identity.2.2.trans h.identity.2.2⟩
  modes := ⟨k.modes.1.trans h.modes.1, k.modes.2.trans h.modes.2⟩
  sticky := by
    rw [← h.sticky, BitVec.and_assoc, k.sticky]
  waits := ⟨k.waits.1.trans h.waits.1, k.waits.2.trans h.waits.2⟩
  regs n hn := (k.regs n hn).trans (h.regs n hn)
  preds n hn := (k.preds n hn).trans (h.preds n hn)

theorem threadKept_setV {n : Nat} (hn : n ∈ dst) (v : Word) : ThreadKept dst p t (t.setV n v) :=
  ⟨⟨rfl, rfl, rfl⟩, ⟨rfl, rfl⟩, BitVec.and_self, ⟨rfl, rfl⟩,
    fun _ hm => v_setV_of_ne t (ne_of_mem_of_not_mem hn hm).symm v, fun _ _ => rfl⟩

theorem threadKept_setV64 {n : Nat} (hn : n ∈ dst) (hn' : n + 1 ∈ dst) (v : DWord) :
    ThreadKept dst p t (t.setV64 n v) := threadKept_trans (threadKept_setV hn _) (threadKept_setV hn' _)

theorem threadKept_setN {d : BitVec 7} {w : Bool} (h : dst = regs d (wid w)) (v : Nat) :
    ThreadKept dst p t (t.setN w d.toNat v) := by
  subst h
  cases w
  · exact threadKept_setV (by simp [mem_regs, wid]) _
  · exact threadKept_setV64 (by simp [mem_regs, wid]) (by simp [mem_regs, wid]) _

theorem threadKept_setP {n : Nat} (hn : p = some n) (b : Bool) : ThreadKept dst p t (t.setP n b) where
  identity := by simp
  modes := by simp
  sticky := by simp
  waits := by simp
  regs m _ := by simp [Thread.v]
  preds m hm := p_setP_of_ne t (fun e : m = n => hm (by rw [e, hn])) b

theorem threadKept_flag (f : BitVec 5) : ThreadKept dst p t (t.flag f) where
  identity := ⟨rfl, rfl, rfl⟩
  modes := ⟨rfl, rfl⟩
  sticky := by
    ext k
    simp only [Thread.flag, BitVec.getElem_and, BitVec.getElem_or]
    exact Bool.and_eq_left_iff_imp.mpr fun hk => by simp [hk]
  waits := ⟨rfl, rfl⟩
  regs _ _ := rfl
  preds _ _ := rfl

theorem threadKept_goto (a : Addr) : ThreadKept dst p t (t.goto a) :=
  ⟨⟨rfl, rfl, rfl⟩, ⟨rfl, rfl⟩, BitVec.and_self, ⟨rfl, rfl⟩, fun _ _ => rfl, fun _ _ => rfl⟩

theorem threadKept_setF {d : BitVec 7} {f : FFmt} (h : dst = regs d (ffRegs f)) (r : Nat × Flags) :
    ThreadKept dst p t (t.setF f d.toNat r) :=
  threadKept_trans (threadKept_setN (by cases f <;> exact h) _) (threadKept_flag _)

end Threads

/-! ### The warp slot -/

/-- A warp keeps its uniform registers but those listed, and everything but what the scoreboard notes of registers. -/
structure WarpKept (dst : List Nat) (w v : Warp) : Prop where
  regs : ∀ n, n ∉ dst → v.u n = w.u n
  rest : { v with ur := w.ur, upoison := w.upoison, failTok := w.failTok, upstall := w.upstall, tokw := w.tokw } = w

theorem WarpKept.refl (dst : List Nat) (w : Warp) : WarpKept dst w w := ⟨fun _ _ => rfl, rfl⟩

theorem WarpKept.setU {dst : List Nat} {w v : Warp} (h : WarpKept dst w v) {n : Nat} (hn : n ∈ dst) (x : Word) :
    WarpKept dst w (v.setU n x) :=
  ⟨fun m hm => (u_setU_of_ne v (ne_of_mem_of_not_mem hn hm).symm x).trans (h.regs m hm), h.rest⟩

theorem WarpKept.setU64 {dst : List Nat} {w v : Warp} (h : WarpKept dst w v) {n : Nat} (hn : n ∈ dst)
    (hn' : n + 1 ∈ dst) (x : DWord) : WarpKept dst w (v.setU64 n x) := (h.setU hn _).setU hn' _

/-! ### A change of one group -/

/-- The states differ in the groups of key gk of core c, which change by F. -/
structure ChangesGroup (c gk : Nat) (F : Group → Group) (s t : State) : Prop where
  package : PackageKept s t
  others : ∀ d, d ≠ c → t.core d = s.core d
  core : t.core c = (s.core c).modGroup gk F

theorem gk_of_kept {F : Group → Group} (hF : ∀ g, { F g with warps := g.warps, threads := g.threads } = g) (g : Group) :
    (F g).gk = g.gk := by simpa using congrArg Group.gk (hF g)

section Change

variable {c gk : Nat} {F G : Group → Group} {s t : State} (hne : (s.core c).groups ≠ [])
include hne

theorem changesGroup_modGroup : ChangesGroup c gk F s (s.modGroup c gk F) :=
  ⟨rfl, fun _ hd => core_modGroup_of_ne s hd gk F, core_modGroup_self s c gk F hne⟩

theorem changesGroup_modGroup_modGroup (hF : ∀ g, (F g).gk = g.gk) :
    ChangesGroup c gk (fun g => G (F g)) s ((s.modGroup c gk F).modGroup c gk G) :=
  ⟨rfl, fun _ hd => (core_modGroup_of_ne _ hd gk G).trans (core_modGroup_of_ne s hd gk F),
    core_modGroup_modGroup s hne hF⟩

variable (h : ChangesGroup c gk F s t)
include h

theorem ChangesGroup.group?_eq (k : Nat) : t.group? c k = (s.modGroup c gk F).group? c k := by
  rw [State.group?, State.group?, h.core, core_modGroup_self s c gk F hne]

variable (hF : ∀ g, { F g with warps := g.warps, threads := g.threads } = g)
include hF

/-- The group of the key, after the change. -/
theorem ChangesGroup.group?_self {g : Group} (hg : s.group? c gk = some g) : t.group? c gk = some (F g) := by
  rw [h.group?_eq hne, group?_modGroup_self s F hg (gk_of_kept hF)]

/-- Nothing else changes. -/
theorem ChangesGroup.frame : PackageKept s t ∧ CoreKept c s t ∧ GroupKept c gk s t := by
  refine ⟨h.package, ⟨h.others, by rw [h.core]; rfl⟩, fun k hk => ?_, fun g hg => ⟨F g, ?_, hF g⟩⟩
  · rw [h.group?_eq hne, group?_modGroup_of_ne s F hk (gk_of_kept hF) hne]
  · exact h.group?_self hne hF hg

end Change

/-! ### Words that touch registers only -/

/-- The group of an issuing set after its lanes have completed by f and its warp slot has changed by h. -/
def completedGroup (x : Ctx) (f : Nat → Thread → Thread) (h : Warp → Warp) (g : Group) : Group :=
  (x.ls.foldl (fun g l => g.modThread (x.slotOf l) fun th => (f l th).goto (nextPc x.pc)) g).modWarp x.slot h

/-- Word i has changed the state of set x to t: its lanes have completed with their destinations written, and the warp
slot with its own. -/
def WritesRegisters (i : Instr) (x : Ctx) (t : State) : Prop :=
  ∃ f h, (∀ l th, ThreadKept (opndsOf i).vw (predDst i) th (f l th)) ∧ (∀ w, WarpKept (opndsOf i).uw w (h w)) ∧
    ((x.s.core x.core).groups ≠ [] → ChangesGroup x.core x.g.gk (completedGroup x f h) x.s t)

section Completed

variable (x : Ctx) (f : Nat → Thread → Thread) (h : Warp → Warp) (g : Group)

theorem modWarp_id (k : Nat) : g.modWarp k id = g := by
  have hl (l : List Warp) (n : Nat) : modAt l n id = l := by
    induction l generalizing n with
    | nil => rfl
    | cons a r ih => cases n <;> simp [modAt, ih]
  simp [Group.modWarp, hl]

theorem completedGroup_rest :
    { completedGroup x f h g with warps := g.warps, threads := g.threads } = g := by
  obtain ⟨ts, hts⟩ := lanes_fold_frame x (fun l th => (f l th).goto (nextPc x.pc)) x.ls g
  rw [completedGroup, hts]
  rfl

theorem completedGroup_warp? (k : Nat) : (completedGroup x f h g).warp? k = (g.modWarp x.slot h).warp? k := by
  obtain ⟨ts, hts⟩ := lanes_fold_frame x (fun l th => (f l th).goto (nextPc x.pc)) x.ls g
  rw [completedGroup, hts]
  rfl

variable {f h} {dst : List Nat} {p : Option Nat}

/-- Every live thread keeps what the changes of lanes keep. -/
theorem lanes_fold_kept (hf : ∀ l th, ThreadKept dst p th (f l th)) (ls : List Nat) {k : Nat} {th : Thread}
    (hk : sfind g.threads k = some th) :
    ∃ u, sfind (ls.foldl (fun (g : Group) l => g.modThread (x.slotOf l) (f l)) g).threads k = some u ∧
      ThreadKept dst p th u := by
  induction ls generalizing g th with
  | nil => exact ⟨th, hk, threadKept_refl dst p th⟩
  | cons l r ih =>
    by_cases he : k = x.slotOf l
    · subst he
      obtain ⟨u, hu, hkept⟩ := ih _ (sfind_modThread_self hk (f l))
      exact ⟨u, hu, threadKept_trans (hf l th) hkept⟩
    · exact ih _ ((sfind_modThread_of_ne g he (f l)).trans hk)

end Completed

theorem writesRegisters_done {i : Instr} {x : Ctx} {f : Nat → Thread → Thread}
    (hf : ∀ l th, ThreadKept (opndsOf i).vw (predDst i) th (f l th)) : WritesRegisters i x (x.done x.s f) := by
  refine ⟨f, id, hf, fun w => .refl _ w, fun hne => ?_⟩
  have e : completedGroup x f id = fun g => x.ls.foldl
      (fun g l => g.modThread (x.slotOf l) fun th => (f l th).goto (nextPc x.pc)) g :=
    funext fun g => modWarp_id _ _
  rw [e]
  exact changesGroup_modGroup hne

theorem writesRegisters_modW {i : Instr} {x : Ctx} {f : Nat → Thread → Thread} {h : Warp → Warp}
    (hf : ∀ l th, ThreadKept (opndsOf i).vw (predDst i) th (f l th)) (hh : ∀ w, WarpKept (opndsOf i).uw w (h w)) :
    WritesRegisters i x (x.modW (x.done x.s f) h) := by
  refine ⟨f, h, hf, hh, fun hne => ?_⟩
  refine changesGroup_modGroup_modGroup (G := fun g => g.modWarp x.slot h) hne fun g => ?_
  obtain ⟨ts, hts⟩ := lanes_fold_frame x (fun l th => (f l th).goto (nextPc x.pc)) x.ls g
  simp [hts]

theorem writesRegisters_doneW {i : Instr} {x : Ctx} {h : Warp → Warp}
    (hh : ∀ w, WarpKept (opndsOf i).uw w (h w)) : WritesRegisters i x (x.doneW x.s h) :=
  writesRegisters_modW (fun _ th => threadKept_refl _ _ th) hh

end Sys2Proof.Laws
end

section
/-! SUPPORT. The words that touch registers only, each by the form of its effect, and their frame (R47). -/

namespace Sys2Proof.Laws

open Sys2Proof.Machine

/-! ### The forms of a register word's effect -/

section Forms

variable {i : Instr} {x : Ctx}

theorem writesRegisters_writeInt {w : Bool} {d : BitVec 7} {val : Nat → Nat} (h : (opndsOf i).vw = regs d (wid w)) :
    WritesRegisters i x (x.writeInt w d val) := writesRegisters_done fun _ _ => threadKept_setN h _

theorem writesRegisters_writeFp {f : FFmt} {d : BitVec 7} {val : Nat → Nat × Flags}
    (h : (opndsOf i).vw = regs d (ffRegs f)) : WritesRegisters i x (x.writeFp f d val) :=
  writesRegisters_done fun _ _ => threadKept_setF h _

theorem writesRegisters_writePred {d : BitVec 4} {val : Nat → Bool} (h : predDst i = some d.toNat) :
    WritesRegisters i x (x.writePred d val) := writesRegisters_done fun _ _ => threadKept_setP h _

theorem first_mem_regs {n k : Nat} (d : BitVec n) (h : 0 < k) : d.toNat ∈ regs d k := mem_regs.mpr (by omega)

theorem writesRegisters_setV {d : BitVec 7} {val : Nat → Word} (h : (opndsOf i).vw = regs d 1) :
    WritesRegisters i x (x.done x.s fun l th => th.setV d.toNat (val l)) :=
  writesRegisters_done fun _ _ => threadKept_setV (h ▸ first_mem_regs d Nat.one_pos) _

theorem writesRegisters_setW {d : BitVec 7} {w : Bool} {val : Nat → Word} {val64 : Nat → DWord}
    (h : (opndsOf i).vw = regs d (wid w)) :
    WritesRegisters i x (x.done x.s fun l th => if w then th.setV64 d.toNat (val64 l) else th.setV d.toNat (val l)) := by
  refine writesRegisters_done fun _ _ => ?_
  rw [h]
  cases w
  · exact threadKept_setV (first_mem_regs d Nat.one_pos) _
  · exact threadKept_setV64 (first_mem_regs d Nat.two_pos) (mem_regs.mpr (by simp)) _

theorem writesRegisters_setU {n : Nat} {d : BitVec n} {v : Word} (h : (opndsOf i).uw = regs d 1) :
    WritesRegisters i x (x.doneW x.s fun w => w.setU d.toNat v) :=
  writesRegisters_doneW fun w => (WarpKept.refl _ w).setU (h ▸ first_mem_regs d Nat.one_pos) _

theorem writesRegisters_setUW {d : BitVec 7} {w64 : Bool} {v : DWord} (h : (opndsOf i).uw = regs d (wid w64)) :
    WritesRegisters i x (x.doneW x.s fun w => if w64 then w.setU64 d.toNat v else w.setU d.toNat (lo64 v)) := by
  refine writesRegisters_doneW fun w => ?_
  rw [h]
  cases w64
  · exact (WarpKept.refl _ w).setU (first_mem_regs d Nat.one_pos) _
  · exact (WarpKept.refl _ w).setU64 (first_mem_regs d Nat.two_pos) (mem_regs.mpr (by simp)) _

theorem warpKept_foldl_setU {n : Nat} (d : BitVec n) (val : Nat → Word) (k : Nat) (w : Warp) :
    WarpKept (regs d k) w ((List.range k).foldl (fun w j => w.setU (d.toNat + j) (val j)) w) := by
  have key (l : List Nat) (hl : ∀ j ∈ l, j < k) (v : Warp) (hv : WarpKept (regs d k) w v) :
      WarpKept (regs d k) w (l.foldl (fun w j => w.setU (d.toNat + j) (val j)) v) := by
    induction l generalizing v with
    | nil => exact hv
    | cons j r ih =>
      have hj := hl j List.mem_cons_self
      exact ih (fun m hm => hl m (List.mem_cons_of_mem _ hm)) _ (hv.setU (mem_regs.mpr (by omega)) _)
  exact key _ (fun j => List.mem_range.mp) w (.refl _ w)

end Forms

/-! ### Each register word -/

section Words

variable {s t : State} {x : Ctx}

theorem state_and_groups_of_ctxOf (h : ctxOf s = some x) : x.s = s ∧ (s.core x.core).groups ≠ [] := by
  obtain ⟨e, -, h⟩ := Option.bind_eq_some_iff.mp h
  obtain ⟨⟨g, slot, w⟩, hf, h⟩ := Option.bind_eq_some_iff.mp h
  dsimp only at h
  split at h
  · cases h
  · cases h
    exact ⟨rfl, List.ne_nil_of_mem (findWid_spec hf).1⟩

variable {i : Instr} (hp : ∀ q ∈ (s.core x.core).pipes, q.gang ≠ x.g.gang)
  (hrec : s.recorderOf x.g.gang = none)
include hp hrec

theorem next_eq_effect (hs : Runs i s x) {eff : Ctx → State} (he : runWord i s eff = .next t) : t = eff x := by
  obtain ⟨rfl, -⟩ := state_and_groups_of_ctxOf hs.set
  rw [runWord_of_runs eff hs, performed_of_unpiped eff hp (marked_of_unrecorded hrec _)] at he
  cases he
  rfl

theorem writesRegisters_of_runWord (hs : Runs i s x) {eff : Ctx → State} (he : runWord i s eff = .next t)
    (hw : WritesRegisters i x (eff x)) : WritesRegisters i x t := next_eq_effect hp hrec hs he ▸ hw

theorem writesRegisters_bits {fn : BitsFn} {w : Bool} {d a b : BitVec 7} (hs : Runs (.bits fn w d a b) s x)
    (he : execBits fn w d a b s = .next t) : WritesRegisters (.bits fn w d a b) x t := by
  refine writesRegisters_of_runWord hp hrec hs he ?_
  cases fn <;> exact writesRegisters_writeInt rfl

theorem writesRegisters_vote {op : VoteOp} {neg : Bool} {d a : BitVec 7} (hs : Runs (.vote op neg d a) s x)
    (he : execVote op neg d a s = .next t) : WritesRegisters (.vote op neg d a) x t := by
  refine writesRegisters_of_runWord hp hrec hs he ?_
  cases op with
  | all | any | uni => exact writesRegisters_done fun _ _ => threadKept_setP rfl _
  | ballot => exact writesRegisters_setU rfl
  | mtch => exact writesRegisters_setV rfl

theorem writesRegisters_wred {op : WredOp} {d : BitVec 6} {a b : BitVec 7} (hs : Runs (.wred op d a b) s x)
    (he : execWred op d a b s = .next t) : WritesRegisters (.wred op d a b) x t := by
  refine writesRegisters_of_runWord hp hrec hs he ?_
  cases op with
  | minidxS32 | minidxZ32 | maxidxS32 | maxidxZ32 =>
    exact writesRegisters_doneW fun w => ((WarpKept.refl _ w).setU (first_mem_regs d Nat.two_pos) _).setU
      (mem_regs.mpr (by omega)) _
  | addB32 | addS32sat | addZ32sat | minS32 | minZ32 | maxS32 | maxZ32 | andB32 | orB32 | xorB32 | faddF32 | fminF32
  | fmaxF32 =>
    exact writesRegisters_modW (fun _ _ => threadKept_flag _) fun w =>
      (WarpKept.refl _ w).setU (first_mem_regs d Nat.one_pos) _

theorem writesRegisters_xmov {k : XmovKind} {w64 : Bool} {d a : BitVec 7} (hs : Runs (.xmov k w64 d a) s x)
    (hr : registerWord (.xmov k w64 d a) = true) (he : execXmov k w64 d a s = .next t) :
    WritesRegisters (.xmov k w64 d a) x t := by
  refine writesRegisters_of_runWord hp hrec hs he ?_
  cases k with
  | vv => exact writesRegisters_setW rfl
  | vs => exact writesRegisters_setUW rfl
  | sv => exact writesRegisters_setW rfl
  | ss => exact writesRegisters_setUW rfl
  | pv => exact writesRegisters_setV rfl
  | vp => exact writesRegisters_done fun _ _ => threadKept_setP rfl _
  | sp => exact writesRegisters_done fun _ _ => threadKept_setP rfl _
  | ts => exact writesRegisters_doneW fun w => warpKept_foldl_setU d _ 4 w
  | st => cases hr
  | tt => cases hr

theorem writesRegisters_of_exec (hs : Runs i s x) (hr : registerWord i = true) (he : exec i s = .next t) :
    WritesRegisters i x t := by
  have hrun {eff : Ctx → State} := writesRegisters_of_runWord (eff := eff) (t := t) hp hrec hs
  cases i
  all_goals try cases hr
  all_goals dsimp only [exec] at he
  case iadd ty _ _ _ _ => exact hrun he (writesRegisters_writeInt (by cases ty <;> rfl))
  case isub ty _ _ _ _ => exact hrun he (writesRegisters_writeInt (by cases ty <;> rfl))
  case imul ty _ _ _ _ _ => exact hrun he (writesRegisters_writeInt (by cases ty <;> rfl))
  case imad ty _ w _ _ _ =>
    refine hrun he ?_
    cases w
    · exact writesRegisters_writeInt (by cases ty <;> rfl)
    · exact writesRegisters_writeInt rfl
  case imnx ty _ _ _ _ => exact hrun he (writesRegisters_writeInt (by cases ty <;> rfl))
  case logic fn _ _ _ _ => exact hrun he (writesRegisters_writeInt (by cases fn <;> rfl))
  case shift => exact hrun he (writesRegisters_writeInt rfl)
  case bits => exact writesRegisters_bits hp hrec hs he
  case iset => exact hrun he (writesRegisters_writePred rfl)
  case sel => exact hrun he (writesRegisters_setV rfl)
  case lea => exact hrun he (writesRegisters_writeInt rfl)
  case iaddi => exact hrun he (writesRegisters_setV rfl)
  case andi => exact hrun he (writesRegisters_setV rfl)
  case ori => exact hrun he (writesRegisters_setV rfl)
  case xori => exact hrun he (writesRegisters_setV rfl)
  case movl => exact hrun he (writesRegisters_setV rfl)
  case lui => exact hrun he (writesRegisters_setV rfl)
  case fadd => exact hrun he (writesRegisters_writeFp rfl)
  case fmul => exact hrun he (writesRegisters_writeFp rfl)
  case ffma => exact hrun he (writesRegisters_writeFp rfl)
  case fmnx fn _ _ _ => exact hrun he (writesRegisters_writeFp (by cases fn <;> rfl))
  case frnd => exact hrun he (writesRegisters_writeFp rfl)
  case fset => exact hrun he (writesRegisters_writePred rfl)
  case fcvt dst _ _ _ _ _ =>
    refine hrun he (writesRegisters_done fun _ _ => ?_)
    exact threadKept_trans (threadKept_setN (by cases dst <;> rfl) _) (threadKept_flag _)
  case sfu half fn _ _ _ => exact hrun he (writesRegisters_writeFp (by cases fn <;> cases half <;> rfl))
  case hop2 op _ d _ _ =>
    refine hrun he (writesRegisters_done fun _ _ => ?_)
    have hd : d.toNat ∈ regs d 1 := first_mem_regs d Nat.one_pos
    exact threadKept_trans (threadKept_setV (by cases op <;> exact hd) _) (threadKept_flag _)
  case dot ty _ d _ _ =>
    refine hrun he (writesRegisters_done fun _ _ => ?_)
    cases ty with
    | f16 | bf16 | e4m3 | e5m2 => exact threadKept_setF (d := d) (f := .f32) rfl _
    | s8 | z8 | s8z8 => exact threadKept_setV (first_mem_regs d Nat.one_pos) _
  case shfl idx => exact hrun he (writesRegisters_setV (by cases idx <;> rfl))
  case vote => exact writesRegisters_vote hp hrec hs he
  case wred => exact writesRegisters_wred hp hrec hs he
  case plog => exact hrun he (writesRegisters_writePred rfl)
  case xmov => exact writesRegisters_xmov hp hrec hs hr he

end Words

/-! ### The frame -/

theorem completedGroup_thread {x : Ctx} {f : Nat → Thread → Thread} {h : Warp → Warp} {dst : List Nat}
    {p : Option Nat} (hf : ∀ l th, ThreadKept dst p th (f l th)) (g : Group) {k : Nat} {th : Thread}
    (hk : sfind g.threads k = some th) : ∃ u, sfind (completedGroup x f h g).threads k = some u ∧
      ((∃ l ∈ x.ls, x.slotOf l = k) → ThreadKept dst p th u) ∧ ((∀ l ∈ x.ls, x.slotOf l ≠ k) → u = th) := by
  have hgoto l th : ThreadKept dst p th ((f l th).goto (nextPc x.pc)) := threadKept_trans (hf l th) (threadKept_goto _)
  obtain ⟨u, hu, hkept⟩ := lanes_fold_kept x g hgoto x.ls hk
  refine ⟨u, hu, fun _ => hkept, fun hno => ?_⟩
  rw [lanes_fold_other x _ x.ls g hno, hk] at hu
  exact (Option.some.inj hu).symm

/-- Settles O58: each word's effect completes its lanes with their destinations written, and changes nothing else. -/
theorem registerWordFrame : Obligations.RegisterWordFrame := by
  intro i s x t hr _ hs he hp hrec
  obtain ⟨rfl, hne⟩ := state_and_groups_of_ctxOf hs.set
  obtain ⟨f, h, hf, hh, hchange⟩ := writesRegisters_of_exec hp hrec hs hr he
  have hc := hchange hne
  have hrest := completedGroup_rest x f h
  obtain ⟨hpackage, hcore, hgroup⟩ := hc.frame hne hrest
  refine ⟨hpackage, hcore, hgroup, fun g g' hg hg' => ?_⟩
  obtain rfl : completedGroup x f h g = g' := Option.some.inj ((hc.group?_self hne hrest hg).symm.trans hg')
  refine ⟨fun k th hk => completedGroup_thread hf g hk, fun k hk => ?_, fun w hw => ⟨h w, ?_, (hh w).regs, (hh w).rest⟩⟩
  · rw [completedGroup_warp?, warp?_modWarp_of_ne g hk]
  · rw [completedGroup_warp?, warp?_modWarp_self, hw, Option.map_some]

end Sys2Proof.Laws
end

section
/-! SUPPORT. What MFS writes for each special register (R32-R34, R395). -/

namespace Sys2Proof.Laws

open Sys2Proof.Machine

theorem div_ite_half (n : Nat) (p : Prop) [Decidable p] :
    (if p then n else n / 2 ^ 32) = n / (if p then 1 else 2 ^ 32) := by
  split
  · exact (Nat.div_one n).symm
  · rfl

/-- Settles O13: register by register, the value written is the one that the rules name. -/
theorem specialRegisterReads : Obligations.SpecialRegisterReads := by
  intro d sel
  refine does_of_eq (fun s => by dsimp only [exec]; rfl) fun x => ?_
  obtain ⟨reg, inst, w64⟩ := sel
  cases reg
  case deadline =>
    dsimp only [Ctx.mfs]
    rw [div_ite_half]
  all_goals rfl

end Sys2Proof.Laws
end

section
/-! SUPPORT. What MTS and CAUSECLR write, and the values they refuse (R34, R35, R394, R396, R397). -/

namespace Sys2Proof.Laws

open Sys2Proof.Machine

/-! ### Fields that a value must leave zero -/

theorem fld_top_eq_zero (v : Word) {k : Nat} (hk : k < 32) : fld v 31 k = 0 ↔ v.toNat < 2 ^ k := by
  have hlt : v.toNat >>> k < 2 ^ (32 - k) := by
    rw [Nat.shiftRight_eq_div_pow, Nat.div_lt_iff_lt_mul (Nat.two_pow_pos k), ← pow_add, Nat.sub_add_cancel hk.le]
    exact v.isLt
  rw [fld, nbits, Nat.mod_eq_of_lt hlt, Nat.shiftRight_eq_div_pow, Nat.div_eq_zero_iff_lt (Nat.two_pow_pos k)]

/-- The mask of the reserved bits of TRAPMASK, 29 to 20. -/
theorem getLsbD_trapmask_reserved {i : Nat} (hi : i < 32) :
    (0x3FF00000 : Word).getLsbD i = decide (20 ≤ i ∧ i < 30) :=
  (by decide : ∀ i : Fin 32, (0x3FF00000 : Word).getLsbD i = decide (20 ≤ i.val ∧ i.val < 30)) ⟨i, hi⟩

theorem fld_29_20_eq_zero (v : Word) : fld v 29 20 = 0 ↔ v &&& 0x3FF00000 = 0 := by
  have hf : fld v 29 20 = 0 ↔ v.extractLsb' 20 10 = 0#10 := by
    rw [← BitVec.toNat_inj]
    rfl
  rw [hf]
  constructor
  · intro h
    refine BitVec.eq_of_getLsbD_eq fun i hi => ?_
    rw [BitVec.getLsbD_and, getLsbD_trapmask_reserved hi]
    by_cases hr : 20 ≤ i ∧ i < 30
    · have hbit := congrArg (BitVec.getLsbD · (i - 20)) h
      rw [BitVec.getLsbD_extractLsb', Nat.add_sub_cancel' hr.1] at hbit
      have hv : v.getLsbD i = false := by simpa [show i - 20 < 10 by omega] using hbit
      simp [hv]
    · simp [hr]
  · intro h
    refine BitVec.eq_of_getLsbD_eq fun i hi => ?_
    have hbit := congrArg (BitVec.getLsbD · (20 + i)) h
    rw [BitVec.getLsbD_and, getLsbD_trapmask_reserved (by omega)] at hbit
    simpa [hi, show 20 + i < 30 by omega] using hbit

/-! ### A value in every lane -/

section Lanes

variable {x : Ctx} {d : BitVec 7} {ok : Word → Bool} (t : State)

theorem mtsThread_of_ok (h : ∀ l ∈ x.ls, ok (x.v d.toNat l) = true) : x.mtsThread d ok t = t := by
  rw [Ctx.mtsThread, if_pos (List.all_eq_true.mpr h)]

theorem mtsThread_of_bad (h : ∃ l ∈ x.ls, ok (x.v d.toNat l) = false) : x.mtsThread d ok t = x.raise Cause.illop := by
  obtain ⟨l, hl, hbad⟩ := h
  rw [Ctx.mtsThread, if_neg fun hall => by simp [List.all_eq_true.mp hall l hl] at hbad]

/-- The check of WINBASE: no reserved bit, and a base within the group's registers (R35, R296). -/
theorem winbase_ok_iff (v : Word) : (fld v 31 7 == 0 && x.winOk v.toNat) = true ↔
    v.toNat < 2 ^ 7 ∧ (v = 0 ∨ 8 * v.toNat < x.g.vh) := by
  simp [Ctx.winOk, fld_top_eq_zero v (by decide : 7 < 32), ← BitVec.toNat_inj]

end Lanes

/-! ### TRAPPC (R396) -/

/-- The number that MTS of TRAPPC writes: a 32-bit value keeps the high bits. -/
def trappcValue (x : Ctx) (d : BitVec 7) (w64 : Bool) : Nat :=
  if w64 then (x.v64 d.toNat x.l0).toNat else x.trappcOf.toNat / 2 ^ 32 * 2 ^ 32 + (x.v d.toNat x.l0).toNat

theorem toNat_append_eq_add {m n : Nat} (a : BitVec m) (b : BitVec n) : (a ++ b).toNat = a.toNat * 2 ^ n + b.toNat := by
  rw [BitVec.toNat_append, ← Nat.shiftLeft_add_eq_or_of_lt b.isLt, Nat.shiftLeft_eq]

section Trappc

variable {x : Ctx} {d : BitVec 7} {w64 : Bool}

theorem trappcValue_low : trappcValue x d false = (x.trappcOf.extractLsb' 32 20 ++ x.v d.toNat x.l0).toNat := by
  have hlt : x.trappcOf.toNat >>> 32 < 2 ^ 20 := by omega
  rw [toNat_append_eq_add, BitVec.extractLsb'_toNat, Nat.mod_eq_of_lt hlt, Nat.shiftRight_eq_div_pow]
  rfl

/-- The low bits are those of the first register in both forms. -/
theorem trappcValue_mod : trappcValue x d w64 % 4 = (x.v d.toNat x.l0).toNat % 4 := by
  cases w64 with
  | false => simp only [trappcValue, Bool.false_eq_true, if_false]; omega
  | true =>
    have hj : x.v64 d.toNat x.l0 = (x.th x.l0).v (d.toNat + 1) ++ x.v d.toNat x.l0 := rfl
    simp only [trappcValue, if_true, hj, toNat_append_eq_add]
    omega

theorem mtsTrappc_of_large (h : 2 ^ 52 ≤ trappcValue x d w64) : x.mtsTrappc d w64 = x.raise Cause.illop := if_pos h

theorem mtsTrappc_of_unaligned (h : trappcValue x d w64 < 2 ^ 52) (hm : trappcValue x d w64 % 4 ≠ 0) :
    x.mtsTrappc d w64 = x.raise Cause.align := (if_neg h.not_ge).trans (if_pos hm)

theorem mtsTrappc_of_warp (h : trappcValue x d w64 < 2 ^ 52) (hm : trappcValue x d w64 % 4 = 0) (hs : x.sub? = none) :
    x.mtsTrappc d w64 = x.doneW x.s fun q => { q with trappc := BitVec.ofNat 52 (trappcValue x d w64) } := by
  refine (if_neg h.not_ge).trans ((if_neg (not_not.mpr hm)).trans ?_)
  rw [hs]
  rfl

theorem mtsTrappc_of_sub {b : Sub} (h : trappcValue x d w64 < 2 ^ 52) (hm : trappcValue x d w64 % 4 = 0)
    (hs : x.sub? = some b) : x.mtsTrappc d w64 = x.doneW x.s fun q => { q with subs := q.subs.map fun c =>
      if c.lanes = b.lanes then { c with pc := BitVec.ofNat 52 (trappcValue x d w64) } else c } := by
  refine (if_neg h.not_ge).trans ((if_neg (not_not.mpr hm)).trans ?_)
  rw [hs]
  rfl

end Trappc

/-! ### TRAPLANES (R396) -/

section Traplanes

variable {x : Ctx} {d : BitVec 7} {b : Sub} (hb : x.sub? = some b)
include hb

theorem traplanesOf_of_sub : x.traplanesOf = b.lanes := by
  rw [Ctx.traplanesOf, hb]

theorem mtsTraplanes_of_bad (h : x.v d.toNat x.l0 &&& ~~~b.lanes ≠ 0) : x.mtsTraplanes d = x.raise Cause.illop := by
  rw [Ctx.mtsTraplanes, traplanesOf_of_sub hb, if_pos h]

theorem mtsTraplanes_of_same (h : x.v d.toNat x.l0 = b.lanes) : x.mtsTraplanes d = x.done x.s fun _ th => th := by
  have hz : b.lanes &&& ~~~b.lanes = 0 := BitVec.and_not_self _
  have hall : (x.ls.filter fun l => !(0 : Mask).getLsbD l) = x.ls := by simp
  rw [Ctx.mtsTraplanes, traplanesOf_of_sub hb, h]
  simp only [hz, ne_eq, not_true_eq_false, if_false, if_true]
  rw [hall]
  rfl

theorem mtsTraplanes_of_fewer (h : x.v d.toNat x.l0 &&& ~~~b.lanes = 0) (hne : x.v d.toNat x.l0 ≠ b.lanes) :
    x.mtsTraplanes d = (x.advance x.s (x.ls.filter fun l => !(b.lanes &&& ~~~(x.v d.toNat x.l0)).getLsbD l)).tret
      x.core x.g.gk x.slot (b.lanes &&& ~~~(x.v d.toNat x.l0)) := by
  have hgone : b.lanes &&& ~~~(x.v d.toNat x.l0) ≠ 0 := by
    intro hz
    refine hne (BitVec.eq_of_getLsbD_eq fun i hi => ?_)
    have h1 := congrArg (BitVec.getLsbD · i) h
    have h2 := congrArg (BitVec.getLsbD · i) hz
    simp [hi] at h1 h2
    cases hx : (x.v d.toNat x.l0).getLsbD i <;> simp_all
  rw [Ctx.mtsTraplanes, traplanesOf_of_sub hb]
  simp only [h, ne_eq, not_true_eq_false, if_false, if_neg hgone]

end Traplanes

/-! ### The words -/

/-- What MTS does wherever its register's check and write come to f. -/
theorem doesWhen_mts {d : BitVec 7} {r : SReg} {i : BitVec 3} {w : Bool} {c : Ctx → Prop} {e f : Ctx → State}
    (he : ∀ s, execMts d ⟨r, i, w⟩ s = runWord (.mts d ⟨r, i, w⟩) s e) (h : ∀ x, c x → e x = f x) :
    DoesWhen (.mts d ⟨r, i, w⟩) c f := doesWhen_of_eq he h

section Trappc

variable (d : BitVec 7) (i : BitVec 3)

theorem mts_trappc_wide : DoesWhen (.mts d ⟨.trappc, i, true⟩)
    (fun x => x.sub? = none ∧ (x.v64 d.toNat x.l0).toNat < 2 ^ 52 ∧ (x.v64 d.toNat x.l0).toNat % 4 = 0)
    fun x => x.doneW x.s fun q => { q with trappc := (x.v64 d.toNat x.l0).setWidth 52 } :=
  doesWhen_mts (fun _ => rfl) fun _ ⟨hs, hlt, hm⟩ => mtsTrappc_of_warp (w64 := true) hlt hm hs

theorem mts_trappc_wide_sub (b : Sub) : DoesWhen (.mts d ⟨.trappc, i, true⟩)
    (fun x => x.sub? = some b ∧ (x.v64 d.toNat x.l0).toNat < 2 ^ 52 ∧ (x.v64 d.toNat x.l0).toNat % 4 = 0)
    fun x => x.doneW x.s fun q => { q with subs := q.subs.map fun c =>
      if c.lanes = b.lanes then { c with pc := (x.v64 d.toNat x.l0).setWidth 52 } else c } :=
  doesWhen_mts (fun _ => rfl) fun _ ⟨hs, hlt, hm⟩ => mtsTrappc_of_sub (w64 := true) hlt hm hs

/-- A 32-bit value, whose number always has 52 bits. -/
theorem trappcValue_low_ok {x : Ctx} (h : (x.v d.toNat x.l0).toNat % 4 = 0) :
    trappcValue x d false < 2 ^ 52 ∧ trappcValue x d false % 4 = 0 ∧
      BitVec.ofNat 52 (trappcValue x d false) = x.trappcOf.extractLsb' 32 20 ++ x.v d.toNat x.l0 := by
  refine ⟨?_, trappcValue_mod.trans h, ?_⟩
  · rw [trappcValue_low]
    exact BitVec.isLt _
  · rw [trappcValue_low, BitVec.ofNat_toNat, BitVec.setWidth_eq]

theorem mts_trappc_low : DoesWhen (.mts d ⟨.trappc, i, false⟩)
    (fun x => x.sub? = none ∧ (x.v d.toNat x.l0).toNat % 4 = 0) fun x =>
    x.doneW x.s fun q => { q with trappc := x.w.trappc.extractLsb' 32 20 ++ x.v d.toNat x.l0 } := by
  refine doesWhen_mts (fun _ => rfl) fun x ⟨hs, hm⟩ => ?_
  obtain ⟨hlt, hm', hv⟩ := trappcValue_low_ok d hm
  have h := mtsTrappc_of_warp hlt hm' hs
  rw [hv, Ctx.trappcOf, hs] at h
  exact h

theorem mts_trappc_low_sub (b : Sub) : DoesWhen (.mts d ⟨.trappc, i, false⟩)
    (fun x => x.sub? = some b ∧ (x.v d.toNat x.l0).toNat % 4 = 0) fun x =>
    x.doneW x.s fun q => { q with subs := q.subs.map fun c =>
      if c.lanes = b.lanes then { c with pc := b.pc.extractLsb' 32 20 ++ x.v d.toNat x.l0 } else c } := by
  refine doesWhen_mts (fun _ => rfl) fun x ⟨hs, hm⟩ => ?_
  obtain ⟨hlt, hm', hv⟩ := trappcValue_low_ok d hm
  have h := mtsTrappc_of_sub hlt hm' hs
  rw [hv, Ctx.trappcOf, hs] at h
  exact h

theorem mts_trappc_unaligned (w : Bool) : DoesWhen (.mts d ⟨.trappc, i, w⟩)
    (fun x => (x.v d.toNat x.l0).toNat % 4 ≠ 0 ∧ (w = true → (x.v64 d.toNat x.l0).toNat < 2 ^ 52)) fun x =>
    x.raise Cause.align := by
  refine doesWhen_mts (fun _ => rfl) fun x ⟨hm, hlt⟩ => mtsTrappc_of_unaligned ?_ (trappcValue_mod.trans_ne hm)
  cases w with
  | false =>
    rw [trappcValue_low]
    exact BitVec.isLt _
  | true => exact hlt rfl

end Trappc

/-- The values that MTS refuses with ILLOP, register by register. -/
def RefusedValue (d : BitVec 7) (w : Bool) (x : Ctx) : SReg → Prop
  | .fpstat => ∃ l ∈ x.ls, 2 ^ 5 ≤ (x.v d.toNat l).toNat
  | .rmode => ∃ l ∈ x.ls, 2 ^ 2 ≤ (x.v d.toNat l).toNat
  | .winbase => ∃ l ∈ x.ls, 2 ^ 7 ≤ (x.v d.toNat l).toNat ∨
      (x.v d.toNat l ≠ 0 ∧ x.g.vh ≤ 8 * (x.v d.toNat l).toNat)
  | .trapmask => x.v d.toNat x.l0 &&& 0x3FF00000 ≠ 0
  | .trappc => w = true ∧ 2 ^ 52 ≤ (x.v64 d.toNat x.l0).toNat
  | .traplanes => ∃ b, x.sub? = some b ∧ x.v d.toNat x.l0 &&& ~~~b.lanes ≠ 0
  | _ => False

theorem mts_refuses (r : SReg) (d : BitVec 7) (i : BitVec 3) (w : Bool) :
    DoesWhen (.mts d ⟨r, i, w⟩) (fun x => RefusedValue d w x r) fun x => x.raise Cause.illop := by
  refine doesWhen_mts (fun _ => rfl) fun x hr => ?_
  cases r
  case fpstat =>
    obtain ⟨l, hl, hv⟩ := hr
    exact mtsThread_of_bad _ ⟨l, hl, by simpa [fld_top_eq_zero _ (by decide : 5 < 32)] using hv⟩
  case rmode =>
    obtain ⟨l, hl, hv⟩ := hr
    exact mtsThread_of_bad _ ⟨l, hl, by simpa [fld_top_eq_zero _ (by decide : 2 < 32)] using hv⟩
  case winbase =>
    obtain ⟨l, hl, hv⟩ := hr
    refine mtsThread_of_bad _ ⟨l, hl, Bool.eq_false_iff.mpr fun hok => ?_⟩
    obtain ⟨hlt, hz | hwin⟩ := (winbase_ok_iff _).mp hok
    · exact hv.elim hlt.not_ge fun h => h.1 hz
    · exact hv.elim hlt.not_ge fun h => hwin.not_ge h.2
  case trapmask => exact if_neg fun h => hr ((fld_29_20_eq_zero _).mp h)
  case trappc =>
    obtain ⟨rfl, hv⟩ := hr
    exact mtsTrappc_of_large hv
  case traplanes =>
    obtain ⟨b, hb, hv⟩ := hr
    exact mtsTraplanes_of_bad hb hv
  all_goals exact hr.elim

section Lanes

variable (d : BitVec 7) (i : BitVec 3) (w : Bool)

theorem mts_fpstat : DoesWhen (.mts d ⟨.fpstat, i, w⟩) (fun x => ∀ l ∈ x.ls, (x.v d.toNat l).toNat < 2 ^ 5) fun x =>
    x.done x.s fun l th => { th with fpstat := (x.v d.toNat l).setWidth 5 } := by
  refine doesWhen_mts (fun _ => rfl) fun x hx => ?_
  simp only [BitVec.setWidth_eq_extractLsb' (by decide : 5 ≤ 32)]
  exact mtsThread_of_ok _ fun l hl => by simpa [fld_top_eq_zero _ (by decide : 5 < 32)] using hx l hl

theorem mts_rmode : DoesWhen (.mts d ⟨.rmode, i, w⟩) (fun x => ∀ l ∈ x.ls, (x.v d.toNat l).toNat < 2 ^ 2) fun x =>
    x.done x.s fun l th => { th with rmode := (x.v d.toNat l).setWidth 2 } := by
  refine doesWhen_mts (fun _ => rfl) fun x hx => ?_
  simp only [BitVec.setWidth_eq_extractLsb' (by decide : 2 ≤ 32)]
  exact mtsThread_of_ok _ fun l hl => by simpa [fld_top_eq_zero _ (by decide : 2 < 32)] using hx l hl

theorem mts_winbase : DoesWhen (.mts d ⟨.winbase, i, w⟩)
    (fun x => ∀ l ∈ x.ls, (x.v d.toNat l).toNat < 2 ^ 7 ∧
      (x.v d.toNat l = 0 ∨ 8 * (x.v d.toNat l).toNat < x.g.vh)) fun x =>
    x.modW (x.done x.s fun l th => { th with winbase := (x.v d.toNat l).setWidth 7 }) fun w =>
      { w with rpf := (0, 0) } := by
  refine doesWhen_mts (fun _ => rfl) fun x hx => ?_
  simp only [← BitVec.ofNat_toNat]
  exact mtsThread_of_ok _ fun l hl => (winbase_ok_iff _).mpr (hx l hl)

end Lanes

section Causeclr

variable (a : BitVec 6)

/-- The check of CAUSECLR's mask (R397). -/
theorem causeclr_check (v : Word) : ¬ fld v 31 20 ≠ 0 ↔ v.toNat < 2 ^ 20 :=
  not_not.trans (fld_top_eq_zero v (by decide))

theorem causeclr_sub (b : Sub) :
    DoesWhen (.causeclr a) (fun x => x.sub? = some b ∧ (x.u a.toNat).toNat < 2 ^ 20) fun x =>
      x.doneW x.s fun w => { w with subs := w.subs.map fun c =>
        if c.lanes = b.lanes then { c with cause := c.cause &&& ~~~(x.u a.toNat) } else c } := by
  refine doesWhen_of_eq (fun s => by dsimp only [exec]; rfl) fun x ⟨hs, hv⟩ => ?_
  refine (if_neg ((causeclr_check _).mpr hv)).trans ?_
  rw [hs]

theorem causeclr_warp :
    DoesWhen (.causeclr a) (fun x => x.sub? = none ∧ (x.u a.toNat).toNat < 2 ^ 20) fun x =>
      x.doneW x.s fun w => { w with cause := w.cause &&& ~~~(x.u a.toNat),
                                    budgetDue := w.budgetDue && !(x.u a.toNat).getLsbD 8,
                                    budgetMoves := w.budgetMoves && !(x.u a.toNat).getLsbD 8 } := by
  refine doesWhen_of_eq (fun s => by dsimp only [exec]; rfl) fun x ⟨hs, hv⟩ => ?_
  refine (if_neg ((causeclr_check _).mpr hv)).trans ?_
  rw [hs]
  rfl

theorem causeclr_refuses :
    DoesWhen (.causeclr a) (fun x => 2 ^ 20 ≤ (x.u a.toNat).toNat) fun x => x.raise Cause.illop :=
  doesWhen_of_eq (fun s => by dsimp only [exec]; rfl) fun _ hv =>
    if_pos (not_imp_comm.mp (causeclr_check _).mp hv.not_gt)

end Causeclr

/-- Settles O14: each register's check passes the values that the rules allow, and refuses the others. -/
theorem specialRegisterWrites : Obligations.SpecialRegisterWrites := by
  refine ⟨⟨mts_fpstat, mts_rmode, mts_winbase, fun d i w => doesWhen_mts (fun _ => rfl) fun x hx => ?_,
    mts_trappc_wide, mts_trappc_wide_sub, mts_trappc_low, mts_trappc_low_sub, mts_trappc_unaligned,
    fun d i w b => doesWhen_mts (fun _ => rfl) fun x ⟨hb, hm, hne⟩ => mtsTraplanes_of_fewer hb hm hne,
    fun d i w b => doesWhen_mts (fun _ => rfl) fun x ⟨hb, hm⟩ => mtsTraplanes_of_same hb hm,
    fun r d i w => ?_⟩, causeclr_sub, causeclr_warp, causeclr_refuses⟩
  · exact if_pos ((fld_29_20_eq_zero _).mpr hx)
  · cases r <;> exact mts_refuses _ d i w

end Sys2Proof.Laws
end

section
/-! SUPPORT. What PIPE.map, PIPE.unmap and PIPE.qry do to a pipe that the gang declares (R38, R227, R305). -/

namespace Sys2Proof.Laws

open Sys2Proof.Machine

section Pipe

variable {x : Ctx} {k : BitVec 3} {q : Pipe} {f : Pipe → State}

theorem pipeOp_of_end (hq : x.pipe? k.toNat = some q) (he : q.ends x.g.member = true) : x.pipeOp k f = f q := by
  rw [Ctx.pipeOp, hq]
  exact if_pos he

theorem pipeOp_of_other (hq : x.pipe? k.toNat = some q) (he : q.ends x.g.member = false) :
    x.pipeOp k f = x.raise Cause.prot := by
  rw [Ctx.pipeOp, hq]
  exact if_neg (Bool.eq_false_iff.mp he)

theorem pipeOp_of_undeclared (hq : x.pipe? k.toNat = none) : x.pipeOp k f = x.raise Cause.illop := by
  rw [Ctx.pipeOp, hq]

end Pipe

/-! ### Lanes that wait on an unmapped pipe -/

/-- No lane, no cause. -/
theorem parkLanes_nil (s : State) (c gk slot : Nat) (bits : Word) : s.parkLanes c gk slot [] bits = s := by
  rw [State.parkLanes]
  split <;> rfl

/-- The lanes of a warp that wait on pipe k. -/
def waitingLanes (h : Group) (w : Warp) (k : Nat) : List Nat :=
  (h.liveLanes w).filter fun l => (h.laneThread w l).any fun t => t.wait.onPipe k

/-- Group h, an end of the pipe that warp slot x.slot leaves: its lanes that wait on the pipe raise PIPEFE. -/
def leavePipe (x : Ctx) (k : Nat) (s : State) (h : Group) : State :=
  match h.warp? x.slot with
  | none => s
  | some w => s.parkLanes x.core h.gk x.slot (waitingLanes h w k) (Cause.bit Cause.pipefe)

theorem leavePipe_of_idle {x : Ctx} {k : Nat} (s : State) {h : Group}
    (hidle : ∀ w, h.warp? x.slot = some w → ∀ l ∈ h.liveLanes w, ∀ t, h.laneThread w l = some t →
      t.wait.onPipe k = false) : leavePipe x k s h = s := by
  rw [leavePipe]
  split
  · rfl
  next w hw =>
    have hnone : waitingLanes h w k = [] := by
      refine List.filter_eq_nil_iff.mpr fun l hl => ?_
      cases ht : h.laneThread w l with
      | none => simp
      | some t => simp [hidle w hw l hl t ht]
    rw [hnone, parkLanes_nil]

theorem foldl_leavePipe_of_idle {x : Ctx} {k : Nat} (s : State) {gs : List Group}
    (hidle : ∀ h ∈ gs, ∀ w, h.warp? x.slot = some w → ∀ l ∈ h.liveLanes w, ∀ t, h.laneThread w l = some t →
      t.wait.onPipe k = false) : gs.foldl (leavePipe x k) s = s := by
  induction gs with
  | nil => rfl
  | cons h r ih =>
    rw [List.foldl_cons, leavePipe_of_idle s (hidle h List.mem_cons_self)]
    exact ih fun g hg => hidle g (List.mem_cons_of_mem _ hg)

/-! ### The words -/

/-- The state once the warp slot is out of the pipe. -/
def unmappedState (x : Ctx) (k : BitVec 3) : State :=
  x.done (x.s.modPipe x.core x.g.gang k.toNat fun q => { q with maps := sdel q.maps x.slot }) fun _ th => th

/-- The groups of the gang that are ends of the pipe. -/
def pipeEnds (x : Ctx) (q : Pipe) : List Group :=
  ((x.s.core x.core).gangGroups x.g.gang).filter fun h => q.ends h.member

section Words

variable {k : BitVec 3} {c : Ctx → Prop} {f : Ctx → State}

theorem doesWhen_pipeMap (h : ∀ x, c x → (x.pipeOp k fun q =>
    if (x.s.core x.core).bins.any fun b => b.gk == x.g.gk then x.raise Cause.pipefe
    else if (sfind q.maps x.slot).isSome then x.done x.s fun _ th => th
    else x.done (x.s.modPipe x.core x.g.gang k.toNat fun q => { q with maps := sput q.maps x.slot [] })
      fun _ th => th) = f x) : DoesWhen (.pipeMap k) c f := doesWhen_of_eq (fun _ => by dsimp only [exec]; rfl) h

theorem doesWhen_pipeUnmap (h : ∀ x, c x → (x.pipeOp k fun q =>
    if (sfind q.maps x.slot).isNone then unmappedState x k
    else (pipeEnds x q).foldl (leavePipe x k.toNat) (unmappedState x k)) = f x) : DoesWhen (.pipeUnmap k) c f :=
  doesWhen_of_eq (fun _ => by dsimp only [exec]; rfl) h

end Words

theorem no_bin_iff (x : Ctx) : ((x.s.core x.core).bins.any fun b => b.gk == x.g.gk) = false ↔
    ∀ b ∈ (x.s.core x.core).bins, b.gk ≠ x.g.gk := by simp

/-- Settles O35: the checks of a PIPE word answer as the gang's pipe and its ends stand, and the lanes of its ends that
wait are those that raise PIPEFE. -/
theorem pipeWords : Obligations.PipeWords := by
  refine ⟨fun k q => doesWhen_pipeMap fun x ⟨hq, he, hb, hm⟩ => ?_,
    fun k q => doesWhen_pipeMap fun x ⟨hq, he, hb, hm⟩ => ?_,
    fun k q => doesWhen_pipeMap fun x ⟨hq, he, b, hb, hgk⟩ => ?_,
    fun k => doesWhen_pipeMap fun x hq => pipeOp_of_undeclared hq,
    fun k q => doesWhen_pipeMap fun x ⟨hq, he⟩ => pipeOp_of_other hq he,
    fun k q => doesWhen_pipeUnmap fun x ⟨hq, he, hm⟩ => ?_,
    fun k q => doesWhen_pipeUnmap fun x ⟨hq, he, hm, hidle⟩ => ?_,
    fun k q => doesWhen_pipeUnmap fun x ⟨hq, he, hm⟩ => ?_,
    fun k => doesWhen_pipeUnmap fun x hq => pipeOp_of_undeclared hq,
    fun k q => doesWhen_pipeUnmap fun x ⟨hq, he⟩ => pipeOp_of_other hq he,
    fun d k q => doesWhen_of_eq (fun _ => by dsimp only [exec]; rfl) fun x ⟨hq, he⟩ => ?_,
    fun d k q => doesWhen_of_eq (fun _ => by dsimp only [exec]; rfl) fun x ⟨hq, he⟩ => ?_,
    fun d k => doesWhen_of_eq (fun _ => by dsimp only [exec]; rfl) fun x hq => ?_⟩
  · rw [pipeOp_of_end hq he, (no_bin_iff x).mpr hb, hm]
    rfl
  · rw [pipeOp_of_end hq he, (no_bin_iff x).mpr hb, hm]
    rfl
  · rw [pipeOp_of_end hq he]
    exact if_pos (List.any_eq_true.mpr ⟨b, hb, by simpa using hgk⟩)
  · rw [pipeOp_of_end hq he, hm]
    rfl
  · have hends : ∀ h ∈ pipeEnds x q, h ∈ (x.s.core x.core).gangGroups x.g.gang ∧ q.ends h.member = true :=
      fun _ => List.mem_filter.mp
    rw [pipeOp_of_end hq he, foldl_leavePipe_of_idle _ fun h hh => hidle h (hends h hh).1 (hends h hh).2, ite_self]
    rfl
  · rw [pipeOp_of_end hq he, Option.isNone_eq_false_iff.mpr hm]
    rfl
  · simp only [hq, he, if_true]
  · simp only [hq, he, Bool.false_eq_true, if_false]
  · simp only [hq]

end Sys2Proof.Laws
end

section
/-! SUPPORT. The integer words as functions of their operands' values (R80, R88). -/

namespace Sys2Proof.Laws

open Sys2Proof.Machine

/-! ### Operands as numbers (R28, R80) -/

section Operands

variable (t : IType) (x : Ctx) (n : BitVec 7) (l : Nat)

theorem read_toNat_word (v : Word) : IType.read .s32 v.toNat = v.toInt ∧ IType.read .z32 v.toNat = v.toNat :=
  ⟨sx_toNat (by decide) v, congrArg Nat.cast (Nat.mod_eq_of_lt v.isLt)⟩

theorem read_toNat_pair (v : DWord) : IType.read .s64 v.toNat = v.toInt ∧ IType.read .z64 v.toNat = v.toNat :=
  ⟨sx_toNat (by decide) v, congrArg Nat.cast (Nat.mod_eq_of_lt v.isLt)⟩

theorem iA_eq_aVal : x.iA t n l = aVal t x n l := by
  cases t with
  | s32 => exact (read_toNat_word _).1
  | z32 => exact (read_toNat_word _).2
  | s64 => exact (read_toNat_pair _).1
  | z64 => exact (read_toNat_pair _).2

theorem iB_eq_bVal : x.iB t n l = bVal t x n l := by
  cases t with
  | s32 => exact (read_toNat_word _).1
  | z32 => exact (read_toNat_word _).2
  | s64 => exact (read_toNat_pair _).1
  | z64 => exact (read_toNat_pair _).2

end Operands

/-! ### Results (R55, R88) -/

theorem satS_eq_max_min {n : Nat} (v : Int) :
    satS v n = max (-((2 ^ (n - 1) : Nat) : Int)) (min (((2 ^ (n - 1) : Nat) : Int) - 1) v) := by
  have : 0 < 2 ^ (n - 1) := Nat.two_pow_pos _
  simp only [satS]
  omega

theorem satZ_eq_max_min {n : Nat} (v : Int) : satZ v n = max 0 (min (((2 ^ n : Nat) : Int) - 1) v) := by
  have : 0 < 2 ^ n := Nat.two_pow_pos _
  simp only [satZ]
  omega

/-- The saturation of R55 gives the nearest number of the type. -/
theorem sat_eq_clamp (t : IType) (v : Int) :
    (if isSigned t then satS v (if wide t then 64 else 32) else satZ v (if wide t then 64 else 32)) = clamp t v := by
  cases t with
  | s32 | s64 => exact satS_eq_max_min v
  | z32 | z64 => exact satZ_eq_max_min v

theorem setN_wrap (t : IType) (d : BitVec 7) (v : Int) (th : Thread) :
    th.setN (wide t) d.toNat (wrap v (if wide t then 64 else 32)) = putVal t false d v th := by
  cases t with
  | s32 | z32 => exact congrArg (th.setV d.toNat) (ofNat_wrap 32 v)
  | s64 | z64 => exact congrArg (th.setV64 d.toNat) (ofNat_wrap 64 v)

theorem setN_intResult (t : IType) (sat : Bool) (d : BitVec 7) (v : Int) (th : Thread) :
    th.setN (wide t) d.toNat (intResult (isSigned t) sat (if wide t then 64 else 32) v) = putVal t sat d v th := by
  cases sat with
  | false => exact setN_wrap t d v th
  | true => 
    rw [intResult, if_pos rfl, sat_eq_clamp, setN_wrap]
    rfl

/-- A word that writes its integer result to every lane puts the number, saturated or wrapped, there. -/
theorem writeInt_intResult (x : Ctx) (t : IType) (sat : Bool) (d : BitVec 7) (val : Nat → Int) :
    (x.writeInt (wide t) d fun l => intResult (isSigned t) sat (if wide t then 64 else 32) (val l)) =
      x.done x.s fun l => putVal t sat d (val l) := by
  simp only [Ctx.writeInt, setN_intResult]

theorem pick_eq_max_min (p q : Int) (hi : Bool) :
    (if decide (p < q) != hi then p else q) = if hi then max p q else min p q := by
  cases hi <;> by_cases h : p < q <;> simp [h] <;> omega

/-- Settles O1: each word is its exact number, put through `writeInt_intResult`. -/
theorem integerArithmetic : Obligations.IntegerArithmetic := by
  refine ⟨fun t sat d a b => ?_, fun t sat d a b => ?_, fun t sat d a b => ?_, fun t sat d a b => ?_,
    fun t sat d a b => ?_, fun sat d a b => ?_, fun sat d a b => ?_, fun t d a b => ?_, fun t d a b => ?_⟩
  all_goals refine does_of_eq (fun s => by dsimp only [exec]; rfl) fun x => ?_
  · simp only [iA_eq_aVal, iB_eq_bVal, writeInt_intResult]
  · simp only [iA_eq_aVal, iB_eq_bVal, writeInt_intResult]
  · simp only [iA_eq_aVal, iB_eq_bVal, writeInt_intResult, Bool.false_eq_true, if_false]
  · have hn : ((2 ^ (if wide t then 64 else 32) : Nat) : Int) = if t.is64 then 2 ^ 64 else 2 ^ 32 := by cases t <;> rfl
    simp only [iA_eq_aVal, iB_eq_bVal, writeInt_intResult, if_true, hn]
  · simp only [iA_eq_aVal, iB_eq_bVal, writeInt_intResult, Bool.false_eq_true, if_false]
  · have hc (l : Nat) : sx (x.v64 d.toNat l).toNat 64 = aVal .s64 x d l := sx_toNat (by decide) _
    simp only [iA_eq_aVal, iB_eq_bVal, if_true, isSigned, hc]
    exact writeInt_intResult x .s64 sat d _
  · simp only [iA_eq_aVal, iB_eq_bVal, if_true, isSigned, Bool.false_eq_true, if_false]
    exact writeInt_intResult x .z64 sat d _
  all_goals simp only [Ctx.writeInt, setN_wrap, iA_eq_aVal, iB_eq_bVal, pick_eq_max_min, Bool.false_eq_true,
    if_true, if_false]

end Sys2Proof.Laws
end

section
/-! SUPPORT. The bitwise functions and the shifts as operations on bit vectors (R89, R90). -/

namespace Sys2Proof.Laws

open Sys2Proof.Machine

/-! ### Words and pairs written to every lane -/

section Write

variable (x : Ctx) (d : BitVec 7)

theorem writeInt_word (val : Nat → Word) :
    (x.writeInt false d fun l => (val l).toNat) = x.done x.s fun l th => th.setV d.toNat (val l) := by
  simp [Ctx.writeInt, Thread.setN]

theorem writeInt_pair (val : Nat → DWord) :
    (x.writeInt true d fun l => (val l).toNat) = x.done x.s fun l th => th.setV64 d.toNat (val l) := by
  simp [Ctx.writeInt, Thread.setN]

end Write

theorem nbit_toNat {n : Nat} (v : BitVec n) (i : Nat) : nbit v.toNat i = v.getLsbD i := by
  rw [BitVec.getLsbD, Nat.testBit_eq_decide_div_mod_eq, nbit, Nat.shiftRight_eq_div_pow]
  rfl

theorem wrap_natCast (a n : Nat) : wrap a n = a % 2 ^ n := by
  rw [wrap, ← Int.natCast_mod, Int.toNat_natCast]

theorem wrap_eq_toNat_ofInt (n : Nat) (v : Int) : wrap v n = (BitVec.ofInt n v).toNat := by
  rw [BitVec.toNat_ofInt, wrap]

/-! ### Shifts of n bits (R90) -/

section Shift

variable {n : Nat} (v : BitVec n) (k : Nat)

theorem shl_eq_toNat : ShiftFn.eval .shl n v.toNat k = (v <<< k).toNat := by
  rw [ShiftFn.eval, wrap_natCast, BitVec.toNat_shiftLeft, Nat.shiftLeft_eq]
  refine ite_eq_left_iff.mpr fun h => ?_
  exact (Nat.mod_eq_zero_of_dvd (dvd_mul_of_dvd_right (pow_dvd_pow 2 (by omega)) _)).symm

theorem shr_eq_toNat : ShiftFn.eval .shr n v.toNat k = (v >>> k).toNat := by
  rw [ShiftFn.eval, BitVec.toNat_ushiftRight, Nat.shiftRight_eq_div_pow]
  refine ite_eq_left_iff.mpr fun h => ?_
  exact (Nat.div_eq_of_lt (v.isLt.trans_le (Nat.pow_le_pow_right (by decide) (by omega)))).symm

/-- A count beyond the width leaves copies of the sign bit. -/
theorem sshiftRight_of_le (h : n ≤ k) : v.sshiftRight k = if v.msb then BitVec.allOnes n else 0#n := by
  refine BitVec.eq_of_getLsbD_eq fun i hi => ?_
  rw [BitVec.getLsbD_sshiftRight, if_neg (by omega : ¬ k + i < n)]
  cases v.msb <;> simp [hi]

theorem sra_eq_toNat (hn : 0 < n) : ShiftFn.eval .sra n v.toNat k = (v.sshiftRight k).toNat := by
  rw [ShiftFn.eval]
  split
  case isTrue h => rw [wrap_eq_toNat_ofInt, sx_toNat hn, BitVec.sshiftRight, Int.shiftRight_eq_div_pow]
  case isFalse h =>
    rw [sshiftRight_of_le v k (by omega), nbit_toNat, ← BitVec.msb_eq_getLsbD_last]
    cases v.msb <;> simp

/-- The bits that leave at the bottom enter at the top. -/
theorem rot_eq_toNat (hn : 0 < n) : ShiftFn.eval .rot n v.toNat k = (v.rotateRight k).toNat := by
  have hr : k % n < n := Nat.mod_lt _ hn
  have hpow : 2 ^ n = 2 ^ (k % n) * 2 ^ (n - k % n) := by rw [← pow_add, Nat.add_sub_cancel' hr.le]
  have hlow : v.toNat / 2 ^ (k % n) < 2 ^ (n - k % n) := by
    rw [Nat.div_lt_iff_lt_mul (Nat.two_pow_pos _), mul_comm, ← hpow]
    exact v.isLt
  have htop : v.toNat * 2 ^ (n - k % n) % 2 ^ n = v.toNat % 2 ^ (k % n) * 2 ^ (n - k % n) := by
    rw [hpow, Nat.mul_mod_mul_right]
  rw [BitVec.toNat_rotateRight, Nat.shiftLeft_eq, htop, Nat.shiftRight_eq_div_pow, Nat.or_comm, ← Nat.shiftLeft_eq,
    ← Nat.shiftLeft_add_eq_or_of_lt hlow, Nat.shiftLeft_eq, ← htop, Nat.add_comm]
  simp only [ShiftFn.eval]
  rw [← htop, Nat.mod_mod]

end Shift

/-- Settles O2: each function is an operation on bit vectors, at both widths. -/
theorem logicAndShift : Obligations.LogicAndShift := by
  refine ⟨fun fn d a b => ?_, fun fn d a b => ?_, fun fn d a b => ?_, fun fn d a b => ?_⟩
  all_goals refine does_of_eq (fun s => by dsimp only [exec]; rfl) fun x => ?_
  · refine (writeInt_word x d _).trans ?_
    simp only [Ctx.vn, Ctx.bn, Bool.false_eq_true, if_false, BitVec.ofNat_toNat]
    cases fn <;> rfl
  · refine (writeInt_pair x d _).trans ?_
    simp only [Ctx.vn, Ctx.bn, if_true, BitVec.ofNat_toNat]
    cases fn <;> rfl
  all_goals simp only [Ctx.vn, Bool.false_eq_true, if_false, if_true]
  · cases fn with
    | shl => simp only [shl_eq_toNat, writeInt_word]
    | shr => simp only [shr_eq_toNat, writeInt_word]
    | sra => simp only [sra_eq_toNat _ _ (show 0 < 32 by decide), writeInt_word]
    | rot => simp only [rot_eq_toNat _ _ (show 0 < 32 by decide), writeInt_word]
  · cases fn with
    | shl => simp only [shl_eq_toNat, writeInt_pair]
    | shr => simp only [shr_eq_toNat, writeInt_pair]
    | sra => simp only [sra_eq_toNat _ _ (show 0 < 64 by decide), writeInt_pair]
    | rot => simp only [rot_eq_toNat _ _ (show 0 < 64 by decide), writeInt_pair]

end Sys2Proof.Laws
end

section
/-! SUPPORT. Counts, the reversal and the fields of a word, bit by bit (R91). -/

namespace Sys2Proof.Laws

open Sys2Proof.Machine

/-! ### Counts and the reversal -/

/-- The length of the run that a test holds on at the start of 0, 1, …: c, where it holds below c and not at c. -/
theorem length_takeWhile_range {p : Nat → Bool} {n c : Nat} (hc : c ≤ n) (hlt : ∀ i < c, p i = true)
    (hend : c < n → p c = false) : ((List.range n).takeWhile p).length = c := by
  obtain ⟨k, rfl⟩ := Nat.exists_eq_add_of_le hc
  rw [List.range_add, List.takeWhile_append_of_pos fun i hi => hlt i (List.mem_range.mp hi)]
  cases k with
  | zero => simp
  | succ k => simp [List.range_succ_eq_map, hend (by omega)]

section Counts

variable {n : Nat} (v : BitVec n)

theorem popCount_eq_cpop : popCount v.toNat n = v.cpop.toNat := by
  have hrec (m : Nat) : popCount v.toNat m = v.cpopNatRec m 0 := by
    induction m with
    | zero => rfl
    | succ m ih =>
      rw [BitVec.cpopNatRec_succ, BitVec.cpopNatRec_eq, ← ih, popCount, popCount, List.range_succ, List.filter_append,
        List.length_append]
      cases h : v.getLsbD m <;> simp [nbit_toNat, h]
  rw [hrec, BitVec.toNat_cpop]

/-- The run of positions, from the top, whose bits are clear. -/
theorem length_takeWhile_eq_clz {p : Nat → Bool} (hn : 0 < n) (hp : ∀ i < n, p i = !v.getMsbD i) :
    ((List.range n).takeWhile p).length = v.clz.toNat := by
  have hmod : n % 2 ^ n = n := Nat.mod_eq_of_lt Nat.lt_two_pow_self
  have hle : v.clz.toNat ≤ n := by simpa [BitVec.le_def, hmod] using BitVec.clz_le (x := v)
  refine length_takeWhile_range hle (fun i hi => ?_) fun hlt => ?_
  · have hclear := BitVec.getLsbD_false_of_clzAuxRec (x := v) (n := n - 1)
      (fun j hj => BitVec.getLsbD_of_ge v j (by omega)) (v.clz.toNat - 1 - i)
    change v.getLsbD (n - v.clz.toNat + (v.clz.toNat - 1 - i)) = false at hclear
    rw [hp i (by omega), BitVec.getMsbD_eq_getLsbD,
    show n - 1 - i = n - v.clz.toNat + (v.clz.toNat - 1 - i) by omega, hclear]
    simp
  · have hne : v ≠ 0#n := BitVec.clz_lt_iff_ne_zero.mp (by simpa [BitVec.lt_def, hmod] using hlt)
    rw [hp _ hlt, BitVec.getMsbD_eq_getLsbD, BitVec.getLsbD_true_clz_of_ne_zero hn hne]
    simp [hlt]

theorem leadZeros_eq_clz (hn : 0 < n) : leadZeros v.toNat n = v.clz.toNat :=
  length_takeWhile_eq_clz v hn fun i hi => by simp [nbit_toNat, BitVec.getMsbD_eq_getLsbD, hi]

theorem trailZeros_eq_ctz (hn : 0 < n) : trailZeros v.toNat n = v.ctz.toNat :=
  length_takeWhile_eq_clz v.reverse hn fun i _ => by rw [nbit_toNat, BitVec.getMsbD_reverse]

/-- The bits taken so far are the upper ones of the result. -/
theorem reverseBits_eq_reverse : reverseBits v.toNat n = v.reverse.toNat := by
  have hfold (m : Nat) (hm : m ≤ n) :
      (List.range m).foldl (fun r i => r + if nbit v.toNat i then 2 ^ (n - 1 - i) else 0) 0 =
        2 ^ (n - m) * (v.reverse.toNat / 2 ^ (n - m)) := by
    induction m with
    | zero => simp [Nat.div_eq_of_lt v.reverse.isLt]
    | succ m ih =>
      obtain ⟨k, hk⟩ := Nat.exists_eq_add_of_lt hm
      have hbit : nbit v.toNat m = decide (v.reverse.toNat / 2 ^ k % 2 = 1) := by
        rw [nbit_toNat, ← Nat.testBit_eq_decide_div_mod_eq]
        change _ = v.reverse.getLsbD k
        rw [BitVec.getLsbD_reverse, BitVec.getMsbD_eq_getLsbD, show n - 1 - k = m by omega]
        simp [show k < n by omega]
      rw [List.range_succ, List.foldl_append, ih (by omega), List.foldl_cons, List.foldl_nil, hbit,
        show n - m = k + 1 by omega, show n - (m + 1) = k by omega, show n - 1 - m = k by omega, pow_succ,
        ← Nat.div_div_eq_div_mul, mul_assoc]
      have hdiv := Nat.div_add_mod (v.reverse.toNat / 2 ^ k) 2
      rcases Nat.mod_two_eq_zero_or_one (v.reverse.toNat / 2 ^ k) with h | h
      all_goals
        rw [h] at hdiv
        simp only [h, decide_eq_true_eq, if_true, zero_ne_one, if_false]
        linear_combination 2 ^ k * hdiv
  have := hfold n le_rfl
  simpa [reverseBits] using this

end Counts

/-! ### Fields -/

section Fields

variable (p c q : Word) {i : Nat}

/-- Position and length of the field that a control word names. -/
theorem nbits_field : nbits c.toNat 4 0 = (c.extractLsb' 0 5).toNat ∧ nbits c.toNat 13 8 = (c.extractLsb' 8 6).toNat :=
  ⟨(BitVec.extractLsb'_toNat ..).symm, (BitVec.extractLsb'_toNat ..).symm⟩

theorem testBit_field (pos len : Nat) :
    ((p.toNat >>> pos) % 2 ^ len).testBit i = (decide (i < len) && p.getLsbD (pos + i)) := by
  rw [Nat.testBit_mod_two_pow, Nat.testBit_shiftRight]
  rfl

/-- The bits of a field extended by its sign. -/
theorem getLsbD_signed_field {pos len : Nat} (hl : 0 < len) (hi : i < 32) :
    (BitVec.ofNat 32 (wrap (sx ((p.toNat >>> pos) % 2 ^ len) len) 32)).getLsbD i =
      if i < len then p.getLsbD (pos + i) else p.getLsbD (pos + len - 1) := by
  have hf : (p.toNat >>> pos) % 2 ^ len = (BitVec.ofNat len (p.toNat >>> pos)).toNat := by rw [BitVec.toNat_ofNat]
  rw [ofNat_wrap, hf, sx_toNat hl]
  change ((BitVec.ofNat len (p.toNat >>> pos)).signExtend 32).getLsbD i = _
  rw [BitVec.getLsbD_signExtend, BitVec.msb_eq_getLsbD_last]
  simp only [BitVec.getLsbD_ofNat, Nat.testBit_shiftRight, hi, show len - 1 < len by omega,
    show pos + (len - 1) = pos + len - 1 by omega, decide_true, Bool.true_and]
  split
  case isTrue h => simp only [h, decide_true, Bool.true_and]; rfl
  case isFalse => rfl

/-- The bits of a word with a field inserted. -/
theorem testBit_inserted {pos len : Nat} (hi : i < 32) :
    ((q.toNat &&& (2 ^ 32 - 1 - ((2 ^ len - 1) * 2 ^ pos) % 2 ^ 32)) |||
        ((p.toNat * 2 ^ pos) % 2 ^ 32 &&& ((2 ^ len - 1) * 2 ^ pos) % 2 ^ 32)).testBit i =
      if pos ≤ i ∧ i < pos + len then p.getLsbD (i - pos) else q.getLsbD i := by
  have hmask : (((2 ^ len - 1) * 2 ^ pos) % 2 ^ 32).testBit i = decide (pos ≤ i ∧ i < pos + len) := by
    rw [Nat.testBit_mod_two_pow, Nat.testBit_mul_two_pow, Nat.testBit_two_pow_sub_one]
    simp only [hi, decide_true, Bool.true_and, ← Bool.decide_and]
    exact decide_eq_decide.mpr (by omega)
  have hkeep : (2 ^ 32 - 1 - ((2 ^ len - 1) * 2 ^ pos) % 2 ^ 32).testBit i = !decide (pos ≤ i ∧ i < pos + len) := by
    rw [Nat.sub_sub, Nat.add_comm 1, Nat.testBit_two_pow_sub_succ (Nat.mod_lt _ (by decide)), hmask]
    simp [hi]
  have hput : ((p.toNat * 2 ^ pos) % 2 ^ 32).testBit i = (decide (pos ≤ i) && p.getLsbD (i - pos)) := by
    rw [Nat.testBit_mod_two_pow, Nat.testBit_mul_two_pow]
    simp only [hi, decide_true, Bool.true_and]
    rfl
  rw [Nat.testBit_or, Nat.testBit_and, Nat.testBit_and, hmask, hkeep, hput]
  split
  case isTrue h => simp [h]
  case isFalse h => simp [h]; rfl

/-- R91: an extracted field, zero above it. -/
theorem getLsbD_bfeZ (hi : i < 32) :
    (BitVec.ofNat 32 (fieldForm .bfeZ p.toNat c.toNat q.toNat)).getLsbD i =
      (decide (i < min 32 (c.extractLsb' 8 6).toNat) && p.getLsbD ((c.extractLsb' 0 5).toNat + i)) := by
  simp only [fieldForm, nbits_field c, BitVec.getLsbD_ofNat, hi, decide_true, Bool.true_and]
  exact testBit_field p _ _

/-- R91: an extracted field, its sign bit above it. -/
theorem getLsbD_bfeS (hi : i < 32) :
    (BitVec.ofNat 32 (fieldForm .bfeS p.toNat c.toNat q.toNat)).getLsbD i =
      if i < min 32 (c.extractLsb' 8 6).toNat then p.getLsbD ((c.extractLsb' 0 5).toNat + i)
      else decide (0 < min 32 (c.extractLsb' 8 6).toNat) &&
        p.getLsbD ((c.extractLsb' 0 5).toNat + min 32 (c.extractLsb' 8 6).toNat - 1) := by
  simp only [fieldForm, nbits_field c]
  generalize min 32 (c.extractLsb' 8 6).toNat = len
  by_cases h : len = 0
  · simp [h]
  · have hl : 0 < len := Nat.pos_of_ne_zero h
    rw [if_neg h, getLsbD_signed_field p hl hi, decide_eq_true hl, Bool.true_and]

/-- R91: an inserted field replaces its own bits. -/
theorem getLsbD_bfi (hi : i < 32) :
    (BitVec.ofNat 32 (fieldForm .bfi p.toNat c.toNat q.toNat)).getLsbD i =
      if (c.extractLsb' 0 5).toNat ≤ i ∧ i < (c.extractLsb' 0 5).toNat + min 32 (c.extractLsb' 8 6).toNat then
        p.getLsbD (i - (c.extractLsb' 0 5).toNat)
      else q.getLsbD i := by
  simp only [fieldForm, nbits_field c, BitVec.getLsbD_ofNat, hi, decide_true, Bool.true_and]
  exact testBit_inserted p q hi

end Fields

/-- Settles O3: the counts and the reversal are the library's, the field forms go bit by bit. -/
theorem bitOperations : Obligations.BitOperations := by
  have h32 : 0 < 32 := by decide
  have h64 : 0 < 64 := by decide
  refine ⟨fun d a b => ?_, fun d a b => ?_, fun d a b => ?_, fun d a b => ?_, fun d a b => ?_, fun d a b => ?_,
    fun d a b => ?_, fun d a b => ?_, fun fn d a b hfn =>
      ⟨fun p c q => BitVec.ofNat 32 (fieldForm fn p.toNat c.toNat q.toNat), ?_, fun p c q i hi => ?_⟩⟩
  case refine_9 =>
    obtain rfl | rfl | rfl := hfn
    all_goals exact does_of_eq (fun s => by dsimp only [exec]; rfl) fun x => rfl
  case refine_10 =>
    obtain rfl | rfl | rfl := hfn
    · exact getLsbD_bfeS p c q hi
    · exact getLsbD_bfeZ p c q hi
    · exact getLsbD_bfi p c q hi
  all_goals refine does_of_eq (fun s => by dsimp only [exec]; rfl) fun x => ?_
  all_goals simp only [Ctx.vn, Bool.false_eq_true, if_false, if_true]
  · simp only [popCount_eq_cpop, writeInt_word]
  · simp only [popCount_eq_cpop]
    rfl
  · simp only [leadZeros_eq_clz _ h32, writeInt_word]
  · simp only [leadZeros_eq_clz _ h64]
    rfl
  · simp only [trailZeros_eq_ctz _ h32, writeInt_word]
  · simp only [trailZeros_eq_ctz _ h64]
    rfl
  · simp only [reverseBits_eq_reverse, writeInt_word]
  · simp only [reverseBits_eq_reverse, writeInt_pair]

end Sys2Proof.Laws
end

section
/-! SUPPORT. Scaled addresses and constants as operations on bit vectors (R94, R96). -/

namespace Sys2Proof.Laws

open Sys2Proof.Machine

theorem ofInt_mul_two_pow {n : Nat} (e : Int) (k : Nat) :
    BitVec.ofInt n (e * (2 ^ k : Nat)) = BitVec.ofInt n e <<< k := by
  have hk : BitVec.ofNat n (2 ^ k) = BitVec.twoPow n k := BitVec.eq_of_toNat_eq (BitVec.toNat_twoPow n k).symm
  rw [BitVec.ofInt_mul, BitVec.ofInt_natCast, hk, BitVec.mul_twoPow_eq_shiftLeft]

/-- An address plus a scaled offset wraps as the bit vectors do. -/
theorem wrap_address (v : DWord) (e : Int) (k : Nat) :
    wrap (v.toNat + e * (2 ^ k : Nat)) 64 = (v + BitVec.ofInt 64 e <<< k).toNat := by
  rw [wrap_eq_toNat_ofInt, BitVec.ofInt_add, ofInt_mul_two_pow, BitVec.ofInt_natCast, BitVec.ofNat_toNat,
    BitVec.setWidth_eq]

/-- The upper part of a word replaced. -/
theorem append_low_eq (imm : BitVec 19) (v : Word) :
    imm ++ v.extractLsb' 0 13 = BitVec.ofNat 32 (imm.toNat * 2 ^ 13 + v.toNat % 2 ^ 13) := by
  refine BitVec.eq_of_toNat_eq ?_
  rw [toNat_append_eq_add, BitVec.extractLsb'_toNat, BitVec.toNat_ofNat, Nat.shiftRight_zero]
  omega

/-- Settles O4: comparisons of the operands' values, and results as operations on bit vectors. -/
theorem compareSelectAddressImmediates : Obligations.CompareSelectAddressImmediates := by
  refine ⟨⟨fun c t d a b => ?_, fun inv p d a b => ?_, fun sh d a b => ?_, fun sh d a b => ?_⟩,
    fun d a imm => ?_, fun d a imm => ?_, fun d a imm => ?_, fun d a imm => ?_, fun d imm => ?_, fun d imm => ?_⟩
  all_goals refine does_of_eq (fun s => by dsimp only [exec]; rfl) fun x => ?_
  · simp only [iA_eq_aVal, iB_eq_bVal]
    cases c <;> rfl
  · rfl
  · have hb (l : Nat) : BitVec.ofInt 64 (sx (x.b b.toNat l).toNat 32) = (x.b b.toNat l).signExtend 64 := by
      rw [sx_toNat (by decide)]
      rfl
    simp only [if_true, wrap_address, hb, writeInt_pair]
  · simp only [Bool.false_eq_true, if_false, wrap_address, BitVec.ofInt_natCast, BitVec.ofNat_toNat, writeInt_pair]
  iterate 5 rfl
  · simp only [append_low_eq]

end Sys2Proof.Laws
end

section
/-! SUPPORT. Exact numbers and their sums as rational numbers, and the special values of a sum (R55, R62, R86). -/

namespace Sys2Proof.Laws

open Sys2Proof.Machine

/-! ### Exact numbers (R62) -/

/-- The rational number of an exact number. -/
def exRat (x : Ex) : ℚ := x.n * (2 : ℚ) ^ x.e

/-- Moving the exponent down to a lower one keeps the number. -/
theorem exRat_lower (n : Int) {k e : Int} (h : k ≤ e) :
    ((n * (2 ^ (e - k).toNat : Nat) : Int) : ℚ) * (2 : ℚ) ^ k = n * (2 : ℚ) ^ e := by
  have hz : (2 : ℚ) ^ (e - k).toNat = (2 : ℚ) ^ (e - k) := by
    rw [← zpow_natCast, Int.toNat_of_nonneg (by omega)]
  push_cast
  rw [hz, mul_assoc, ← zpow_add₀ two_ne_zero, Int.sub_add_cancel]

theorem exRat_add (a b : Ex) : exRat (Ex.add a b) = exRat a + exRat b := by
  simp only [Ex.add]
  split
  case isTrue h => simp [exRat, h]
  case isFalse =>
    split
    case isTrue h => simp [exRat, h]
    case isFalse =>
      simp only [exRat, Int.cast_add, add_mul]
      rw [exRat_lower _ (min_le_left _ _), exRat_lower _ (min_le_right _ _)]

theorem ratOf_eq_exRat (v : FVal) : ratOf v = exRat v.ex := by
  cases v with
  | nan | inf => simp [ratOf, FVal.ex, exRat]
  | fin neg m e => cases neg <;> simp [ratOf, FVal.ex, exRat]

theorem exRat_eq_zero_iff (x : Ex) : exRat x = 0 ↔ x.n = 0 := by
  simp [exRat, zpow_ne_zero]

theorem ratOf_fin_eq_zero_iff (neg : Bool) (m : Nat) (e : Int) : ratOf (.fin neg m e) = 0 ↔ m = 0 := by
  cases neg <;> simp [ratOf, zpow_ne_zero]

theorem exRat_foldl_add (l : List FVal) (x : Ex) :
    exRat (l.foldl (fun a v => Ex.add a v.ex) x) = exRat x + (l.map ratOf).sum := by
  induction l generalizing x with
  | nil => simp
  | cons v r ih => rw [List.foldl_cons, ih, exRat_add, List.map_cons, List.sum_cons, ratOf_eq_exRat, add_assoc]

theorem exRat_sum (l : List FVal) : exRat (l.foldl (fun a v => Ex.add a v.ex) ⟨0, 0⟩) = (l.map ratOf).sum := by
  rw [exRat_foldl_add, (exRat_eq_zero_iff ⟨0, 0⟩).mpr rfl, zero_add]

theorem ofEx_of_ne_zero {x : Ex} (h : x.n ≠ 0) (z : Bool) :
    ∃ neg m e, FVal.ofEx x z = .fin neg m e ∧ ratOf (.fin neg m e) = exRat x := by
  refine ⟨_, _, _, if_neg h, ?_⟩
  rcases lt_or_gt_of_ne h with hneg | hpos
  · simp [ratOf, exRat, hneg, abs_of_neg hneg, Nat.cast_natAbs]
  · simp [ratOf, exRat, not_lt.mpr hpos.le, abs_of_pos hpos, Nat.cast_natAbs]

/-! ### Sums (R86) -/

section Sums

variable {l : List FVal} (md : RM)

theorem any_beq_eq {v : FVal} : l.any (· == v) = decide (v ∈ l) := by
  rw [Bool.eq_iff_iff]
  simp

theorem sumVals_of_nan (h : .nan ∈ l) : sumVals l md = (.nan, false) := by
  simp [sumVals, any_beq_eq, h]

theorem sumVals_of_clash (hn : .nan ∉ l) (hp : .inf false ∈ l) (hm : .inf true ∈ l) : sumVals l md = (.nan, true) := by
  simp [sumVals, any_beq_eq, hn, hp, hm]

theorem sumVals_of_inf {s : Bool} (hn : .nan ∉ l) (hs : .inf s ∈ l) (ho : .inf (!s) ∉ l) :
    sumVals l md = (.inf s, false) := by
  cases s
  all_goals simp only [Bool.not_false, Bool.not_true] at ho
  all_goals simp [sumVals, any_beq_eq, hn, hs, ho]

/-- The sign of a sum that is zero: that of its terms where they are zeros of one sign, else the mode's. -/
def zeroSign (l : List FVal) (md : RM) : Bool :=
  if l.all fun v => v.isZero && v.sign then true else if l.all fun v => v.isZero && !v.sign then false else md == .rm

theorem special_of_mem {v : FVal} (h : ∀ v ∈ l, isFinite v) (hv : v.special = true) : v ∉ l :=
  fun hm => Bool.false_ne_true ((h v hm).symm.trans hv)

theorem sumVals_of_finite (h : ∀ v ∈ l, isFinite v) : sumVals l md =
    (.ofEx (l.foldl (fun a v => Ex.add a v.ex) ⟨0, 0⟩) (zeroSign l md), false) := by
  simp only [sumVals, any_beq_eq, zeroSign, special_of_mem h (v := .nan) rfl, special_of_mem h (v := .inf true) rfl,
    special_of_mem h (v := .inf false) rfl, decide_false, Bool.false_eq_true, Bool.and_false, if_false]

theorem sumVals_of_ne_zero (h : ∀ v ∈ l, isFinite v) (hq : (l.map ratOf).sum ≠ 0) :
    ∃ neg m e, ratOf (.fin neg m e) = (l.map ratOf).sum ∧ sumVals l md = (.fin neg m e, false) := by
  have hx := exRat_sum l
  obtain ⟨neg, m, e, hv, hr⟩ := ofEx_of_ne_zero (fun h0 => hq (hx ▸ (exRat_eq_zero_iff _).mpr h0)) (zeroSign l md)
  exact ⟨neg, m, e, hr.trans hx, by rw [sumVals_of_finite md h, hv]⟩

theorem sumVals_of_zero (h : ∀ v ∈ l, isFinite v) (hq : (l.map ratOf).sum = 0) :
    sumVals l md = (.fin (zeroSign l md) 0 0, false) := by
  have hx := exRat_sum l
  rw [hq, exRat_eq_zero_iff] at hx
  rw [sumVals_of_finite md h, FVal.ofEx, if_pos hx]

end Sums

/-! ### What is written of a value (R64, R86) -/

section Finish

variable (f : Fmt) (md : RM)

theorem finish_valid (v : FVal) : finish f md (v, false) = f.encode md v := if_neg Bool.false_ne_true

theorem finish_nan : finish f md (.nan, false) = (f.canon, .none) := finish_valid f md _

theorem finish_invalid (v : FVal) : finish f md (v, true) = (f.canon, .invalid) := rfl

theorem finish_zero (z : Bool) (e : Int) : finish f md (.fin z 0 e, false) = (f.withSign z 0, .none) := by
  rw [finish_valid, Fmt.encode, if_pos rfl]

end Finish

/-! ### Products (R86) -/

section Products

variable (a b : FVal)

theorem mul_nan_left : FVal.mul .nan b = (.nan, false) := by cases b <;> rfl

theorem mul_nan_right : FVal.mul a .nan = (.nan, false) := by cases a <;> rfl

theorem mul_inf_zero (n m : Bool) (e : Int) :
    FVal.mul (.inf n) (.fin m 0 e) = (.nan, true) ∧ FVal.mul (.fin m 0 e) (.inf n) = (.nan, true) := ⟨rfl, rfl⟩

end Products

/-! ### Special cases of the words (R86, R98-R101) -/

section Special

variable {f : Fmt} {a b : Nat} (md : RM)

theorem product_of_nan (h : f.decode a = .nan ∨ f.decode b = .nan) :
    FVal.mul (f.decode a) (f.decode b) = (.nan, false) := by
  rcases h with h | h
  · rw [h, mul_nan_left]
  · rw [h, mul_nan_right]

theorem fpAdd_of_nan (h : f.decode a = .nan ∨ f.decode b = .nan) : fpAdd f md a b = (f.canon, .none) := by
  rw [fpAdd, sumVals_of_nan, finish_nan]
  rcases h with h | h <;> simp [h]

theorem fpMul_of_nan (h : f.decode a = .nan ∨ f.decode b = .nan) : fpMul f md a b = (f.canon, .none) := by
  rw [fpMul, product_of_nan h, finish_nan]

theorem fpFma_of_nan (h : f.decode a = .nan ∨ f.decode b = .nan) (d : Nat) : fpFma f md a b d = (f.canon, .none) := by
  simp only [fpFma, product_of_nan h, Bool.false_eq_true, if_false]
  rw [sumVals_of_nan md (List.mem_cons_self ..), finish_nan]

theorem fpSet_of_nan (h : f.decode a = .nan ∨ f.decode b = .nan) (c : FCmp) :
    fpSet f c a b = (c == .ne || c == .nan) := by
  have hlt : FVal.lt (f.decode a) (f.decode b) = false ∧ FVal.lt (f.decode b) (f.decode a) = false ∧
      FVal.eqv (f.decode a) (f.decode b) = false := by
    rcases h with h | h <;> rw [h]
    · cases f.decode b <;> exact ⟨rfl, rfl, rfl⟩
    · cases f.decode a <;> exact ⟨rfl, rfl, rfl⟩
  have hnan : (f.decode a == .nan || f.decode b == .nan) = true := by simpa using h
  obtain ⟨hab, hba, heq⟩ := hlt
  cases c <;> simp only [fpSet, hab, hba, heq, hnan] <;> rfl

theorem fpAdd_of_opposite_inf {n : Bool} (ha : f.decode a = .inf n) (hb : f.decode b = .inf (!n)) :
    fpAdd f md a b = (f.canon, .invalid) := by
  rw [fpAdd, ha, hb, sumVals_of_clash md, finish_invalid]
  all_goals cases n <;> simp

theorem fpAdd_of_zeros {n m : Bool} {e e' : Int} (ha : f.decode a = .fin n 0 e) (hb : f.decode b = .fin m 0 e') :
    fpAdd f md a b = (f.withSign (if n = m then n else md == .rm) 0, .none) := by
  have hz : zeroSign [.fin n 0 e, .fin m 0 e'] md = if n = m then n else md == .rm := by
    cases n <;> cases m <;> rfl
  rw [fpAdd, ha, hb, sumVals_of_zero md, finish_zero, hz]
  · simp [isFinite, FVal.special]
  · simp [ratOf]

theorem fpMul_of_inf_zero {n m : Bool} {e : Int} (ha : f.decode a = .inf n) (hb : f.decode b = .fin m 0 e) :
    fpMul f md a b = (f.canon, .invalid) ∧ fpMul f md b a = (f.canon, .invalid) := by
  rw [fpMul, fpMul, ha, hb, (mul_inf_zero n m e).1, (mul_inf_zero n m e).2]
  exact ⟨rfl, rfl⟩

theorem fpFma_of_inf_zero {n m : Bool} {e : Int} (ha : f.decode a = .inf n) (hb : f.decode b = .fin m 0 e) (d : Nat) :
    fpFma f md a b d = (f.canon, .invalid) := by
  rw [fpFma, ha, hb, (mul_inf_zero n m e).1]
  rfl

/-- R99: of a NaN and a number the number is taken. -/
theorem fpMinMax_of_one_nan (hi : Bool) : (f.decode a = .nan → f.decode b ≠ .nan → fpMinMax f hi a b = b) ∧
    (f.decode a ≠ .nan → f.decode b = .nan → fpMinMax f hi a b = a) := by
  constructor <;> intro ha hb <;> simp [fpMinMax, ha, hb]

end Special

/-- Settles O6: case by case, the sum's, the product's and the comparison's special values. -/
theorem floatingPointSpecialCases : Obligations.FloatingPointSpecialCases := by
  intro ff md a b d f
  refine ⟨fun h => ⟨fpAdd_of_nan md h, fpMul_of_nan md h, fpFma_of_nan md h d, fpSet_of_nan h⟩,
    fun n => fpAdd_of_opposite_inf md,
    fun n m e ha hb => ⟨(fpMul_of_inf_zero md ha hb).1, (fpMul_of_inf_zero md ha hb).2, fpFma_of_inf_zero md ha hb d⟩,
    fun n m e e' => fpAdd_of_zeros md,
    fun ha hb => ⟨(fpMinMax_of_one_nan false).1 ha hb, (fpMinMax_of_one_nan true).1 ha hb⟩,
    fun ha hb => ⟨(fpMinMax_of_one_nan false).2 ha hb, (fpMinMax_of_one_nan true).2 ha hb⟩, fun h => ?_⟩
  simp [fpMnx, fpRnd, h]

end Sys2Proof.Laws
end

section
/-! SUPPORT. What a lane reads of the others, and votes of the lanes (R107, R108). -/

namespace Sys2Proof.Laws

open Sys2Proof.Machine

section Lanes

variable (x : Ctx) (p : Nat) (neg : Bool)

theorem mem_ls {l : Nat} : l ∈ x.ls ↔ x.lanes.getLsbD l = true := mem_maskLanes

theorem all_voters : ((x.voters p neg).length == x.ls.length) = decide (∀ l ∈ x.ls, x.p p l ≠ neg) := by
  rw [Bool.eq_iff_iff]
  simp [Ctx.voters, List.length_filter_eq_length_iff]

theorem no_voters : (x.voters p neg).isEmpty = decide (∀ l ∈ x.ls, x.p p l = neg) := by
  rw [Bool.eq_iff_iff]
  simp [Ctx.voters]

theorem any_voters : (!(x.voters p neg).isEmpty) = decide (∃ l ∈ x.ls, x.p p l ≠ neg) := by
  rw [no_voters, ← decide_not]
  exact decide_eq_decide.mpr (by push Not; rfl)

/-- The lanes agree where all hold one of the two values. -/
theorem uniform_voters : ((x.voters p neg).isEmpty || (x.voters p neg).length == x.ls.length) =
    decide (∀ l ∈ x.ls, ∀ j ∈ x.ls, x.p p l = x.p p j) := by
  rw [no_voters, all_voters, ← Bool.decide_or]
  refine decide_eq_decide.mpr ⟨?_, fun h => ?_⟩
  · rintro (h | h) l hl j hj
    · rw [h l hl, h j hj]
    · rw [Bool.eq_not_of_ne (h l hl), Bool.eq_not_of_ne (h j hj)]
  · by_contra! hne
    obtain ⟨⟨l, hl, hln⟩, j, hj, hje⟩ := hne
    exact hln ((h l hl j hj).trans hje)

end Lanes

/-- Settles O8: SHFL by the place of its source, VOTE by what its lanes hold, PLOG by its function. -/
theorem crossLaneWords : Obligations.CrossLaneWords := by
  refine ⟨fun mode w d a idx => ?_, fun neg d a => ?_, fun neg d a => ?_, fun neg d a => ?_, fun neg d a => ?_,
    fun neg d a => ?_, fun op d a b => ?_⟩
  all_goals refine does_of_eq (fun s => by dsimp only [exec]; rfl) fun x => ?_
  · refine congrArg (x.done x.s) (funext fun l => funext fun th => congrArg (th.setV d.toNat) ?_)
    simp only [shflSrc, ← mem_ls, ← Nat.div_mul_self_eq_mod_sub_self]
    rw [apply_ite (x.v a.toNat)]
    rfl
  · simp only [all_voters]
  · simp only [any_voters]
  · simp only [uniform_voters]
  · rfl
  · rfl
  · cases op <;> rfl

end Sys2Proof.Laws
end

section
/-! SUPPORT. Sums, extremes and bitwise combinations over the lanes of the issuing set (R109, R110). -/

namespace Sys2Proof.Laws

open Sys2Proof.Machine

/-! ### The set that issues, and flags that are none -/

theorem ls_ne_nil_of_ctxOf {s : State} {x : Ctx} (h : ctxOf s = some x) : x.ls ≠ [] := by
  simp only [ctxOf, Option.bind_eq_some_iff] at h
  obtain ⟨i, -, ⟨g, slot, w⟩, -, hx⟩ := h
  split at hx
  case isTrue => cases hx
  case isFalse hm =>
    cases hx
    exact fun hnil => hm ((maskOf_maskLanes _).symm.trans (congrArg maskOf hnil))

theorem marked_eq (x : Ctx) (o : Opnds) : ∃ t, x.marked o = { x with s := t } := by
  rw [Ctx.marked]
  split
  case isTrue => exact ⟨_, rfl⟩
  case isFalse => exact ⟨x.s, rfl⟩

/-- A result without flags changes the warp slot only. -/
theorem modW_done_none (x : Ctx) (f : Warp → Warp) :
    x.modW (x.done x.s fun _ th => th.flag Flags.none.bits) f = x.doneW x.s f := by
  have hflag (th : Thread) : th.flag Flags.none.bits = th := by
    rw [Thread.flag, show Flags.none.bits = 0#5 from rfl, BitVec.or_zero]
  simp only [hflag]
  rfl

/-! ### Values of the lanes, with the identity outside the set -/

section LaneVals

variable (x : Ctx) (a : BitVec 7) (ident : Word)

theorem mem_laneVals_of_mem {l : Nat} (h : l ∈ x.ls) : x.v a.toNat l ∈ x.laneVals a ident :=
  List.mem_map.mpr ⟨l, (List.mem_filter.mp h).1, if_pos (mem_maskLanes.mp h)⟩

theorem of_mem_laneVals {v : Word} (h : v ∈ x.laneVals a ident) : (∃ l ∈ x.ls, x.v a.toNat l = v) ∨ v = ident := by
  obtain ⟨l, -, hv⟩ := List.mem_map.mp h
  split at hv
  case isTrue hl => exact .inl ⟨l, mem_maskLanes.mpr hl, hv⟩
  case isFalse => exact .inr hv.symm

theorem zip_laneVals (b : BitVec 7) (jdent : Word) : (x.laneVals a ident).zip (x.laneVals b jdent) =
    (List.range 32).map fun l =>
      (if x.lanes.getLsbD l then x.v a.toNat l else ident, if x.lanes.getLsbD l then x.v b.toNat l else jdent) :=
  List.zip_map'

theorem mem_zip_laneVals (b : BitVec 7) (jdent : Word) {l : Nat} (h : l ∈ x.ls) :
    (x.v a.toNat l, x.v b.toNat l) ∈ (x.laneVals a ident).zip (x.laneVals b jdent) := by
  rw [zip_laneVals]
  refine List.mem_map.mpr ⟨l, (List.mem_filter.mp h).1, ?_⟩
  rw [if_pos (mem_maskLanes.mp h), if_pos (mem_maskLanes.mp h)]

theorem of_mem_zip_laneVals (b : BitVec 7) (jdent : Word) {e : Word × Word}
    (h : e ∈ (x.laneVals a ident).zip (x.laneVals b jdent)) :
    (∃ l ∈ x.ls, (x.v a.toNat l, x.v b.toNat l) = e) ∨ e = (ident, jdent) := by
  rw [zip_laneVals] at h
  obtain ⟨l, -, hv⟩ := List.mem_map.mp h
  by_cases hl : x.lanes.getLsbD l = true
  · rw [if_pos hl, if_pos hl] at hv
    exact .inl ⟨l, mem_maskLanes.mpr hl, hv⟩
  · rw [if_neg hl, if_neg hl] at hv
    exact .inr hv.symm

theorem foldl_laneVals {β : Type} {op : β → Word → β} (hid : ∀ m, op m ident = m) (z : β) :
    (x.laneVals a ident).foldl op z = x.ls.foldl (fun m l => op m (x.v a.toNat l)) z := by
  rw [Ctx.laneVals, List.foldl_map, Ctx.ls, maskLanes, List.foldl_filter]
  refine List.foldl_ext _ _ _ fun m l _ => ?_
  split
  case isTrue => rfl
  case isFalse => exact hid m

theorem sum_laneVals {M : Type} [AddMonoid M] {g : Word → M} (hid : g ident = 0) :
    ((x.laneVals a ident).map g).sum = (x.ls.map fun l => g (x.v a.toNat l)).sum := by
  rw [Ctx.laneVals, Ctx.ls, maskLanes]
  induction List.range 32 with
  | nil => rfl
  | cons l r ih =>
    simp only [List.map_cons, List.sum_cons, List.filter_cons, ih]
    split
    case isTrue => rw [List.map_cons, List.sum_cons]
    case isFalse => rw [hid, zero_add]

end LaneVals

theorem foldInt_add_eq_sum (l : List Int) : foldInt (· + ·) l = l.sum := by
  have hfold (r : List Int) (a : Int) : r.foldl (· + ·) a = a + r.sum := by
    induction r generalizing a with
    | nil => simp
    | cons b r ih => rw [List.foldl_cons, ih, List.sum_cons, add_assoc]
  cases l with
  | nil => rfl
  | cons a r => rw [foldInt, hfold, List.sum_cons]

theorem ofInt_sum (l : List Word) : BitVec.ofInt 32 (l.map (·.toInt)).sum = l.sum := by
  induction l with
  | nil => rfl
  | cons v r ih => rw [List.map_cons, List.sum_cons, BitVec.ofInt_add, ih, BitVec.ofInt_toInt, List.sum_cons]

/-! ### Extremes -/

/-- The number of a word, signed or not. -/
def laneRead (sg : Bool) (v : Word) : Int := if sg then v.toInt else v.toNat

theorem ofInt_laneRead (sg : Bool) (v : Word) : BitVec.ofInt 32 (laneRead sg v) = v := by
  cases sg with
  | false => exact (BitVec.ofInt_natCast ..).trans (by rw [BitVec.ofNat_toNat, BitVec.setWidth_eq])
  | true => exact BitVec.ofInt_toInt

theorem laneRead_injective {sg : Bool} {v w : Word} (h : laneRead sg v = laneRead sg w) : v = w := by
  rw [← ofInt_laneRead sg v, h, ofInt_laneRead]

/-- The greater of two numbers, or the less. -/
def pick (hi : Bool) (a b : Int) : Int := if hi then max a b else min a b

/-- a comes before b, or with it, in the order that `pick` follows. -/
def Beats (hi : Bool) (a b : Int) : Prop :=
  match hi with
  | false => a ≤ b
  | true => b ≤ a

/-- The word that every other beats: what a lane outside the set contributes (R110). -/
def worst (hi sg : Bool) : Word :=
  match hi, sg with
  | false, true => 0x7FFFFFFF
  | false, false => 0xFFFFFFFF
  | true, true => 0x80000000
  | true, false => 0

theorem beats_antisymm {hi : Bool} {a b : Int} (h : Beats hi a b) (h' : Beats hi b a) : a = b := by
  cases hi with
  | false => exact le_antisymm h h'
  | true => exact le_antisymm h' h

theorem beats_worst (hi sg : Bool) (v : Word) : Beats hi (laneRead sg v) (laneRead sg (worst hi sg)) := by
  cases hi <;> cases sg
  · change (v.toNat : Int) ≤ 4294967295
    omega
  · change v.toInt ≤ 2147483647
    have := BitVec.toInt_lt (x := v)
    omega
  · change 0 ≤ (v.toNat : Int)
    omega
  · change -2147483648 ≤ v.toInt
    have := BitVec.le_toInt v
    omega

/-- The result of picking is one of the numbers, and beats them all. -/
theorem foldInt_pick_spec (hi : Bool) {l : List Int} (h : l ≠ []) :
    foldInt (pick hi) l ∈ l ∧ ∀ b ∈ l, Beats hi (foldInt (pick hi) l) b := by
  obtain ⟨a, r, rfl⟩ := List.exists_cons_of_ne_nil h
  cases hi with
  | false => exact List.min?_eq_some_iff.mp rfl
  | true => exact List.max?_eq_some_iff.mp rfl

theorem extremeIdx_eq (hi sg : Bool) (vals idxs : List Word) : extremeIdx hi sg vals idxs =
    (BitVec.ofInt 32 (foldInt (pick hi) (vals.map (laneRead sg))), BitVec.ofNat 32
      ((((vals.zip idxs).filter fun e => laneRead sg e.1 == foldInt (pick hi) (vals.map (laneRead sg))).map
        fun e => e.2.toNat).foldl min 0xFFFFFFFF)) := by
  have hpick : (fun p q : Int => if decide (p < q) != hi then p else q) = pick hi :=
    funext fun p => funext fun q => pick_eq_max_min p q hi
  rw [extremeIdx, hpick]
  rfl

section Extremes

variable {x : Ctx} (a b : BitVec 7) (hi sg : Bool)

/-- Some lane of the set holds the extreme value. -/
theorem exists_extreme (hne : x.ls ≠ []) : ∃ l ∈ x.ls,
    foldInt (pick hi) ((x.laneVals a (worst hi sg)).map (laneRead sg)) = laneRead sg (x.v a.toNat l) ∧
    ∀ j ∈ x.ls, Beats hi (laneRead sg (x.v a.toNat l)) (laneRead sg (x.v a.toNat j)) := by
  obtain ⟨l, hl⟩ := List.exists_mem_of_ne_nil _ hne
  have hread {j : Nat} (hj : j ∈ x.ls) : laneRead sg (x.v a.toNat j) ∈ (x.laneVals a (worst hi sg)).map (laneRead sg) :=
    List.mem_map_of_mem (mem_laneVals_of_mem x a _ hj)
  obtain ⟨hmem, hbeats⟩ := foldInt_pick_spec hi (List.ne_nil_of_mem (hread hl))
  obtain ⟨v, hv, he⟩ := List.mem_map.mp hmem
  obtain ⟨k, hk, rfl⟩ | rfl := of_mem_laneVals x a _ hv
  · exact ⟨k, hk, he.symm, fun j hj => he ▸ hbeats _ (hread hj)⟩
  · have heq := beats_antisymm (hbeats _ (hread hl)) (he ▸ beats_worst hi sg _)
    exact ⟨l, hl, heq, fun j hj => heq ▸ hbeats _ (hread hj)⟩

/-- The least index of the lanes that hold a value, where a lane does. -/
theorem exists_least_index {r : Int} (h : ∃ l ∈ x.ls, laneRead sg (x.v a.toNat l) = r) : ∃ l ∈ x.ls,
    laneRead sg (x.v a.toNat l) = r ∧
    ((((x.laneVals a (worst hi sg)).zip (x.laneVals b 0xFFFFFFFF)).filter fun e => laneRead sg e.1 == r).map
      fun e => e.2.toNat).foldl min 0xFFFFFFFF = (x.v b.toNat l).toNat ∧
    ∀ j ∈ x.ls, laneRead sg (x.v a.toNat j) = r → (x.v b.toNat l).toNat ≤ (x.v b.toNat j).toNat := by
  obtain ⟨l, hl, hlr⟩ := h
  generalize hL : (((x.laneVals a (worst hi sg)).zip (x.laneVals b 0xFFFFFFFF)).filter fun e => laneRead sg e.1 == r).map
    (fun e => e.2.toNat) = hits
  have hhit {j : Nat} (hj : j ∈ x.ls) (hjr : laneRead sg (x.v a.toNat j) = r) : (x.v b.toNat j).toNat ∈ hits := by
    rw [← hL]
    exact List.mem_map.mpr ⟨_, List.mem_filter.mpr ⟨mem_zip_laneVals x a _ b _ hj, beq_iff_eq.mpr hjr⟩, rfl⟩
  obtain ⟨hmem, hleast⟩ := List.min?_eq_some_iff.mp (rfl : (0xFFFFFFFF :: hits).min? = some (hits.foldl min 0xFFFFFFFF))
  generalize hits.foldl min 0xFFFFFFFF = least at hmem hleast ⊢
  have hother : least = 0xFFFFFFFF → least = (x.v b.toNat l).toNat := fun h0 =>
    le_antisymm (hleast _ (List.mem_cons_of_mem _ (hhit hl hlr))) (by rw [h0]; omega)
  have hfound : ∃ k ∈ x.ls, laneRead sg (x.v a.toNat k) = r ∧ least = (x.v b.toNat k).toNat := by
    rcases List.mem_cons.mp hmem with h0 | hin
    · exact ⟨l, hl, hlr, hother h0⟩
    · obtain ⟨e, he, hek⟩ := List.mem_map.mp (hL ▸ hin)
      obtain ⟨hz, hr⟩ := List.mem_filter.mp he
      obtain ⟨k, hk, rfl⟩ | rfl := of_mem_zip_laneVals x a _ b _ hz
      · exact ⟨k, hk, beq_iff_eq.mp hr, hek.symm⟩
      · exact ⟨l, hl, hlr, hother hek.symm⟩
  obtain ⟨k, hk, hkr, hke⟩ := hfound
  exact ⟨k, hk, hkr, hke, fun j hj hjr => hke ▸ hleast _ (List.mem_cons_of_mem _ (hhit hj hjr))⟩

end Extremes

/-! ### The effects of the forms (R110) -/

section Forms

variable {op : WredOp} {d : BitVec 6} {a b : BitVec 7} {s : State} {x : Ctx}

/-- The effect of the forms that write one register. -/
def wredOne (op : WredOp) (d : BitVec 6) (a : BitVec 7) (x : Ctx) : State :=
  x.modW (x.done x.s fun _ th => th.flag (wredEval op x a).2.bits) fun w =>
    w.setU d.toNat (BitVec.ofNat 32 (wredEval op x a).1)

/-- The effect of the index forms. -/
def wredPair (hi sg : Bool) (d : BitVec 6) (a b : BitVec 7) (x : Ctx) : State :=
  let r := extremeIdx hi sg (x.laneVals a (worst hi sg)) (x.laneVals b 0xFFFFFFFF)
  x.doneW x.s fun w => (w.setU d.toNat r.1).setU (d.toNat + 1) r.2

theorem wredOne_of_word {v : Word} {n : Nat} (he : wredEval op x a = (n, .none)) (hn : BitVec.ofNat 32 n = v) :
    wredOne op d a x = x.doneW x.s fun w => w.setU d.toNat v := by
  rw [wredOne, he, modW_done_none, hn]

theorem wredPair_of_words {hi sg : Bool} {r k : Word}
    (he : extremeIdx hi sg (x.laneVals a (worst hi sg)) (x.laneVals b 0xFFFFFFFF) = (r, k)) :
    wredPair hi sg d a b x = x.doneW x.s fun w => (w.setU d.toNat r).setU (d.toNat + 1) k := by
  rw [wredPair, he]

/-- A form that writes an extreme value writes one that a lane holds and no lane beats. -/
theorem wred_extreme (hi sg : Bool) (hx : ∀ s, exec (.wred op d a b) s = runWord (.wred op d a b) s (wredOne op d a))
    (he : ∀ x, wredEval op x a = (wrap (foldInt (pick hi) ((x.laneVals a (worst hi sg)).map (laneRead sg))) 32, .none))
    (hr : Runs (.wred op d a b) s x) : ∃ r : Word, (∃ l ∈ x.ls, x.v a.toNat l = r) ∧
      (∀ l ∈ x.ls, Beats hi (laneRead sg r) (laneRead sg (x.v a.toNat l))) ∧
      exec (.wred op d a b) s = .next (performed (.wred op d a b) x fun x => x.doneW x.s fun w => w.setU d.toNat r) := by
  obtain ⟨l, hl, hval, hbeats⟩ := exists_extreme a hi sg (ls_ne_nil_of_ctxOf hr.set)
  refine ⟨x.v a.toNat l, ⟨l, hl, rfl⟩, hbeats, ?_⟩
  obtain ⟨t, ht⟩ := marked_eq x (opndsOf (.wred op d a b))
  rw [hx, runWord_of_runs _ hr, performed_congr]
  rw [ht]
  refine wredOne_of_word (he _) ?_
  rw [ofNat_wrap]
  exact (congrArg (BitVec.ofInt 32) hval).trans (ofInt_laneRead sg _)

/-- An index form writes, with the extreme value, the least index of the lanes that hold it. -/
theorem wred_extreme_index (hi sg : Bool)
    (hx : ∀ s, exec (.wred op d a b) s = runWord (.wred op d a b) s (wredPair hi sg d a b))
    (hr : Runs (.wred op d a b) s x) : ∃ r k : Word, (∃ l ∈ x.ls, x.v a.toNat l = r ∧ x.v b.toNat l = k) ∧
      (∀ l ∈ x.ls, Beats hi (laneRead sg r) (laneRead sg (x.v a.toNat l)) ∧
        (x.v a.toNat l = r → k.toNat ≤ (x.v b.toNat l).toNat)) ∧
      exec (.wred op d a b) s = .next (performed (.wred op d a b) x fun x => x.doneW x.s fun w =>
        (w.setU d.toNat r).setU (d.toNat + 1) k) := by
  obtain ⟨j, hj, hval, hbeats⟩ := exists_extreme a hi sg (ls_ne_nil_of_ctxOf hr.set)
  obtain ⟨l, hl, hlr, hleast, hmin⟩ := exists_least_index a b hi sg ⟨j, hj, hval.symm⟩
  have hsame : x.v a.toNat l = x.v a.toNat j := laneRead_injective (hlr.trans hval)
  refine ⟨x.v a.toNat l, x.v b.toNat l, ⟨l, hl, rfl, rfl⟩,
    fun i hi => ⟨hsame ▸ hbeats i hi, fun h => hmin i hi (h ▸ hlr)⟩, ?_⟩
  obtain ⟨t, ht⟩ := marked_eq x (opndsOf (.wred op d a b))
  rw [hx, runWord_of_runs _ hr, performed_congr]
  rw [ht]
  refine wredPair_of_words ((extremeIdx_eq ..).trans (Prod.ext ?_ ?_))
  · exact (congrArg (BitVec.ofInt 32) hlr.symm).trans (ofInt_laneRead sg _)
  · exact (congrArg (BitVec.ofNat 32) hleast).trans ((BitVec.ofNat_toNat ..).trans (BitVec.setWidth_eq _))

end Forms

/-! ### The floating-point sum (R110) -/

section FloatSum

/-- Minus zero is the one word of its value. -/
theorem isZero_and_sign_iff (v : Word) :
    ((Fmt.f32.decode v.toNat).isZero && (Fmt.f32.decode v.toNat).sign) = decide (v = 0x80000000) := by
  have hv : (v = 0x80000000) ↔ v.toNat = 2 ^ 31 := by rw [← BitVec.toNat_inj]; rfl
  have hlt := v.isLt
  rw [Bool.eq_iff_iff, decide_eq_true_iff, hv]
  simp only [Fmt.decode, Fmt.f32, nbits, nbit, Nat.shiftRight_eq_div_pow]
  split_ifs
  all_goals simp [FVal.isZero, FVal.sign]
  all_goals omega

variable (x : Ctx) (a : BitVec 7)

/-- The values that WRED.fadd sums: minus zero for a lane outside the set. -/
def faddVals (x : Ctx) (a : BitVec 7) : List FVal :=
  (x.laneVals a 0x80000000).map fun v => Fmt.f32.decode v.toNat

theorem wredEval_fadd : wredEval .faddF32 x a =
    if .inf false ∈ faddVals x a ∧ .inf true ∈ faddVals x a then (Fmt.f32.canon, .invalid)
    else finish .f32 .rn (sumVals (faddVals x a) .rn) := by
  simp [wredEval, faddVals]

theorem decode_negZero : Fmt.f32.decode (0x80000000 : Word).toNat = .fin true 0 (-149) := rfl

theorem withSign_f32_true : Fmt.f32.withSign true 0 = 0x80000000 := by
  norm_num [Fmt.withSign, Fmt.signBit, Fmt.f32]

theorem mem_faddVals_of_mem {l : Nat} (h : l ∈ x.ls) : Fmt.f32.decode (x.v a.toNat l).toNat ∈ faddVals x a :=
  List.mem_map.mpr ⟨_, mem_laneVals_of_mem x a _ h, rfl⟩

theorem of_mem_faddVals {v : FVal} (h : v ∈ faddVals x a) :
    (∃ l ∈ x.ls, Fmt.f32.decode (x.v a.toNat l).toNat = v) ∨ v = .fin true 0 (-149) := by
  obtain ⟨w, hw, rfl⟩ := List.mem_map.mp h
  obtain ⟨l, hl, rfl⟩ | rfl := of_mem_laneVals x a _ hw
  · exact .inl ⟨l, hl, rfl⟩
  · exact .inr decode_negZero

theorem mem_faddVals_iff {v : FVal} (hv : v.special = true) :
    v ∈ faddVals x a ↔ ∃ l ∈ x.ls, Fmt.f32.decode (x.v a.toNat l).toNat = v := by
  refine ⟨fun h => ?_, fun ⟨l, hl, h⟩ => h ▸ mem_faddVals_of_mem x a hl⟩
  obtain hl | rfl := of_mem_faddVals x a h
  · exact hl
  · cases hv

theorem faddVals_finite (h : ∀ l ∈ x.ls, isFinite (Fmt.f32.decode (x.v a.toNat l).toNat)) :
    ∀ v ∈ faddVals x a, isFinite v := by
  intro v hv
  obtain ⟨l, hl, rfl⟩ | rfl := of_mem_faddVals x a hv
  · exact h l hl
  · rfl

theorem sum_faddVals : ((faddVals x a).map ratOf).sum =
    (x.ls.map fun l => ratOf (Fmt.f32.decode (x.v a.toNat l).toNat)).sum := by
  rw [faddVals, List.map_map]
  refine sum_laneVals x a _ ?_
  rw [Function.comp_apply, decode_negZero]
  simp [ratOf]

theorem zeroSign_faddVals : zeroSign (faddVals x a) .rn = decide (∀ l ∈ x.ls, x.v a.toNat l = 0x80000000) := by
  have hall : ((faddVals x a).all fun v => v.isZero && v.sign) = decide (∀ l ∈ x.ls, x.v a.toNat l = 0x80000000) := by
    rw [Bool.eq_iff_iff, decide_eq_true_iff, List.all_eq_true]
    constructor
    · exact fun h l hl => by
        simpa only [isZero_and_sign_iff, decide_eq_true_iff] using h _ (mem_faddVals_of_mem x a hl)
    · intro h v hv
      obtain ⟨l, hl, rfl⟩ | rfl := of_mem_faddVals x a hv
      · rw [isZero_and_sign_iff, decide_eq_true_iff]
        exact h l hl
      · rfl
  rw [zeroSign, hall]
  split
  case isTrue h => exact h.symm
  case isFalse h => rw [Bool.eq_false_iff.mpr h, show (RM.rn == RM.rm) = false from rfl, ite_self]

end FloatSum

/-! ### The forms, one by one -/

section Values

variable (x : Ctx) (a : BitVec 7)

theorem wredEval_minS32 : wredEval .minS32 x a =
    (wrap (foldInt (pick false) ((x.laneVals a (worst false true)).map (laneRead true))) 32, .none) := rfl

theorem wredEval_minZ32 : wredEval .minZ32 x a =
    (wrap (foldInt (pick false) ((x.laneVals a (worst false false)).map (laneRead false))) 32, .none) := rfl

theorem wredEval_maxS32 : wredEval .maxS32 x a =
    (wrap (foldInt (pick true) ((x.laneVals a (worst true true)).map (laneRead true))) 32, .none) := rfl

theorem wredEval_maxZ32 : wredEval .maxZ32 x a =
    (wrap (foldInt (pick true) ((x.laneVals a (worst true false)).map (laneRead false))) 32, .none) := rfl

theorem wredEval_addB32 : wredEval .addB32 x a = (wrap ((x.laneVals a 0).map (·.toInt)).sum 32, .none) := by
  rw [← foldInt_add_eq_sum]
  rfl

theorem wredEval_addS32sat : wredEval .addS32sat x a =
    (wrap (clamp .s32 ((x.laneVals a 0).map (·.toInt)).sum) 32, .none) := by
  rw [← foldInt_add_eq_sum, ← sat_eq_clamp]
  rfl

theorem wredEval_addZ32sat : wredEval .addZ32sat x a =
    (wrap (clamp .z32 ((x.laneVals a 0).map fun v => (v.toNat : Int)).sum) 32, .none) := by
  rw [← foldInt_add_eq_sum, ← sat_eq_clamp]
  rfl

theorem wredEval_andB32 : wredEval .andB32 x a =
    ((x.ls.foldl (fun m l => m &&& x.v a.toNat l) (BitVec.allOnes 32)).toNat, .none) := by
  rw [← foldl_laneVals x a (op := fun m v => m &&& v) _ fun m => BitVec.and_allOnes]
  rfl

theorem wredEval_orB32 : wredEval .orB32 x a = ((x.ls.foldl (fun m l => m ||| x.v a.toNat l) 0).toNat, .none) := by
  rw [← foldl_laneVals x a (op := fun m v => m ||| v) _ fun m => BitVec.or_zero]
  rfl

theorem wredEval_xorB32 : wredEval .xorB32 x a = ((x.ls.foldl (fun m l => m ^^^ x.v a.toNat l) 0).toNat, .none) := by
  rw [← foldl_laneVals x a (op := fun m v => m ^^^ v) _ fun m => BitVec.xor_zero]
  rfl

theorem wredEval_fminF32 : wredEval .fminF32 x a =
    ((x.ls.map fun l => (x.v a.toNat l).toNat).foldl (fpMnx .f32 .min) Fmt.f32.canon, .none) := rfl

theorem wredEval_fmaxF32 : wredEval .fmaxF32 x a =
    ((x.ls.map fun l => (x.v a.toNat l).toNat).foldl (fpMnx .f32 .max) Fmt.f32.canon, .none) := rfl

/-- The floating-point sum of finite values (R110). -/
theorem wredEval_fadd_of_finite (h : ∀ l ∈ x.ls, isFinite (Fmt.f32.decode (x.v a.toNat l).toNat)) :
    ((x.ls.map fun l => ratOf (Fmt.f32.decode (x.v a.toNat l).toNat)).sum ≠ 0 → ∃ neg m e,
      ratOf (.fin neg m e) = (x.ls.map fun l => ratOf (Fmt.f32.decode (x.v a.toNat l).toNat)).sum ∧
      wredEval .faddF32 x a = Fmt.f32.encode .rn (.fin neg m e)) ∧
    ((x.ls.map fun l => ratOf (Fmt.f32.decode (x.v a.toNat l).toNat)).sum = 0 → wredEval .faddF32 x a =
      (if ∀ l ∈ x.ls, x.v a.toNat l = 0x80000000 then 0x80000000 else 0, .none)) := by
  have hfin := faddVals_finite x a h
  have heval : wredEval .faddF32 x a = finish .f32 .rn (sumVals (faddVals x a) .rn) := by
    rw [wredEval_fadd, if_neg fun hm => special_of_mem hfin rfl hm.1]
  rw [← sum_faddVals, heval]
  refine ⟨fun hq => ?_, fun hq => ?_⟩
  · obtain ⟨neg, m, e, hr, hv⟩ := sumVals_of_ne_zero .rn hfin hq
    exact ⟨neg, m, e, hr, by rw [hv, finish_valid]⟩
  · rw [sumVals_of_zero .rn hfin hq, finish_zero, zeroSign_faddVals]
    split
    case isTrue h => rw [decide_eq_true h, withSign_f32_true]
    case isFalse h => rw [decide_eq_false h]; rfl

/-- The floating-point sum where a lane holds a NaN or an infinity (R110). -/
theorem wredEval_fadd_of_special :
    ((∃ l ∈ x.ls, Fmt.f32.decode (x.v a.toNat l).toNat = .inf false) →
      (∃ l ∈ x.ls, Fmt.f32.decode (x.v a.toNat l).toNat = .inf true) →
      wredEval .faddF32 x a = (Fmt.f32.canon, .invalid)) ∧
    ((∃ l ∈ x.ls, Fmt.f32.decode (x.v a.toNat l).toNat = .nan) →
      ((∀ l ∈ x.ls, Fmt.f32.decode (x.v a.toNat l).toNat ≠ .inf false) ∨
        ∀ l ∈ x.ls, Fmt.f32.decode (x.v a.toNat l).toNat ≠ .inf true) →
      wredEval .faddF32 x a = (Fmt.f32.canon, .none)) ∧
    (∀ s, (∃ l ∈ x.ls, Fmt.f32.decode (x.v a.toNat l).toNat = .inf s) →
      (∀ l ∈ x.ls, Fmt.f32.decode (x.v a.toNat l).toNat ≠ .nan ∧ Fmt.f32.decode (x.v a.toNat l).toNat ≠ .inf (!s)) →
      wredEval .faddF32 x a = (Fmt.f32.withSign s Fmt.f32.infBits, .none)) := by
  rw [wredEval_fadd]
  simp only [← mem_faddVals_iff x a (rfl : FVal.nan.special = true),
    ← mem_faddVals_iff x a (rfl : (FVal.inf _).special = true)]
  have hno {v : FVal} (hv : v.special = true) (h : ∀ l ∈ x.ls, Fmt.f32.decode (x.v a.toNat l).toNat ≠ v) :
      v ∉ faddVals x a := fun hm => by
    obtain ⟨l, hl, hlv⟩ := (mem_faddVals_iff x a hv).mp hm
    exact h l hl hlv
  refine ⟨fun hp hm => if_pos ⟨hp, hm⟩, fun hn ho => ?_, fun s hs ho => ?_⟩
  · rw [if_neg fun h => ho.elim (fun hp => hno rfl hp h.1) fun hm => hno rfl hm h.2, sumVals_of_nan _ hn, finish_nan]
  · have hopp := hno (v := .inf (!s)) rfl fun l hl => (ho l hl).2
    rw [if_neg, sumVals_of_inf _ (hno rfl fun l hl => (ho l hl).1) hs hopp, finish_valid]
    · rfl
    · cases s with
      | false => exact fun h => hopp h.2
      | true => exact fun h => hopp h.1

end Values

/-- Settles O9: sums through `sum_laneVals`, extremes through `wred_extreme` and `wred_extreme_index`, bitwise forms
through `foldl_laneVals`, and the floating-point sum through the values of `faddVals`. -/
theorem reductions : Obligations.Reductions := by
  refine ⟨fun d a b => ?_, fun d a b => ?_, fun d a b => ?_, fun op d a b hop s x hr => ?_,
    fun op d a b hop s x hr => ?_, fun d a b => ?_, fun d a b => ?_, fun d a b => ?_, fun d a b => ?_,
    fun x a => ⟨wredEval_fadd_of_finite x a, wredEval_fadd_of_special x a⟩, fun d a b => ?_, fun d a b => ?_⟩
  case refine_4 =>
    obtain rfl | rfl | rfl | rfl := hop
    · exact wred_extreme false true (fun s => by dsimp only [exec]; rfl) (wredEval_minS32 · a) hr
    · obtain ⟨r, hmem, hle, hex⟩ := wred_extreme false false (fun s => by dsimp only [exec]; rfl) (wredEval_minZ32 · a) hr
      exact ⟨r, hmem, fun l hl => Int.ofNat_le.mp (hle l hl), hex⟩
    · exact wred_extreme true true (fun s => by dsimp only [exec]; rfl) (wredEval_maxS32 · a) hr
    · obtain ⟨r, hmem, hle, hex⟩ := wred_extreme true false (fun s => by dsimp only [exec]; rfl) (wredEval_maxZ32 · a) hr
      exact ⟨r, hmem, fun l hl => Int.ofNat_le.mp (hle l hl), hex⟩
  case refine_5 =>
    obtain rfl | rfl | rfl | rfl := hop
    · exact wred_extreme_index false true (fun s => by dsimp only [exec]; rfl) hr
    · obtain ⟨r, k, hmem, hle, hex⟩ := wred_extreme_index false false (fun s => by dsimp only [exec]; rfl) hr
      exact ⟨r, k, hmem, fun l hl => ⟨Int.ofNat_le.mp (hle l hl).1, (hle l hl).2⟩, hex⟩
    · exact wred_extreme_index true true (fun s => by dsimp only [exec]; rfl) hr
    · obtain ⟨r, k, hmem, hle, hex⟩ := wred_extreme_index true false (fun s => by dsimp only [exec]; rfl) hr
      exact ⟨r, k, hmem, fun l hl => ⟨Int.ofNat_le.mp (hle l hl).1, (hle l hl).2⟩, hex⟩
  all_goals refine does_of_eq (fun s => by dsimp only [exec]; rfl) fun x => ?_
  case refine_9 => rfl
  · refine wredOne_of_word (wredEval_addB32 x a) ?_
    rw [ofNat_wrap, sum_laneVals x a 0 rfl, ← ofInt_sum, List.map_map]
    rfl
  · refine wredOne_of_word (wredEval_addS32sat x a) ?_
    rw [ofNat_wrap, sum_laneVals x a 0 rfl]
  · refine wredOne_of_word (wredEval_addZ32sat x a) ?_
    rw [ofNat_wrap, sum_laneVals x a 0 rfl]
  · exact wredOne_of_word (wredEval_andB32 x a) ((BitVec.ofNat_toNat ..).trans (BitVec.setWidth_eq _))
  · exact wredOne_of_word (wredEval_orB32 x a) ((BitVec.ofNat_toNat ..).trans (BitVec.setWidth_eq _))
  · exact wredOne_of_word (wredEval_xorB32 x a) ((BitVec.ofNat_toNat ..).trans (BitVec.setWidth_eq _))
  · exact wredOne_of_word (wredEval_fminF32 x a) rfl
  · exact wredOne_of_word (wredEval_fmaxF32 x a) rfl

end Sys2Proof.Laws
end

section
/-! SUPPORT. Fields of a descriptor replaced, and what a use of a handle reads (R30, R142, R161, R162, R181). -/

namespace Sys2Proof.Laws

open Sys2Proof.Machine

/-! ### Fields of a descriptor (R30, R142) -/

section Descriptors

variable (d : Desc)

/-- Writing the extents leaves the layout. -/
theorem layout_setField_extents (v : Nat) : Dsc.layout (BitVec.ofNat 128 (setField d.toNat 87 64 v)) = Dsc.layout d := by
  have := d.isLt
  simp only [Dsc.layout, fld, nbits, setField, Nat.shiftRight_eq_div_pow, BitVec.toNat_ofNat]
  omega

/-- A field of a word's upper bits is zero exactly where the word lies below it. -/
theorem nbits_31_24_eq_zero_iff (v : Word) : nbits v.toNat 31 24 = 0 ↔ v.toNat < 2 ^ 24 :=
  fld_top_eq_zero v (by decide)

/-- Moving a descriptor writes its base, wrapped, and nothing else. -/
theorem fld_advDesc (k : Int) : fld (advDesc d k) 51 0 = wrap (fld d 51 0 + k * fld d 111 88) 52 ∧
    fld (advDesc d k) 127 52 = fld d 127 52 := by
  have hw : wrap (Dsc.base d + k * Dsc.stride d) 52 < 2 ^ 52 := by
    rw [wrap_eq_toNat_ofInt]
    exact BitVec.isLt _
  have := d.isLt
  change fld (advDesc d k) 51 0 = wrap (Dsc.base d + k * Dsc.stride d) 52 ∧ _
  rw [advDesc]
  generalize wrap (Dsc.base d + k * Dsc.stride d) 52 = base at hw ⊢
  simp only [fld, nbits, setField, Nat.shiftRight_eq_div_pow, BitVec.toNat_ofNat]
  omega

end Descriptors

/-! ### Tile registers (R30) -/

section Tiles

variable (x : Ctx) (t : BitVec 5) {d : Desc}

theorem setTile_of_ok (h : Dsc.ok d = true) : x.setTile t d = x.doneW x.s fun w => w.setT t.toNat d := if_pos h

theorem setTile_of_bad (h : Dsc.ok d = false) : x.setTile t d = x.raise Cause.illop :=
  if_neg (Bool.eq_false_iff.mp h)

theorem dimCheck_of_layout (h : Dsc.layout d ≠ 2) : x.dimCheck d = none := if_pos h

theorem dimCheck_of_bad {c : Nat} (h : Dsc.layout d = 2) (hc : x.s.planeCheck x.g d = .bad c) :
    x.dimCheck d = some c := by
  rw [Ctx.dimCheck, if_neg (not_not.mpr h), hc]

end Tiles

/-! ### Handles (R161, R162, R181) -/

section Handles

theorem andThen_eq_ok {α β : Type} {p : Res α} {f : α → Res β} {b : β} (h : p.andThen f = .ok b) :
    ∃ a, p = .ok a ∧ f a = .ok b := by
  cases p with
  | ok a => exact ⟨a, rfl, h⟩
  | bad c => cases h
  | wait => cases h

variable {x : Ctx}

/-- A handle whose record is there has had its header and its record read. -/
theorem shapeTouch_of_record {h r : Nat} (hs : x.shape h = .ok (some r)) : x.shapeTouch h = { x with
    s := (x.s.touchSpan x.space x.die x.g.htab 64).touchSpan x.space x.die
      (x.g.htab + 64 + 64 * (h / 2 ^ 12 % 2 ^ 20)) 64 } := by
  obtain ⟨hd, hload, hrest⟩ := andThen_eq_ok hs
  have htakes : headerTakes (leNat hd) h = true := by
    by_contra hn
    rw [Bool.not_eq_true] at hn
    simp [hn] at hrest
  rw [Ctx.shapeTouch, hload]
  simp only [htakes, if_true, Ctx.shapeAddr, nbits, Nat.shiftRight_eq_div_pow]

/-- Reading a span that lies in no edge-ordered memory leaves no copy. -/
theorem touchSpan_of_home {s : State} {sp : Space} (h : ∀ k e, s.translate sp .load k = .ok e → isEdge e.key = false)
    (die va n : Nat) : s.touchSpan sp die va n = s := by
  rw [State.touchSpan]
  induction upto (va / 128) ((va + n - 1) / 128 - va / 128 + 1) with
  | nil => rfl
  | cons l r ih =>
    rw [List.foldl_cons]
    split
    case h_1 e he => rw [State.touch, h _ _ he]; exact ih
    all_goals exact ih

theorem shapeTouch_of_home (h : ∀ k e, x.s.translate x.space .load k = .ok e → isEdge e.key = false) (n : Nat) :
    x.shapeTouch n = x := by
  rw [Ctx.shapeTouch]
  split
  case h_1 => simp only [touchSpan_of_home h, ite_self]
  all_goals rfl

end Handles

/-! ### The words -/

theorem lo64_setWidth (v : Word) : lo64 (v.setWidth 64) = v := by
  refine BitVec.eq_of_getLsbD_eq fun i hi => ?_
  simp [lo64, hi]
  omega

theorem bne_eq_decide_ne (v w : Word) : (v != w) = decide (v ≠ w) := by
  rw [Bool.eq_iff_iff]
  simp

/-- Settles O10: XMOV kind by kind, and each TILE word through `setTile`. -/
theorem movesAndTileRegisters : Obligations.MovesAndTileRegisters := by
  refine ⟨⟨fun d a => ?_, fun d a => ?_, fun d a => ?vs, fun d a => ?_, fun d a => ?_, fun d a => ?_, fun d a => ?ss,
    fun d a => ?_, fun w d a => ?_, fun w d a => ?vp, fun w d a => ?_, fun w d a => ?_, fun w d a => ?st,
    fun w d a => ?stBad,
    fun w d a => ?_⟩,
    fun t a p d => ?plane16, fun t a p d => ?plane8, fun t a p => ?noPlane, fun t a r => ?handle, fun t a => ?noHandle,
    fun x h hx => shapeTouch_of_home hx h, fun t a => ?dim, fun t a => ?dimLarge, fun t a c => ?dimBad, fun t a => ?adv,
    fun t a => ?advBad, fun x t d => setTile_of_ok x t, fun x t d => setTile_of_bad x t, fun d k => fld_advDesc d k⟩
  case vs =>
    refine does_of_eq (fun s => by dsimp only [exec]; rfl) fun x => ?_
    simp only [Bool.false_eq_true, if_false, lo64_setWidth]
  case ss =>
    refine does_of_eq (fun s => by dsimp only [exec]; rfl) fun x => ?_
    simp only [Bool.false_eq_true, if_false, lo64_setWidth]
  case vp =>
    refine does_of_eq (fun s => by dsimp only [exec]; rfl) fun x => ?_
    simp only [bne_eq_decide_ne]
  case st => exact doesWhen_of_eq (fun s => by dsimp only [exec]; rfl) fun x hx => if_pos hx
  case stBad => exact doesWhen_of_eq (fun s => by dsimp only [exec]; rfl) fun x hx => if_neg (Bool.eq_false_iff.mp hx)
  case plane16 =>
    refine doesWhen_of_eq (fun s => by dsimp only [exec]; rfl) fun x ⟨hd, hp, hf, hu⟩ => ?_
    simp only [hd, hf, not_le.mpr hp, not_le.mpr hu, if_true, or_false, show ¬ 1 < 0 by decide, if_false]
  case plane8 =>
    refine doesWhen_of_eq (fun s => by dsimp only [exec]; rfl) fun x ⟨hd, hp, hf, hu⟩ => ?_
    simp only [hd, hf, not_le.mpr hp, not_le.mpr hu, one_ne_zero, or_false, lt_irrefl, if_false]
  case noPlane =>
    refine doesWhen_of_eq (fun s => by dsimp only [exec]; rfl) fun x hd => ?_
    simp only [hd]
  case handle =>
    refine doesWhen_of_eq (fun s => by dsimp only [exec]; rfl) fun x hs => ?_
    simp only [hs, shapeTouch_of_record hs]
  case noHandle =>
    refine doesWhen_of_eq (fun s => by dsimp only [exec]; rfl) fun x hs => ?_
    simp only [hs]
  case dim =>
    refine doesWhen_of_eq (fun s => by dsimp only [exec]; rfl) fun x ⟨hl, hv⟩ => ?_
    have hc := dimCheck_of_layout x ((layout_setField_extents _ (x.u a.toNat).toNat).trans_ne hl)
    simp only [(nbits_31_24_eq_zero_iff _).mpr hv, hc, ne_eq, not_true_eq_false, if_false]
  case dimLarge =>
    refine doesWhen_of_eq (fun s => by dsimp only [exec]; rfl) fun x hv => ?_
    exact if_pos fun h0 => not_lt.mpr hv ((nbits_31_24_eq_zero_iff _).mp h0)
  case dimBad =>
    refine doesWhen_of_eq (fun s => by dsimp only [exec]; rfl) fun x ⟨hl, hv, hb⟩ => ?_
    have hc := dimCheck_of_bad x ((layout_setField_extents _ (x.u a.toNat).toNat).trans hl) hb
    simp only [(nbits_31_24_eq_zero_iff _).mpr hv, hc, ne_eq, not_true_eq_false, if_false]
  case adv => exact doesWhen_of_eq (fun s => by dsimp only [exec]; rfl) fun x hl => if_neg hl
  case advBad => exact doesWhen_of_eq (fun s => by dsimp only [exec]; rfl) fun x hl => if_pos hl
  all_goals
    refine does_of_eq (fun s => by dsimp only [exec]; rfl) fun x => ?_
    rfl

end Sys2Proof.Laws
end

section
/-! SUPPORT. Encoding what was decoded: every number and infinity of a format is its own rounding (R61, R62, R64). -/

namespace Sys2Proof.Laws

open Sys2Proof.Machine

/-! ### Roundings that change nothing (R55) -/

theorem roundAt_self (md : RM) (neg : Bool) (m : Nat) (e : Int) : roundAt md neg m e e = (m, false) := by
  simp [roundAt]

/-- A magnitude whose last place is its unit is kept. -/
theorem roundFin_of_unit (f : Fmt) (md : RM) (neg : Bool) {m : Nat} {e : Int} (sat : Bool)
    (hq : max ((Nat.log2 m : Int) + e - f.w) (1 - (f.bias : Int) - f.w) = e)
    (hm : (e + f.w + f.bias - 1).toNat * 2 ^ f.w + m ≤ f.maxFin) :
    f.roundFin md neg m e sat = (f.withSign neg ((e + f.w + f.bias - 1).toNat * 2 ^ f.w + m), .none) := by
  simp only [Fmt.roundFin, hq, roundAt_self, not_lt.mpr hm, if_false, Bool.and_false]
  rfl

/-! ### The fields of an element (R61) -/

section Element

variable (f : Fmt) {n : Bool} {E F : Nat}

/-- The element of a sign, an exponent and a fraction. -/
def joinBits (n : Bool) (E F : Nat) : Nat := f.withSign n (E * 2 ^ f.w + F)

theorem exists_joinBits {v : Nat} (h : v < 2 ^ f.size) :
    ∃ n E F, E < 2 ^ f.eb ∧ F < 2 ^ f.w ∧ v = joinBits f n E F := by
  have hlow : v % 2 ^ (f.eb + f.w) < 2 ^ f.eb * 2 ^ f.w := by rw [← pow_add]; exact Nat.mod_lt _ (Nat.two_pow_pos _)
  have htop : v / 2 ^ (f.eb + f.w) < 2 := by
    rw [Nat.div_lt_iff_lt_mul (Nat.two_pow_pos _), ← pow_succ', show f.eb + f.w + 1 = f.size by rw [Fmt.size]; omega]
    exact h
  refine ⟨decide (v / 2 ^ (f.eb + f.w) = 1), v % 2 ^ (f.eb + f.w) / 2 ^ f.w, v % 2 ^ (f.eb + f.w) % 2 ^ f.w,
    Nat.div_lt_of_lt_mul (by rwa [mul_comm] at hlow), Nat.mod_lt _ (Nat.two_pow_pos _), ?_⟩
  rw [joinBits, mul_comm, Nat.div_add_mod, Fmt.withSign, Fmt.signBit]
  have hdiv := Nat.div_add_mod v (2 ^ (f.eb + f.w))
  rcases Nat.le_one_iff_eq_zero_or_eq_one.mp (Nat.le_of_lt_succ htop) with h0 | h1
  · rw [h0, mul_zero, zero_add] at hdiv
    simpa [h0] using hdiv.symm
  · rw [h1, mul_one] at hdiv
    simpa [h1] using hdiv.symm

theorem magnitude_lt_of_lt (hF : F < 2 ^ f.w) {k : Nat} (h : E < k) : E * 2 ^ f.w + F < k * 2 ^ f.w := by
  calc E * 2 ^ f.w + F < E * 2 ^ f.w + 2 ^ f.w := by omega
    _ = (E + 1) * 2 ^ f.w := by ring
    _ ≤ k * 2 ^ f.w := Nat.mul_le_mul_right _ h

theorem magnitude_lt (hE : E < 2 ^ f.eb) (hF : F < 2 ^ f.w) : E * 2 ^ f.w + F < f.signBit := by
  rw [Fmt.signBit, pow_add]
  exact magnitude_lt_of_lt f hF hE

/-- The value of an element by its fields (R62). -/
theorem decode_joinBits (heb : 0 < f.eb) (hE : E < 2 ^ f.eb) (hF : F < 2 ^ f.w) : f.decode (joinBits f n E F) =
    if E = 0 then .fin n F (1 - (f.bias : Int) - f.w)
    else if E = f.emax && f.noInf && F = 2 ^ f.w - 1 then .nan
    else if E = f.emax && !f.noInf then (if F = 0 then .inf n else .nan)
    else .fin n (2 ^ f.w + F) ((E : Int) - f.bias - f.w) := by
  have hmag := magnitude_lt f hE hF
  have hsign : nbit (joinBits f n E F) (f.eb + f.w) = n := by
    rw [nbit, Nat.shiftRight_eq_div_pow, joinBits, Fmt.withSign]
    change (_ / f.signBit % 2 == 1) = n
    have hs : 0 < f.signBit := Nat.two_pow_pos _
    cases n
    · simp [Nat.div_eq_of_lt hmag]
    · simp [Nat.add_div_left _ hs, Nat.div_eq_of_lt hmag]
  have hsplit : joinBits f n E F = 2 ^ f.w * ((if n then 2 ^ f.eb else 0) + E) + F := by
    rw [joinBits, Fmt.withSign, Fmt.signBit, pow_add]
    cases n
    · simp [mul_comm]
    · simp only [if_true]; ring
  have hexp : nbits (joinBits f n E F) (f.eb + f.w - 1) f.w = E := by
    rw [nbits, Nat.shiftRight_eq_div_pow, hsplit, show f.eb + f.w - 1 + 1 - f.w = f.eb by omega,
      Nat.mul_add_div (Nat.two_pow_pos _), Nat.div_eq_of_lt hF, add_zero]
    cases n
    · simpa using Nat.mod_eq_of_lt hE
    · simpa using Nat.mod_eq_of_lt hE
  have hfrac : joinBits f n E F % 2 ^ f.w = F := by rw [hsplit, Nat.mul_add_mod, Nat.mod_eq_of_lt hF]
  rw [Fmt.decode, hsign, hexp, hfrac]

/-- The magnitude of a number is at most the largest one of its format. -/
theorem magnitude_le_maxFin (hE : E < 2 ^ f.eb) (hF : F < 2 ^ f.w)
    (hn : ¬ (E = f.emax ∧ f.noInf = true ∧ F = 2 ^ f.w - 1)) (hi : ¬ (E = f.emax ∧ f.noInf = false)) :
    E * 2 ^ f.w + F ≤ f.maxFin := by
  have hpow : 2 ^ (f.eb + f.w) = f.emax * 2 ^ f.w + 2 ^ f.w := by
    rw [Fmt.emax, pow_add, ← Nat.succ_mul, Nat.succ_eq_add_one, Nat.sub_add_cancel (Nat.two_pow_pos _)]
  have hle : E ≤ f.emax := Nat.le_sub_one_of_lt hE
  have hw : 0 < 2 ^ f.w := Nat.two_pow_pos _
  rcases Nat.lt_or_eq_of_le hle with hlt | heq
  · have := magnitude_lt_of_lt f hF hlt
    simp only [Fmt.maxFin, Fmt.canon, hpow]
    split <;> omega
  · have hinf : f.noInf = true := by
      by_contra h
      exact hi ⟨heq, Bool.eq_false_iff.mpr h⟩
    have hF' : F ≠ 2 ^ f.w - 1 := fun h => hn ⟨heq, hinf, h⟩
    simp only [Fmt.maxFin, Fmt.canon, hinf, if_true, hpow, heq]
    omega

theorem encode_subnormal (md : RM) (sat : Bool) (hF : F < 2 ^ f.w) (hle : F ≤ f.maxFin) :
    f.encode md (.fin n F (1 - (f.bias : Int) - f.w)) sat = (joinBits f n 0 F, .none) := by
  rw [Fmt.encode, joinBits, zero_mul, zero_add]
  split
  case isTrue h => rw [h]
  case isFalse h =>
    have hlog : F.log2 < f.w := (Nat.log2_lt h).mpr hF
    have hunit : (1 - (f.bias : Int) - f.w + f.w + f.bias - 1).toNat = 0 := by omega
    rw [roundFin_of_unit, hunit, zero_mul, zero_add]
    · omega
    · rw [hunit, zero_mul, zero_add]; exact hle

theorem encode_normal (md : RM) (sat : Bool) (hE : E ≠ 0) (hF : F < 2 ^ f.w) (hle : E * 2 ^ f.w + F ≤ f.maxFin) :
    f.encode md (.fin n (2 ^ f.w + F) ((E : Int) - f.bias - f.w)) sat = (joinBits f n E F, .none) := by
  obtain ⟨k, rfl⟩ := Nat.exists_eq_add_one_of_ne_zero hE
  have hpos : 2 ^ f.w + F ≠ 0 := (Nat.add_pos_left (Nat.two_pow_pos _) _).ne'
  have hlog : (2 ^ f.w + F).log2 = f.w :=
    (Nat.log2_eq_iff hpos).mpr ⟨Nat.le_add_right _ _, by rw [pow_succ]; omega⟩
  have hmag : (((k + 1 : Nat) : Int) - f.bias - f.w + f.w + f.bias - 1).toNat * 2 ^ f.w + (2 ^ f.w + F) =
      (k + 1) * 2 ^ f.w + F := by
    rw [show (((k + 1 : Nat) : Int) - f.bias - f.w + f.w + f.bias - 1).toNat = k by omega]
    ring
  rw [Fmt.encode, if_neg hpos, roundFin_of_unit, hmag, joinBits]
  · rw [hlog]; omega
  · rw [hmag]; exact hle

/-- Encoding an element's value, unless it is a NaN, gives the element back, without a flag. -/
theorem encode_decode (heb : 0 < f.eb) (md : RM) (sat : Bool) {v : Nat} (hv : v < 2 ^ f.size)
    (hn : f.decode v ≠ .nan) : f.encode md (f.decode v) sat = (v, .none) := by
  obtain ⟨n, E, F, hE, hF, rfl⟩ := exists_joinBits f hv
  have hle := magnitude_le_maxFin f hE hF
  have hmax : 0 < f.emax := Nat.sub_pos_of_lt (Nat.one_lt_two_pow heb.ne')
  rw [decode_joinBits f heb hE hF] at hn ⊢
  split_ifs at hn ⊢ with h0 hnan hinf hF0
  · subst h0
    rw [zero_mul, zero_add] at hle
    exact encode_subnormal f md sat hF (hle (fun h => hmax.ne h.1) fun h => hmax.ne h.1)
  · exact absurd rfl hn
  · simp only [Bool.and_eq_true, decide_eq_true_eq, Bool.not_eq_true'] at hinf
    rw [Fmt.encode, hinf.2, if_neg Bool.false_ne_true, hF0, hinf.1]
    rfl
  · exact absurd rfl hn
  · simp only [Bool.and_eq_true, decide_eq_true_eq, Bool.not_eq_true'] at hinf hnan
    exact encode_normal f md sat h0 hF (hle (fun h => hnan ⟨⟨h.1, h.2.1⟩, h.2.2⟩) hinf)

end Element

end Sys2Proof.Laws
end

section
/-! SUPPORT. Rounding to an integer, and integers in a register (R81, R82, R103). -/

namespace Sys2Proof.Laws

open Sys2Proof.Machine

/-! ### Rounding to an integer (R81) -/

/-- A number with the sign of a value. -/
def signed (neg : Bool) (t : Int) : Int := if neg then -t else t

theorem roundsTo_self (md : RM) (z : Int) : roundsTo md z z := by
  cases md with
  | rn => simp [roundsTo]
  | rz => simp [roundsTo]
  | rp => simp [roundsTo]
  | rm => simp [roundsTo]

/-- Whether the magnitude is rounded up, by its mode, its sign, its integral part and what is left of it (R55). -/
def roundsUp (md : RM) (neg : Bool) (t : Nat) (ρ : ℚ) : Prop :=
  match md with
  | .rn => 1 / 2 < ρ ∨ (ρ = 1 / 2 ∧ t % 2 = 1)
  | .rz => False
  | .rp => neg = false
  | .rm => neg = true

theorem floor_add {t : Int} {ρ : ℚ} (h0 : 0 < ρ) (h1 : ρ < 1) : ⌊(t : ℚ) + ρ⌋ = t ∧ ⌈(t : ℚ) + ρ⌉ = t + 1 := by
  constructor
  · rw [Int.floor_eq_iff]; constructor <;> linarith
  · rw [Int.ceil_eq_iff]; push_cast; constructor <;> linarith

theorem floor_neg_add {t : Int} {ρ : ℚ} (h0 : 0 < ρ) (h1 : ρ < 1) :
    ⌊-((t : ℚ) + ρ)⌋ = -(t + 1) ∧ ⌈-((t : ℚ) + ρ)⌉ = -t := by
  rw [Int.floor_neg, Int.ceil_neg, (floor_add h0 h1).1, (floor_add h0 h1).2]
  exact ⟨rfl, rfl⟩

/-- The magnitude chosen is the one that the mode rounds to. -/
theorem roundsTo_of_up {md : RM} {neg : Bool} {t u : Nat} {ρ q : ℚ} (h0 : 0 < ρ) (h1 : ρ < 1)
    (hq : q = (if neg then -1 else 1) * (t + ρ)) (hup : roundsUp md neg t ρ → u = t + 1)
    (hdown : ¬ roundsUp md neg t ρ → u = t) : roundsTo md q (signed neg u) := by
  have hpos : 0 < (t : ℚ) + ρ := by positivity
  obtain ⟨hfl, hce⟩ := floor_add (t := t) h0 h1
  obtain ⟨hnfl, hnce⟩ := floor_neg_add (t := t) h0 h1
  rw [Int.cast_natCast] at hfl hce hnfl hnce
  cases md with
  | rn =>
    have habs : |q - (signed neg u : Int)| = |(t : ℚ) + ρ - u| := by
      rw [hq]
      cases neg with
      | false => simp [signed]
      | true =>
        rw [← abs_neg]
        congr 1
        simp only [signed, if_true]
        push_cast
        ring
    have heven : 2 ∣ signed neg u ↔ u % 2 = 0 := by
      cases neg with
      | false => simp only [signed, Bool.false_eq_true, if_false]; omega
      | true => simp only [signed, if_true]; omega
    simp only [roundsTo, habs, heven]
    by_cases h : roundsUp .rn neg t ρ
    · rw [hup h, show (t : ℚ) + ρ - (t + 1 : Nat) = -(1 - ρ) by push_cast; ring, abs_neg, abs_of_pos (by linarith)]
      rcases h with hgt | ⟨heq, hodd⟩
      · exact ⟨by linarith, fun h => absurd h (by linarith)⟩
      · exact ⟨by linarith, fun _ => by omega⟩
    · rw [hdown h, add_sub_cancel_left, abs_of_pos h0]
      obtain ⟨hle, hodd⟩ := not_or.mp h
      exact ⟨not_lt.mp hle, fun heq => Nat.mod_two_ne_one.mp fun ho => hodd ⟨heq, ho⟩⟩
  | rz =>
    rw [hdown id, hq]
    cases neg with
    | false => 
      simp only [roundsTo, signed, Bool.false_eq_true, if_false, one_mul, not_lt.mpr hpos.le, hfl]
    | true => 
      simp only [roundsTo, signed, if_true, neg_one_mul, neg_lt_zero.mpr hpos, hnce]
  | rp =>
    cases neg with
    | false => 
      rw [hup rfl, hq]
      simp only [roundsTo, signed, Bool.false_eq_true, if_false, one_mul, hce]
      push_cast; rfl
    | true => 
      rw [hdown Bool.noConfusion, hq]
      simp only [roundsTo, signed, if_true, neg_one_mul, hnce]
  | rm =>
    cases neg with
    | false => 
      rw [hdown Bool.noConfusion, hq]
      simp only [roundsTo, signed, Bool.false_eq_true, if_false, one_mul, hfl]
    | true => 
      rw [hup rfl, hq]
      simp only [roundsTo, signed, if_true, neg_one_mul, hnfl]
      push_cast; rfl

/-- A number that no integer is. -/
theorem ne_signed_of_fraction {neg : Bool} {t : Nat} {ρ q : ℚ} (h0 : 0 < ρ) (h1 : ρ < 1)
    (hq : q = (if neg then -1 else 1) * (t + ρ)) (u : Nat) : ((signed neg u : Int) : ℚ) ≠ q := by
  intro h
  have hu : (u : ℚ) = t + ρ := by
    rw [hq] at h
    cases neg with
    | false => simpa [signed] using h
    | true => simpa [signed, -neg_add_rev] using h
  have hlt : t < u := by exact_mod_cast (by linarith : (t : ℚ) < u)
  have hgt : u < t + 1 := by exact_mod_cast (by linarith : (u : ℚ) < t + 1)
  omega

/-- R55: below the units, a magnitude is its integral part or the next integer, as the mode says of what is left. -/
theorem roundInt_of_fraction (md : RM) (neg : Bool) (m : Nat) {e : Int} (he : e < 0) : ∃ t r u : Nat,
    t * 2 ^ (-e).toNat + r = m ∧ r < 2 ^ (-e).toNat ∧ roundInt md neg m e = (u, decide (r ≠ 0)) ∧ (r = 0 → u = t) ∧
    (r ≠ 0 → (roundsUp md neg t (r / 2 ^ (-e).toNat) → u = t + 1) ∧
      (¬ roundsUp md neg t (r / 2 ^ (-e).toNat) → u = t)) := by
  rw [roundInt, roundAt, if_neg (not_le.mpr he), zero_sub]
  have hpos : 0 < (-e).toNat := by omega
  generalize (-e).toNat = sh at hpos ⊢
  have hdiv : m >>> sh * 2 ^ sh + (m - m >>> sh * 2 ^ sh) = m := by
    rw [Nat.shiftRight_eq_div_pow, ← Nat.mod_eq_sub_div_mul, mul_comm, Nat.div_add_mod]
  have hlt : m - m >>> sh * 2 ^ sh < 2 ^ sh := by
    rw [Nat.shiftRight_eq_div_pow, ← Nat.mod_eq_sub_div_mul]
    exact Nat.mod_lt _ (Nat.two_pow_pos _)
  dsimp only
  generalize m >>> sh = t at hdiv hlt ⊢
  generalize m - t * 2 ^ sh = r at hdiv hlt ⊢
  by_cases hr : r = 0
  · exact ⟨t, r, t, hdiv, hlt, by simp [hr], fun _ => rfl, fun h => absurd hr h⟩
  have hshift : 2 ^ sh = 2 * 2 ^ (sh - 1) := by rw [← pow_succ', Nat.sub_add_cancel hpos]
  have hp : (0 : ℚ) < 2 ^ sh := by positivity
  have hgt : 1 / 2 < (r : ℚ) / 2 ^ sh ↔ 2 ^ (sh - 1) < r := by
    rw [div_lt_div_iff₀ two_pos hp]
    norm_cast
    omega
  have heq : (r : ℚ) / 2 ^ sh = 1 / 2 ↔ r = 2 ^ (sh - 1) := by
    rw [div_eq_div_iff hp.ne' two_ne_zero]
    norm_cast
    omega
  rw [if_neg hr]
  refine ⟨t, r, _, hdiv, hlt, by rw [decide_eq_true hr], fun h => absurd h hr, fun _ => ?_⟩
  cases md with
  | rn =>
    have hiff : (decide (2 ^ (sh - 1) < r) || (r == 2 ^ (sh - 1) && t % 2 == 1)) = true ↔
        roundsUp .rn neg t (r / 2 ^ sh) := by
      rw [Bool.or_eq_true, Bool.and_eq_true, decide_eq_true_iff, beq_iff_eq, beq_iff_eq, ← hgt, ← heq]
      rfl
    exact ⟨fun h => if_pos (hiff.mpr h), fun h => if_neg (mt hiff.mp h)⟩
  | rz => exact ⟨False.elim, fun _ => rfl⟩
  | rp =>
    cases neg with
    | false => exact ⟨fun _ => rfl, fun h => absurd rfl h⟩
    | true => exact ⟨fun h => Bool.noConfusion h, fun _ => rfl⟩
  | rm => exact ⟨fun h => if_pos h, fun h => if_neg h⟩

/-- The integer that a finite number is rounded to, and whether it is another number. -/
theorem roundInt_spec (md : RM) (neg : Bool) (m : Nat) (e : Int) : ∃ u ix, roundInt md neg m e = (u, ix) ∧
    roundsTo md (ratOf (.fin neg m e)) (signed neg u) ∧
    (ix = false ↔ ((signed neg u : Int) : ℚ) = ratOf (.fin neg m e)) := by
  have hsigned (u : Nat) : ((signed neg u : Int) : ℚ) = (if neg then -1 else 1) * u := by cases neg <;> simp [signed]
  have hexact {u : Nat} (h : ((signed neg u : Int) : ℚ) = ratOf (.fin neg m e)) :
      roundsTo md (ratOf (.fin neg m e)) (signed neg u) := h ▸ roundsTo_self md _
  rcases le_or_gt 0 e with he | he
  · have hself : ((signed neg (m * 2 ^ (e - 0).toNat : Nat) : Int) : ℚ) = ratOf (.fin neg m e) := by
      have hz : (2 : ℚ) ^ (e - 0).toNat = (2 : ℚ) ^ e := by rw [← zpow_natCast, Int.toNat_of_nonneg (by omega), sub_zero]
      rw [hsigned, ratOf]
      push_cast
      rw [hz, mul_assoc]
    exact ⟨_, _, if_pos he, hexact hself, iff_of_true rfl hself⟩
  · obtain ⟨t, r, u, hm, hlt, hround, hzero, hpart⟩ := roundInt_of_fraction md neg m he
    have hp : (0 : ℚ) < 2 ^ (-e).toNat := by positivity
    have hq : ratOf (.fin neg m e) = (if neg then -1 else 1) * (t + r / 2 ^ (-e).toNat) := by
      have hz : (2 : ℚ) ^ e = (2 ^ (-e).toNat)⁻¹ := by
        rw [← zpow_natCast, ← zpow_neg, Int.toNat_of_nonneg (by omega), neg_neg]
      rw [ratOf, hz, ← hm]
      push_cast
      field_simp
    refine ⟨u, _, hround, ?_⟩
    by_cases hr : r = 0
    · have hself : ((signed neg u : Int) : ℚ) = ratOf (.fin neg m e) := by rw [hsigned, hq, hzero hr, hr]; simp
      exact ⟨hexact hself, iff_of_true (by simp [hr]) hself⟩
    · have h0 : (0 : ℚ) < r / 2 ^ (-e).toNat := div_pos (by exact_mod_cast Nat.pos_of_ne_zero hr) hp
      have h1 : (r : ℚ) / 2 ^ (-e).toNat < 1 := (div_lt_one hp).mpr (by exact_mod_cast hlt)
      exact ⟨roundsTo_of_up h0 h1 hq (hpart hr).1 (hpart hr).2,
        iff_of_false (by simp [hr]) (ne_signed_of_fraction h0 h1 hq u)⟩

end Sys2Proof.Laws
end

section
/-! SUPPORT. FCVT between numbers of every kind (R82, R102, R103). -/

namespace Sys2Proof.Laws

open Sys2Proof.Machine

/-! ### Integers in a register (R82) -/

section Held

variable {t : CvtType} {b : Int × Int}

/-- A type with bounds is no floating-point type, and its bounds are those of its width and sign. -/
theorem of_intBounds (h : intBounds t = some b) : cvtFmt t = none ∧
    b.1 = (if (cvtInt t).2 then -((2 ^ ((cvtInt t).1 - 1) : Nat) : Int) else 0) ∧
    b.2 = (if (cvtInt t).2 then ((2 ^ ((cvtInt t).1 - 1) : Nat) : Int) - 1 else (2 ^ (cvtInt t).1 : Nat) - 1) := by
  cases t <;> cases h <;> exact ⟨rfl, by norm_num [cvtInt], by norm_num [cvtInt]⟩

theorem sat_eq_max_min (h : intBounds t = some b) (x : Int) :
    (if (cvtInt t).2 then satS x (cvtInt t).1 else satZ x (cvtInt t).1) = max b.1 (min b.2 x) := by
  obtain ⟨-, hlo, hhi⟩ := of_intBounds h
  rw [hlo, hhi]
  split
  case isTrue => exact satS_eq_max_min x
  case isFalse => exact satZ_eq_max_min x

/-- A register reads as the number that it holds. -/
theorem readInt_of_held {v : Nat} {x : Int} (h : intBounds t = some b) (hx : intHeld b v x) : readInt t v = x := by
  obtain ⟨hlo, hhi, hdvd⟩ := hx
  cases t <;> cases h
  all_goals
    norm_num at hdvd
    norm_num [readInt, cvtInt, sx]
    omega

/-- A register holds the number of the type that an integer wraps to. -/
theorem writeIntBits_of_dvd {x z : Int} (h : intBounds t = some b) (hlo : b.1 ≤ z) (hhi : z ≤ b.2)
    (hd : (b.2 - b.1 + 1) ∣ (x - z)) : writeIntBits t x = intBits t z := by
  cases t <;> cases h
  all_goals
    norm_num at hd
    norm_num [writeIntBits, intBits, cvtInt, wrap, sx, CvtType.is64]
    omega

end Held

/-! ### Conversions (R103) -/

section Convert

variable {dst src : CvtType} (sat : Bool) (md : RM) (v : Nat) {f g : Fmt} {b c : Int × Int}

theorem cvtEval_floats (hs : cvtFmt src = some g) (hd : cvtFmt dst = some f) :
    cvtEval dst src sat md v = f.encode md (g.decode (v % 2 ^ g.size)) sat := by
  simp [cvtEval, hs, hd]

theorem exponent_bits_pos (h : cvtFmt src = some f) : 0 < f.eb := by
  cases src <;> cases h <;> decide

theorem cvtEval_of_int {x : Int} (hs : intBounds src = some b) (hd : cvtFmt dst = some f) (hx : intHeld b v x) :
    cvtEval dst src sat md v = f.encode md (.fin (decide (x < 0)) x.natAbs 0) sat := by
  simp only [cvtEval, (of_intBounds hs).1, hd, readInt_of_held hs hx]
  rfl

/-- Between integers: the number itself, or the nearest one of the type, wrapped. -/
theorem cvtEval_ints {x : Int} (hs : intBounds src = some b) (hd : intBounds dst = some c) (hx : intHeld b v x) :
    cvtEval dst src sat md v = (writeIntBits dst (if sat then max c.1 (min c.2 x) else x), .none) := by
  simp only [cvtEval, (of_intBounds hs).1, (of_intBounds hd).1, readInt_of_held hs hx, sat_eq_max_min hd]

theorem bounds_ordered (h : intBounds src = some b) : b.1 ≤ 0 ∧ 0 ≤ b.2 := by
  cases src <;> cases h <;> decide

theorem fpToInt_bounds (w : FVal) {lo hi : Int} (hlo : lo ≤ 0) (hhi : 0 ≤ hi) :
    lo ≤ (fpToInt md w lo hi).1 ∧ (fpToInt md w lo hi).1 ≤ hi := by
  cases w with
  | nan => exact ⟨hlo, hhi⟩
  | inf n => cases n <;> simp only [fpToInt, Bool.false_eq_true, if_true, if_false] <;> omega
  | fin n m e =>
    simp only [fpToInt]
    split_ifs <;> simp only <;> omega

/-- To an integer: the rounded number, or a bound, in the bits of the type. -/
theorem cvtEval_to_int (hs : cvtFmt src = some g) (hd : intBounds dst = some b) : cvtEval dst src sat md v =
    (intBits dst (fpToInt md (g.decode (v % 2 ^ g.size)) b.1 b.2).1,
      (fpToInt md (g.decode (v % 2 ^ g.size)) b.1 b.2).2) := by
  obtain ⟨hfmt, hlo, hhi⟩ := of_intBounds hd
  obtain ⟨h0, h1⟩ := bounds_ordered hd
  obtain ⟨hge, hle⟩ := fpToInt_bounds md (g.decode (v % 2 ^ g.size)) h0 h1
  have heval : cvtEval dst src sat md v = (writeIntBits dst (fpToInt md (g.decode (v % 2 ^ g.size)) b.1 b.2).1,
      (fpToInt md (g.decode (v % 2 ^ g.size)) b.1 b.2).2) := by
    simp only [cvtEval, hs, hfmt, ← hlo, ← hhi]
  rw [heval, writeIntBits_of_dvd hd hge hle (by rw [sub_self]; exact dvd_zero _)]

/-- A finite number: the integer it is rounded to, where the type holds it. -/
theorem fpToInt_of_finite {w : FVal} (hw : isFinite w) (lo hi : Int) : ∃ z : Int, roundsTo md (ratOf w) z ∧
    fpToInt md w lo hi = if z < lo then (lo, .invalid) else if hi < z then (hi, .invalid)
      else (z, if (z : ℚ) = ratOf w then .none else { nx := true }) := by
  cases w with
  | nan | inf => cases hw
  | fin neg m e =>
    obtain ⟨u, ix, hround, hto, hexact⟩ := roundInt_spec md neg m e
    refine ⟨signed neg u, hto, ?_⟩
    have hflags : ({ nx := ix } : Flags) =
        if ((signed neg u : Int) : ℚ) = ratOf (.fin neg m e) then .none else { nx := true } := by
      cases ix with
      | false => rw [if_pos (hexact.mp rfl)]; rfl
      | true => rw [if_neg fun h => Bool.noConfusion (hexact.mpr h)]
    simp only [fpToInt, hround, ← hflags]
    rfl

/-- A number, an infinity or a zero of a format is that in the same format. -/
theorem cvtEval_same (hf : cvtFmt src = some f) (hv : v < 2 ^ f.size) (hn : f.decode v ≠ .nan) :
    cvtEval src src sat md v = (v, .none) := by
  rw [cvtEval_floats sat md v hf hf, Nat.mod_eq_of_lt hv, encode_decode f (exponent_bits_pos hf) md sat hv hn]

theorem cvtEval_nan (hf : cvtFmt src = some f) (hn : f.decode (v % 2 ^ f.size) = .nan) :
    cvtEval src src sat md v = (f.canon, .none) := by
  rw [cvtEval_floats sat md v hf hf, hn, Fmt.encode]

section ToInt

variable (hs : cvtFmt src = some g) (hd : intBounds dst = some b)

include hs hd

theorem cvtEval_to_int_nan (hn : g.decode (v % 2 ^ g.size) = .nan) : cvtEval dst src sat md v = (0, .invalid) := by
  rw [cvtEval_to_int sat md v hs hd, hn]
  simp [fpToInt, intBits]

theorem cvtEval_to_int_inf {n : Bool} (hn : g.decode (v % 2 ^ g.size) = .inf n) :
    cvtEval dst src sat md v = (intBits dst (if n then b.1 else b.2), .invalid) := by
  rw [cvtEval_to_int sat md v hs hd, hn]
  rfl

theorem cvtEval_to_int_finite {q : ℚ} (hfin : isFinite (g.decode (v % 2 ^ g.size)))
    (hq : q = ratOf (g.decode (v % 2 ^ g.size))) : ∃ z : Int, roundsTo md q z ∧ cvtEval dst src sat md v =
      if z < b.1 then (intBits dst b.1, .invalid) else if b.2 < z then (intBits dst b.2, .invalid)
      else (intBits dst z, if (z : ℚ) = q then .none else { nx := true }) := by
  obtain ⟨z, hz, heval⟩ := fpToInt_of_finite md hfin b.1 b.2
  refine ⟨z, hq ▸ hz, ?_⟩
  rw [cvtEval_to_int sat md v hs hd, heval, hq]
  split_ifs <;> rfl

end ToInt

section Ints

variable {x : Int} (hs : intBounds src = some b) (hd : intBounds dst = some c) (hx : intHeld b v x)

include hs hd hx

theorem cvtEval_ints_saturated : cvtEval dst src true md v = (intBits dst (max c.1 (min c.2 x)), .none) := by
  obtain ⟨hlo, hhi⟩ := bounds_ordered hd
  rw [cvtEval_ints true md v hs hd hx, if_pos rfl,
    writeIntBits_of_dvd hd (z := max c.1 (min c.2 x)) (by omega) (by omega) (by rw [sub_self]; exact dvd_zero _)]

theorem cvtEval_ints_wrapped {z : Int} (hlo : c.1 ≤ z) (hhi : z ≤ c.2) (hdvd : (c.2 - c.1 + 1) ∣ (x - z)) :
    cvtEval dst src false md v = (intBits dst z, .none) := by
  rw [cvtEval_ints false md v hs hd hx, if_neg Bool.false_ne_true, writeIntBits_of_dvd hd hlo hhi hdvd]

end Ints

end Convert

end Sys2Proof.Laws
end

section
/-! SUPPORT. The exact quotients, roots, logarithms, powers and sines of SFU (R104). -/

namespace Sys2Proof.Laws

open Sys2Proof.Machine

/-! ### The root of a number -/

/-- The bits from b − 1 down complete a root that is below 2^b too small. -/
theorem isqrtBits_eq_sqrt (n b r : Nat) (hlo : r * r ≤ n) (hhi : n < (r + 2 ^ b) * (r + 2 ^ b)) :
    isqrtBits n b r = Nat.sqrt n := by
  induction b generalizing r with
  | zero => exact Nat.eq_sqrt.mpr ⟨hlo, hhi⟩
  | succ b ih =>
    rw [isqrtBits]
    split
    case isTrue h => exact ih _ h (by rwa [add_assoc, ← two_mul, ← pow_succ'])
    case isFalse h => exact ih _ hlo (not_le.mp h)

theorem isqrt_eq_sqrt (n : Nat) : isqrt n = Nat.sqrt n := by
  refine isqrtBits_eq_sqrt n _ 0 (by simp) ?_
  rw [zero_add, ← pow_add]
  exact Nat.lt_log2_self.trans_le (Nat.pow_le_pow_right (by decide) (by omega))

/-! ### Exact operands -/

/-- A value's exponent is at least that of the smallest subnormal. -/
theorem exponent_of_decode {f : Fmt} {a m : Nat} {n : Bool} {e : Int} (h : f.decode a = .fin n m e) :
    1 - (f.bias : Int) - f.w ≤ e := by
  simp only [Fmt.decode] at h
  split_ifs at h <;> cases h <;> omega

/-- An integer m 2^e scaled by a power of two that clears the exponent. -/
theorem natCast_eq_of_zpow {m : Nat} {e : Int} {i : Int} (h : (i : ℚ) = m * (2 : ℚ) ^ e) {s : Nat} (hs : 0 ≤ e + s) :
    ((m * 2 ^ (e + s).toNat : Nat) : Int) = i * 2 ^ s := by
  have hz : (2 : ℚ) ^ (e + s).toNat = (2 : ℚ) ^ e * 2 ^ s := by
    rw [← zpow_natCast, Int.toNat_of_nonneg hs, zpow_add₀ two_ne_zero, zpow_natCast]
  have : ((m * 2 ^ (e + s).toNat : Nat) : ℚ) = ((i * 2 ^ s : Int) : ℚ) := by
    push_cast
    rw [hz, h]
    ring
  exact_mod_cast this

/-- An integer operand in fixed point. -/
theorem fxOf_of_int {m : Nat} {e : Int} (he : -400 ≤ e) {i : Int} (h : (i : ℚ) = m * (2 : ℚ) ^ e) :
    (fxOf m e : Int) = i * fxOne := by
  rw [fxOf, fxBits, if_pos (by omega), natCast_eq_of_zpow h (by omega), fxOne, fxBits, Nat.cast_pow, Nat.cast_ofNat]

/-- A half-integer operand in fixed point. -/
theorem two_mul_fxOf_of_half {m : Nat} {e : Int} (he : -400 ≤ e) {i : Int}
    (h : (2 * i + 1 : ℚ) = 2 * (m * (2 : ℚ) ^ e)) : (2 * fxOf m e : Int) = (2 * i + 1) * fxOne := by
  have h2 : ((2 * i + 1 : Int) : ℚ) = (2 * m : Nat) * (2 : ℚ) ^ e := by push_cast; linarith
  have := fxOf_of_int he h2
  rw [← this, fxOf, fxOf, if_pos (by rw [fxBits]; omega), if_pos (by rw [fxBits]; omega)]
  push_cast
  ring

theorem encode_of_ne_zero (f : Fmt) (md : RM) (neg : Bool) {m : Nat} (hm : m ≠ 0) (e : Int) :
    f.encode md (.fin neg m e) = f.roundFin md neg m e := if_neg hm

/-! ### Sines and cosines of whole and half turns -/

theorem fxOne_eq : fxOne = 2 * (fxOne / 2) := by
  rw [fxOne, fxBits, Nat.mul_div_cancel' (dvd_pow_self 2 (by decide))]

theorem sinPi2_of_dvd {r : Nat} (h : fxOne ∣ r) : sinPi2 r = (decide (fxOne ≤ r), 0, true) := by
  simp only [sinPi2, Nat.mod_eq_zero_of_dvd h, Nat.zero_min, if_true]

theorem fxOne_dvd_mod {r : Nat} : fxOne ∣ r % (2 * fxOne) ↔ fxOne ∣ r := Nat.dvd_mod_iff (Dvd.intro_left 2 rfl)

section Turns

variable (f : Fmt) (neg : Bool) {m : Nat} {e : Int} (he : -400 ≤ e) {i : Int}

include he

/-- The sine of whole half-turns is a zero of the operand's sign. -/
theorem sfuSinPi_of_int (h : (i : ℚ) = m * (2 : ℚ) ^ e) : sfuSinPi f neg m e = (f.withSign neg 0, .none) := by
  have hdvd : fxOne ∣ fxOf m e := Int.natCast_dvd_natCast.mp (Dvd.intro_left i (fxOf_of_int he h).symm)
  rw [sfuSinPi, mod2, sinPi2_of_dvd (fxOne_dvd_mod.mpr hdvd)]
  exact ite_self _

/-- The cosine of an odd multiple of a half is +0. -/
theorem sfuCosPi_of_half (h : (2 * i + 1 : ℚ) = 2 * (m * (2 : ℚ) ^ e)) :
    sfuCosPi f m e = (f.withSign false 0, .none) := by
  have hx := two_mul_fxOf_of_half he h
  have hlt : ¬ 30 ≤ e := fun h30 => by
    have hz : (2 : ℚ) ^ e = 2 ^ e.toNat := by rw [← zpow_natCast, Int.toNat_of_nonneg (by omega)]
    rw [hz] at h
    have : 2 * i + 1 = 2 * (m * 2 ^ e.toNat : Nat) := by exact_mod_cast h
    omega
  have hdvd : fxOne ∣ fxOf m e + fxOne / 2 := by
    have hhalf := fxOne_eq
    refine Int.natCast_dvd_natCast.mp (Dvd.intro_left (i + 1) ?_)
    generalize fxOne / 2 = half at hhalf ⊢
    rw [hhalf] at hx ⊢
    push_cast at hx ⊢
    linarith
  have hdvd' : fxOne ∣ (mod2 m e + fxOne / 2) % (2 * fxOne) := by
    rw [mod2, Nat.mod_add_mod]
    exact fxOne_dvd_mod.mpr hdvd
  rw [sfuCosPi, if_neg hlt, sinPi2_of_dvd hdvd']
  rfl

/-- A power of two to an integer that is not beyond the format's range. -/
theorem sfuEx2_of_int {j : Nat} (h : ((j : Int) : ℚ) = m * (2 : ℚ) ^ e) (hm : m ≠ 0) (hj : j < 512) :
    sfuEx2 f neg m e = f.encode .rn (.fin false 1 (if neg then -j else j)) := by
  have hsmall : ¬ 10 ≤ e + (Nat.log2 m : Int) := fun h10 => by
    have hle : (2 : ℚ) ^ Nat.log2 m ≤ m := by exact_mod_cast Nat.log2_self_le hm
    have : (2 : ℚ) ^ (10 : Int) ≤ ((j : Int) : ℚ) := calc
      (2 : ℚ) ^ (10 : Int) ≤ (2 : ℚ) ^ (e + (Nat.log2 m : Int)) := zpow_le_zpow_right₀ one_le_two h10
      _ = 2 ^ Nat.log2 m * (2 : ℚ) ^ e := by rw [zpow_add₀ two_ne_zero, zpow_natCast, mul_comm]
      _ ≤ m * (2 : ℚ) ^ e := mul_le_mul_of_nonneg_right hle (by positivity)
      _ = _ := h.symm
    have hbig : 1024 ≤ j := by
      norm_num at this
      exact_mod_cast this
    omega
  have hpos : (fxOne : Int) ≠ 0 := by exact_mod_cast (Nat.two_pow_pos fxBits).ne'
  have hx : (if neg then -1 else 1) * (fxOf m e : Int) = (if neg then -(j : Int) else j) * fxOne := by
    rw [fxOf_of_int he h]
    cases neg <;> simp
  rw [sfuEx2, if_neg hsmall, encode_of_ne_zero _ _ _ one_ne_zero]
  simp only [hx, Int.mul_emod_left, Int.mul_ediv_cancel _ hpos, Int.toNat_zero, if_true]

end Turns

/-! ### Logarithms of powers of two -/

theorem sfuLg2_of_two_pow (f : Fmt) (k : Nat) (e : Int) :
    sfuLg2 f (2 ^ k) e = f.encode .rn (.fin (decide (e + k < 0)) (e + k).natAbs 0) := by
  simp only [sfuLg2, Nat.log2_two_pow, if_true]
  rfl

/-! ### Exact quotients and roots -/

/-- A divisor of a multiple by a power of two divides that by a power no less than itself. -/
theorem dvd_mul_two_pow {m d b k : Nat} (hd : d ≠ 0) (h : d ∣ m * 2 ^ b) (hk : Nat.log2 d ≤ k) : d ∣ m * 2 ^ k := by
  obtain ⟨t, o, hodd, rfl⟩ := Nat.exists_eq_two_pow_mul_odd hd
  have ho : o ∣ m :=
    (Nat.Coprime.pow_right b hodd.coprime_two_right).dvd_of_dvd_mul_right ((Dvd.intro_left _ rfl).trans h)
  have ht : t ≤ k := ((Nat.le_log2 hd).mpr (Nat.le_mul_of_pos_right _ hodd.pos)).trans hk
  rw [mul_comm]
  exact mul_dvd_mul ho (pow_dvd_pow 2 ht)

/-- The divisor of a dyadic quotient divides a multiple of the dividend by a power of two. -/
theorem exists_dvd_of_dyadic {m d q : Nat} {e k i : Int} (h : q * (2 : ℚ) ^ i * (d * (2 : ℚ) ^ k) = m * (2 : ℚ) ^ e) :
    ∃ b, d ∣ m * 2 ^ b := by
  obtain ⟨s, hs⟩ : ∃ s : Nat, s = (i + k).natAbs + e.natAbs := ⟨_, rfl⟩
  have hpow {j : Int} (hj : 0 ≤ j + s) : (2 : ℚ) ^ (j + s).toNat = 2 ^ j * 2 ^ s := by
    rw [← zpow_natCast, Int.toNat_of_nonneg hj, zpow_add₀ two_ne_zero, zpow_natCast]
  refine ⟨(e + s).toNat, Dvd.intro (q * 2 ^ (i + k + s).toNat) ?_⟩
  have : (d * (q * 2 ^ (i + k + s).toNat) : ℚ) = m * 2 ^ (e + s).toNat := by
    rw [hpow (by omega), hpow (by omega), ← mul_assoc _ ((2 : ℚ) ^ e), ← h, zpow_add₀ two_ne_zero]
    ring
  exact_mod_cast this

/-- A dyadic quotient is computed without a remainder. -/
theorem divRound_of_exact (f : Fmt) (neg : Bool) {m d q : Nat} {e k i : Int} (hm : m ≠ 0) (hd : d ≠ 0)
    (h : q * (2 : ℚ) ^ i * (d * (2 : ℚ) ^ k) = m * (2 : ℚ) ^ e) : ∃ c u, ratOf (.fin false c u) = q * (2 : ℚ) ^ i ∧
    divRound f neg m e d k = f.encode .rn (.fin neg c u) := by
  obtain ⟨b, hb⟩ := exists_dvd_of_dyadic h
  have hdvd : d ∣ m * 2 ^ (128 + Nat.log2 d) := dvd_mul_two_pow hd hb (Nat.le_add_left _ _)
  have hdiv := Nat.div_mul_cancel hdvd
  have hquo : m * 2 ^ (128 + Nat.log2 d) / d ≠ 0 := fun h0 => by
    rw [h0, zero_mul] at hdiv
    exact (Nat.mul_pos (Nat.pos_of_ne_zero hm) (Nat.two_pow_pos _)).ne hdiv
  have hround : divRound f neg m e d k = f.roundFin .rn neg (2 * (m * 2 ^ (128 + Nat.log2 d) / d))
      (e - k - (128 + Nat.log2 d : Nat) - 1) := by
    simp only [divRound, withSticky, Nat.mod_eq_zero_of_dvd hdvd, beq_self_eq_true, if_true, add_zero]
  refine ⟨_, _, ?_, hround.trans (encode_of_ne_zero _ _ _ (mul_ne_zero two_ne_zero hquo) _).symm⟩
  generalize 128 + Nat.log2 d = s at hdiv ⊢
  generalize m * 2 ^ s / d = quo at hdiv ⊢
  have hz : (d : ℚ) * (2 : ℚ) ^ k ≠ 0 := mul_ne_zero (by exact_mod_cast hd) (zpow_ne_zero _ two_ne_zero)
  have hdivq : (quo : ℚ) * d = m * 2 ^ s := by exact_mod_cast hdiv
  refine mul_right_cancel₀ hz (Eq.trans ?_ h.symm)
  have hsplit : (2 : ℚ) ^ e = 2 ^ (e - k - s - 1) * 2 ^ k * 2 ^ s * 2 := by
    rw [← zpow_natCast 2 s, ← zpow_add₀ two_ne_zero, ← zpow_add₀ two_ne_zero, ← zpow_add_one₀ two_ne_zero]
    congr 1
    ring
  rw [ratOf, hsplit]
  push_cast
  linear_combination 2 * (2 : ℚ) ^ (e - k - s - 1) * 2 ^ k * hdivq

/-- A number whose square is natural is natural. -/
theorem exists_nat_of_sq {m : Nat} {r : ℚ} (hr : 0 < r) (h : r * r = m) : ∃ s : Nat, r = s ∧ m = s * s := by
  obtain ⟨s, hs⟩ := Rat.isSquare_natCast_iff.mp (⟨r, h.symm⟩ : IsSquare (m : ℚ))
  refine ⟨s, ?_, hs⟩
  rw [hs, Nat.cast_mul] at h
  exact (mul_self_inj hr.le (Nat.cast_nonneg s)).mp h

/-- A root is taken of a number with an even exponent. -/
theorem sqrtRound_eq (f : Fmt) {m : Nat} (hm : m ≠ 0) (e : Int) : ∃ (n : Nat) (k : Int), n ≠ 0 ∧
    (n : ℚ) * (2 ^ k * 2 ^ k) = m * (2 : ℚ) ^ e ∧ sqrtRound f m e = f.roundFin .rn false
      (withSticky (isqrt (n * 2 ^ 256)) (isqrt (n * 2 ^ 256) * isqrt (n * 2 ^ 256) == n * 2 ^ 256)) (k - 128 - 1) := by
  rcases Int.emod_two_eq_zero_or_one e with h | h
  · refine ⟨m, e / 2, hm, ?_, by simp [sqrtRound, h]⟩
    rw [← zpow_add₀ two_ne_zero]
    congr 2
    omega
  · refine ⟨2 * m, (e - 1) / 2, mul_ne_zero two_ne_zero hm, ?_, by simp [sqrtRound, h]⟩
    rw [← zpow_add₀ two_ne_zero, show (e - 1) / 2 + (e - 1) / 2 = e - 1 by omega, zpow_sub_one₀ two_ne_zero]
    push_cast
    ring

/-- The root of an exact square. -/
theorem sqrtRound_of_exact (f : Fmt) {m : Nat} {e : Int} {r : ℚ} (hm : m ≠ 0) (hr : 0 < r)
    (h : r * r = m * (2 : ℚ) ^ e) : ∃ p k, ratOf (.fin false p k) = r ∧
    sqrtRound f m e = f.encode .rn (.fin false p k) := by
  obtain ⟨n, k, hn, heq, hround⟩ := sqrtRound_eq f hm e
  have hz : (0 : ℚ) < 2 ^ k := by positivity
  have hsq : r / 2 ^ k * (r / 2 ^ k) = n := by
    rw [div_mul_div_comm, h, ← heq, mul_div_cancel_right₀ _ (mul_pos hz hz).ne']
  obtain ⟨s, hs, rfl⟩ := exists_nat_of_sq (div_pos hr hz) hsq
  obtain ⟨t, ht⟩ : ∃ t : Nat, t = 2 ^ 128 := ⟨_, rfl⟩
  have htt : s * s * 2 ^ 256 = s * t * (s * t) := by
    rw [show 2 ^ 256 = 2 ^ 128 * 2 ^ 128 from (pow_add 2 128 128), ← ht]
    ring
  have hs0 : s ≠ 0 := fun h0 => hn (by rw [h0, zero_mul])
  have ht0 : t ≠ 0 := ht ▸ (Nat.two_pow_pos 128).ne'
  rw [htt, isqrt_eq_sqrt, Nat.sqrt_eq, beq_self_eq_true] at hround
  refine ⟨2 * (s * t), k - 128 - 1, ?_, hround.trans (encode_of_ne_zero f .rn false ?_ _).symm⟩
  · have hk : (2 : ℚ) ^ k = 2 ^ (k - 128 - 1) * t * 2 := by
      rw [ht, Nat.cast_pow, Nat.cast_ofNat, ← zpow_natCast 2 128, ← zpow_add₀ two_ne_zero, ← zpow_add_one₀ two_ne_zero]
      congr 1
      push_cast
      ring
    rw [ratOf, (div_eq_iff hz.ne').mp hs, hk]
    push_cast
    ring
  · exact mul_ne_zero two_ne_zero (mul_ne_zero hs0 ht0)

end Sys2Proof.Laws
end

section
/-! SUPPORT. Dot products: the elements of a register, their exact products and their sum (R106). -/

namespace Sys2Proof.Laws

open Sys2Proof.Machine

/-! ### Elements of a register -/

theorem nbits_elem {n : Nat} (hn : 0 < n) (v i : Nat) : nbits v (n * i + n - 1) (n * i) = v / 2 ^ (n * i) % 2 ^ n := by
  rw [nbits, Nat.shiftRight_eq_div_pow, show n * i + n - 1 + 1 - n * i = n by omega]

theorem elemsOf_eq {n : Nat} (hn : 0 < n) (v : Nat) :
    elemsOf n v = (List.range (32 / n)).map fun i => v / 2 ^ (n * i) % 2 ^ n := by
  simp only [elemsOf, nbits_elem hn]

theorem zipWith_map_range {α β γ : Type} (g : α → β → γ) (p : Nat → α) (q : Nat → β) (n : Nat) :
    List.zipWith g ((List.range n).map p) ((List.range n).map q) = (List.range n).map fun i => g (p i) (q i) := by
  rw [List.zipWith_map, List.zipWith_self]

/-! ### Products (R86) -/

section Products

variable {a b : FVal}

theorem mul_of_finite (ha : isFinite a) (hb : isFinite b) :
    (FVal.mul a b).2 = false ∧ isFinite (FVal.mul a b).1 ∧ ratOf (FVal.mul a b).1 = ratOf a * ratOf b := by
  cases a with
  | nan | inf => cases ha
  | fin s m e =>
    cases b with
    | nan | inf => cases hb
    | fin t n k =>
      refine ⟨rfl, rfl, ?_⟩
      simp only [FVal.mul, ratOf, zpow_add₀ (two_ne_zero (α := ℚ))]
      cases s <;> cases t <;> push_cast <;> simp <;> ring

/-- A product is an infinity, or invalid, only where an operand is an infinity. -/
theorem mul_of_no_inf (ha : ∀ s, a ≠ .inf s) (hb : ∀ s, b ≠ .inf s) :
    (FVal.mul a b).2 = false ∧ ∀ s, (FVal.mul a b).1 ≠ .inf s := by
  cases a with
  | inf s => exact absurd rfl (ha s)
  | nan => rw [mul_nan_left]; exact ⟨rfl, fun s => FVal.noConfusion⟩
  | fin s m e =>
    cases b with
    | inf t => exact absurd rfl (hb t)
    | nan => exact ⟨rfl, fun s => FVal.noConfusion⟩
    | fin t n k => exact ⟨rfl, fun s => FVal.noConfusion⟩

theorem mul_inf_number (s p : Bool) {m : Nat} (e : Int) (hm : m ≠ 0) :
    FVal.mul (.inf s) (.fin p m e) = (.inf (s != p), false) := if_neg hm

end Products

/-! ### Sums of values without a NaN (R86) -/

theorem sumVals_snd {l : List FVal} (md : RM) (hn : .nan ∉ l) :
    (sumVals l md).2 = true ↔ .inf false ∈ l ∧ .inf true ∈ l := by
  by_cases hp : FVal.inf false ∈ l <;> by_cases hm : FVal.inf true ∈ l <;>
    simp [sumVals, any_beq_eq, hn, hp, hm]

/-! ### DOT on floating-point elements -/

section Dot

variable (f : Fmt) (a b d : Nat)

/-- Element i of a register. -/
def dotElem (v i : Nat) : FVal := f.decode (v / 2 ^ (f.size * i) % 2 ^ f.size)

/-- The exact products of the elements. -/
def dotProducts : List (FVal × Bool) :=
  (List.range (32 / f.size)).map fun i => FVal.mul (dotElem f a i) (dotElem f b i)

/-- The terms of the sum: the operand d and the products that are valid. -/
def dotTerms : List FVal := Fmt.f32.decode d :: ((dotProducts f a b).filter fun p => !p.2).map Prod.fst

/-- A product is invalid, or infinities of opposite sign are added. -/
def DotInvalid : Prop :=
  (∃ i < 32 / f.size, (FVal.mul (dotElem f a i) (dotElem f b i)).2 = true) ∨
    .inf false ∈ dotTerms f a b d ∧ .inf true ∈ dotTerms f a b d

/-- An operand is a NaN. -/
def DotNan : Prop :=
  Fmt.f32.decode d = .nan ∨ ∃ i < 32 / f.size, dotElem f a i = .nan ∨ dotElem f b i = .nan

theorem dotFloat_eq (hs : 0 < f.size) : dotFloat f a b d =
    if (dotProducts f a b).any Prod.snd || (sumVals ((dotTerms f a b d).filter (· != .nan)) .rn).2 then
      (Fmt.f32.canon, .invalid)
    else if Fmt.f32.decode d == .nan || (((List.range (32 / f.size)).map (dotElem f a)) ++
        ((List.range (32 / f.size)).map (dotElem f b))).any (· == .nan) then (Fmt.f32.canon, .none)
    else Fmt.f32.encode .rn (sumVals (dotTerms f a b d) .rn).1 := by
  have hl (v : Nat) : (elemsOf f.size v).map f.decode = (List.range (32 / f.size)).map (dotElem f v) := by
    rw [elemsOf_eq hs, List.map_map]
    rfl
  rw [dotFloat]
  simp only [hl, zipWith_map_range]
  rfl

theorem dotInvalid_iff : ((dotProducts f a b).any Prod.snd ||
    (sumVals ((dotTerms f a b d).filter (· != .nan)) .rn).2) = true ↔ DotInvalid f a b d := by
  rw [Bool.or_eq_true, sumVals_snd _ (by simp), DotInvalid]
  simp [dotProducts]

theorem dotNan_iff : (Fmt.f32.decode d == .nan || (((List.range (32 / f.size)).map (dotElem f a)) ++
    ((List.range (32 / f.size)).map (dotElem f b))).any (· == .nan)) = true ↔ DotNan f a b d := by
  simp only [DotNan, Bool.or_eq_true, beq_iff_eq, List.any_append, List.any_map, List.any_eq_true, List.mem_range,
    Function.comp_apply, and_or_left, exists_or]

variable {f a b d}

section Cases

variable (hs : 0 < f.size)

include hs

theorem dotFloat_of_invalid (h : DotInvalid f a b d) : dotFloat f a b d = (Fmt.f32.canon, .invalid) := by
  rw [dotFloat_eq f a b d hs, if_pos ((dotInvalid_iff f a b d).mpr h)]

theorem dotFloat_of_nan (hi : ¬ DotInvalid f a b d) (hn : DotNan f a b d) :
    dotFloat f a b d = (Fmt.f32.canon, .none) := by
  rw [dotFloat_eq f a b d hs, if_neg (mt (dotInvalid_iff f a b d).mp hi), if_pos ((dotNan_iff f a b d).mpr hn)]

theorem dotFloat_of_numbers (hi : ¬ DotInvalid f a b d) (hn : ¬ DotNan f a b d) :
    dotFloat f a b d = Fmt.f32.encode .rn (sumVals (dotTerms f a b d) .rn).1 := by
  rw [dotFloat_eq f a b d hs, if_neg (mt (dotInvalid_iff f a b d).mp hi), if_neg (mt (dotNan_iff f a b d).mp hn)]

end Cases

theorem mem_dotTerms {v : FVal} : v ∈ dotTerms f a b d ↔ v = Fmt.f32.decode d ∨
    ∃ i < 32 / f.size, FVal.mul (dotElem f a i) (dotElem f b i) = (v, false) := by
  simp [dotTerms, dotProducts, Prod.ext_iff, and_assoc]

/-- Without an infinity among the operands nothing is invalid. -/
theorem not_dotInvalid_of_no_inf (h : ∀ i < 32 / f.size, ∀ s, dotElem f a i ≠ .inf s ∧ dotElem f b i ≠ .inf s)
    (hc : ∀ s, Fmt.f32.decode d ≠ .inf s) : ¬ DotInvalid f a b d := by
  have hmul {i : Nat} (hi : i < 32 / f.size) :=
    mul_of_no_inf (fun s => (h i hi s).1) (fun s => (h i hi s).2)
  rintro (⟨i, hi, hbad⟩ | ⟨hinf, -⟩)
  · rw [(hmul hi).1] at hbad
    cases hbad
  · rcases mem_dotTerms.mp hinf with hd | ⟨i, hi, hp⟩
    · exact hc _ hd.symm
    · exact (hmul hi).2 false (congrArg Prod.fst hp)

/-- The product of an infinity and a zero is invalid. -/
theorem dotInvalid_of_inf_zero {i : Nat} (hi : i < 32 / f.size) {s p : Bool} {e : Int}
    (h : (dotElem f a i = .inf s ∧ dotElem f b i = .fin p 0 e) ∨ (dotElem f b i = .inf s ∧ dotElem f a i = .fin p 0 e)) :
    DotInvalid f a b d := by
  refine Or.inl ⟨i, hi, ?_⟩
  rcases h with ⟨hinf, hzero⟩ | ⟨hinf, hzero⟩
  · rw [hinf, hzero, (mul_inf_zero s p e).1]
  · rw [hinf, hzero, (mul_inf_zero s p e).2]

/-- An infinite product and an infinity of the opposite sign are invalid. -/
theorem dotInvalid_of_opposite_inf {i : Nat} (hi : i < 32 / f.size) {s p : Bool} {m : Nat} {e : Int}
    (ha : dotElem f a i = .inf s) (hb : dotElem f b i = .fin p m e) (hm : m ≠ 0)
    (hc : Fmt.f32.decode d = .inf (s == p)) : DotInvalid f a b d := by
  have hd : .inf (s == p) ∈ dotTerms f a b d := mem_dotTerms.mpr (Or.inl hc.symm)
  have hp : .inf (s != p) ∈ dotTerms f a b d :=
    mem_dotTerms.mpr (Or.inr ⟨i, hi, by rw [ha, hb, mul_inf_number s p e hm]⟩)
  refine Or.inr ?_
  cases s <;> cases p
  · exact ⟨hp, hd⟩
  · exact ⟨hd, hp⟩
  · exact ⟨hd, hp⟩
  · exact ⟨hp, hd⟩

/-! ### DOT on finite elements -/

section Finite

variable (h : ∀ i < 32 / f.size, isFinite (dotElem f a i) ∧ isFinite (dotElem f b i))

include h

theorem dotTerms_of_finite : dotTerms f a b d = Fmt.f32.decode d ::
    (List.range (32 / f.size)).map fun i => (FVal.mul (dotElem f a i) (dotElem f b i)).1 := by
  rw [dotTerms, List.filter_eq_self.mpr, dotProducts, List.map_map]
  · rfl
  · intro p hp
    obtain ⟨i, hi, rfl⟩ := List.mem_map.mp hp
    have hfin := h i (List.mem_range.mp hi)
    rw [(mul_of_finite hfin.1 hfin.2).1]
    rfl

theorem dotProduct_finite {v : FVal} (hv : v ∈ (List.range (32 / f.size)).map fun i =>
    (FVal.mul (dotElem f a i) (dotElem f b i)).1) : isFinite v := by
  obtain ⟨i, hi, rfl⟩ := List.mem_map.mp hv
  have hfin := h i (List.mem_range.mp hi)
  exact (mul_of_finite hfin.1 hfin.2).2.1

theorem not_dotInvalid_of_finite : ¬ DotInvalid f a b d := by
  rintro (⟨i, hi, hbad⟩ | ⟨hp, hm⟩)
  · rw [(mul_of_finite (h i hi).1 (h i hi).2).1] at hbad
    cases hbad
  · rw [dotTerms_of_finite h, List.mem_cons] at hp hm
    have hp' := hp.resolve_right (special_of_mem (fun v => dotProduct_finite h) rfl)
    have hm' := hm.resolve_right (special_of_mem (fun v => dotProduct_finite h) rfl)
    cases hp'.trans hm'.symm

theorem not_dotNan_of_finite (hc : Fmt.f32.decode d ≠ .nan) : ¬ DotNan f a b d := by
  rintro (hd | ⟨i, hi, hn | hn⟩)
  · exact hc hd
  · have := (h i hi).1
    rw [hn] at this
    cases this
  · have := (h i hi).2
    rw [hn] at this
    cases this

/-- The exact value of the sum. -/
theorem sum_dotTerms : ((dotTerms f a b d).map ratOf).sum = ratOf (Fmt.f32.decode d) +
    ((List.range (32 / f.size)).map fun i => ratOf (dotElem f a i) * ratOf (dotElem f b i)).sum := by
  rw [dotTerms_of_finite h, List.map_cons, List.sum_cons, List.map_map]
  congr 2
  refine List.map_congr_left fun i hi => ?_
  have hfin := h i (List.mem_range.mp hi)
  exact (mul_of_finite hfin.1 hfin.2).2.2

theorem dotTerms_finite (hc : isFinite (Fmt.f32.decode d)) : ∀ v ∈ dotTerms f a b d, isFinite v := by
  rw [dotTerms_of_finite h]
  intro v hv
  rcases List.mem_cons.mp hv with rfl | hv
  · exact hc
  · exact dotProduct_finite h hv

theorem dotFloat_of_finite (hs : 0 < f.size) (hc : Fmt.f32.decode d ≠ .nan) :
    dotFloat f a b d = Fmt.f32.encode .rn (sumVals (dotTerms f a b d) .rn).1 :=
  dotFloat_of_numbers hs (not_dotInvalid_of_finite h) (not_dotNan_of_finite h hc)

theorem dotFloat_of_inf (hs : 0 < f.size) {s : Bool} (hc : Fmt.f32.decode d = .inf s) :
    dotFloat f a b d = (Fmt.f32.withSign s Fmt.f32.infBits, .none) := by
  have hmem {v : FVal} (hv : v.special = true) (hne : v ≠ .inf s) : v ∉ dotTerms f a b d := by
    rw [dotTerms_of_finite h, hc, List.mem_cons, not_or]
    exact ⟨hne, special_of_mem (fun v => dotProduct_finite h) hv⟩
  rw [dotFloat_of_finite h hs (by simp [hc]), sumVals_of_inf (s := s) .rn (hmem rfl (by simp)) _
    (hmem rfl (by simp))]
  · rfl
  · rw [dotTerms, hc]
    exact List.mem_cons_self ..

theorem dotFloat_of_ne_zero (hs : 0 < f.size) (hc : isFinite (Fmt.f32.decode d)) {q : ℚ}
    (hq : q = ratOf (Fmt.f32.decode d) +
      ((List.range (32 / f.size)).map fun i => ratOf (dotElem f a i) * ratOf (dotElem f b i)).sum) (h0 : q ≠ 0) :
    ∃ neg m e, ratOf (.fin neg m e) = q ∧ dotFloat f a b d = Fmt.f32.encode .rn (.fin neg m e) := by
  rw [← sum_dotTerms h] at hq
  subst hq
  obtain ⟨neg, m, e, hr, hv⟩ := sumVals_of_ne_zero .rn (dotTerms_finite h hc) h0
  refine ⟨neg, m, e, hr, ?_⟩
  rw [dotFloat_of_finite h hs, hv]
  exact fun hn => by rw [hn] at hc; cases hc

/-- A sum that is zero is +0 unless the operand d is −0. -/
theorem dotFloat_of_zero (hs : 0 < f.size) (hc : isFinite (Fmt.f32.decode d))
    (hq : ratOf (Fmt.f32.decode d) +
      ((List.range (32 / f.size)).map fun i => ratOf (dotElem f a i) * ratOf (dotElem f b i)).sum = 0)
    (hz : ∀ e, Fmt.f32.decode d ≠ .fin true 0 e) : dotFloat f a b d = (0, .none) := by
  rw [← sum_dotTerms h] at hq
  have hsign : zeroSign (dotTerms f a b d) .rn = false := by
    have hd : ((Fmt.f32.decode d).isZero && (Fmt.f32.decode d).sign) = false := by
      cases hv : Fmt.f32.decode d with
      | nan | inf => rw [hv] at hc; cases hc
      | fin s m e =>
        cases s
        · exact Bool.and_false _
        · have hm : m ≠ 0 := fun h0 => hz e (h0 ▸ hv)
          simp [FVal.isZero, hm]
    simp only [zeroSign, dotTerms, List.all_cons, hd, Bool.false_and, Bool.false_eq_true, if_false]
    exact ite_self _
  rw [dotFloat_of_finite h hs, sumVals_of_zero .rn (dotTerms_finite h hc) hq, hsign]
  · rfl
  · exact fun hn => by rw [hn] at hc; cases hc

end Finite

end Dot

/-! ### DOT on integer elements -/

/-- Byte i of a register as a signed or unsigned integer. -/
def dotByte (sg : Bool) (v : Word) (i : Nat) : Int :=
  if sg then (v.extractLsb' (8 * i) 8).toInt else (v.extractLsb' (8 * i) 8).toNat

theorem elemsOf_word (v : Word) : elemsOf 8 v.toNat = (List.range 4).map fun i => (v.extractLsb' (8 * i) 8).toNat := by
  rw [elemsOf_eq (by decide)]
  refine List.map_congr_left fun i _ => ?_
  rw [BitVec.extractLsb'_toNat, Nat.shiftRight_eq_div_pow]

theorem foldl_add_eq_add_sum (l : List Int) (z : Int) : l.foldl (· + ·) z = z + l.sum := by
  rw [List.sum_eq_foldl, ← List.foldl_assoc (op := ((· + ·) : Int → Int → Int)), add_zero]

theorem dotInt_eq {t : DotType} (ht : dotFmt t = none) (sat : Bool) (a b d : Word) :
    dotInt t sat a.toNat b.toNat d.toNat = intResult true sat 32 (d.toInt +
      ((List.range 4).map fun i => dotByte (t != .z8) a i * dotByte (t == .s8) b i).sum) := by
  cases t with
  | f16 | bf16 | e4m3 | e5m2 => cases ht
  | s8 | z8 | s8z8 =>
    simp only [dotInt, elemsOf_word, zipWith_map_range, foldl_add_eq_add_sum, sx_toNat (n := 8) (by decide),
      sx_toNat (n := 32) (by decide)]
    rfl

theorem intResult_word (sat : Bool) (v : Int) :
    intResult true sat 32 v = (BitVec.ofInt 32 (if sat then clamp .s32 v else v)).toNat := by
  rw [intResult, wrap_eq_toNat_ofInt, ← sat_eq_clamp]
  rfl

end Sys2Proof.Laws
end

section
/-! SUPPORT. The results of SFU, and the family of conversions, functions and dot products (R102-R106). -/

namespace Sys2Proof.Laws

open Sys2Proof.Machine

/-! ### Special values of SFU (R104) -/

/-- The format of SFU: half or single. -/
def sfuFmt (h : Bool) : Fmt := if h then .f16 else .f32

/-- The bits of 1 in it. -/
def sfuOne (h neg : Bool) : Nat := (sfuFmt h).withSign neg (if h then 0x3C00 else 0x3F800000)

theorem roundFin_one (h neg : Bool) : ((sfuFmt h).roundFin .rn neg 1 0).1 = sfuOne h neg := by
  cases h <;> cases neg <;> decide

theorem exponent_of_sfu {h n : Bool} {a m : Nat} {e : Int} (ha : (sfuFmt h).decode a = .fin n m e) : -400 ≤ e := by
  refine le_trans ?_ (exponent_of_decode ha)
  cases h <;> decide

section Special

variable {f : Fmt} {a b : Nat}

theorem sfuEval_nan (ha : f.decode a = .nan) (fn : SfuFn) : sfuEval f fn a b = (f.canon, .none) := by
  cases fn <;> simp only [sfuEval, ha]

theorem sfuEval_div_nan (hb : f.decode b = .nan) : sfuEval f .div a b = (f.canon, .none) := by
  cases ha : f.decode a <;> simp only [sfuEval, ha, hb]

end Special

section Values

variable {h n : Bool} {a m : Nat} {e : Int} (b : Nat)

theorem sfuEval_zero (ha : (sfuFmt h).decode a = .fin n 0 e) :
    let f := sfuFmt h
    sfuEval f .rcp a b = (f.withSign n f.infBits, .divZero) ∧ sfuEval f .rsq a b = (f.withSign n f.infBits, .divZero) ∧
    sfuEval f .sqrt a b = (f.withSign n 0, .none) ∧ sfuEval f .lg2 a b = (f.withSign true f.infBits, .divZero) ∧
    sfuEval f .ex2 a b = (sfuOne h false, .none) ∧ sfuEval f .sinpi a b = (f.withSign n 0, .none) ∧
    sfuEval f .cospi a b = (sfuOne h false, .none) ∧ sfuEval f .tanh a b = (f.withSign n 0, .none) := by
  simp only [sfuEval, ha, if_true, roundFin_one, and_self]

theorem sfuEval_inf (ha : (sfuFmt h).decode a = .inf n) :
    let f := sfuFmt h
    sfuEval f .rcp a b = (f.withSign n 0, .none) ∧ sfuEval f .sinpi a b = (f.canon, .invalid) ∧
    sfuEval f .cospi a b = (f.canon, .invalid) ∧ sfuEval f .tanh a b = (sfuOne h n, .none) ∧
    sfuEval f .ex2 a b = (if n then f.withSign false 0 else f.withSign false f.infBits, .none) ∧
    sfuEval f .rsq a b = (if n then (f.canon, .invalid) else (f.withSign false 0, .none)) ∧
    sfuEval f .sqrt a b = (if n then (f.canon, .invalid) else (f.withSign false f.infBits, .none)) ∧
    sfuEval f .lg2 a b = if n then (f.canon, .invalid) else (f.withSign false f.infBits, .none) := by
  simp only [sfuEval, ha, roundFin_one, and_self]

/-- The root and the logarithm of a negative number are invalid. -/
theorem sfuEval_negative (ha : (sfuFmt h).decode a = .fin true m e) (hm : m ≠ 0) :
    let f := sfuFmt h
    sfuEval f .rsq a b = (f.canon, .invalid) ∧ sfuEval f .sqrt a b = (f.canon, .invalid) ∧
    sfuEval f .lg2 a b = (f.canon, .invalid) := by
  simp only [sfuEval, ha, if_neg hm, if_true, and_self]

/-! ### Exact values of SFU (R104) -/

theorem sfuEval_lg2_of_two_pow {k : Nat} (ha : (sfuFmt h).decode a = .fin false (2 ^ k) e) :
    sfuEval (sfuFmt h) .lg2 a b = (sfuFmt h).encode .rn (.fin (decide (e + k < 0)) (e + k).natAbs 0) := by
  simp only [sfuEval, ha, if_neg (Nat.two_pow_pos k).ne', Bool.false_eq_true, if_false, sfuLg2_of_two_pow]

theorem sfuEval_sinpi_of_int (ha : (sfuFmt h).decode a = .fin n m e) (hm : m ≠ 0) {i : Int}
    (hi : (i : ℚ) = m * (2 : ℚ) ^ e) : sfuEval (sfuFmt h) .sinpi a b = ((sfuFmt h).withSign n 0, .none) := by
  simp only [sfuEval, ha, if_neg hm, sfuSinPi_of_int _ n (exponent_of_sfu ha) hi]

theorem sfuEval_ex2_of_int (ha : (sfuFmt h).decode a = .fin n m e) (hm : m ≠ 0) {j : Nat}
    (hi : ((j : Int) : ℚ) = m * (2 : ℚ) ^ e) (hj : j < 512) :
    sfuEval (sfuFmt h) .ex2 a b = (sfuFmt h).encode .rn (.fin false 1 (if n then -j else j)) := by
  simp only [sfuEval, ha, if_neg hm, sfuEx2_of_int _ n (exponent_of_sfu ha) hi hm hj]

theorem sfuEval_cospi_of_half (ha : (sfuFmt h).decode a = .fin n m e) {i : Int}
    (hi : (2 * i + 1 : ℚ) = 2 * (m * (2 : ℚ) ^ e)) :
    sfuEval (sfuFmt h) .cospi a b = ((sfuFmt h).withSign false 0, .none) := by
  have hm : m ≠ 0 := by
    rintro rfl
    have hq : (2 * i + 1 : ℚ) = 0 := hi.trans (by simp)
    have : 2 * i + 1 = 0 := by exact_mod_cast hq
    omega
  simp only [sfuEval, ha, if_neg hm, sfuCosPi_of_half _ (exponent_of_sfu ha) hi]

theorem sfuEval_sqrt_of_square (ha : (sfuFmt h).decode a = .fin false m e) (hm : m ≠ 0) {r : ℚ} (hr : 0 < r)
    (hsq : r * r = m * (2 : ℚ) ^ e) : ∃ p k, ratOf (.fin false p k) = r ∧
    sfuEval (sfuFmt h) .sqrt a b = (sfuFmt h).encode .rn (.fin false p k) := by
  obtain ⟨p, k, hp, hs⟩ := sqrtRound_of_exact (sfuFmt h) hm hr hsq
  refine ⟨p, k, hp, ?_⟩
  simp only [sfuEval, ha, if_neg hm, Bool.false_eq_true, if_false, hs]

end Values

/-! ### Quotients of SFU (R104) -/

section Quotients

variable {f : Fmt} {a b : Nat} {n p : Bool} {m j : Nat} {e k : Int}

theorem sfuEval_div_inf_inf (ha : f.decode a = .inf n) (hb : f.decode b = .inf p) :
    sfuEval f .div a b = (f.canon, .invalid) := by
  simp only [sfuEval, ha, hb]

theorem sfuEval_div_inf_number (ha : f.decode a = .inf n) (hb : f.decode b = .fin p j k) :
    sfuEval f .div a b = (f.withSign (n != p) f.infBits, .none) := by
  simp only [sfuEval, ha, hb]

theorem sfuEval_div_number_inf (ha : f.decode a = .fin n m e) (hb : f.decode b = .inf p) :
    sfuEval f .div a b = (f.withSign (n != p) 0, .none) := by
  simp only [sfuEval, ha, hb]

theorem sfuEval_div_by_zero (ha : f.decode a = .fin n m e) (hb : f.decode b = .fin p 0 k) :
    sfuEval f .div a b = if m = 0 then (f.canon, .invalid) else (f.withSign (n != p) f.infBits, .divZero) := by
  simp only [sfuEval, ha, hb, if_true]

theorem sfuEval_div_of_zero (ha : f.decode a = .fin n 0 e) (hb : f.decode b = .fin p j k) (hj : j ≠ 0) :
    sfuEval f .div a b = (f.withSign (n != p) 0, .none) := by
  simp only [sfuEval, ha, hb, if_neg hj, if_true]

theorem sfuEval_div_of_exact (ha : f.decode a = .fin n m e) (hb : f.decode b = .fin p j k) (hm : m ≠ 0) (hj : j ≠ 0)
    {q : Nat} {i : Int} (hq : q * (2 : ℚ) ^ i * (j * (2 : ℚ) ^ k) = m * (2 : ℚ) ^ e) :
    ∃ c u, ratOf (.fin false c u) = q * (2 : ℚ) ^ i ∧
      sfuEval f .div a b = f.encode .rn (.fin (n != p) c u) := by
  obtain ⟨c, u, hc, hd⟩ := divRound_of_exact f (n != p) hm hj hq
  refine ⟨c, u, hc, ?_⟩
  simp only [sfuEval, ha, hb, if_neg hm, if_neg hj, hd]

end Quotients

theorem size_pos_of_dotFmt {t : DotType} {f : Fmt} (h : dotFmt t = some f) : 0 < f.size := by
  cases t <;> cases h <;> decide

/-- Settles O7: each word's function is its format's or its type's, and each function is evaluated on the
exact values of its operands. -/
theorem conversionsAndDots : Obligations.ConversionsAndDots := by
  refine ⟨fun dst src sat r d a => ?_, fun fn d a b => ?_, fun fn d a b => ?_, fun bf op r d a b => ?_,
    fun t sat d a b f ht => ?_, fun t sat d a b ht => ?_, fun dst src sat md v g f => cvtEval_floats sat md v,
    fun t sat md v f => cvtEval_same sat md v, fun t sat md v f => cvtEval_nan sat md v,
    fun dst src sat md v f b x => cvtEval_of_int sat md v,
    fun dst src sat md v g b hs hd => ⟨cvtEval_to_int_nan sat md v hs hd, fun n => cvtEval_to_int_inf sat md v hs hd,
      fun q => cvtEval_to_int_finite sat md v hs hd⟩,
    fun dst src md v b c x hs hd hx => ⟨cvtEval_ints_saturated md v hs hd hx,
      fun z => cvtEval_ints_wrapped md v hs hd hx⟩, ?_, fun f md a b d => ⟨rfl, rfl, rfl⟩, ?_, ?_⟩
  · refine does_of_eq (fun s => by dsimp only [exec]; rfl) fun x => ?_
    have hw (t : CvtType) : cvtWide t = t.is64 := by cases t <;> rfl
    simp only [hw]
  · refine does_of_eq (fun s => by dsimp only [exec]; rfl) fun x => ?_
    rfl
  · refine does_of_eq (fun s => by dsimp only [exec]; rfl) fun x => ?_
    rfl
  · refine does_of_eq (fun s => by dsimp only [exec]; rfl) fun x => ?_
    rfl
  · refine does_of_eq (fun s => by dsimp only [exec]; rfl) fun x => ?_
    simp only [ht]
  · refine does_of_eq (fun s => by dsimp only [exec]; rfl) fun x => ?_
    simp only [ht]
  · intro h a b f sfu zero inf one
    exact ⟨fun ha => sfuEval_nan ha, fun hb => sfuEval_div_nan hb, fun n e ha => sfuEval_zero b ha,
      fun n ha => sfuEval_inf b ha, fun m e ha hm => sfuEval_negative b ha hm,
      fun e k ha => sfuEval_lg2_of_two_pow b ha,
      fun n m e i ha hm hi => ⟨sfuEval_sinpi_of_int b ha hm hi, fun j hj => sfuEval_ex2_of_int b ha hm (hj ▸ hi)⟩,
      fun n m e i ha hi => sfuEval_cospi_of_half b ha hi,
      fun m e r ha hm hr hsq => sfuEval_sqrt_of_square b ha hm hr hsq,
      fun n p ha hb => sfuEval_div_inf_inf ha hb, fun n p m e ha hb => sfuEval_div_inf_number ha hb,
      fun n p m e ha hb => sfuEval_div_number_inf ha hb, fun n p m e k ha hb => sfuEval_div_by_zero ha hb,
      fun n p m j e k ha hb hm hj => hj ▸ sfuEval_div_of_zero ha hb hm,
      fun n p m j e k q i ha hb hm hj hq => sfuEval_div_of_exact ha hb hm hj hq⟩
  · intro t f a b d ht n el c q
    have hs := size_pos_of_dotFmt ht
    exact ⟨fun hfin hc => ⟨dotFloat_of_ne_zero hfin hs hc rfl, dotFloat_of_zero hfin hs hc⟩,
      fun hinf hc hn => dotFloat_of_nan hs (not_dotInvalid_of_no_inf hinf hc) hn,
      fun ⟨i, hi, s, p, e, h⟩ => dotFloat_of_invalid hs (dotInvalid_of_inf_zero hi h),
      fun i s p m e hi ha hb hm hc => dotFloat_of_invalid hs (dotInvalid_of_opposite_inf hi ha hb hm hc),
      fun s hfin hc => dotFloat_of_inf hfin hs hc⟩
  · intro t sat a b d ht el v
    exact (dotInt_eq ht sat a b d).trans (intResult_word sat v)

end Sys2Proof.Laws
end

section
/-! SUPPORT. What accesses to memory leave as it was: all of the package but its stores, what is on its way to them, and
the spills that a core's forwarding table holds (R170, R178-R181, R381-R385). -/

namespace Sys2Proof.Laws

open Sys2Proof.Machine

/-- The package without its stores: no bytes and no poison, no copies and no cleanings on their way, no links followed
and no cores. -/
def unstored (s : State) : State :=
  { s with mem := [], poison := [], stale := [], owned := [], edge := [], cleans := [], links := [], cores := [] }

theorem ranges_of_unstored {s t : State} (h : unstored t = unstored s) : t.ranges = s.ranges := congrArg (·.ranges) h

theorem rgen_of_unstored {s t : State} (h : unstored t = unstored s) : t.rgen = s.rgen := congrArg (·.rgen) h

theorem fresh_of_unstored {s t : State} (h : unstored t = unstored s) : t.fresh = s.fresh := congrArg (·.fresh) h

/-- Steps that each leave the rest as it was leave it so together. -/
theorem foldl_unstored {α : Type} {f : State → α → State} (hf : ∀ s a, unstored (f s a) = unstored s) (l : List α)
    (s : State) : unstored (l.foldl f s) = unstored s := by
  induction l generalizing s with
  | nil => rfl
  | cons a r ih => rw [List.foldl_cons, ih, hf]

/-! ### Bytes and poison -/

@[simp] theorem put_unstored (s : State) (k : Nat) (bs : List Byte) : unstored (s.put k bs) = unstored s := by
  simp only [State.put, State.clearCovered]
  split <;> rfl

@[simp] theorem putNum_unstored (s : State) (k n v : Nat) : unstored (s.putNum k n v) = unstored s :=
  put_unstored s k (leBytes n v)

@[simp] theorem poisonUnit_unstored (s : State) (u : Nat) : unstored (s.poisonUnit u) = unstored s := by
  rw [State.poisonUnit]
  split <;> rfl

/-! ### Copies and cleanings (R180, R181) -/

@[simp] theorem crosses_unstored (s : State) (line : Nat) : unstored (s.crosses line) = unstored s := by
  rw [State.crosses, State.useLink]
  split_ifs <;> rfl

@[simp] theorem setEdge_unstored (s : State) (e : EdgeLine) : unstored (s.setEdge e) = unstored s := by
  rw [State.setEdge]
  split <;> rfl

@[simp] theorem homePut_unstored (s : State) (cells : List (Nat × Byte)) (bad : List Nat) :
    unstored (s.homePut cells bad) = unstored s := by
  have hcells := foldl_unstored (f := fun (t : State) (e : Nat × Byte) => (t.put e.1 [e.2]).crosses (e.1 / 128))
    (fun _ _ => by simp) cells s
  rw [State.homePut, foldl_unstored poisonUnit_unstored]
  split
  · exact hcells
  · exact hcells

@[simp] theorem land_unstored (s : State) (lines : List Nat) : unstored (s.land lines) = unstored s := by
  rw [State.land]
  split
  · rfl
  · exact homePut_unstored _ _ _

@[simp] theorem edgeFill_unstored (s : State) (die line : Nat) : unstored (s.edgeFill die line) = unstored s := by
  simp [State.edgeFill]

@[simp] theorem edgeFetch_unstored (s : State) (die line : Nat) : unstored (s.edgeFetch die line) = unstored s := by
  rw [State.edgeFetch]
  split
  · split <;> simp
  · simp

@[simp] theorem touch_unstored (s : State) (die : Nat) (x : Xlat) (n : Nat) :
    unstored (s.touch die x n) = unstored s := by
  rw [State.touch]
  split
  · exact foldl_unstored (fun s l => edgeFetch_unstored s die l) _ s
  · rfl

@[simp] theorem touchSpan_unstored (s : State) (sp : Space) (die va n : Nat) :
    unstored (s.touchSpan sp die va n) = unstored s := by
  refine foldl_unstored (fun s l => ?_) _ s
  split <;> simp

/-! ### Stores (R178, R181, R381, R383) -/

@[simp] theorem drainFor_unstored (s : State) (k n : Nat) : unstored (s.drainFor k n) = unstored s := by
  simp only [State.drainFor]
  split_ifs
  · rfl
  · exact foldl_unstored (f := fun (s : State) (e : Nat × Word) => s.putNum e.1 4 e.2.toNat)
      (fun _ _ => putNum_unstored _ _ _ _) _ s
  · rfl

@[simp] theorem own_unstored (s : State) (die k n : Nat) : unstored (s.own die k n) = unstored s := by
  rw [State.own]
  split <;> rfl

@[simp] theorem copyClear_unstored (s : State) (die k n : Nat) : unstored (s.copyClear die k n) = unstored s := by
  rw [State.copyClear]
  split <;> rfl

@[simp] theorem writeAt_unstored (s : State) (die : Nat) (x : Xlat) (bs : List Byte) :
    unstored (s.writeAt die x bs) = unstored s := by
  rw [State.writeAt]
  split
  · rw [copyClear_unstored]
    exact foldl_unstored (fun _ _ => setEdge_unstored _ _) _ s
  · simp

@[simp] theorem poisonFor_unstored (s : State) (die k n : Nat) : unstored (s.poisonFor die k n) = unstored s := by
  refine foldl_unstored (fun s u => ?_) _ s
  rw [State.poisonHere]
  split
  · exact setEdge_unstored _ _
  · exact poisonUnit_unstored s u

section Store

variable {s t : State} {sp : Space} {die ea n : Nat} {bs : List Byte}

/-- A store that its checks refuse has poisoned units at most. -/
theorem storeCheck_bad_unstored {c : Nat} (h : s.storeCheck sp die ea n = .bad t c) : unstored t = unstored s := by
  rw [State.storeCheck] at h
  repeat' split at h
  all_goals cases h
  all_goals simp

/-- The checks that pass a store change nothing. -/
theorem storeCheck_ok_state {x : Xlat} (h : s.storeCheck sp die ea n = .ok t x) : t = s := by
  rw [State.storeCheck] at h
  repeat' split at h
  all_goals cases h
  rfl

theorem storeBytes_bad_unstored {c : Nat} (h : s.storeBytes sp die ea bs = .bad t c) : unstored t = unstored s := by
  rw [State.storeBytes] at h
  split at h
  case h_2 hc =>
    cases h
    exact storeCheck_bad_unstored hc
  all_goals cases h

theorem storeBytes_ok_unstored {u : Unit} (h : s.storeBytes sp die ea bs = .ok t u) : unstored t = unstored s := by
  rw [State.storeBytes] at h
  split at h
  case h_1 hc =>
    cases h
    rw [writeAt_unstored, storeCheck_ok_state hc]
  all_goals cases h

end Store

end Sys2Proof.Laws
end

section
/-! SUPPORT. The verdict on a range image, and what carrying it out leaves (R156-R160, R439). -/

namespace Sys2Proof.Laws

open Sys2Proof.Machine

/-! ### The status of an image (R159) -/

section Status

variable {lower : List RangeEntry} {n : Nat} {e : RangeEntry}

/-- Entry e is well-formed, backed, and meets no entry of a list. -/
structure EntryFits (lower : List RangeEntry) (e : RangeEntry) : Prop where
  formed : entryBad e = false
  apart : ∀ a ∈ lower, entriesMeet e a = false
  backed : Range.valid e = true → entryBacked e = true

theorem entriesStatus_of_fits (h : EntryFits lower e) (r : List RangeEntry) :
    entriesStatus lower n (e :: r) = entriesStatus (lower ++ [e]) (n + 1) r := by
  have hv : (Range.valid e && !entryBacked e) = false := by
    cases hv : Range.valid e
    · rfl
    · simp [h.backed hv]
  have ha : lower.any (entriesMeet e) = false := by simpa using h.apart
  simp [entriesStatus, h.formed, ha, hv]

theorem entriesStatus_of_bad (h : entryBad e = true) (r : List RangeEntry) :
    entriesStatus lower n (e :: r) = 0x00010000 + n := by simp [entriesStatus, h]

theorem entriesStatus_of_meets (h : entryBad e = false) (hm : ∃ a ∈ lower, entriesMeet e a = true)
    (r : List RangeEntry) : entriesStatus lower n (e :: r) = 0x00020000 + n := by
  simp [entriesStatus, h, List.any_eq_true.mpr hm]

theorem entriesStatus_of_unbacked (h : entryBad e = false) (hm : ∀ a ∈ lower, entriesMeet e a = false)
    (hv : Range.valid e = true) (hb : entryBacked e = false) (r : List RangeEntry) :
    entriesStatus lower n (e :: r) = 0x00030000 + n := by
  have ha : lower.any (entriesMeet e) = false := by simpa using hm
  simp [entriesStatus, h, ha, hv, hb]

/-- An entry that fails decides the status, with a code other than 1. -/
theorem fits_of_entriesStatus {r : List RangeEntry} (h : entriesStatus lower n (e :: r) = 1) : EntryFits lower e := by
  have hbad : entryBad e = false := Bool.eq_false_iff.mpr fun hb => by
    rw [entriesStatus_of_bad hb] at h
    omega
  have hmeet : ∀ a ∈ lower, entriesMeet e a = false := fun a ha => Bool.eq_false_iff.mpr fun hm => by
    rw [entriesStatus_of_meets hbad ⟨a, ha, hm⟩] at h
    omega
  refine ⟨hbad, hmeet, fun hv => ?_⟩
  by_contra hb
  rw [entriesStatus_of_unbacked hbad hmeet hv (Bool.eq_false_iff.mpr hb)] at h
  omega

/-- The status is 1 where every entry fits those below it, of the list and before it. -/
theorem entriesStatus_eq_one_iff (es : List RangeEntry) : entriesStatus lower n es = 1 ↔
    (∀ e ∈ es, entryBad e = false ∧ (Range.valid e = true → entryBacked e = true)) ∧
      (∀ e ∈ es, ∀ a ∈ lower, entriesMeet e a = false) ∧ es.Pairwise fun a b => entriesMeet b a = false := by
  induction es generalizing lower n with
  | nil => simp [entriesStatus]
  | cons e r ih =>
    constructor
    · intro h
      have hf := fits_of_entriesStatus h
      rw [entriesStatus_of_fits hf, ih] at h
      obtain ⟨hgood, hlow, hpair⟩ := h
      refine ⟨List.forall_mem_cons.mpr ⟨⟨hf.formed, hf.backed⟩, hgood⟩,
        List.forall_mem_cons.mpr ⟨hf.apart, fun b hb a ha => hlow b hb a (List.mem_append_left _ ha)⟩,
        List.pairwise_cons.mpr ⟨fun b hb => hlow b hb e (by simp), hpair⟩⟩
    · rintro ⟨hgood, hlow, hpair⟩
      obtain ⟨⟨hbad, hback⟩, hgood⟩ := List.forall_mem_cons.mp hgood
      obtain ⟨hfit, hlow⟩ := List.forall_mem_cons.mp hlow
      obtain ⟨hmeet, hpair⟩ := List.pairwise_cons.mp hpair
      rw [entriesStatus_of_fits ⟨hbad, hfit, hback⟩, ih]
      refine ⟨hgood, fun b hb a ha => ?_, hpair⟩
      rcases List.mem_append.mp ha with ha | ha
      · exact hlow b hb a ha
      · rw [List.mem_singleton.mp ha]
        exact hmeet b hb

/-- Entries that fit are passed over. -/
theorem entriesStatus_append {pre : List RangeEntry} (h : entriesStatus lower n pre = 1) (post : List RangeEntry) :
    entriesStatus lower n (pre ++ post) = entriesStatus (lower ++ pre) (n + pre.length) post := by
  induction pre generalizing lower n with
  | nil => simp
  | cons e r ih =>
    have hf := fits_of_entriesStatus h
    rw [entriesStatus_of_fits hf] at h
    rw [List.cons_append, entriesStatus_of_fits hf, ih h]
    simp [Nat.add_assoc, Nat.add_comm 1]

end Status

/-! ### The set of ranges -/

/-- The table of a list of entries, each at its number from k on. -/
theorem sget_foldl_sset (es : List RangeEntry) (k : Nat) {l : Sparse RangeEntry} (hl : risingFrom 0 l = true)
    (n : Nat) :
    sget ((es.zipIdx k).foldl (fun (l : Sparse RangeEntry) e => sset l e.2 e.1 0) l) n 0 =
      if k ≤ n then (es[n - k]?).getD (sget l n 0) else sget l n 0 := by
  induction es generalizing k l with
  | nil => simp
  | cons e r ih =>
    rw [List.zipIdx_cons, List.foldl_cons, ih (k + 1) (rising_sset hl (Nat.zero_le k) e 0)]
    rcases Nat.lt_trichotomy n k with h | rfl | h
    · rw [if_neg (by omega), if_neg (by omega), sget_sset_of_ne l (by omega)]
    · simp [sget_sset_self hl]
    · obtain ⟨m, rfl⟩ := Nat.exists_eq_add_of_lt h
      rw [if_pos (by omega), if_pos (by omega), sget_sset_of_ne l (by omega),
        show k + m + 1 - (k + 1) = m by omega, show k + m + 1 - k = m + 1 by omega, List.getElem?_cons_succ]

/-! ### The swap (R160) -/

section Swap

variable {s u : State} {c : Commit} {es : List RangeEntry}

/-- The set of the image's entries, with RGEN raised, before RGEN is written to the header. -/
def swapped (s : State) (es : List RangeEntry) : State :=
  { s with ranges := es.zipIdx.foldl (fun (l : Sparse RangeEntry) (e : RangeEntry × Nat) => sset l e.2 e.1 0) [],
           rgen := s.rgen + 1 }

/-- Whether the header takes RGEN or not, the new set stands. -/
theorem swapRanges_unstored (h : s.swapRanges c es = some u) : unstored u = unstored (swapped s es) := by
  rw [State.swapRanges] at h
  split at h
  case h_1 hs => cases h; exact storeBytes_ok_unstored hs
  case h_2 hs => cases h; exact storeBytes_bad_unstored hs
  case h_3 => cases h

theorem swapRanges_rgen (h : s.swapRanges c es = some u) : u.rgen = s.rgen + 1 :=
  rgen_of_unstored (swapRanges_unstored h)

theorem swapRanges_ranges (h : s.swapRanges c es = some u) {n : Nat} {e : RangeEntry} (he : es[n]? = some e) :
    sget u.ranges n 0 = e := by
  rw [ranges_of_unstored (swapRanges_unstored h)]
  exact (sget_foldl_sset es 0 rfl n).trans (by simp [he])

end Swap

/-! ### The answer (R160) -/

@[simp] theorem writeTok_unstored (s : State) (c gk : Nat) (t : Tok) (v : Word) :
    unstored (s.writeTok c gk t v) = unstored s := by
  rw [State.writeTok]
  split <;> rfl

/-- An answer writes a token, or a saved token in an image. -/
@[simp] theorem rangeAnswer_unstored (s : State) (c : Commit) (v : Word) :
    unstored (s.rangeAnswer c v) = unstored s := by
  rw [State.rangeAnswer]
  split
  · rfl
  · split
    · exact putNum_unstored _ _ _ _
    · exact writeTok_unstored _ _ _ _ _

theorem rangeAnswer_ranges (s : State) (c : Commit) (v : Word) : (s.rangeAnswer c v).ranges = s.ranges :=
  ranges_of_unstored (rangeAnswer_unstored s c v)

theorem rangeAnswer_rgen (s : State) (c : Commit) (v : Word) : (s.rangeAnswer c v).rgen = s.rgen :=
  rgen_of_unstored (rangeAnswer_unstored s c v)

/-! ### The steps -/

theorem exec_rangeCommitCheck (s : State) : exec .rangeCommitCheck s = execRangeCommitCheck s := by dsimp only [exec]

theorem exec_rangeSwap (s : State) : exec .rangeSwap s = execRangeSwap s := by dsimp only [exec]

theorem rangeStatus_of_unread {s : State} {c : Commit} {cause : Nat} (h : s.stagingEntries c = .bad cause) :
    s.rangeStatus c = some 0x00040000 := by
  rw [State.rangeStatus, h]
  rfl

theorem rangeStatus_of_moved {s : State} {c : Commit} (h : s.stagingEntries c = .wait) : s.rangeStatus c = none := by
  rw [State.rangeStatus, h]

theorem rangeStatus_of_read {s : State} {c : Commit} {es : List RangeEntry} (h : s.stagingEntries c = .ok es) :
    s.rangeStatus c = some (entriesStatus [] 0 es) := by rw [State.rangeStatus, h]

section Steps

variable {s u : State} {c : Commit} {r : List Commit} {es : List RangeEntry} {cause : Nat}

/-- The check of an image that can be read, or that fails for good: its verdict is written once. -/
theorem rangeCommitCheck_of_status {v : Nat} (h : s.commits = c :: r) (hn : c.verdict = none)
    (hs : s.rangeStatus c = some v) : ∃ t, exec .rangeCommitCheck s = .next t ∧ t.verdictSeq = s.verdictSeq + 1 ∧
      t.lastCommit = BitVec.ofNat 32 v ∧ t.commits = { c with verdict := some (BitVec.ofNat 32 v) } :: r ∧
      t.ranges = s.ranges ∧ t.rgen = s.rgen := by
  refine ⟨_, by simp only [exec_rangeCommitCheck, execRangeCommitCheck, h, hn, hs]; rfl, rfl, rfl, rfl, ?_⟩
  dsimp only
  split <;> simp

theorem rangeSwap_of_refused {v : Word} (h : s.commits = c :: r) (hv : c.verdict = some v) (h1 : v ≠ 1) :
    exec .rangeSwap s = .next (State.rangeAnswer { s with commits := r } c v) := by
  simp only [exec_rangeSwap, execRangeSwap, h, hv, if_neg h1]

variable (h : s.commits = c :: r) (hv : c.verdict = some 1)
include h hv

/-- A verdict of 1 is carried out as the image reads at the swap. -/
theorem rangeSwap_of_swapped (hs : s.stagingEntries c = .ok es)
    (hu : State.swapRanges { s with commits := r } c es = some u) :
    exec .rangeSwap s = .next (u.rangeAnswer c 1) := by
  simp only [exec_rangeSwap, execRangeSwap, h, hv, hs, hu, if_true]

theorem rangeSwap_of_header_moved (hs : s.stagingEntries c = .ok es)
    (hu : State.swapRanges { s with commits := r } c es = none) : exec .rangeSwap s = .next s := by
  simp only [exec_rangeSwap, execRangeSwap, h, hv, hs, hu, if_true]

theorem rangeSwap_of_unread (hs : s.stagingEntries c = .bad cause) : exec .rangeSwap s =
    .next (State.rangeAnswer { s with commits := r } c 0x00040000) := by
  simp only [exec_rangeSwap, execRangeSwap, h, hv, hs, if_true]
  rfl

theorem rangeSwap_of_image_moved (hs : s.stagingEntries c = .wait) : exec .rangeSwap s = .next s := by
  simp only [exec_rangeSwap, execRangeSwap, h, hv, hs, if_true]

end Steps

/-- Settles O43: the check and the swap by what the image reads as, and the status by induction on the entries. -/
theorem rangeCommits : Obligations.RangeCommits := by
  refine ⟨fun s h => ?_, fun s c r v h hv => ?_, fun s c r h hn hs => ?_,
    fun s c r v h hn hs => rangeCommitCheck_of_status h hn hs, fun s c r h hn => ?_, fun s c r v h hv h1 => ?_,
    fun s c r es u h hv hs hu => ⟨rangeSwap_of_swapped h hv hs hu, (swapRanges_rgen hu :),
      fun n e => swapRanges_ranges hu⟩,
    fun s c r es => rangeSwap_of_header_moved, fun s c r cause => rangeSwap_of_unread,
    fun s c r => rangeSwap_of_image_moved, fun es => ?_, fun pre post e hpre => ?_,
    fun s c cause => rangeStatus_of_unread, fun s c => rangeStatus_of_moved, fun s c es => rangeStatus_of_read⟩
  · simp only [exec_rangeCommitCheck, exec_rangeSwap, execRangeCommitCheck, execRangeSwap, h, and_self]
  · simp only [exec_rangeCommitCheck, execRangeCommitCheck, h, hv, Option.isSome_some, if_true]
  · simp only [exec_rangeCommitCheck, execRangeCommitCheck, h, hn, hs, Option.isSome_none, Bool.false_eq_true, if_false]
  · simp only [exec_rangeSwap, execRangeSwap, h, hn]
  · exact ⟨rangeSwap_of_refused h hv h1, rangeAnswer_ranges _ c v, rangeAnswer_rgen _ c v⟩
  · simpa using entriesStatus_eq_one_iff (lower := []) (n := 0) es
  · rw [entriesStatus_append hpre, List.nil_append, Nat.zero_add]
    exact ⟨fun hb => entriesStatus_of_bad hb post, fun hb hm => entriesStatus_of_meets hb hm post,
      fun hb hm hv hk => entriesStatus_of_unbacked hb hm hv hk post⟩

end Sys2Proof.Laws
end

section
/-! SUPPORT. One lane's accesses, and the words of tags and spills (R152-R155, R178, R210-R212, R382). -/

namespace Sys2Proof.Laws

open Sys2Proof.Machine

/-! ### Changes of one core -/

theorem sput_sput {α : Type} (l : Sparse α) (k : Nat) (v w : α) : sput (sput l k v) k w = sput l k w := by
  induction l with
  | nil => simp [sput]
  | cons a r ih =>
    obtain ⟨j, u⟩ := a
    rcases Nat.lt_trichotomy k j with h | rfl | h
    · simp [sput, h]
    · simp [sput]
    · simp [sput, ih, Nat.not_lt.mpr h.le, h.ne']

/-- Two changes of a core that leave it at other than its reset state are one. -/
theorem modCore_modCore (s : State) (c : Nat) {f h : Core → Core} (hf : f (s.core c) ≠ Core.empty)
    (hh : h (f (s.core c)) ≠ Core.empty) : (s.modCore c f).modCore c h = s.modCore c fun k => h (f k) := by
  rw [State.modCore, State.modCore, core_setCore_self s c hf]
  simp only [State.setCore, State.modCore, sset, if_neg hf, if_neg hh, sput_sput]

theorem ne_empty_of_spills {k : Core} (h : k.spills ≠ []) : k ≠ Core.empty := fun e => h (by rw [e]; rfl)

/-! ### The accesses of one lane (R190, R191) -/

@[simp] theorem laneOrder_singleton (s : State) (l : Nat) : s.laneOrder [l] = [l] := rfl

theorem recordOf_of_unrecorded {s : State} {g : Group} (h : s.recorderOf g.gang = none) (c slot : Nat) (cmd : Cmd) :
    s.recordOf c g slot cmd = s := by simp [State.recordOf, h]

/-- A list of commands that no recorder takes. -/
theorem foldl_recordOf_of_unrecorded {s : State} {g : Group} (h : s.recorderOf g.gang = none) (c slot : Nat)
    (cmds : List Cmd) : cmds.foldl (fun s cmd => s.recordOf c g slot cmd) s = s := by
  induction cmds with
  | nil => rfl
  | cons cmd r ih => rw [List.foldl_cons, recordOf_of_unrecorded h, ih]

/-- No lane parks. -/
theorem parkAll_nil (x : Ctx) (s : State) : x.parkAll s [] = s := by
  rw [Ctx.parkAll, Ctx.park, State.park]
  split
  · rfl
  · split
    · rfl
    · exact if_pos rfl

/-- One lane whose accesses are performed goes on with its results, where its gang is not recorded. -/
theorem perLane_singleton {x : Ctx} {t : State} {l : Nat} {k : Wait} {f : State → Nat → LaneRes} {g : Thread → Thread}
    {cmds : List Cmd} (hf : f x.s l = .ok t g cmds) (hr : t.recorderOf x.g.gang = none) :
    x.perLane [l] k f = x.lanesDo t [l] fun _ th => (g th).goto (x.pc + 4) := by
  simp only [Ctx.perLane, lanesRun, List.foldl_cons, List.foldl_nil, hf, sortBy, insertBy, List.isEmpty_nil, if_true,
    Bool.false_eq_true, if_false, parkAll_nil, id]
  simp only [List.map_cons, List.map_nil, List.find?_cons_of_pos, beq_self_eq_true, Option.map_some, Option.getD_some,
    Ctx.lanesDo, List.foldl_cons, List.foldl_nil]
  exact foldl_recordOf_of_unrecorded (s := x.modG t _) hr x.core x.slot cmds

/-- A word whose lanes each perform an access, as its meaning says of each lane. -/
theorem does_perLane {i : Instr} {e f : Ctx → State → Nat → LaneRes}
    (he : ∀ s, exec i s = runWord i s fun x => x.perLane (x.s.laneOrder x.ls) .none (e x))
    (h : ∀ x s l, e x s l = f x s l) : Does i fun x => x.perLane (x.s.laneOrder x.ls) .none (f x) :=
  does_of_eq he fun x => by rw [show e x = f x from funext₂ (h x)]

/-! ### Tags (R152-R155, R210, R382) -/

theorem tagLook_poisoned (d a : BitVec 7) :
    DoesWhen (.tagLook d a) (fun x => x.g.pages.any (x.s.core x.core).tpoison.contains = true) fun x =>
      x.raise Cause.dataerr :=
  doesWhen_of_eq (fun _ => by dsimp only [exec]; rfl) fun _ h => if_pos h

theorem tagLook_clean (d a : BitVec 7) :
    DoesWhen (.tagLook d a) (fun x => x.g.pages.any (x.s.core x.core).tpoison.contains = false) fun x =>
      x.done x.s fun l th =>
        th.setV d.toNat (BitVec.ofNat 32 (tagFind (x.s.core x.core) x.g.pages (fld (x.v64 a.toNat l) 51 12))) :=
  doesWhen_of_eq (fun _ => by dsimp only [exec]; rfl) fun _ h => if_neg (Bool.eq_false_iff.mp h)

/-! ### Spills (R178, R211, R212) -/

theorem splfSt_full (d a k : BitVec 7) :
    DoesWhen (.splfSt d a k) (fun x => 32 ≤ (x.s.core x.core).spills.length) fun x =>
      x.waitAt x.s x.ls (.retry (.splfSt d a k) x.s.stepNo) :=
  doesWhen_of_eq (fun _ => by dsimp only [exec]; rfl) fun _ h => if_pos h

/-- The core with an entry at the end of its forwarding table. -/
def withSpill (p : Spill) (q : Core) : Core := { q with spills := q.spills ++ [p] }

theorem withSpill_ne_empty (p : Spill) (q : Core) : withSpill p q ≠ Core.empty :=
  ne_empty_of_spills (List.concat_ne_nil p q.spills)

/-- The words of a lane join the newest entry of the forwarding table. -/
def joinSpill (gk : Nat) (cells : List (Nat × Word)) (q : Core) : Core :=
  { q with spills := match q.spills.reverse with
      | [] => [⟨gk, cells⟩]
      | e :: r => (⟨gk, e.cells ++ cells⟩ :: r).reverse }

theorem joinSpill_withSpill (gk : Nat) (cells : List (Nat × Word)) (q : Core) :
    joinSpill gk cells (withSpill ⟨gk, []⟩ q) = withSpill ⟨gk, cells⟩ q := by
  simp [joinSpill, withSpill]

theorem modCore_joinSpill (s : State) (c gk : Nat) (cells : List (Nat × Word)) :
    (s.modCore c (withSpill ⟨gk, []⟩)).modCore c (joinSpill gk cells) = s.modCore c (withSpill ⟨gk, cells⟩) := by
  rw [modCore_modCore s c (withSpill_ne_empty _ _)]
  · simp only [joinSpill_withSpill]
  · rw [joinSpill_withSpill]
    exact withSpill_ne_empty _ _

/-- While the forwarding table has room, SPLF.st opens an entry that its lanes join in turn. -/
theorem splfSt_of_room (d a k : BitVec 7) :
    DoesWhen (.splfSt d a k) (fun x => (x.s.core x.core).spills.length < 32) fun x =>
    (Ctx.perLane { x with s := x.s.modCore x.core (withSpill ⟨x.g.gk, []⟩) } (x.s.laneOrder x.ls) .none fun s l =>
      (x.splfAt a k l).lane s fun t =>
        if s.partialPoison t.key 4 then .bad (s.poisonSpan t.key 4 false) Cause.dataerr
        else .ok (s.modCore x.core (joinSpill x.g.gk [(t.key, x.v d.toNat l)])) id
          (storeCmds ((x.v64 a.toNat l).toNat + 4 * k.toNat) (leBytes 4 (x.v d.toNat l).toNat))).modCore x.core fun q =>
      { q with spills := q.spills.filter fun e => !e.cells.isEmpty } :=
  doesWhen_of_eq (fun _ => by dsimp only [exec]; rfl) fun _ h => if_neg h.not_ge

/-- One lane's word makes an entry of its own. -/
theorem splfSt_of_lane (d a k : BitVec 7) {s : State} {x : Ctx} {l : Nat} {t : Xlat} (h : Runs (.splfSt d a k) s x)
    (hl : x.ls = [l]) (hr : x.s.recorderOf x.g.gang = none) (hroom : (x.s.core x.core).spills.length < 32)
    (ht : x.splfAt a k l = .ok t) (hp : x.s.partialPoison t.key 4 = false) :
    exec (.splfSt d a k) s = .next (performed (.splfSt d a k) x fun x =>
      (x.lanesDo (x.s.modCore x.core (withSpill ⟨x.g.gk, [(t.key, x.v d.toNat l)]⟩)) [l] fun _ th =>
        th.goto (x.pc + 4)).modCore x.core fun q =>
          { q with spills := q.spills.filter fun e => !e.cells.isEmpty }) := by
  have hm : x.marked (opndsOf (.splfSt d a k)) = x := marked_of_unrecorded hr _
  rw [splfSt_of_room d a k s x h (by rwa [hm])]
  congr 1
  refine performed_congr ?_
  rw [hm, hl, laneOrder_singleton]
  rw [perLane_singleton (t := x.s.modCore x.core (withSpill ⟨x.g.gk, [(t.key, x.v d.toNat l)]⟩)) (g := id)]
  · rfl
  · simp only [ht, Res.lane, modCore_joinSpill]
    exact if_neg (Bool.eq_false_iff.mp hp)
  · exact hr

/-- One word of an entry goes to the local store. -/
theorem drainSpill_singleton {s : State} {n : Nat} (h : s.partialPoison n 4 = false) (gk : Nat) (v : Word) :
    s.drainSpill ⟨gk, [(n, v)]⟩ = s.put n (leBytes 4 v.toNat) :=
  if_neg (Bool.eq_false_iff.mp h)

theorem exec_spillWrite (core : Nat) (s : State) : exec (.spillWrite core) s = execSpillWrite core s := by
  dsimp only [exec]

theorem spillWrite_of_none {core : Nat} {s : State} (h : (s.core core).spills = []) :
    exec (.spillWrite core) s = .next s := by
  simp only [exec_spillWrite, execSpillWrite, h]

theorem spillWrite_of_oldest {core : Nat} {s : State} {p : Spill} {r : List Spill} (h : (s.core core).spills = p :: r) :
    exec (.spillWrite core) s = .next ((s.modCore core fun k => { k with spills := r }).drainSpill p) := by
  simp only [exec_spillWrite, execSpillWrite, h]

/-- Settles O21: a TAG word acts on the entry of each lane's page, SPLF.st through `splfSt_of_lane`. -/
theorem tagsAndSpills : Obligations.TagsAndSpills := by
  refine ⟨⟨tagLook_poisoned, tagLook_clean, fun a b => ?_, fun b => ?_, fun d b => ?_, fun a b => ?_⟩, splfSt_full,
    fun d a k s x l t => splfSt_of_lane d a k, fun d a k => ?_, fun core s => spillWrite_of_none,
    fun core s p r => spillWrite_of_oldest, fun s gk n v h => drainSpill_singleton h gk v⟩
  all_goals refine does_perLane (fun _ => by dsimp only [exec]; rfl) fun x s l => ?_
  · rfl
  · rfl
  · rfl
  · rfl
  · cases x.splfAt a k l <;> rfl

end Sys2Proof.Laws
end

section
/-! SUPPORT. The fences of a queue set, of regions and of ranges, and the acknowledgement of a cleaning (R158, R175,
R179-R184, R213-R216). -/

namespace Sys2Proof.Laws

open Sys2Proof.Machine

/-! ### FENC.Q (R175) -/

/-- A sequencer enters no operation of a queue of the empty set. -/
theorem seqNames_empty (s : State) (core : Nat) (g : Group) (q : Seq) (fuel n : Nat) :
    s.seqNames core g q 0#6 fuel n = false := by
  induction fuel generalizing n with
  | zero => rfl
  | succ f ih =>
    rw [State.seqNames]
    split
    · split
      · cases queueBit _ <;> simp [ih]
      · rfl
    · rfl
    · rfl

/-- The empty queue set covers no entry. -/
theorem queued_empty (x : Ctx) : x.queued 0#6 = false := by simp [Ctx.queued, seqNames_empty]

section FencQ

variable {x : Ctx} {i : Instr} {q : BitVec 6}

theorem fencQ_of_queued (h : x.queued q = true) : x.fencQ i q = x.waitAt x.s x.ls (.retry i x.s.stepNo) := if_pos h

theorem fencQ_of_done (h : x.queued q = false) (hq : q ≠ 0) :
    x.fencQ i q = x.done (x.s.sync x.core x.g x.slot) fun _ th => th := by
  rw [Ctx.fencQ, h, if_neg Bool.false_ne_true, if_neg hq]

theorem fencQ_empty (x : Ctx) (i : Instr) : x.fencQ i 0#6 = x.done x.s fun _ th => th := by
  rw [Ctx.fencQ, queued_empty, if_neg Bool.false_ne_true]
  rfl

/-- FENC.Q with a constant set. -/
theorem doesWhen_fencQImm {c : Ctx → Prop} {e : Ctx → State} (h : ∀ x, c x → x.fencQ (.fencQImm q) q = e x) :
    DoesWhen (.fencQImm q) c e := doesWhen_of_eq (fun _ => by dsimp only [exec]; rfl) h

end FencQ

/-- FENC.Q names a set of six queues, whose bits above are reserved. -/
theorem fencQReg_of_set (a : BitVec 6) : DoesWhen (.fencQReg a) (fun x => (x.u a.toNat).toNat < 64) fun x =>
    x.fencQ (.fencQReg a) ((x.u a.toNat).setWidth 6) := by
  refine doesWhen_of_eq (fun _ => by dsimp only [exec]; rfl) fun x h => ?_
  rw [BitVec.setWidth_eq_extractLsb' (by decide)]
  exact if_neg (not_not.mpr ((fld_top_eq_zero _ (by decide)).mpr h))

theorem fencQReg_of_reserved (a : BitVec 6) : DoesWhen (.fencQReg a) (fun x => 64 ≤ (x.u a.toNat).toNat) fun x =>
    x.raise Cause.illop :=
  doesWhen_of_eq (fun _ => by dsimp only [exec]; rfl) fun x h =>
    if_pos fun hf => h.not_gt ((fld_top_eq_zero (x.u a.toNat) (k := 6) (by decide)).mp hf)

/-! ### FENC.R (R179-R183, R215) -/

/-- Reading the list changes the state of the set alone, which keeps its order counter. -/
theorem listKept_eq (x : Ctx) (addr : Nat) : ∃ t, x.listKept addr = { x with s := t } ∧ t.fresh = x.s.fresh := by
  rw [Ctx.listKept]
  split
  · exact ⟨_, rfl, fresh_of_unstored (touchSpan_unstored _ _ _ _ _)⟩
  · exact ⟨x.s, rfl, rfl⟩
  · exact ⟨x.s, rfl, rfl⟩

section FencR

variable (a : BitVec 6)

theorem fencR_unaligned : DoesWhen (.fencR a) (fun x => (x.u64 a.toNat).toNat % 16 ≠ 0) fun x =>
    x.raise Cause.align :=
  doesWhen_of_eq (fun _ => by dsimp only [exec]; rfl) fun _ h => if_pos h

theorem fencR_malformed : DoesWhen (.fencR a) (fun x => (x.u64 a.toNat).toNat % 16 = 0 ∧
      x.s.regionList x.space x.die (x.u64 a.toNat).toNat = .ok none) fun x =>
    (x.listKept (x.u64 a.toNat).toNat).raise Cause.prot := by
  refine doesWhen_of_eq (fun _ => by dsimp only [exec]; rfl) fun x ⟨ha, hl⟩ => ?_
  simp only [ha, ne_eq, not_true_eq_false, if_false, hl]

variable (rs : List Region) (cl inv : List Nat) (t : State)

/-- A well-formed list is cleaned and invalidated under the next number of the order counter. -/
theorem fencR_of_list (waits : Bool) : DoesWhen (.fencR a) (fun x => (x.u64 a.toNat).toNat % 16 = 0 ∧
      x.s.regionList x.space x.die (x.u64 a.toNat).toNat = .ok (some rs) ∧
      x.s.listLines x.space rs = .ok (cl, inv) ∧
      (x.listKept (x.u64 a.toNat).toNat).s.bump.startClean cl inv x.s.fresh = (t, waits)) fun x =>
    if waits then x.waitAt t x.ls (.fencR x.s.fresh (x.u64 a.toNat).toNat)
    else x.fenceDone (x.done t fun _ th => th) (x.u64 a.toNat).toNat := by
  refine doesWhen_of_eq (fun _ => by dsimp only [exec]; rfl) fun x ⟨ha, hl, hlines, ht⟩ => ?_
  obtain ⟨y, hy, hf⟩ := listKept_eq x (x.u64 a.toNat).toNat
  rw [hy] at ht
  simp only [ha, ne_eq, not_true_eq_false, if_false, hl, hlines, hy, hf, ht]
  rfl

end FencR

/-! ### FENC.RCOMMIT (R158, R216) -/

theorem fencRcommit_staged (a b : BitVec 6) : DoesWhen (.fencRcommit a b)
    (fun x => (x.u64 a.toNat).toNat % 64 = 0 ∧ x.s.recorderOf x.g.gang = none) fun x =>
    let t := ((x.done x.s fun _ th => th).pendTok x.core x.g.gk (x.slot, b.toNat)).emit
      (.rangeStage (x.u64 a.toNat).toNat)
    { t with commits := t.commits ++
        [⟨x.u64 a.toNat, x.g.ctx, x.g.root, x.core, x.g.gk, x.slot, b.toNat, none, none⟩] } := by
  refine doesWhen_of_eq (fun _ => by dsimp only [exec]; rfl) fun x ⟨ha, hr⟩ => ?_
  simp only [ha, ne_eq, not_true_eq_false, if_false, abandon_of_none hr, emit_commits]

theorem fencRcommit_unaligned (a b : BitVec 6) : DoesWhen (.fencRcommit a b)
    (fun x => (x.u64 a.toNat).toNat % 64 ≠ 0 ∧ x.s.recorderOf x.g.gang = none) fun x => x.raise Cause.align :=
  doesWhen_of_eq (fun _ => by dsimp only [exec]; rfl) fun _ h => if_pos h.1

/-! ### Acknowledgements (R180) -/

theorem exec_cleanAcknowledgement (s : State) : exec .cleanAcknowledgement s = execCleanAcknowledgement s := by
  dsimp only [exec]

theorem cleanAcknowledgement_of_none {s : State} (h : s.cleans = []) : exec .cleanAcknowledgement s = .next s := by
  simp only [exec_cleanAcknowledgement, execCleanAcknowledgement, h]

theorem cleanAcknowledgement_of_oldest {s : State} {c : Clean} {r : List Clean} (h : s.cleans = c :: r) :
    exec .cleanAcknowledgement s = .next
      (let t := (State.homePut { s with cleans := r } c.bytes c.bad).dropLines c.inv
       (t.cores.map Prod.fst).foldl (fun t core => t.fencesResume core c.id) t) := by
  simp only [exec_cleanAcknowledgement, execCleanAcknowledgement, h]

/-- Settles O27: FENC.Q by what its set covers, FENC.R by what cleaning its list leaves to wait for. -/
theorem fences : Obligations.Fences := by
  refine ⟨fun q => doesWhen_fencQImm fun x ⟨h, hq⟩ => fencQ_of_done h hq, ?_,
    fun q => doesWhen_fencQImm fun x h => fencQ_of_queued h, fencQReg_of_set, fencQReg_of_reserved,
    fun x i q => fencQ_of_done, fun x i q => fencQ_of_queued, fun a rs cl inv t => fencR_of_list a rs cl inv t false,
    fun a rs cl inv t => fencR_of_list a rs cl inv t true, fencR_unaligned, fencR_malformed, fencRcommit_staged,
    fencRcommit_unaligned, fun s => cleanAcknowledgement_of_none, fun s c r => cleanAcknowledgement_of_oldest⟩
  exact does_of_eq (fun _ => by dsimp only [exec]; rfl) fun x => fencQ_empty x _

end Sys2Proof.Laws
end

section
/-! SUPPORT. Accesses of the host and of peers to device LPDDR: the holder of a line, raw writes at a home, what
firmware alone writes, and export records (R168, R327-R329, R387). -/

namespace Sys2Proof.Laws

open Sys2Proof.Machine

/-! ### Raw writes at a home (R168) -/

/-- A write of bytes is a write of the first c of them and of the rest behind. -/
theorem writeN_take_drop (m : List Host.Cell) (k c : Nat) (bs : List Byte) :
    Memory.writeN (Memory.writeN m k (bs.take c)) (k + c) (bs.drop c) = Memory.writeN m k bs := by
  induction c generalizing m k bs with
  | zero => rfl
  | succ c ih =>
    cases bs with
    | nil => rfl
    | cons b r =>
      rw [show k + (c + 1) = k + 1 + c by omega]
      exact ih (Memory.write m k b) (k + 1) r

/-- One piece of a raw write: not performed where it covers part of a poisoned unit (R383). -/
def homePiece (s : State) (e : Nat × List Byte) : State :=
  if s.partialPoison e.1 e.2.length then s.poisonSpan e.1 e.2.length false else s.put e.1 e.2

theorem homeWrite_eq_foldl (s : State) (k : Nat) (bs : List Byte) :
    s.homeWrite k bs = ((cut8 k bs (bs.length + 1)).foldl homePiece s).disown k bs.length := rfl

theorem put_poison_nil {s : State} (h : s.poison = []) (k : Nat) (bs : List Byte) : (s.put k bs).poison = [] := by
  simp [State.put, State.clearCovered, h]

/-- Where nothing is poisoned every piece is performed. -/
theorem homePiece_of_clean {s : State} (h : s.poison = []) (e : Nat × List Byte) : homePiece s e = s.put e.1 e.2 :=
  if_neg (by simp [State.partialPoison, h])

/-- The pieces of a run together write the run. -/
theorem foldl_homePiece_mem {s : State} (h : s.poison = []) {n : Nat} {bs : List Byte} (hn : bs.length ≤ n) (k : Nat) :
    ((cut8 k bs n).foldl homePiece s).mem = Memory.writeN s.mem k bs := by
  induction n generalizing s k bs with
  | zero =>
    obtain rfl : bs = [] := List.eq_nil_of_length_eq_zero (by omega)
    rfl
  | succ n ih =>
    cases bs with
    | nil => rfl
    | cons b r =>
      have hdrop : ((b :: r).drop (8 - k % 8)).length ≤ n := by
        simp only [List.length_drop, List.length_cons] at hn ⊢
        omega
      rw [cut8, List.foldl_cons, homePiece_of_clean h, ih (put_poison_nil h k _) hdrop, put_mem, writeN_take_drop]
      exact List.cons_ne_nil b r

/-- A raw write at a home where nothing is poisoned writes its bytes. -/
theorem homeWrite_mem {s : State} (h : s.poison = []) (k : Nat) (bs : List Byte) :
    (s.homeWrite k bs).mem = Memory.writeN s.mem k bs := by
  rw [homeWrite_eq_foldl]
  exact foldl_homePiece_mem h (Nat.le_succ _) k

/-! ### What firmware alone writes (log 72) -/

theorem firmwareSpan_iff (k n : Nat) : firmwareSpan k n = true ↔
    (k < Config.apertureTable + 4096 ∧ Config.apertureTable < k + n) ∨
    (k < Config.exportTable + 4096 ∧ Config.exportTable < k + n) ∨ (k < lpddrEnd ∧ Config.mgmtArea < k + n) := by
  simp [firmwareSpan, or_assoc]

/-- Two spans that are not empty meet when a byte lies in both. -/
theorem meets_iff_exists {k n lo hi : Nat} (hn : 0 < n) (h : lo < hi) :
    k < hi ∧ lo < k + n ↔ ∃ j, (k ≤ j ∧ j < k + n) ∧ j < hi ∧ lo < j + 1 := by
  constructor
  · rintro ⟨hk, hlo⟩
    exact ⟨max k lo, by omega, by omega, by omega⟩
  · rintro ⟨j, hj⟩
    omega

/-- A span meets what firmware alone writes when one of its bytes is such a byte. -/
theorem firmwareSpan_iff_exists {n : Nat} (hn : 0 < n) (k : Nat) :
    firmwareSpan k n = true ↔ ∃ j, (k ≤ j ∧ j < k + n) ∧ firmwareOnly j = true := by
  simp only [firmwareOnly, firmwareSpan_iff, and_or_left, exists_or]
  exact or_congr (meets_iff_exists hn (by decide))
    (or_congr (meets_iff_exists hn (by decide)) (meets_iff_exists hn (by decide)))

theorem hostWrites_iff {n : Nat} (hn : 0 < n) (k : Nat) :
    hostWrites k n = true ↔ k + n ≤ lpddrEnd ∧ ∀ j, k ≤ j → j < k + n → firmwareOnly j = false := by
  have hspan : firmwareSpan k n = false ↔ ∀ j, k ≤ j → j < k + n → firmwareOnly j = false := by
    rw [← Bool.not_eq_true, firmwareSpan_iff_exists hn]
    simp
  simp [hostWrites, hspan]

theorem le_lpddrEnd_of_hostWrites {k n : Nat} (h : hostWrites k n = true) : k + n ≤ lpddrEnd := by
  simp only [hostWrites, Bool.and_eq_true, decide_eq_true_eq] at h
  exact h.1

/-! ### Accesses of the host (R168, R327, R387) -/

/-- A line waits for no die where every die that holds one is up or lost. -/
theorem holder_eq_none {s : State}
    (h : ∀ e ∈ s.owned, ∀ d, s.dies[e.2]? = some d → d.link = .up ∨ d.link = .lost) (a n : Nat) :
    s.holder a n = none := by
  have hreach : ∀ e ∈ s.owned, (s.dies[e.2]?).any (fun d => d.link != .up && d.link != .lost) = false := by
    intro e he
    cases hd : s.dies[e.2]? with
    | none => rfl
    | some d => rcases h e he d hd with hl | hl <;> simp [hl]
  rw [State.holder, List.find?_eq_none.2 fun e he => by simp [hreach e he], Option.map_none]

theorem exec_hostCxlMemRead (a n : Nat) (s : State) : exec (.hostCxlMemRead a n) s = .next
    (if s.linksUp && decide (a + n ≤ lpddrEnd) then s.hostAccess a n (.read a n) else s.reply .refused) := rfl

theorem hostCxlMemRead_performed {a n : Nat} {s : State} (hup : s.linksUp = true) (ha : a + n ≤ lpddrEnd) :
    exec (.hostCxlMemRead a n) s = .next (s.hostAccess a n (.read a n)) := by
  simp [exec_hostCxlMemRead, hup, ha]

theorem hostCxlMemRead_refused {a n : Nat} {s : State} (h : s.linksUp = false ∨ lpddrEnd < a + n) :
    exec (.hostCxlMemRead a n) s = .next (s.reply .refused) := by
  rcases h with h | h <;> simp [exec_hostCxlMemRead, h]

theorem exec_hostCxlMemWrite (a : Nat) (bs : List Byte) (s : State) : exec (.hostCxlMemWrite a bs) s = .next
    (if s.linksUp && hostWrites a bs.length then s.hostAccess a bs.length (.write a bs) else s.reply .refused) := rfl

theorem hostCxlMemWrite_performed {a : Nat} {bs : List Byte} {s : State} (hup : s.linksUp = true)
    (hw : hostWrites a bs.length = true) :
    exec (.hostCxlMemWrite a bs) s = .next (s.hostAccess a bs.length (.write a bs)) := by
  simp [exec_hostCxlMemWrite, hup, hw]

theorem hostCxlMemWrite_refused {a : Nat} {bs : List Byte} {s : State}
    (h : s.linksUp = false ∨ hostWrites a bs.length = false) :
    exec (.hostCxlMemWrite a bs) s = .next (s.reply .refused) := by
  rcases h with h | h <;> simp [exec_hostCxlMemWrite, h]

theorem hostAccess_of_none {s : State} {a n : Nat} (h : s.holder a n = none) (r : HeldReq) :
    s.hostAccess a n r = s.serve 0 r := by
  simp only [State.hostAccess, h]

/-- A write of the host that waits for no die, where nothing is poisoned, is read back; every other byte stays. -/
theorem hostCxlMemWrite_bytes {a : Nat} {bs : List Byte} {s t : State} (hs : Sound s) (hup : s.linksUp = true)
    (hw : hostWrites a bs.length = true) (hh : s.holder a bs.length = none) (hp : s.poison = [])
    (ht : exec (.hostCxlMemWrite a bs) s = .next t) :
    t.bytes a bs.length = bs ∧ ∀ k, k < a ∨ a + bs.length ≤ k → t.bytes k 1 = s.bytes k 1 := by
  have hm : Memory.wf s.mem = true := hs
  rw [hostCxlMemWrite_performed hup hw, hostAccess_of_none hh] at ht
  have hmem : t.mem = Memory.writeN s.mem a bs := by
    injection ht with ht
    rw [← ht]
    exact homeWrite_mem hp a bs
  simp only [State.bytes, hmem]
  exact ⟨readN_writeN hm a bs, fun k hk => readN_writeN_outside hm (by omega)⟩

/-! ### Requests of peers (R329) -/

/-- A valid record of the peer that allows the kind over the span. -/
theorem exported_of_record {s : State} {e : BitVec 18} {kind lo hi n : Nat} (hn : n < 256)
    (he : nbits (s.exportRecord n) 17 0 = e.toNat) (hv : nbit (s.exportRecord n) 18 = true)
    (hk : nbit (s.exportRecord n) kind = true) (hlo : 4096 * nbits (s.exportRecord n) 92 64 ≤ lo)
    (hhi : hi ≤ 4096 * nbits (s.exportRecord n) 121 93) : s.exported e kind lo hi = true :=
  List.any_eq_true.2 ⟨n, List.mem_range.2 hn, by simp [he, hv, hk, hlo, hhi]⟩

/-- A peer's access of a kind to n bytes is allowed. -/
def peerAllowed (s : State) (e : BitVec 18) (a kind n : Nat) : Bool :=
  s.linksUp && decide (a + n ≤ lpddrEnd) && s.exported e kind a (a + n) && (kind == 19 || hostWrites a n)

theorem exec_peerLoad (e : BitVec 18) (a n : Nat) (s : State) : exec (.peerRequest e a (.load n)) s = .next
    (if peerAllowed s e a 19 n then s.reply (.data (s.bytes a n) (s.poisoned a n)) else s.reply .refused) := rfl

theorem exec_peerStore (e : BitVec 18) (a : Nat) (bs : List Byte) (s : State) :
    exec (.peerRequest e a (.store bs)) s = .next
      (if peerAllowed s e a 20 bs.length then s.peerStore a bs else s.reply .refused) := rfl

theorem exec_peerAtom (e : BitVec 18) (a : Nat) (op : AtomOp) (w : Bool) (v new : DWord) (s : State) :
    exec (.peerRequest e a (.atom op w v new)) s = .next
      (if peerAllowed s e a 20 (if w then 8 else 4) then s.peerAtom a (if w then 8 else 4) op
          (v.toNat % 2 ^ (8 * if w then 8 else 4)) (new.toNat % 2 ^ (8 * if w then 8 else 4))
        else s.reply .refused) := rfl

theorem peerAllowed_load {s : State} {e : BitVec 18} {a n : Nat} (hup : s.linksUp = true) (ha : a + n ≤ lpddrEnd)
    (hx : s.exported e 19 a (a + n) = true) : peerAllowed s e a 19 n = true := by
  simp [peerAllowed, hup, ha, hx]

theorem peerAllowed_write {s : State} {e : BitVec 18} {a n : Nat} (hup : s.linksUp = true)
    (hw : hostWrites a n = true) (hx : s.exported e 20 a (a + n) = true) : peerAllowed s e a 20 n = true := by
  simp [peerAllowed, hup, le_lpddrEnd_of_hostWrites hw, hx, hw]

theorem peerAllowed_of_down {s : State} (h : s.linksUp = false) (e : BitVec 18) (a kind n : Nat) :
    peerAllowed s e a kind n = false := by
  simp [peerAllowed, h]

theorem peerAllowed_of_not_exported {s : State} {e : BitVec 18} {a kind n : Nat}
    (h : s.exported e kind a (a + n) = false) : peerAllowed s e a kind n = false := by
  simp [peerAllowed, h]

theorem peerAllowed_write_of_not {s : State} {e : BitVec 18} {a n : Nat}
    (h : s.exported e 20 a (a + n) = false ∨ hostWrites a n = false) : peerAllowed s e a 20 n = false := by
  rcases h with h | h
  · exact peerAllowed_of_not_exported h
  · simp [peerAllowed, h]

theorem peerLoad_refused {e : BitVec 18} {a n : Nat} {s : State} (h : peerAllowed s e a 19 n = false) :
    exec (.peerRequest e a (.load n)) s = .next (s.reply .refused) := by
  simp [exec_peerLoad, h]

theorem peerStore_refused {e : BitVec 18} {a : Nat} {bs : List Byte} {s : State}
    (h : peerAllowed s e a 20 bs.length = false) :
    exec (.peerRequest e a (.store bs)) s = .next (s.reply .refused) := by
  simp [exec_peerStore, h]

theorem peerAtom_refused {e : BitVec 18} {a : Nat} {w : Bool} {s : State}
    (h : peerAllowed s e a 20 (if w then 8 else 4) = false) (op : AtomOp) (v new : DWord) :
    exec (.peerRequest e a (.atom op w v new)) s = .next (s.reply .refused) := by
  rw [exec_peerAtom, if_neg (by simp [h])]

/-- Before boot stage 5 every request of a peer is refused. -/
theorem peerRequest_of_down {s : State} (h : s.linksUp = false) (e : BitVec 18) (a : Nat) (k : PeerKind) :
    exec (.peerRequest e a k) s = .next (s.reply .refused) := by
  cases k with
  | load n => exact peerLoad_refused (peerAllowed_of_down h e a 19 n)
  | store bs => exact peerStore_refused (peerAllowed_of_down h e a 20 bs.length)
  | atom op w v new => exact peerAtom_refused (peerAllowed_of_down h e a 20 _) op v new

theorem peerAtom_of_clean {s : State} {a n : Nat} (h : s.poisoned a n = false) (op : AtomOp) (v new : Nat) :
    s.peerAtom a n op v new = (s.putNum a n (atomNew op (8 * n) (s.num a n) v new)).reply
      (.data (leBytes n (s.num a n)) false) := by
  simp [State.peerAtom, h]

/-! ### The statement -/

/-- Settles O46: the host's accesses by whether a die holds the line, and the requests of peers by whether a record
allows them. -/
theorem hostMemory : Obligations.HostMemory := by
  refine ⟨?read, fun a n s => hostCxlMemRead_refused, fun s a n h => holder_eq_none h a n, ?write,
    fun a bs s t => hostCxlMemWrite_bytes, fun a bs s => hostCxlMemWrite_refused, fun a n hn => hostWrites_iff hn a,
    fun s e kind lo hi n => exported_of_record, ?load, ?store, ?atom, fun e a k s h => peerRequest_of_down h e a k,
    fun e a n s h => peerLoad_refused (peerAllowed_of_not_exported h),
    fun e a bs s h => peerStore_refused (peerAllowed_write_of_not h),
    fun e a op w v new s h => peerAtom_refused (peerAllowed_write_of_not h) op v new⟩
  case read =>
    intro a n s hup ha
    rw [hostCxlMemRead_performed hup ha, State.hostAccess]
    cases s.holder a n <;> rfl
  case write =>
    intro a bs s hup hw
    rw [hostCxlMemWrite_performed hup hw, State.hostAccess]
    cases s.holder a bs.length <;> rfl
  case load =>
    intro e a n s hup ha hx
    rw [exec_peerLoad, if_pos (peerAllowed_load hup ha hx)]
    rfl
  case store =>
    intro e a bs s hup hw hx
    rw [exec_peerStore, if_pos (peerAllowed_write hup hw hx)]
  case atom =>
    intro e a op v new s hup hw hx hp
    have hallowed : peerAllowed s e a 20 (if false = true then 8 else 4) = true := peerAllowed_write hup hw hx
    rw [exec_peerAtom, if_pos hallowed]
    exact congrArg _ (peerAtom_of_clean hp op _ _)

end Sys2Proof.Laws
end

section
/-! SUPPORT. Arrivals at barriers and at SYNCW, and the threads that a complete barrier releases (R234-R237, R295). -/

namespace Sys2Proof.Laws

open Sys2Proof.Machine

/-! ### Lists -/

theorem eraseDups_of_nodup {α : Type} [BEq α] [LawfulBEq α] {l : List α} (h : l.Nodup) : l.eraseDups = l := by
  induction l with
  | nil => rfl
  | cons a r ih =>
    obtain ⟨ha, hr⟩ := List.nodup_cons.mp h
    have hkeep : r.filter (fun b => !b == a) = r :=
      List.filter_eq_self.mpr fun b hb => by simpa using fun e : b = a => ha (e ▸ hb)
    rw [List.eraseDups_cons, hkeep, ih hr]

/-- A list named by each of some entries is named once. -/
theorem eraseDups_flatMap_const {α β : Type} [BEq α] [LawfulBEq α] {r : List α} (hr : r.Nodup) {l : List β}
    (h : l ≠ []) : (l.flatMap fun _ => r).eraseDups = r := by
  obtain ⟨a, l, rfl⟩ := List.exists_cons_of_ne_nil h
  have hnew : (l.flatMap fun _ => r).removeAll r = [] := by
    simp only [List.removeAll, List.filter_eq_nil_iff, List.mem_flatMap]
    rintro b ⟨-, -, hb⟩
    simpa using hb
  rw [List.flatMap_cons, List.eraseDups_append, hnew, eraseDups_of_nodup hr, List.eraseDups_nil, List.append_nil]

/-! ### BAR (R234, R295) -/

/-- A word does what its effect comes to at every set that meets a condition; a set that runs has lanes. -/
theorem doesWhen_of_lanes {i : Instr} {c : Ctx → Prop} {e f : Ctx → State} (he : ∀ s, exec i s = runWord i s e)
    (h : ∀ x, x.ls ≠ [] → c x → e x = f x) : DoesWhen i c f := by
  intro s x hr hc
  obtain ⟨t, ht⟩ := marked_eq x (opndsOf i)
  have hls : (x.marked (opndsOf i)).ls ≠ [] := by
    rw [ht]
    exact ls_ne_nil_of_ctxOf (x := x) hr.set
  rw [he, runWord_of_runs e hr, performed_congr (h _ hls hc)]

/-- No lane of an empty mask parks. -/
@[simp] theorem park_zero (x : Ctx) (s : State) (bits : Word) : x.park s 0 bits = s := by
  rw [Ctx.park, State.park]
  split
  · rfl
  · split
    · rfl
    · exact if_pos rfl

@[simp] theorem maskOf_nil : maskOf [] = 0 := rfl

section Bar

variable {x : Ctx} {n : Nat}

theorem filter_barOk (h : ∀ l ∈ x.ls, x.barOk n l = true) :
    x.ls.filter (x.barOk n) = x.ls ∧ x.ls.filter (fun l => !x.barOk n l) = [] :=
  ⟨List.filter_eq_self.mpr h, List.filter_eq_nil_iff.mpr fun l hl => by simp [h l hl]⟩

theorem filter_not_barOk (h : ∀ l ∈ x.ls, x.barOk n l = false) :
    x.ls.filter (x.barOk n) = [] ∧ x.ls.filter (fun l => !x.barOk n l) = x.ls :=
  ⟨List.filter_eq_nil_iff.mpr fun l hl => by simp [h l hl], List.filter_eq_self.mpr fun l hl => by simp [h l hl]⟩

end Bar

theorem bar_own : DoesWhen (.bar 0) (fun x => ∀ l ∈ x.ls, x.barOk 0 l = true) fun x =>
    x.settle ((x.lanesDo x.s x.ls fun _ th => th.goto (x.pc + 4)).sync x.core x.g x.slot) := by
  refine doesWhen_of_lanes (fun _ => by dsimp only [exec]; rfl) fun x hls h => ?_
  obtain ⟨hok, hbad⟩ := filter_barOk h
  have h0 : (0 : BitVec 3).toNat = 0 := rfl
  simp only [h0, hok, hbad, List.isEmpty_eq_false_iff.mpr hls, maskOf_nil, park_zero, if_true,
    Bool.false_eq_true, if_false]
  rfl

theorem bar_waits {k : BitVec 3} (hk : k ≠ 0) : DoesWhen (.bar k) (fun x => ∀ l ∈ x.ls, x.barOk k.toNat l = true)
    fun x => x.settle (x.lanesDo x.s x.ls fun _ th =>
      { th with wait := .bar k.toNat (decide (k.toNat ≤ Rec.groupLevel x.g.record)) }) := by
  refine doesWhen_of_lanes (fun _ => by dsimp only [exec]; rfl) fun x hls h => ?_
  obtain ⟨hok, hbad⟩ := filter_barOk h
  have hn : k.toNat ≠ 0 := fun e => hk (BitVec.eq_of_toNat_eq e)
  simp only [hok, hbad, List.isEmpty_eq_false_iff.mpr hls, hn, maskOf_nil, park_zero, Bool.false_eq_true, if_false]

theorem bar_without_unit (k : BitVec 3) : DoesWhen (.bar k) (fun x => ∀ l ∈ x.ls, x.barOk k.toNat l = false)
    fun x => x.settle (x.park x.s (maskOf x.ls) (Cause.bit Cause.syncmask)) := by
  refine doesWhen_of_eq (fun _ => by dsimp only [exec]; rfl) fun x h => ?_
  obtain ⟨hok, hbad⟩ := filter_not_barOk h
  simp only [hok, hbad, List.isEmpty_nil, if_true]

/-! ### Barriers that complete (R234-R236) -/

theorem barLevel_eq_some {w : Wait} {k : Nat} : w.barLevel = some k ↔ ∃ c, w = .bar k c := by
  cases w <;> simp [Wait.barLevel]

theorem atBar_iff {w : Wait} {k : Nat} : w.atBar k = true ↔ ∃ c, w = .bar k c := by
  cases w <;> simp [Wait.atBar]

/-- The threads whose barrier, of a level within the group, every live thread of their unit waits at. -/
theorem mem_barDone {g : Group} {t : Nat} : t ∈ g.barDone ↔ ∃ th k c, (t, th) ∈ g.threads ∧ th.wait = .bar k c ∧
    k ≤ Rec.groupLevel g.record ∧
    ∀ u uh, (u, uh) ∈ g.threads → uh.lvl.drop k = th.lvl.drop k → ∃ c', uh.wait = .bar k c' := by
  have hunit (k : Nat) (th : Thread) : (g.threads.all fun (_, u) => !sameUnit k th u || u.wait.atBar k) = true ↔
      ∀ u uh, (u, uh) ∈ g.threads → uh.lvl.drop k = th.lvl.drop k → ∃ c', uh.wait = .bar k c' := by
    simp only [List.all_eq_true, Prod.forall, Bool.or_eq_true, Bool.not_eq_true', sameUnit, beq_eq_false_iff_ne,
      atBar_iff, eq_comm (a := th.lvl.drop k), ne_eq, or_iff_not_imp_left, not_not]
  unfold Group.barDone
  simp only [List.mem_map, List.mem_filter, Prod.exists, exists_and_right, exists_eq_right]
  refine exists_congr fun th => ?_
  cases hl : th.wait.barLevel with
  | none =>
    simp only [Bool.false_eq_true, and_false, false_iff]
    rintro ⟨k, c, -, hw, -⟩
    simp [hw, Wait.barLevel] at hl
  | some k =>
    obtain ⟨c, hw⟩ := barLevel_eq_some.mp hl
    simp only [hw, Bool.and_eq_true, decide_eq_true_eq, hunit, Wait.bar.injEq]
    constructor
    · rintro ⟨ht, hk, hall⟩
      exact ⟨k, c, ht, ⟨rfl, rfl⟩, hk, hall⟩
    · rintro ⟨_, _, ht, ⟨rfl, rfl⟩, hk, hall⟩
      exact ⟨ht, hk, hall⟩

theorem exec_barrierComplete (core gk : Nat) (k : BitVec 3) (thread : Nat) (s : State) :
    exec (.barrierComplete core gk k thread) s = execBarrierComplete core gk k thread s := by dsimp only [exec]

/-! ### SYNCW (R237) -/

/-- A change of no lane. -/
theorem lanesDo_nil (x : Ctx) (s : State) (f : Nat → Thread → Thread) : x.lanesDo s [] f = x.modG s id := rfl

theorem lanesDo_congr {x : Ctx} {ls : List Nat} {f h : Nat → Thread → Thread} (hf : ∀ l ∈ ls, f l = h l) (s : State) :
    x.lanesDo s ls f = x.lanesDo s ls h := by
  have hfold (g : Group) : ls.foldl (fun (g : Group) l => g.modThread (x.slotOf l) (f l)) g =
      ls.foldl (fun (g : Group) l => g.modThread (x.slotOf l) (h l)) g := by
    refine List.foldl_ext _ _ _ fun g l hl => ?_
    rw [hf l hl]
  simp only [Ctx.lanesDo, hfold]

section Syncw

variable {x : Ctx} {m : Nat → Mask}

/-- Lanes that name a set without themselves, or one with a dead lane. -/
theorem syncw_of_stray (hw : x.g.syncWaiters x.w = [])
    (h : ∀ l ∈ x.ls, (m l).getLsbD l = false ∨ m l &&& ~~~(maskOf (x.g.liveLanes x.w)) ≠ 0) :
    x.syncw m = x.settle (x.park (x.lanesDo (x.lanesDo x.s [] fun _ th => th) [] fun _ th => th)
      (maskOf x.ls) (Cause.bit Cause.syncmask)) := by
  have hodd : x.ls.filter (fun l => !(m l).getLsbD l || (m l &&& ~~~(maskOf (x.g.liveLanes x.w))) != 0) = x.ls :=
    List.filter_eq_self.mpr fun l hl => by simpa using h l hl
  have harr : x.ls.filter (fun l => !x.ls.contains l) = [] := List.filter_eq_nil_iff.mpr fun l hl => by simp [hl]
  simp only [Ctx.syncw, hw, hodd, harr, List.filter_nil, List.map_nil, List.append_nil, List.foldl_nil, List.flatMap_nil,
    List.eraseDups_nil, List.isEmpty_nil, if_true, lanesDo_nil]

end Syncw

theorem getLsbD_of_andNot {a b : Mask} (h : a &&& ~~~b = 0) {l : Nat} (hl : a.getLsbD l = true) : b.getLsbD l = true := by
  have hbit := congrArg (BitVec.getLsbD · l) h
  have hlt := BitVec.lt_of_getLsbD hl
  simpa [hl, hlt] using hbit

/-- The arrivals of lanes that all name one mask. -/
def arrivals (x : Ctx) (k : Mask) : List (Nat × Mask) := x.ls.map fun l => (l, k)

section Arrivals

variable {x : Ctx} {k : Mask}

theorem mem_arrivals {e : Nat × Mask} : e ∈ arrivals x k ↔ x.lanes.getLsbD e.1 = true ∧ e.2 = k := by
  obtain ⟨l, n⟩ := e
  simp only [arrivals, List.mem_map, Ctx.ls, mem_maskLanes, Prod.mk.injEq]
  constructor
  · rintro ⟨_, hl, rfl, rfl⟩
    exact ⟨hl, rfl⟩
  · rintro ⟨hl, rfl⟩
    exact ⟨l, hl, rfl, rfl⟩

theorem arrivals_lanes (x : Ctx) (k : Mask) : (arrivals x k).map Prod.fst = x.ls := by
  rw [arrivals, List.map_map]
  exact List.map_id _

/-- The lanes that one mask names, named by every arrival. -/
theorem arrivals_named (h : x.ls ≠ []) : ((arrivals x k).flatMap fun e => maskLanes e.2).eraseDups = maskLanes k := by
  rw [arrivals, List.flatMap_map]
  exact eraseDups_flatMap_const (maskLanes_nodup k) h

/-- No arrival names another mask. -/
theorem arrivals_agree (x : Ctx) (k : Mask) : ((arrivals x k).filter fun e => (arrivals x k).any fun p =>
    e.2.getLsbD p.1 && p.2 != e.2) = [] := by
  simp only [List.filter_eq_nil_iff, List.any_eq_true, Bool.and_eq_true, bne_iff_ne, not_exists, not_and, not_not]
  intro e he p hp _
  rw [(mem_arrivals.mp he).2, (mem_arrivals.mp hp).2]

/-- All that an arrival names have arrived exactly when it names the issuing set. -/
theorem arrivals_full (hin : x.lanes &&& ~~~k = 0) {e : Nat × Mask} (he : e ∈ arrivals x k) :
    ((maskLanes e.2).all fun j => (arrivals x k).contains (j, e.2)) = decide (k = x.lanes) := by
  rw [(mem_arrivals.mp he).2, Bool.eq_iff_iff, decide_eq_true_eq, List.all_eq_true]
  simp only [mem_maskLanes, List.contains_iff_mem, mem_arrivals, and_true]
  constructor
  · intro h
    refine BitVec.eq_of_getLsbD_eq fun i _ => ?_
    rw [Bool.eq_iff_iff]
    exact ⟨h i, getLsbD_of_andNot hin⟩
  · rintro rfl j hj
    exact hj

/-- What SYNCW comes to where no lane waits at one and all lanes name k, with themselves and live lanes only: those
whose masks are full go on, the others wait. -/
theorem syncw_of_common {m : Nat → Mask} (hw : x.g.syncWaiters x.w = []) (hm : ∀ l ∈ x.ls, m l = k)
    (hin : x.lanes &&& ~~~k = 0) (hlive : k &&& ~~~(maskOf (x.g.liveLanes x.w)) = 0)
    (hls : k = x.lanes → x.ls ≠ []) :
    x.syncw m = x.settle (if k = x.lanes then
        x.lanesDo ((x.lanesDo x.s x.ls fun _ th => { th with pc := th.pc + 4, wait := .none }).sync x.core x.g x.slot) []
          fun _ th => th
      else x.lanesDo (x.lanesDo x.s [] fun _ th => th) x.ls fun _ th => { th with wait := .syncw k }) := by
  have hodd : x.ls.filter (fun l => !(m l).getLsbD l || (m l &&& ~~~(maskOf (x.g.liveLanes x.w))) != 0) = [] :=
    List.filter_eq_nil_iff.mpr fun l hl => by
      simp [hm l hl, hlive, getLsbD_of_andNot hin (mem_maskLanes.mp hl)]
  have hkeep : x.ls.filter (fun l => !([] : List Nat).contains l) = x.ls := List.filter_eq_self.mpr fun _ _ => rfl
  have harr : x.ls.map (fun l => (l, m l)) = arrivals x k := List.map_congr_left fun l hl => by rw [hm l hl]
  have hcome : (arrivals x k).filter (fun e => !([] : List (Nat × Mask)).contains e) = arrivals x k :=
    List.filter_eq_self.mpr fun _ _ => rfl
  have hgo := List.filter_congr fun _ => arrivals_full hin
  have hstay := List.filter_congr fun _ he => congrArg Bool.not (arrivals_full hin he)
  simp only [Ctx.syncw, hw, hodd, hkeep, harr, arrivals_agree, hcome, hgo, hstay, List.filter_nil, List.map_nil,
    List.append_nil, List.nil_append, maskOf_nil, park_zero, List.isEmpty_nil, if_true, lanesDo_nil]
  obtain rfl | hk := eq_or_ne k x.lanes
  · have hne : ¬(maskLanes x.lanes).isEmpty = true := fun h => hls rfl (List.isEmpty_iff.mp h)
    simp only [decide_true, List.filter_true, Bool.not_true, List.filter_false, List.map_nil, if_true, lanesDo_nil,
      arrivals_named (hls rfl), if_neg hne]
    rfl
  · simp only [hk, decide_false, List.filter_true, Bool.not_false, List.filter_false, if_false, List.flatMap_nil,
      List.eraseDups_nil, List.isEmpty_nil, if_true, lanesDo_nil, arrivals_lanes]
    rw [lanesDo_congr fun l hl => by rw [hm l hl]]

end Arrivals

/-! ### The statement -/

/-- Settles O29: BAR by whether its lanes have the unit, SYNCW by `syncw_of_common` and `syncw_of_stray`. -/
theorem barriersAndSyncw : Obligations.BarriersAndSyncw := by
  refine ⟨⟨bar_own, fun k => bar_waits, bar_without_unit, fun g t => mem_barDone,
      fun core gk s => by dsimp only [exec]; rfl, fun core gk k thread s h => ?gone,
      fun core gk k thread s g h ht hr => ?complete, fun core gk k thread s g h hr => ?incomplete⟩,
    fun a => does_of_eq (fun _ => by dsimp only [exec]; rfl) fun x => rfl,
    fun a => does_of_eq (fun _ => by dsimp only [exec]; rfl) fun x => rfl,
    fun x m hne hw hm hlive => ?own, fun x k m hw hm hin hk hlive => ?greater, fun x m => syncw_of_stray⟩
  case gone => simp only [exec_barrierComplete, execBarrierComplete, h]
  case complete => simp only [exec_barrierComplete, execBarrierComplete, h, ht, hr, Bool.and_self, if_true]
  case incomplete =>
    simp only [exec_barrierComplete, execBarrierComplete, h, hr, Bool.and_false, Bool.false_eq_true, if_false]
  case own =>
    rw [syncw_of_common hw hm (by simp) hlive fun _ => hne, if_pos rfl]
  case greater =>
    rw [syncw_of_common hw hm hin hlive fun e => absurd e hk, if_neg hk]

end Sys2Proof.Laws
end

section
/-! SUPPORT. The Shuffler's launches and injections, and what has waited AGEMAX (R223-R226, R239). -/

namespace Sys2Proof.Laws

open Sys2Proof.Machine

/-! ### Launches (R225) -/

theorem exec_warpLaunch (core gk : Nat) (s : State) : exec (.warpLaunch core gk) s = execWarpLaunch core gk s := by
  dsimp only [exec]

section Launch

variable {core gk slot : Nat} {s : State} {g : Group} {b : Bin}

theorem warpLaunch_performed (hg : (s.core core).group? gk = some g) (hstop : g.stop = none)
    (hslot : g.launchSlot s.clk = some slot) (hclk : (s.core core).launched ≠ some s.clk)
    (hbin : minBy (fun b => (b.threads.headD (0, 0)).2)
      ((s.core core).bins.filter fun b => b.gk == gk && (s.core core).binReady b) = some b) :
    exec (.warpLaunch core gk) s = .next (((s.modWarp core gk slot fun w =>
      w.launched ((b.threads.take 32).map Prod.fst) s.fresh).modCore core fun k =>
        { k.takeBin b.num 32 g.binTime with launched := some s.clk }).bump) := by
  simp only [exec_warpLaunch, execWarpLaunch, hg, hstop, hslot, hbin, if_neg hclk]

/-- A core launches once in a clock. -/
theorem warpLaunch_again (h : (s.core core).launched = some s.clk) : exec (.warpLaunch core gk) s = .next s := by
  rw [exec_warpLaunch, execWarpLaunch]
  cases (s.core core).group? gk with
  | none => rfl
  | some g => simp only [h, if_true]

theorem warpLaunch_gone (h : (s.core core).group? gk = none) : exec (.warpLaunch core gk) s = .next s := by
  simp only [exec_warpLaunch, execWarpLaunch, h]

/-- A group that is stopping, or without a slot, launches nothing. -/
theorem warpLaunch_barred (hg : (s.core core).group? gk = some g)
    (h : g.stop.isSome = true ∨ g.launchSlot s.clk = none) : exec (.warpLaunch core gk) s = .next s := by
  rw [exec_warpLaunch, execWarpLaunch]
  simp only [hg]
  split
  · rfl
  · rcases h with h | h
    · obtain ⟨p, hp⟩ := Option.isSome_iff_exists.mp h
      simp only [hp]
    · cases g.stop <;> simp only [h]

end Launch

/-! ### Injections (R226) -/

theorem exec_injection (core bin : Nat) (s : State) : exec (.injection core bin) s = execInjection core bin s := by
  dsimp only [exec]

section Injection

variable {core bin : Nat} {s : State} {g : Group} {b : Bin}

theorem injection_performed (hb : (s.core core).bins.find? (fun b => b.num == bin) = some b)
    (hg : (s.core core).group? b.gk = some g) (hstop : g.stop = none) (hslot : g.freeSlot = none)
    (he : b.expired = true) :
    exec (.injection core bin) s = .next
      (let ps := b.threads.zip g.freeLanes
       (s.modGroup core b.gk fun g => ps.foldl (fun (g : Group) p =>
          g.modWarp p.2.1 fun w => w.injected p.2.2 p.1.1) g).modCore core fun k =>
            k.takeBin bin ps.length g.binTime) := by
  simp only [exec_injection, execInjection, hb, hg, hstop, hslot, he, Option.isSome_none, Bool.not_true, Bool.or_self,
    Bool.false_eq_true, if_false]

theorem injection_gone (hb : (s.core core).bins.find? (fun b => b.num == bin) = none) :
    exec (.injection core bin) s = .next s := by
  simp only [exec_injection, execInjection, hb]

end Injection

/-! ### Ageing (R239) -/

theorem exec_pathAge (core wid : Nat) (s : State) : exec (.pathAge core wid) s = execPathAge core wid s := by
  dsimp only [exec]

theorem exec_warpAge (core sched : Nat) (s : State) : exec (.warpAge core sched) s = execWarpAge core sched s := by
  dsimp only [exec]

section Ageing

variable {core wid sched slot : Nat} {s : State} {g : Group} {w : Warp} {p : List Nat}

theorem pathAge_aged (hw : (s.core core).findWid wid = some (g, slot, w))
    (hi : (s.core core).mayIssue s.clk g = true)
    (hp : minBy (fun p => 65536 - w.pathAge p) (((g.paths w).map Prod.snd).filter fun p =>
      decide (ageMax ≤ w.pathAge p) && !(s.core core).isStalled w p) = some p) :
    exec (.pathAge core wid) s = .next { s with agenda := .issue core wid (maskOf p) :: s.agenda } := by
  simp only [exec_pathAge, execPathAge, hw, hp, hi, if_true]

theorem pathAge_gone (hw : (s.core core).findWid wid = none) : exec (.pathAge core wid) s = .next s := by
  simp only [exec_pathAge, execPathAge, hw]

theorem warpAge_passed (h : ((s.core core).readyWarps s.clk sched).find?
      (fun (_, _, w) => decide (ageMax ≤ w.passed)) = some (g, slot, w)) :
    exec (.warpAge core sched) s = .next { s.modWarp core g.gk slot fun w => { w with passed := 0 } with
      agenda := (((s.core core).pick g w).map fun p => .issue core w.wid (maskOf p)) ++ s.agenda } := by
  simp only [exec_warpAge, execWarpAge, h]

theorem warpAge_of_young (h : ∀ e ∈ (s.core core).readyWarps s.clk sched, e.2.2.passed < ageMax) :
    exec (.warpAge core sched) s = .next s := by
  have hnone : ((s.core core).readyWarps s.clk sched).find? (fun (_, _, w) => decide (ageMax ≤ w.passed)) = none :=
    List.find?_eq_none.mpr fun e he => by simpa using h e he
  simp only [exec_warpAge, execWarpAge, hnone]

end Ageing

/-! ### The statement -/

/-- Settles O30, step by step: each launch, injection and aged choice by what it finds. -/
theorem shuffler : Obligations.Shuffler :=
  ⟨fun core bin s => by dsimp only [exec]; rfl,
    fun core gk s g slot b => warpLaunch_performed, fun core gk s => warpLaunch_again, fun core gk s => warpLaunch_gone,
    fun core gk s g => warpLaunch_barred, fun core bin s b g => injection_performed, fun core bin s => injection_gone,
    fun core wid s g slot w p => pathAge_aged, fun core wid s => pathAge_gone,
    fun core sched s g slot w => warpAge_passed, fun core sched s => warpAge_of_young⟩

end Sys2Proof.Laws
end

section
/-! SUPPORT. The scheduler's steps: groups that end, records that are checked, admissions and completions of tasks (R222,
R264, R267-R269, R316). -/

namespace Sys2Proof.Laws

open Sys2Proof.Machine

/-! ### Groups that end (R222) -/

theorem exec_groupEnd (core gk : Nat) (s : State) : exec (.groupEnd core gk) s = execGroupEnd core gk s := by
  dsimp only [exec]

/-- Engine work of a group: a saved or queued operation, a sequencer, or a primitive that is not committed. -/
theorem working_iff {s : State} {core : Nat} {g : Group} : s.working core g = true ↔ g.backlog ≠ [] ∨
    (∃ e ∈ (s.core core).mq ++ (s.core core).cq, e.gk = g.gk) ∨ (∃ q ∈ (s.core core).seqs, q.gk = g.gk) ∨
    ∃ d ∈ s.draws, d.ctx = g.ctx ∧ ∃ a ∈ d.accepted, d.next ≤ a.s ∧ a.task = g.task ∧ a.gid = g.gid := by
  simp only [State.working, State.uncommitted, Bool.or_eq_true, Bool.not_eq_true', List.isEmpty_eq_false_iff,
    List.any_eq_true, Bool.and_eq_true, beq_iff_eq, decide_eq_true_eq, and_true, or_assoc, and_assoc]

/-- A group none of whose queued, saved or sequenced operations or primitives is left has no engine work. -/
theorem not_working {s : State} {core : Nat} {g : Group} (hb : g.backlog = [])
    (hq : ∀ e ∈ (s.core core).mq ++ (s.core core).cq, e.gk ≠ g.gk) (hs : ∀ q ∈ (s.core core).seqs, q.gk ≠ g.gk)
    (hd : ∀ d ∈ s.draws, d.ctx = g.ctx → ∀ a ∈ d.accepted, d.next ≤ a.s → a.task = g.task → a.gid ≠ g.gid) :
    s.working core g = false := by
  refine Bool.eq_false_iff.mpr fun h => ?_
  rcases working_iff.mp h with h | ⟨e, he, hk⟩ | ⟨q, hq', hk⟩ | ⟨d, hd', hc, a, ha, hn, ht, hg⟩
  · exact h hb
  · exact hq e he hk
  · exact hs q hq' hk
  · exact hd d hd' hc a ha hn ht hg

section GroupEnd

variable {core gk : Nat} {s : State} {g : Group}

theorem groupEnd_gone (h : s.group? core gk = none) : exec (.groupEnd core gk) s = .next s := by
  simp only [exec_groupEnd, execGroupEnd, h]

/-- A group that does not stop, whose threads have exited and whose engine work is done. -/
structure Spent (s : State) (core : Nat) (g : Group) : Prop where
  single : g.replay = false
  goes : g.stop = none
  threads : g.threads = []
  work : s.working core g = false

theorem groupEnd_untiled (hg : s.group? core gk = some g) (h : Spent s core g) (ht : g.tile = none) :
    exec (.groupEnd core gk) s = .next ((s.leave core gk true).taskLess g.task 1) := by
  simp only [exec_groupEnd, execGroupEnd, hg, h.single, h.goes, h.threads, h.work, ht, Option.isSome_none, Option.any_none,
    List.isEmpty_nil, Bool.not_true, Bool.or_self, Bool.false_eq_true, if_false]

/-- The group of a tile that has been closed, or whose wave is done. -/
theorem groupEnd_tiled {o : Own} (hg : s.group? core gk = some g) (h : Spent s core g) (ht : g.tile = some o)
    (ho : o.closed = true ∨ o.waveDone = true) : exec (.groupEnd core gk) s =
      .next (((s.leave core gk true).taskLess g.task 1).emit (.tileEnd o.draw o.tile)) := by
  have hover : (!o.closed && !o.waveDone) = false := by
    rcases ho with ho | ho <;> simp [ho]
  simp only [exec_groupEnd, execGroupEnd, hg, h.single, h.goes, h.threads, h.work, ht, hover, Option.isSome_none,
    Option.any_some, List.isEmpty_nil, Bool.not_true, Bool.or_self, Bool.false_eq_true, if_false]

/-- A group that stops, or has a thread or engine work left, stays. -/
theorem groupEnd_stays (hg : s.group? core gk = some g) (hr : g.replay = false)
    (h : g.stop.isSome = true ∨ g.threads ≠ [] ∨ s.working core g = true) : exec (.groupEnd core gk) s = .next s := by
  have hstays : (g.stop.isSome || !g.threads.isEmpty || s.working core g ||
      g.tile.any fun o => !o.closed && !o.waveDone) = true := by
    rcases h with h | h | h
    · simp [h]
    · simp [List.isEmpty_eq_false_iff.mpr h]
    · simp [h]
  simp only [exec_groupEnd, execGroupEnd, hg, hr, Bool.false_eq_true, if_false, if_pos hstays]

end GroupEnd

/-! ### Records that are checked (R264, R316) -/

theorem exec_recordCheck (q : Nat) (s : State) :
    exec (.recordCheck q) s = .next (if q < 512 then s.checkRecord q else s) := by
  dsimp only [exec]
  rfl

theorem recordCheck_outside {q : Nat} (h : 512 ≤ q) (s : State) : exec (.recordCheck q) s = .next s := by
  rw [exec_recordCheck, if_neg (Nat.not_lt.mpr h)]

theorem recordCheck_inside {q : Nat} (h : q < 512) (s : State) : exec (.recordCheck q) s = .next (s.checkRecord q) := by
  rw [exec_recordCheck, if_pos h]

/-- The record at an index of a queue is a task that has groups to admit. -/
def headTaken (s : State) (q index : Nat) : Bool :=
  s.tasks.any fun t => t.q == q && t.index == index && decide (t.next < t.total)

theorem headTaken_iff {s : State} {q index : Nat} : headTaken s q index = true ↔
    ∃ t ∈ s.tasks, t.q = q ∧ t.index = index ∧ t.next < t.total := by
  simp only [headTaken, List.any_eq_true, Bool.and_eq_true, beq_iff_eq, decide_eq_true_eq, and_assoc]

/-- The record r at the head of queue q, of descriptor d, is checked: the queue is enabled, the head is no task yet, and
the descriptor, the ring's slot and the descriptor of context ctx can be used. -/
structure HeadRead (s : State) (q d : Nat) (r : BitVec 1024) (ctx : Nat) : Prop where
  desc : s.queue q = d
  clean : s.poisoned (queueKey q) 32 = false
  enabled : nbit d 56 = true
  untaken : headTaken s q (nbits d 95 64) = false
  ring : ringOk d = true
  slot : s.poisoned (ringSlot d (nbits d 95 64)) 128 = false
  record : BitVec.ofNat 1024 (s.num (ringSlot d (nbits d 95 64)) 128) = r
  space : queueCtx d = ctx
  context : s.poisoned (Config.contextTable + 64 * ctx) 64 = false
  usable : ctxValid (s.ctxDesc ctx) = true

/-- The head of the queue is no task, as the check asks it. -/
theorem HeadRead.unlisted {s : State} {q d ctx : Nat} {r : BitVec 1024} (h : HeadRead s q d r ctx) :
    (s.tasks.any fun t => t.q == q && t.index == nbits d 95 64 && decide (t.next < t.total)) = false := h.untaken

section CheckRecord

variable {s : State} {q d ctx : Nat} {r : BitVec 1024}

theorem checkRecord_of_poison (h : s.poisoned (queueKey q) 32 = true) :
    s.checkRecord q = s.emitOnce (.hold q (nbits (s.queue q) 95 64)) := if_pos h

/-- A disabled queue is left alone, and so is a head that is a task already. -/
theorem checkRecord_idle (hp : s.poisoned (queueKey q) 32 = false)
    (h : nbit (s.queue q) 56 = false ∨ headTaken s q (nbits (s.queue q) 95 64) = true) : s.checkRecord q = s := by
  have hidle : (!nbit (s.queue q) 56 || headTaken s q (nbits (s.queue q) 95 64)) = true := by
    rcases h with h | h <;> simp [h]
  rw [State.checkRecord, hp, if_neg Bool.false_ne_true]
  exact if_pos hidle

theorem checkRecord_invalid (h : HeadRead s q d r ctx) (hv : Rec.valid r = false) : s.checkRecord q = s := by
  simp only [State.checkRecord, h.desc, h.clean, h.enabled, h.unlisted, h.ring, h.slot, h.record, hv, Bool.not_true,
    Bool.not_false, Bool.or_self, Bool.false_eq_true, if_false, if_true]

theorem checkRecord_refused (h : HeadRead s q d r ctx) (hv : Rec.valid r = true) (hr : refused r = true) :
    s.checkRecord q = s.refuse q (nbits d 95 64) ctx r := by
  simp only [State.checkRecord, h.desc, h.clean, h.enabled, h.unlisted, h.ring, h.slot, h.record, h.space, h.context,
    h.usable, hv, hr, Bool.not_true, Bool.or_self, Bool.false_eq_true, if_false, if_true]

/-- A record without a gang table has no members but itself. -/
theorem gangOf_single (s : State) (ctx : Nat) (h : Rec.gang r = 0) : s.gangOf ctx r = .ok (some ([], [])) := if_pos h

theorem checkRecord_single (h : HeadRead s q d r ctx) (hv : Rec.valid r = true) (hr : refused r = false)
    (hg : Rec.gang r = 0) : s.checkRecord q = { s.bump with tasks := s.tasks ++
      [{ key := s.fresh, q := q, index := nbits d 95 64, ctx := ctx, lead := r, members := [],
         pipes := [], next := 0, total := Rec.groups r, live := 0, stage := 0, cid := 0 }] } := by
  simp only [State.checkRecord, h.desc, h.clean, h.enabled, h.unlisted, h.ring, h.slot, h.record, h.space, h.context,
    h.usable, hv, hr, gangOf_single _ _ hg, Bool.not_true, Bool.or_self, Bool.false_eq_true, if_false]

end CheckRecord

section Refuse

variable {s t : State} {q head ctx : Nat} {r : BitVec 1024}

theorem refuse_counted {u : Unit} (h : s.schedDone ctx (Rec.job r) = .ok t u) :
    s.refuse q head ctx r = (t.consume q).emit (.refuse q head) := by
  rw [State.refuse, h]

theorem refuse_uncounted {c : Nat} (h : s.schedDone ctx (Rec.job r) = .bad t c) :
    s.refuse q head ctx r = t.emitOnce (.hold q head) := by
  rw [State.refuse, h]

theorem refuse_waits (h : s.schedDone ctx (Rec.job r) = .wait) : s.refuse q head ctx r = s := by
  rw [State.refuse, h]

end Refuse

/-! ### Admissions (R269) -/

theorem exec_admission (q : Nat) (s : State) : exec (.admission q) s = execAdmission q s := by dsimp only [exec]

theorem admission_of_none {q : Nat} {s : State} (h : ∀ t ∈ s.tasks, t.q = q → t.total ≤ t.next) :
    exec (.admission q) s = .next s := by
  have hnone : s.tasks.find? (fun t => t.q == q && decide (t.next < t.total)) = none :=
    List.find?_eq_none.mpr fun t ht => by simpa using h t ht
  simp only [exec_admission, execAdmission, hnone]

section Admission

variable {q : Nat} {s u : State} {t : Task}
  (ht : s.tasks.find? (fun t => t.q == q && decide (t.next < t.total)) = some t) (ho : s.mp1Open = true)
include ht ho

theorem admission_held (h : s.taskReady t = .held) : exec (.admission q) s = .next (s.emitOnce (.hold q t.index)) := by
  simp only [exec_admission, execAdmission, ht, ho, h, Bool.not_true, Bool.false_eq_true, if_false]

variable (hr : s.taskReady t = .yes)
include hr

theorem admission_unplaced (h : s.placing t = none) : exec (.admission q) s = .next s := by
  simp only [exec_admission, execAdmission, ht, ho, hr, h, Bool.not_true, Bool.false_eq_true, if_false]

/-- A record whose launch decision waits or meets poison. -/
theorem admission_stopped (h : s.placing t = some u) (hb : u.beyond t = false) : exec (.admission q) s = .next u := by
  simp only [exec_admission, execAdmission, ht, ho, hr, h, hb, Bool.not_true, Bool.not_false, Bool.false_eq_true, if_false,
    if_true]

/-- A record that cores can take is admitted where it is the chosen candidate. -/
theorem admission_placed (h : s.placing t = some u) (hb : u.beyond t = true) :
    exec (.admission q) s = .next (if s.chosen = some (.record t.key) then s.admitted t else s) := by
  simp only [exec_admission, execAdmission, ht, ho, hr, h, hb, Bool.not_true, Bool.false_eq_true, if_false]

end Admission

/-! ### Completions of tasks (R267, R268) -/

theorem exec_taskCompletion (key : Nat) (s : State) : exec (.taskCompletion key) s = execTaskCompletion key s := by
  dsimp only [exec]

theorem taskCompletion_of_none {key : Nat} {s : State} (h : ∀ t ∈ s.tasks, t.key ≠ key) :
    exec (.taskCompletion key) s = .next s := by
  have hnone : s.tasks.find? (fun t => t.key == key) = none :=
    List.find?_eq_none.mpr fun t ht => by simpa using h t ht
  simp only [exec_taskCompletion, execTaskCompletion, hnone]

theorem taskCompletion_of_some {key : Nat} {s : State} {t : Task} (h : s.tasks.find? (fun t => t.key == key) = some t) :
    exec (.taskCompletion key) s = .next (s.completeTask t) := by
  simp only [exec_taskCompletion, execTaskCompletion, h]

theorem completeTask_early {s : State} {t : Task} (h0 : t.stage = 0) (h : t.live ≠ 0 ∨ t.next < t.total) :
    s.completeTask t = s := by
  rw [State.completeTask, h0]
  exact if_pos (h.imp_right Or.inl)

/-- A task that no recorder names and that has no SIGNAL completes as its count falls. -/
theorem completeTask_plain {s : State} {t : Task} (h0 : t.stage = 0) (hl : t.live = 0) (hn : t.total ≤ t.next)
    (hs : Rec.signal t.lead = 0) (hr : ∀ r ∈ s.recorders, r.task ≠ t.key) : s.completeTask t = s.countTask t := by
  have hnone : s.recorders.find? (fun r => r.task == t.key) = none :=
    List.find?_eq_none.mpr fun r h => by simpa using hr r h
  have hwaits : s.recordWaits t.ctx t.key = false := by rw [State.recordWaits, hnone]; rfl
  have hend : s.recordEnd t.ctx t.key = s := by rw [State.recordEnd, hnone]
  have hgoes : ¬(t.live ≠ 0 ∨ t.next < t.total ∨ s.recordWaits t.ctx t.key = true) := by
    simp [hl, Nat.not_lt.mpr hn, hwaits]
  simp only [State.completeTask, h0, if_neg hgoes, hend, hs, if_true]

section CountTask

variable {s u : State} {t : Task}

theorem countTask_counted {v : Unit} (hs : Rec.signal t.lead = 0) (h : s.schedDone t.ctx (Rec.job t.lead) = .ok u v) :
    s.countTask t = (u.emit (.complete t.q t.index (Rec.job t.lead))).dropTask t.key := by
  simp only [State.countTask, h, hs, if_true]

theorem countTask_uncounted {c : Nat} (h : s.schedDone t.ctx (Rec.job t.lead) = .bad u c) :
    s.countTask t = u.emitOnce (.hold t.q t.index) := by
  rw [State.countTask, h]

theorem countTask_waits (h : s.schedDone t.ctx (Rec.job t.lead) = .wait) : s.countTask t = s := by
  rw [State.countTask, h]

end CountTask

/-! ### The statement -/

/-- Settles O38: groups by `Spent` and `working_iff`, records by `HeadRead`, admissions by what is placed, completions by
the task's count. -/
theorem schedulerSteps : Obligations.SchedulerSteps := by
  refine ⟨fun core gk s => groupEnd_gone, ?untiled, ?tiled, ?stays, fun q s h => recordCheck_outside h s,
    fun q s hq hp he => ?idle, fun q s hq hp => ?poison, ?read, ?taken, fun q s => admission_of_none,
    fun q s t ht ho hr u h hb hc => ?chosen, fun q s t => admission_unplaced,
    fun q s t ht ho hr u h => ⟨fun hb hc => ?unchosen, admission_stopped ht ho hr h⟩, fun q s t => admission_held,
    fun key s => taskCompletion_of_none, fun key s t => taskCompletion_of_some, fun s t => completeTask_early,
    fun s t h0 hl hn hs hr => ?complete⟩
  case untiled =>
    intro core gk s g hg hr hstop hthreads hb hq hs hd
    exact groupEnd_untiled hg ⟨hr, hstop, hthreads, not_working hb hq hs hd⟩
  case tiled =>
    intro core gk s g o hg hr hstop hthreads hb hq hs hd
    exact groupEnd_tiled hg ⟨hr, hstop, hthreads, not_working hb hq hs hd⟩
  case stays =>
    intro core gk s g hg hr h
    refine groupEnd_stays hg hr ?_
    rcases h with h | h | h | h | h
    · exact .inl h
    · exact .inr (.inl h)
    · exact .inr (.inr (working_iff.mpr (.inl h)))
    · exact .inr (.inr (working_iff.mpr (.inr (.inl h))))
    · exact .inr (.inr (working_iff.mpr (.inr (.inr (.inr h)))))
  case idle => rw [recordCheck_inside hq, checkRecord_idle hp (.inl he)]
  case poison => rw [recordCheck_inside hq, checkRecord_of_poison hp]
  case read =>
    intro q s d r ctx hq hd hp he hfree hring hslot hr hctx hpoison hvalid
    have huntaken : headTaken s q (nbits d 95 64) = false := Bool.eq_false_iff.mpr fun h =>
      let ⟨t, ht, hk⟩ := headTaken_iff.mp h
      hfree t ht hk
    have hread : HeadRead s q d r ctx :=
      ⟨hd.symm, hp, he, huntaken, hring, hslot, hr.symm, hctx.symm, hpoison, hvalid⟩
    rw [recordCheck_inside hq]
    refine ⟨fun hv => ?invalid, fun t u hv hr h => ?answered, fun t c hv hr h => ?held, fun hv hr h => ?later,
      fun hv hr hg => ?task⟩
    case invalid => rw [checkRecord_invalid hread hv]
    case answered => rw [checkRecord_refused hread hv hr, refuse_counted h]
    case held => rw [checkRecord_refused hread hv hr, refuse_uncounted h]
    case later => rw [checkRecord_refused hread hv hr, refuse_waits h]
    case task => rw [checkRecord_single hread hv hr hg]
  case taken =>
    intro q s t hq hp ht hq' hi hn
    rw [recordCheck_inside hq, checkRecord_idle hp (.inr (headTaken_iff.mpr ⟨t, ht, hq', hi, hn⟩))]
  case chosen => rw [admission_placed ht ho hr h hb, if_pos hc]
  case unchosen => rw [admission_placed ht ho hr h hb, if_neg hc]
  case complete =>
    rw [completeTask_plain h0 hl hn hs hr]
    exact ⟨fun u v => countTask_counted hs, fun u c => countTask_uncounted, countTask_waits⟩

end Sys2Proof.Laws
end

section
/-! SUPPORT. The words that ask the Banker and give back, HANDOFF and YIELD, and the steps of the Banker and of the
budget (R251-R256, R260, R270, R293, R294, R298). -/

namespace Sys2Proof.Laws

open Sys2Proof.Machine

/-! ### Requests (R247, R251) -/

section Acquire

variable (d a : BitVec 6) (h : Hold)

theorem acqB_malformed : DoesWhen (.acqB a) (fun x => Hold.ofWord (x.u a.toNat).toNat = none) fun x =>
    x.raise Cause.illop :=
  doesWhen_of_eq (fun _ => by dsimp only [exec]; rfl) fun x hw => by simp only [hw]

theorem acqB_granted : DoesWhen (.acqB a) (fun x => Hold.ofWord (x.u a.toNat).toNat = some h ∧
      x.s.judge x.core x.g h = 0) fun x =>
    (x.done (x.s.grantTo x.core x.g.gk h) fun _ th => th).granted x.core x.g x.slot
      (x.s.syncOf x.core x.g.gk x.slot) (x.u a.toNat).toNat :=
  doesWhen_of_eq (fun _ => by dsimp only [exec]; rfl) fun x ⟨hw, hj⟩ => by simp only [hw, hj]

theorem acqB_beyond_claim : DoesWhen (.acqB a) (fun x => Hold.ofWord (x.u a.toNat).toNat = some h ∧
      x.s.judge x.core x.g h = 3) fun x => x.raise Cause.claim :=
  doesWhen_of_eq (fun _ => by dsimp only [exec]; rfl) fun x ⟨hw, hj⟩ => by simp only [hw, hj]

/-- A request that neither is grantable nor exceeds the claim goes to the end of the waiting ones, in place of an
earlier request of its lanes. -/
theorem acqB_waits : DoesWhen (.acqB a) (fun x => Hold.ofWord (x.u a.toNat).toNat = some h ∧
      x.s.judge x.core x.g h ≠ 0 ∧ x.s.judge x.core x.g h ≠ 3) fun x =>
    x.waitAt (x.s.modCore x.core fun k => { k with reqs :=
      (k.reqs.filter fun r => !(r.gk == x.g.gk && r.wslot == x.slot && r.lanes &&& x.lanes != 0)) ++
        [⟨x.g.gk, x.slot, x.lanes, x.u a.toNat, x.s.clk, false, x.s.syncOf x.core x.g.gk x.slot⟩] }) x.ls .bank := by
  refine doesWhen_of_eq (fun _ => by dsimp only [exec]; rfl) fun x ⟨hw, hgrant, hclaim⟩ => ?_
  dsimp only
  rw [hw]
  dsimp only
  split
  · next hj => exact absurd hj hgrant
  · next hj => exact absurd hj hclaim
  · rw [BitVec.ofNat_toNat, BitVec.setWidth_eq]

theorem acqT_malformed : DoesWhen (.acqT d a) (fun x => Hold.ofWord (x.u a.toNat).toNat = none) fun x =>
    x.raise Cause.illop :=
  doesWhen_of_eq (fun _ => by dsimp only [exec]; rfl) fun x hw => by simp only [hw]

theorem acqT_granted : DoesWhen (.acqT d a) (fun x => Hold.ofWord (x.u a.toNat).toNat = some h ∧
      x.s.judge x.core x.g h = 0) fun x =>
    (x.doneW (x.s.grantTo x.core x.g.gk h) fun w => w.setU d.toNat 0).granted x.core x.g x.slot
      (x.s.syncOf x.core x.g.gk x.slot) (x.u a.toNat).toNat :=
  doesWhen_of_eq (fun _ => by dsimp only [exec]; rfl) fun x ⟨hw, hj⟩ => by
    simp only [hw, hj, if_true, BitVec.ofNat_eq_ofNat]

theorem acqT_refused : DoesWhen (.acqT d a) (fun x => Hold.ofWord (x.u a.toNat).toNat = some h ∧
      x.s.judge x.core x.g h ≠ 0) fun x =>
    x.doneW x.s fun w => w.setU d.toNat (BitVec.ofNat 32 (x.s.judge x.core x.g h)) :=
  doesWhen_of_eq (fun _ => by dsimp only [exec]; rfl) fun x ⟨hw, hj⟩ => by simp only [hw, if_neg hj]

end Acquire

/-! ### Releases (R254) -/

section Release

variable (a : BitVec 6) (h : Hold)

theorem rel_malformed : DoesWhen (.rel a) (fun x => Hold.ofWord (x.u a.toNat).toNat = none) fun x =>
    x.raise Cause.illop :=
  doesWhen_of_eq (fun _ => by dsimp only [exec]; rfl) fun x hw => by simp only [hw]

theorem rel_returned : DoesWhen (.rel a) (fun x => Hold.ofWord (x.u a.toNat).toNat = some h ∧ x.relCause h = none)
    fun x => (x.done (x.s.giveBack x.core x.g h) fun _ th => th).recordOf x.core x.g x.slot
      (.bank true (x.u a.toNat).toNat) :=
  doesWhen_of_eq (fun _ => by dsimp only [exec]; rfl) fun x ⟨hw, hc⟩ => by simp only [hw, hc]

theorem rel_refused (c : Nat) : DoesWhen (.rel a) (fun x => Hold.ofWord (x.u a.toNat).toNat = some h ∧
      x.relCause h = some c) fun x => x.raise c :=
  doesWhen_of_eq (fun _ => by dsimp only [exec]; rfl) fun x ⟨hw, hc⟩ => by simp only [hw, hc]

end Release

/-! ### Hand-off (R256, R294) -/

section Handoff

variable (a b : BitVec 6)

theorem handoff_none : DoesWhen (.handoff a b) (fun x => x.u a.toNat = 0 ∧ x.s.recorderOf x.g.gang = none) fun x =>
    x.done x.s fun _ th => th := by
  refine doesWhen_of_eq (fun _ => by dsimp only [exec]; rfl) fun x ⟨hk, hr⟩ => ?_
  have hk' : (x.u a.toNat).toNat = 0 := congrArg BitVec.toNat hk
  simp only [abandon_of_none hr, if_pos hk']

theorem handoff_passed (h : Group) : DoesWhen (.handoff a b) (fun x => x.u a.toNat ≠ 0 ∧
      x.s.recorderOf x.g.gang = none ∧ ¬(bitAt (x.u b.toNat) 31 = true ∧ fld (x.u b.toNat) 30 2 ≠ 0) ∧
      x.successor (x.u b.toNat) = some h ∧ x.s.tilePages x.g + (x.u a.toNat).toNat ≤ x.g.pages.length ∧
      h.pages.length + (x.u a.toNat).toNat ≤ h.claim.pages) fun x =>
    x.done (x.passPages x.s (x.u a.toNat).toNat h) fun _ th => th := by
  refine doesWhen_of_eq (fun _ => by dsimp only [exec]; rfl) fun x ⟨hk, hr, hw, hs, htile, hclaim⟩ => ?_
  have hk' : (x.u a.toNat).toNat ≠ 0 := BitVec.toNat_ne.mp hk
  have htiles : ¬x.g.pages.length - (x.u a.toNat).toNat < x.s.tilePages x.g := by omega
  have hheld : ¬x.g.pages.length < (x.u a.toNat).toNat := by omega
  have hroom : ¬h.claim.pages < h.pages.length + (x.u a.toNat).toNat := by omega
  simp only [abandon_of_none hr, if_neg hk', if_neg hw, hs, if_neg htiles, if_neg hheld, if_neg hroom]

theorem handoff_no_successor : DoesWhen (.handoff a b) (fun x => x.u a.toNat ≠ 0 ∧
      x.s.recorderOf x.g.gang = none ∧ ¬(bitAt (x.u b.toNat) 31 = true ∧ fld (x.u b.toNat) 30 2 ≠ 0) ∧
      x.successor (x.u b.toNat) = none) fun x => x.raise Cause.prot := by
  refine doesWhen_of_eq (fun _ => by dsimp only [exec]; rfl) fun x ⟨hk, hr, hw, hs⟩ => ?_
  have hk' : (x.u a.toNat).toNat ≠ 0 := BitVec.toNat_ne.mp hk
  simp only [abandon_of_none hr, if_neg hk', if_neg hw, hs]

end Handoff

/-- Settles O31: each word by what the Banker answers, HANDOFF by its count and its successor. -/
theorem bankingWords : Obligations.BankingWords := by
  refine ⟨acqB_malformed, acqT_malformed, rel_malformed, acqB_granted, acqB_beyond_claim, acqB_waits,
    acqT_granted, acqT_refused, rel_returned, rel_refused, fun d => ?qry, handoff_none,
    handoff_passed, handoff_no_successor, ?yield⟩
  case qry => exact does_of_eq (fun _ => by dsimp only [exec]; rfl) fun _ => rfl
  case yield => exact does_of_eq (fun _ => by dsimp only [exec]; rfl) fun _ => rfl

/-! ### The head (R253) -/

theorem exec_head (core : Nat) (s : State) : exec (.head core) s = execHead core s := by dsimp only [exec]

section Head

variable {core : Nat} {s : State} {r : Req} {l : List Req}

theorem head_named (hh : (s.core core).headReq = none) (hw : (s.core core).waiting = r :: l)
    (hc : r.since + 4096 ≤ s.clk) : exec (.head core) s = .next (s.modCore core fun k =>
      { k with reqs := k.reqs.map fun q => if q = r then { q with isHead := true } else q }) := by
  simp only [exec_head, execHead, hh, hw, if_pos hc]

theorem head_of_no_request (hw : (s.core core).waiting = []) : exec (.head core) s = .next s := by
  rw [exec_head, execHead, hw]
  cases (s.core core).headReq <;> rfl

/-- A request that has waited less than 4096 clocks becomes no head, whether there is one or not. -/
theorem head_of_young (hw : (s.core core).waiting = r :: l) (hc : s.clk < r.since + 4096) :
    exec (.head core) s = .next s := by
  rw [exec_head, execHead]
  cases (s.core core).headReq with
  | none => simp only [hw, if_neg (Nat.not_le_of_lt hc)]
  | some q => rfl

end Head

/-! ### Grants (R252, R260) -/

section Grant

variable {s : State} {core : Nat} {r : Req} {g : Group} {h : Hold}

theorem tryGrant_granted (hg : s.group? core r.gk = some g) (hw : Hold.ofWord r.word.toNat = some h)
    (hwait : (s.core core).waits r = true) (hj : s.judge core g h = 0) :
    s.tryGrant core r = ((((s.grantTo core r.gk h).modCore core fun k =>
      { k with reqs := k.reqs.filter (· != r) }).modGroup core r.gk fun g =>
        g.resume r.wslot r.lanes fun k => k == Wait.bank).granted core g r.wslot r.fence r.word.toNat).replayGranted
          g := by
  simp only [State.tryGrant, hg, hw, hwait, hj, beq_self_eq_true, Bool.and_self, if_true]

/-- The waits of a gang that is stopping are over (R252). -/
theorem waits_of_stopping (hg : s.group? core r.gk = some g) (hs : g.stop.isSome = true) :
    (s.core core).waits r = false := by
  rw [State.group?] at hg
  obtain ⟨st, hst⟩ := Option.isSome_iff_exists.mp hs
  simp only [Core.waits, hg, Option.any_some, hst, Option.isNone_some, Bool.false_and]

/-- A request whose wait is over is granted nothing. -/
theorem tryGrant_of_not_waiting (hwait : (s.core core).waits r = false) : s.tryGrant core r = s := by
  rw [State.tryGrant]
  split
  · simp only [hwait, Bool.false_and, Bool.false_eq_true, if_false]
  · rfl

end Grant

/-! ### The budget (R270) -/

theorem exec_budget (core gk : Nat) (s : State) : exec (.budget core gk) s = execBudget core gk s := by
  dsimp only [exec]

section Budget

variable {core gk : Nat} {s : State} {g : Group}

theorem budget_gone (hg : s.group? core gk = none) : exec (.budget core gk) s = .next s := by
  simp only [exec_budget, execBudget, hg]

theorem budget_not_due (hg : s.group? core gk = some g) (h : g.budget ≠ 0 ∨ g.budgetRaised = true) :
    exec (.budget core gk) s = .next s := by
  have hdue : g.budget ≠ 0 ∨ g.budgetRaised = true ∨ Rec.budget (s.leadOf g) = 0 := h.imp_right .inl
  simp only [exec_budget, execBudget, hg, if_pos hdue]

theorem budget_raised (hg : s.group? core gk = some g) (hb : g.budget = 0) (hr : g.budgetRaised = false)
    (hp : g.replay = false) (hrec : Rec.budget (s.leadOf g) ≠ 0) :
    exec (.budget core gk) s = .next ((g.warps.zipIdx).foldl
      (fun (t : State) e => t.budgetWarp core g e.2 e.1)
      (s.modGroup core gk fun g => { g with budgetRaised := true })) := by
  simp only [exec_budget, execBudget, hg, hb, hr, hp, hrec, ne_eq, not_true_eq_false, Bool.false_eq_true, or_self,
    if_false]

end Budget

/-- Settles O32: the head by how long the first request has waited, a grant by whether the request waits and what is
judged, BUDGET by what is left. -/
theorem bankerSteps : Obligations.BankerSteps :=
  ⟨fun core s r l => head_named, fun core s => head_of_no_request, fun core s r l => head_of_young,
    fun core s => by dsimp only [exec]; rfl, fun s core r g h => tryGrant_granted,
    fun s core r g hg hs => tryGrant_of_not_waiting (waits_of_stopping hg hs), fun core gk s => budget_gone,
    fun core gk s g => budget_not_due, fun core gk s g => budget_raised⟩

end Sys2Proof.Laws
end

section
/-! SUPPORT. The waves of an owned tile and its write-back (R279, R281, R282, R312). -/

namespace Sys2Proof.Laws

open Sys2Proof.Machine

theorem exec_visibilityWave (core gk : Nat) (s : State) :
    exec (.visibilityWave core gk) s = execVisibilityWave core gk s := by dsimp only [exec]

theorem exec_shadingWave (core gk : Nat) (s : State) : exec (.shadingWave core gk) s = execShadingWave core gk s := by
  dsimp only [exec]

theorem exec_writeBack (core gk : Nat) (s : State) : exec (.writeBack core gk) s = execWriteBack core gk s := by
  dsimp only [exec]

/-! ### Fragments (R281) -/

/-- What spawning leaves of a list is its end, and at most as many fragments as it may spawn are gone from it. -/
theorem spawnFrags_suffix {s t : State} {core : Nat} {g : Group} {n : Nat} {l rest : List (Nat × Addr × Nat × Nat)}
    (h : s.spawnFrags core g n l = (t, rest)) : l.length ≤ rest.length + n ∧ ∃ spawned, l = spawned ++ rest := by
  induction n generalizing s l with
  | zero =>
    obtain ⟨-, rfl⟩ := Prod.mk.inj h
    exact ⟨le_rfl, [], rfl⟩
  | succ n ih => cases l with
    | nil =>
      obtain ⟨-, rfl⟩ := Prod.mk.inj h
      exact ⟨Nat.zero_le _, [], rfl⟩
    | cons f l =>
      rw [State.spawnFrags] at h
      split at h
      · obtain ⟨-, rfl⟩ := Prod.mk.inj h
        exact ⟨Nat.le_add_right _ _, [], rfl⟩
      · obtain ⟨hlen, spawned, rfl⟩ := ih h
        exact ⟨Nat.succ_le_succ hlen, f :: spawned, rfl⟩

section Waves

variable {core gk : Nat} {s : State} {g : Group} {o : Own} {d : Draw}

/-! ### The waves -/

theorem waves_of_no_tile (h : s.waveTile core gk = none) : exec (.visibilityWave core gk) s = .next s ∧
    exec (.shadingWave core gk) s = .next s ∧ exec (.writeBack core gk) s = .next s := by
  simp only [exec_visibilityWave, exec_shadingWave, exec_writeBack, execVisibilityWave, execShadingWave,
    execWriteBack, h, and_self]

theorem visibilityWave_of_tile (h : s.waveTile core gk = some (g, o, d)) : exec (.visibilityWave core gk) s =
    .next (if o.visDone then s else s.visWave core g o d) := by
  simp only [exec_visibilityWave, execVisibilityWave, h]

theorem shadingWave_idle (h : s.waveTile core gk = some (g, o, d)) (hi : o.visDone = false ∨ o.pending = []) :
    exec (.shadingWave core gk) s = .next s := by
  have hidle : (!o.visDone || o.pending.isEmpty) = true := by
    rcases hi with hv | hp
    · simp [hv]
    · simp [hp]
  simp only [exec_shadingWave, execShadingWave, h, hidle, if_true]

theorem shadingWave_spawns {t : State} {rest : List (Nat × Addr × Nat × Nat)}
    (h : s.waveTile core gk = some (g, o, d)) (hv : o.visDone = true) (hp : o.pending ≠ [])
    (hs : s.spawnFrags core g 32 o.pending = (t, rest)) : exec (.shadingWave core gk) s =
      .next (t.modOwn core gk fun o => { o with pending := rest, waveDone := rest.isEmpty }) := by
  simp only [exec_shadingWave, execShadingWave, h, hv, List.isEmpty_eq_false_iff.mpr hp, hs, Bool.not_true,
    Bool.or_self, Bool.false_eq_true, if_false]

/-! ### The write-back -/

theorem writeBack_unready (h : s.waveTile core gk = some (g, o, d)) (hr : g.tdoneReady o = false) :
    exec (.writeBack core gk) s = .next (s.modOwn core gk fun o => { o with drain := none }) := by
  simp only [exec_writeBack, execWriteBack, h, hr, Bool.not_false, if_true]

/-- Entries that name tile memory are waited for: those that are queued when the wait comes to its point. -/
theorem writeBack_waits {e : Nat} (h : s.waveTile core gk = some (g, o, d)) (hr : g.tdoneReady o = true)
    (hd : o.drain = none) (he : e ∈ (s.core core).planeEntries gk) : exec (.writeBack core gk) s =
      .next (s.modOwn core gk fun o => { o with drain := some ((s.core core).planeEntries gk) }) := by
  have hwait : ((s.core core).planeEntries gk).any ((s.core core).planeEntries gk).contains = true :=
    List.any_eq_true.mpr ⟨e, he, List.contains_iff_mem.mpr he⟩
  simp only [exec_writeBack, execWriteBack, h, hr, hd, Option.getD_none, hwait, Bool.not_true, Bool.false_eq_true,
    if_false, if_true]

/-- With no entry left the tile is written, unless a page of it was missing and it is not time to try again. -/
theorem writeBack_drained (h : s.waveTile core gk = some (g, o, d)) (hr : g.tdoneReady o = true)
    (hd : o.drain = none) (he : (s.core core).planeEntries gk = []) : exec (.writeBack core gk) s =
      .next (if o.stopped.isSome && s.clk % 4096 != 0 then s else s.tdoneWrite core g o d) := by
  simp only [exec_writeBack, execWriteBack, h, hr, hd, he, Option.getD_none, List.any_nil, Bool.not_true,
    Bool.false_eq_true, if_false]
  split <;> rfl

end Waves

/-- Settles O40: each wave and the write-back by what the owned tile has come to. -/
theorem tileWaves : Obligations.TileWaves := by
  refine ⟨fun core gk s => waves_of_no_tile, fun core gk s g o d h hv => ?again, fun core gk s g o d h hv => ?once,
    fun core gk s g o d => shadingWave_idle,
    fun core gk s g o d t rest h hv hp hs => ⟨shadingWave_spawns h hv hp hs, spawnFrags_suffix hs⟩,
    fun core gk s g o d => writeBack_unready, fun core gk s g o d e => writeBack_waits,
    fun core gk s g o d h hr hd he hs => ?write, fun core gk s g o d h hr hd he hs hc => ?stopped⟩
  case again => rw [visibilityWave_of_tile h, if_pos hv]
  case once => rw [visibilityWave_of_tile h, if_neg (Bool.eq_false_iff.mp hv)]
  case write =>
    simp only [writeBack_drained h hr hd he, hs, Option.isSome_none, Bool.false_and, Bool.false_eq_true, if_false]
  case stopped => rw [writeBack_drained h hr hd he, if_pos (by simp [hs, hc])]

end Sys2Proof.Laws
end

section
/-! SUPPORT. The compressor of the surface's blocks and its inverse (R282, R283). -/

namespace Sys2Proof.Laws

open Sys2Proof.Machine

/-! ### Packed fields -/

theorem wrap_lt (x : Int) (n : Nat) : wrap x n < 2 ^ n := by
  rw [wrap_eq_toNat_ofInt]
  exact BitVec.isLt _

/-- A signed reading is that of the low bits. -/
theorem sx_eq_toInt {n : Nat} (hn : 0 < n) (x : Nat) : sx x n = (BitVec.ofNat n x).toInt := by
  rw [← sx_toNat hn, BitVec.toNat_ofNat, sx, sx, Nat.mod_mod]

/-- A field whose low bits are those of a number in its range reads as that number. -/
theorem sx_of_mod_eq_wrap {n v : Nat} {x : Int} (hn : 0 < n) (hlo : -(2 ^ (n - 1) : Nat) ≤ x)
    (hhi : x ≤ (2 ^ (n - 1) : Nat) - 1) (hv : v % 2 ^ n = wrap x n) : sx v n = x := by
  have hbits : BitVec.ofNat n v = BitVec.ofInt n x := by
    rw [← ofNat_wrap, ← hv, ← BitVec.toNat_ofNat, BitVec.ofNat_toNat, BitVec.setWidth_eq]
  push_cast at hlo hhi
  rw [sx_eq_toInt hn, hbits, BitVec.toInt_ofInt_eq_self hn hlo (by omega)]

theorem packFields_lt (w : Nat) (ds : List Int) : packFields w ds < 2 ^ (w * ds.length) := by
  induction ds with
  | nil => exact Nat.one_pos
  | cons x r ih =>
    calc packFields w (x :: r) < 2 ^ w + 2 ^ w * packFields w r := Nat.add_lt_add_right (wrap_lt x w) _
      _ = 2 ^ w * (packFields w r + 1) := by ring
      _ ≤ 2 ^ w * 2 ^ (w * r.length) := Nat.mul_le_mul_left _ ih
      _ = 2 ^ (w * (x :: r).length) := by rw [← pow_add, List.length_cons, Nat.mul_succ, Nat.add_comm]

/-- Field k of packed numbers is number k. -/
theorem packFields_field (w : Nat) {ds : List Int} {k : Nat} {x : Int} (h : ds[k]? = some x) :
    packFields w ds / 2 ^ (w * k) % 2 ^ w = wrap x w := by
  induction ds generalizing k with
  | nil => simp at h
  | cons y r ih => cases k with
    | zero =>
      obtain rfl : y = x := by simpa using h
      simp [packFields, Nat.mod_eq_of_lt (wrap_lt y w)]
    | succ k =>
      have hdiv : packFields w (y :: r) / 2 ^ w = packFields w r := by
        rw [packFields, Nat.add_mul_div_left _ _ (by positivity), Nat.div_eq_of_lt (wrap_lt y w), Nat.zero_add]
      rw [Nat.mul_succ, Nat.add_comm, pow_add, ← Nat.div_div_eq_div_mul, hdiv]
      exact ih (by simpa using h)

/-! ### Channels -/

theorem chan_lt (p c : Nat) : chan p c < 256 := by
  have h : 8 * c + 7 + 1 - 8 * c = 8 := by omega
  rw [chan, nbits, h]
  exact Nat.mod_lt _ (by norm_num)

/-- A pixel is its four channels. -/
theorem channels_join {p : Nat} (h : p < 2 ^ 32) :
    (List.range 4).foldl (fun a c => a + chan p c * 2 ^ (8 * c)) 0 = p := by
  have hsum (f : Nat → Nat) : (List.range 4).foldl (fun a c => a + f c) 0 = f 0 + f 1 + f 2 + f 3 := by
    simp [List.range_succ]
  rw [hsum]
  simp only [chan, nbits, Nat.shiftRight_eq_div_pow]
  omega

/-- The delta of channel c from pixel q of a block to the next. -/
def pixelDelta (px : List Nat) (q c : Nat) : Int :=
  sx (wrap ((chan (px.getD (q + 1) 0) c : Int) - chan (px.getD q 0) c) 8) 8

/-- A channel is the one before and their delta. -/
theorem wrap_chan_add_pixelDelta (px : List Nat) (q c : Nat) :
    wrap ((chan (px.getD q 0) c : Int) + pixelDelta px q c) 8 = chan (px.getD (q + 1) 0) c := by
  have ha := chan_lt (px.getD q 0) c
  have hb := chan_lt (px.getD (q + 1) 0) c
  generalize hd : (chan (px.getD (q + 1) 0) c : Int) - chan (px.getD q 0) c = e
  have hmod : pixelDelta px q c % 2 ^ 8 = e % 2 ^ 8 := by
    rw [pixelDelta, hd, sx_eq_toInt (by norm_num), ofNat_wrap, BitVec.toInt_ofInt]
    exact Int.bmod_emod
  simp only [wrap]
  omega

/-! ### The deltas of a block (R283) -/

/-- Element c of part k of parts of n elements. -/
theorem getElem?_flatMap_of_length {α β : Type} {f : α → List β} {n c : Nat} (hf : ∀ a, (f a).length = n) (hc : c < n)
    (l : List α) (k : Nat) : (l.flatMap f)[n * k + c]? = l[k]?.bind fun a => (f a)[c]? := by
  induction l generalizing k with
  | nil => rfl
  | cons a r ih => cases k with
    | zero => simp [List.getElem?_append_left, hf, hc]
    | succ k =>
      have hk : n * (k + 1) + c - n = n * k + c := by rw [Nat.mul_succ]; omega
      rw [List.flatMap_cons, List.getElem?_append_right (by rw [hf, Nat.mul_succ]; omega), hf, hk, ih,
        List.getElem?_cons_succ]

theorem length_blockDeltas (px : List Nat) : (blockDeltas px).length = 252 := by
  simp [blockDeltas, upto, Function.comp_def]

theorem blockDeltas_getElem? (px : List Nat) {q c : Nat} (hq : q < 63) (hc : c < 4) :
    (blockDeltas px)[4 * q + c]? = some (pixelDelta px q c) := by
  rw [blockDeltas, getElem?_flatMap_of_length (by simp) hc]
  simp [upto, hq, hc, pixelDelta, Nat.add_comm 1 q]

/-- The least width is 1 to 7, and every delta of the block lies in its range. -/
theorem deltaWidth_spec {px : List Nat} {w : Nat} (h : deltaWidth (blockDeltas px) = some w) :
    1 ≤ w ∧ w ≤ 7 ∧ ∀ q < 63, ∀ c < 4,
      -(2 ^ (w - 1) : Nat) ≤ pixelDelta px q c ∧ pixelDelta px q c ≤ (2 ^ (w - 1) : Nat) - 1 := by
  have hw := List.mem_of_find?_eq_some h
  have hall := List.find?_some h
  simp only [upto, List.mem_map, List.mem_range] at hw
  simp only [List.all_eq_true, Bool.and_eq_true, decide_eq_true_eq] at hall
  obtain ⟨k, hk, rfl⟩ := hw
  exact ⟨by omega, by omega, fun q hq c hc => hall _ (List.mem_of_getElem? (blockDeltas_getElem? px hq hc))⟩

/-! ### Restoring a block -/

/-- The pixel that four fields make of the one before is the next pixel of the block. -/
theorem undelta_pixel {w field q : Nat} {px : List Nat} (hpx : px.getD (q + 1) 0 < 2 ^ 32)
    (hf : ∀ c < 4, sx (field / 2 ^ (w * (4 * q + c))) w = pixelDelta px q c) :
    (List.range 4).foldl (fun (a : Nat) c =>
      a + wrap ((chan (px.getD q 0) c : Int) + sx (field / 2 ^ (w * (4 * q + c))) w) 8 * 2 ^ (8 * c)) 0 =
      px.getD (q + 1) 0 := by
  refine (List.foldl_ext _ _ _ fun a c hc => ?_).trans (channels_join hpx)
  rw [hf c (List.mem_range.mp hc), wrap_chan_add_pixelDelta]

/-- Prefix sums of a block's deltas from pixel q on are the pixels after it. -/
theorem undelta_eq_drop {w field : Nat} {px : List Nat} (hpx : ∀ p ∈ px, p < 2 ^ 32)
    (hf : ∀ q, q + 1 < px.length → ∀ c < 4, sx (field / 2 ^ (w * (4 * q + c))) w = pixelDelta px q c) {n q : Nat}
    (hn : q + 1 + n = px.length) : undelta w field n q (px.getD q 0) = px.drop (q + 1) := by
  induction n generalizing q with
  | zero => rw [undelta, List.drop_of_length_le (by omega)]
  | succ n ih =>
    have hq : q + 1 < px.length := by omega
    have hget : px.getD (q + 1) 0 = px[q + 1] := List.getD_eq_getElem _ _ hq
    have hnext := undelta_pixel (hget ▸ hpx _ (List.getElem_mem hq)) (hf q hq)
    simp only [undelta, hnext]
    rw [ih (by omega), List.drop_eq_getElem_cons hq, hget]

/-! ### The modes -/

section Compress

variable {clear m : Nat} {px : List Nat} {bs : List Byte}

theorem all_clear_iff (h : px.length = 64) : px.all (· == clear) = true ↔ px = List.replicate 64 clear := by
  rw [List.eq_replicate_iff]
  simp [h]

/-- A block is equal to CLEAR, is stored as its deltas in the least width that holds them, or is stored raw. -/
theorem compress_cases (hlen : px.length = 64) (h : compress clear px = (m, bs)) :
    (px = List.replicate 64 clear ∧ m = 0 ∧ bs = []) ∨
    (∃ w, deltaWidth (blockDeltas px) = some w ∧ m = 0x40 + w ∧
      bs = leBytes 4 (px.headD 0) ++ leBytes (deltaBytes w - 4) (packFields w (blockDeltas px))) ∨
    (m = 0x80 ∧ bs = px.flatMap (leBytes 4)) := by
  rw [compress] at h
  split at h
  · next hc =>
    obtain ⟨rfl, rfl⟩ := Prod.mk.inj h
    exact .inl ⟨(all_clear_iff hlen).mp hc, rfl, rfl⟩
  · split at h
    · next w hw =>
      obtain ⟨rfl, rfl⟩ := Prod.mk.inj h
      exact .inr (.inl ⟨w, hw, rfl, rfl⟩)
    · obtain ⟨rfl, rfl⟩ := Prod.mk.inj h
      exact .inr (.inr ⟨rfl, rfl⟩)

theorem compress_clear (clear : Nat) : compress clear (List.replicate 64 clear) = (0, []) :=
  if_pos ((all_clear_iff List.length_replicate).mpr rfl)

/-- Deltas packed in a width that holds them, behind the first pixel, are restored to the block. -/
theorem decompress_deltas {w : Nat} (hlen : px.length = 64) (hpx : ∀ p ∈ px, p < 2 ^ 32)
    (hw : deltaWidth (blockDeltas px) = some w) : decompress clear (0x40 + w)
      (leBytes 4 (px.headD 0) ++ leBytes (deltaBytes w - 4) (packFields w (blockDeltas px))) = px := by
  obtain ⟨hw1, hw7, hrange⟩ := deltaWidth_spec hw
  have hhead : px.headD 0 = px.getD 0 0 := by cases px <;> rfl
  have hfirst : px.getD 0 0 < 2 ^ 32 := by
    rw [List.getD_eq_getElem _ _ (by omega)]
    exact hpx _ (List.getElem_mem _)
  have hfield : packFields w (blockDeltas px) % 2 ^ (8 * (deltaBytes w - 4)) = packFields w (blockDeltas px) := by
    refine Nat.mod_eq_of_lt ((packFields_lt w _).trans_le (Nat.pow_le_pow_right (by norm_num) ?_))
    rw [length_blockDeltas, deltaBytes]
    omega
  have hdeltas (q : Nat) (hq : q + 1 < px.length) (c : Nat) (hc : c < 4) :
      sx (packFields w (blockDeltas px) / 2 ^ (w * (4 * q + c))) w = pixelDelta px q c :=
    have hq' : q < 63 := by omega
    sx_of_mod_eq_wrap hw1 (hrange q hq' c hc).1 (hrange q hq' c hc).2
      (packFields_field w (blockDeltas_getElem? px hq' hc))
  have hm : (0x40 + w) / 64 ≠ 0 := by omega
  have hmw : (0x40 + w) % 64 = w := by omega
  rw [decompress, if_neg hm, List.take_left' (length_leBytes 4 _), List.drop_left' (length_leBytes 4 _), leNat_leBytes,
    leNat_leBytes, hfield, hmw, hhead, Nat.mod_eq_of_lt hfirst]
  dsimp only
  rw [undelta_eq_drop hpx hdeltas (by omega : 0 + 1 + 63 = px.length), List.getD_eq_getElem _ _ (by omega),
    ← List.drop_eq_getElem_cons (by omega), List.drop_zero]

/-- A mode of deltas is a legal one, and its slot has the bytes that the mode tells, at most 225. -/
theorem deltas_mode {w : Nat} (hw1 : 1 ≤ w) (hw7 : w ≤ 7) (p field : Nat) : modeOk (0x40 + w) = true ∧
    (leBytes 4 p ++ leBytes (deltaBytes w - 4) field).length = slotBytes (0x40 + w) ∧ slotBytes (0x40 + w) ≤ 225 := by
  have hdiv : (0x40 + w) / 64 = 1 := by omega
  have hmod : (0x40 + w) % 64 = w := by omega
  refine ⟨?_, ?_, ?_⟩
  · simp only [modeOk, hdiv, hmod, hw1, hw7, decide_true, Bool.and_self]
  · simp only [slotBytes, hdiv, hmod, if_true, List.length_append, length_leBytes, deltaBytes]
    omega
  · simp only [slotBytes, hdiv, hmod, if_true, deltaBytes]
    omega

end Compress

/-- Settles O41: the deltas of each channel are packed in fields that hold them, and prefix sums give the pixels
back. -/
theorem blockCompression : Obligations.BlockCompression := by
  refine ⟨compress_clear, fun clear px m bs hlen hpx _ h => ?_⟩
  rcases compress_cases hlen h with ⟨rfl, rfl, rfl⟩ | ⟨w, hw, rfl, rfl⟩ | ⟨rfl, rfl⟩
  case inl => exact ⟨rfl, fun _ => ⟨rfl, rfl, Nat.zero_le _⟩, fun h => absurd h (by norm_num)⟩
  case inr.inl =>
    obtain ⟨hw1, hw7, -⟩ := deltaWidth_spec hw
    obtain ⟨hok, hbytes, hmax⟩ := deltas_mode hw1 hw7 (px.headD 0) (packFields w (blockDeltas px))
    exact ⟨hok, fun _ => ⟨decompress_deltas hlen hpx hw, hbytes, hbytes ▸ hmax⟩, fun h => by omega⟩
  case inr.inr => exact ⟨rfl, fun h => absurd rfl h, fun _ => rfl⟩

end Sys2Proof.Laws
end

section
/-! SUPPORT. Engine programs: FORK, RDV and TQ, and the steps of the sequencers (R274, R299-R302). -/

namespace Sys2Proof.Laws

open Sys2Proof.Machine

/-! ### Sequencers that run (R300) -/

theorem seqOf_eq_none_iff {k : Core} {c : Bool} :
    k.seqOf c = none ↔ ∀ q ∈ k.seqs, q.copy ≠ c ∨ q.finished = true := by
  simp [Core.seqOf, List.find?_eq_none, imp_iff_not_or]

theorem seqOf_isSome_iff {k : Core} {c : Bool} :
    (k.seqOf c).isSome = true ↔ ∃ q ∈ k.seqs, q.copy = c ∧ q.finished = false := by
  simp [Core.seqOf, List.find?_isSome]

/-! ### FORK (R299) -/

section Fork

variable {x : Ctx} {off : Nat}

theorem offCause_of_unaligned (h : off % 8 ≠ 0) : x.offCause off = some Cause.align := if_pos h

theorem offCause_of_outside (h8 : off % 8 = 0) (h : x.g.pages.length * 4096 ≤ off) :
    x.offCause off = some Cause.prot := by rw [Ctx.offCause, if_neg (not_not_intro h8), if_pos h]

theorem offCause_of_inside (h8 : off % 8 = 0) (h : off < x.g.pages.length * 4096) : x.offCause off = none := by
  rw [Ctx.offCause, if_neg (not_not_intro h8), if_neg (Nat.not_le_of_lt h)]

/-- A fork whose first program breaks a rule raises its cause. -/
theorem fork_of_offCause {w : BitVec 6} {tok : Token} {p : Bool × Nat} {ps : List (Bool × Nat)} {cause : Nat}
    (h : x.offCause p.2 = some cause) : x.fork w tok (p :: ps) = x.raise cause := by
  simp only [Ctx.fork, List.findSome?_cons, h]

/-- The sequencer that a fork of the issuing set starts. -/
def startedSeq (x : Ctx) (w : BitVec 6) (tok : Token) (c : Bool) (off : Nat) : Seq :=
  { gk := x.g.gk, wslot := x.slot, off := off, idx := 0, cur := none, rep := none, copy := c, fork := x.s.fresh,
    atRdv := none, finished := false, failed := none, tok := tokNum tok, w := w.toNat, lanes := x.lanes,
    threads := x.ls.map x.slotOf, fence := x.w.sync, met := false }

/-- A fork of one program starts its sequencer, and its token, if it names one, is pending. -/
theorem fork_starts (w : BitVec 6) (tok : Token) (c : Bool) (h8 : off % 8 = 0) (hin : off < x.g.pages.length * 4096)
    (hfree : ∀ q ∈ (x.s.core x.core).seqs, q.copy ≠ c ∨ q.finished = true) : x.fork w tok [(c, off)] =
      tok.elim id (fun t s => s.pendTok x.core x.g.gk (x.slot, t.toNat))
        ((x.done x.s.bump fun _ th => th).modCore x.core fun k =>
          { k with seqs := k.seqs ++ [startedSeq x w tok c off] }) := by
  simp only [Ctx.fork, List.findSome?_cons, List.findSome?_nil, offCause_of_inside h8 hin, List.find?_cons,
    seqOf_eq_none_iff.mpr hfree, Option.isSome_none, List.find?_nil]
  cases tok <;> rfl

/-- While one of its kind runs a fork stalls. -/
theorem fork_stalls (w : BitVec 6) (tok : Token) {c : Bool} (h8 : off % 8 = 0) (hin : off < x.g.pages.length * 4096)
    (hrun : ∃ q ∈ (x.s.core x.core).seqs, q.copy = c ∧ q.finished = false) :
    x.fork w tok [(c, off)] = x.stall x.s (.seq c) := by
  simp only [Ctx.fork, List.findSome?_cons, List.findSome?_nil, offCause_of_inside h8 hin, List.find?_cons,
    seqOf_isSome_iff.mpr hrun]

end Fork

theorem does_forkMx (w a : BitVec 6) (tok : Token) :
    Does (.forkMx w a tok) fun x => x.fork w tok [(false, (x.u a.toNat).toNat)] :=
  does_of_eq (fun _ => by dsimp only [exec]; rfl) fun _ => rfl

theorem does_forkCp (w a : BitVec 6) (tok : Token) :
    Does (.forkCp w a tok) fun x => x.fork w tok [(true, (x.u a.toNat).toNat)] :=
  does_of_eq (fun _ => by dsimp only [exec]; rfl) fun _ => rfl

theorem does_forkBoth (w a : BitVec 6) (tok : Token) : Does (.forkBoth w a tok) fun x =>
    x.fork w tok [(false, (x.u a.toNat).toNat), (true, (x.u (a.toNat + 1)).toNat)] :=
  does_of_eq (fun _ => by dsimp only [exec]; rfl) fun _ => rfl

/-- What a word does at every set it does at those that meet a condition, in other words where they agree there. -/
theorem doesWhen_of_does {i : Instr} {e f : Ctx → State} {c : Ctx → Prop} (h : Does i e) (hef : ∀ x, c x → e x = f x) :
    DoesWhen i c f := fun s x hr hc => (h s x hr).trans (by rw [performed_congr (hef _ hc)])

theorem forkMx_starts (w a : BitVec 6) : DoesWhen (.forkMx w a none) (fun x => (x.u a.toNat).toNat % 8 = 0 ∧
      (x.u a.toNat).toNat < x.g.pages.length * 4096 ∧
      (∀ q ∈ (x.s.core x.core).seqs, q.copy = true ∨ q.finished = true)) fun x =>
    (x.done x.s.bump fun _ th => th).modCore x.core fun k =>
      { k with seqs := k.seqs ++ [startedSeq x w none false (x.u a.toNat).toNat] } :=
  doesWhen_of_does (does_forkMx w a none) fun _ ⟨h8, hin, hfree⟩ =>
    fork_starts w none false h8 hin fun q hq => (hfree q hq).imp_left (by simp [·])

theorem forkCp_starts (w a t : BitVec 6) : DoesWhen (.forkCp w a (some t)) (fun x =>
      (x.u a.toNat).toNat % 8 = 0 ∧ (x.u a.toNat).toNat < x.g.pages.length * 4096 ∧
      (∀ q ∈ (x.s.core x.core).seqs, q.copy = false ∨ q.finished = true)) fun x =>
    ((x.done x.s.bump fun _ th => th).modCore x.core fun k =>
      { k with seqs := k.seqs ++ [startedSeq x w (some t) true (x.u a.toNat).toNat] }).pendTok x.core x.g.gk
        (x.slot, t.toNat) :=
  doesWhen_of_does (does_forkCp w a (some t)) fun _ ⟨h8, hin, hfree⟩ =>
    fork_starts w (some t) true h8 hin fun q hq => (hfree q hq).imp_left (by simp [·])

/-! ### RDV (R301) -/

theorem rdv_without_fork (n : BitVec 3) : DoesWhen (.rdv n) (fun x => ∀ q ∈ (x.s.core x.core).seqs, q.gk ≠ x.g.gk)
    fun x => (x.done x.s fun _ th => th).sync x.core x.g x.slot :=
  doesWhen_of_eq (fun _ => by dsimp only [exec]; rfl) fun x h => if_pos (by simpa using h)

theorem rdv_arrives (n : BitVec 3) : DoesWhen (.rdv n) (fun x => ∃ q ∈ (x.s.core x.core).seqs, q.gk = x.g.gk) fun x =>
    ((x.s.core x.core).seqs.filter fun q => q.gk == x.g.gk).foldl
      (fun (s : State) q => s.rendezvous x.core q rdvFuel) (x.waitAt x.s.bump x.ls (.rdv n.toNat x.s.fresh)) :=
  doesWhen_of_eq (fun _ => by dsimp only [exec]; rfl) fun x h => if_neg (by simpa using h)

/-! ### TQ (R302) -/

theorem tq_no_form (a : BitVec 6) : DoesWhen (.tq a) (fun x => seqEntry false ((x.u64 a.toNat).toNat % 2 ^ 63) = none ∧
      seqEntry true ((x.u64 a.toNat).toNat % 2 ^ 63) = none) fun x => x.raise Cause.illop :=
  doesWhen_of_eq (fun _ => by dsimp only [exec]; rfl) fun x ⟨hm, hc⟩ => by simp only [hm, hc, Option.orElse]

/-- An entry is taken as one of the matrix sequencer, else as one of the copy sequencer (log 39). -/
theorem seqEntry_orElse {e : Nat} {r : Instr × Nat × Bool}
    (h : seqEntry false e = some r ∨ (seqEntry false e = none ∧ seqEntry true e = some r)) :
    ((seqEntry false e).orElse fun _ => seqEntry true e) = some r := by
  rcases h with h | ⟨hm, hc⟩
  · rw [h]; rfl
  · rw [hm, hc]; rfl

theorem tq_enters (a : BitVec 6) (i : Instr) (reps : Nat) (last : Bool) (mk : MeldOp) (hi : engineWord i = some mk) :
    DoesWhen (.tq a) (fun x =>
      (seqEntry false ((x.u64 a.toNat).toNat % 2 ^ 63) = some (i, reps, last) ∨
        (seqEntry false ((x.u64 a.toNat).toNat % 2 ^ 63) = none ∧
          seqEntry true ((x.u64 a.toNat).toNat % 2 ^ 63) = some (i, reps, last))) ∧
      (∀ e ∈ x.w.tqs, e.isOf x = false) ∧ gate i x = .go ∧ x.s.opCheck x.core x.g (x.w.opOf i) = none)
      fun x => x.tqOp i reps := by
  refine doesWhen_of_eq (fun _ => by dsimp only [exec]; rfl) fun x ⟨he, hnew, hgate, hcheck⟩ => ?_
  have hgoing : (x.w.tqs.any (·.isOf x)) = false := by simpa using hnew
  dsimp only
  rw [seqEntry_orElse he]
  dsimp only
  split
  · simp [engineWord] at hi
  · simp [engineWord] at hi
  · simp only [hgoing, hgate, hcheck, Bool.false_eq_true, if_false]

/-! ### The steps of a sequencer (R274, R300) -/

section Step

variable {s : State} {core : Nat} {q : Seq} {g : Group} {w : Warp}

theorem exec_sequencerEntry (core : Nat) (c : Bool) (s : State) :
    exec (.sequencerEntry core c) s = execSequencerEntry core c s := by dsimp only [exec]

theorem sequencerEntry_idle {c : Bool} (h : ∀ q ∈ (s.core core).seqs, q.copy ≠ c ∨ q.finished = true) :
    exec (.sequencerEntry core c) s = .next s := by
  simp only [exec_sequencerEntry, execSequencerEntry, seqOf_eq_none_iff.mpr h]

theorem sequencerEntry_steps {c : Bool}
    (h : (s.core core).seqs.find? (fun q => q.copy == c && !q.finished) = some q) :
    exec (.sequencerEntry core c) s = .next ((s.seqStep core q).rendezvous core q rdvFuel) := by
  simp only [exec_sequencerEntry, execSequencerEntry, Core.seqOf, h]

/-- A sequencer whose fork has not failed performs its current entry. -/
theorem seqStep_performs {e reps : Nat} {i : Instr} {last : Bool} (hg : s.group? core q.gk = some g)
    (hw : g.warp? q.wslot = some w) (hstop : g.stop = none) (hfin : q.finished = false)
    (hent : (s.core core).entering g.gang = false) (hfail : q.failed = none)
    (hfork : ∀ r ∈ (s.core core).seqs, q.forks r = true → r.failed = none) (hidx : q.idx < 256)
    (he : s.seqAt core g q q.idx = .ok e) (hi : seqEntry q.copy e = some (i, reps, last)) :
    s.seqStep core q =
      (s.modSeq core q fun r => { r with cur := some e }).seqPerform core g { q with cur := some e } w i reps last := by
  have hnone : ((s.core core).seqs.any fun r => q.forks r && r.failed.isSome) = false := by
    simpa using hfork
  have hend : q.idx ≠ seqEnd := by rw [seqEnd]; omega
  simp only [State.seqStep, hg, hw, Option.bind_some, Option.map_some, hstop, hfin, hent, hfail, hnone,
    Option.isSome_none, Bool.or_self, Bool.false_eq_true, if_false, if_neg hend, if_neg (Nat.not_le_of_lt hidx), he, hi]

/-- Nothing of a gang that is being restored steps. -/
theorem seqStep_of_entering (hg : s.group? core q.gk = some g) (hent : (s.core core).entering g.gang = true) :
    s.seqStep core q = s := by
  rw [State.seqStep, hg, Option.bind_some]
  cases g.warp? q.wslot with
  | none => rfl
  | some w => exact if_pos (by rw [hent, Bool.or_true])

/-- The current entry is as it was read. -/
theorem seqAt_current {e : Nat} (h : q.cur = some e) : s.seqAt core g q q.idx = .ok e := by
  simp only [State.seqAt, h, if_true]

theorem rendezvous_passes {n k : Nat} (h : (List.range 8).find? (s.rdvReady core q) = some k) :
    s.rendezvous core q (n + 1) = (s.rdvPass core q k).rendezvous core q n := by simp only [State.rendezvous, h]

theorem rendezvous_unready (n : Nat) (h : ∀ k, k < 8 → s.rdvReady core q k = false) : s.rendezvous core q n = s := by
  have hnone : (List.range 8).find? (s.rdvReady core q) = none := by
    rw [List.find?_eq_none]
    intro k hk
    rw [h k (List.mem_range.mp hk)]
    exact Bool.false_ne_true
  cases n with
  | zero => rfl
  | succ n => simp only [State.rendezvous, hnone]

end Step

/-- Settles O33: a fork by its programs' places and the sequencers that run, TQ by the form of its entry, a step by the
sequencer's entry and its fork. -/
theorem enginePrograms : Obligations.EnginePrograms :=
  ⟨forkMx_starts, forkCp_starts, does_forkMx, does_forkCp, does_forkBoth,
    fun _ _ _ _ _ h => fork_of_offCause (offCause_of_unaligned h),
    fun _ _ _ _ _ h8 h => fork_of_offCause (offCause_of_outside h8 h),
    fun _ w t _ _ => fork_stalls w t, rdv_without_fork, rdv_arrives, tq_no_form, tq_enters,
    fun _ _ _ => sequencerEntry_idle, fun _ _ _ _ => sequencerEntry_steps,
    fun _ _ _ _ _ _ _ _ _ => seqStep_performs, fun _ _ _ _ => seqStep_of_entering, fun _ _ _ _ _ => seqAt_current,
    fun _ _ _ _ _ => rendezvous_passes, fun _ _ _ n => rendezvous_unready n⟩

end Sys2Proof.Laws
end

section
/-! SUPPORT. ENQ, the answer to a remote push, and the pushes of other modules (R267, R268, R303, R304, R316). -/

namespace Sys2Proof.Laws

open Sys2Proof.Machine

/-! ### One lane of ENQ (R303, R304) -/

section Enq

variable {x : Ctx} {a b : BitVec 7} {l : Nat}

theorem enqLane_unaligned (d : BitVec 7) (s : State) (h : (x.v64 a.toNat l).toNat % 128 ≠ 0) :
    x.enqLane d a b s l = .bad s Cause.align := by
  rw [Ctx.enqLane]
  exact if_pos h

/-- A queue word that breaks a rule is found once the record has been read. -/
theorem enqLane_badWord (d : BitVec 7) {s : State} {bs : List Byte} (h : (x.v64 a.toNat l).toNat % 128 = 0)
    (hread : s.loadWords x.space x.die (x.v64 a.toNat l).toNat 16 = .ok bs)
    (hw : qwordBad (x.v b.toNat l).toNat = true) : x.enqLane d a b s l =
      .bad (s.touchSpan x.space x.die (x.v64 a.toNat l).toNat 128) Cause.prot := by
  rw [Ctx.enqLane]
  refine (if_neg (not_not_intro h)).trans ?_
  rw [hread]
  exact if_pos hw

end Enq

/-! ### The answer to a remote push (R267) -/

section Answer

variable {s t : State} {p : Push} {r : List Push} {acc : Bool}

/-- A push whose count falls ends, and its issuer learns of it. -/
theorem pushAck_counted (h : State.pushDone { s with pushes := s.pushes.erase p } p = .ok t ()) :
    s.pushAck p acc = t.pushResult p acc := by simp only [State.pushAck, h]

/-- A push whose count's page is being moved keeps its answer. -/
theorem pushAck_waits (h : State.pushDone { s with pushes := s.pushes.erase p } p = .wait) : s.pushAck p acc =
    { s with pushes := s.pushes.map fun r => if r = p then { p with answer := some acc } else r } := by
  simp only [State.pushAck, h]

theorem exec_pushAcknowledgement (acc : Bool) (s : State) :
    exec (.pushAcknowledgement acc) s = execPushAcknowledgement acc s := by dsimp only [exec]

theorem pushAcknowledgement_of_none (h : ∀ p ∈ s.pushes, p.answer.isSome = true) :
    exec (.pushAcknowledgement acc) s = .next s := by
  have hnone : (s.pushes.find? fun p => p.answer.isNone) = none := by
    simpa [List.find?_eq_none, Option.isSome_iff_ne_none] using h
  simp only [exec_pushAcknowledgement, execPushAcknowledgement, hnone]

theorem pushAcknowledgement_of_head (hp : s.pushes = p :: r) (ha : p.answer = none) :
    exec (.pushAcknowledgement acc) s = .next (s.pushAck p acc) := by
  have hfind : (s.pushes.find? fun p => p.answer.isNone) = some p := by rw [hp]; simp [ha]
  simp only [exec_pushAcknowledgement, execPushAcknowledgement, hfind]

theorem pushAcknowledgement_counted (hp : s.pushes = p :: r) (ha : p.answer = none)
    (h : State.pushDone { s with pushes := r } p = .ok t ()) :
    exec (.pushAcknowledgement acc) s = .next (t.pushResult p acc) := by
  rw [pushAcknowledgement_of_head hp ha, pushAck_counted (by rw [hp, List.erase_cons_head]; exact h)]

theorem pushAcknowledgement_waits (hp : s.pushes = p :: r) (ha : p.answer = none) (hr : p ∉ r)
    (h : State.pushDone { s with pushes := r } p = .wait) : exec (.pushAcknowledgement acc) s =
      .next { s with pushes := { p with answer := some acc } :: r } := by
  have hrest : (r.map fun q => if q = p then { p with answer := some acc } else q) = r :=
    (List.map_congr_left fun q hq => if_neg (ne_of_mem_of_not_mem hq hr)).trans (List.map_id r)
  rw [pushAcknowledgement_of_head hp ha, pushAck_waits (by rw [hp, List.erase_cons_head]; exact h), hp, List.map_cons,
    if_pos rfl, hrest]

/-- A push that has its answer ends in the clock in which its count can fall. -/
theorem answeredPushes_counted (hp : s.pushes = [p]) (ha : p.answer = some acc)
    (h : State.pushDone { s with pushes := [] } p = .ok t ()) : s.answeredPushes = t.pushResult p acc := by
  rw [State.answeredPushes, hp]
  simp only [List.foldl_cons, List.foldl_nil, ha]
  exact pushAck_counted (by rw [hp, List.erase_cons_head]; exact h)

end Answer

/-! ### What the issuer learns (R222, R304) -/

section Result

variable {s : State} {p : Push} {g : Group} {acc : Bool}

/-- A register is in no pipe of a core that has none. -/
theorem pushFill_of_no_pipes (h : (s.core p.core).pipes = []) : s.pushFill p = s := by
  rw [State.pushFill]
  split
  · rfl
  · simp only [Core.pipeAt, h, List.findSome?_nil]

theorem pushResult_of_ended (hg : s.group? p.core p.gk = some g) (hreplay : g.replay = false)
    (hrec : s.recorderOf g.gang = none) (hlive : p.live = false) : s.pushResult p acc = s := by
  simp only [State.pushResult, hg, hreplay, hlive, Bool.not_false, Bool.false_eq_true, if_false, if_true,
    recordOf_of_unrecorded hrec, ite_self]

theorem pushResult_of_live (hg : s.group? p.core p.gk = some g) (hreplay : g.replay = false)
    (hrec : s.recorderOf g.gang = none) (hlive : p.live = true) (hpipes : (s.core p.core).pipes = []) :
    s.pushResult p acc = s.modGroup p.core p.gk fun g => (g.modThread p.slot fun th =>
      { th with vr := sset th.vr p.d (if acc then 0 else 2) 0, vpoison := th.vpoison.filter (· != p.d),
                vpend := eraseOne th.vpend p.d }).answered p.slot := by
  have hpipes' (f : Group → Group) : ((s.modGroup p.core p.gk f).core p.core).pipes = [] := by
    rw [core_modGroup_self s _ _ f (groups_ne_nil hg), core_modGroup_pipes, hpipes]
  have hrec' (f : Group → Group) : (s.modGroup p.core p.gk f).recorderOf g.gang = none := hrec
  simp only [State.pushResult, hg, hreplay, hlive, Bool.not_true, Bool.false_eq_true, if_false,
    pushFill_of_no_pipes (hpipes' _), recordOf_of_unrecorded (hrec' _), ite_self]

end Result

/-! ### Pushes of other modules (R316) -/

section Remote

variable {ep : BitVec 18} {q : BitVec 9} {record : List Byte} {s t : State}

theorem exec_remotePush (ep : BitVec 18) (q : BitVec 9) (record : List Byte) (s : State) :
    exec (.remotePush ep q record) s = execRemotePush ep q record s := by dsimp only [exec]

theorem remotePush_answered {taken : Bool} (h : s.takePush ep q.toNat record = .ok t taken) :
    exec (.remotePush ep q record) s = .next (t.reply (if taken then .ack else .refused)) := by
  simp only [exec_remotePush, execRemotePush, h]

theorem remotePush_waits (h : s.takePush ep q.toNat record = .wait) : exec (.remotePush ep q record) s =
    .next { s with heldPushes := s.heldPushes ++ [(ep, q, record)] } := by
  simp only [exec_remotePush, execRemotePush, h]

theorem takePush_of_not_exported (n : Nat) (h : s.exported ep 21 0 0 = false) :
    s.takePush ep n record = .ok s false := by
  simp only [State.takePush, h, Bool.and_false, Bool.false_and, Bool.false_eq_true, if_false]

end Remote

/-- Settles O34: a lane of ENQ by its address and its queue word, a push by its answer and whether its count can
fall. -/
theorem queueSubmission : Obligations.QueueSubmission :=
  ⟨fun _ _ _ => does_of_eq (fun _ => by dsimp only [exec]; rfl) fun _ => rfl,
    fun _ d _ _ s _ => enqLane_unaligned d s, fun _ d _ _ _ _ _ => enqLane_badWord d,
    fun _ _ => pushAcknowledgement_of_none, fun _ _ _ _ _ => pushAcknowledgement_counted,
    fun _ _ _ _ => pushAcknowledgement_waits, fun _ _ _ _ => answeredPushes_counted,
    fun _ _ _ _ => pushResult_of_ended, fun _ _ _ _ => pushResult_of_live, fun _ _ _ _ _ => remotePush_answered,
    fun _ _ _ _ _ => remotePush_answered, fun _ _ _ _ => remotePush_waits, fun _ q _ _ => takePush_of_not_exported q⟩

end Sys2Proof.Laws
end

section
/-! SUPPORT. Commits and flushes of draws, the issue of tiles, and BIN (R275-R281, R306-R308, R321, R322). -/

namespace Sys2Proof.Laws

open Sys2Proof.Machine

theorem exec_commit (key : Nat) (s : State) : exec (.commit key) s = .next (s.commitNext key) := by
  dsimp only [exec]; rfl

theorem exec_flushComplete (key : Nat) (s : State) : exec (.flushComplete key) s = .next (s.flushDone key) := by
  dsimp only [exec]; rfl

theorem exec_flushStall (key : Nat) (s : State) : exec (.flushStall key) s = execFlushStall key s := by
  dsimp only [exec]

theorem exec_binningStall (key : Nat) (s : State) : exec (.binningStall key) s = execBinningStall key s := by
  dsimp only [exec]

theorem exec_tileIssue (key tile core : Nat) (s : State) :
    exec (.tileIssue key tile core) s = execTileIssue key tile core s := by dsimp only [exec]

/-- No step of a draw that is gone does anything. -/
theorem draw_gone {key : Nat} {s : State} (h : s.drawOf key = none) :
    exec (.commit key) s = .next s ∧ exec (.flushComplete key) s = .next s ∧ exec (.flushStall key) s = .next s ∧
      exec (.binningStall key) s = .next s ∧ ∀ tile core, exec (.tileIssue key tile core) s = .next s := by
  simp only [exec_commit, exec_flushComplete, exec_flushStall, exec_binningStall, exec_tileIssue, State.commitNext,
    State.flushDone, execFlushStall, execBinningStall, execTileIssue, h, and_self, implies_true]

/-! ### The pool blocks of a draw's lists (R321, R322, logs 88 and 95) -/

/-- What stops the translation of one block stops that of a list. -/
theorem foldl_andThen_of_stuck {α β : Type} {r : EngRes α} (hr : ∀ k : α → EngRes α, r.andThen k = r) (f : β → EngRes α)
    (l : List β) : l.foldl (fun (acc : EngRes α) e => acc.andThen fun _ => f e) r = r := by
  induction l with
  | nil => rfl
  | cons e l ih => rw [List.foldl_cons, hr, ih]

section Pool

variable {s : State} {d e : Draw} {b : Nat × Nat}

theorem poolReady_of_moving (l : List (Nat × Nat)) (h : s.translate (s.schedSpace d.ctx) .store
    (DrawD.pool d.desc + 4096 * b.1) = .wait) : s.poolReady d (b :: l) = .wait := by
  simp only [State.poolReady, List.foldl_cons, EngRes.andThen, Draw.poolAddr, h]
  exact foldl_andThen_of_stuck (fun _ => rfl) _ l

theorem poolReady_of_missing (l : List (Nat × Nat)) (h : s.translate (s.schedSpace d.ctx) .store
    (DrawD.pool d.desc + 4096 * b.1) = .bad Cause.page) :
    s.poolReady d (b :: l) = .page (DrawD.pool d.desc + 4096 * b.1) := by
  simp only [State.poolReady, List.foldl_cons, EngRes.andThen, Draw.poolAddr, h, if_true]
  exact foldl_andThen_of_stuck (fun _ => rfl) _ l

theorem putDraw_ready (h : s.poolReady e (d.added e) = .ok ()) : s.putDraw d e =
    (d.added e).foldl (fun (t : State) b => t.poolPut e b) (s.modDraw d.key fun _ => { e with stopped := none }) := by
  simp only [State.putDraw, h]

theorem putDraw_missing {va : Nat} (h : s.poolReady e (d.added e) = .page va) (hs : d.stopped ≠ some va) :
    s.putDraw d e = (s.modDraw d.key fun d => { d with stopped := some va }).faultRecord 0 d.ctx va := by
  simp only [State.putDraw, h, if_neg hs]

theorem putDraw_waits (h : s.poolReady e (d.added e) = .wait) : s.putDraw d e = s := by
  simp only [State.putDraw, h]

theorem poolTries_iff : s.poolTries d = true ↔ d.stopped = none ∨ s.clk % 4096 = 0 := by
  simp [State.poolTries]

end Pool

/-! ### Commits and flushes (R277, R280) -/

section Commit

variable {key : Nat} {s : State} {d : Draw} {f : Flush}

theorem commit_held (hd : s.drawOf key = some d) (h : d.killed = true ∨ d.flush.isSome = true ∨ s.mp1Open = false ∨
    (d.stopped.isSome = true ∧ s.clk % 4096 ≠ 0) ∨ ∀ e ∈ d.buf, e.1 ≠ d.next) : exec (.commit key) s = .next s := by
  have hnext : (d.killed || d.flush.isSome || !s.mp1Open || !s.poolTries d) = true ∨
      d.buf.find? (fun e => e.1 == d.next) = none := by
    rcases h with h | h | h | ⟨hs, hc⟩ | h
    · exact .inl (by simp [h])
    · exact .inl (by simp [h])
    · exact .inl (by simp [h])
    · have htries : s.poolTries d = false := by simp [State.poolTries, Option.isNone_eq_false_iff.mpr hs, hc]
      exact .inl (by simp [htries])
    · exact .inr (by simpa [List.find?_eq_none] using h)
  rcases hnext with hheld | hnone
  · simp only [exec_commit, State.commitNext, hd, hheld, if_true]
  · simp only [exec_commit, State.commitNext, hd, hnone, ite_self]

theorem commit_commits {die : Nat} {p : Prim} (hd : s.drawOf key = some d) (hk : d.killed = false)
    (hf : d.flush = none) (hm : s.mp1Open = true)
    (hp : d.buf.find? (fun e => e.1 == d.next) = some (d.next, die, p)) (ht : d.stopped = none ∨ s.clk % 4096 = 0) :
    exec (.commit key) s = .next ((s.putDraw d (d.commit s.clk p)).flushNote key) := by
  simp only [exec_commit, State.commitNext, hd, hk, hf, hm, poolTries_iff.mpr ht, hp, Option.isSome_none, Bool.not_true,
    Bool.or_self, Bool.false_eq_true, if_false]

/-- A primitive with no record left to place is committed: the next one is due, and it holds no commits. -/
theorem finish_placed (d : Draw) (clk : Nat) (p : Prim) : (d.place p []).2 = [] ∧
    (d.finish clk p []).next = d.next + 1 ∧ (d.finish clk p []).flush = none ∧
      ∀ e ∈ (d.finish clk p []).buf, e.1 ≠ d.next :=
  ⟨rfl, rfl, rfl, fun _ he => bne_iff_ne.mp (List.mem_filter.mp he).2⟩

theorem flushComplete_completes (hd : s.drawOf key = some d) (hf : d.flush = some f) (hs : f.stuck = false)
    (htodo : f.todo = []) (hm : s.mp1Open = true) (ht : d.stopped = none ∨ s.clk % 4096 = 0)
    (hsaved : ∀ t ∈ f.tiles, (d.tile t).state = .partialSaved) : exec (.flushComplete key) s =
      .next ((s.putDraw d ((d.freeBlocks f.tiles).finish s.clk f.prim f.held)).flushNote key) := by
  have hall : (f.tiles.any fun t => (d.tile t).state != .partialSaved) = false := by simpa using hsaved
  simp only [exec_flushComplete, State.flushDone, hd, hf, hs, htodo, hm, poolTries_iff.mpr ht, hall, List.isEmpty_nil,
    Bool.not_true, Bool.or_self, Bool.false_eq_true, if_false]

theorem flush_none (hd : s.drawOf key = some d) (hf : d.flush = none) :
    exec (.flushComplete key) s = .next s ∧ exec (.flushStall key) s = .next s := by
  simp only [exec_flushComplete, State.flushDone, exec_flushStall, execFlushStall, hd, hf, and_self]

theorem flushStall_evicts (hd : s.drawOf key = some d) (hf : d.flush = some f) :
    exec (.flushStall key) s = .next (s.flushEvict d f) := by
  simp only [exec_flushStall, execFlushStall, hd, hf]

theorem flushEvict_idle (h : f.stuck = true ∨ f.todo = [] ∨ s.clk < f.since + 4096) : s.flushEvict d f = s := by
  have hidle : (f.stuck || f.todo.isEmpty || decide (s.clk < f.since + 4096)) = true := by
    simpa [or_assoc] using h
  rw [State.flushEvict, if_pos hidle]

theorem binningStall_reports (hd : s.drawOf key = some d) (hk : d.killed = false)
    (hn : d.next < DrawD.prims d.desc) (hc : d.since + 2 ^ 24 ≤ s.clk) : exec (.binningStall key) s =
      .next ((s.emit (.binStall key d.next)).modDraw key fun d => { d with since := s.clk }) := by
  simp only [exec_binningStall, execBinningStall, hd, hk, decide_eq_false (Nat.not_le_of_lt hn),
    decide_eq_false (Nat.not_lt_of_le hc), Bool.or_self, Bool.false_eq_true, if_false]

theorem binningStall_not_due (hd : s.drawOf key = some d)
    (h : d.killed = true ∨ DrawD.prims d.desc ≤ d.next ∨ s.clk < d.since + 2 ^ 24) :
    exec (.binningStall key) s = .next s := by
  have hidle : (d.killed || decide (DrawD.prims d.desc ≤ d.next) || decide (s.clk < d.since + 2 ^ 24)) = true := by
    simpa [or_assoc] using h
  simp only [exec_binningStall, execBinningStall, hd, hidle, if_true]

end Commit

/-! ### The issue of a tile (R279, R280, R348) -/

section Issue

variable {key tile core : Nat} {s : State} {d : Draw} {final : Bool}

theorem nextTile_final_state {t : Nat} (h : d.nextTile = some (t, true)) :
    (d.tile t).state = .unseen ∨ (d.tile t).state = .binned ∨ (d.tile t).state = .partialSaved := by
  rw [Draw.nextTile] at h
  split at h
  · cases h
  · split at h
    · split at h
      · cases h
      · simp at h
    · split at h
      · cases h
      · obtain ⟨u, hu, htu⟩ := Option.map_eq_some_iff.mp h
        obtain rfl : u = t := congrArg Prod.fst htu
        simpa [or_assoc] using List.find?_some hu

theorem tileIssue_none (hd : s.drawOf key = some d) (hn : d.nextTile = none) :
    exec (.tileIssue key tile core) s = .next s := by
  simp only [exec_tileIssue, execTileIssue, hd, hn]

/-- With meeting point 1 open and no pre-emption, the next tile meets its context, its core and its turn. -/
theorem tileIssue_of_open (hd : s.drawOf key = some d) (hn : d.nextTile = some (tile, final))
    (hm : s.mp1Open = true) (hp : s.preempt = none) : exec (.tileIssue key tile core) s =
      if !s.ctxUsable d.ctx then .next (s.emitOnce (.tileHold key tile))
      else if s.tileCore d ≠ some core ∨ (final = true ∧ s.chosen ≠ some (.tile key)) then .next s
      else .next (s.issueTile core d tile final) := by
  simp only [exec_tileIssue, execTileIssue, hd, hn, hm, hp, ne_eq, not_true_eq_false, Option.any_none,
    Bool.true_eq_false, Bool.false_eq_true, or_self, if_false]

theorem tileIssue_issues (hd : s.drawOf key = some d) (hn : d.nextTile = some (tile, final))
    (hm : s.mp1Open = true) (hp : s.preempt = none) (hctx : s.ctxUsable d.ctx = true)
    (hcore : s.tileCore d = some core) (hturn : final = true → s.chosen = some (.tile key)) :
    exec (.tileIssue key tile core) s = .next (s.issueTile core d tile final) := by
  have hgo : ¬(s.tileCore d ≠ some core ∨ (final = true ∧ s.chosen ≠ some (.tile key))) := fun h =>
    h.elim (· hcore) fun ⟨hf, hc⟩ => hc (hturn hf)
  rw [tileIssue_of_open hd hn hm hp, hctx, if_neg hgo]
  rfl

theorem tileIssue_held (hd : s.drawOf key = some d) (hn : d.nextTile = some (tile, final))
    (hm : s.mp1Open = true) (hp : s.preempt = none) (hctx : s.ctxUsable d.ctx = false) :
    exec (.tileIssue key tile core) s = .next (s.emitOnce (.tileHold key tile)) := by
  rw [tileIssue_of_open hd hn hm hp, hctx]
  rfl

theorem tileIssue_preempted {p : Preempt} {sc : Scope} (hd : s.drawOf key = some d) (hp : s.preempt = some p)
    (hsc : sc ∈ p.scopes) (hstop : Scope.stopsTile sc d tile core = true) :
    exec (.tileIssue key tile core) s = .next s := by
  simp only [exec_tileIssue, execTileIssue, hd, hp, Option.any_some]
  split
  · rfl
  · next t final hn =>
    refine if_pos ?_
    by_cases ht : t = tile
    · exact .inr (.inr (List.any_eq_true.mpr ⟨sc, hsc, ht ▸ hstop⟩))
    · exact .inl ht

end Issue

/-! ### Submissions (R277) -/

section Submit

variable {x : Ctx} {s : State} {va : Nat} {p : Prim} {d : Draw}

theorem bindDraw_bound (r : DrawRead) (hd : s.boundDraw x.g.ctx va = some d) : x.bindDraw s va r = (s, d) := by
  simp only [Ctx.bindDraw, hd]

/-- A number that has been accepted is skipped for the thread that sent it, and refused for any other. -/
theorem submit_again {e : Accepted} (l : Nat) (r : DrawRead) (hd : s.boundDraw x.g.ctx va = some d)
    (he : d.accepted.find? (fun e => e.s == p.s) = some e) : x.submit s va l r p =
      if e.gid = x.g.gid ∧ e.tid = (x.th l).tid then .taken s else .bad := by
  simp only [Ctx.submit, bindDraw_bound r hd, he]

section First

variable (l : Nat) (r : DrawRead) (hd : s.boundDraw x.g.ctx va = some d) (hnew : ∀ e ∈ d.accepted, e.s ≠ p.s)
include hd hnew

omit hd in
theorem find_accepted_none : d.accepted.find? (fun e => e.s == p.s) = none := by
  simpa [List.find?_eq_none] using hnew

theorem submit_beyond (hp : DrawD.prims d.desc ≤ p.s) : x.submit s va l r p = .bad := by
  simp only [Ctx.submit, bindDraw_bound r hd, find_accepted_none hnew, if_pos hp]

theorem submit_next (hp : p.s < DrawD.prims d.desc) (hn : p.s = d.next) : ∃ t, x.submit s va l r p = .taken t := by
  simp only [Ctx.submit, bindDraw_bound r hd, find_accepted_none hnew, if_neg (Nat.not_le_of_lt hp), if_pos hn]
  exact ⟨_, rfl⟩

theorem submit_full (hp : p.s < DrawD.prims d.desc) (hn : p.s ≠ d.next) (hfull : 256 ≤ s.dieBuffer x.die) :
    x.submit s va l r p = .full d.key := by
  simp only [Ctx.submit, bindDraw_bound r hd, find_accepted_none hnew, if_neg (Nat.not_le_of_lt hp), if_neg hn,
    if_neg (Nat.not_lt_of_le hfull)]

end First

end Submit

/-! ### BIN (R308, log 54) -/

/-- What a word does at the sets of one condition it does at those of a stronger one, in other words where they
agree. -/
theorem doesWhen_weaken {i : Instr} {c k : Ctx → Prop} {e f : Ctx → State} (h : DoesWhen i c e)
    (hk : ∀ x, k x → c x ∧ e x = f x) : DoesWhen i k f := fun s x hr hx =>
  (h s x hr (hk _ hx).1).trans (by rw [performed_congr (hk _ hx).2])

section Bin

variable {x : Ctx} {d b : BitVec 7} {va : Nat}

/-- Lanes that all have what they read before read nothing. -/
theorem binReads_kept (h : ∀ l ∈ x.ls, ∃ e ∈ x.w.binStall, e.lane = l) :
    x.binReads d b va = some (x.ls.filterMap fun l => x.w.binStall.find? fun e => e.lane == l) := by
  have hnone : (x.ls.filter fun l => (x.w.binStall.find? fun e => e.lane == l).isNone) = [] := by
    rw [List.filter_eq_nil_iff]
    intro l hl
    obtain ⟨e, he, hel⟩ := h l hl
    have hfound : (x.w.binStall.find? fun e => e.lane == l).isSome = true :=
      List.find?_isSome.mpr ⟨e, he, beq_iff_eq.mpr hel⟩
    simpa [Option.isNone_iff_eq_none] using Option.isSome_iff_ne_none.mp hfound
  simp only [Ctx.binReads, hnone, List.map_nil, List.any_nil, Bool.false_eq_true, if_false, List.append_nil]

/-- Lanes of which none was stalled all read now. -/
theorem binReads_new (hs : x.w.binStall = [])
    (hw : ∀ l ∈ x.ls, x.readPrim x.s d b (x.readDraw x.s va) l ≠ .wait) : x.binReads d b va =
      some (x.ls.map fun l => binLane l va (x.readPrim x.s d b (x.readDraw x.s va) l)) := by
  have hgo : ((x.ls.map fun l => (l, x.readPrim x.s d b (x.readDraw x.s va) l)).any fun e =>
      match e.2 with | .wait => true | .ok _ | .bad _ => false) = false := by
    rw [List.any_eq_false]
    rintro _ he
    obtain ⟨l, hl, rfl⟩ := List.mem_map.mp he
    cases hr : x.readPrim x.s d b (x.readDraw x.s va) l with
    | wait => exact absurd hr (hw l hl)
    | ok _ => exact Bool.false_ne_true
    | bad _ => exact Bool.false_ne_true
  simp only [Ctx.binReads, hs, List.find?_nil, Option.isNone_none, List.filter_true, List.filterMap_none,
    List.nil_append, List.map_map]
  exact (if_neg (Bool.eq_false_iff.mp hgo)).trans rfl

theorem readPrim_unaligned {s : State} {l : Nat} (dr : Res (Option DrawRead)) (h : (x.v64 b.toNat l).toNat % 64 ≠ 0) :
    x.readPrim s d b dr l = .bad Cause.align := if_pos h

/-- What a BIN does with what its lanes read: the primitives are submitted in their order, and a lane that breaks a rule
raises its cause. -/
def submitReads (y : Ctx) (va : Nat) (rs : List BinLane) : State :=
  let good := rs.filterMap fun e => e.read.map fun r => (e.lane, r.1, r.2)
  let faults := (rs.filter fun e => e.read.isNone).map fun e => (e.lane, e.cause)
  match y.submitAll va (sortBy (fun e => 64 * e.2.2.s + e.1) good) y.s [] with
  | (t, _, some key) => y.stall (y.modW (y.binClear t) fun w =>
      { w with binStall := w.binStall ++ rs.map fun e => { e with draw := key } }) .other
  | (t, bad, none) =>
    let pass := y.ls.filter fun l => !bad.contains l && !faults.any fun f => f.1 == l
    y.parkAll (y.advance (y.binClear (if pass.isEmpty then t else t.abandon y.g.gang 2)) pass)
      (faults ++ bad.map fun l => (l, Cause.prot))

/-- Lanes that all raise a cause submit nothing. -/
theorem submitReads_faults (y : Ctx) (va c : Nat) : submitReads y va (y.ls.map fun l => ⟨l, 0, va, none, c⟩) =
    y.parkAll (y.advance (y.binClear y.s) []) (y.ls.map fun l => (l, c)) := by
  have hpass : (y.ls.filter fun l => !(y.ls.map fun l => (l, c)).any fun f => f.1 == l) = [] := by
    simp [List.filter_eq_nil_iff]
  simp only [submitReads, List.filterMap_map, Function.comp_def, Option.map_none, List.filterMap_none, sortBy,
    List.foldl_nil, Ctx.submitAll, List.filter_map, Option.isNone_none, List.filter_true, List.map_map,
    List.contains_nil, Bool.not_false, Bool.true_and, hpass, List.isEmpty_nil, if_true, List.map_nil, List.append_nil]

/-- One lane goes on once its primitive is taken, raises PROT where it is refused, and waits with what it has read where
the die's buffer is full. -/
theorem submitReads_one {y : Ctx} {l : Nat} (hl : y.ls = [l]) (va : Nat) (dr : DrawRead) (p : Prim) :
    submitReads y va [⟨l, 0, va, some (dr, p), 0⟩] = match y.submit y.s va l dr p with
      | .taken t => y.parkAll (y.advance (y.binClear (t.abandon y.g.gang 2)) [l]) []
      | .bad => y.parkAll (y.advance (y.binClear y.s) []) [(l, Cause.prot)]
      | .full key => y.stall (y.modW (y.binClear y.s) fun w =>
          { w with binStall := w.binStall ++ [⟨l, key, va, some (dr, p), 0⟩] }) .other := by
  have hsorted : sortBy (fun e : Nat × DrawRead × Prim => 64 * e.2.2.s + e.1) [(l, dr, p)] = [(l, dr, p)] := rfl
  simp only [submitReads, List.filterMap_cons, Option.map_some, List.filterMap_nil, hsorted, Ctx.submitAll, hl]
  cases y.submit y.s va l dr p with
  | taken t => simp
  | bad => simp
  | full key => rfl

section Word

variable (d : BitVec 7) (a : BitVec 6) (b : BitVec 7)

theorem bin_killed : DoesWhen (.bin d a b) (fun x => x.binKilled = true) fun x =>
    x.park (x.binClear x.s) x.lanes (Cause.bit Cause.prot) :=
  doesWhen_of_eq (fun _ => by dsimp only [exec]; rfl) fun _ hk => if_pos hk

/-- A BIN that has read submits what it has read. -/
theorem bin_submits (rs : Ctx → List BinLane) : DoesWhen (.bin d a b) (fun x =>
      x.binKilled = false ∧ x.binReads d b (x.u64 a.toNat).toNat = some (rs x)) fun x =>
    submitReads { x with s := x.binTouch b (x.u64 a.toNat).toNat } (x.u64 a.toNat).toNat (rs x) := by
  refine doesWhen_of_eq (fun _ => by dsimp only [exec]; rfl) fun x ⟨hk, hreads⟩ => ?_
  refine (if_neg (Bool.eq_false_iff.mp hk)).trans ?_
  rw [hreads]
  rfl

/-- Lanes whose records are not aligned raise ALIGN, and no primitive is submitted. -/
theorem bin_unaligned : DoesWhen (.bin d a b) (fun x =>
      x.binKilled = false ∧ x.w.binStall = [] ∧ ∀ l ∈ x.ls, (x.v64 b.toNat l).toNat % 64 ≠ 0) fun x =>
    let y : Ctx := { x with s := x.binTouch b (x.u64 a.toNat).toNat }
    y.parkAll (y.advance (y.binClear y.s) []) (y.ls.map fun l => (l, Cause.align)) := by
  refine doesWhen_weaken (bin_submits d a b fun x =>
    x.ls.map fun l => ⟨l, 0, (x.u64 a.toNat).toNat, none, Cause.align⟩) fun x ⟨hk, hs, hal⟩ => ?_
  have hbad (l : Nat) (hl : l ∈ x.ls) :
      x.readPrim x.s d b (x.readDraw x.s (x.u64 a.toNat).toNat) l = .bad Cause.align := readPrim_unaligned _ (hal l hl)
  refine ⟨⟨hk, ?_⟩, submitReads_faults { x with s := x.binTouch b (x.u64 a.toNat).toNat } _ _⟩
  rw [binReads_new hs fun l hl => by rw [hbad l hl]; simp]
  exact congrArg some (List.map_congr_left fun l hl => by rw [hbad l hl]; rfl)

theorem bin_one_lane (dr : DrawRead) (l : Nat) (p : Prim) : DoesWhen (.bin d a b) (fun x =>
      x.w.binStall = [] ∧ x.ls = [l] ∧
        x.readPrim x.s d b (x.readDraw x.s (x.u64 a.toNat).toNat) l = .ok (dr, p)) fun x =>
    let y : Ctx := { x with s := x.binTouch b (x.u64 a.toNat).toNat }
    match y.submit y.s (y.u64 a.toNat).toNat l dr p with
    | .taken t => y.parkAll (y.advance (y.binClear (t.abandon y.g.gang 2)) [l]) []
    | .bad => y.parkAll (y.advance (y.binClear y.s) []) [(l, Cause.prot)]
    | .full key => y.stall (y.modW (y.binClear y.s) fun w =>
        { w with binStall := w.binStall ++ [⟨l, key, (y.u64 a.toNat).toNat, some (dr, p), 0⟩] }) .other := by
  refine doesWhen_weaken (bin_submits d a b fun x => [⟨l, 0, (x.u64 a.toNat).toNat, some (dr, p), 0⟩])
    fun x ⟨hs, hl, hr⟩ => ⟨⟨?unkilled, ?reads⟩,
      submitReads_one (y := { x with s := x.binTouch b (x.u64 a.toNat).toNat }) hl _ dr p⟩
  case unkilled => rw [Ctx.binKilled, hs]; rfl
  case reads =>
    rw [binReads_new hs (by rw [hl]; simp [hr]), hl, List.map_singleton, hr]
    rfl

end Word

end Bin

/-- Settles O39: each step of a draw by what the draw has come to, and BIN by what its lanes read and submit. -/
theorem drawSteps : Obligations.DrawSteps := by
  refine ⟨fun _ _ => draw_gone, fun _ _ _ => commit_held, fun _ _ _ => putDraw_ready, fun _ _ _ _ => putDraw_missing,
    fun _ _ _ => putDraw_waits, fun _ _ _ r => poolReady_of_moving r, fun _ _ _ r => poolReady_of_missing r,
    fun _ _ _ _ _ => commit_commits, finish_placed, fun _ _ _ _ => flushComplete_completes, fun _ _ _ => flush_none,
    fun _ _ _ _ => flushStall_evicts, fun _ _ _ => flushEvict_idle, fun _ _ _ => binningStall_reports,
    fun _ _ _ => binningStall_not_due, fun _ _ _ _ _ _ => tileIssue_issues, fun _ _ _ _ _ _ => tileIssue_held,
    fun _ _ _ _ _ _ _ => tileIssue_preempted, fun _ _ _ _ _ => tileIssue_none, bin_killed, bin_unaligned, bin_one_lane,
    fun _ _ => nextTile_final_state, fun _ _ _ _ => binReads_kept, fun _ _ _ l r _ _ => submit_beyond l r,
    fun x s va l r p d e hd he => ⟨fun h => ?again, fun h => ?another⟩, fun _ _ _ l r _ _ => submit_full l r,
    fun _ _ _ l r _ _ => submit_next l r⟩
  case again => rw [submit_again l r hd he, if_pos h]
  case another => rw [submit_again l r hd he, if_neg h]

end Sys2Proof.Laws
end

section
/-! SUPPORT. Where BRA, CALL and JMPR send their lanes, and the addresses that JMPR refuses (R287-R289). -/

namespace Sys2Proof.Laws

open Sys2Proof.Machine

/-! ### Displacements (R287, R288) -/

/-- The lanes where a predicate is not n go to the target, the others to the next word. -/
theorem branch_bne (x : Ctx) (t : Addr) (c : Nat → Bool) (n : Bool) :
    (x.branch t fun l => c l != n) = x.lanesDo x.s x.ls fun l th => th.goto (if c l ≠ n then t else x.pc + 4) := by
  simp only [Ctx.branch, bne_iff_ne]
  rfl

/-! ### Addresses in registers (R289, log 13) -/

/-- The address that JMPR reads in a lane. -/
def jumpDest (x : Ctx) (ub : Bool) (a : BitVec 7) (l : Nat) : DWord :=
  if ub then x.u64 a.toNat else x.v64 a.toNat l

/-- The fault of a lane that would jump to v. -/
def jumpFault (v : DWord) (l : Nat) : Option (Nat × Nat) :=
  if 2 ^ 52 ≤ v.toNat then some (l, Cause.prot)
  else if v.toNat % 4 ≠ 0 then some (l, Cause.align) else none

theorem fld_63_52_ne_zero (v : DWord) : fld v 63 52 ≠ 0 ↔ 2 ^ 52 ≤ v.toNat := by
  have hv := v.isLt
  rw [fld, nbits, Nat.shiftRight_eq_div_pow]
  omega

theorem fld_1_0 (v : DWord) : fld v 1 0 = v.toNat % 4 := rfl

theorem jumpTo_fst (x : Ctx) (ub : Bool) (a : BitVec 7) (l : Nat) :
    (x.jumpTo ub a l).1 = (jumpDest x ub a l).setWidth 52 :=
  (BitVec.setWidth_eq_extractLsb' (by decide)).symm

theorem jumpTo_snd (x : Ctx) (ub : Bool) (a : BitVec 7) (l : Nat) :
    ((x.jumpTo ub a l).2.map fun c => (l, c)) = jumpFault (jumpDest x ub a l) l := by
  have hsnd : (x.jumpTo ub a l).2 = if fld (jumpDest x ub a l) 63 52 ≠ 0 then some Cause.prot
      else if fld (jumpDest x ub a l) 1 0 ≠ 0 then some Cause.align else none := rfl
  by_cases hbig : 2 ^ 52 ≤ (jumpDest x ub a l).toNat
  · rw [hsnd, if_pos ((fld_63_52_ne_zero _).mpr hbig), jumpFault, if_pos hbig]
    rfl
  · rw [hsnd, if_neg (mt (fld_63_52_ne_zero _).mp hbig), jumpFault, if_neg hbig, fld_1_0]
    split <;> rfl

/-- JMPR: the lanes without a fault jump, the others park. -/
theorem jump_eq (x : Ctx) (ub : Bool) (a : BitVec 7) (link : Thread → Thread) :
    x.jump ub a link =
      x.parkAll (x.lanesDo x.s (x.ls.filter fun l => (jumpFault (jumpDest x ub a l) l).isNone) fun l th =>
          (link th).goto ((jumpDest x ub a l).setWidth 52))
        (x.ls.filterMap fun l => jumpFault (jumpDest x ub a l) l) := by
  have hnone l : (x.jumpTo ub a l).2.isNone = (jumpFault (jumpDest x ub a l) l).isNone := by
    rw [← jumpTo_snd, Option.isNone_map]
  simp only [Ctx.jump, hnone, jumpTo_fst, jumpTo_snd]

/-- Settles O15: BRA by the lanes that take it, JMPR by the lanes whose address has no fault. -/
theorem branchesAndCalls : Obligations.BranchesAndCalls := by
  refine ⟨fun disp => ?bra, fun n p disp => ?pred, fun n p disp => ?uniform, fun d disp => ?call, fun ub a => ?jump,
    fun ub d a => ?link⟩
  all_goals refine does_of_eq (fun _ => by dsimp only [exec]; rfl) fun x => ?_
  case bra | call => rfl
  case pred => exact branch_bne x _ (x.p p.toNat) n
  case uniform => exact branch_bne x _ (fun _ => x.p p.toNat x.l0) n
  case jump => exact jump_eq x ub a id
  case link => exact jump_eq x ub a fun th => th.setV64 d.toNat ((nextPc x.pc).setWidth 64)

end Sys2Proof.Laws
end

section
/-! SUPPORT. The words that reach a tile and its surface: the checks of the group, then those of each lane
(R309-R313, R283). -/

namespace Sys2Proof.Laws

open Sys2Proof.Machine

/-! ### The plane that PLD and PST name (R309) -/

section Plane

variable {x : Ctx} {e : BitVec 2048} {p : BitVec 4} (f : Nat → State → Nat → LaneRes)

theorem onPlane_of_entry (he : x.s.ownDesc x.g = some e) (hp : p.toNat < DrawD.npl e) :
    x.onPlane p f = x.perLane (x.s.laneOrder x.ls) .none fun s l =>
      (f (DrawD.plane e p.toNat) s l).untaped x.g.gang := by
  rw [Ctx.onPlane, he]
  exact if_neg hp.not_ge

theorem onPlane_without_tile (he : x.s.ownDesc x.g = none) : x.onPlane p f = x.raise Cause.prot := by
  rw [Ctx.onPlane, he]

theorem onPlane_beyond_draw (he : x.s.ownDesc x.g = some e) (hp : DrawD.npl e ≤ p.toNat) :
    x.onPlane p f = x.raise Cause.illop := by
  rw [Ctx.onPlane, he]
  exact if_pos hp

end Plane

/-- PLD and PST act on the plane that they name. -/
theorem does_onPlane {i : Instr} {d a : BitVec 7} {p : BitVec 4} (hi : i = .pld d a p ∨ i = .pst d a p) :
    ∃ f : Ctx → Nat → State → Nat → LaneRes, Does i fun x => x.onPlane p (f x) := by
  obtain rfl | rfl := hi
  · exact ⟨fun x => x.pldLane d a, does_of_eq (fun _ => by dsimp only [exec]; rfl) fun _ => rfl⟩
  · exact ⟨fun x => x.pstLane d a, does_of_eq (fun _ => by dsimp only [exec]; rfl) fun _ => rfl⟩

/-! ### A lane of PLD and PST (R309) -/

/-- The channels of a plane entry: one, but for the formats of 16 bits and of blocks. -/
def channels (e : Nat) : Nat := if planeFmt e < 2 then planeChan e else 1

theorem channels_le_iff (e c : Nat) :
    channels e ≤ c ↔ (planeFmt e < 2 → planeChan e ≤ c) ∧ (2 ≤ planeFmt e → 1 ≤ c) := by
  rw [channels]
  split <;> omega

section Lane

variable (x : Ctx) (d a : BitVec 7) {e : Nat} (s : State) (l : Nat)

theorem pldLane_half {bs : List Byte} {t : Xlat} (hf : planeFmt e = 0)
    (hc : nbits (x.v a.toNat l).toNat 21 16 < planeChan e)
    (hr : s.loadBytes x.space x.die (lsWindow + planeOffs e +
      (nbits (x.v a.toNat l).toNat 9 0 * planeChan e + nbits (x.v a.toNat l).toNat 21 16) * 2) 2 = .ok (t, bs)) :
    x.pldLane d a e s l = .ok s (·.setV d.toNat (BitVec.ofNat 32 (leNat bs))) [] := by
  simp only [Ctx.pldLane, planeLane, hf, Nat.zero_lt_two, if_true, if_neg hc.not_ge, hr, Res.lane]

theorem pstLane_block (hf : planeFmt e = 1) (hc : nbits (x.v a.toNat l).toNat 21 16 < planeChan e) :
    x.pstLane d a e s l = .bad s Cause.fmtstore := by
  simp only [Ctx.pstLane, planeLane, hf, Nat.one_lt_two, if_true, if_neg hc.not_ge]

theorem pldLane_beyond_channels (hc : channels e ≤ nbits (x.v a.toNat l).toNat 21 16) :
    x.pldLane d a e s l = .bad s Cause.prot := if_pos hc

theorem pstLane_beyond_channels (hc : channels e ≤ nbits (x.v a.toNat l).toNat 21 16) :
    x.pstLane d a e s l = .bad s Cause.prot := if_pos hc

end Lane

/-! ### BLEND (R311, R187) -/

section Blend

variable {x : Ctx} (op : BlendOp) (a b : BitVec 7) (d : BitVec 2048) (o : Own) (s : State) {l : Nat} {f : Frag}

theorem blendLane_without_fragment (h : (x.th l).frag = none) : x.blendLane op a b d o s l = .bad s Cause.prot := by
  rw [Ctx.blendLane, h]

theorem blendLane_other_pixel (h : (x.th l).frag = some f) (hq : f.q ≠ nbits (x.v a.toNat l).toNat 9 0) :
    x.blendLane op a b d o s l = .bad s Cause.prot := by
  rw [Ctx.blendLane, h]
  exact if_pos hq

theorem blendLane_waits (h : (x.th l).frag = some f) (hq : f.q = nbits (x.v a.toNat l).toNat 9 0)
    (hb : (x.g' s).fragBefore o f = true) : x.blendLane op a b d o s l = .hold s := by
  rw [Ctx.blendLane, h]
  exact (if_neg (not_not.mpr hq)).trans (if_pos hb)

end Blend

/-! ### DCMP (R313) -/

section Dcmp

variable {x : Ctx} {a : BitVec 6} (b : BitVec 7) (s : State) (l : Nat)

theorem dcmpLane_unaligned (h : (x.u64 a.toNat).toNat % 256 ≠ 0) : x.dcmpLane a b s l = .bad s Cause.align := if_pos h

theorem dcmpLane_beyond_surface {bs : List Byte} (h : (x.u64 a.toNat).toNat % 256 = 0)
    (hr : s.loadWords x.space x.die (x.u64 a.toNat).toNat 32 = .ok bs)
    (hn : 16 * DrawD.tiles (BitVec.ofNat 2048 (leNat bs)) ≤ (x.v b.toNat l).toNat) :
    x.dcmpLane a b s l = .bad (s.touchSpan x.space x.die (x.u64 a.toNat).toNat 256) Cause.prot := by
  refine (if_neg (not_not.mpr h)).trans ?_
  rw [hr]
  exact if_pos hn

end Dcmp

/-! ### The words -/

theorem pld_or_pst_without_tile {i : Instr} {d a : BitVec 7} {p : BitVec 4} (hi : i = .pld d a p ∨ i = .pst d a p) :
    DoesWhen i (fun x => x.s.ownDesc x.g = none) fun x => x.raise Cause.prot := by
  obtain ⟨f, hf⟩ := does_onPlane hi
  exact doesWhen_of_does hf fun x he => onPlane_without_tile (f x) he

theorem pld_or_pst_beyond_draw {i : Instr} {d a : BitVec 7} {p : BitVec 4} (hi : i = .pld d a p ∨ i = .pst d a p)
    (e : BitVec 2048) :
    DoesWhen i (fun x => x.s.ownDesc x.g = some e ∧ DrawD.npl e ≤ p.toNat) fun x => x.raise Cause.illop := by
  obtain ⟨f, hf⟩ := does_onPlane hi
  exact doesWhen_of_does hf fun x ⟨he, hp⟩ => onPlane_beyond_draw (f x) he hp

theorem sample_of_memory (c f : Bool) (d : BitVec 7) (t : BitVec 5) (b : BitVec 7) :
    DoesWhen (.sample c f d t b) (fun x => Dsc.layout (x.w.t t.toNat) ≠ 2) fun x =>
      x.perLane (x.s.laneOrder x.ls) .none fun s l => x.sampleLane c f d (x.w.t t.toNat) b s l :=
  doesWhen_of_eq (fun _ => by dsimp only [exec]; rfl) fun _ h => if_neg h

theorem sample_of_plane (c f : Bool) (d : BitVec 7) (t : BitVec 5) (b : BitVec 7) :
    DoesWhen (.sample c f d t b) (fun x => Dsc.layout (x.w.t t.toNat) = 2) fun x => x.raise Cause.illop :=
  doesWhen_of_eq (fun _ => by dsimp only [exec]; rfl) fun _ h => if_pos h

theorem blend_of_tile (op : BlendOp) (a b : BitVec 7) (d : BitVec 2048) (o : Own) :
    DoesWhen (.blend op a b) (fun x => x.s.ownDesc x.g = some d ∧ x.g.tile = some o) fun x =>
      x.perLane (x.s.laneOrder x.ls) (.retry (.blend op a b) x.s.stepNo) fun s l =>
        (x.blendLane op a b d o s l).untaped x.g.gang := by
  refine doesWhen_of_eq (fun _ => by dsimp only [exec]; rfl) fun x ⟨hd, ho⟩ => ?_
  simp only [hd, ho]

theorem blend_without_tile (op : BlendOp) (a b : BitVec 7) :
    DoesWhen (.blend op a b) (fun x => x.s.ownDesc x.g = none) fun x => x.raise Cause.prot := by
  refine doesWhen_of_eq (fun _ => by dsimp only [exec]; rfl) fun x hd => ?_
  simp only [hd]

theorem tdone_of_tile (d : BitVec 2048) : DoesWhen .tdone (fun x => x.s.ownDesc x.g = some d) fun x =>
    x.waitAt (x.s.modOwn x.core x.g.gk fun o => { o with tdone := true }) x.ls .tdone := by
  refine doesWhen_of_eq (fun _ => by dsimp only [exec]; rfl) fun x hd => ?_
  simp only [hd]

theorem tdone_without_tile : DoesWhen .tdone (fun x => x.s.ownDesc x.g = none) fun x => x.raise Cause.prot := by
  refine doesWhen_of_eq (fun _ => by dsimp only [exec]; rfl) fun x hd => ?_
  simp only [hd]

/-- Settles O37: each word by the checks of its group, each lane by those of its operands. -/
theorem tileWords : Obligations.TileWords := by
  refine ⟨fun d a p e => ?pld, fun d a p e => ?pst, fun _ _ _ _ hi => pld_or_pst_without_tile hi,
    fun _ _ _ _ e hi => pld_or_pst_beyond_draw hi e, fun x d a _ s l _ _ hf hc hr =>
      ⟨_, pldLane_half x d a s l hf hc hr, fun _ => rfl⟩, fun x d a _ s l => pstLane_block x d a s l,
    fun x d a e s l hlow hone => ?channel, sample_of_memory, sample_of_plane, blend_of_tile, blend_without_tile,
    fun x op a b d o s l => blendLane_without_fragment op a b d o s,
    fun x op a b d o s l f => blendLane_other_pixel op a b d o s,
    fun x op a b d o s l f => blendLane_waits op a b d o s, fun _ _ _ => ⟨rfl, rfl, rfl, rfl⟩, tdone_of_tile,
    tdone_without_tile, fun a b => does_of_eq (fun _ => by dsimp only [exec]; rfl) fun _ => rfl, fun _ _ _ _ => rfl,
    fun x a b s l => dcmpLane_unaligned b s l, fun x a b s l bs => dcmpLane_beyond_surface b s l⟩
  case pld | pst =>
    exact doesWhen_of_eq (fun _ => by dsimp only [exec]; rfl) fun _ ⟨he, hp⟩ => onPlane_of_entry _ he hp
  case channel =>
    have hc := (channels_le_iff e (nbits (x.v a.toNat l).toNat 21 16)).mpr ⟨hlow, hone⟩
    exact ⟨pldLane_beyond_channels x d a s l hc, pstLane_beyond_channels x d a s l hc⟩

end Sys2Proof.Laws
end

section
/-! SUPPORT. The state after reset, and the words that trap (R391-R393, R400, R437). -/

namespace Sys2Proof.Laws

open Sys2Proof.Machine

/-- Outside the two maps that root firmware writes an unlisted byte reads zero (R439, log 5). -/
theorem unlisted_eq_zero {k : Nat} (h : k < Config.mgmtArea ∨ Config.mgmtArea + 0x808 ≤ k) : unlisted k = 0 := by
  unfold unlisted
  rcases h with h | h
  · rw [if_pos h]
  · rw [if_neg (by omega), if_neg (by omega), if_neg (by omega)]

/-- Settles O49: the memory lists no cell, so every byte is as an unlisted one. -/
theorem resetState : Obligations.ResetState := by
  refine ⟨rfl, fun k hk => unlisted_eq_zero hk, rfl, rfl, fun _ => rfl, rfl, rfl, rfl, rfl, fun d hd => ?_, rfl, rfl, rfl⟩
  exact ⟨Die.reset, List.getElem?_replicate_of_lt hd, rfl⟩

/-- Settles O12: each word by its arm, TRET by whether its lanes run a handler. -/
theorem trapWords : Obligations.TrapWords := by
  refine ⟨fun code => does_of_eq (fun _ => rfl) fun _ => rfl, fun code => does_of_eq (fun _ => rfl) fun _ => rfl,
    fun code => does_of_eq (fun _ => rfl) fun _ => rfl, does_of_eq (fun _ => rfl) fun _ => rfl,
    doesWhen_of_eq (fun _ => by dsimp only [exec]; rfl) fun x h => ?handler,
    doesWhen_of_eq (fun _ => by dsimp only [exec]; rfl) fun x h => ?outside⟩
  case handler =>
    obtain ⟨b, hb⟩ := Option.isSome_iff_exists.mp h
    simp only [hb]
  case outside => simp only [h]

end Sys2Proof.Laws
end

section
/-! SUPPORT. The commands of the root mailbox by their callers, and the answers of the SPDM responder (R323-R326). -/

namespace Sys2Proof.Laws

open Sys2Proof.Machine

/-! ### Fields that a record keeps (R6, log 71) -/

theorem exportBits_eq (r : BitVec 128) :
    exportBits r = r.toNat % 2 ^ 22 + r.toNat / 2 ^ 64 % 2 ^ 58 * 2 ^ 64 := by
  simp [exportBits, fld, nbits, Nat.shiftRight_eq_div_pow]

/-! ### Commands of the mailbox (R323, R326) -/

theorem command_of_accepts {who : Caller} {code : Nat} (h : mailAccepts who code = true) (s : State) (f : State → State) :
    s.command who code f = .next (f s) := by
  simp [State.command, h]

theorem command_of_refuses {who : Caller} {code : Nat} (h : mailAccepts who code = false) (s : State) (f : State → State) :
    s.command who code f = .next { s with mailOut := s.mailOut ++ [.refused] } := by
  simp [State.command, h, State.mail]

theorem mailAccepts_log (who : Caller) : mailAccepts who 1 = true := by cases who <;> rfl
theorem mailAccepts_status (who : Caller) : mailAccepts who 5 = true := by cases who <;> rfl

/-- The commands that write are the host's. -/
theorem mailAccepts_of_ne_host {who : Caller} (h : who ≠ .host) {code : Nat} (h1 : 2 ≤ code) (h2 : code ≤ 4) :
    mailAccepts who code = false := by
  obtain rfl : who = .runtime := by cases who; exacts [absurd rfl h, rfl]
  interval_cases code <;> rfl

theorem mailAccepts_host {code : Nat} (h1 : 1 ≤ code) (h2 : code ≤ 5) : mailAccepts .host code = true := by
  interval_cases code <;> rfl

theorem mailAccepts_of_unknown (who : Caller) {code : Nat} (h : code = 0 ∨ 5 < code) : mailAccepts who code = false := by
  unfold mailAccepts
  split
  any_goals omega
  rfl

theorem fwCheck_of_bad_signature {img : FwImage} (h : img.sigOk = false) : fwCheck img = 1 := by simp [fwCheck, h]
theorem fwCheck_of_old {img : FwImage} (h : img.sigOk = true) (hv : img.version < Config.antiRollback) :
    fwCheck img = 2 := by simp [fwCheck, h, hv]
theorem fwCheck_of_good {img : FwImage} (h : img.sigOk = true) (hv : Config.antiRollback ≤ img.version) :
    fwCheck img = 0 := by simp [fwCheck, h, Nat.not_lt.mpr hv]

/-- FW_STAGE by the host: what the check says of the image is answered, and a good image is stored. -/
theorem fwStage_host (img : FwImage) (s : State) : exec (.fwStage .host img) s = .next { s with
    staged := if fwCheck img = 0 then storeImage s.staged img else s.staged
    mailOut := s.mailOut ++ [.fw (fwCheck img)] } := rfl

theorem apertureSet_host (n : BitVec 9) (r : DWord) (s : State) : exec (.apertureSet .host n r) s =
    .next ((s.putNum (Config.apertureTable + 8 * n.toNat) 8 (r.toNat % 2 ^ 19)).mail .done) := rfl

theorem exportSet_host (n : BitVec 8) (r : BitVec 128) (s : State) : exec (.exportSet .host n r) s =
    .next ((s.putNum (Config.exportTable + 16 * n.toNat) 16
      (r.toNat % 2 ^ 22 + r.toNat / 2 ^ 64 % 2 ^ 58 * 2 ^ 64)).mail .done) := by
  rw [← exportBits_eq]; rfl

/-- An answer is one more of those given, and changes no memory. -/
theorem mail_done (s : State) : (s.mail .done).mailOut = s.mailOut ++ [.done] ∧ (s.mail .done).mem = s.mem := ⟨rfl, rfl⟩

/-- Settles O45: each command by whether its caller is one that the table names, each answer of the responder by its arm. -/
theorem mailboxAndResponder : Obligations.MailboxAndResponder := by
  refine ⟨⟨fun who n s => ?log, fun who s => ?status, fun n r s => ⟨_, apertureSet_host n r s, ?_, ?_⟩,
    fun n r s => ⟨_, exportSet_host n r s, ?_, ?_⟩, fun img s hs hv => ?good, fun img s hs => ?unsigned,
    fun img s hs hv => ?old, fun who s hw => ⟨fun n r => ?aperture, fun n r => ?exports, fun img => ?stage⟩,
    fun who code s hc => ?unknown, fun who code s h1 h5 hw => ?known⟩, fun s answer ha => ?responder⟩
  case log => exact command_of_accepts (mailAccepts_log who) s fun s => s.mail (.log (s.mlog.drop n))
  case status =>
    exact command_of_accepts (mailAccepts_status who) s fun s => s.mail (.status s.bootStage s.recovery s.lastCommit)
  iterate 2
    · rw [(mail_done _).1, putNum_mailOut]
    · exact (mail_done _).2
  case good => simp [fwStage_host, fwCheck_of_good hs hv, storeImage]
  case unsigned => simp [fwStage_host, fwCheck_of_bad_signature hs]
  case old => simp [fwStage_host, fwCheck_of_old hs hv]
  case aperture =>
    change execApertureSet who n r s = _
    exact command_of_refuses (code := 2) (mailAccepts_of_ne_host hw (by decide) (by decide)) s _
  case exports =>
    change execExportSet who n r s = _
    exact command_of_refuses (code := 3) (mailAccepts_of_ne_host hw (by decide) (by decide)) s _
  case stage =>
    change execFwStage who img s = _
    exact command_of_refuses (code := 4) (mailAccepts_of_ne_host hw (by decide) (by decide)) s _
  case unknown =>
    change execMailboxRefused who code s = _
    simp [execMailboxRefused, mailAccepts_of_unknown who hc, State.mail]
  case known =>
    change execMailboxRefused who code s = _
    simp [execMailboxRefused, hw, mailAccepts_host h1 h5]
  case responder =>
    obtain rfl : answer = s.spdm := funext ha
    exact ⟨rfl, rfl, rfl, rfl, rfl, fun _ => rfl, rfl, fun r => by cases r <;> rfl, fun e l => rfl⟩

end Sys2Proof.Laws
end

section
/-! SUPPORT. WBASE, RPF, fetches that give no instruction, and the completion of ICINV (R296, R297, R398, R399). -/

namespace Sys2Proof.Laws

open Sys2Proof.Machine

/-! ### WBASE and RPF (R296, R297) -/

theorem winOk_iff {x : Ctx} {n : BitVec 7} : x.winOk n.toNat = true ↔ n = 0 ∨ 8 * n.toNat < x.g.vh := by
  simp [Ctx.winOk, BitVec.toNat_eq]

theorem wbase_held (n : BitVec 7) : DoesWhen (.wbase n) (fun x => n = 0 ∨ 8 * n.toNat < x.g.vh) fun x =>
    x.modW (x.done x.s fun _ th => { th with winbase := n }) fun w => { w with rpf := (0, 0) } := by
  refine doesWhen_of_eq (fun _ => by dsimp only [exec]; rfl) fun x h => ?_
  rw [if_pos (winOk_iff.mpr h)]
  simp only [Ctx.setWin, BitVec.ofNat_toNat, BitVec.setWidth_eq]

theorem wbase_beyond (n : BitVec 7) : DoesWhen (.wbase n) (fun x => ¬(n = 0 ∨ 8 * n.toNat < x.g.vh)) fun x =>
    x.raise Cause.illop :=
  doesWhen_of_eq (fun _ => by dsimp only [exec]; rfl) fun _ h => if_neg (mt winOk_iff.mp h)

theorem rpf_none (a : BitVec 7) : Does (.rpf a 0) fun x => x.doneW x.s fun w => { w with rpf := (0, 0) } := by
  refine does_of_eq (fun _ => by dsimp only [exec]; rfl) fun x => ?_
  simp

theorem rpf_held (a : BitVec 7) {n : BitVec 5} (hn : n ≠ 0) : DoesWhen (.rpf a n)
    (fun x => ∀ l ∈ x.ls, 8 * (x.th l).winbase.toNat + a.toNat + n.toNat ≤ x.g.vh) fun x =>
    x.doneW x.s fun w => { w with rpf := (a.toNat, n.toNat) } := by
  refine doesWhen_of_eq (fun _ => by dsimp only [exec]; rfl) fun x h => ?_
  rw [if_neg, if_neg hn]
  simp only [List.any_eq_true, decide_eq_true_eq, not_and, not_exists, Nat.not_lt]
  intro _ l hl
  have := h l hl
  omega

theorem rpf_beyond (a : BitVec 7) {n : BitVec 5} (hn : n ≠ 0) : DoesWhen (.rpf a n)
    (fun x => ∃ l ∈ x.ls, x.g.vh < 8 * (x.th l).winbase.toNat + a.toNat + n.toNat) fun x =>
    x.raise Cause.illop := by
  refine doesWhen_of_eq (fun _ => by dsimp only [exec]; rfl) fun x h => ?_
  obtain ⟨l, hl, hlt⟩ := h
  exact if_pos ⟨hn, List.any_eq_true.mpr ⟨l, hl, decide_eq_true (by omega)⟩⟩

/-! ### Fetches that give no instruction (R46, R48) -/

theorem fetchRaise_of_set {s : State} {x : Ctx} (h : ctxOf s = some x) (c : Nat) : fetchRaise s c = .next (x.raise c) := by
  simp [fetchRaise, h]

/-! ### ICINV (R398, R399) -/

/-- A change of every entry of a table that leaves the default is a change of what is read. -/
theorem sget_map {α : Type} (f : α → α) {d : α} (hd : f d = d) (l : Sparse α) (k : Nat) :
    sget (l.map fun e => (e.1, f e.2)) k d = f (sget l k d) := by
  induction l with
  | nil => exact hd.symm
  | cons a r ih =>
    simp only [List.map_cons, sget]
    split
    · rfl
    · exact ih

/-- The machine without the words it has kept and fetched (R399, log 102). -/
def discarded (s : State) : State := { s with stale := [], cores := s.cores.map fun (e : Nat × Core) => (e.1, e.2.unfetched) }

theorem core_discarded (s : State) (c : Nat) : (discarded s).core c = (s.core c).unfetched :=
  sget_map Core.unfetched rfl s.cores c

theorem unfetched_groups_ne_nil {k : Core} (h : k.groups ≠ []) : k.unfetched.groups ≠ [] := by
  simpa [Core.unfetched] using h

variable {core wid slot : Nat} {s : State} {g : Group} {w : Warp}

/-- The completion discards what is kept, and the lanes that wait at ICINV go on. -/
theorem icinvCompletion_waited (hf : (s.core core).findWid wid = some (g, slot, w)) (hstop : g.stop = none) {l : Nat}
    (hl : l ∈ g.liveLanes w) (hw : ((g.laneThread w l).getD Thread.absent).wait = .icinv) :
    exec (.icinvCompletion core wid) s =
      .next ((discarded s).modGroup core g.gk fun g => g.resume slot 0xFFFFFFFF fun k => k == Wait.icinv) := by
  change execIcinvCompletion core wid s = _
  simp only [execIcinvCompletion, hf]
  rw [if_pos]
  · rfl
  · simp only [hstop, Option.isNone_none, Bool.true_and]
    exact List.any_eq_true.mpr ⟨l, hl, by rw [hw]; rfl⟩

theorem icinvCompletion_stopping (hf : (s.core core).findWid wid = some (g, slot, w)) (hstop : g.stop.isSome = true) :
    exec (.icinvCompletion core wid) s = .next s := by
  change execIcinvCompletion core wid s = _
  simp only [execIcinvCompletion, hf, Option.isNone_eq_false_iff.mpr hstop, Bool.false_and, Bool.false_eq_true, if_false]

theorem icinvCompletion_gone (hf : (s.core core).findWid wid = none) : exec (.icinvCompletion core wid) s = .next s := by
  change execIcinvCompletion core wid s = _
  simp only [execIcinvCompletion, hf]

/-- Settles O11: each word by its arm and its condition, the completion of ICINV by the warp that it finds. -/
theorem plainSystemWords : Obligations.PlainSystemWords := by
  refine ⟨⟨does_of_eq (fun _ => rfl) fun _ => rfl, does_of_eq (fun _ => rfl) fun _ => rfl, wbase_held, wbase_beyond,
    rpf_none, fun a _ hn => rpf_held a hn, fun a _ hn => rpf_beyond a hn⟩,
    fun s x h => fetchRaise_of_set h _, fun s x h => fetchRaise_of_set h _, fun s x h => fetchRaise_of_set h _,
    does_of_eq (fun _ => rfl) fun _ => rfl, fun core wid s g slot w l hf hstop hl hw => ?_,
    fun _ _ _ _ _ _ => icinvCompletion_stopping, fun _ _ _ => icinvCompletion_gone⟩
  refine ⟨_, icinvCompletion_waited hf hstop hl hw, rfl, rfl, ?_⟩
  have hne : ((discarded s).core core).groups ≠ [] := by
    rw [core_discarded]
    exact unfetched_groups_ne_nil (List.ne_nil_of_mem (findWid_spec hf).1)
  rw [core_modGroup_self _ _ _ _ hne, core_discarded]

end Sys2Proof.Laws
end

section
/-! SUPPORT. Lanes that park in a sub-warp, escape, and return from it (R332-R336, R338, R393). -/

namespace Sys2Proof.Laws

open Sys2Proof.Machine

/-! ### Threads of the lanes of a warp slot -/

/-- A change of the threads that stand in the slots of a warp's lanes. -/
def laneFold (w : Warp) (f : Thread → Thread) (ls : List Nat) (g : Group) : Group :=
  ls.foldl (fun g l => match w.tslot l with
    | some t => g.modThread t f
    | none => g) g

theorem laneFold_cons (w : Warp) (f : Thread → Thread) (l : Nat) (ls : List Nat) (g : Group) :
    laneFold w f (l :: ls) g = laneFold w f ls (match w.tslot l with | some t => g.modThread t f | none => g) := rfl

/-- Of the group only threads change. -/
theorem laneFold_eq (w : Warp) (f : Thread → Thread) (ls : List Nat) (g : Group) :
    ∃ ts, laneFold w f ls g = { g with threads := ts } := by
  induction ls generalizing g with
  | nil => exact ⟨g.threads, rfl⟩
  | cons l r ih =>
    rw [laneFold_cons]
    split
    next t _ =>
      obtain ⟨ts, hts⟩ := modThread_eq g t f
      obtain ⟨us, hus⟩ := ih { g with threads := ts }
      exact ⟨us, by rw [hts, hus]⟩
    next => exact ih g

section Idempotent

variable {w : Warp} {f : Thread → Thread} (hf : ∀ th, f (f th) = f th)
include hf

/-- A thread that has changed stays as it is. -/
theorem laneFold_changed (ls : List Nat) {g : Group} {t : Nat} {th : Thread} (ht : sfind g.threads t = some (f th)) :
    sfind (laneFold w f ls g).threads t = some (f th) := by
  induction ls generalizing g with
  | nil => exact ht
  | cons l r ih =>
    rw [laneFold_cons]
    split
    next k _ =>
      by_cases hk : t = k
      · subst hk; exact ih (by rw [sfind_modThread_self ht, hf])
      · exact ih (by rw [sfind_modThread_of_ne g hk, ht])
    next => exact ih ht

/-- The thread of a lane of the list changes, whatever other lanes share its slot. -/
theorem laneFold_lane {ls : List Nat} {g : Group} {l t : Nat} {th : Thread} (hl : l ∈ ls) (hs : w.tslot l = some t)
    (ht : sfind g.threads t = some th) : sfind (laneFold w f ls g).threads t = some (f th) := by
  induction ls generalizing g with
  | nil => exact absurd hl List.not_mem_nil
  | cons a r ih =>
    rw [laneFold_cons]
    by_cases ha : w.tslot a = some t
    · rw [ha]
      exact laneFold_changed hf r (sfind_modThread_self ht f)
    · have hr : l ∈ r := (List.mem_cons.mp hl).resolve_left fun e => ha (e ▸ hs)
      split
      next k hk => exact ih hr (by rw [sfind_modThread_of_ne g (by rintro rfl; exact ha hk), ht])
      next => exact ih hr ht

end Idempotent

/-! ### Groups of a gang -/

/-- A group is found by its key after a change of its gang. -/
theorem group?_modGang_self {s : State} {c gk : Nat} {g : Group} (f : Group → Group) (h : s.group? c gk = some g)
    (hf : ∀ g : Group, (f g).gk = g.gk) : (s.modGang c g.gang f).group? c gk = some (f g) := by
  simp only [State.group?, Core.group?, groups_modGang_self s g.gang f (groups_ne_nil h)] at h ⊢
  rw [List.find?_map]
  have hk : ((fun g : Group => g.gk == gk) ∘ fun h => if h.gang = g.gang then f h else h) = fun g => g.gk == gk := by
    funext h
    simp only [Function.comp_apply]
    split
    · rw [hf]
    · rfl
  rw [hk, h]
  exact congrArg some (if_pos rfl)

/-- A group whose gang begins to stop. -/
theorem group?_escape {s : State} {c gk : Nat} {g : Group} (h : s.group? c gk = some g) (hs : g.stop = none)
    (m r : Nat) (b : Word) (pc : Addr) :
    (s.escape c g.gang m r b pc).group? c gk = some { g with stop := some ⟨r, b, pc, 0, s.clk, m⟩ } := by
  unfold State.escape
  rw [group?_modGang_self _ h fun g => by split <;> [split <;> rfl; rfl]]
  simp only [hs]

/-! ### Entry (R332-R335, R338) -/

/-- A thread that is taken into a handler: it stands at the trap entry, or where it stood if its gang is to stop. -/
def taken (stays : Bool) (th : Thread) : Thread := { th with pc := if stays then th.pc else trapEntry, wait := .none }

/-- The sub-warp that lanes form, with the notes of their warp (R332). -/
def newSub (w : Warp) (lanes : Mask) (bits : Word) (pc : Addr) : Sub := ⟨lanes, bits ||| (w.cause &&& Cause.notes), pc, false⟩

/-- A warp slot with one more sub-warp, whose lanes are stepped, stalled and binning no more, and without some notes. -/
def withSub (b : Sub) (moved : Word) (w : Warp) : Warp :=
  { w with subs := w.subs ++ [b], cause := w.cause &&& ~~~moved, stepping := cutMasks w.stepping b.lanes
           stalls := cutStalls w.stalls b.lanes, binStall := w.binStall.filter fun e => !b.lanes.getLsbD e.lane }

/-- The group of the parked lanes, with its sub-warp. -/
def parkedGroup (slot : Nat) (w : Warp) (stays : Bool) (b : Sub) (g : Group) : Group :=
  (laneFold w (taken stays) (maskLanes b.lanes) g).modWarp slot (withSub b (w.cause &&& Cause.notes))

section Parked

variable {s : State} {c gk slot : Nat} {lanes : Mask} {bits : Word} {pc : Addr} {g : Group} {w : Warp}
  (hg : s.group? c gk = some g) (hw : g.warp? slot = some w) (hl : lanes ≠ 0)
include hg hw hl

/-- Lanes in no sub-warp park, with the causes that stand in the warp's notes. -/
theorem park_of_no_sub (hn : w.subOf ((maskLanes lanes).headD 0) = none)
    (hd : bits &&& (Cause.bit Cause.brk ||| Cause.bit Cause.step) = 0 ∨ bits.getLsbD Cause.page = true) :
    let b := newSub w lanes bits pc
    let paged := b.cause.getLsbD Cause.page
    s.park c gk slot lanes bits pc =
      let t := (s.abandon g.gang 3).modGroup c gk (parkedGroup slot w paged b)
      if paged then t.escape c g.gang g.member 1 b.cause pc else t := by
  simp only [State.park, hg, hw, hl, hn, if_false, Option.isSome_none, Bool.false_eq_true]
  by_cases hp : (bits ||| w.cause &&& Cause.notes).getLsbD Cause.page = true
  · simp only [newSub, hp, if_true, Bool.true_or]
    rfl
  · have hb : bits.getLsbD Cause.page = false := by
      rw [BitVec.getLsbD_or, Bool.or_eq_true, not_or] at hp
      simpa using hp.1
    obtain hd := hd.resolve_right (by simp [hb])
    simp only [newSub, hp, hd, bne_self_eq_false, Bool.false_and, Bool.or_false, if_false, Bool.false_eq_true]
    rfl

/-- Lanes that run a handler stop their gang (R338). -/
theorem park_of_sub (hn : (w.subOf ((maskLanes lanes).headD 0)).isSome = true)
    (hd : bits &&& (Cause.bit Cause.brk ||| Cause.bit Cause.step) = 0) :
    s.park c gk slot lanes bits pc = s.escape c g.gang g.member 3 bits pc := by
  simp only [State.park, hg, hw, hl, hn, hd, if_false, if_true, bne_self_eq_false, Bool.false_and, Bool.false_eq_true]

end Parked

theorem abandon_cores (s : State) (gang why : Nat) : (s.abandon gang why).cores = s.cores := by
  unfold State.abandon
  split
  · rfl
  · dsimp only [State.setDir]
    split
    · rfl
    · exact putNum_cores ..

theorem group?_abandon (s : State) (gang why c gk : Nat) : (s.abandon gang why).group? c gk = s.group? c gk := by
  simp only [State.group?, State.core, abandon_cores]

/-- Of the group only its threads change, and the warp slot. -/
theorem parkedGroup_frame (slot : Nat) (w : Warp) (stays : Bool) (b : Sub) (g : Group) :
    ∃ ts ws, parkedGroup slot w stays b g = { g with threads := ts, warps := ws } := by
  obtain ⟨ts, hts⟩ := laneFold_eq w (taken stays) (maskLanes b.lanes) g
  exact ⟨ts, _, by rw [parkedGroup, hts]; rfl⟩

theorem parkedGroup_warp {slot : Nat} {w : Warp} {g : Group} (hw : g.warp? slot = some w) (stays : Bool) (b : Sub) :
    (parkedGroup slot w stays b g).warp? slot = some (withSub b (w.cause &&& Cause.notes) w) := by
  obtain ⟨ts, hts⟩ := laneFold_eq w (taken stays) (maskLanes b.lanes) g
  rw [parkedGroup, warp?_modWarp_self, hts]
  change (g.warp? slot).map _ = _
  rw [hw]
  rfl

theorem group?_parked {s : State} {c gk : Nat} {g : Group} (hg : s.group? c gk = some g) (why slot : Nat) (w : Warp) (stays : Bool) (b : Sub) :
    ((s.abandon g.gang why).modGroup c gk (parkedGroup slot w stays b)).group? c gk = some (parkedGroup slot w stays b g) := by
  have ha : (s.abandon g.gang why).group? c gk = some g := by rw [group?_abandon, hg]
  refine group?_modGroup_self _ _ ha fun h => ?_
  obtain ⟨ts, ws, h⟩ := parkedGroup_frame slot w stays b h
  rw [h]

/-- The threads of the parked lanes stand at the trap entry, or stay where they are, and no longer wait. -/
theorem parkedGroup_thread {slot : Nat} {w : Warp} {g : Group} {b : Sub} (stays : Bool) {l t : Nat} {th : Thread}
    (hl : l ∈ maskLanes b.lanes) (hs : w.tslot l = some t) (ht : sfind g.threads t = some th) :
    sfind (parkedGroup slot w stays b g).threads t = some (taken stays th) :=
  laneFold_lane (fun _ => by cases stays <;> rfl) hl hs ht

/-! ### Return (R336, R393) -/

/-- A thread that returns from a handler. -/
def returned (pc : Addr) (th : Thread) : Thread := { th with pc := pc, wait := .none }

/-- A warp slot that a sub-warp leaves, all of its lanes returning: it takes the sub-warp's causes. -/
def withoutSub (b : Sub) (w : Warp) : Warp :=
  { w with cause := w.cause ||| b.cause, budgetMoves := w.budgetMoves && !b.cause.getLsbD Cause.budget
           subs := w.subs.filter fun q => q.lanes != b.lanes
           stepping := if w.trapmask.getLsbD 30 then w.stepping ++ [b.lanes] else w.stepping }

/-- The group of the lanes that return. -/
def returnedGroup (slot : Nat) (w : Warp) (b : Sub) (g : Group) : Group :=
  (laneFold w (returned b.pc) (maskLanes b.lanes) g).modWarp slot (withoutSub b)

theorem tret_of_sub {s : State} {c gk slot : Nat} {g : Group} {w : Warp} {b : Sub} (hg : s.group? c gk = some g)
    (hw : g.warp? slot = some w) (hb : w.subOf ((maskLanes b.lanes).headD 0) = some b) :
    s.tret c gk slot b.lanes = s.modGroup c gk (returnedGroup slot w b) := by
  simp only [State.tret, hg, hw, hb, Option.bind_some, Option.map_some]
  congr 1
  funext g
  unfold returnedGroup
  congr 1
  funext v
  unfold withoutSub
  congr 1
  rw [← List.filterMap_eq_filter]
  congr 1
  funext q
  by_cases hq : q.lanes = b.lanes <;> simp [hq, Option.guard]

theorem returnedGroup_frame (slot : Nat) (w : Warp) (b : Sub) (g : Group) :
    ∃ ts ws, returnedGroup slot w b g = { g with threads := ts, warps := ws } := by
  obtain ⟨ts, hts⟩ := laneFold_eq w (returned b.pc) (maskLanes b.lanes) g
  exact ⟨ts, _, by rw [returnedGroup, hts]; rfl⟩

theorem returnedGroup_warp {slot : Nat} {w : Warp} {g : Group} (hw : g.warp? slot = some w) (b : Sub) :
    (returnedGroup slot w b g).warp? slot = some (withoutSub b w) := by
  obtain ⟨ts, hts⟩ := laneFold_eq w (returned b.pc) (maskLanes b.lanes) g
  rw [returnedGroup, warp?_modWarp_self, hts]
  change (g.warp? slot).map _ = _
  rw [hw]
  rfl

theorem returnedGroup_thread {slot : Nat} {w : Warp} {g : Group} {b : Sub} {l t : Nat} {th : Thread}
    (hl : l ∈ maskLanes b.lanes) (hs : w.tslot l = some t) (ht : sfind g.threads t = some th) :
    sfind (returnedGroup slot w b g).threads t = some (returned b.pc th) :=
  laneFold_lane (f := returned b.pc) (fun _ => rfl) hl hs ht

/-- Settles O57: what parking and returning do to the group that is found, its warp slot and the threads of the lanes. -/
theorem handlerEntryAndReturn : Obligations.HandlerEntryAndReturn := by
  refine ⟨fun s c gk slot lanes bits pc g w hg hw hl hn hd hp hnp => ?enters,
    fun s c gk slot lanes bits pc g w hg hw hl hn hp hs => ?escapes,
    fun s c gk slot lanes bits pc g w hg hw hl hn hd hs => ?nested,
    fun s c gk slot lanes g w b hg hw hl hb hbl => ?returns⟩
  case enters =>
    have hpage : (newSub w lanes bits pc).cause.getLsbD Cause.page = false := by
      rw [newSub, BitVec.getLsbD_or, hp, hnp]; rfl
    rw [park_of_no_sub hg hw hl hn (.inl hd)]
    simp only [hpage, Bool.false_eq_true, if_false]
    refine ⟨_, _, group?_parked hg 3 slot w _ _, parkedGroup_warp hw _ _, ?_, rfl, rfl, fun l t th hl hs ht => ?_⟩
    · obtain ⟨ts, ws, h⟩ := parkedGroup_frame slot w false (newSub w lanes bits pc) g
      rw [h]
    · exact ⟨_, parkedGroup_thread _ hl hs ht, rfl, rfl, rfl, rfl, rfl⟩
  case escapes =>
    have hpage : (newSub w lanes bits pc).cause.getLsbD Cause.page = true := by
      rw [newSub, BitVec.getLsbD_or, hp]; rfl
    have hpark := group?_parked hg 3 slot w true (newSub w lanes bits pc)
    obtain ⟨ts, ws, h⟩ := parkedGroup_frame slot w true (newSub w lanes bits pc) g
    have hesc := group?_escape hpark (by rw [h]; exact hs) g.member 1 (newSub w lanes bits pc).cause pc
    rw [show (parkedGroup slot w true (newSub w lanes bits pc) g).gang = g.gang by rw [h]] at hesc
    rw [park_of_no_sub hg hw hl hn (.inr hp)]
    simp only [hpage, if_true]
    exact ⟨_, _, hesc, parkedGroup_warp hw true _, ⟨_, rfl, rfl, rfl⟩, rfl,
      fun l t th hl hs ht => ⟨_, parkedGroup_thread (slot := slot) true hl hs ht, rfl⟩⟩
  case nested => exact ⟨_, by rw [park_of_sub hg hw hl hn hd, group?_escape hg hs], rfl⟩
  case returns =>
    subst hbl
    rw [tret_of_sub hg hw hb]
    refine ⟨_, _, group?_modGroup_self _ _ hg fun h => ?_, returnedGroup_warp hw _, ?_, rfl, rfl, fun l t th hl hs ht => ?_⟩
    · obtain ⟨ts, ws, h⟩ := returnedGroup_frame slot w b h
      rw [h]
    · obtain ⟨ts, ws, h⟩ := returnedGroup_frame slot w b g
      rw [h]
    · exact ⟨_, returnedGroup_thread hl hs ht, rfl, rfl, rfl⟩

end Sys2Proof.Laws
end

section
/-! SUPPORT. The directory operations of the Talon, those that a TAPE has sent, and the words that send them (R354-R358, R401, R402). -/

namespace Sys2Proof.Laws

open Sys2Proof.Machine

/-! ### ARM and OFF (R357) -/

section Arm

variable {s : State} {g n base cap blk : Nat}

/-- The header, the guards and the patch slots of a tape as its arm block gives them (R357, R358). -/
def armedTape (s : State) (g base blk : Nat) : State :=
  let s := (List.range 4).foldl (fun (s : State) i => s.setEntry g (base + i) 0) s
  let s := (List.range 8).foldl (fun (s : State) k =>
    s.putNum (guardKey g base k) 8 (nbits blk (130 + 3 * k) (128 + 3 * k))) s
  (List.range 32).foldl (fun (s : State) k => s.putNum (slotKey g base k) 8 (nbits blk (4 * k + 3) (4 * k))) s

theorem armTape_eq (s : State) (g n base cap blk : Nat) : s.armTape g n base cap blk =
    if Dir.state (s.entry g n) = 2 ∨ Dir.users (s.entry g n) ≠ 0 then (s, 1)
    else if base < 64 ∨ cap < 25 ∨ 65536 < base + cap then (s, 2)
    else if s.tapeClash g n base cap then (s, 3)
    else if armBad blk then (s, 4)
    else ((armedTape s g base blk).setEntry g n (Dir.mk 1 0 0 base cap), 0) := by
  simp only [State.armTape, armedTape]

theorem offTape_eq (s : State) (g n : Nat) : s.offTape g n =
    if Dir.state (s.entry g n) = 2 ∨ Dir.users (s.entry g n) ≠ 0 then (s, 1)
    else (s.setDir g n (Dir.withState (s.entry g n) 0 (Dir.why (s.entry g n))), 0) := by
  simp only [State.offTape]

theorem tapeBusy_iff {d : Nat} : tapeBusy d ↔ Dir.state d = 2 ∨ Dir.users d ≠ 0 := Iff.rfl

theorem armTape_busy (h : tapeBusy (s.entry g n)) : s.armTape g n base cap blk = (s, 1) := by
  rw [armTape_eq, if_pos (tapeBusy_iff.mp h)]

theorem offTape_busy (h : tapeBusy (s.entry g n)) : s.offTape g n = (s, 1) := by
  rw [offTape_eq, if_pos (tapeBusy_iff.mp h)]

theorem offTape_free (h : ¬ tapeBusy (s.entry g n)) (hp : s.poisoned (entryKey g n) 8 = false) :
    s.offTape g n = (s.setEntry g n (Dir.withState (s.entry g n) 0 (Dir.why (s.entry g n))), 0) := by
  rw [offTape_eq, if_neg (mt tapeBusy_iff.mpr h), State.setDir, State.dirBad, hp, if_neg Bool.false_ne_true]

theorem armBad_iff : armBad blk = true ↔
    nbits blk 255 152 ≠ 0 ∨ ∃ k, k < 8 ∧ 4 < nbits blk (130 + 3 * k) (128 + 3 * k) := by
  simp [armBad]

theorem tapeClash_of_meet {m : Nat} (hm : m < 64) (hn : m ≠ n) (h0 : Dir.state (s.entry g m) ≠ 0)
    (h1 : base < Dir.base (s.entry g m) + Dir.cap (s.entry g m)) (h2 : Dir.base (s.entry g m) < base + cap) :
    s.tapeClash g n base cap = true := by
  simp only [State.tapeClash, List.any_eq_true, List.mem_range]
  exact ⟨m, hm, by simp [hn, h0, h1, h2]⟩

variable (hb : ¬ tapeBusy (s.entry g n))
include hb

theorem armTape_outside (h : base < 64 ∨ cap < 25 ∨ 65536 < base + cap) : s.armTape g n base cap blk = (s, 2) := by
  rw [armTape_eq, if_neg (mt tapeBusy_iff.mpr hb), if_pos h]

variable (h64 : 64 ≤ base) (h25 : 25 ≤ cap) (hend : base + cap ≤ 65536)
include h64 h25 hend

theorem armTape_clash (hc : s.tapeClash g n base cap = true) : s.armTape g n base cap blk = (s, 3) := by
  rw [armTape_eq, if_neg (mt tapeBusy_iff.mpr hb), if_neg (by omega), if_pos hc]

variable (hc : s.tapeClash g n base cap = false)
include hc

theorem armTape_malformed (h : armBad blk = true) : s.armTape g n base cap blk = (s, 4) := by
  rw [armTape_eq, if_neg (mt tapeBusy_iff.mpr hb), if_neg (by omega), hc, if_neg Bool.false_ne_true, if_pos h]

/-- The record is written last, after the header, the guards and the patch slots. -/
theorem armTape_armed (h : ¬ armBad blk = true) :
    s.armTape g n base cap blk = ((armedTape s g base blk).setEntry g n (Dir.mk 1 0 0 base cap), 0) := by
  rw [armTape_eq, if_neg (mt tapeBusy_iff.mpr hb), if_neg (by omega), hc, if_neg Bool.false_ne_true, if_neg h]

end Arm

/-! ### Operations that a TAPE has sent (R402, log 47) -/

section Sent

variable {s : State} {g : Nat} {o : TapeOp}

theorem tapeHead_grove (h : s.tapeHead g = some o) : o.grove = g := by
  simpa using List.find?_some h

/-- The event of an operation performs it when it is its turn. -/
theorem exec_tapeOp (h : s.tapeHead g = some o) (hn : o.tape < 64) : exec o.step s = .next (s.tapeNext g) := by
  obtain rfl := tapeHead_grove h
  have hd : s.directory o.grove (o.tape % 64) o.kind = s.tapeNext o.grove := by
    refine if_pos ?_
    simp [h, Nat.mod_eq_of_lt hn]
  obtain ⟨grove, tape, kind, core, gk, wslot, d⟩ := o
  cases kind <;> exact congrArg Host.Outcome.next hd

theorem tapeNext_performed (h : s.tapeHead g = some o) (hl : s.tapeLost g o.tape o.kind = false) :
    s.tapeNext g = (State.tapeDo { s with tapeOps := s.tapeOps.erase o } g o.tape o.kind).1.tapeAnswer o
      (State.tapeDo { s with tapeOps := s.tapeOps.erase o } g o.tape o.kind).2 := by
  have hl' : State.tapeLost { s with tapeOps := s.tapeOps.erase o } g o.tape o.kind = false := hl
  simp only [State.tapeNext, h, hl', Bool.false_eq_true, if_false]

theorem tapeNext_lost (h : s.tapeHead g = some o) (hl : s.tapeLost g o.tape o.kind = true) :
    s.tapeNext g = State.tapeFails { s with tapeOps := s.tapeOps.erase o } o := by
  have hl' : State.tapeLost { s with tapeOps := s.tapeOps.erase o } g o.tape o.kind = true := hl
  simp only [State.tapeNext, h, hl', if_true]

/-- An operation that no TAPE has sent is the control plane's. -/
theorem directory_of_none (h : s.tapeHead g = none) (n : Nat) (k : TapeKind) :
    s.directory g n k = if s.tapeLost g n k = true then s else (s.tapeDo g n k).1 := by
  simp [State.directory, h]

theorem directory_of_clean (h : s.tapeHead g = none) {n : Nat} (hn : n < 64) {k : TapeKind} (hl : s.tapeLost g n k = false) :
    s.directory g (n % 64) k = (s.tapeDo g n k).1 := by
  rw [Nat.mod_eq_of_lt hn, directory_of_none h, if_neg (by simp [hl])]

theorem arm_of_clean (h : s.tapeHead g = none) {n base cap : Nat} {blk : BitVec 256} (hn : n < 64)
    (hl : s.tapeLost g n (.arm base cap blk) = false) :
    exec (.arm g n base cap blk) s = .next (s.armTape g n base cap blk.toNat).1 := by
  change Host.Outcome.next (s.directory g (n % 64) _) = _
  rw [directory_of_clean h hn hl]
  simp only [State.tapeDo]

theorem off_of_clean (h : s.tapeHead g = none) {n : Nat} (hn : n < 64) (hp : s.poisoned (entryKey g n) 8 = false) :
    exec (.off g n) s = .next (s.offTape g n).1 := by
  change Host.Outcome.next (s.directory g (n % 64) _) = _
  rw [directory_of_clean h hn (by simpa [State.tapeLost, State.dirBad] using hp)]
  simp only [State.tapeDo]

theorem tapeLost_of_poisoned {n : Nat} (hp : s.poisoned (entryKey g n) 8 = true) (k : TapeKind) :
    s.tapeLost g n k = true := by
  simp [State.tapeLost, State.dirBad, hp]

theorem directory_of_poisoned (h : s.tapeHead g = none) {n : Nat} (hn : n < 64) (hp : s.poisoned (entryKey g n) 8 = true) (k : TapeKind) :
    s.directory g (n % 64) k = s := by
  rw [Nat.mod_eq_of_lt hn, directory_of_none h, if_pos (tapeLost_of_poisoned hp k)]

theorem not_poisoned_of_nil (hp : s.poison = []) (k n : Nat) : s.poisoned k n = false := by simp [State.poisoned, hp]

theorem tapeLost_of_no_poison (hp : s.poison = []) (n : Nat) (k : TapeKind) : s.tapeLost g n k = false := by
  cases k <;> simp [State.tapeLost, State.dirBad, not_poisoned_of_nil hp]

/-- QUERY changes nothing, whatever it reads. -/
theorem query_of_none (h : s.tapeHead g = none) (n : Nat) : s.directory g n .query = s := by
  rw [directory_of_none h]
  split <;> rfl

end Sent

theorem tapeAnswer_one (s : State) {o : TapeOp} (v : Nat) (h : o.d < 64) : s.tapeAnswer o [v] =
    s.modWarp o.core o.gk o.wslot fun w => { w.setU o.d (BitVec.ofNat 32 v) with
      upend := eraseOne w.upend o.d, stalls := w.stalls.filter fun e => e.2 != .token } :=
  if_neg (by simp [goneReg]; omega)

/-! ### The words (R401, R402) -/

theorem tapeWord_beyond {i : Instr} {d a b : BitVec 6} (hi : i = .tapeArm d a b ∨ i = .tapeOff d b ∨ i = .tapeQry d b) :
    DoesWhen i (fun x => 64 ≤ (x.u b.toNat).toNat) fun x => x.raise Cause.illop := by
  rcases hi with rfl | rfl | rfl
  all_goals
    refine doesWhen_of_eq (fun _ => by dsimp only [exec]; rfl) fun x h => ?_
    rw [if_pos h]

/-- Settles O36: the operations of the directory, what the Talon does with one that was sent, and what the words send. -/
theorem tapeDirectory : Obligations.TapeDirectory := by
  refine ⟨fun _ _ _ _ _ _ => armTape_busy, fun _ _ _ _ _ _ => armTape_outside,
    fun _ _ _ _ _ _ _ hb h64 h25 hend hm hn h0 h1 h2 => armTape_clash hb h64 h25 hend (tapeClash_of_meet hm hn h0 h1 h2),
    fun _ _ _ _ _ _ hb h64 h25 hend hc h => armTape_malformed hb h64 h25 hend hc (armBad_iff.mpr h),
    fun _ _ _ _ _ _ hb h64 h25 hend hc h0 hk => ⟨_, armTape_armed hb h64 h25 hend hc ?armed⟩,
    fun _ _ _ => offTape_busy, fun _ _ _ => offTape_free,
    fun _ _ _ _ _ _ hn h hl => arm_of_clean h hn hl, fun _ _ _ hn h hp => off_of_clean h hn hp,
    fun _ _ _ _ _ _ hn h hp => ⟨congrArg Host.Outcome.next (directory_of_poisoned h hn hp _),
      congrArg Host.Outcome.next (directory_of_poisoned h hn hp _)⟩,
    fun _ _ _ h => congrArg Host.Outcome.next (query_of_none h _),
    fun _ _ _ h hn hl => (exec_tapeOp h hn).trans (congrArg Host.Outcome.next (tapeNext_performed h hl)),
    fun _ _ _ h hn hl => (exec_tapeOp h hn).trans (congrArg Host.Outcome.next (tapeNext_lost h hl)),
    fun _ _ _ _ _ _ hp => ⟨tapeLost_of_no_poison hp _ _, tapeLost_of_no_poison hp _ _, tapeLost_of_no_poison hp _ _⟩,
    fun s _ v h => tapeAnswer_one s v h, fun _ _ _ => rfl, fun d a b bs => ?arm, fun d b => ?offWord, fun d b => ?queryWord, fun d a b => ?unaligned,
    fun _ _ _ _ => tapeWord_beyond⟩
  case armed => exact fun h => (armBad_iff.mp h).elim (absurd h0) fun ⟨k, hk8, h4⟩ => absurd (hk k hk8) (by omega)
  case arm =>
    refine doesWhen_of_eq (fun _ => by dsimp only [exec]; rfl) fun x h => ?_
    obtain ⟨hn, ha, hl⟩ := h
    rw [if_neg (by omega), if_neg (by omega), hl]
    rfl
  case offWord | queryWord => exact doesWhen_of_eq (fun _ => by dsimp only [exec]; rfl) fun x h => by rw [if_neg (by omega)]; rfl
  case unaligned =>
    exact doesWhen_of_eq (fun _ => by dsimp only [exec]; rfl) fun x h => by rw [if_neg (by omega), if_pos h.2]

end Sys2Proof.Laws
end

section
/-! SUPPORT. A replay that goes: how its next command is read, and what stops it (R360, R369-R373, R382, R436). -/

namespace Sys2Proof.Laws

open Sys2Proof.Machine

/-! ### The event of a command kind (R369) -/

/-- The event of a kind is a step of the replay at that kind, which performs its commands. -/
theorem exec_replayEvent {key k : Nat} {i : Instr} (h : replayEvent key k = some i) (s : State) :
    ∃ f, exec i s = .next (s.replayStep key k f) ∧ ∀ r c g, c.kind = k → f r c g = replayPerform s r c g := by
  unfold replayEvent at h
  split at h <;> cases h
  all_goals
    refine ⟨_, rfl, fun r c g hc => ?_⟩
    simp only [replayPerform, hc]

/-! ### A step of a replay -/

section Step

variable {s : State} {k : Nat} {f : Replay → TapeCmd → Group → CmdRes}

theorem replayStep_gone {key : Nat} (h : ∀ r ∈ s.replays, r.key ≠ key) : s.replayStep key k f = s := by
  have hn : s.replays.find? (fun r => r.key == key) = none := List.find?_eq_none.mpr fun r hr => by simpa using h r hr
  simp only [State.replayStep, hn]

variable {r : Replay} (hgo : ReplayGoes s r)
include hgo

/-- A replay that goes reads the command at its index. -/
theorem replayStep_of_goes : s.replayStep r.key k f = match r.command with
    | none => s.replayFault r.key r.e (if s.tapeBad r (entryOff r.e) 16 then Cause.dataerr else Cause.illop)
    | some c =>
      if c.kind ≠ k ∨ r.mayEnter s c = false then s
      else if s.tapePoison r c then s.replayFault r.key r.e Cause.dataerr
      else match (s.replayGroups r).find? fun g => g.member == c.member with
        | none => s.replayFault r.key r.e Cause.illop
        | some g => s.cmdTake r c (f r c g) := by
  obtain ⟨hfound, hgroups, hruns, hmore, hretry⟩ := hgo
  have hstops : (s.replayGroups r).any (fun g => g.stop.isSome || !g.backlog.isEmpty || !g.planeLoads.isEmpty) = false := by
    rw [List.any_eq_false]
    intro g hg
    obtain ⟨hs, hb, hp⟩ := hruns g hg
    simp [hs, hb, hp]
  have hwaits : (r.waitOn.isSome && s.clk % 4096 != 0) = false := by
    rcases hretry with h | h <;> simp [h]
  simp only [State.replayStep, hfound, hstops, hwaits, List.isEmpty_eq_false_iff.mpr hgroups,
    decide_eq_false (Nat.not_le.mpr hmore), Bool.or_false, Bool.false_eq_true, if_false] <;> rfl

theorem replayStep_malformed (hc : r.command = none) : s.replayStep r.key k f =
    s.replayFault r.key r.e (if s.tapeBad r (entryOff r.e) 16 then Cause.dataerr else Cause.illop) := by
  rw [replayStep_of_goes hgo, hc]

variable {c : TapeCmd} (hc : r.command = some c)
include hc

theorem replayStep_held (h : c.kind ≠ k ∨ r.mayEnter s c = false) : s.replayStep r.key k f = s := by
  rw [replayStep_of_goes hgo, hc]
  exact if_pos h

variable (hk : c.kind = k) (hm : r.mayEnter s c = true)
include hk hm

theorem replayStep_entering : s.replayStep r.key k f =
    if s.tapePoison r c then s.replayFault r.key r.e Cause.dataerr
    else match (s.replayGroups r).find? fun g => g.member == c.member with
      | none => s.replayFault r.key r.e Cause.illop
      | some g => s.cmdTake r c (f r c g) := by
  rw [replayStep_of_goes hgo, hc]
  exact if_neg (by simp [hk, hm])

theorem replayStep_poisoned (hp : s.tapePoison r c = true) :
    s.replayStep r.key k f = s.replayFault r.key r.e Cause.dataerr := by
  rw [replayStep_entering hgo hc hk hm, if_pos hp]

variable (hp : s.tapePoison r c = false)
include hp

theorem replayStep_memberless (hg : ∀ g ∈ s.replayGroups r, g.member ≠ c.member) :
    s.replayStep r.key k f = s.replayFault r.key r.e Cause.illop := by
  have hn : (s.replayGroups r).find? (fun g => g.member == c.member) = none :=
    List.find?_eq_none.mpr fun g h => by simpa using hg g h
  rw [replayStep_entering hgo hc hk hm, hp, hn, if_neg Bool.false_ne_true]

theorem replayStep_performed {g : Group} (hg : (s.replayGroups r).find? (fun g => g.member == c.member) = some g) :
    s.replayStep r.key k f = s.cmdTake r c (f r c g) := by
  rw [replayStep_entering hgo hc hk hm, hp, hg, if_neg Bool.false_ne_true]

end Step

/-! ### Addresses and stores (R360, R371, R436) -/

/-- An address of a bound slot is as far from the patch base as it was from the base at recording. -/
theorem addr_patched {r : Replay} {lead : BitVec 1024} {slot a w base : Nat} (hs : r.patch slot = (true, w, base))
    (hb : base ≤ a) (hw : patchBase lead w + (a - base) < 2 ^ 52) :
    r.addr lead true slot a = some (patchBase lead w + (a - base)) := by
  have he : (a : Int) - base + patchBase lead w = ((patchBase lead w + (a - base) : Nat) : Int) := by omega
  simp only [Replay.addr, hs, Bool.not_true, Bool.false_eq_true, if_false, if_true, he, wrap]
  rw [Int.toNat_emod (Int.natCast_nonneg _) (Int.natCast_nonneg _), Int.toNat_natCast, Int.toNat_natCast, Nat.mod_eq_of_lt hw]

/-- A MEM command that stores a word performs it at its address. -/
theorem memPerform_store {s t : State} {r : Replay} {c : TapeCmd} {g : Group} (hop : nbits c.e 75 68 = 2) (hpatch : nbit c.e 8 = false)
    (hal : nbits c.e 67 16 % 4 = 0)
    (hst : s.storeBytes (g.space r.core g.sup) (dieOf r.core) (nbits c.e 67 16) (leBytes 4 (nbits c.e 111 80)) = .ok t ()) :
    s.memPerform r c g = .done t := by
  simp [State.memPerform, Replay.addr, hop, hpatch, hal, hst, Acc.cmd]

/-- Settles O44: the event of a kind is a step of the replay, and a replay that goes is read branch by branch. -/
theorem replayCommands : Obligations.ReplayCommands := by
  refine ⟨fun k key i s he h => ?gone, fun k i s r he hgo hc => ?malformed, fun k i s r c he hgo hc h => ?held,
    fun k i s r c he hgo hc hk hm hp => ?poisoned, fun k i s r c he hgo hc hk hm hp hg => ?memberless,
    fun k i s r c g he hgo hc hk hm hp hg => ?performed, fun _ _ _ _ => rfl, fun _ _ _ _ => rfl, fun _ _ _ _ _ => rfl,
    fun s r c g va bs t hk hop hpatch hva hal hbs hst => ?store, fun _ _ _ _ => rfl,
    fun r lead slot a w base hs hb _ hw => addr_patched hs hb hw⟩
  case store =>
    subst hva hbs
    simp only [replayPerform, hk]
    exact memPerform_store hop hpatch hal hst
  all_goals
    obtain ⟨f, hexec, hf⟩ := exec_replayEvent he s
    rw [hexec]
  case gone => rw [replayStep_gone h]
  case malformed => rw [replayStep_malformed hgo hc]
  case held => rw [replayStep_held hgo hc h]
  case poisoned => rw [replayStep_poisoned hgo hc hk hm hp]
  case memberless => rw [replayStep_memberless hgo hc hk hm hp hg]
  case performed => rw [replayStep_performed hgo hc hk hm hp hg, hf r c g hk]

end Sys2Proof.Laws
end

section
/-! SUPPORT. Claims that the functions of the model keep: what a claim looks at, and which changes keep it. -/

namespace Sys2Proof.Laws

open Sys2Proof.Machine

/-- The parts of the package that hold what memory, the recordings and the links are. -/
def looked (s : State) : List Host.Cell × List Nat × List Recorder × List Clean × List Die × List LinkState :=
  (s.mem, s.poison, s.recorders, s.cleans, s.dies, s.links)

/-- A claim about those parts only, which the use of a link keeps. -/
structure Frames (P : State → Prop) : Prop where
  of_eq : ∀ {s t : State}, P s → looked t = looked s → P t
  useLink : ∀ {s : State} (l : Link), P s → P (s.useLink l)

/-- A claim that the writes of memory keep. -/
structure Writes (P : State → Prop) : Prop extends Frames P where
  put : ∀ {s : State} (k : Nat) (bs : List Byte), P s → P (s.put k bs)
  setPoison : ∀ {s : State} (l : List Nat), P s → P { s with poison := l }
  setRecorders : ∀ {s : State} (l : List Recorder), P s → P { s with recorders := l }
  setCleans : ∀ {s : State} (l : List Clean), P s → P { s with cleans := l }
  keepMem : ∀ {s : State} (p : Host.Cell → Bool), P s → P { s with mem := s.mem.filter p }

/-- A claim that the recorder and the write-backs on their way keep. -/
structure Stays (P : State → Prop) : Prop extends Frames P where
  abandon : ∀ {s : State} (gang why : Nat), P s → P (s.abandon gang why)
  append : ∀ {s : State} (gang m : Nat) (b : Bool) (c : Cmd), P s → P (s.append gang m b c)
  land : ∀ {s : State} (l : List Nat), P s → P (s.land l)

structure Stores (P : State → Prop) : Prop extends Writes P, Stays P

/-- A claim that changes of the dies and the links keep. -/
structure Moves (P : State → Prop) : Prop extends Stores P where
  setDies : ∀ {s : State} (l : List Die), P s → P { s with dies := l }
  setLinks : ∀ {s : State} (l : List LinkState), P s → P { s with links := l }

section Results
variable (P : State → Prop) {α : Type}

/-- The states in the outcome of an access. -/
def AccHolds : Acc α → Prop
  | .ok s _ | .bad s _ => P s
  | .wait => True
def LaneHolds : LaneRes → Prop
  | .ok s _ _ | .bad s _ | .hold s => P s
  | .wait => True
def CmdHolds : CmdRes → Prop
  | .done s | .hold s | .bad s _ => P s
  | .page _ => True
def ChunkHolds : Chunk → Prop
  | .part s _ _ | .fail s _ => P s
def SubmitHolds : Submit → Prop
  | .taken s => P s
  | .bad | .full _ => True
def GateHolds : Gate → Prop
  | .go => True
  | .stop s => P s
def EngAll (q : α → Prop) : EngRes α → Prop
  | .ok a => q a
  | .bad _ | .page _ | .wait => True
def ResAll (q : α → Prop) : Res α → Prop
  | .ok a => q a
  | .bad _ | .wait => True
inductive NextHolds : Host.Outcome State Fault Refusal → Prop
  | next {s : State} (h : P s) : NextHolds (.next s)
  | fault (f : Fault) : NextHolds (.fault f)
  | refused (r : Refusal) : NextHolds (.refused r)

end Results

/-- A claim that the boot keeps too. -/
structure Steps (P : State → Prop) : Prop extends Moves P where
  reset : ∀ {s : State}, P s → NextHolds P (execReset s)

variable {P : State → Prop} {s : State}

theorem foldl_holds {σ α : Type} {q : σ → Prop} {f : σ → α → σ} (l : List α) (hf : ∀ s a, q s → q (f s a)) {s : σ} (h : q s) :
    q (l.foldl f s) := by
  induction l generalizing s with
  | nil => exact h
  | cons a l ih => exact ih (hf s a h)

theorem Frames.foldl {α : Type} {f : State → α → State} (_ : Frames P) (l : List α) (hf : ∀ s a, P s → P (f s a)) (h : P s) :
    P (l.foldl f s) := foldl_holds l hf h

section Fields
variable (hP : Frames P) (h : P s)
include hP h

theorem Frames.withOwned (l : Sparse Nat) : P { s with owned := l } := hP.of_eq h rfl
theorem Frames.withAgenda (l : List Mover) : P { s with agenda := l } := hP.of_eq h rfl
theorem Frames.withEdge (l : List EdgeLine) : P { s with edge := l } := hP.of_eq h rfl
theorem Frames.withTasks (l : List Task) : P { s with tasks := l } := hP.of_eq h rfl
theorem Frames.withDraws (l : List Draw) : P { s with draws := l } := hP.of_eq h rfl
theorem Frames.withReplays (l : List Replay) : P { s with replays := l } := hP.of_eq h rfl
theorem Frames.withCommits (l : List Commit) : P { s with commits := l } := hP.of_eq h rfl
theorem Frames.withPushes (l : List Push) : P { s with pushes := l } := hP.of_eq h rfl
theorem Frames.withTapeOps (l : List TapeOp) : P { s with tapeOps := l } := hP.of_eq h rfl
theorem Frames.withPreempt (l : Option Preempt) : P { s with preempt := l } := hP.of_eq h rfl
theorem Frames.withMp3 (l : List Request) : P { s with mp3 := l } := hP.of_eq h rfl
theorem Frames.withLogSeq (l : Word) : P { s with logSeq := l } := hP.of_eq h rfl
theorem Frames.withImages (l : List Saved) : P { s with images := l } := hP.of_eq h rfl
theorem Frames.withFresh (l : Nat) : P { s with fresh := l } := hP.of_eq h rfl
theorem Frames.withMp1Open (l : Bool) : P { s with mp1Open := l } := hP.of_eq h rfl

end Fields

theorem engAll_andThen {α β : Type} {q : β → Prop} {x : EngRes α} {f : α → EngRes β} (h : ∀ a, EngAll q (f a)) :
    EngAll q (x.andThen f) := by
  cases x with
  | ok a => exact h a
  | bad c | page va | wait => trivial

theorem resAll_andThen {α β : Type} {q : β → Prop} {x : Res α} {f : α → Res β} (h : ∀ a, ResAll q (f a)) :
    ResAll q (x.andThen f) := by
  cases x with
  | ok a => exact h a
  | bad c | wait => trivial

theorem AccHolds.of_ok {α : Type} {a : Acc α} {v : α} (h : AccHolds P a) (ha : a = .ok s v) : P s := by
  subst ha; exact h

theorem AccHolds.of_bad {α : Type} {a : Acc α} {c : Nat} (h : AccHolds P a) (ha : a = .bad s c) : P s := by
  subst ha; exact h

theorem EngAll.of_ok {α : Type} {q : α → Prop} {x : EngRes α} {v : α} (h : EngAll q x) (hx : x = .ok v) : q v := by
  subst hx; exact h

theorem ResAll.of_ok {α : Type} {q : α → Prop} {x : Res α} {v : α} (h : ResAll q x) (hx : x = .ok v) : q v := by
  subst hx; exact h

theorem firstSome_holds {α : Type} {l : List α} {f : α → Option State} (h : ∀ a u, f a = some u → P u) :
    ∀ u, firstSome l f = some u → P u := by
  intro u hu
  obtain ⟨a, -, ha⟩ := List.exists_of_findSome?_eq_some hu
  exact h a u ha

theorem holds_of_fst {α : Type} {p : State × α} {a : α} (h : P p.1) (hp : p = (s, a)) : P s := by
  subst hp; exact h

end Sys2Proof.Laws
end

section
/-! SUPPORT. The functions of memory, of warps and of one access per lane keep a claim (State, Tape, Ops, Translate, Memory). -/

namespace Sys2Proof.Laws

open Sys2Proof.Machine

variable {P : State → Prop} {s : State}

/-! ### Raw writes and poison -/

theorem Writes.poisonUnit (hP : Writes P) (u : Nat) (h : P s) : P (s.poisonUnit u) := by
  grind [State.poisonUnit, hP.setPoison]

theorem Stores.poisonSpan (hP : Stores P) (k n : Nat) (block : Bool) (h : P s) :
    P (s.poisonSpan k n block) := by
  grind [State.poisonSpan, hP.poisonUnit, hP.foldl]

theorem Stores.writeBackPoison (hP : Stores P) (u : Nat) (h : P s) : P (s.writeBackPoison u) := by
  grind [State.writeBackPoison, hP.poisonUnit, hP.foldl]

theorem Writes.clearCovered (hP : Writes P) (k n : Nat) (h : P s) : P (s.clearCovered k n) := by
  grind [State.clearCovered, hP.setPoison]

theorem Writes.putNum (hP : Writes P) (k n v : Nat) (h : P s) : P (s.putNum k n v) := by
  grind [State.putNum, hP.put]

/-! ### The recorder -/

theorem Writes.setEntry (hP : Writes P) (g i v : Nat) (h : P s) : P (s.setEntry g i v) := by
  grind [State.setEntry, hP.putNum]

theorem Writes.setDir (hP : Writes P) (g n v : Nat) (h : P s) : P (s.setDir g n v) := by
  grind [State.setDir, hP.setEntry]

theorem Writes.abandon (hP : Writes P) (gang why : Nat) (h : P s) : P (s.abandon gang why) := by
  grind [State.abandon, hP.setDir, hP.setRecorders]

theorem Writes.putEntries (hP : Writes P) (g i : Nat) (a3 : List Nat) (h : P s) : P (s.putEntries g i a3) := by
  induction a3 generalizing s g i <;> grind [State.putEntries, hP.setEntry]

theorem Writes.append (hP : Writes P) (gang member : Nat) (fence : Bool) (c : Cmd) (h : P s) :
    P (s.append gang member fence c) := by
  grind [State.append, hP.putNum, hP.abandon, hP.putEntries]

/-! ### Cores, groups and warps; parking -/

theorem Stays.setCore (hP : Stays P) (c : Nat) (k : Core) (h : P s) : P (s.setCore c k) := hP.of_eq h rfl

theorem Stays.modCore (hP : Stays P) (c : Nat) (f : Core → Core) (h : P s) : P (s.modCore c f) := hP.of_eq h rfl

theorem Stays.modGroup (hP : Stays P) (c gk : Nat) (f : Group → Group) (h : P s) :
    P (s.modGroup c gk f) := hP.of_eq h rfl

theorem Stays.modWarp (hP : Stays P) (c gk slot : Nat) (f : Warp → Warp) (h : P s) :
    P (s.modWarp c gk slot f) := hP.of_eq h rfl

theorem Stays.modGang (hP : Stays P) (c gang : Nat) (f : Group → Group) (h : P s) :
    P (s.modGang c gang f) := hP.of_eq h rfl

theorem Stays.bump (hP : Stays P) (h : P s) : P (s.bump) := hP.of_eq h rfl

theorem Stays.emit (hP : Stays P) (e : Event) (h : P s) : P (s.emit e) := hP.of_eq h rfl

theorem Stays.ctxModG (hP : Stays P) (x : Ctx) {s : State} (f : Group → Group) (h : P s) :
    P (x.modG s f) := hP.of_eq h rfl

theorem Stays.ctxModW (hP : Stays P) (x : Ctx) {s : State} (f : Warp → Warp) (h : P s) :
    P (x.modW s f) := hP.of_eq h rfl

theorem Stays.ctxLanesDo (hP : Stays P) (x : Ctx) {s : State} (ls : List Nat) (f : Nat → Thread → Thread) (h : P s) :
    P (x.lanesDo s ls f) := hP.of_eq h rfl

theorem Stays.ctxDone (hP : Stays P) (x : Ctx) {s : State} (f : Nat → Thread → Thread) (h : P s) :
    P (x.done s f) := hP.of_eq h rfl

theorem Stays.ctxDoneW (hP : Stays P) (x : Ctx) {s : State} (f : Warp → Warp) (h : P s) :
    P (x.doneW s f) := hP.of_eq h rfl

theorem Stays.ctxAdvance (hP : Stays P) (x : Ctx) {s : State} (ls : List Nat) (h : P s) :
    P (x.advance s ls) := hP.of_eq h rfl

theorem Stays.ctxStall (hP : Stays P) (x : Ctx) {s : State} (why : Stall) (h : P s) :
    P (x.stall s why) := hP.of_eq h rfl

theorem Stays.sync (hP : Stays P) (c : Nat) (g : Group) (slot : Nat) (h : P s) : P (s.sync c g slot) := by
  grind [State.sync, hP.modWarp]

theorem Stays.recordOf (hP : Stays P) (c : Nat) (g : Group) (slot : Nat) (cmd : Cmd) (h : P s) :
    P (s.recordOf c g slot cmd) := by
  grind [State.recordOf, hP.append, hP.modWarp]

theorem Stays.escape (hP : Stays P) (c gang member reason : Nat) (cause : Word) (pc : Addr) (h : P s) :
    P (s.escape c gang member reason cause pc) := hP.of_eq h rfl

theorem Stays.park (hP : Stays P) (c gk slot : Nat) (lanes : Mask) (bits : Word) (pc : Addr) (h : P s) :
    P (s.park c gk slot lanes bits pc) := by
  grind [State.park, hP.abandon, hP.modGroup, hP.escape]

theorem Stays.ctxPark (hP : Stays P) (x : Ctx) {s : State} (lanes : Mask) (bits : Word) (h : P s) :
    P (x.park s lanes bits) := by
  grind [Ctx.park, hP.park]

theorem Stays.ctxRaise (hP : Stays P) (x : Ctx) (cause : Nat) (hx : P x.s) : P (x.raise cause) := by
  grind [Ctx.raise, hP.ctxPark]

theorem Stays.ctxParkAll (hP : Stays P) (x : Ctx) {s : State} (faults : List (Nat × Nat)) (h : P s) :
    P (x.parkAll s faults) := by
  grind [Ctx.parkAll, hP.ctxPark]

theorem Stays.tret (hP : Stays P) (c gk slot : Nat) (lanes : Mask) (h : P s) : P (s.tret c gk slot lanes) := by
  grind [State.tret, hP.modGroup]

theorem Stays.ctxWaitAt (hP : Stays P) (x : Ctx) {s : State} (ls : List Nat) (k : Wait) (h : P s) :
    P (x.waitAt s ls k) := hP.of_eq h rfl

theorem Stays.pendTok (hP : Stays P) (c gk : Nat) (t : Tok) (h : P s) : P (s.pendTok c gk t) := hP.of_eq h rfl

theorem Stays.writeTok (hP : Stays P) (c gk : Nat) (t : Tok) (code : Word) (h : P s) :
    P (s.writeTok c gk t code) := by
  grind [State.writeTok, hP.modWarp]

/-! ### A word at its issuing set -/

theorem Stays.pipeBit (hP : Stays P) (core : Nat) (q : Pipe) (slot i l : Nat) (full : Bool) (h : P s) :
    P (s.pipeBit core q slot i l full) := hP.of_eq h rfl

theorem Stays.pipeFill (hP : Stays P) (core : Nat) (q : Pipe) (gk slot i l : Nat) (h : P s) :
    P (s.pipeFill core q gk slot i l) := by
  grind [State.pipeFill, hP.modGang, hP.pipeBit]

theorem Stays.ctxPipeAfter (hP : Stays P) (x : Ctx) (o : Opnds) {s : State} (h : P s) :
    P (x.pipeAfter o s) := by
  grind [Ctx.pipeAfter, hP.pipeBit, hP.pipeFill, hP.foldl]

theorem Stays.ctxRaiseTok (hP : Stays P) (x : Ctx) (r c : Nat) (hx : P x.s) : P (x.raiseTok r c) := by
  grind [Ctx.raiseTok, hP.ctxModW, hP.ctxPark]

theorem Stays.ctxStallTok (hP : Stays P) (x : Ctx) {s : State} (l : List Nat) (h : P s) :
    P (x.stallTok s l) := hP.of_eq h rfl

theorem Stays.gate (hP : Stays P) (i : Instr) (x : Ctx) (hx : P x.s) : GateHolds P (gate i x) := by
  grind [Machine.gate, GateHolds, hP.ctxStall, hP.ctxRaise, hP.ctxWaitAt, hP.ctxRaiseTok, hP.ctxStallTok]

theorem Stays.ctxMarked (hP : Stays P) (x : Ctx) (o : Opnds) (hx : P x.s) : P (x.marked o).s := by
  grind [Ctx.marked, hP.sync]

theorem Stays.runWord (hP : Stays P) {i : Instr} {eff : Ctx → State} (h : P s) (hf : ∀ x : Ctx, P x.s → P (eff x)) :
    NextHolds P (runWord i s eff) := by
  unfold Machine.runWord
  split
  · exact .fault _
  · next x hx =>
    obtain ⟨rfl, -⟩ := state_and_groups_of_ctxOf hx
    have hg := hP.gate i x h
    split
    · next t ht => rw [ht] at hg; exact .next hg
    · exact .next (hP.ctxPipeAfter _ _ (hf _ (hP.ctxMarked x _ h)))

/-! ### Register results -/

theorem Stays.ctxWriteInt (hP : Stays P) (x : Ctx) (w : Bool) (d : BitVec 7) (val : Nat → Nat) (hx : P x.s) :
    P (x.writeInt w d val) := hP.of_eq hx rfl

theorem Stays.ctxWriteFp (hP : Stays P) (x : Ctx) (f : FFmt) (d : BitVec 7) (val : Nat → Nat × Flags) (hx : P x.s) :
    P (x.writeFp f d val) := hP.of_eq hx rfl

theorem Stays.ctxWritePred (hP : Stays P) (x : Ctx) (d : BitVec 4) (val : Nat → Bool) (hx : P x.s) :
    P (x.writePred d val) := hP.of_eq hx rfl

/-! ### Links, edge lines and accesses -/

theorem Moves.setLink (hP : Moves P) (x : LinkState) (h : P s) : P (s.setLink x) := by
  grind [State.setLink, hP.setLinks]

theorem Frames.crosses (hP : Frames P) (line : Nat) (h : P s) : P (s.crosses line) := by
  grind [State.crosses, hP.useLink]

theorem Stays.setEdge (hP : Stays P) (e : EdgeLine) (h : P s) : P (s.setEdge e) := by
  grind [State.setEdge, looked, hP.of_eq]

theorem Writes.homePut (hP : Writes P) (cells : List (Nat × Byte)) (bad : List Nat) (h : P s) :
    P (s.homePut cells bad) := by
  grind [State.homePut, hP.poisonUnit, hP.put, hP.crosses, hP.foldl, hP.setPoison]

theorem Writes.land (hP : Writes P) (lines : List Nat) (h : P s) : P (s.land lines) := by
  grind [State.land, hP.homePut, hP.setCleans]

theorem Stays.edgeFill (hP : Stays P) (die line : Nat) (h : P s) : P (s.edgeFill die line) := by
  grind [State.edgeFill, hP.crosses, hP.setEdge, hP.land]

theorem Stays.edgeFetch (hP : Stays P) (die line : Nat) (h : P s) : P (s.edgeFetch die line) := by
  grind [State.edgeFetch, hP.edgeFill]

theorem Stays.edgeKeep (hP : Stays P) (die k : Nat) (b : Byte) (dirty : Bool) (h : P s) :
    P (s.edgeKeep die k b dirty) := by
  grind [State.edgeKeep, hP.setEdge]

theorem Stays.poisonCopy (hP : Stays P) (die u : Nat) (h : P s) : P (s.poisonCopy die u) := by
  grind [State.poisonCopy, hP.setEdge]

theorem Stores.poisonHere (hP : Stores P) (die u : Nat) (h : P s) : P (s.poisonHere die u) := by
  grind [State.poisonHere, hP.poisonUnit, hP.poisonCopy]

theorem Stores.poisonFor (hP : Stores P) (die k n : Nat) (h : P s) : P (s.poisonFor die k n) := by
  grind [State.poisonFor, hP.poisonHere, hP.foldl]

theorem Stays.copyClear (hP : Stays P) (die k n : Nat) (h : P s) : P (s.copyClear die k n) := by
  grind [State.copyClear, looked, hP.of_eq]

theorem Stays.copyClearKeys (hP : Stays P) (die : Nat) (keys : List Nat) (h : P s) :
    P (s.copyClearKeys die keys) := by
  grind [State.copyClearKeys, looked, hP.of_eq]

theorem Stays.touch (hP : Stays P) (die : Nat) (x : Xlat) (n : Nat) (h : P s) : P (s.touch die x n) := by
  grind [State.touch, hP.edgeFetch, hP.foldl]

theorem Stays.touchSpan (hP : Stays P) (sp : Space) (die va n : Nat) (h : P s) :
    P (s.touchSpan sp die va n) := by
  grind [State.touchSpan, hP.touch, hP.foldl]

theorem Stays.touchAll (hP : Stays P) (die : Nat) (xs : List (Xlat × Nat)) (h : P s) :
    P (s.touchAll die xs) := by
  grind [State.touchAll, hP.touch, hP.foldl]

theorem Stays.fillAll (hP : Stays P) (die : Nat) (xs : List (Xlat × Nat)) (h : P s) : P (s.fillAll die xs) := by
  grind [State.fillAll, hP.edgeFill, hP.foldl]

theorem Stays.partsHere (hP : Stays P) (die : Nat) (xs : List (Xlat × Nat)) (h : P s) :
    P (s.partsHere die xs) := by
  grind [State.partsHere, hP.fillAll]

theorem Stays.touchParts (hP : Stays P) (die : Nat) (xs : List (Xlat × Nat)) (h : P s) :
    P (s.touchParts die xs) := by
  grind [State.touchParts, hP.touchAll, hP.fillAll]

theorem Stays.own (hP : Stays P) (die k n : Nat) (h : P s) : P (s.own die k n) := by
  grind [State.own, looked, hP.of_eq]

theorem Stays.disown (hP : Stays P) (k n : Nat) (h : P s) : P (s.disown k n) := hP.of_eq h rfl

theorem Stores.drainFor (hP : Stores P) (k n : Nat) (h : P s) : P (s.drainFor k n) := by
  grind [State.drainFor, hP.putNum, hP.modCore, hP.foldl]

theorem Stores.writeAt (hP : Stores P) (die : Nat) (x : Xlat) (bs : List Byte) (h : P s) :
    P (s.writeAt die x bs) := by
  grind [State.writeAt, hP.put, hP.edgeKeep, hP.copyClear, hP.own, hP.drainFor, hP.foldl]

theorem Stores.edgeFlush (hP : Stores P) (die k : Nat) (h : P s) : P (s.edgeFlush die k) := by
  grind [State.edgeFlush, hP.setEdge, hP.homePut, hP.land]

theorem Stores.writeHome (hP : Stores P) (die : Nat) (x : Xlat) (bs : List Byte) (h : P s) :
    P (s.writeHome die x bs) := by
  grind [State.writeHome, hP.put, hP.crosses, hP.setEdge, hP.copyClear, hP.own, hP.drainFor]

theorem Stays.loadKeep (hP : Stays P) (sp : Space) (die ea n : Nat) (h : P s) :
    AccHolds P (s.loadKeep sp die ea n) := by
  grind [State.loadKeep, AccHolds, hP.touch]

theorem Stays.loadEachKeep (hP : Stays P) (sp : Space) (die ea n : Nat) (h : P s) :
    AccHolds P (s.loadEachKeep sp die ea n) := by
  grind [State.loadEachKeep, AccHolds, hP.touchAll]

theorem Stores.storeCheck (hP : Stores P) (sp : Space) (die ea n : Nat) (h : P s) :
    AccHolds P (s.storeCheck sp die ea n) := by
  grind [State.storeCheck, AccHolds, hP.poisonFor]

theorem Stores.storeBytes (hP : Stores P) (sp : Space) (die ea : Nat) (bs : List Byte) (h : P s) :
    AccHolds P (s.storeBytes sp die ea bs) := by
  have hc := hP.storeCheck sp die ea bs.length h
  unfold State.storeBytes
  split <;> simp_all [AccHolds, hP.writeAt]

theorem Stores.storeEachCheck (hP : Stores P) (sp : Space) (die ea n : Nat) (h : P s) :
    AccHolds P (s.storeEachCheck sp die ea n) := by
  grind [State.storeEachCheck, AccHolds, hP.poisonFor, hP.foldl]

theorem Stores.storeEachPut (hP : Stores P) (sp : Space) (die ea : Nat) (a4 : List Byte) (h : P s) :
    P (s.storeEachPut sp die ea a4) := by
  induction a4 generalizing s sp die ea <;> grind [State.storeEachPut, hP.writeAt]

theorem Stores.storeEach (hP : Stores P) (sp : Space) (die ea : Nat) (bs : List Byte) (h : P s) :
    AccHolds P (s.storeEach sp die ea bs) := by
  have hc := hP.storeEachCheck sp die ea bs.length h
  unfold State.storeEach
  split <;> simp_all [AccHolds, hP.storeEachPut]

theorem Stores.atomBytes (hP : Stores P) (sp : Space) (die ea n : Nat) (f : Nat → Option Nat) (h : P s) :
    AccHolds P (s.atomBytes sp die ea n f) := by
  grind [State.atomBytes, AccHolds, hP.poisonSpan, hP.edgeFlush, hP.writeHome]

theorem Stays.accLane (_ : Stays P) {α : Type} {a : Acc α} {k : State → α → LaneRes} (ha : AccHolds P a) (hk : ∀ s a,
  P s → LaneHolds P (k s a)) :
    LaneHolds P (Acc.lane a k) := by
  cases a with
  | ok s v => exact hk s v ha
  | bad s c => exact ha
  | wait => trivial

theorem Stays.resLane (_ : Stays P) {α : Type} (a : Res α) {k : α → LaneRes} (h : P s) (hk : ∀ a, LaneHolds P (k a)) :
    LaneHolds P (Res.lane s a k) := by
  unfold Res.lane
  grind [LaneHolds]

theorem Stays.lanesRun (_ : Stays P) (ls : List Nat) {f : State → Nat → LaneRes} (h : P s)
    (hf : ∀ s l, P s → LaneHolds P (f s l)) : P (lanesRun s ls f).s := by
  refine foldl_holds (q := fun a : Lanes => P a.s) ls (fun a l ha => ?_) h
  have := hf a.s l ha
  split <;> simp_all [LaneHolds]

theorem Stays.ctxPerLane (hP : Stays P) (x : Ctx) (ls : List Nat) (k : Wait) {f : State → Nat → LaneRes} {after : State
  → State} (hx : P x.s) (hf : ∀ s l, P s → LaneHolds P (f s l)) (hafter : ∀ s, P s → P (after s)) :
    P (x.perLane ls k f after) := by
  grind [Ctx.perLane, hP.ctxLanesDo, hP.ctxStall, hP.recordOf, hP.ctxParkAll, hP.ctxWaitAt, hP.lanesRun, hP.foldl]

/-! ### Elements -/

theorem Stays.elemNum (hP : Stays P) (sp : Space) (die base i named : Nat) (h : P s) :
    AccHolds P (s.elemNum sp die base i named) := by
  grind [State.elemNum, AccHolds, hP.touchParts]

/-! ### Memory words -/

theorem Stays.ctxLoadLane (hP : Stays P) (x : Ctx) (k : LdKind) (ua : Bool) (d : BitVec 7) {s : State} (ea : Nat) (h :
  P s) :
    LaneHolds P (x.loadLane k ua d s ea) := by
  grind [Ctx.loadLane, LaneHolds, hP.loadKeep, hP.loadEachKeep, hP.accLane]

theorem Stores.ctxStoreLane (hP : Stores P) (x : Ctx) (k : StKind) (ua : Bool) (d : BitVec 7) (l : Nat) {s : State} (ea
  : Nat) (h : P s) :
    LaneHolds P (x.storeLane k ua d l s ea) := by
  grind [Ctx.storeLane, LaneHolds, hP.storeBytes, hP.storeEach, hP.accLane]

theorem Stays.execLd (hP : Stays P) (k : LdKind) (d a : BitVec 7) (off : BitVec 9) {s : State} (h : P s) :
    NextHolds P (execLd k d a off s) := hP.runWord h fun _ hx => by grind [hP.ctxPerLane, hP.ctxLoadLane]

theorem Stores.execSt (hP : Stores P) (k : StKind) (d a : BitVec 7) (off : BitVec 9) {s : State} (h : P s) :
    NextHolds P (execSt k d a off s) := hP.runWord h fun _ hx => by grind [hP.ctxPerLane, hP.ctxStoreLane]

theorem Stays.execLdx (hP : Stays P) (k : LdKind) (ub ua : Bool) (d a b : BitVec 7) {s : State} (h : P s) :
    NextHolds P (execLdx k ub ua d a b s) := hP.runWord h fun _ hx => by grind [hP.ctxPerLane, hP.ctxLoadLane]

theorem Stores.execStx (hP : Stores P) (k : StKind) (ub ua : Bool) (d a b : BitVec 7) {s : State} (h : P s) :
    NextHolds P (execStx k ub ua d a b s) := hP.runWord h fun _ hx => by grind [hP.ctxPerLane, hP.ctxStoreLane]

theorem Stays.execLde (hP : Stays P) (nf : BitVec 4) (h0 : Bool) (d a b : BitVec 7) {s : State} (h : P s) :
    NextHolds P (execLde nf h0 d a b s) := hP.runWord h fun _ hx => by grind [LaneHolds, hP.accLane, hP.ctxPerLane,
      hP.elemNum]

theorem Stores.elemStore (hP : Stores P) (sp : Space) (die named f ea bits : Nat) (h : P s) :
    AccHolds P (s.elemStore sp die named f ea bits) := by
  grind [State.elemStore, AccHolds, hP.poisonFor, hP.writeAt]

theorem Stores.execSte (hP : Stores P) (nf : BitVec 4) (sat : Bool) (d a b : BitVec 7) {s : State} (h : P s) :
    NextHolds P (execSte nf sat d a b s) := hP.runWord h fun _ hx => by grind [LaneHolds, hP.accLane, hP.resLane,
      hP.ctxPerLane, hP.elemStore]

theorem Stores.execAtom (hP : Stores P) (op : AtomOp) (w64 : Bool) (d a b : BitVec 7) {s : State} (h : P s) :
    NextHolds P (execAtom op w64 d a b s) := hP.runWord h fun _ hx => by grind [LaneHolds, hP.atomBytes, hP.accLane,
      hP.ctxPerLane]

theorem Stores.futTry (hP : Stores P) (sp : Space) (die ea : Nat) (op : FutOp) (v : Nat) (h : P s) :
    AccHolds P (s.futTry sp die ea op v) := by
  unfold State.futTry
  split <;> grind [AccHolds, hP.writeAt]

theorem Stores.ctxFutRound (hP : Stores P) (x : Ctx) (take : Bool) (d a : BitVec 7) (hx : P x.s) :
    P (x.futRound take d a) := by
  grind [Ctx.futRound, LaneHolds, hP.sync, hP.accLane, hP.ctxPerLane, hP.futTry]

theorem Stores.execFutFill (hP : Stores P) (d a b : BitVec 7) {s : State} (h : P s) :
    NextHolds P (execFutFill d a b s) := hP.runWord h fun _ hx => by grind [LaneHolds, hP.sync, hP.accLane,
      hP.ctxPerLane, hP.futTry]

theorem Stores.execFutWait (hP : Stores P) (d a : BitVec 7) {s : State} (h : P s) :
    NextHolds P (execFutWait d a s) := hP.runWord h fun _ hx => by grind [hP.ctxFutRound]

theorem Stores.execFutTake (hP : Stores P) (d a : BitVec 7) {s : State} (h : P s) :
    NextHolds P (execFutTake d a s) := hP.runWord h fun _ hx => by grind [hP.ctxFutRound]

theorem Stores.execFutClr (hP : Stores P) (a : BitVec 7) {s : State} (h : P s) :
    NextHolds P (execFutClr a s) := hP.runWord h fun _ hx => by grind [LaneHolds, hP.accLane, hP.ctxPerLane, hP.futTry]

theorem Stays.ctxAt (hP : Stays P) (core : Nat) (g : Group) (slot : Nat) (w : Warp) (ls : List Nat) (pc : Addr) (h : P
  s) :
    P (s.ctxAt core g slot w ls pc).s := hP.of_eq h rfl

theorem Stores.ctxFutAgain (hP : Stores P) (x : Ctx) (take : Bool) (d a : BitVec 7) (hx : P x.s) :
    P (x.futAgain take d a) := by
  grind [Ctx.futAgain, hP.ctxRaise, hP.ctxPipeAfter, hP.ctxMarked, hP.ctxFutRound]

theorem Stores.execFutAttempt (hP : Stores P) (core wid : Nat) {s : State} (h : P s) :
    NextHolds P (execFutAttempt core wid s) := by
  unfold Machine.execFutAttempt
  grind [NextHolds, hP.ctxAt, hP.ctxFutAgain, hP.foldl]

theorem Stays.ctxTagPage (_ : Stays P) (x : Ctx) {s : State} (p : Nat) {f : Nat → LaneRes} (h : P s) (hf : ∀ l,
  LaneHolds P (f l)) :
    LaneHolds P (x.tagPage s p f) := by
  grind [Ctx.tagPage, LaneHolds]

theorem Stays.execTagLook (hP : Stays P) (d a : BitVec 7) {s : State} (h : P s) :
    NextHolds P (execTagLook d a s) := hP.runWord h fun _ hx => by grind [hP.ctxDone, hP.ctxRaise]

theorem Stays.ctxTagLane (hP : Stays P) (x : Ctx) (b : BitVec 7) {s : State} (l : Nat) {f : Nat → LaneRes} (h : P s)
  (hf : ∀ l, LaneHolds P (f l)) :
    LaneHolds P (x.tagLane b s l f) := by
  grind [Ctx.tagLane, LaneHolds, hP.ctxTagPage]

theorem Stays.ctxPutTag (hP : Stays P) (x : Ctx) {s : State} (q : Nat) (f : Nat → Nat) (h : P s) :
    LaneHolds P (x.putTag s q f) := by
  grind [Ctx.putTag, LaneHolds, hP.modCore]

theorem Stays.execTagSet (hP : Stays P) (a b : BitVec 7) {s : State} (h : P s) :
    NextHolds P (execTagSet a b s) := hP.runWord h fun _ hx => by grind [hP.ctxPerLane, hP.ctxTagLane, hP.ctxPutTag]

theorem Stays.execTagInv (hP : Stays P) (b : BitVec 7) {s : State} (h : P s) :
    NextHolds P (execTagInv b s) := hP.runWord h fun _ hx => by grind [hP.ctxPerLane, hP.ctxTagLane, hP.ctxPutTag]

theorem Stays.execTagRd (hP : Stays P) (d b : BitVec 7) {s : State} (h : P s) :
    NextHolds P (execTagRd d b s) := hP.runWord h fun _ hx => by grind [LaneHolds, hP.ctxPerLane, hP.ctxTagLane]

theorem Stays.execTagWr (hP : Stays P) (a b : BitVec 7) {s : State} (h : P s) :
    NextHolds P (execTagWr a b s) := hP.runWord h fun _ hx => by grind [hP.ctxPerLane, hP.ctxTagLane, hP.ctxPutTag]

theorem Stores.execSplfSt (hP : Stores P) (d a k : BitVec 7) {s : State} (h : P s) :
    NextHolds P (execSplfSt d a k s) := hP.runWord h fun _ hx => by grind [LaneHolds, hP.poisonSpan, hP.modCore,
      hP.ctxWaitAt, hP.resLane, hP.ctxPerLane]

theorem Stays.execSplfLd (hP : Stays P) (d a k : BitVec 7) {s : State} (h : P s) :
    NextHolds P (execSplfLd d a k s) := hP.runWord h fun _ hx => by grind [LaneHolds, hP.resLane, hP.ctxPerLane]

theorem Stores.drainSpill (hP : Stores P) (p : Spill) (h : P s) : P (s.drainSpill p) := by
  grind [State.drainSpill, hP.poisonSpan, hP.putNum, hP.foldl]

theorem Stores.drainSpills (hP : Stores P) (core : Nat) (sel : Spill → Bool) (h : P s) :
    P (s.drainSpills core sel) := by
  grind [State.drainSpills, hP.modCore, hP.drainSpill, hP.foldl]

theorem Stores.execSpillWrite (hP : Stores P) (core : Nat) {s : State} (h : P s) :
    NextHolds P (execSpillWrite core s) := by
  grind [Machine.execSpillWrite, NextHolds, hP.modCore, hP.drainSpill]

end Sys2Proof.Laws
end

section
/-! SUPPORT. The system words, control, threads, barriers and the bank of pages keep a claim (Sys, Control, Threads, Banker). -/

namespace Sys2Proof.Laws

open Sys2Proof.Machine

variable {P : State → Prop} {s : State}

/-! ### System words -/

theorem Stays.execNop (hP : Stays P) (h : P s) :
    NextHolds P (execNop s) := hP.runWord h fun _ hx => hP.of_eq hx rfl

theorem Stays.execBrk (hP : Stays P) (code : BitVec 7) {s : State} (h : P s) :
    NextHolds P (execBrk code s) := hP.runWord h fun _ hx => by grind [hP.ctxRaise]

theorem Stays.execTrap (hP : Stays P) (code : BitVec 7) {s : State} (h : P s) :
    NextHolds P (execTrap code s) := hP.runWord h fun _ hx => by grind [hP.ctxRaise]

theorem Stays.ctxStopGang (hP : Stays P) (x : Ctx) (reason : Nat) (hx : P x.s) :
    P (x.stopGang reason) := hP.of_eq hx rfl

theorem Stays.execTrapEsc (hP : Stays P) (code : BitVec 7) {s : State} (h : P s) :
    NextHolds P (execTrapEsc code s) := hP.runWord h fun _ hx => hP.of_eq hx rfl

theorem Stays.execHalt (hP : Stays P) (h : P s) :
    NextHolds P (execHalt s) := hP.runWord h fun _ hx => hP.of_eq hx rfl

theorem Stays.execTret (hP : Stays P) (h : P s) :
    NextHolds P (execTret s) := hP.runWord h fun _ hx => by grind [hP.ctxRaise, hP.tret]

theorem Stays.execMfs (hP : Stays P) (d : BitVec 7) (sel : Sel) {s : State} (h : P s) :
    NextHolds P (execMfs d sel s) := hP.runWord h fun _ hx => by grind [hP.ctxModW, hP.ctxDone]

theorem Stays.ctxSetWin (hP : Stays P) (x : Ctx) (n : Nat → Nat) (hx : P x.s) :
    P (x.setWin n) := hP.of_eq hx rfl

theorem Stays.ctxMtsThread (hP : Stays P) (x : Ctx) (d : BitVec 7) (ok : Word → Bool) {t : State} (hx : P x.s) (ht : P
  t) :
    P (x.mtsThread d ok t) := by
  grind [Ctx.mtsThread, hP.ctxRaise]

theorem Stays.ctxMtsTrappc (hP : Stays P) (x : Ctx) (d : BitVec 7) (w64 : Bool) (hx : P x.s) :
    P (x.mtsTrappc d w64) := by
  grind [Ctx.mtsTrappc, hP.ctxDoneW, hP.ctxRaise]

theorem Stays.ctxMtsTraplanes (hP : Stays P) (x : Ctx) (d : BitVec 7) (hx : P x.s) : P (x.mtsTraplanes d) := by
  grind [Ctx.mtsTraplanes, hP.ctxAdvance, hP.ctxRaise, hP.tret]

theorem Stays.execMts (hP : Stays P) (d : BitVec 7) (sel : Sel) {s : State} (h : P s) :
    NextHolds P (execMts d sel s) := hP.runWord h fun _ hx => by grind [hP.ctxDone, hP.ctxDoneW, hP.ctxRaise,
      hP.ctxSetWin, hP.ctxMtsThread, hP.ctxMtsTrappc, hP.ctxMtsTraplanes]

theorem Stays.execCauseclr (hP : Stays P) (a : BitVec 6) {s : State} (h : P s) :
    NextHolds P (execCauseclr a s) := hP.runWord h fun _ hx => by grind [hP.ctxDoneW, hP.ctxRaise]

theorem Stays.execIcinv (hP : Stays P) (h : P s) :
    NextHolds P (execIcinv s) := hP.runWord h fun _ hx => hP.of_eq hx rfl

theorem Stays.execIcinvCompletion (hP : Stays P) (core wid : Nat) {s : State} (h : P s) :
    NextHolds P (execIcinvCompletion core wid s) := by
  unfold Machine.execIcinvCompletion
  split
  · exact .next h
  · split
    · exact .next (hP.of_eq h rfl)
    · exact .next h

theorem Stays.fetchRaise (hP : Stays P) (cause : Nat) (h : P s) : NextHolds P (fetchRaise s cause) := by
  unfold Machine.fetchRaise
  split
  · exact .fault _
  · next x hx =>
    obtain ⟨rfl, -⟩ := state_and_groups_of_ctxOf hx
    exact .next (hP.ctxRaise x cause h)

theorem Stays.execWordNotAnInstruction (hP : Stays P) (h : P s) : NextHolds P (execWordNotAnInstruction s) := by
  grind [Machine.execWordNotAnInstruction, hP.fetchRaise]

theorem Stays.execInstructionFetchFault (hP : Stays P) (page : Bool) {s : State} (h : P s) :
    NextHolds P (execInstructionFetchFault page s) := by
  grind [Machine.execInstructionFetchFault, hP.fetchRaise]

/-! ### Control flow and pipes -/

theorem Stays.ctxBranch (hP : Stays P) (x : Ctx) (t : Addr) (take : Nat → Bool) (hx : P x.s) :
    P (x.branch t take) := hP.of_eq hx rfl

theorem Stays.execBra (hP : Stays P) (disp : BitVec 19) {s : State} (h : P s) :
    NextHolds P (execBra disp s) := hP.runWord h fun _ hx => hP.of_eq hx rfl

theorem Stays.execBraPred (hP : Stays P) (sense : Bool) (p : BitVec 4) (disp : BitVec 19) {s : State} (h : P s) :
    NextHolds P (execBraPred sense p disp s) := hP.runWord h fun _ hx => hP.of_eq hx rfl

theorem Stays.execBraU (hP : Stays P) (sense : Bool) (p : BitVec 4) (disp : BitVec 19) {s : State} (h : P s) :
    NextHolds P (execBraU sense p disp s) := hP.runWord h fun _ hx => hP.of_eq hx rfl

theorem Stays.execCall (hP : Stays P) (d : BitVec 7) (imm : BitVec 19) {s : State} (h : P s) :
    NextHolds P (execCall d imm s) := hP.runWord h fun _ hx => hP.of_eq hx rfl

theorem Stays.ctxJump (hP : Stays P) (x : Ctx) (ub : Bool) (a : BitVec 7) (link : Thread → Thread) (hx : P x.s) :
    P (x.jump ub a link) := by
  grind [Ctx.jump, hP.ctxLanesDo, hP.ctxParkAll]

theorem Stays.execJmpr (hP : Stays P) (ub : Bool) (a : BitVec 7) {s : State} (h : P s) :
    NextHolds P (execJmpr ub a s) := hP.runWord h fun _ hx => by grind [hP.ctxJump]

theorem Stays.execJmprLink (hP : Stays P) (ub : Bool) (d a : BitVec 7) {s : State} (h : P s) :
    NextHolds P (execJmprLink ub d a s) := hP.runWord h fun _ hx => by grind [hP.ctxJump]

theorem Stays.execWbase (hP : Stays P) (n : BitVec 7) {s : State} (h : P s) :
    NextHolds P (execWbase n s) := hP.runWord h fun _ hx => by grind [hP.ctxRaise, hP.ctxSetWin]

theorem Stays.execRpf (hP : Stays P) (start : BitVec 7) (count : BitVec 5) {s : State} (h : P s) :
    NextHolds P (execRpf start count s) := hP.runWord h fun _ hx => by grind [hP.ctxDoneW, hP.ctxRaise]

theorem Stays.parkLanes (hP : Stays P) (core gk slot : Nat) (ls : List Nat) (bits : Word) (h : P s) :
    P (s.parkLanes core gk slot ls bits) := by
  grind [State.parkLanes, hP.park, hP.foldl]

theorem Stays.modPipe (hP : Stays P) (core gang n : Nat) (f : Pipe → Pipe) (h : P s) :
    P (s.modPipe core gang n f) := hP.of_eq h rfl

theorem Stays.ctxPipeOp (hP : Stays P) (x : Ctx) (k : BitVec 3) {f : Pipe → State} (hx : P x.s) (hf : ∀ q, P (f q)) :
    P (x.pipeOp k f) := by
  grind [Ctx.pipeOp, hP.ctxRaise]

theorem Stays.execPipeMap (hP : Stays P) (k : BitVec 3) {s : State} (h : P s) :
    NextHolds P (execPipeMap k s) := hP.runWord h fun _ hx => by grind [hP.ctxDone, hP.ctxRaise, hP.modPipe,
      hP.ctxPipeOp]

theorem Stays.execPipeUnmap (hP : Stays P) (k : BitVec 3) {s : State} (h : P s) :
    NextHolds P (execPipeUnmap k s) := hP.runWord h fun _ hx => by grind [hP.ctxDone, hP.parkLanes, hP.modPipe,
      hP.ctxPipeOp, hP.foldl]

theorem Stays.execPipeQry (hP : Stays P) (d : BitVec 6) (k : BitVec 3) {s : State} (h : P s) :
    NextHolds P (execPipeQry d k s) := hP.runWord h fun _ hx => by grind [hP.ctxDoneW, hP.ctxRaise]

/-! ### Threads and barriers -/

theorem Stays.file (hP : Stays P) (core : Nat) (g : Group) (t : Nat) (pc : Addr) (h : P s) :
    P (s.file core g t pc) := hP.of_eq h rfl

theorem Stays.execBinTimer (hP : Stays P) (core bin : Nat) {s : State} (h : P s) :
    NextHolds P (execBinTimer core bin s) := by
  grind [Machine.execBinTimer, NextHolds, hP.modCore]

theorem Stays.execWarpLaunch (hP : Stays P) (core gk : Nat) {s : State} (h : P s) :
    NextHolds P (execWarpLaunch core gk s) := by
  unfold Machine.execWarpLaunch
  grind [NextHolds, hP.modCore, hP.modWarp, hP.bump]

theorem Stays.execInjection (hP : Stays P) (core bin : Nat) {s : State} (h : P s) :
    NextHolds P (execInjection core bin s) := by
  grind [Machine.execInjection, NextHolds, hP.modCore, hP.modGroup]

theorem Stays.execPathAge (hP : Stays P) (core wid : Nat) {s : State} (h : P s) :
    NextHolds P (execPathAge core wid s) := by
  grind [Machine.execPathAge, NextHolds, hP.withAgenda]

theorem Stays.execWarpAge (hP : Stays P) (core sched : Nat) {s : State} (h : P s) :
    NextHolds P (execWarpAge core sched s) := by
  grind [Machine.execWarpAge, NextHolds, hP.modWarp, hP.withAgenda]

theorem Stays.syncBreak (hP : Stays P) (core gk slot : Nat) (m : Mask) (h : P s) :
    P (s.syncBreak core gk slot m) := by
  grind [State.syncBreak, hP.parkLanes]

theorem Stays.release (hP : Stays P) (core gk : Nat) (ts : List Nat) (h : P s) : P (s.release core gk ts) := by
  grind [State.release, hP.modGroup, hP.sync, hP.foldl]

theorem Stays.barriers (hP : Stays P) (core gk : Nat) (h : P s) : P (s.barriers core gk) := by
  grind [State.barriers, hP.release]

theorem Stays.ctxSettle (hP : Stays P) (x : Ctx) {s : State} (h : P s) : P (x.settle s) := by
  grind [Ctx.settle, hP.ctxModG, hP.barriers]

theorem Stays.ctxLeft (hP : Stays P) (x : Ctx) {s : State} (h : P s) : P (x.left s) := by
  grind [Ctx.left, hP.syncBreak, hP.ctxSettle]

theorem Stays.spawn (hP : Stays P) (core gk : Nat) (entry : Addr) (lvl : List Word) (rmode : BitVec 2) (init : Thread →
  Thread) (h : P s) :
    ∀ u, s.spawn core gk entry lvl rmode init = some u → P u := by
  intro t ht
  simp only [State.spawn, Option.bind_eq_some_iff, Option.map_eq_some_iff] at ht
  obtain ⟨g, -, u, -, rfl⟩ := ht
  exact hP.file _ _ _ _ (hP.modGroup _ _ _ h)

theorem Stays.ctxSpawnLane (hP : Stays P) (x : Ctx) (d b : BitVec 7) (entry : Addr) {s : State} (l : Nat) (h : P s) :
    P (x.spawnLane d b entry s l) := by
  refine hP.ctxLanesDo x _ _ ?_
  cases hr : s.spawn x.core x.g.gk entry (x.th l).lvl (x.th l).rmode _ with
  | none => exact h
  | some t => exact hP.spawn _ _ _ _ _ _ h t hr

theorem Stays.execSpawn (hP : Stays P) (d : BitVec 7) (a : BitVec 6) (b : BitVec 7) {s : State} (h : P s) :
    NextHolds P (execSpawn d a b s) := hP.runWord h fun _ hx => by grind [hP.ctxRaise, hP.ctxSpawnLane, hP.foldl]

theorem Stays.execReform (hP : Stays P) (h : P s) :
    NextHolds P (execReform s) := hP.runWord h fun _ hx => by grind [hP.ctxModW, hP.ctxRaise, hP.file, hP.ctxLeft,
      hP.foldl]

theorem Stays.execRcv (hP : Stays P) (h : P s) :
    NextHolds P (execRcv s) := hP.runWord h fun _ hx => hP.of_eq hx rfl

theorem Stays.ctxEndThreads (hP : Stays P) (x : Ctx) (hx : P x.s) : P (x.endThreads) := hP.of_eq hx rfl

theorem Stays.execExit (hP : Stays P) (h : P s) :
    NextHolds P (execExit s) := hP.runWord h fun _ hx => by grind [hP.ctxLeft, hP.ctxEndThreads]

theorem Stays.execBar (hP : Stays P) (k : BitVec 3) {s : State} (h : P s) :
    NextHolds P (execBar k s) := hP.runWord h fun _ hx => by grind [hP.ctxLanesDo, hP.ctxAdvance, hP.sync, hP.ctxPark,
      hP.ctxSettle]

theorem Stays.execBarrierArrival (hP : Stays P) (core gk : Nat) {s : State} (h : P s) :
    NextHolds P (execBarrierArrival core gk s) := by
  grind [Machine.execBarrierArrival, NextHolds, hP.modGroup]

theorem Stays.releaseAway (hP : Stays P) (g : Group) (k : Nat) (h : P s) :
    P (s.releaseAway g k) := hP.of_eq h rfl

theorem Stays.execBarrierComplete (hP : Stays P) (core gk : Nat) (k : BitVec 3) (thread : Nat) {s : State} (h : P s) :
    NextHolds P (execBarrierComplete core gk k thread s) := by
  grind [Machine.execBarrierComplete, NextHolds, hP.release, hP.releaseAway, hP.foldl]

theorem Stays.ctxSyncw (hP : Stays P) (x : Ctx) (m : Nat → Mask) (hx : P x.s) : P (x.syncw m) := by
  grind [Ctx.syncw, hP.ctxLanesDo, hP.sync, hP.ctxPark, hP.parkLanes, hP.ctxSettle]

theorem Stays.execSyncw (hP : Stays P) (a : BitVec 7) {s : State} (h : P s) :
    NextHolds P (execSyncw a s) := hP.runWord h fun _ hx => by grind [hP.ctxSyncw]

theorem Stays.execSyncwU (hP : Stays P) (a : BitVec 6) {s : State} (h : P s) :
    NextHolds P (execSyncwU a s) := hP.runWord h fun _ hx => by grind [hP.ctxSyncw]

/-! ### The bank of pages -/

theorem Stores.cleanPages (hP : Stores P) (core : Nat) (ps : List Nat) (h : P s) :
    P (s.cleanPages core ps) := by
  unfold State.cleanPages
  extract_lets
  split
  · exact h
  · exact hP.modCore _ _ (hP.setPoison _ (hP.keepMem _ h))

theorem Stores.give (hP : Stores P) (core gk : Nat) (req : Hold) (pages slots : List Nat) (h : P s) :
    P (s.give core gk req pages slots) := by
  grind [State.give, hP.modCore, hP.modGroup, hP.cleanPages]

theorem Stores.grantTo (hP : Stores P) (core gk : Nat) (req : Hold) (h : P s) : P (s.grantTo core gk req) := by
  grind [State.grantTo, hP.give]

theorem Stays.dropRegs (hP : Stays P) (core gk : Nat) (h : P s) : P (s.dropRegs core gk) := by
  grind [State.dropRegs, hP.modCore, looked, hP.of_eq]

theorem Stores.giveBack (hP : Stores P) (core : Nat) (g : Group) (rel : Hold) (h : P s) :
    P (s.giveBack core g rel) := by
  grind [State.giveBack, hP.modCore, hP.modGroup, hP.drainSpills, hP.dropRegs]

theorem Stays.granted (hP : Stays P) (core : Nat) (g : Group) (slot : Nat) (fence : Bool) (word : Nat) (h : P s) :
    P (s.granted core g slot fence word) := by
  grind [State.granted, hP.append, hP.sync]

theorem Stores.execAcqB (hP : Stores P) (a : BitVec 6) {s : State} (h : P s) :
    NextHolds P (execAcqB a s) := hP.runWord h fun _ hx => by grind [hP.modCore, hP.ctxDone, hP.ctxRaise, hP.ctxWaitAt,
      hP.grantTo, hP.granted]

theorem Stores.execAcqT (hP : Stores P) (d a : BitVec 6) {s : State} (h : P s) :
    NextHolds P (execAcqT d a s) := hP.runWord h fun _ hx => by grind [hP.ctxDoneW, hP.ctxRaise, hP.grantTo, hP.granted]

theorem Stores.execRel (hP : Stores P) (a : BitVec 6) {s : State} (h : P s) :
    NextHolds P (execRel a s) := hP.runWord h fun _ hx => by grind [hP.ctxDone, hP.recordOf, hP.ctxRaise, hP.giveBack]

theorem Stays.execQry (hP : Stays P) (d : BitVec 6) {s : State} (h : P s) :
    NextHolds P (execQry d s) := hP.runWord h fun _ hx => hP.of_eq hx rfl

theorem Stays.execHead (hP : Stays P) (core : Nat) {s : State} (h : P s) : NextHolds P (execHead core s) := by
  grind [Machine.execHead, NextHolds, hP.modCore]

theorem Stays.replayGranted (hP : Stays P) (g : Group) (h : P s) : P (s.replayGranted g) := by
  grind [State.replayGranted, looked, hP.of_eq]

theorem Stores.tryGrant (hP : Stores P) (core : Nat) (r : Req) (h : P s) : P (s.tryGrant core r) := by
  grind [State.tryGrant, hP.modCore, hP.modGroup, hP.grantTo, hP.granted, hP.replayGranted]

theorem Stores.execGrant (hP : Stores P) (core : Nat) {s : State} (h : P s) :
    NextHolds P (execGrant core s) := by
  grind [Machine.execGrant, NextHolds, hP.modCore, hP.tryGrant, hP.foldl]

theorem Stores.ctxPassPages (hP : Stores P) (x : Ctx) {s : State} (k : Nat) (h0 : Group) (h : P s) :
    P (x.passPages s k h0) := by
  grind [Ctx.passPages, hP.modGroup, hP.ctxModG, hP.drainSpills]

theorem Stores.execHandoff (hP : Stores P) (a b : BitVec 6) {s : State} (h : P s) :
    NextHolds P (execHandoff a b s) := hP.runWord h fun _ hx => by grind [hP.abandon, hP.ctxDone, hP.ctxRaise,
      hP.ctxPassPages]

theorem Stores.leave (hP : Stores P) (core gk : Nat) (ended : Bool) (h : P s) : P (s.leave core gk ended) := by
  grind [State.leave, hP.modCore, hP.drainSpills]

end Sys2Proof.Laws
end

section
/-! SUPPORT. The engines, the sequencers and the fences keep a claim (Engine, Matrix, Copy, Seq, Fence). -/

namespace Sys2Proof.Laws

open Sys2Proof.Machine

variable {P : State → Prop} {s : State}

/-! ### Queues and entries -/

theorem Stays.recordEntry (hP : Stays P) (core : Nat) (g : Group) (e : Entry) (h : P s) :
    P (s.recordEntry core g e) := by
  grind [State.recordEntry, hP.append, hP.modWarp, hP.foldl]

theorem Stays.enter (hP : Stays P) (core : Nat) (g : Group) (e : Entry) (h : P s) : P (s.enter core g e) := by
  grind [State.enter, hP.modCore, hP.bump, hP.recordEntry]

theorem Stays.replayFault (hP : Stays P) (r idx cause : Nat) (h : P s) : P (s.replayFault r idx cause) := by
  grind [State.replayFault, hP.escape]

theorem Stays.modReplay (hP : Stays P) (r : Nat) (f : Replay → Replay) (h : P s) :
    P (s.modReplay r f) := hP.of_eq h rfl

theorem Stays.answer (hP : Stays P) (core : Nat) (e : Entry) (fail : Option Nat) (h : P s) :
    P (s.answer core e fail) := by
  grind [State.answer, hP.modCore, hP.modWarp, hP.replayFault, hP.modReplay, hP.foldl]

theorem Stays.ended (hP : Stays P) (core : Nat) (e : Entry) (fail : Option Nat) (h : P s) :
    P (s.ended core e fail) := by
  unfold State.ended
  grind [hP.writeTok, hP.answer, hP.foldl]

theorem Stays.meldEnter (hP : Stays P) (core gk k : Nat) (h : P s) : P (s.meldEnter core gk k) := by
  grind [State.meldEnter, hP.modGroup, hP.enter, hP.ended]

theorem Stays.enterEach (hP : Stays P) (core gk : Nat) (kept todo : List Entry) (h : P s) :
    P (s.enterEach core gk kept todo) := by
  induction todo generalizing s core gk kept <;> grind [State.enterEach, hP.modGroup, hP.enter]

theorem Stays.enterSaved (hP : Stays P) (core : Nat) (h : P s) : P (s.enterSaved core) := by
  grind [State.enterSaved, hP.enterEach, hP.foldl]

theorem Stays.meldsEnter (hP : Stays P) (core : Nat) (h : P s) : P (s.meldsEnter core) := by
  grind [State.meldsEnter, hP.meldEnter, hP.foldl]

theorem Stays.fillQueues (hP : Stays P) (core : Nat) (h : P s) : P (s.fillQueues core) := by
  grind [State.fillQueues, hP.enterSaved, hP.meldsEnter]

theorem Stays.leaveQueue (hP : Stays P) (core : Nat) (e : Entry) (fail : Option Nat) (h : P s) :
    P (s.leaveQueue core e fail) := by
  grind [State.leaveQueue, hP.modCore, hP.ended, hP.fillQueues]

theorem Stays.complete (hP : Stays P) (core : Nat) (e : Entry) (fail : Option Nat) (h : P s) :
    P (s.complete core e fail) := by
  unfold State.complete
  grind [hP.replayFault, hP.leaveQueue]

theorem Stays.modEntry (hP : Stays P) (core eid : Nat) (f : Entry → Entry) (h : P s) :
    P (s.modEntry core eid f) := hP.of_eq h rfl

theorem Stays.faultRecord (hP : Stays P) (core ctx va : Nat) (h : P s) :
    P (s.faultRecord core ctx va) := hP.of_eq h rfl

theorem Stays.stopEntry (hP : Stays P) (core : Nat) (g : Group) (e : Entry) (va : Nat) (h : P s) :
    P (s.stopEntry core g e va) := by
  grind [State.stopEntry, hP.modEntry, hP.faultRecord]

theorem Stores.writeCells (hP : Stores P) (die : Nat) (cells : List (Xlat × Byte)) (h : P s) :
    P (s.writeCells die cells) := by
  grind [State.writeCells, hP.copyClearKeys, hP.writeAt, hP.foldl, hP.setPoison]

/-! ### The matrix engine and melds -/

theorem Stays.tileTouch (hP : Stays P) (sp : Space) (die : Nat) (t : TileOp) (h : P s) :
    P (s.tileTouch sp die t) := by
  grind [State.tileTouch, hP.touchParts, hP.foldl]

theorem Stays.engLdw (hP : Stays P) (core : Nat) (g : Group) (d : Desc) (h : P s) :
    EngAll P (s.engLdw core g d) := by
  grind [State.engLdw, EngAll, hP.modCore, hP.tileTouch, engAll_andThen]

theorem Stays.engMstr (hP : Stays P) (core : Nat) (g : Group) (a : Nat) (d : Desc) (cg init : Bool) (h : P s) :
    EngAll P (s.engMstr core g a d cg init) := by
  unfold State.engMstr
  extract_lets sp k
  split
  · trivial
  · refine engAll_andThen fun t => engAll_andThen fun _ => engAll_andThen fun _ => engAll_andThen fun _ =>
      engAll_andThen fun l => ?_
    extract_lets
    split
    · trivial
    · exact hP.modCore _ _ (hP.tileTouch _ _ _ h)

theorem Stores.engAccRd (hP : Stores P) (core : Nat) (g : Group) (a : Nat) (d : Desc) (h : P s) :
    EngAll P (s.engAccRd core g a d) := by
  grind [State.engAccRd, EngAll, hP.writeCells, engAll_andThen]

theorem Stays.engAccWr (hP : Stays P) (core : Nat) (g : Group) (a : Nat) (d : Desc) (h : P s) :
    EngAll P (s.engAccWr core g a d) := by
  grind [State.engAccWr, EngAll, hP.modCore, engAll_andThen]

theorem Stores.matrixEffect (hP : Stores P) (core : Nat) (g : Group) (o : Op) (h : P s) :
    EngAll P (s.matrixEffect core g o) := by
  grind [State.matrixEffect, EngAll, hP.modCore, hP.engLdw, hP.engMstr, hP.engAccRd, hP.engAccWr]

theorem Stores.runMatrix (hP : Stores P) (core : Nat) (g : Group) (e : Entry) (h : P s) :
    P (s.runMatrix core g e) := by
  unfold State.runMatrix
  split
  · next t ht => exact hP.complete _ _ _ ((hP.matrixEffect _ _ _ h).of_ok ht)
  · exact hP.complete _ _ _ h
  · exact hP.stopEntry _ _ _ _ h
  · exact h

theorem Stores.execMatrixOperation (hP : Stores P) (core : Nat) {s : State} (h : P s) :
    NextHolds P (execMatrixOperation core s) := by
  grind [Machine.execMatrixOperation, NextHolds, hP.runMatrix]

theorem Stays.ctxSign (hP : Stays P) (x : Ctx) (k : Nat) (op : Option Op) (tok : Option Nat) (hx : P x.s) :
    P (x.sign k op tok) := by
  grind [Ctx.sign, hP.ctxModG, hP.ctxDone, hP.ctxRaise, hP.pendTok, hP.meldEnter]

theorem Stays.ctxEngineOp (hP : Stays P) (x : Ctx) (i : Instr) (mk : MeldOp) (hx : P x.s) :
    P (x.engineOp i mk) := by
  unfold Ctx.engineOp
  grind [hP.ctxDone, hP.ctxStall, hP.ctxRaise, hP.pendTok, hP.enter, hP.ctxSign, hP.foldl]

theorem Stays.execMeldEntry (hP : Stays P) (core : Nat) {s : State} (h : P s) :
    NextHolds P (execMeldEntry core s) := .next (hP.meldsEnter _ h)

theorem Stays.execMeldDecl (hP : Stays P) (k : BitVec 3) (a : BitVec 6) {s : State} (h : P s) :
    NextHolds P (execMeldDecl k a s) := hP.runWord h fun _ hx => by grind [hP.ctxModG, hP.ctxDone, hP.ctxRaise]

theorem Stays.execMeldSign (hP : Stays P) (k : BitVec 3) (tok : Token) {s : State} (h : P s) :
    NextHolds P (execMeldSign k tok s) := hP.runWord h fun _ hx => by grind [hP.ctxSign]

theorem Stays.execMeldCancel (hP : Stays P) (k : BitVec 3) {s : State} (h : P s) :
    NextHolds P (execMeldCancel k s) := hP.runWord h fun _ hx => by grind [hP.ctxModG, hP.ctxDone, hP.writeTok,
      hP.foldl]

theorem Stays.execMeldQry (hP : Stays P) (d : BitVec 6) (k : BitVec 3) {s : State} (h : P s) :
    NextHolds P (execMeldQry d k s) := hP.runWord h fun _ hx => hP.of_eq hx rfl

theorem Stays.execLdw (hP : Stays P) (t : BitVec 5) (tok : Token) (mk : MeldOp) {s : State} (h : P s) :
    NextHolds P (execLdw t tok mk s) := hP.runWord h fun _ hx => by grind [hP.ctxEngineOp]

theorem Stays.execLdwSwap (hP : Stays P) (tok : Token) (mk : MeldOp) {s : State} (h : P s) :
    NextHolds P (execLdwSwap tok mk s) := hP.runWord h fun _ hx => by grind [hP.ctxEngineOp]

theorem Stays.execMstr (hP : Stays P) (c : BitVec 4) (t : BitVec 5) (cg init : Bool) (tok : Token) (mk : MeldOp) {s :
  State} (h : P s) :
    NextHolds P (execMstr c t cg init tok mk s) := hP.runWord h fun _ hx => by grind [hP.ctxEngineOp]

theorem Stays.execAccAcq (hP : Stays P) (c : BitVec 4) (mk : MeldOp) {s : State} (h : P s) :
    NextHolds P (execAccAcq c mk s) := hP.runWord h fun _ hx => by grind [hP.modCore, hP.ctxDone, hP.sync, hP.ctxRaise,
      hP.ctxWaitAt]

theorem Stays.execAccRel (hP : Stays P) (c : BitVec 4) (mk : MeldOp) {s : State} (h : P s) :
    NextHolds P (execAccRel c mk s) := hP.runWord h fun _ hx => by grind [hP.modCore, hP.ctxDone, hP.ctxRaise]

theorem Stays.execAccZ (hP : Stays P) (c : BitVec 4) (tok : Token) (mk : MeldOp) {s : State} (h : P s) :
    NextHolds P (execAccZ c tok mk s) := hP.runWord h fun _ hx => by grind [hP.ctxEngineOp]

theorem Stays.execAccRd (hP : Stays P) (c : BitVec 4) (t : BitVec 5) (tok : Token) (mk : MeldOp) {s : State} (h : P s) :
    NextHolds P (execAccRd c t tok mk s) := hP.runWord h fun _ hx => by grind [hP.ctxEngineOp]

theorem Stays.execAccWr (hP : Stays P) (c : BitVec 4) (t : BitVec 5) (tok : Token) (mk : MeldOp) {s : State} (h : P s) :
    NextHolds P (execAccWr c t tok mk s) := hP.runWord h fun _ hx => by grind [hP.ctxEngineOp]

theorem Stays.ctxSetTile (hP : Stays P) (x : Ctx) (t : BitVec 5) (d : Desc) (hx : P x.s) :
    P (x.setTile t d) := by
  grind [Ctx.setTile, hP.ctxDoneW, hP.ctxRaise]

theorem Stays.execTilePlane (hP : Stays P) (t : BitVec 5) (a p : BitVec 6) {s : State} (h : P s) :
    NextHolds P (execTilePlane t a p s) := hP.runWord h fun _ hx => by grind [hP.ctxRaise, hP.ctxSetTile]

theorem Stays.ctxShapeTouch (hP : Stays P) (x : Ctx) (h0 : Nat) (hx : P x.s) : P (x.shapeTouch h0).s := by
  grind [Ctx.shapeTouch, hP.touchSpan]

theorem Stays.execTileHnd (hP : Stays P) (t : BitVec 5) (a : BitVec 6) {s : State} (h : P s) :
    NextHolds P (execTileHnd t a s) := hP.runWord h fun _ hx => by grind [hP.ctxStall, hP.ctxRaise, hP.ctxSetTile,
      hP.ctxShapeTouch]

theorem Stays.execTileDim (hP : Stays P) (t : BitVec 5) (a : BitVec 6) {s : State} (h : P s) :
    NextHolds P (execTileDim t a s) := by
  refine hP.runWord h fun x hx => ?_
  extract_lets v d
  generalize x.dimCheck d = o
  split
  · exact hP.ctxRaise x _ hx
  · cases o with
    | some c => exact hP.ctxRaise x _ hx
    | none => exact hP.ctxSetTile x _ _ hx

theorem Stays.execTileAdv (hP : Stays P) (t : BitVec 5) (a : BitVec 6) {s : State} (h : P s) :
    NextHolds P (execTileAdv t a s) := hP.runWord h fun _ hx => by grind [hP.ctxRaise, hP.ctxSetTile]

/-! ### Copies -/

theorem Stores.chunkPut (hP : Stores P) (sp : Space) (die : Nat) (out : List (Nat × Byte)) (done : Nat) (last : Bool)
  (h : P s) :
    EngAll (ChunkHolds P) (s.chunkPut sp die out done last) := by
  grind [State.chunkPut, EngAll, ChunkHolds, hP.poisonHere, hP.writeCells, hP.foldl, engAll_andThen]

theorem Stays.copyTouch (hP : Stays P) (die : Nat) (ps : List (List (Xlat × Nat × Nat))) (h : P s) :
    P (s.copyTouch die ps) := by
  grind [State.copyTouch, hP.touchParts, hP.foldl]

theorem Stores.plainChunk (hP : Stores P) (sp : Space) (die : Nat) (fn : CopyFn) (a b : TileOp) (done : Nat) (h : P s) :
    EngAll (ChunkHolds P) (s.plainChunk sp die fn a b done) := by
  grind [State.plainChunk, EngAll, ChunkHolds, hP.chunkPut, hP.copyTouch, engAll_andThen]

theorem Stores.packChunk (hP : Stores P) (sp : Space) (die : Nat) (a b : TileOp) (blocks : List (Nat × Nat × Nat))
  (done : Nat) (h : P s) :
    EngAll (ChunkHolds P) (s.packChunk sp die a b blocks done) := by
  unfold State.packChunk
  grind [EngAll, ChunkHolds, hP.chunkPut, hP.copyTouch, engAll_andThen]

theorem Stores.chunk (hP : Stores P) (core : Nat) (g : Group) (e : Entry) (fn : CopyFn) (f : Probe) (h : P s) :
    EngAll (ChunkHolds P) (s.chunk core g e fn f) := by
  grind [State.chunk, hP.plainChunk, hP.packChunk]

theorem Stays.runProbe (hP : Stays P) (core : Nat) (g : Group) (e : Entry) (h : P s) :
    P (s.runProbe core g e) := by
  grind [State.runProbe, hP.complete, hP.modEntry, hP.stopEntry]

theorem Stores.runChunk (hP : Stores P) (core : Nat) (g : Group) (e : Entry) (f : Probe) (h : P s) :
    P (s.runChunk core g e f) := by
  have hc := fun {t} => (hP.chunk core g e e.copyFn f h).of_ok (v := t)
  unfold State.runChunk
  split
  · next ht => exact hP.complete _ _ _ (hc ht)
  · next ht => exact hP.modEntry _ _ _ (hc ht)
  · next ht => exact hP.complete _ _ _ (hc ht)
  · exact hP.complete _ _ _ h
  · exact hP.stopEntry _ _ _ _ h
  · exact h

theorem Stays.copyStep (_ : Stays P) (core q : Nat) {f : Group → Entry → State} (h : P s) (hf : ∀ g e, P (f g e)) :
    P (s.copyStep core q f) := by
  grind [State.copyStep]

theorem Stays.execCopyProbe (hP : Stays P) (core q : Nat) {s : State} (h : P s) :
    NextHolds P (execCopyProbe core q s) := by
  grind [Machine.execCopyProbe, NextHolds, hP.runProbe, hP.copyStep]

theorem Stores.execCopyChunk (hP : Stores P) (core q : Nat) {s : State} (h : P s) :
    NextHolds P (execCopyChunk core q s) := by
  grind [Machine.execCopyChunk, NextHolds, hP.runChunk, hP.copyStep]

theorem Stays.execAcpy (hP : Stays P) (fn : CopyFn) (q : BitVec 2) (d a : BitVec 5) (tok : Token) {s : State} (h : P s)
  :
    NextHolds P (execAcpy fn q d a tok s) := hP.runWord h fun _ hx => by grind [hP.ctxEngineOp]

/-! ### Sequencers -/

theorem Stays.modSeq (hP : Stays P) (core : Nat) (q : Seq) (f : Seq → Seq) (h : P s) :
    P (s.modSeq core q f) := hP.of_eq h rfl

theorem Stays.rdvResume (hP : Stays P) (core gk : Nat) (sel : Nat × Nat → Bool) (h : P s) :
    P (s.rdvResume core gk sel) := by
  grind [State.rdvResume, hP.release]

theorem Stays.rdvFree (hP : Stays P) (core gk : Nat) (h : P s) : P (s.rdvFree core gk) := by
  grind [State.rdvFree, hP.rdvResume]

theorem Stays.rdvPass (hP : Stays P) (core : Nat) (q : Seq) (n : Nat) (h : P s) : P (s.rdvPass core q n) := by
  unfold State.rdvPass
  split <;> grind [hP.modSeq, hP.rdvResume, hP.foldl]

theorem Stays.rendezvous (hP : Stays P) (core : Nat) (q : Seq) (fuel : Nat) (h : P s) :
    P (s.rendezvous core q fuel) := by
  induction fuel generalizing s core q <;> grind [State.rendezvous, hP.rdvPass]

theorem Stays.forkEnd (hP : Stays P) (core : Nat) (q : Seq) (h : P s) : P (s.forkEnd core q) := by
  grind [State.forkEnd, hP.modCore, hP.modWarp, hP.writeTok, hP.rdvFree]

theorem Stays.seqStop (hP : Stays P) (core : Nat) (q : Seq) (cause : Option Nat) (h : P s) :
    P (s.seqStop core q cause) := by
  grind [State.seqStop, hP.modSeq, hP.rdvResume, hP.forkEnd]

theorem Stays.seqEnter (hP : Stays P) (core : Nat) (g : Group) (slot : Nat) (w : Warp) (i : Instr) (origin : Origin)
  (threads : List Nat) (h : P s) :
    P (s.seqEnter core g slot w i origin threads) := by
  grind [State.seqEnter, hP.pendTok, hP.enter, hP.foldl]

theorem Stays.seqPerform (hP : Stays P) (core : Nat) (g : Group) (q : Seq) (w : Warp) (i : Instr) (reps : Nat) (last :
  Bool) (h : P s) :
    P (s.seqPerform core g q w i reps last) := by
  unfold State.seqPerform
  grind [hP.modWarp, hP.modSeq, hP.seqStop, hP.seqEnter]

theorem Stays.seqStep (hP : Stays P) (core : Nat) (q : Seq) (h : P s) : P (s.seqStep core q) := by
  unfold State.seqStep
  grind [hP.modSeq, hP.seqStop, hP.seqPerform]

theorem Stays.execSequencerEntry (hP : Stays P) (core : Nat) (copy : Bool) {s : State} (h : P s) :
    NextHolds P (execSequencerEntry core copy s) := by
  grind [Machine.execSequencerEntry, NextHolds, hP.rendezvous, hP.seqStep]

theorem Stays.ctxFork (hP : Stays P) (x : Ctx) (w : BitVec 6) (tok : Token) (progs : List (Bool × Nat)) (hx : P x.s) :
    P (x.fork w tok progs) := by
  unfold Ctx.fork
  grind [hP.modCore, hP.bump, hP.ctxDone, hP.ctxStall, hP.ctxRaise, hP.pendTok]

theorem Stays.execForkMx (hP : Stays P) (w a : BitVec 6) (tok : Token) {s : State} (h : P s) :
    NextHolds P (execForkMx w a tok s) := hP.runWord h fun _ hx => by grind [hP.ctxFork]

theorem Stays.execForkCp (hP : Stays P) (w a : BitVec 6) (tok : Token) {s : State} (h : P s) :
    NextHolds P (execForkCp w a tok s) := hP.runWord h fun _ hx => by grind [hP.ctxFork]

theorem Stays.execForkBoth (hP : Stays P) (w a : BitVec 6) (tok : Token) {s : State} (h : P s) :
    NextHolds P (execForkBoth w a tok s) := hP.runWord h fun _ hx => by grind [hP.ctxFork]

theorem Stays.execRdv (hP : Stays P) (n : BitVec 3) {s : State} (h : P s) :
    NextHolds P (execRdv n s) := hP.runWord h fun _ hx => by grind [hP.bump, hP.ctxDone, hP.sync, hP.ctxWaitAt,
      hP.rendezvous, hP.foldl]

theorem Stays.ctxTqEnter (hP : Stays P) (x : Ctx) (i : Instr) (n : Nat) {a3 : State} (ha3 : P a3) :
    P (x.tqEnter i n a3).1 := by
  induction n generalizing i a3 <;> grind [Ctx.tqEnter, hP.seqEnter]

theorem Stays.ctxTqOp (hP : Stays P) (x : Ctx) (i : Instr) (reps : Nat) (hx : P x.s) : P (x.tqOp i reps) := by
  grind [Ctx.tqOp, hP.ctxModW, hP.ctxDone, hP.ctxStall, hP.ctxStallTok, hP.ctxTqEnter]

theorem Stays.ctxTqAgain (hP : Stays P) (x : Ctx) (i : Instr) (reps : Nat) (hx : P x.s) :
    P (x.tqAgain i reps) := by
  grind [Ctx.tqAgain, hP.ctxRaiseTok, hP.ctxTqOp]

theorem Stays.execTq (hP : Stays P) (a : BitVec 6) {s : State} (h : P s) : NextHolds P (execTq a s) := by
  refine hP.runWord h fun x hx => ?_
  extract_lets e
  split
  · exact hP.ctxRaise x _ hx
  · next i reps _ _ =>
    extract_lets going
    have hg := hP.gate i x hx
    split
    · exact hP.ctxRaise x _ hx
    · split
      · next u hu => rw [hu] at hg; exact hg
      · grind [hP.ctxMarked, hP.ctxDoneW, hP.ctxRaise]
    · grind [GateHolds, hP.ctxRaise, hP.ctxTqOp, hP.ctxTqAgain]

/-! ### Fences -/

theorem Stays.execFencM (hP : Stays P) (h : P s) :
    NextHolds P (execFencM s) := hP.runWord h fun _ hx => hP.of_eq hx rfl

theorem Stays.ctxFencQ (hP : Stays P) (x : Ctx) (i : Instr) (q : BitVec 6) (hx : P x.s) : P (x.fencQ i q) := by
  grind [Ctx.fencQ, hP.ctxDone, hP.sync, hP.ctxWaitAt]

theorem Stays.execFencQImm (hP : Stays P) (q : BitVec 6) {s : State} (h : P s) :
    NextHolds P (execFencQImm q s) := hP.runWord h fun _ hx => by grind [hP.ctxFencQ]

theorem Stays.execFencQReg (hP : Stays P) (a : BitVec 6) {s : State} (h : P s) :
    NextHolds P (execFencQReg a s) := hP.runWord h fun _ hx => by grind [hP.ctxRaise, hP.ctxFencQ]

theorem Stays.cleanLines (hP : Stays P) (lines : List Nat) (h : P s) :
    P (s.cleanLines lines).1 := hP.of_eq h rfl

theorem Stores.dropLines (hP : Stores P) (lines : List Nat) (h : P s) : P (s.dropLines lines) := by
  grind [State.dropLines, hP.homePut, hP.land, hP.cleanLines, hP.withEdge]

theorem Stores.startClean (hP : Stores P) (cl inv : List Nat) (id : Nat) (h : P s) :
    P (s.startClean cl inv id).1 := by
  grind [State.startClean, hP.cleanLines, hP.dropLines, hP.setCleans]

theorem Stays.ctxFenceDone (hP : Stays P) (x : Ctx) {s : State} (list : Nat) (h : P s) :
    P (x.fenceDone s list) := by
  grind [Ctx.fenceDone, hP.sync, hP.recordOf]

theorem Stays.ctxListKept (hP : Stays P) (x : Ctx) (addr : Nat) (hx : P x.s) : P (x.listKept addr).s := by
  grind [Ctx.listKept, hP.touchSpan]

theorem Stores.execFencR (hP : Stores P) (a : BitVec 6) {s : State} (h : P s) :
    NextHolds P (execFencR a s) := by
  refine hP.runWord h fun x hx => ?_
  extract_lets addr y
  have hy : P y.s := hP.ctxListKept x addr hx
  split
  · exact hP.ctxRaise x _ hx
  split
  · exact hP.ctxStall x _ hx
  · exact hP.ctxRaise x _ hx
  · exact hP.ctxRaise y _ hy
  split
  · exact hP.ctxStall x _ hx
  · exact hP.ctxRaise x _ hx
  · next cl inv _ =>
    split
    next t waits he =>
    have ht := holds_of_fst (hP.startClean cl inv _ (hP.bump hy)) he
    split
    · exact hP.ctxWaitAt _ _ _ ht
    · exact hP.ctxFenceDone _ _ (hP.ctxDone _ _ ht)

theorem Stays.fencesResume (hP : Stays P) (core id : Nat) (h : P s) : P (s.fencesResume core id) := by
  grind [State.fencesResume, hP.modGroup, hP.ctxFenceDone, hP.foldl]

theorem Stores.execCleanAcknowledgement (hP : Stores P) (h : P s) :
    NextHolds P (execCleanAcknowledgement s) := by
  grind [Machine.execCleanAcknowledgement, NextHolds, hP.homePut, hP.dropLines, hP.fencesResume, hP.foldl, hP.setCleans]

theorem Stays.execFencRcommit (hP : Stays P) (a b : BitVec 6) {s : State} (h : P s) :
    NextHolds P (execFencRcommit a b s) := hP.runWord h fun _ hx => by grind [hP.abandon, hP.emit, hP.ctxDone,
      hP.ctxRaise, hP.pendTok, hP.withCommits]

end Sys2Proof.Laws
end

section
/-! SUPPORT. The Talon, tasks, replays and images keep a claim (Talon, Task, Replay, Save, Image, Admit). -/

namespace Sys2Proof.Laws

open Sys2Proof.Machine

variable {P : State → Prop} {s : State}

/-! ### The directory of tapes -/

theorem Stores.armTape (hP : Stores P) (g n base cap blk : Nat) (h : P s) :
    P (s.armTape g n base cap blk).1 := by
  grind [State.armTape, hP.putNum, hP.setEntry, hP.foldl]

theorem Stores.offTape (hP : Stores P) (g n : Nat) (h : P s) : P (s.offTape g n).1 := by
  grind [State.offTape, hP.setDir]

theorem Stores.tapeDo (hP : Stores P) (g n : Nat) (k : TapeKind) (h : P s) : P (s.tapeDo g n k).1 := by
  unfold State.tapeDo
  grind [hP.armTape, hP.offTape]

theorem Stays.tapeAnswer (hP : Stays P) (o : TapeOp) (vs : List Nat) (h : P s) : P (s.tapeAnswer o vs) := by
  grind [State.tapeAnswer, hP.modWarp]

theorem Stays.tapeFails (hP : Stays P) (o : TapeOp) (h : P s) : P (s.tapeFails o) := by
  grind [State.tapeFails, hP.writeTok, hP.foldl]

theorem Stores.tapeNext (hP : Stores P) (g : Nat) (h : P s) : P (s.tapeNext g) := by
  grind [State.tapeNext, hP.tapeDo, hP.tapeAnswer, hP.tapeFails, looked, hP.of_eq]

theorem Stores.tapeDrain (hP : Stores P) (g : Nat) (h : P s) : P (s.tapeDrain g) := by
  grind [State.tapeDrain, hP.tapeNext, hP.foldl]

theorem Stores.directory (hP : Stores P) (g n : Nat) (k : TapeKind) (h : P s) : P (s.directory g n k) := by
  grind [State.directory, hP.tapeDo, hP.tapeNext]

theorem Stores.execArm (hP : Stores P) (grove tape base cap : Nat) (blk : BitVec 256) {s : State} (h : P s) :
    NextHolds P (execArm grove tape base cap blk s) := by
  grind [Machine.execArm, NextHolds, hP.directory]

theorem Stores.execOff (hP : Stores P) (grove tape : Nat) {s : State} (h : P s) :
    NextHolds P (execOff grove tape s) := by
  grind [Machine.execOff, NextHolds, hP.directory]

theorem Stores.execQuery (hP : Stores P) (grove tape : Nat) {s : State} (h : P s) :
    NextHolds P (execQuery grove tape s) := by
  grind [Machine.execQuery, NextHolds, hP.directory]

theorem Stays.ctxSendTape (hP : Stays P) (x : Ctx) (n d regs : Nat) (k : TapeKind) (hx : P x.s) :
    P (x.sendTape n d regs k) := by
  grind [Ctx.sendTape, hP.abandon, hP.ctxDoneW, hP.withTapeOps]

theorem Stays.execTapeArm (hP : Stays P) (d a b : BitVec 6) {s : State} (h : P s) :
    NextHolds P (execTapeArm d a b s) := hP.runWord h fun _ hx => by grind [hP.ctxStall, hP.ctxRaise, hP.touchSpan,
      hP.ctxSendTape]

theorem Stays.execTapeOff (hP : Stays P) (d b : BitVec 6) {s : State} (h : P s) :
    NextHolds P (execTapeOff d b s) := hP.runWord h fun _ hx => by grind [hP.ctxRaise, hP.ctxSendTape]

theorem Stays.execTapeQry (hP : Stays P) (d b : BitVec 6) {s : State} (h : P s) :
    NextHolds P (execTapeQry d b s) := hP.runWord h fun _ hx => by grind [hP.ctxRaise, hP.ctxSendTape]

theorem Stores.launch (hP : Stores P) {s0 : State} (g ctx members : Nat) (lead : BitVec 1024) (hs0 : P s0) :
    P (s0.launch g ctx members lead).1 := by
  unfold State.launch
  extract_lets s n d
  have hs : P s := hP.tapeDrain g hs0
  split
  · exact hs
  · split
    · split
      · exact hP.setDir _ _ _ hs
      · exact hs
    · split
      · exact hs
      · dsimp only
        split
        · exact hP.setDir _ _ _ hs
        · exact hs
  · exact hs
  · exact hs

theorem Stores.recordStart (hP : Stores P) (g ctx members gang task : Nat) (lead : BitVec 1024) (h : P s) :
    P (s.recordStart g ctx members gang task lead) := by
  unfold State.recordStart
  grind [hP.putNum, hP.setEntry, hP.setDir, hP.foldl, hP.setRecorders]

theorem Stores.recordEnd (hP : Stores P) (ctx task : Nat) (h : P s) : P (s.recordEnd ctx task) := by
  grind [State.recordEnd, hP.putNum, hP.setDir, hP.setRecorders]

/-! ### Pushes, jobs and tasks -/

theorem Stays.emitOnce (hP : Stays P) (e : Event) (h : P s) : P (s.emitOnce e) := by
  grind [State.emitOnce, hP.emit]

theorem Stores.consume (hP : Stores P) (q : Nat) (h : P s) : P (s.consume q) := by
  grind [State.consume, hP.putNum]

theorem Stores.push (hP : Stores P) (q : Nat) (record : List Byte) (h : P s) :
    ∀ u, s.push q record = some u → P u := by
  intro u hu
  unfold State.push at hu
  extract_lets d tail k first at hu
  split at hu
  · cases hu
  · obtain rfl := Option.some.inj hu
    exact hP.putNum _ _ _ (hP.put _ _ (hP.putNum _ _ _ h))

theorem Stores.jobAdd (hP : Stores P) (sp : Space) (die jtab j : Nat) (up : Bool) (h : P s) :
    AccHolds P (s.jobAdd sp die jtab j up) := by
  have ha := fun f => hP.atomBytes sp die ((jtab + 8 * j) % 2 ^ 64) 4 f h
  unfold State.jobAdd
  extract_lets step
  split
  · next he => exact (ha _).of_ok he
  · next he => exact (ha _).of_bad he
  · trivial

theorem Stores.jobDone (hP : Stores P) (sp : Space) (die jtab j : Nat) (h : P s) :
    AccHolds P (s.jobDone sp die jtab j) := by
  have ha := hP.jobAdd sp die jtab j false h
  unfold State.jobDone
  split
  · next he =>
    have ht := ha.of_ok he
    split
    · exact ht
    · split
      · split
        · exact hP.emit _ ht
        · exact ht
      · exact ht
      · exact ht
  · next he => exact ha.of_bad he
  · trivial

theorem Stores.schedDone (hP : Stores P) (ctx j : Nat) (h : P s) : AccHolds P (s.schedDone ctx j) := by
  grind [State.schedDone, hP.jobDone]

theorem Stores.pushDone (hP : Stores P) (p : Push) (h : P s) : AccHolds P (s.pushDone p) := by
  grind [State.pushDone, hP.jobDone]

theorem Stores.pushLocal (hP : Stores P) (sp : Space) (die jtab j q : Nat) (record : List Byte) (h : P s) :
    P (s.pushLocal sp die jtab j q record).1 := by
  have hp := hP.push q record h
  have hd := hP.jobDone sp die jtab j h
  suffices hr : ∀ r, s.pushLocal sp die jtab j q record = r → P r.1 from hr _ rfl
  intro r hr
  -- The kernel would evaluate the push to compare it with the match on it, so its definition is taken as a function.
  generalize hf : State.pushLocal = f at hr
  delta State.pushLocal at hf
  rw [← hf] at hr
  beta_reduce at hr
  generalize s.push q record = o at hp hr
  generalize s.jobDone sp die jtab j = a at hd hr
  cases o with
  | some t => cases hr; exact hp t rfl
  | none =>
    cases a with
    | ok t _ | bad t _ => cases hr; exact hd
    | wait => cases hr; exact h

theorem Stores.ctxSendPush (hP : Stores P) (x : Ctx) {s : State} (d : BitVec 7) (l ea w : Nat) (r : BitVec 1024) (h : P
  s) :
    LaneHolds P (x.sendPush s d l ea w r) := by
  unfold Ctx.sendPush
  extract_lets e reg p
  split
  · exact hP.accLane (hP.pushDone p h) fun t _ ht => ht
  split
  · trivial
  · exact hP.withPushes (hP.useLink _ h) _

theorem Stores.ctxEnqLane (hP : Stores P) (x : Ctx) (d a b : BitVec 7) {s : State} (l : Nat) (h : P s) :
    LaneHolds P (x.enqLane d a b s l) := by
  -- The kernel would evaluate the push to compare matches on it, so the push is taken as some function that keeps `P`.
  obtain ⟨push, hpush⟩ : ∃ f, f = State.pushLocal := ⟨_, rfl⟩
  have hp : ∀ {u} sp die jtab j q bs, P u → P (push u sp die jtab j q bs).1 := by subst hpush; exact hP.pushLocal
  unfold Ctx.enqLane
  rw [← hpush]
  grind [LaneHolds, hP.touchSpan, hP.accLane, hP.resLane, hP.jobAdd, hP.ctxSendPush]

theorem Stores.execEnq (hP : Stores P) (d a b : BitVec 7) {s : State} (h : P s) :
    NextHolds P (execEnq d a b s) := hP.runWord h fun _ hx => by grind [hP.ctxPerLane, hP.ctxEnqLane]

theorem Stays.replayAck (hP : Stays P) (g : Group) (accepted : Bool) (h : P s) :
    P (s.replayAck g accepted) := by
  grind [State.replayAck, hP.replayFault, hP.modReplay]

theorem Stays.pushFill (hP : Stays P) (p : Push) (h : P s) : P (s.pushFill p) := by
  grind [State.pushFill, hP.pipeFill]

theorem Stays.pushResult (hP : Stays P) (p : Push) (accepted : Bool) (h : P s) :
    P (s.pushResult p accepted) := by
  grind [State.pushResult, hP.modGroup, hP.recordOf, hP.replayAck, hP.pushFill]

theorem Stores.pushAck (hP : Stores P) (p : Push) (accepted : Bool) (h : P s) : P (s.pushAck p accepted) := by
  unfold State.pushAck
  split
  · next he => exact hP.pushResult _ _ ((hP.pushDone p (hP.withPushes h _)).of_ok he)
  · exact hP.withPushes h _
  · exact hP.withPushes h _

theorem Stores.answeredPushes (hP : Stores P) (h : P s) : P (s.answeredPushes) := by
  grind [State.answeredPushes, hP.pushAck, hP.foldl]

theorem Stores.execPushAcknowledgement (hP : Stores P) (accepted : Bool) {s : State} (h : P s) :
    NextHolds P (execPushAcknowledgement accepted s) := by
  grind [Machine.execPushAcknowledgement, NextHolds, hP.pushAck]

theorem Stores.refuse (hP : Stores P) (q head ctx : Nat) (r : BitVec 1024) (h : P s) :
    P (s.refuse q head ctx r) := by
  have hd := hP.schedDone ctx (Rec.job r) h
  unfold State.refuse
  split
  · next he => exact hP.emit _ (hP.consume _ (hd.of_ok he))
  · next he => exact hP.emitOnce _ (hd.of_bad he)
  · exact h

theorem Stores.checkRecord (hP : Stores P) (q : Nat) (h : P s) : P (s.checkRecord q) := by
  grind [State.checkRecord, hP.bump, hP.emitOnce, hP.refuse, hP.withTasks]

theorem Stores.execRecordCheck (hP : Stores P) (q : Nat) {s : State} (h : P s) :
    NextHolds P (execRecordCheck q s) := by
  grind [Machine.execRecordCheck, NextHolds, hP.checkRecord]

theorem Stays.taskLess (hP : Stays P) (key : Option Nat) (n : Nat) (h : P s) :
    P (s.taskLess key n) := hP.of_eq h rfl

theorem Stores.dropUser (hP : Stores P) (r : Replay) (h : P s) : P (s.dropUser r) := by
  grind [State.dropUser, hP.setDir]

theorem Stores.replayEnd (hP : Stores P) (key : Nat) (h : P s) : P (s.replayEnd key) := by
  grind [State.replayEnd, hP.leave, hP.taskLess, hP.dropUser, hP.foldl, hP.withReplays]

theorem Stores.execGroupEnd (hP : Stores P) (core gk : Nat) {s : State} (h : P s) :
    NextHolds P (execGroupEnd core gk s) := by
  grind [Machine.execGroupEnd, NextHolds, hP.emit, hP.leave, hP.taskLess, hP.replayEnd]

theorem Stays.edgeFail (hP : Stays P) (t : Task) (cause : Word) (h : P s) : P (s.edgeFail t cause) := by
  grind [State.edgeFail, hP.emitOnce]

theorem Stays.modTask (hP : Stays P) (key : Nat) (f : Task → Task) (h : P s) :
    P (s.modTask key f) := hP.of_eq h rfl

theorem Stays.dropTask (hP : Stays P) (key : Nat) (h : P s) : P (s.dropTask key) := hP.of_eq h rfl

theorem Stores.countTask (hP : Stores P) (t : Task) (h : P s) : P (s.countTask t) := by
  have hd := hP.schedDone t.ctx (Rec.job t.lead) h
  unfold State.countTask
  split
  · next he =>
    have hu := hP.emit (.complete t.q t.index (Rec.job t.lead)) (hd.of_ok he)
    dsimp only
    split
    · exact hP.dropTask _ hu
    · exact hP.modTask _ _ hu
  · next he => exact hP.emitOnce _ (hd.of_bad he)
  · exact h

theorem Stores.signalDown (hP : Stores P) (t : Task) (h : P s) : P (s.signalDown t) := by
  unfold State.signalDown
  extract_lets
  split
  · split
    · next ha => exact hP.dropTask _ ((hP.atomBytes _ _ _ _ _ h).of_ok ha)
    · next ha => exact hP.emitOnce _ ((hP.atomBytes _ _ _ _ _ h).of_bad ha)
    · exact h
  · exact hP.emitOnce _ h
  · exact hP.emitOnce _ h
  · exact h

theorem Stores.edgeInv (hP : Stores P) (t : Task) (h : P s) : P (s.edgeInv t) := by
  grind [State.edgeInv, hP.dropLines, hP.edgeFail, hP.signalDown]

theorem Stores.edgeClean (hP : Stores P) (t : Task) (h : P s) : P (s.edgeClean t) := by
  grind [State.edgeClean, hP.bump, hP.startClean, hP.edgeFail, hP.modTask, hP.countTask]

theorem Stores.completeTask (hP : Stores P) (t : Task) (h : P s) : P (s.completeTask t) := by
  grind [State.completeTask, hP.recordEnd, hP.countTask, hP.edgeInv, hP.edgeClean]

theorem Stores.execTaskCompletion (hP : Stores P) (task : Nat) {s : State} (h : P s) :
    NextHolds P (execTaskCompletion task s) := by
  grind [Machine.execTaskCompletion, NextHolds, hP.completeTask]

/-! ### Replays -/

theorem Stays.accCmd (_ : Stays P) {α : Type} (va : Nat) {a : Acc α} {s : State} {k : State → α → CmdRes} (ha :
  AccHolds P a) (h : P s) (hk : ∀ s a, P s → CmdHolds P (k s a)) :
    CmdHolds P (Acc.cmd va a s k) := by
  cases a with
  | ok s v => exact hk s v ha
  | bad t c =>
    change CmdHolds P (if c = Cause.page then .page va else .bad t c)
    split
    · trivial
    · exact ha
  | wait => exact h

theorem Stores.cmdTake (hP : Stores P) (r : Replay) (c : TapeCmd) {x : CmdRes} (h : P s) (hx : CmdHolds P x) :
    P (s.cmdTake r c x) := by
  cases x with
  | done t => exact hP.replayEnd _ (hP.modReplay _ _ hx)
  | hold t => exact hP.modReplay _ _ hx
  | bad t c => exact hP.replayFault _ _ _ hx
  | page va =>
    unfold State.cmdTake
    dsimp only
    split
    · exact h
    · exact hP.modReplay _ _ (hP.faultRecord _ _ _ h)

theorem Stores.replayStep (hP : Stores P) (key kind : Nat) {f : Replay → TapeCmd → Group → CmdRes} (h : P s) (hf : ∀ r
  c g, CmdHolds P (f r c g)) :
    P (s.replayStep key kind f) := by
  grind [State.replayStep, hP.replayFault, hP.cmdTake]

theorem Stays.engPerform (hP : Stays P) (r : Replay) (c : TapeCmd) (g : Group) (h : P s) :
    CmdHolds P (s.engPerform r c g) := by
  grind [State.engPerform, CmdHolds, hP.enter, hP.modReplay]

theorem Stores.execEngCommand (hP : Stores P) (replay : Nat) {s : State} (h : P s) :
    NextHolds P (execEngCommand replay s) := by
  grind [Machine.execEngCommand, NextHolds, hP.replayStep, hP.engPerform]

theorem Stores.memPerform (hP : Stores P) (r : Replay) (c : TapeCmd) (g : Group) (h : P s) :
    CmdHolds P (s.memPerform r c g) := by
  grind [State.memPerform, CmdHolds, hP.storeBytes, hP.atomBytes, hP.futTry, hP.accCmd]

theorem Stores.execMemCommand (hP : Stores P) (replay : Nat) {s : State} (h : P s) :
    NextHolds P (execMemCommand replay s) := by
  grind [Machine.execMemCommand, NextHolds, hP.replayStep, hP.memPerform]

theorem Stores.enqPerform (hP : Stores P) (r : Replay) (c : TapeCmd) (g : Group) (h : P s) :
    CmdHolds P (s.enqPerform r c g) := by
  unfold State.enqPerform
  extract_lets die w q
  split
  · exact h
  split
  · exact h
  split
  · exact h
  · split
    · trivial
    · exact h
  split
  · exact h
  split
  · exact h
  refine hP.accCmd _ (hP.jobAdd _ _ _ _ _ h) h fun t _ ht => ?_
  split
  · extract_lets push
    split
    · split
      · next hu => exact (hP.pushDone _ ht).of_ok hu
      · exact h
      · exact h
    split
    · exact h
    · exact hP.modReplay _ _ (hP.withPushes (hP.useLink _ ht) _)
  · split
    next he =>
    have hu := holds_of_fst (hP.pushLocal _ _ _ _ _ _ ht) he
    split <;> exact hu

theorem Stores.execEnqCommand (hP : Stores P) (replay : Nat) {s : State} (h : P s) :
    NextHolds P (execEnqCommand replay s) := by
  grind [Machine.execEnqCommand, NextHolds, hP.replayStep, hP.enqPerform]

theorem Stays.groupCtx (hP : Stays P) (core : Nat) (g : Group) (h : P s) :
    P (s.groupCtx core g).s := hP.of_eq h rfl

theorem Stores.bankPerform (hP : Stores P) (r : Replay) (c : TapeCmd) (g : Group) (h : P s) :
    CmdHolds P (s.bankPerform r c g) := by
  grind [State.bankPerform, CmdHolds, hP.modCore, hP.grantTo, hP.giveBack, hP.modReplay]

theorem Stores.execBankCommand (hP : Stores P) (replay : Nat) {s : State} (h : P s) :
    NextHolds P (execBankCommand replay s) := by
  grind [Machine.execBankCommand, NextHolds, hP.replayStep, hP.bankPerform]

theorem Stores.rfencePerform (hP : Stores P) (r : Replay) (c : TapeCmd) (g : Group) (h : P s) :
    CmdHolds P (s.rfencePerform r c g) := by
  unfold State.rfencePerform
  split <;> grind [CmdHolds, hP.bump, hP.modReplay, hP.startClean]

theorem Stores.execRfenceCommand (hP : Stores P) (replay : Nat) {s : State} (h : P s) :
    NextHolds P (execRfenceCommand replay s) := by
  grind [Machine.execRfenceCommand, NextHolds, hP.replayStep, hP.rfencePerform]

/-! ### Saved areas -/

theorem Stores.putArea (hP : Stores P) (n off : Nat) (a : Area) (h : P s) : P (s.putArea n off a) := by
  grind [State.putArea, hP.poisonUnit, hP.put, hP.foldl]

theorem Stores.writeImage (hP : Stores P) (n : Nat) (areas : List Area) (header : List Byte) (h : P s) :
    P (s.writeImage n areas header) := by
  grind [State.writeImage, hP.put, hP.putArea, hP.foldl]

/-! ### Pre-emption, images and their return -/

theorem Stays.stopWhere (hP : Stays P) (core : Nat) (sel : Group → Bool) (h : P s) :
    P (s.stopWhere core sel) := by
  grind [State.stopWhere, hP.escape, hP.foldl]

theorem Stays.preemptScope (hP : Stays P) (sc : Scope) (h : P s) : P (s.preemptScope sc) := by
  grind [State.preemptScope, hP.stopWhere, hP.foldl, hP.withPreempt]

theorem Moves.modDie (hP : Moves P) (d : Nat) (f : Die → Die) (h : P s) : P (s.modDie d f) := by
  grind [State.modDie, hP.setDies]

theorem Moves.sleepDie (hP : Moves P) (d : Nat) (h : P s) : P (s.sleepDie d) := by
  grind [State.sleepDie, hP.modDie]

theorem Moves.wakeDie (hP : Moves P) (d : Nat) (h : P s) : P (s.wakeDie d) := by
  grind [State.wakeDie, hP.modDie]

theorem Moves.followPower (hP : Moves P) (d : Nat) (h : P s) : P (s.followPower d) := by
  grind [State.followPower, hP.preemptScope, hP.sleepDie, hP.wakeDie, hP.foldl]

theorem Moves.applyPower (hP : Moves P) (d : Nat) (p : PState) (h : P s) : P (s.applyPower d p) := by
  grind [State.applyPower, hP.modDie, hP.followPower]

theorem Moves.takeRequest (hP : Moves P) (r : Request) (h : P s) : P (s.takeRequest r) := by
  unfold State.takeRequest
  grind [hP.preemptScope, hP.followPower, hP.applyPower, hP.withMp1Open]

theorem Moves.takeRequests (hP : Moves P) (n : Nat) (h : P s) : P (s.takeRequests n) := by
  induction n generalizing s <;> grind [State.takeRequests, hP.takeRequest, hP.withMp3]

theorem Moves.request (hP : Moves P) (r : Request) (h : P s) : P (s.request r) := by
  grind [State.request, hP.takeRequests, looked, hP.of_eq]

theorem Moves.settle (hP : Moves P) (h : P s) : P (s.settle) := by
  grind [State.settle, hP.sleepDie, hP.takeRequests, hP.foldl]

theorem Moves.execPreemption (hP : Moves P) (sc : Scope) {s : State} (h : P s) :
    NextHolds P (execPreemption sc s) := .next (hP.request _ h)

theorem Moves.execQuiesce (hP : Moves P) (h : P s) : NextHolds P (execQuiesce s) := .next (hP.request _ h)

theorem Moves.execQuiesceEnd (hP : Moves P) (h : P s) : NextHolds P (execQuiesceEnd s) := .next (hP.request _ h)

theorem Moves.execPowerState (hP : Moves P) (die : Nat) (p : PState) {s : State} (h : P s) :
    NextHolds P (execPowerState die p s) := .next (hP.request _ h)

theorem Moves.execAcknowledgement (hP : Moves P) (core : Nat) {s : State} (h : P s) :
    NextHolds P (execAcknowledgement core s) := by
  grind [Machine.execAcknowledgement, NextHolds, hP.emit, hP.settle, hP.withPreempt]

theorem Stays.endFailed (hP : Stays P) (core gang : Nat) (h : P s) : P (s.endFailed core gang) := by
  grind [State.endFailed, hP.seqStop, hP.foldl]

theorem Stores.departGang (hP : Stores P) (core n : Nat) (gs : List Group) (h : P s) :
    P (s.departGang core n gs) := by
  grind [State.departGang, hP.modCore, hP.leave, hP.fillQueues, hP.foldl, hP.withCommits]

theorem Stores.swapInto (hP : Stores P) (core gang n : Nat) (gs : List Group) (st : Stop) (r : Option Replay) (h : P s)
  :
    P (s.swapInto core gang n gs st r) := by
  unfold State.swapInto
  grind [hP.emit, hP.dropUser, hP.writeImage, hP.departGang, hP.withReplays, hP.withImages]

theorem Stores.execSwapOut (hP : Stores P) (core gang : Nat) {s : State} (h : P s) :
    NextHolds P (execSwapOut core gang s) := by
  unfold Machine.execSwapOut
  split
  · exact .next h
  extract_lets r s1 s2 gks s3 free
  have h1 : P s1 := hP.tapeDrain _ h
  have h3 : P s3 := hP.drainSpills _ _ (hP.endFailed _ _ (hP.abandon _ _ h1))
  split
  · split
    · exact .next h3
    · exact .next (hP.swapInto _ _ _ _ _ _ h3)
  · exact .next h1

theorem Stores.imgContents (hP : Stores P) (n core : Nat) (as : List ImgArea) (m gk : Nat) (replay : Bool) (pages :
  List Nat) (h : P s) :
    P (s.imgContents n core as m gk replay pages) := by
  grind [State.imgContents, hP.poisonUnit, hP.put, hP.modCore, hP.foldl]

theorem Stores.enterMember (hP : Stores P) (n core h0 : Nat) (as : List ImgArea) (m gk gang : Nat) (lead : BitVec 1024)
  (wids : List Nat) (task rkey : Option Nat) (kept : Option SavedMember) (h : P s) :
    P (s.enterMember n core h0 as m gk gang lead wids task rkey kept) := by
  grind [State.enterMember, hP.modCore, hP.modGroup, hP.give]

theorem Stores.fillMember (hP : Stores P) (n core : Nat) (as : List ImgArea) (m gk : Nat) (h : P s) :
    P (s.fillMember n core as m gk) := by
  grind [State.fillMember, hP.imgContents]

theorem Stays.imgTask (hP : Stays P) (n ctx : Nat) (lead : BitVec 1024) (live : Nat) (kept : Option Saved) (h : P s) :
    P (s.imgTask n ctx lead live kept).1 := by
  unfold State.imgTask
  grind [hP.bump, hP.withTasks]

theorem Stores.freeSlot (hP : Stores P) (n : Nat) (h : P s) : P (s.freeSlot n) := by
  grind [State.freeSlot, hP.put, hP.withImages]

theorem Stores.moveDies (hP : Stores P) (old new : Nat) (h : P s) : P (s.moveDies old new) := by
  grind [State.moveDies, hP.land, hP.edgeFlush, hP.foldl, hP.withEdge]

theorem Stores.loadImage (hP : Stores P) (n core : Nat) (h : P s) : P (s.loadImage n core) := by
  unfold State.loadImage
  extract_lets hd as ms lead kept keptOf s1
  have h1 : P s1 := hP.moveDies _ _ h
  have h2 := hP.imgTask n (imgCtx hd) lead ms.length kept h1
  split
  next s2 task he =>
  rw [he] at h2
  extract_lets gang key rkey s0 s3 pipes wids t1 t2 t3 back t4 t5
  have h3 : P s3 := hP.withFresh (hP.useLink _ h2) _
  have ht1 : P t1 := hP.foldl _ (fun t e ht => hP.enterMember _ _ _ _ _ _ _ _ _ _ _ _ ht) h3
  have ht2 : P t2 := hP.foldl _ (fun t m ht => hP.fillMember _ _ _ _ _ ht) ht1
  have ht4 : P t4 := hP.withCommits (hP.modCore _ _ ht2) _
  refine hP.freeSlot _ ?_
  clear_value rkey
  unfold t5
  split
  · exact hP.withReplays ht4 _
  · exact ht4

theorem Stores.refuseImage (hP : Stores P) (n status core : Nat) (h : P s) :
    P (s.refuseImage n status core) := by
  grind [State.refuseImage, hP.put, hP.emit]

theorem Stores.killImage (hP : Stores P) (n : Nat) (h : P s) : P (s.killImage n) := by
  grind [State.killImage, hP.taskLess, hP.imgTask, hP.freeSlot, hP.withCommits]

theorem Stores.execKill (hP : Stores P) (slot : Nat) {s : State} (h : P s) : NextHolds P (execKill slot s) := by
  grind [Machine.execKill, NextHolds, hP.emitOnce, hP.killImage]

theorem Stays.killGang (hP : Stays P) (core gang : Nat) (h : P s) : P (s.killGang core gang) := hP.of_eq h rfl

theorem Stays.execKillOfResidentGroup (hP : Stays P) (t : KillTarget) {s : State} (h : P s) :
    NextHolds P (execKillOfResidentGroup t s) := by
  unfold Machine.execKillOfResidentGroup
  grind [NextHolds, hP.killGang, hP.withDraws]

/-! ### Admission -/

theorem Stores.seat (hP : Stores P) (core : Nat) (a : Grant) (recs : List (BitVec 1024)) (pipes : List Pipe) (h : P s) :
    P (s.seat core a recs pipes) := by
  grind [State.seat, hP.modCore, hP.useLink, hP.grantTo, hP.foldl, hP.withFresh]

theorem Stays.startReplay (hP : Stays P) (core gang tape : Nat) (h : P s) :
    P (s.startReplay core gang tape) := hP.of_eq h rfl

theorem Stores.admitTask (hP : Stores P) (t : Task) (core gid : Nat) (h : P s) :
    ∀ u, s.admitTask t core gid = some u → P u := by
  have hl := hP.launch (core / 32) t.ctx (t.lead :: t.members).length t.lead h
  intro u hu
  simp only [State.admitTask] at hu
  grind [hP.modTask, hP.seat, hP.recordStart, hP.startReplay, hP.emitOnce]

theorem Stays.placeUnits (_ : Stays P) {put : State → Nat → Nat → Option State} (a1 : List (Nat × Nat)) (lo size gid :
  Nat) {a5 : State} (hput : ∀ s a b t, P s → put s a b = some t → P t) (ha5 : P a5) :
    ∀ u, placeUnits put a1 lo size gid a5 = some u → P u := by
  induction a1 generalizing lo size gid a5 with
  | nil =>
    simp only [Machine.placeUnits]
    exact firstSome_holds fun c u hu => hput _ _ _ _ ha5 hu
  | cons d rest ih =>
    simp only [Machine.placeUnits]
    refine firstSome_holds fun at_ => ?_
    refine foldl_holds (q := fun o : Option State => ∀ u, o = some u → P u) _ (fun o i ho u hu => ?_) ?_
    · obtain ⟨t, rfl, hu⟩ := Option.bind_eq_some_iff.mp hu
      exact ih _ _ _ (ho t rfl) u hu
    · rintro u ⟨⟩
      exact ha5

theorem Stores.placing (hP : Stores P) (t : Task) (h : P s) :
    ∀ u, s.placing t = some u → P u := firstSome_holds fun _ => hP.placeUnits _ _ _ _ (fun s a b u hs => hP.admitTask t
      a b hs u) h

theorem Stores.placeTask (hP : Stores P) (t : Task) (h : P s) :
    ∀ u, s.placeTask t = some u → P u := fun u hu => hP.placing t h u (Option.filter_eq_some_iff.mp hu).1

theorem Stays.planeFail (hP : Stays P) (core : Nat) (g : Group) (cause : Nat) (h : P s) :
    P (s.planeFail core g cause) := by
  grind [State.planeFail, hP.modWarp, hP.replayFault]

theorem Stays.reloadPlane (hP : Stays P) (core : Nat) (g : Group) (p : Bool × Desc × Option Nat) (h : P s) :
    P (s.reloadPlane core g p) := by
  grind [State.reloadPlane, hP.modCore, hP.modGroup, hP.faultRecord, hP.planeFail]

theorem Stays.reloadPlanes (hP : Stays P) (core gang fuel : Nat) (h : P s) :
    P (s.reloadPlanes core gang fuel) := by
  induction fuel generalizing s core gang <;> grind [State.reloadPlanes, hP.reloadPlane]

theorem Stays.modOwn (hP : Stays P) (core gk : Nat) (f : Own → Own) (h : P s) :
    P (s.modOwn core gk f) := hP.of_eq h rfl

theorem Stores.reloadPage (hP : Stores P) (core : Nat) (g : Group) (base page : Nat) (h : P s) :
    ResAll P (s.reloadPage core g base page) := by
  grind [State.reloadPage, ResAll, hP.poisonUnit, hP.put, hP.foldl, resAll_andThen]

theorem Stores.reloadTile (hP : Stores P) (core : Nat) (g : Group) (o : Own) (h : P s) :
    P (s.reloadTile core g o) := by
  unfold State.reloadTile
  split
  · exact h
  extract_lets base n bad
  clear_value bad
  split
  · refine hP.modOwn _ _ _ (hP.foldl _ (fun t p ht => ?_) h)
    split
    · next hu => exact (hP.reloadPage _ _ _ _ ht).of_ok hu
    · exact ht
    · exact ht
  · exact h
  · split
    · dsimp only
      split
      · exact hP.modOwn _ _ _ h
      · exact hP.faultRecord _ _ _ (hP.modOwn _ _ _ h)
    · exact hP.withDraws (hP.leave _ _ _ (hP.emit _ h)) _

theorem Stores.retryEngine (hP : Stores P) (core : Nat) (u : EngUnit) (h : P s) : P (s.retryEngine core u) := by
  unfold State.retryEngine
  split <;> grind [hP.runMatrix, hP.runProbe, hP.runChunk, hP.reloadPlane, hP.reloadPlanes, hP.reloadTile]

theorem Stores.execEngineFaultRetry (hP : Stores P) (core : Nat) (u : EngUnit) {s : State} (h : P s) :
    NextHolds P (execEngineFaultRetry core u s) := by
  grind [Machine.execEngineFaultRetry, NextHolds, hP.retryEngine]

theorem Stays.budgetWarp (hP : Stays P) (core : Nat) (g : Group) (slot : Nat) (w : Warp) (h : P s) :
    P (s.budgetWarp core g slot w) := by
  grind [State.budgetWarp, hP.modWarp, hP.parkLanes]

theorem Stays.execBudget (hP : Stays P) (core gk : Nat) {s : State} (h : P s) :
    NextHolds P (execBudget core gk s) := by
  grind [Machine.execBudget, NextHolds, hP.modGroup, hP.replayFault, hP.budgetWarp, hP.foldl]

end Sys2Proof.Laws
end

section
/-! SUPPORT. Draws and tiles keep a claim (Draws, Tile, Choose). -/

namespace Sys2Proof.Laws

open Sys2Proof.Machine

variable {P : State → Prop} {s : State}

/-! ### Draws -/

theorem Stays.modDraw (hP : Stays P) (key : Nat) (f : Draw → Draw) (h : P s) :
    P (s.modDraw key f) := hP.of_eq h rfl

theorem Stays.flushNote (hP : Stays P) (key : Nat) (h : P s) : P (s.flushNote key) := by
  grind [State.flushNote, hP.emitOnce]

theorem Stores.poolPut (hP : Stores P) (d : Draw) (e : Nat × Nat) (h : P s) : P (s.poolPut d e) := by
  grind [State.poolPut, hP.writeHome]

theorem Stores.putDraw (hP : Stores P) (old new : Draw) (h : P s) : P (s.putDraw old new) := by
  grind [State.putDraw, hP.faultRecord, hP.modDraw, hP.poolPut, hP.foldl]

theorem Stores.commitNext (hP : Stores P) (key : Nat) (h : P s) : P (s.commitNext key) := by
  grind [State.commitNext, hP.flushNote, hP.putDraw]

theorem Stores.execCommit (hP : Stores P) (draw : Nat) {s : State} (h : P s) :
    NextHolds P (execCommit draw s) := .next (hP.commitNext _ h)

theorem Stays.ctxBindDraw (hP : Stays P) (x : Ctx) {s : State} (va : Nat) (r : DrawRead) (h : P s) :
    P (x.bindDraw s va r).1 := by
  grind [Ctx.bindDraw, hP.bump, hP.withDraws]

theorem Stores.ctxSubmit (hP : Stores P) (x : Ctx) {s : State} (va l : Nat) (r : DrawRead) (p : Prim) (h : P s) :
    SubmitHolds P (x.submit s va l r p) := by
  grind [Ctx.submit, SubmitHolds, hP.modDraw, hP.commitNext, hP.ctxBindDraw]

theorem Stores.ctxSubmitAll (hP : Stores P) (x : Ctx) (va : Nat) (a2 : List (Nat × DrawRead × Prim)) {a3 : State} (a4 :
  List Nat) (ha3 : P a3) :
    P (x.submitAll va a2 a3 a4).1 := by
  induction a2 generalizing a3 a4 with
  | nil => exact ha3
  | cons e rest ih =>
    obtain ⟨l, r, p⟩ := e
    have hs := hP.ctxSubmit x va l r p ha3
    unfold Ctx.submitAll
    split
    · next t ht => rw [ht] at hs; exact ih _ hs
    · exact ih _ ha3
    · exact ha3

theorem Stays.ctxBinTouch (hP : Stays P) (x : Ctx) (b : BitVec 7) (va : Nat) (hx : P x.s) :
    P (x.binTouch b va) := by
  grind [Ctx.binTouch, hP.touchSpan, hP.foldl]

theorem Stays.ctxBinClear (hP : Stays P) (x : Ctx) {s : State} (h : P s) : P (x.binClear s) := hP.of_eq h rfl

theorem Stores.execBin (hP : Stores P) (d : BitVec 7) (a : BitVec 6) (b : BitVec 7) {s : State} (h : P s) :
    NextHolds P (execBin d a b s) := by
  refine hP.runWord h fun x hx => ?_
  extract_lets va
  split
  · exact hP.ctxPark _ _ _ (hP.ctxBinClear _ hx)
  split
  · exact hP.ctxStall _ _ hx
  · have hy := hP.ctxBinTouch x b va hx
    extract_lets good faults
    split
    · next he => exact hP.ctxStall _ _ (hP.ctxModW _ _ (hP.ctxBinClear _ (holds_of_fst (hP.ctxSubmitAll _ _ _ _ hy)
      he)))
    · next t bad he =>
      have ht := holds_of_fst (hP.ctxSubmitAll _ _ _ _ hy) he
      refine hP.ctxParkAll _ _ (hP.ctxAdvance _ _ (hP.ctxBinClear _ ?_))
      split
      · exact ht
      · exact hP.abandon _ _ ht

theorem Stores.flushDone (hP : Stores P) (key : Nat) (h : P s) : P (s.flushDone key) := by
  grind [State.flushDone, hP.flushNote, hP.putDraw]

theorem Stores.execFlushComplete (hP : Stores P) (draw : Nat) {s : State} (h : P s) :
    NextHolds P (execFlushComplete draw s) := .next (hP.flushDone _ h)

theorem Stores.without (hP : Stores P) (core gang : Nat) (h : P s) : P (s.without core gang) := by
  grind [State.without, hP.modCore, hP.leave, hP.foldl]

theorem Stays.flushEvict (hP : Stays P) (d : Draw) (f : Flush) (h : P s) : P (s.flushEvict d f) := by
  grind [State.flushEvict, hP.escape, hP.modDraw]

theorem Stays.execFlushStall (hP : Stays P) (draw : Nat) {s : State} (h : P s) :
    NextHolds P (execFlushStall draw s) := by
  grind [Machine.execFlushStall, NextHolds, hP.flushEvict]

theorem Stays.execBinningStall (hP : Stays P) (draw : Nat) {s : State} (h : P s) :
    NextHolds P (execBinningStall draw s) := by
  grind [Machine.execBinningStall, NextHolds, hP.emit, hP.modDraw]

/-! ### Tiles -/

theorem Stores.setPlane (hP : Stores P) (core : Nat) (g : Group) (offs : Nat) (l : List Nat) (h : P s) :
    P (s.setPlane core g offs l) := by
  grind [State.setPlane, hP.putNum, hP.foldl]

theorem Stores.clearTile (hP : Stores P) (core : Nat) (g : Group) (d : BitVec 2048) (h : P s) :
    P (s.clearTile core g d) := by
  grind [State.clearTile, hP.setPlane, hP.foldl]

theorem Stores.issueTile (hP : Stores P) (core : Nat) (d : Draw) (t : Nat) (final : Bool) (h : P s) :
    P (s.issueTile core d t final) := by
  grind [State.issueTile, hP.seat, hP.reloadTile, hP.modDraw, hP.clearTile]

theorem Stores.visWave (hP : Stores P) {s0 : State} (core : Nat) (g : Group) (o : Own) (d : Draw) (hs0 : P s0) :
    P (s0.visWave core g o d) := by
  grind [State.visWave, hP.drainSpills, hP.modOwn, hP.setPlane]

theorem Stores.execVisibilityWave (hP : Stores P) (core gk : Nat) {s : State} (h : P s) :
    NextHolds P (execVisibilityWave core gk s) := by
  grind [Machine.execVisibilityWave, NextHolds, hP.visWave]

theorem Stays.spawnFrags (hP : Stays P) (core : Nat) (g : Group) (n : Nat) (a4 : List (Nat × Addr × Nat × Nat)) (h : P
  s) :
    P (s.spawnFrags core g n a4).1 := by
  induction n generalizing s a4 with
  | zero => exact h
  | succ n ih =>
    cases a4 with
    | nil => exact h
    | cons f rest =>
      unfold State.spawnFrags
      extract_lets lvl
      split
      · exact h
      · next t ht => exact ih rest (hP.spawn _ _ _ _ _ _ h t ht)

theorem Stays.execShadingWave (hP : Stays P) (core gk : Nat) {s : State} (h : P s) :
    NextHolds P (execShadingWave core gk s) := by
  grind [Machine.execShadingWave, NextHolds, hP.modOwn, hP.spawnFrags]

theorem Stores.storesDo (hP : Stores P) (sp : Space) (die : Nat) (l : List (Nat × List Byte)) (h : P s) :
    P (s.storesDo sp die l) := by
  refine hP.foldl l (fun s e hs => ?_) h
  split
  · next ht => exact (hP.storeBytes _ _ _ _ hs).of_ok ht
  · next ht => exact (hP.storeBytes _ _ _ _ hs).of_bad ht
  · exact hs

theorem Stores.blockPoison (hP : Stores P) (core : Nat) (g : Group) (sp : Space) (d : BitVec 2048) (tile : Nat) (h : P
  s) :
    P (s.blockPoison core g sp d tile) := by
  grind [State.blockPoison, hP.poisonHere, hP.foldl]

theorem Stores.savePage (hP : Stores P) (sp : Space) (die : Nat) (e : Nat × Nat) (h : P s) :
    P (s.savePage sp die e) := by
  grind [State.savePage, hP.poisonHere, hP.writeAt, hP.foldl]

theorem Stays.tileOver (hP : Stays P) (o : Own) (h : P s) : P (s.tileOver o) := hP.of_eq h rfl

theorem Stays.tdoneFail (hP : Stays P) (core : Nat) (g : Group) (o : Own) (va : Nat) (cause : Option Nat) (h : P s) :
    P (s.tdoneFail core g o va cause) := by
  unfold State.tdoneFail
  grind [hP.parkLanes, hP.faultRecord, hP.modOwn, hP.foldl]

theorem Stores.tdoneWrite (hP : Stores P) {s0 : State} (core : Nat) (g : Group) (o : Own) (d : Draw) (hs0 : P s0) :
    P (s0.tdoneWrite core g o d) := by
  unfold State.tdoneWrite
  extract_lets s sp die stores pages t u
  have hs : P s := hP.drainSpills _ _ hs0
  split
  · exact hP.tdoneFail _ _ _ _ _ hs
  · have ht : P t := by
      unfold t
      split
      · exact hP.blockPoison _ _ _ _ _ (hP.storesDo _ _ _ hs)
      · exact hP.foldl _ (fun t e h => hP.savePage _ _ _ h) hs
    exact hP.abandon _ _ (hP.release _ _ _ (hP.modOwn _ _ _ (hP.tileOver _ ht)))

theorem Stores.execWriteBack (hP : Stores P) (core gk : Nat) {s : State} (h : P s) :
    NextHolds P (execWriteBack core gk s) := by
  grind [Machine.execWriteBack, NextHolds, hP.modOwn, hP.tdoneWrite]

theorem Stays.execTdone (hP : Stays P) (h : P s) :
    NextHolds P (execTdone s) := hP.runWord h fun _ hx => by grind [hP.ctxRaise, hP.ctxWaitAt, hP.modOwn]

theorem Stays.laneResUntaped (hP : Stays P) (gang : Nat) {r : LaneRes} (hr : LaneHolds P r) :
    LaneHolds P (LaneRes.untaped gang r) := by
  unfold LaneRes.untaped
  grind [LaneHolds, hP.abandon]

theorem Stays.ctxPldLane (hP : Stays P) (x : Ctx) (d a : BitVec 7) (e : Nat) {s : State} (l : Nat) (h : P s) :
    LaneHolds P (x.pldLane d a e s l) := by
  grind [Ctx.pldLane, LaneHolds, hP.resLane]

theorem Stores.ctxPstLane (hP : Stores P) (x : Ctx) (d a : BitVec 7) (e : Nat) {s : State} (l : Nat) (h : P s) :
    LaneHolds P (x.pstLane d a e s l) := by
  grind [Ctx.pstLane, LaneHolds, hP.storeBytes, hP.accLane]

theorem Stays.ctxOnPlane (hP : Stays P) (x : Ctx) (p : BitVec 4) {f : Nat → State → Nat → LaneRes} (hx : P x.s) (hf : ∀
  n s l, P s → LaneHolds P (f n s l)) :
    P (x.onPlane p f) := by
  unfold Ctx.onPlane
  split
  · exact hP.ctxRaise _ _ hx
  split
  · exact hP.ctxRaise _ _ hx
  · exact hP.ctxPerLane _ _ _ hx (fun s l hs => hP.laneResUntaped _ (hf _ s l hs)) fun _ => id

theorem Stays.execPld (hP : Stays P) (d a : BitVec 7) (p : BitVec 4) {s : State} (h : P s) :
    NextHolds P (execPld d a p s) := hP.runWord h fun _ hx => by grind [hP.ctxPldLane, hP.ctxOnPlane]

theorem Stores.execPst (hP : Stores P) (d a : BitVec 7) (p : BitVec 4) {s : State} (h : P s) :
    NextHolds P (execPst d a p s) := hP.runWord h fun _ hx => by grind [hP.ctxPstLane, hP.ctxOnPlane]

theorem Stays.texTouch (hP : Stays P) (sp : Space) (die : Nat) (t : TileOp) (l : List (Ex × Nat × Nat)) (h : P s) :
    P (s.texTouch sp die t l) := by
  grind [State.texTouch, hP.touchParts, hP.foldl]

theorem Stays.ctxSampleLane (hP : Stays P) (x : Ctx) (clamp lin : Bool) (d : BitVec 7) (t : Desc) (b : BitVec 7) {s :
  State} (l : Nat) (h : P s) :
    LaneHolds P (x.sampleLane clamp lin d t b s l) := by
  grind [Ctx.sampleLane, LaneHolds, hP.resLane, hP.texTouch]

theorem Stays.execSample (hP : Stays P) (clamp lin : Bool) (d : BitVec 7) (t : BitVec 5) (b : BitVec 7) {s : State} (h
  : P s) :
    NextHolds P (execSample clamp lin d t b s) := hP.runWord h fun _ hx => by grind [hP.ctxRaise, hP.ctxPerLane,
      hP.ctxSampleLane]

theorem Stores.ctxBlendLane (hP : Stores P) (x : Ctx) (op : BlendOp) (a b : BitVec 7) (d : BitVec 2048) (o : Own) {s :
  State} (l : Nat) (h : P s) :
    LaneHolds P (x.blendLane op a b d o s l) := by
  grind [Ctx.blendLane, LaneHolds, hP.atomBytes, hP.accLane]

theorem Stores.execBlend (hP : Stores P) (op : BlendOp) (a b : BitVec 7) {s : State} (h : P s) :
    NextHolds P (execBlend op a b s) := hP.runWord h fun _ hx => by grind [hP.ctxRaise, hP.ctxPerLane,
      hP.laneResUntaped, hP.ctxBlendLane]

theorem Stores.ctxDcmpBlock (hP : Stores P) (x : Ctx) {s : State} (d : BitVec 2048) (n : Nat) (h : P s) :
    LaneHolds P (x.dcmpBlock s d n) := by
  grind [Ctx.dcmpBlock, LaneHolds, hP.touchSpan, hP.resLane, hP.storesDo]

theorem Stores.ctxDcmpLane (hP : Stores P) (x : Ctx) (a : BitVec 6) (b : BitVec 7) {s : State} (l : Nat) (h : P s) :
    LaneHolds P (x.dcmpLane a b s l) := by
  grind [Ctx.dcmpLane, LaneHolds, hP.touchSpan, hP.resLane, hP.ctxDcmpBlock]

theorem Stores.execDcmp (hP : Stores P) (a : BitVec 6) (b : BitVec 7) {s : State} (h : P s) :
    NextHolds P (execDcmp a b s) := hP.runWord h fun _ hx => by grind [hP.ctxPerLane, hP.laneResUntaped, hP.ctxDcmpLane]

/-! ### Stopped engines and offers -/

theorem Stores.admitted (hP : Stores P) (t : Task) (h : P s) : P (s.admitted t) := by
  unfold State.admitted
  split
  · exact h
  · next u hu =>
    have := hP.placeTask t h u hu
    split
    · exact hP.consume _ this
    · exact this

theorem Stores.execAdmission (hP : Stores P) (q : Nat) {s : State} (h : P s) :
    NextHolds P (execAdmission q s) := by
  grind [Machine.execAdmission, NextHolds, hP.emitOnce, hP.placing, hP.admitted]

theorem Stores.reloadGang (hP : Stores P) (core gang : Nat) (h : P s) : P (s.reloadGang core gang) := by
  grind [State.reloadGang, hP.reloadPlanes, hP.reloadTile, hP.foldl]

theorem Stores.execRestore (hP : Stores P) (slot core : Nat) {s : State} (h : P s) :
    NextHolds P (execRestore slot core s) := by
  grind [Machine.execRestore, NextHolds, hP.emitOnce, hP.loadImage, hP.refuseImage, hP.reloadGang]

theorem Stores.execTileIssue (hP : Stores P) (draw tile core : Nat) {s : State} (h : P s) :
    NextHolds P (execTileIssue draw tile core s) := by
  grind [Machine.execTileIssue, NextHolds, hP.emitOnce, hP.issueTile]

theorem Stays.offer (hP : Stays P) (core : Nat) (g : Group) (h : P s) : P (s.offer core g) := by
  grind [State.offer, hP.modGang, hP.escape]

theorem Stays.execYield (hP : Stays P) (h : P s) :
    NextHolds P (execYield s) := hP.runWord h fun _ hx => by grind [hP.ctxModG, hP.ctxDone, hP.offer]

end Sys2Proof.Laws
end

section
/-! SUPPORT. The mailbox, management, links and clocks keep a claim (Mailbox, Manage, Links, Clock, Cross). -/

namespace Sys2Proof.Laws

open Sys2Proof.Machine

variable {P : State → Prop} {s : State}

/-! ### The mailbox and the responder -/

theorem Stays.mail (hP : Stays P) (a : MailAnswer) (h : P s) : P (s.mail a) := hP.of_eq h rfl

theorem Stays.command (hP : Stays P) (who : Caller) (code : Nat) {f : State → State} (h : P s) (hf : ∀ s,
  P s → P (f s)) :
    NextHolds P (s.command who code f) := by
  refine .next ?_
  split
  · exact hf _ h
  · exact hP.mail _ h

theorem Stays.execLogRead (hP : Stays P) (who : Caller) (index : Nat) {s : State} (h : P s) :
    NextHolds P (execLogRead who index s) := by
  grind [Machine.execLogRead, hP.mail, hP.command]

theorem Stores.execApertureSet (hP : Stores P) (who : Caller) (n : BitVec 9) (r : DWord) {s : State} (h : P s) :
    NextHolds P (execApertureSet who n r s) := by
  grind [Machine.execApertureSet, hP.putNum, hP.mail, hP.command]

theorem Stores.execExportSet (hP : Stores P) (who : Caller) (n : BitVec 8) (r : BitVec 128) {s : State} (h : P s) :
    NextHolds P (execExportSet who n r s) := by
  grind [Machine.execExportSet, hP.putNum, hP.mail, hP.command]

theorem Stays.execFwStage (hP : Stays P) (who : Caller) (img : FwImage) {s : State} (h : P s) :
    NextHolds P (execFwStage who img s) := by
  unfold Machine.execFwStage
  split
  · exact hP.command _ _ h fun t ht => hP.mail _ (hP.of_eq ht rfl)
  · exact hP.command _ _ h fun t ht => hP.mail _ ht

theorem Stays.execStatus (hP : Stays P) (who : Caller) {s : State} (h : P s) :
    NextHolds P (execStatus who s) := by
  grind [Machine.execStatus, hP.mail, hP.command]

theorem Stays.execMailboxRefused (hP : Stays P) (who : Caller) (code : Nat) {s : State} (h : P s) :
    NextHolds P (execMailboxRefused who code s) := by
  grind [Machine.execMailboxRefused, NextHolds, hP.mail]

theorem Stays.spdm (hP : Stays P) (b : SpdmBody) (h : P s) : P (s.spdm b) := hP.of_eq h rfl

theorem Stays.execGetVersion (hP : Stays P) (h : P s) : NextHolds P (execGetVersion s) := .next (hP.spdm _ h)

theorem Stays.execGetCapabilities (hP : Stays P) (h : P s) :
    NextHolds P (execGetCapabilities s) := .next (hP.spdm _ h)

theorem Stays.execNegotiateAlgorithms (hP : Stays P) (h : P s) :
    NextHolds P (execNegotiateAlgorithms s) := .next (hP.spdm _ h)

theorem Stays.execGetDigests (hP : Stays P) (h : P s) : NextHolds P (execGetDigests s) := .next (hP.spdm _ h)

theorem Stays.execGetCertificate (hP : Stays P) (h : P s) :
    NextHolds P (execGetCertificate s) := .next (hP.spdm _ h)

theorem Stays.execChallenge (hP : Stays P) (nonce : List Byte) {s : State} (h : P s) :
    NextHolds P (execChallenge nonce s) := .next (hP.spdm _ h)

theorem Stays.execGetMeasurements (hP : Stays P) (h : P s) :
    NextHolds P (execGetMeasurements s) := .next (hP.spdm _ h)

theorem Stays.execUnsupportedRequest (hP : Stays P) (r : SpdmUnsupported) {s : State} (h : P s) :
    NextHolds P (execUnsupportedRequest r s) := by
  unfold Machine.execUnsupportedRequest
  grind [NextHolds, hP.spdm]

/-! ### Errors, power and boot -/

theorem Stores.logError (hP : Stores P) (store : Nat) (uncorr : Bool) (addr : Nat) (h : P s) :
    P (s.logError store uncorr addr) := by
  unfold State.logError
  grind [hP.putNum, hP.emit, hP.withLogSeq]

theorem Moves.poisonHeld (hP : Moves P) (k : Nat) (h : P s) : P (s.poisonHeld k) := by
  grind [State.poisonHeld, hP.poisonCopy]

theorem Moves.poisonAt (hP : Moves P) (e : ErrAt) (h : P s) : P (s.poisonAt e) := by
  unfold State.poisonAt
  grind [hP.poisonUnit, hP.poisonSpan, hP.modCore, hP.modGroup, hP.modWarp, hP.poisonHeld]

theorem Moves.dropFlit (hP : Moves P) (x : LinkState) (h : P s) : P (s.dropFlit x) := by
  grind [State.dropFlit, hP.setLink, hP.logError, hP.withAgenda]

theorem Moves.found (hP : Moves P) (e : ErrAt) (uncorr : Bool) (h : P s) : P (s.found e uncorr) := by
  unfold State.found
  grind [hP.logError, hP.poisonAt, hP.dropFlit]

theorem Stores.evict (hP : Stores P) (line : Nat) (h : P s) : P (s.evict line) := by
  grind [State.evict, hP.writeBackPoison, hP.foldl, hP.withOwned]

theorem Moves.execScrub (hP : Moves P) (addr : Nat) (correctable : Bool) {s : State} (h : P s) :
    NextHolds P (execScrub addr correctable s) := by
  grind [Machine.execScrub, NextHolds, hP.found]

theorem Stores.execTelemetry (hP : Stores P) (h : P s) :
    NextHolds P (execTelemetry s) := .next (hP.put _ _ (hP.of_eq h rfl))

theorem Moves.repower (hP : Moves P) {old : State} (dies : List Nat) (h : P s) (hold : P old) :
    P (s.repower old dies) := by
  grind [State.repower, hP.followPower, hP.request, hP.foldl]

theorem Moves.execTemperatureAbove95 (hP : Moves P) (die : Nat) {s : State} (h : P s) :
    NextHolds P (execTemperatureAbove95 die s) := by
  grind [Machine.execTemperatureAbove95, NextHolds, hP.modDie, hP.repower]

theorem Moves.execTemperatureBelow90 (hP : Moves P) (die : Nat) {s : State} (h : P s) :
    NextHolds P (execTemperatureBelow90 die s) := by
  grind [Machine.execTemperatureBelow90, NextHolds, hP.modDie, hP.repower]

theorem Stores.execTemperatureAbove110 (hP : Stores P) (die : Nat) {s : State} (h : P s) :
    NextHolds P (execTemperatureAbove110 die s) := by
  have hl := hP.logError 8 false (Config.freeNat s.stepNo (200002 + die)) h
  refine .next ?_
  generalize s.logError _ _ _ = t at hl
  exact hP.of_eq hl rfl

theorem Moves.execCurrentAbove85a (hP : Moves P) (h : P s) : NextHolds P (execCurrentAbove85a s) := by
  have h1 : P { s with forcedCurrent := true } := hP.of_eq h rfl
  exact .next (hP.repower _ h1 h)

theorem Moves.execCurrentBelow80a (hP : Moves P) (h : P s) : NextHolds P (execCurrentBelow80a s) := by
  have h1 : P { s with forcedCurrent := false } := hP.of_eq h rfl
  exact .next (hP.repower _ h1 h)

theorem Moves.execFlowBelow15 (hP : Moves P) (h : P s) : NextHolds P (execFlowBelow15 s) := by
  have h1 : P { s with forcedFlow := true } := hP.of_eq h rfl
  exact .next (hP.repower _ h1 h)

/-! ### Links, dies and peers -/

theorem Stays.reply (hP : Stays P) (a : HostAnswer) (h : P s) : P (s.reply a) := hP.of_eq h rfl

theorem Stores.homeWrite (hP : Stores P) (k : Nat) (bs : List Byte) (h : P s) : P (s.homeWrite k bs) := by
  grind [State.homeWrite, hP.poisonSpan, hP.put, hP.disown, hP.foldl]

theorem Stores.snoop (hP : Stores P) (die line : Nat) (h : P s) : P (s.snoop die line) := by
  grind [State.snoop, hP.edgeFlush, hP.reply, hP.withEdge]

theorem Stores.serve (hP : Stores P) (die : Nat) (r : HeldReq) (h : P s) : P (s.serve die r) := by
  unfold State.serve
  grind [hP.reply, hP.homeWrite, hP.snoop]

theorem Moves.atDie (hP : Moves P) {s0 : State} (die : Nat) (r : HeldReq) (hs0 : P s0) :
    P (s0.atDie die r) := by
  grind [State.atDie, hP.useLink, hP.modDie, hP.wakeDie, hP.reply, hP.serve]

theorem Moves.hostAccess (hP : Moves P) (a n : Nat) (r : HeldReq) (h : P s) : P (s.hostAccess a n r) := by
  grind [State.hostAccess, hP.serve, hP.atDie]

theorem Moves.execHostCxlMemRead (hP : Moves P) (addr len : Nat) {s : State} (h : P s) :
    NextHolds P (execHostCxlMemRead addr len s) := by
  grind [Machine.execHostCxlMemRead, NextHolds, hP.reply, hP.hostAccess]

theorem Moves.execHostCxlMemWrite (hP : Moves P) (addr : Nat) (bytes : List Byte) {s : State} (h : P s) :
    NextHolds P (execHostCxlMemWrite addr bytes s) := by
  grind [Machine.execHostCxlMemWrite, NextHolds, hP.reply, hP.hostAccess]

theorem Moves.execHostSnoop (hP : Moves P) (die line : Nat) {s : State} (h : P s) :
    NextHolds P (execHostSnoop die line s) := by
  grind [Machine.execHostSnoop, NextHolds, hP.atDie]

theorem Moves.execTWake (hP : Moves P) (die : Nat) {s : State} (h : P s) : NextHolds P (execTWake die s) := by
  grind [Machine.execTWake, NextHolds, hP.modDie]

theorem Stores.loseGroup (hP : Stores P) (core : Nat) (g : Group) (h : P s) : P (s.loseGroup core g) := by
  grind [State.loseGroup, hP.leave, hP.taskLess, hP.modDraw]

theorem Stores.loseGang (hP : Stores P) (core gang : Nat) (h : P s) : P (s.loseGang core gang) := by
  unfold State.loseGang
  extract_lets gs s1 t
  have h1 : P s1 := hP.foldl _ (fun s r hs => hP.dropUser r hs) (hP.abandon _ _ h)
  have ht : P t := hP.foldl _ (fun s g hs => hP.loseGroup core g hs) h1
  exact hP.of_eq (hP.emit (.killed core gang) ht) rfl

theorem Stores.loseLines (hP : Stores P) (die : Nat) (h : P s) : P (s.loseLines die) := by
  unfold State.loseLines
  extract_lets t dirty u
  have ht : P t := hP.foldl _ (fun s l hs => hP.poisonSpan _ _ _ hs) h
  have hu : P u := by
    refine hP.foldl _ (fun s l hs => ?_) ht
    dsimp only
    split
    · exact hP.reply _ (hP.poisonSpan _ _ _ hs)
    · exact hP.poisonSpan _ _ _ hs
  exact hP.of_eq hu rfl

theorem Moves.loseDie (hP : Moves P) (die : Nat) (h : P s) : P (s.loseDie die) := by
  grind [State.loseDie, hP.setCore, hP.modDie, hP.settle, hP.reply, hP.loseGang, hP.loseLines, hP.foldl, hP.withPreempt]

theorem Moves.execTDead (hP : Moves P) (die : Nat) {s : State} (h : P s) : NextHolds P (execTDead die s) := by
  grind [Machine.execTDead, NextHolds, hP.loseDie]

theorem Moves.execLinkUp (hP : Moves P) (die : Nat) {s : State} (h : P s) : NextHolds P (execLinkUp die s) := by
  grind [Machine.execLinkUp, NextHolds, hP.modDie, hP.serve, hP.loseDie, hP.foldl, hP.setLinks]

theorem Moves.downLink (hP : Moves P) (l : Link) (h : P s) : P (s.downLink l) := by
  unfold State.downLink
  grind [hP.setLink, hP.answeredPushes, hP.modDie, hP.withPushes]

theorem Moves.execRetryRequest (hP : Moves P) (l : Link) (seq : Nat) {s : State} (h : P s) :
    NextHolds P (execRetryRequest l seq s) := by
  grind [Machine.execRetryRequest, NextHolds, hP.setLink, hP.logError, hP.downLink]

theorem Moves.execLinkDown (hP : Moves P) (l : Link) {s : State} (h : P s) :
    NextHolds P (execLinkDown l s) := by
  grind [Machine.execLinkDown, NextHolds, hP.downLink]

theorem Moves.execFlitAcknowledgement (hP : Moves P) (l : Link) (seq : Nat) {s : State} (h : P s) :
    NextHolds P (execFlitAcknowledgement l seq s) := .next (hP.setLink _ h)

theorem Moves.execPause (hP : Moves P) (l : Link) (c : TClass) {s : State} (h : P s) :
    NextHolds P (execPause l c s) := .next (hP.setLink _ h)

theorem Moves.execResume (hP : Moves P) (l : Link) (c : TClass) {s : State} (h : P s) :
    NextHolds P (execResume l c s) := .next (hP.setLink _ h)

theorem Moves.receive (hP : Moves P) (x : LinkState) (bad ack : Bool) (h : P s) : P (s.receive x bad ack) := by
  grind [State.receive, hP.setLink, hP.dropFlit, hP.withAgenda]

theorem Moves.pauseCheck (hP : Moves P) (l : Link) (c : TClass) (h : P s) : P (s.pauseCheck l c) := by
  grind [State.pauseCheck, hP.setLink, hP.withAgenda]

theorem Moves.flitClock (hP : Moves P) (l : Link) (h : P s) : P (s.flitClock l) := by
  unfold State.flitClock
  grind [hP.setLink, hP.receive, hP.pauseCheck, hP.foldl]

theorem Moves.linkClock (hP : Moves P) (h : P s) : P (s.linkClock) := by
  grind [State.linkClock, hP.downLink, hP.flitClock, hP.foldl]

theorem Stores.peerStore (hP : Stores P) (addr : Nat) (bs : List Byte) (h : P s) : P (s.peerStore addr bs) := by
  grind [State.peerStore, hP.put, hP.disown, hP.reply, hP.homeWrite]

theorem Stores.peerAtom (hP : Stores P) (addr n : Nat) (op : AtomOp) (v new : Nat) (h : P s) :
    P (s.peerAtom addr n op v new) := by
  grind [State.peerAtom, hP.putNum, hP.reply]

theorem Stores.execPeerRequest (hP : Stores P) (endpoint : BitVec 18) (addr : Nat) (k : PeerKind) {s : State} (h : P s)
  :
    NextHolds P (execPeerRequest endpoint addr k s) := by
  unfold Machine.execPeerRequest
  grind [NextHolds, hP.reply, hP.peerStore, hP.peerAtom]

theorem Stores.takePush (hP : Stores P) (endpoint : BitVec 18) (q : Nat) (record : List Byte) (h : P s) :
    AccHolds P (s.takePush endpoint q record) := by
  obtain ⟨push, hpush⟩ : ∃ f, f = State.push := ⟨_, rfl⟩
  have hp : ∀ {t} q r, P t → ∀ u, push t q r = some u → P u := by subst hpush; exact hP.push
  have ha := fun sp die jtab j up => hP.jobAdd sp die jtab j up h
  unfold State.takePush
  rw [← hpush]
  extract_lets d ctx
  split
  · split
    · next he =>
      split
      · next u hu => exact hp _ _ ((ha ..).of_ok he) u hu
      · exact h
    · exact h
    · trivial
  · exact h

theorem Stores.execRemotePush (hP : Stores P) (endpoint : BitVec 18) (q : BitVec 9) (record : List Byte) {s : State} (h
  : P s) :
    NextHolds P (execRemotePush endpoint q record s) := by
  have hp := hP.takePush endpoint q.toNat record h
  refine .next ?_
  split
  · next ht => exact hP.reply _ (hp.of_ok ht)
  · next ht => exact hP.reply _ (hp.of_bad ht)
  · exact hP.of_eq h rfl

/-! ### A clock -/

theorem Stays.issuingSet (_ : Stays P) (core wid : Nat) (lanes : Mask) (h : P s) :
    ∀ x, s.issuingSet core wid lanes = some x → P x.s := by
  intro x hx
  simp only [State.issuingSet, Option.bind_eq_some_iff] at hx
  obtain ⟨⟨g, slot, w⟩, -, hx⟩ := hx
  split at hx
  · cases hx
  split at hx
  · cases hx
  · obtain ⟨t, -, rfl⟩ := Option.map_eq_some_iff.mp hx
    exact h

theorem Stays.waitingSet (_ : Stays P) (core wid : Nat) (lanes : Mask) (h : P s) :
    ∀ p, s.waitingSet core wid lanes = some p → P p.1.s := by
  intro p hp
  simp only [State.waitingSet, Option.bind_eq_some_iff] at hp
  obtain ⟨⟨g, slot, w⟩, -, hp⟩ := hp
  split at hp
  · cases hp
  · obtain ⟨l, -, hl⟩ := List.exists_of_findSome?_eq_some hp
    obtain ⟨e, -, rfl⟩ := Option.map_eq_some_iff.mp hl
    exact h

theorem Stays.schedule (hP : Stays P) (h : P s) : P (s.schedule).1 := by
  refine foldl_holds (q := fun acc : State × List Mover => P acc.1) _ (fun acc e ha => ?_) h
  exact hP.setCore _ _ ha

theorem Moves.older (hP : Moves P) (h : P s) : P (s.older) := by
  grind [State.older, hP.enterSaved, hP.answeredPushes, hP.settle, hP.linkClock, hP.foldl, looked, hP.of_eq]

theorem Moves.clock (hP : Moves P) (h : P s) : P (s.clock).1 := hP.of_eq (hP.schedule (hP.older h)) rfl

theorem Stays.unstallAll (hP : Stays P) (h : P s) : P (s.unstallAll) := hP.of_eq h rfl

/-! ### Words of several lanes -/

theorem Stays.execShfl (hP : Stays P) (mode : ShflMode) (w : ShflSeg) (d a : BitVec 7) (idx : ShflIdx) {s : State} (h :
  P s) :
    NextHolds P (execShfl mode w d a idx s) := hP.runWord h fun _ hx => hP.of_eq hx rfl

theorem Stays.execVote (hP : Stays P) (op : VoteOp) (neg : Bool) (d a : BitVec 7) {s : State} (h : P s) :
    NextHolds P (execVote op neg d a s) := hP.runWord h fun _ hx => by grind [hP.ctxDone, hP.ctxDoneW]

theorem Stays.execWred (hP : Stays P) (op : WredOp) (d : BitVec 6) (a b : BitVec 7) {s : State} (h : P s) :
    NextHolds P (execWred op d a b s) := hP.runWord h fun _ hx => by grind [hP.ctxModW, hP.ctxDone, hP.ctxDoneW]

theorem Stays.execPlog (hP : Stays P) (op : PlogOp) (d a b : BitVec 4) {s : State} (h : P s) :
    NextHolds P (execPlog op d a b s) := hP.runWord h fun _ hx => hP.of_eq hx rfl

theorem Stays.execXmov (hP : Stays P) (k : XmovKind) (w64 : Bool) (d a : BitVec 7) {s : State} (h : P s) :
    NextHolds P (execXmov k w64 d a s) := hP.runWord h fun _ hx => by grind [hP.ctxDone, hP.ctxDoneW, hP.ctxRaise]

end Sys2Proof.Laws
end

section
/-! SUPPORT. The register words, the ranges, every instruction and the step itself keep a claim (Float, Integer, Range, Dispatch, Sched). -/

namespace Sys2Proof.Laws

open Sys2Proof.Machine

variable {P : State → Prop} {s : State}

/-! ### Floating-point words -/

theorem Stays.execFadd (hP : Stays P) (f : FFmt) (r : Rnd) (d a b : BitVec 7) {s : State} (h : P s) :
    NextHolds P (execFadd f r d a b s) := hP.runWord h fun _ hx => hP.of_eq hx rfl

theorem Stays.execFmul (hP : Stays P) (f : FFmt) (r : Rnd) (d a b : BitVec 7) {s : State} (h : P s) :
    NextHolds P (execFmul f r d a b s) := hP.runWord h fun _ hx => hP.of_eq hx rfl

theorem Stays.execFfma (hP : Stays P) (f : FFmt) (r : Rnd) (d a b : BitVec 7) {s : State} (h : P s) :
    NextHolds P (execFfma f r d a b s) := hP.runWord h fun _ hx => hP.of_eq hx rfl

theorem Stays.execFmnx (hP : Stays P) (f : FFmt) (fn : FmnxFn) (d a b : BitVec 7) {s : State} (h : P s) :
    NextHolds P (execFmnx f fn d a b s) := hP.runWord h fun _ hx => hP.of_eq hx rfl

theorem Stays.execFset (hP : Stays P) (f : FFmt) (c : FCmp) (d : BitVec 4) (a b : BitVec 7) {s : State} (h : P s) :
    NextHolds P (execFset f c d a b s) := hP.runWord h fun _ hx => hP.of_eq hx rfl

theorem Stays.execFrnd (hP : Stays P) (f : FFmt) (r : Rnd) (d a : BitVec 7) {s : State} (h : P s) :
    NextHolds P (execFrnd f r d a s) := hP.runWord h fun _ hx => hP.of_eq hx rfl

theorem Stays.execFcvt (hP : Stays P) (dst src : CvtType) (sat : Bool) (r : Rnd) (d a : BitVec 7) {s : State} (h : P s)
  :
    NextHolds P (execFcvt dst src sat r d a s) := hP.runWord h fun _ hx => hP.of_eq hx rfl

theorem Stays.execSfu (hP : Stays P) (half : Bool) (fn : SfuFn) (d a b : BitVec 7) {s : State} (h : P s) :
    NextHolds P (execSfu half fn d a b s) := hP.runWord h fun _ hx => hP.of_eq hx rfl

theorem Stays.execHop2 (hP : Stays P) (bf : Bool) (op : Hop2Op) (r : Hop2Rnd) (d a b : BitVec 7) {s : State} (h : P s) :
    NextHolds P (execHop2 bf op r d a b s) := hP.runWord h fun _ hx => hP.of_eq hx rfl

theorem Stays.execDot (hP : Stays P) (t : DotType) (sat : Bool) (d a b : BitVec 7) {s : State} (h : P s) :
    NextHolds P (execDot t sat d a b s) := hP.runWord h fun _ hx => hP.of_eq hx rfl

/-! ### Integer words -/

theorem Stays.execIadd (hP : Stays P) (t : IType) (sat : Bool) (d a b : BitVec 7) {s : State} (h : P s) :
    NextHolds P (execIadd t sat d a b s) := hP.runWord h fun _ hx => hP.of_eq hx rfl

theorem Stays.execIsub (hP : Stays P) (t : IType) (sat : Bool) (d a b : BitVec 7) {s : State} (h : P s) :
    NextHolds P (execIsub t sat d a b s) := hP.runWord h fun _ hx => hP.of_eq hx rfl

theorem Stays.execImul (hP : Stays P) (t : IType) (sat hi : Bool) (d a b : BitVec 7) {s : State} (h : P s) :
    NextHolds P (execImul t sat hi d a b s) := hP.runWord h fun _ hx => hP.of_eq hx rfl

theorem Stays.execImad (hP : Stays P) (t : IType) (sat w : Bool) (d a b : BitVec 7) {s : State} (h : P s) :
    NextHolds P (execImad t sat w d a b s) := hP.runWord h fun _ hx => by grind [hP.ctxWriteInt]

theorem Stays.execImnx (hP : Stays P) (t : IType) (max : Bool) (d a b : BitVec 7) {s : State} (h : P s) :
    NextHolds P (execImnx t max d a b s) := hP.runWord h fun _ hx => hP.of_eq hx rfl

theorem Stays.execLogic (hP : Stays P) (fn : LogicFn) (w : Bool) (d a b : BitVec 7) {s : State} (h : P s) :
    NextHolds P (execLogic fn w d a b s) := hP.runWord h fun _ hx => hP.of_eq hx rfl

theorem Stays.execShift (hP : Stays P) (fn : ShiftFn) (w : Bool) (d a b : BitVec 7) {s : State} (h : P s) :
    NextHolds P (execShift fn w d a b s) := hP.runWord h fun _ hx => hP.of_eq hx rfl

theorem Stays.execBits (hP : Stays P) (fn : BitsFn) (w : Bool) (d a b : BitVec 7) {s : State} (h : P s) :
    NextHolds P (execBits fn w d a b s) := hP.runWord h fun _ hx => by grind [hP.ctxWriteInt]

theorem Stays.execIset (hP : Stays P) (c : Cmp) (t : IType) (d : BitVec 4) (a b : BitVec 7) {s : State} (h : P s) :
    NextHolds P (execIset c t d a b s) := hP.runWord h fun _ hx => hP.of_eq hx rfl

theorem Stays.execSel (hP : Stays P) (inv : Bool) (p : BitVec 4) (d a b : BitVec 7) {s : State} (h : P s) :
    NextHolds P (execSel inv p d a b s) := hP.runWord h fun _ hx => hP.of_eq hx rfl

theorem Stays.execLea (hP : Stays P) (sgn : Bool) (sh : BitVec 3) (d a b : BitVec 7) {s : State} (h : P s) :
    NextHolds P (execLea sgn sh d a b s) := hP.runWord h fun _ hx => hP.of_eq hx rfl

theorem Stays.execIaddi (hP : Stays P) (d a : BitVec 7) (imm : BitVec 12) {s : State} (h : P s) :
    NextHolds P (execIaddi d a imm s) := hP.runWord h fun _ hx => hP.of_eq hx rfl

theorem Stays.execAndi (hP : Stays P) (d a : BitVec 7) (imm : BitVec 12) {s : State} (h : P s) :
    NextHolds P (execAndi d a imm s) := hP.runWord h fun _ hx => hP.of_eq hx rfl

theorem Stays.execOri (hP : Stays P) (d a : BitVec 7) (imm : BitVec 12) {s : State} (h : P s) :
    NextHolds P (execOri d a imm s) := hP.runWord h fun _ hx => hP.of_eq hx rfl

theorem Stays.execXori (hP : Stays P) (d a : BitVec 7) (imm : BitVec 12) {s : State} (h : P s) :
    NextHolds P (execXori d a imm s) := hP.runWord h fun _ hx => hP.of_eq hx rfl

theorem Stays.execMovl (hP : Stays P) (d : BitVec 7) (imm : BitVec 19) {s : State} (h : P s) :
    NextHolds P (execMovl d imm s) := hP.runWord h fun _ hx => hP.of_eq hx rfl

theorem Stays.execLui (hP : Stays P) (d : BitVec 7) (imm : BitVec 19) {s : State} (h : P s) :
    NextHolds P (execLui d imm s) := hP.runWord h fun _ hx => hP.of_eq hx rfl

/-! ### Range commits -/

theorem Stores.execRangeCommitCheck (hP : Stores P) (h : P s) : NextHolds P (execRangeCommitCheck s) := by
  unfold Machine.execRangeCommitCheck
  split
  · exact .next h
  split
  · exact .next h
  split
  · exact .next h
  · extract_lets t u
    refine .next (hP.of_eq (s := u) ?_ rfl)
    have ht : P t := hP.putNum _ _ _ (hP.putNum _ _ _ h)
    unfold u
    split
    · exact hP.putNum _ _ _ ht
    · exact ht

theorem Stores.rangeAnswer (hP : Stores P) (c : Commit) (status : Word) (h : P s) :
    P (s.rangeAnswer c status) := by
  grind [State.rangeAnswer, hP.putNum, hP.writeTok]

theorem Stores.swapRanges (hP : Stores P) (c : Commit) (es : List RangeEntry) (h : P s) :
    ∀ u, s.swapRanges c es = some u → P u := by
  intro u hu
  unfold State.swapRanges at hu
  extract_lets t at hu
  have ht : P t := hP.of_eq h rfl
  have hs := fun sp die ea bs => hP.storeBytes sp die ea bs ht
  split at hu
  · next he => obtain rfl := Option.some.inj hu; exact (hs ..).of_ok he
  · next he => obtain rfl := Option.some.inj hu; exact (hs ..).of_bad he
  · cases hu

theorem Stores.execRangeSwap (hP : Stores P) (h : P s) : NextHolds P (execRangeSwap s) := by
  unfold Machine.execRangeSwap
  split
  · exact .next h
  split
  · exact .next h
  next c rest _ _ v _ =>
  have ht := hP.withCommits h rest
  extract_lets t
  split
  · split
    · next es _ =>
      split
      · next u hu => exact .next (hP.rangeAnswer _ _ (hP.swapRanges _ _ ht u hu))
      · exact .next h
    · exact .next (hP.rangeAnswer _ _ ht)
    · exact .next h
  · exact .next (hP.rangeAnswer _ _ ht)

/-! ### Every instruction -/

/-- The words that store nothing (`mayStore`), other than SPLF.st, which leaves poison behind where it finds some. -/
def quiet : Instr → Bool
  | .splfSt _ _ _ => false
  | i => (encode i).isSome && !mayStore i

theorem Stays.exec_quiet (hP : Stays P) (hs : P s) {i : Instr} (hi : quiet i = true) : NextHolds P (Machine.exec i s)
  := by
  cases i
  case nop => exact hP.execNop hs
  case brk => exact hP.execBrk _ hs
  case trap => exact hP.execTrap _ hs
  case trapEsc => exact hP.execTrapEsc _ hs
  case tret => exact hP.execTret hs
  case mfs => exact hP.execMfs _ _ hs
  case mts => exact hP.execMts _ _ hs
  case causeclr => exact hP.execCauseclr _ hs
  case icinv => exact hP.execIcinv hs
  case halt => exact hP.execHalt hs
  case iadd => exact hP.execIadd _ _ _ _ _ hs
  case isub => exact hP.execIsub _ _ _ _ _ hs
  case imul => exact hP.execImul _ _ _ _ _ _ hs
  case imad => exact hP.execImad _ _ _ _ _ _ hs
  case imnx => exact hP.execImnx _ _ _ _ _ hs
  case logic => exact hP.execLogic _ _ _ _ _ hs
  case shift => exact hP.execShift _ _ _ _ _ hs
  case bits => exact hP.execBits _ _ _ _ _ hs
  case iset => exact hP.execIset _ _ _ _ _ hs
  case sel => exact hP.execSel _ _ _ _ _ hs
  case lea => exact hP.execLea _ _ _ _ _ hs
  case iaddi => exact hP.execIaddi _ _ _ hs
  case andi => exact hP.execAndi _ _ _ hs
  case ori => exact hP.execOri _ _ _ hs
  case xori => exact hP.execXori _ _ _ hs
  case movl => exact hP.execMovl _ _ hs
  case lui => exact hP.execLui _ _ hs
  case fadd => exact hP.execFadd _ _ _ _ _ hs
  case fmul => exact hP.execFmul _ _ _ _ _ hs
  case ffma => exact hP.execFfma _ _ _ _ _ hs
  case fmnx => exact hP.execFmnx _ _ _ _ _ hs
  case fset => exact hP.execFset _ _ _ _ _ hs
  case fcvt => exact hP.execFcvt _ _ _ _ _ _ hs
  case sfu => exact hP.execSfu _ _ _ _ _ hs
  case frnd => exact hP.execFrnd _ _ _ _ hs
  case hop2 => exact hP.execHop2 _ _ _ _ _ _ hs
  case dot => exact hP.execDot _ _ _ _ _ hs
  case shfl => exact hP.execShfl _ _ _ _ _ hs
  case vote => exact hP.execVote _ _ _ _ hs
  case wred => exact hP.execWred _ _ _ _ hs
  case plog => exact hP.execPlog _ _ _ _ hs
  case xmov => exact hP.execXmov _ _ _ _ hs
  case meldDecl => exact hP.execMeldDecl _ _ hs
  case meldSign => exact hP.execMeldSign _ _ hs
  case meldCancel => exact hP.execMeldCancel _ hs
  case meldQry => exact hP.execMeldQry _ _ hs
  case ldw => exact hP.execLdw _ _ _ hs
  case ldwSwap => exact hP.execLdwSwap _ _ hs
  case mstr => exact hP.execMstr _ _ _ _ _ _ hs
  case accAcq => exact hP.execAccAcq _ _ hs
  case accRel => exact hP.execAccRel _ _ hs
  case accZ => exact hP.execAccZ _ _ _ hs
  case accRd => exact hP.execAccRd _ _ _ _ hs
  case accWr => exact hP.execAccWr _ _ _ _ hs
  case tilePlane => exact hP.execTilePlane _ _ _ hs
  case tileHnd => exact hP.execTileHnd _ _ hs
  case tileDim => exact hP.execTileDim _ _ hs
  case tileAdv => exact hP.execTileAdv _ _ hs
  case ld => exact hP.execLd _ _ _ _ hs
  case ldx => exact hP.execLdx _ _ _ _ _ _ hs
  case lde => exact hP.execLde _ _ _ _ _ hs
  case acpy => exact hP.execAcpy _ _ _ _ _ hs
  case tagLook => exact hP.execTagLook _ _ hs
  case tagSet => exact hP.execTagSet _ _ hs
  case tagInv => exact hP.execTagInv _ hs
  case tagRd => exact hP.execTagRd _ _ hs
  case tagWr => exact hP.execTagWr _ _ hs
  case splfLd => exact hP.execSplfLd _ _ _ hs
  case fencM => exact hP.execFencM hs
  case fencQImm => exact hP.execFencQImm _ hs
  case fencQReg => exact hP.execFencQReg _ hs
  case fencRcommit => exact hP.execFencRcommit _ _ hs
  case bra => exact hP.execBra _ hs
  case braPred => exact hP.execBraPred _ _ _ hs
  case braU => exact hP.execBraU _ _ _ hs
  case jmpr => exact hP.execJmpr _ _ hs
  case jmprLink => exact hP.execJmprLink _ _ _ hs
  case call => exact hP.execCall _ _ hs
  case spawn => exact hP.execSpawn _ _ _ hs
  case reform => exact hP.execReform hs
  case rcv => exact hP.execRcv hs
  case exit => exact hP.execExit hs
  case yield => exact hP.execYield hs
  case bar => exact hP.execBar _ hs
  case syncw => exact hP.execSyncw _ hs
  case syncwU => exact hP.execSyncwU _ hs
  case wbase => exact hP.execWbase _ hs
  case rpf => exact hP.execRpf _ _ hs
  case qry => exact hP.execQry _ hs
  case forkMx => exact hP.execForkMx _ _ _ hs
  case forkCp => exact hP.execForkCp _ _ _ hs
  case forkBoth => exact hP.execForkBoth _ _ _ hs
  case rdv => exact hP.execRdv _ hs
  case tq => exact hP.execTq _ hs
  case tapeQry => exact hP.execTapeQry _ _ hs
  case pld => exact hP.execPld _ _ _ hs
  case sample => exact hP.execSample _ _ _ _ _ hs
  case tdone => exact hP.execTdone hs
  case pipeMap => exact hP.execPipeMap _ hs
  case pipeUnmap => exact hP.execPipeUnmap _ hs
  case pipeQry => exact hP.execPipeQry _ _ hs
  all_goals exact absurd hi Bool.false_ne_true

theorem Steps.exec (hP : Steps P) (hs : P s) (i : Instr) : NextHolds P (Machine.exec i s) := by
  by_cases hi : quiet i = true
  · exact hP.exec_quiet hs hi
  cases i
  case shfl => exact hP.execShfl _ _ _ _ _ hs
  case st => exact hP.execSt _ _ _ _ hs
  case stx => exact hP.execStx _ _ _ _ _ _ hs
  case ste => exact hP.execSte _ _ _ _ _ hs
  case atom => exact hP.execAtom _ _ _ _ _ hs
  case splfSt => exact hP.execSplfSt _ _ _ hs
  case fencR => exact hP.execFencR _ hs
  case futFill => exact hP.execFutFill _ _ _ hs
  case futWait => exact hP.execFutWait _ _ hs
  case futTake => exact hP.execFutTake _ _ hs
  case futClr => exact hP.execFutClr _ hs
  case handoff => exact hP.execHandoff _ _ hs
  case acqB => exact hP.execAcqB _ hs
  case acqT => exact hP.execAcqT _ _ hs
  case rel => exact hP.execRel _ hs
  case enq => exact hP.execEnq _ _ _ hs
  case tapeArm => exact hP.execTapeArm _ _ _ hs
  case tapeOff => exact hP.execTapeOff _ _ hs
  case bin => exact hP.execBin _ _ _ hs
  case pst => exact hP.execPst _ _ _ hs
  case blend => exact hP.execBlend _ _ _ hs
  case dcmp => exact hP.execDcmp _ _ hs
  case meldEntry => exact hP.execMeldEntry _ hs
  case matrixOperation => exact hP.execMatrixOperation _ hs
  case copyProbe => exact hP.execCopyProbe _ _ hs
  case copyChunk => exact hP.execCopyChunk _ _ hs
  case sequencerEntry => exact hP.execSequencerEntry _ _ hs
  case engineFaultRetry => exact hP.execEngineFaultRetry _ _ hs
  case binTimer => exact hP.execBinTimer _ _ hs
  case warpLaunch => exact hP.execWarpLaunch _ _ hs
  case injection => exact hP.execInjection _ _ hs
  case pathAge => exact hP.execPathAge _ _ hs
  case warpAge => exact hP.execWarpAge _ _ hs
  case budget => exact hP.execBudget _ _ hs
  case head => exact hP.execHead _ hs
  case grant => exact hP.execGrant _ hs
  case futAttempt => exact hP.execFutAttempt _ _ hs
  case barrierArrival => exact hP.execBarrierArrival _ _ hs
  case barrierComplete => exact hP.execBarrierComplete _ _ _ _ hs
  case icinvCompletion => exact hP.execIcinvCompletion _ _ hs
  case groupEnd => exact hP.execGroupEnd _ _ hs
  case recordCheck => exact hP.execRecordCheck _ hs
  case admission => exact hP.execAdmission _ hs
  case taskCompletion => exact hP.execTaskCompletion _ hs
  case commit => exact hP.execCommit _ hs
  case flushComplete => exact hP.execFlushComplete _ hs
  case flushStall => exact hP.execFlushStall _ hs
  case binningStall => exact hP.execBinningStall _ hs
  case tileIssue => exact hP.execTileIssue _ _ _ hs
  case visibilityWave => exact hP.execVisibilityWave _ _ hs
  case shadingWave => exact hP.execShadingWave _ _ hs
  case writeBack => exact hP.execWriteBack _ _ hs
  case preemption => exact hP.execPreemption _ hs
  case quiesce => exact hP.execQuiesce hs
  case acknowledgement => exact hP.execAcknowledgement _ hs
  case swapOut => exact hP.execSwapOut _ _ hs
  case restore => exact hP.execRestore _ _ hs
  case kill => exact hP.execKill _ hs
  case rangeCommitCheck => exact hP.execRangeCommitCheck hs
  case rangeSwap => exact hP.execRangeSwap hs
  case arm => exact hP.execArm _ _ _ _ _ hs
  case off => exact hP.execOff _ _ hs
  case query => exact hP.execQuery _ _ hs
  case engCommand => exact hP.execEngCommand _ hs
  case memCommand => exact hP.execMemCommand _ hs
  case enqCommand => exact hP.execEnqCommand _ hs
  case bankCommand => exact hP.execBankCommand _ hs
  case rfenceCommand => exact hP.execRfenceCommand _ hs
  case logRead => exact hP.execLogRead _ _ hs
  case apertureSet => exact hP.execApertureSet _ _ _ hs
  case exportSet => exact hP.execExportSet _ _ _ hs
  case fwStage => exact hP.execFwStage _ _ hs
  case status => exact hP.execStatus _ hs
  case mailboxRefused => exact hP.execMailboxRefused _ _ hs
  case getVersion => exact hP.execGetVersion hs
  case getCapabilities => exact hP.execGetCapabilities hs
  case negotiateAlgorithms => exact hP.execNegotiateAlgorithms hs
  case getDigests => exact hP.execGetDigests hs
  case getCertificate => exact hP.execGetCertificate hs
  case challenge => exact hP.execChallenge _ hs
  case getMeasurements => exact hP.execGetMeasurements hs
  case unsupportedRequest => exact hP.execUnsupportedRequest _ hs
  case hostCxlMemRead => exact hP.execHostCxlMemRead _ _ hs
  case hostCxlMemWrite => exact hP.execHostCxlMemWrite _ _ hs
  case hostSnoop => exact hP.execHostSnoop _ _ hs
  case tWake => exact hP.execTWake _ hs
  case tDead => exact hP.execTDead _ hs
  case linkUp => exact hP.execLinkUp _ hs
  case retryRequest => exact hP.execRetryRequest _ _ hs
  case linkDown => exact hP.execLinkDown _ hs
  case pause => exact hP.execPause _ _ hs
  case resume => exact hP.execResume _ _ hs
  case peerRequest => exact hP.execPeerRequest _ _ _ hs
  case remotePush => exact hP.execRemotePush _ _ _ hs
  case pushAcknowledgement => exact hP.execPushAcknowledgement _ hs
  case scrub => exact hP.execScrub _ _ hs
  case telemetry => exact hP.execTelemetry hs
  case reset => exact hP.reset hs
  case powerState => exact hP.execPowerState _ _ hs
  case temperatureAbove95 => exact hP.execTemperatureAbove95 _ hs
  case temperatureBelow90 => exact hP.execTemperatureBelow90 _ hs
  case temperatureAbove110 => exact hP.execTemperatureAbove110 _ hs
  case currentAbove85a => exact hP.execCurrentAbove85a hs
  case currentBelow80a => exact hP.execCurrentBelow80a hs
  case flowBelow15 => exact hP.execFlowBelow15 hs
  case wordNotAnInstruction => exact hP.execWordNotAnInstruction hs
  case instructionFetchFault => exact hP.execInstructionFetchFault _ hs
  case spillWrite => exact hP.execSpillWrite _ hs
  case cleanAcknowledgement => exact hP.execCleanAcknowledgement hs
  case flitAcknowledgement => exact hP.execFlitAcknowledgement _ _ hs
  case quiesceEnd => exact hP.execQuiesceEnd hs
  case killOfResidentGroup => exact hP.execKillOfResidentGroup _ hs
  all_goals exact absurd rfl hi

/-! ### The step -/

theorem Stays.ctxBudgetDue (hP : Stays P) (x : Ctx) (hx : P x.s) : ∀ u, x.budgetDue = some u → P u := by
  grind [Ctx.budgetDue, hP.ctxModW, hP.ctxPark, hP.parkLanes]

theorem Stays.ctxDeliver (hP : Stays P) (x : Ctx) (hx : P x.s) : ∀ u, x.deliver = some u → P u := by
  grind [Ctx.deliver, hP.ctxModW, hP.ctxPark, hP.ctxBudgetDue]

theorem Stays.tick (hP : Stays P) (h : P s) : P (s.tick) := hP.of_eq h rfl

theorem NextHolds.onNext {o : Host.Outcome State Fault Refusal} {f : State → State} (h : NextHolds P o)
    (hf : ∀ s, P s → P (f s)) : NextHolds P (onNext o f) := by
  cases h with
  | next h => exact .next (hf _ h)
  | fault | refused => constructor

theorem Stays.ctxStepTrap (hP : Stays P) (x : Ctx) {s : State} (h : P s) : P (x.stepTrap s) := by
  grind [Ctx.stepTrap, hP.ctxModW, hP.park, hP.foldl]

theorem Stays.ctxEntered (hP : Stays P) (x : Ctx) (hx : P x.s) : P (x.entered) := hP.of_eq hx rfl

theorem Stays.ctxAged (hP : Stays P) (x : Ctx) {s : State} (h : P s) : P (x.aged s) := by
  grind [Ctx.aged, hP.ctxModW]

theorem Steps.ctxPerform (hP : Steps P) (x : Ctx) {s : State} (hx : P x.s) (h : P s) :
    NextHolds P (x.perform s) := by
  grind [Ctx.perform, NextHolds, hP.ctxStall, hP.ctxPark, hP.exec]

theorem Steps.ctxRun (hP : Steps P) (x : Ctx) (hx : P x.s) :
    NextHolds P (x.run) := (hP.ctxPerform _ hx (hP.ctxEntered _ hx)).onNext fun _ ht => hP.ctxStepTrap _ (hP.ctxAged _
      ht)

theorem Steps.ctxAttempt (hP : Steps P) (x : Ctx) (i : Instr) (hx : P x.s) :
    NextHolds P (x.attempt i) := hP.exec (hP.ctxEntered _ hx) i

theorem Steps.perform (hP : Steps P) (m : Mover) (h : P s) : NextHolds P (s.perform m) := by
  unfold State.perform
  split
  · exact (hP.exec h _).onNext fun t ht => by grind [hP.unstallAll]
  · exact .next (hP.found _ _ h)
  · exact .next (hP.evict _ h)
  · exact .next (hP.of_eq h rfl)
  · split
    · exact .next h
    · next x i hx => exact hP.ctxAttempt x i (hP.waitingSet _ _ _ h _ hx)
  · split
    · exact .next h
    · next x hx =>
      have hxs := hP.issuingSet _ _ _ h x hx
      split
      · exact hP.ctxRun x hxs
      · next d hd => exact .next (hP.ctxDeliver x hxs d hd)

theorem Steps.stepOnce (hP : Steps P) (h : P s) : NextHolds P (s.stepOnce) := by
  have hc := hP.clock h
  unfold State.stepOnce
  grind [NextHolds, NextHolds.onNext, hP.tick, hP.perform, hP.withAgenda]

end Sys2Proof.Laws
end

section
/-! SUPPORT. A step keeps the memory in canonical form. -/

namespace Sys2Proof.Laws

open Sys2Proof.Machine

variable {P : State → Prop} {s : State}

theorem Writes.stores (hP : Writes P) : Stores P :=
  { hP with
    abandon := fun gang why h => hP.abandon gang why h
    append := fun gang m b c h => hP.append gang m b c h
    land := fun l h => hP.land l h }

theorem sound_of_mem {t : State} (h : Sound s) (ht : t.mem = s.mem) : Sound t := by
  unfold Sound
  rw [ht]
  exact h

theorem useLink_mem (s : State) (l : Link) : (s.useLink l).mem = s.mem := by
  unfold State.useLink
  split <;> rfl

theorem writes_sound : Writes Sound where
  of_eq h hl := sound_of_mem h (congrArg Prod.fst hl)
  useLink l h := sound_of_mem h (useLink_mem _ l)
  put k bs h := put_wf h k bs
  setPoison _ h := h
  setRecorders _ h := h
  setCleans _ h := h
  keepMem p h := wfFrom_filter h p

theorem sound_cleared (h : Sound s) : Sound s.cleared := wfFrom_filter h _

/-- The map of the upper dies is written, or nothing. -/
theorem sound_writeMap {t : State} (h : Sound t) (k : Nat) (bs : List Byte) :
    Sound { t with mem := Memory.writeN t.mem k bs } := wf_writeN h k bs

theorem reset_sound (h : Sound s) : NextHolds Sound (execReset s) := by
  have hc := sound_cleared h
  have ht : Sound (if s.upper = 0xFF then s.cleared
      else { s.cleared with mem := Memory.writeN s.cleared.mem (Config.mgmtArea + 0x800) (upperMap s.upper) }) := by
    split
    · exact hc
    · exact sound_writeMap hc _ _
  unfold execReset
  split
  refine .next ?_
  split
  · exact sound_of_mem ht rfl
  · split
    · exact h
    · split
      · exact sound_of_mem hc rfl
      · exact sound_of_mem ht rfl

theorem steps_sound : Steps Sound :=
  { writes_sound.stores with
    setDies := fun _ h => h
    setLinks := fun _ h => h
    reset := reset_sound }

/-- Settles O50: the memory is written by `State.put` and cleared by a filter, and every function of a step does no more. -/
theorem stepKeepsMemoryCanonical : Obligations.StepKeepsMemoryCanonical := by
  intro s t h hst
  have hs : NextHolds Sound (s.stepOnce) := steps_sound.stepOnce h
  rw [show s.stepOnce = .next t from hst] at hs
  cases hs
  assumption

end Sys2Proof.Laws
end

section
/-! SUPPORT. Words that store nothing keep memory and poison. -/

namespace Sys2Proof.Laws

open Sys2Proof.Machine

variable {s : State}

/-- Memory and poison are these, and no recording and no write-back is on its way. -/
def Still (m : List Host.Cell) (p : List Nat) (s : State) : Prop :=
  s.mem = m ∧ s.poison = p ∧ s.recorders = [] ∧ s.cleans = []

section

variable {m : List Host.Cell} {p : List Nat}

theorem recorderOf_of_nil (h : s.recorders = []) (gang : Nat) : s.recorderOf gang = none := by
  simp [State.recorderOf, h]

theorem append_of_none {gang : Nat} (h : s.recorderOf gang = none) (k : Nat) (b : Bool) (c : Cmd) : s.append gang k b c = s := by
  simp [State.append, h]

theorem land_of_nil (h : s.cleans = []) (l : List Nat) : s.land l = s := by
  simp [State.land, State.moving, h]

theorem still_of_eq {t : State} (h : Still m p s) (hm : t.mem = s.mem) (hp : t.poison = s.poison) (hr : t.recorders = s.recorders)
    (hc : t.cleans = s.cleans) : Still m p t := by
  unfold Still
  rwa [hm, hp, hr, hc]

theorem stays_still : Stays (Still m p) where
  of_eq h hl := by
    simp only [looked, Prod.mk.injEq] at hl
    obtain ⟨hm, hp, hr, hc, -⟩ := hl
    exact still_of_eq h hm hp hr hc
  useLink l h := by
    unfold State.useLink
    split
    · exact h
    · exact h
  abandon gang why h := by
    obtain ⟨-, -, hrecorders, -⟩ := id h
    rwa [abandon_of_none (recorderOf_of_nil hrecorders gang)]
  append gang k b c h := by
    obtain ⟨-, -, hrecorders, -⟩ := id h
    rwa [append_of_none (recorderOf_of_nil hrecorders gang)]
  land l h := by
    obtain ⟨-, -, -, hcleans⟩ := id h
    rwa [land_of_nil hcleans]

/-! SPLF.st finds poison in the whole unit of its word, so it poisons nothing more (R211, R383). -/

theorem poisonUnit_of_poisoned {u : Nat} (h : s.unitPoisoned u = true) : s.poisonUnit u = s := if_pos h

theorem unitsOf_word {k : Nat} (hk : k % 4 = 0) : State.unitsOf k 4 = [k / 8] := by
  have h : (k + 3) / 8 - k / 8 + 1 = 1 := by omega
  simp [State.unitsOf, h, upto]

theorem poisonSpan_of_partialPoison {k : Nat} (hk : k % 4 = 0) (h : s.partialPoison k 4 = true) : s.poisonSpan k 4 false = s := by
  have hu : s.unitPoisoned (k / 8) = true := by
    simp only [State.partialPoison, unitsOf_word hk, List.any_cons, List.any_nil, Bool.or_false, Bool.and_eq_true] at h
    exact h.2.2
  simp [State.poisonSpan, unitsOf_word hk, poisonUnit_of_poisoned hu]

theorem lsOffset_aligned {core off k : Nat} {pages : List Nat} (h : lsOffset core pages off = some k) (ho : off % 4 = 0) :
    k % 4 = 0 := by
  obtain ⟨p, -, rfl⟩ := Option.map_eq_some_iff.mp h
  unfold lsKey
  omega

/-- The word that SPLF names is aligned to 4 bytes. -/
theorem splfAt_aligned {x : Ctx} {a k : BitVec 7} {l : Nat} {t : Xlat} (h : x.splfAt a k l = .ok t) : t.key % 4 = 0 := by
  unfold Ctx.splfAt at h
  extract_lets ea at h
  split at h
  · cases h
  split at h
  · cases h
  split at h
  · next hk =>
    cases h
    refine lsOffset_aligned hk ?_
    unfold lsWindow at *
    omega
  · cases h

theorem still_splfSt (h : Still m p s) (d a k : BitVec 7) : NextHolds (Still m p) (execSplfSt d a k s) := by
  have hP : Stays (Still m p) := stays_still
  refine hP.runWord h fun x hx => ?_
  split
  · exact hP.ctxWaitAt _ _ _ hx
  · refine hP.modCore _ _ (hP.ctxPerLane _ _ _ (hP.modCore _ _ hx) (fun s l hs => ?_) fun _ => id)
    cases hk : x.splfAt a k l with
    | ok t =>
      change LaneHolds (Still m p) (if _ then _ else _)
      split
      · next hb => rw [poisonSpan_of_partialPoison (splfAt_aligned hk) hb]; exact hs
      · exact hP.modCore _ _ hs
    | bad c => exact hs
    | wait => trivial

theorem still_of_exec (h : Still m p s) {i : Instr} (hi : (encode i).isSome = true) (hm : mayStore i = false) :
    NextHolds (Still m p) (exec i s) := by
  by_cases hq : quiet i = true
  · exact stays_still.exec_quiet h hq
  · cases i
    case splfSt d a k => exact still_splfSt h d a k
    all_goals exact absurd (by simp [quiet, hi, hm]) hq

end

/-- Settles O59: such words write neither memory nor poison, other than SPLF.st, which poisons a unit that is poisoned
already. -/
theorem wordsThatStoreNothing : Obligations.WordsThatStoreNothing := by
  intro i s t hi hm hr hc ht
  have h := still_of_exec ⟨rfl, rfl, hr, hc⟩ hi hm
  rw [ht] at h
  obtain ⟨hmem, hpoison, -⟩ := h
  exact ⟨fun k => congrArg (Memory.read · k) hmem, hpoison⟩

end Sys2Proof.Laws
end

section
/-! SUPPORT. Snoops, waking and lost dies, and flits (R384-R389). -/

namespace Sys2Proof.Laws

open Sys2Proof.Machine

/-! ### Links by their name -/

section Links

variable {s t : State} {x : LinkState} {l m : Link}

theorem link_id (s : State) (l : Link) : (s.link l).id = l := by
  unfold State.link
  cases h : s.links.find? fun x => x.id == l with
  | none => rfl
  | some y => exact eq_of_beq (List.find?_some h :)

theorem link_of_links (h : t.links = s.links) (l : Link) : t.link l = s.link l := by
  unfold State.link
  rw [h]

theorem link_setLink (h : x.id = l) : (s.setLink x).link l = x := by
  simp [State.setLink, State.link, h]

theorem link_setLink_of_ne (h : m ≠ x.id) : (s.setLink x).link m = s.link m := by
  have hf : (fun y : LinkState => decide ((y.id != x.id) = true ∧ (y.id == m) = true)) = fun y => y.id == m := by
    funext y
    by_cases hy : y.id = m <;> simp [hy, h]
  have hx : (x.id == m) = false := beq_false_of_ne h.symm
  simp only [State.setLink, State.link, List.find?_cons, hx, List.find?_filter, hf]

/-- Traffic changes no link: it makes an idle one present. -/
theorem link_useLink (s : State) (l m : Link) : (s.useLink l).link m = s.link m := by
  unfold State.useLink
  split
  · rfl
  · by_cases h : m = l
    · subst h
      exact link_setLink (link_id s m)
    · exact link_setLink_of_ne (by rwa [link_id])

@[simp] theorem logError_links (n : Nat) (u : Bool) (a : Nat) : (s.logError n u a).links = s.links := by
  simp [State.logError]

@[simp] theorem logError_agenda (n : Nat) (u : Bool) (a : Nat) : (s.logError n u a).agenda = s.agenda := by
  simp [State.logError]

@[simp] theorem setLink_logSeq : (s.setLink x).logSeq = s.logSeq := rfl

@[simp] theorem setLink_agenda : (s.setLink x).agenda = s.agenda := rfl

end Links

/-! ### What a sender sends (R385) -/

section Sender

variable {s : State} {x : LinkState} {n k : Nat} {ts : Nat}

theorem sent_of_le (h : n ≤ x.next) : s.sent x n = x := if_pos h

theorem sent_of_lt (h : x.next < n) : ∃ cs, cs.length = n - x.next ∧ s.sent x n = x.send cs s.ts.toNat :=
  ⟨_, by simp [upto], if_neg (Nat.not_le.mpr h)⟩

/-- What sending changes neither in a link: its name, and whether it is down. -/
theorem sent_id_down (s : State) (x : LinkState) (n : Nat) : (s.sent x n).id = x.id ∧ (s.sent x n).down = x.down := by
  rcases Nat.lt_or_ge x.next n with h | h
  · obtain ⟨cs, -, he⟩ := sent_of_lt (s := s) h
    exact he ▸ ⟨rfl, rfl⟩
  · exact (sent_of_le (s := s) h).symm ▸ ⟨rfl, rfl⟩

theorem sent_keeps_buf {f : Flit} (h : f ∈ x.buf) : f ∈ (s.sent x n).buf := by
  rcases Nat.lt_or_ge x.next n with hn | hn
  · obtain ⟨cs, -, he⟩ := sent_of_lt (s := s) hn
    rw [he]
    exact List.mem_append_left _ h
  · rwa [sent_of_le hn]

theorem mem_send {cs : List TClass} {i : Nat} (hi : i < cs.length) :
    ⟨x.next + i, cs[i], 0⟩ ∈ (x.send cs ts).buf ∧ x.next + i ∈ (x.send cs ts).wire := by
  constructor
  · refine List.mem_append_right _ (List.mem_map.mpr ⟨(cs[i], i), ?_, rfl⟩)
    exact List.mk_mem_zipIdx_iff_getElem?.mpr (List.getElem?_eq_getElem hi)
  · exact List.mem_append_right _ (List.mem_map.mpr ⟨i, List.mem_range.mpr hi, rfl⟩)

/-- A flit that had not been sent has been sent then. -/
theorem mem_sent (hk : x.next ≤ k) (hn : k < n) : ∃ c, ⟨k, c, 0⟩ ∈ (s.sent x n).buf ∧ k ∈ (s.sent x n).wire := by
  obtain ⟨cs, hl, he⟩ := sent_of_lt (s := s) (Nat.lt_of_le_of_lt hk hn)
  obtain ⟨i, rfl⟩ := Nat.exists_eq_add_of_le hk
  have hi : i < cs.length := by omega
  rw [he]
  exact ⟨cs[i], mem_send hi⟩

theorem resend_buf (x : LinkState) (n : Nat) : (x.resend n).buf =
    x.buf.map fun f => { f with resent := if n ≤ f.seq then f.resent + 1 else f.resent } := by
  refine List.map_congr_left fun f _ => ?_
  split <;> rfl

theorem mem_resend_wire : k ∈ (x.resend n).wire ↔ (k ∈ x.wire ∧ k < n) ∨ ∃ f ∈ x.buf, n ≤ f.seq ∧ f.seq = k := by
  simp [LinkState.resend, and_assoc]

theorem freeClass_not_paused {c : TClass} {salt : Nat} (h : s.freeClass x salt = some c) : ∀ p ∈ x.paused, p.1 ≠ c := by
  have hm : c ∈ x.free := List.mem_of_getElem? h
  simpa [LinkState.free] using (List.mem_filter.mp hm).2

theorem late_iff : x.late ts = true ↔ x.down = false ∧
    ((x.buf ≠ [] ∧ x.acked + 100000 ≤ ts) ∨ ∃ p ∈ x.paused, p.2 + 100000 ≤ ts) := by
  simp only [LinkState.late, Bool.and_eq_true, Bool.or_eq_true, Bool.not_eq_true', List.isEmpty_eq_false_iff,
    List.any_eq_true, decide_eq_true_eq]
  simp only [linkLimit]

end Sender

/-! ### A link that goes down -/

section Down

variable {s : State} {l : Link}

/-- A property of a link stands whatever changes memory, as traffic changes no link. -/
theorem writes_of_link (l : Link) (Q : LinkState → Prop) : Writes fun s => Q (s.link l) where
  of_eq {s t} h hl := by
    have hlinks : t.links = s.links := congrArg (fun p => p.2.2.2.2.2) hl
    rwa [link_of_links hlinks]
  useLink m h := by rwa [link_useLink]
  put k bs h := by rwa [link_of_links (put_links ..)]
  setPoison _ h := h
  setRecorders _ h := h
  setCleans _ h := h
  keepMem _ h := h

theorem downLink_down (s : State) (l : Link) : ((s.downLink l).link l).down = true := by
  have h {x : LinkState} (hx : x.id = l) (hd : x.down = true) : ((s.setLink x).link l).down = true := by
    rwa [link_setLink hx]
  cases l with
  | d2d die => exact h (link_id s _) rfl
  | rolik p => exact (writes_of_link _ fun x => x.down = true).stores.answeredPushes (h (link_id s _) rfl)

theorem downLink_die {die : Nat} {d : Die} (hd : s.dies[die]? = some d) (hl : d.link = .up ∨ d.link = .waking) :
    (s.downLink (.d2d die)).dies[die]? =
      some { d with link := .unresponsive, missed := some s.ts.toNat, woken := none } := by
  refine (die_modDie_self hd _).trans ?_
  rw [if_pos hl]
  rfl

theorem linkDown_of_up (h : (s.link l).down = false) : exec (.linkDown l) s = .next (s.downLink l) :=
  congrArg Host.Outcome.next (if_neg (by simp [h]))

theorem linkDown_of_down (h : (s.link l).down = true) : exec (.linkDown l) s = .next s :=
  congrArg Host.Outcome.next (if_pos h)

end Down

/-! ### Retry requests and acknowledgements (R385) -/

section Retry

variable {s : State} {l m : Link} {n : Nat} {x : LinkState}

/-- What is sent again is on the wire, and the error is logged where flits were still on their way. -/
def resentLink (s : State) (x : LinkState) (l : Link) (n : Nat) : State :=
  if x.wire.any fun k => decide (n ≤ k) then (s.setLink (x.resend n)).logError 7 false (linkAddr (some l))
  else s.setLink (x.resend n)

theorem resentLink_links : (resentLink s x l n).links = (s.setLink (x.resend n)).links := by
  unfold resentLink
  split
  · exact logError_links ..
  · rfl

theorem resentLink_logSeq :
    (resentLink s x l n).logSeq = s.logSeq + if ∃ k ∈ x.wire, n ≤ k then 1 else 0 := by
  have hw : (x.wire.any fun k => decide (n ≤ k)) = true ↔ ∃ k ∈ x.wire, n ≤ k := by simp
  unfold resentLink
  split
  · next h => rw [if_pos (hw.mp h), logError_logSeq, setLink_logSeq]
  · next h => simp [hw.not.mp h]

theorem retryRequest_of_down (h : (s.link l).down = true) : exec (.retryRequest l n) s = .next s :=
  if_pos ((sent_id_down ..).2.trans h)

theorem retryRequest_of_up (h : (s.link l).down = false) (hx : x = s.sent (s.link l) (n + 1)) :
    exec (.retryRequest l n) s = .next (if (x.resend n).buf.any fun f => decide (16 ≤ f.resent)
      then (resentLink s x l n).downLink l else resentLink s x l n) := by
  subst hx
  refine if_neg ?_
  rw [(sent_id_down ..).2, h]
  exact Bool.false_ne_true

theorem resend_id (hx : x = s.sent (s.link l) n) (k : Nat) : (x.resend k).id = l := by
  subst hx
  exact (sent_id_down ..).1.trans (link_id s l)

theorem retryRequest_resends (h : (s.link l).down = false) (hx : x = s.sent (s.link l) (n + 1))
    (hb : ∀ f ∈ (x.resend n).buf, f.resent < 16) :
    ∃ t, exec (.retryRequest l n) s = .next t ∧ t.link l = x.resend n ∧ (∀ m, m ≠ l → t.link m = s.link m) ∧
      t.logSeq = s.logSeq + if ∃ k ∈ x.wire, n ≤ k then 1 else 0 := by
  have hid := resend_id hx n
  refine ⟨_, (retryRequest_of_up h hx).trans (congrArg _ (if_neg (by simpa using hb))), ?_, fun m hm => ?_,
    resentLink_logSeq⟩
  · exact (link_of_links resentLink_links l).trans (link_setLink hid)
  · exact (link_of_links resentLink_links m).trans (link_setLink_of_ne (by rwa [hid]))

theorem retryRequest_takes_down (h : (s.link l).down = false) (hx : x = s.sent (s.link l) (n + 1))
    (hb : ∃ f ∈ (x.resend n).buf, 16 ≤ f.resent) :
    ∃ t, exec (.retryRequest l n) s = .next t ∧ (t.link l).down = true :=
  ⟨_, (retryRequest_of_up h hx).trans (congrArg _ (if_pos (by simpa using hb))), downLink_down _ l⟩

theorem flitAcknowledgement_takes (hx : x = s.sent (s.link l) (n + 1)) :
    ∃ t, exec (.flitAcknowledgement l n) s = .next t ∧
      t.link l = { x with buf := x.buf.filter (fun f => decide (n < f.seq)), wire := x.wire.filter (fun k => decide (n < k)),
                          expect := max x.expect (n + 1), acked := s.ts.toNat } ∧
      ∀ m, m ≠ l → t.link m = s.link m := by
  have hid : x.id = l := resend_id hx 0
  subst hx
  exact ⟨_, rfl, link_setLink hid, fun m hm => link_setLink_of_ne (hm.trans_eq hid.symm)⟩

end Retry

/-! ### The receiver (R385, R386) -/

section Receiver

variable {s : State} {x : LinkState} {n : Nat} {rest : List Nat} {bad : Bool}

theorem dropFlit_link (s : State) (x : LinkState) : (s.dropFlit x).link x.id = { x with wire := [] } := by
  have h : (s.dropFlit x).links = (s.setLink { x with wire := [] }).links := by
    simp only [State.dropFlit, logError_links]
  rw [link_of_links h, link_setLink rfl]

theorem dropFlit_logSeq (s : State) (x : LinkState) : (s.dropFlit x).logSeq = s.logSeq + 1 := by
  simp [State.dropFlit]

theorem dropFlit_agenda (s : State) (x : LinkState) :
    (s.dropFlit x).agenda = s.agenda ++ [.event (.retryRequest x.id x.expect)] := by
  simp [State.dropFlit]

theorem receive_idle (h : x.wire = []) (ack : Bool) : s.receive x bad ack = s.setLink x := by
  simp [State.receive, h]

/-- A flit with a bad CRC, or beyond the one expected. -/
theorem receive_drops (h : x.wire = n :: rest) (hn : bad = true ∨ x.expect < n) (ack : Bool) :
    s.receive x bad ack = s.dropFlit x := by
  simp [State.receive, h, hn]

/-- A flit that has been taken before. -/
theorem receive_again (h : x.wire = n :: rest) (hn : n < x.expect) (ack : Bool) :
    s.receive x false ack = s.setLink { x with wire := rest } := by
  have hle : ¬ x.expect < n := by omega
  simp [State.receive, h, hn, hle]

/-- The flit that is expected. -/
theorem receive_takes (h : x.wire = x.expect :: rest) (ack : Bool) :
    (s.receive x false ack).link x.id = { x with
      wire := rest, expect := x.expect + 1,
      held := x.held ++ ((x.buf.find? fun f => f.seq == x.expect).map (·.cls)).toList } ∧
    (s.receive x false ack).logSeq = s.logSeq := by
  cases ack <;> simp only [State.receive, h, Bool.false_or, Nat.lt_irrefl, decide_false, if_false] 
  · exact ⟨link_setLink rfl, rfl⟩
  · exact ⟨link_setLink rfl, rfl⟩

theorem receive_next (s : State) (x : LinkState) (bad ack : Bool) :
    ((s.receive x bad ack).link x.id).next = x.next := by
  cases hw : x.wire with
  | nil => rw [receive_idle hw, link_setLink rfl]
  | cons n rest =>
    by_cases hd : bad = true ∨ x.expect < n
    · rw [receive_drops hw hd, dropFlit_link]
    · obtain ⟨hb, hn⟩ := not_or.mp hd
      obtain rfl := Bool.eq_false_of_not_eq_true hb
      rcases Nat.lt_or_eq_of_le (Nat.le_of_not_lt hn) with hlt | rfl
      · rw [receive_again hw hlt, link_setLink rfl]
      · rw [(receive_takes hw ack).1]

variable {l : Link} {c : TClass}

theorem pauseCheck_pauses (hc : c ∉ (s.link l).stopped)
    (hn : Config.pauseAt (classNum c) < ((s.link l).held.filter (· == c)).length) :
    (s.pauseCheck l c).agenda = s.agenda ++ [.event (.pause l c)] := by
  unfold State.pauseCheck
  rw [if_pos (by simpa [hc] using hn)]
  rfl

theorem pauseCheck_resumes (hc : c ∈ (s.link l).stopped)
    (hn : 2 * ((s.link l).held.filter (· == c)).length ≤ Config.pauseAt (classNum c)) :
    (s.pauseCheck l c).agenda = s.agenda ++ [.event (.resume l c)] := by
  unfold State.pauseCheck
  rw [if_neg (by simp [hc]), if_pos (by simpa [hc, Nat.lt_succ_iff] using hn)]
  rfl

theorem pauseCheck_next (s : State) (l : Link) (c : TClass) : ((s.pauseCheck l c).link l).next = (s.link l).next := by
  have h {x : LinkState} {a : List Mover} (hx : x.id = l) :
      (({ s.setLink x with agenda := a } : State).link l).next = x.next := congrArg LinkState.next (link_setLink hx)
  unfold State.pauseCheck
  extract_lets x n limit t u
  split
  · exact h (link_id s l)
  · split
    · exact h (link_id s l)
    · rfl

theorem foldl_pauseCheck_next (cs : List TClass) (s : State) (l : Link) :
    ((cs.foldl (fun (t : State) c => t.pauseCheck l c) s).link l).next = (s.link l).next := by
  induction cs generalizing s with
  | nil => rfl
  | cons c cs ih => exact (ih _).trans (pauseCheck_next s l c)

/-! ### Paused classes (R386) -/

theorem paused_setLink (s : State) (l : Link) (ps : List (TClass × Nat)) :
    ((s.setLink { s.link l with paused := ps }).link l).paused = ps :=
  congrArg LinkState.paused (link_setLink (x := { s.link l with paused := ps }) (link_id s l))

theorem pause_pauses (s : State) (l : Link) (c : TClass) : ∃ t, exec (.pause l c) s = .next t ∧
    (c, s.ts.toNat) ∈ (t.link l).paused ∧
    (∀ p, p.1 ≠ c → (p ∈ (t.link l).paused ↔ p ∈ (s.link l).paused)) ∧ ∀ m, m ≠ l → t.link m = s.link m := by
  refine ⟨_, rfl, ?_, fun p hp => ?_, fun m hm => link_setLink_of_ne (hm.trans_eq (link_id s l).symm)⟩
  all_goals rw [paused_setLink]
  · exact List.mem_cons_self
  · have hne : p ≠ (c, s.ts.toNat) := fun h => hp (congrArg Prod.fst h)
    simp [hp, hne]

theorem resume_frees (s : State) (l : Link) (c : TClass) : ∃ t, exec (.resume l c) s = .next t ∧
    (∀ p ∈ (t.link l).paused, p.1 ≠ c) ∧
    (∀ p, p.1 ≠ c → (p ∈ (t.link l).paused ↔ p ∈ (s.link l).paused)) ∧ ∀ m, m ≠ l → t.link m = s.link m := by
  refine ⟨_, rfl, fun p hp => ?_, fun p hp => ?_, fun m hm => link_setLink_of_ne (hm.trans_eq (link_id s l).symm)⟩
  · rw [paused_setLink] at hp
    simpa using (List.mem_filter.mp hp).2
  · rw [paused_setLink]
    simp [hp]

theorem freeClass_of_all_paused (h : ∀ c, ∃ p ∈ x.paused, p.1 = c) (salt : Nat) : s.freeClass x salt = none := by
  cases hc : s.freeClass x salt with
  | none => rfl
  | some c =>
    obtain ⟨p, hp, hpc⟩ := h c
    exact absurd hpc (freeClass_not_paused hc p hp)

/-- A clock of a link all of whose classes are paused sends no new flit. -/
theorem flitClock_next (h : ∀ c, ∃ p ∈ (s.link l).paused, p.1 = c) :
    ((s.flitClock l).link l).next = (s.link l).next := by
  unfold State.flitClock
  extract_lets x salt y t z
  split
  · rfl
  have hid : y.id = l := link_id s l
  have hy : y.next = x.next := by
    have hf (k : Nat) : s.freeClass x k = none := freeClass_of_all_paused h k
    simp [y, LinkState.send, hf]
  have ht : (t.link l).next = x.next := by
    rw [← hy]
    simp only [t]
    split
    · rw [link_setLink hid]
    · rw [← hid]
      exact receive_next ..
  refine (foldl_pauseCheck_next ..).trans ?_
  rw [link_setLink (x := { z with held := s.drained z.held (salt + 32) }) (link_id t l)]
  exact ht

end Receiver

/-! ### Dies (R387, R389) -/

section Dies

variable {s : State} {die line : Nat} {d : Die}

/-- A time limit, of a moment that may not be known, has passed. -/
theorem all_passed_iff {o : Option Nat} {n ts : Nat} :
    (o.all fun t => decide (t + n ≤ ts)) = true ↔ ∀ t, o = some t → t + n ≤ ts := by
  simp only [Option.all_eq_true, decide_eq_true_eq]

theorem dead_iff {ts : Nat} :
    d.dead ts = true ↔ d.link = .unresponsive ∧ ∀ t, d.missed = some t → t + 2000000 ≤ ts := by
  unfold Die.dead
  rw [Bool.and_eq_true, beq_iff_eq, all_passed_iff]
  rfl

theorem overslept_iff {ts : Nat} :
    d.overslept ts = true ↔ d.link = .waking ∧ ∀ w, d.woken = some w → w + 12000 ≤ ts := by
  unfold Die.overslept
  rw [Bool.and_eq_true, beq_iff_eq, all_passed_iff]
  rfl

theorem modDie_eq_self {f : Die → Die} (h : ∀ d, s.dies[die]? = some d → f d = d) : (s.modDie die f).dies = s.dies := by
  refine List.ext_getElem? fun n => ?_
  by_cases hn : n = die
  · subst hn
    refine (getElem?_modAt_self ..).trans ?_
    cases hd : s.dies[n]? with
    | none => rfl
    | some d => exact congrArg some (h d hd)
  · exact die_modDie_of_ne hn f

@[simp] theorem useLink_dies (s : State) (l : Link) : (s.useLink l).dies = s.dies := by
  unfold State.useLink
  split <;> rfl

@[simp] theorem useLink_hostOut (s : State) (l : Link) : (s.useLink l).hostOut = s.hostOut := by
  unfold State.useLink
  split <;> rfl

@[simp] theorem useLink_ts (s : State) (l : Link) : (s.useLink l).ts = s.ts := by
  unfold State.useLink
  split <;> rfl

/-- A request crosses the link of a die, and is held there. -/
def heldAt (s : State) (die : Nat) (r : HeldReq) : State :=
  (s.useLink (.d2d die)).modDie die fun d => { d with held := d.held ++ [r] }

theorem die_heldAt (hd : s.dies[die]? = some d) (r : HeldReq) :
    (heldAt s die r).dies[die]? = some { d with held := d.held ++ [r] } :=
  die_modDie_self ((congrArg (·[die]?) (useLink_dies ..)).trans hd) _

theorem atDie_of_none (hd : s.dies[die]? = none) (r : HeldReq) : s.atDie die r = s := by
  simp only [State.atDie, useLink_dies, hd]

theorem atDie_up (hd : s.dies[die]? = some d) (hl : d.link = .up) (r : HeldReq) :
    s.atDie die r = (s.useLink (.d2d die)).serve die r := by
  simp only [State.atDie, useLink_dies, hd, hl]

theorem atDie_asleep (hd : s.dies[die]? = some d) (hl : d.link = .asleep) (r : HeldReq) :
    s.atDie die r = ((heldAt s die r).wakeDie die).reply .wakePending := by
  simp only [State.atDie, useLink_dies, hd, hl, heldAt]

theorem atDie_waking (hd : s.dies[die]? = some d) (hl : d.link = .waking) (r : HeldReq) :
    s.atDie die r = (heldAt s die r).reply .wakePending := by
  simp only [State.atDie, useLink_dies, hd, hl, heldAt]

theorem atDie_unresponsive (hd : s.dies[die]? = some d) (hl : d.link = .unresponsive) (r : HeldReq) :
    s.atDie die r = heldAt s die r := by
  simp only [State.atDie, useLink_dies, hd, hl, heldAt]

theorem atDie_lost (hd : s.dies[die]? = some d) (hl : d.link = .lost) (r : HeldReq) :
    s.atDie die r = (s.useLink (.d2d die)).reply (.data [] true) := by
  simp only [State.atDie, useLink_dies, hd, hl]

theorem atDie_wakes (hd : s.dies[die]? = some d) (hl : d.link = .asleep ∨ d.link = .waking) (r : HeldReq) :
    (s.atDie die r).dies[die]? = some { d with link := .waking, held := d.held ++ [r],
                                               woken := if d.link = .asleep then some s.ts.toNat else d.woken } ∧
      (s.atDie die r).hostOut = s.hostOut ++ [.wakePending] ∧ (s.atDie die r).mem = s.mem := by
  rcases hl with hl | hl
  · rw [atDie_asleep hd hl]
    refine ⟨(die_modDie_self (die_heldAt hd r) _).trans ?_, congrArg (· ++ _) (useLink_hostOut ..), useLink_mem ..⟩
    simp [hl, heldAt, State.modDie]
  · rw [atDie_waking hd hl]
    refine ⟨(die_heldAt hd r).trans ?_, congrArg (· ++ _) (useLink_hostOut ..), useLink_mem ..⟩
    simp [hl]

theorem atDie_holds (hd : s.dies[die]? = some d) (hl : d.link = .unresponsive) (r : HeldReq) :
    (s.atDie die r).dies[die]? = some { d with held := d.held ++ [r] } ∧
      (s.atDie die r).hostOut = s.hostOut ∧ (s.atDie die r).mem = s.mem := by
  rw [atDie_unresponsive hd hl]
  exact ⟨die_heldAt hd r, useLink_hostOut .., useLink_mem ..⟩

theorem exec_hostSnoop (die line : Nat) (s : State) : exec (.hostSnoop die line) s = .next (s.atDie die (.snoop line)) := rfl

theorem hostSnoop_up (hd : s.dies[die]? = some d) (hl : d.link = .up) :
    exec (.hostSnoop die line) s = .next ((s.useLink (.d2d die)).snoop die line) := by
  rw [exec_hostSnoop, atDie_up hd hl]
  rfl

theorem hostSnoop_lost (hd : s.dies[die]? = some d) (hl : d.link = .lost) :
    exec (.hostSnoop die line) s = .next ((s.useLink (.d2d die)).reply (.data [] true)) := by
  rw [exec_hostSnoop, atDie_lost hd hl]

theorem exec_linkUp (hd : s.dies[die]? = some d) : exec (.linkUp die) s = .next (
    if d.dead s.ts.toNat then s.loseDie die
    else if d.link = .waking ∨ d.link = .unresponsive then
      d.held.foldl (fun (s : State) r => s.serve die r)
        ({ s.modDie die fun d => { d with link := .up, held := [], missed := none, woken := none } with
            links := s.links.map fun l => if l.id = .d2d die then l.retrained s.ts.toNat else l })
    else s) := by
  change execLinkUp die s = _
  unfold execLinkUp
  rw [hd]

theorem linkUp_of_none (hd : s.dies[die]? = none) : exec (.linkUp die) s = .next s := by
  change execLinkUp die s = _
  unfold execLinkUp
  rw [hd]

theorem linkUp_serves (hd : s.dies[die]? = some d) (hl : d.link = .waking ∨ d.link = .unresponsive)
    (hlive : d.dead s.ts.toNat = false) :
    ∃ u, exec (.linkUp die) s = .next (d.held.foldl (fun (s : State) r => s.serve die r) u) ∧
      u.dies[die]? = some { d with link := .up, held := [], missed := none, woken := none } ∧ u.mem = s.mem ∧
      u.edge = s.edge := by
  rw [exec_linkUp hd, if_neg (by simp [hlive]), if_pos hl]
  exact ⟨_, rfl, die_modDie_self hd _, rfl, rfl⟩

theorem linkUp_of_dead (hd : s.dies[die]? = some d) (h : d.dead s.ts.toNat = true) :
    exec (.linkUp die) s = .next (s.loseDie die) := by
  rw [exec_linkUp hd, if_pos h]

theorem linkUp_of_other (hd : s.dies[die]? = some d) (hl : d.link ≠ .waking ∧ d.link ≠ .unresponsive) :
    exec (.linkUp die) s = .next s := by
  obtain ⟨hw, hu⟩ := hl
  rw [exec_linkUp hd, if_neg fun h => hu (dead_iff.mp h).1, if_neg (not_or.mpr ⟨hw, hu⟩)]

theorem not_overslept {ts : Nat} (h : d.link ≠ .waking ∨ ∃ w, d.woken = some w ∧ ts < w + 12000) :
    d.overslept ts = false := by
  refine Bool.eq_false_of_not_eq_true fun ho => ?_
  obtain ⟨hl, hw⟩ := overslept_iff.mp ho
  obtain hn | ⟨w, hwoken, hts⟩ := h
  · exact hn hl
  · exact Nat.not_le.mpr hts (hw w hwoken)

theorem tWake_overslept (hd : s.dies[die]? = some d) (h : d.overslept s.ts.toNat = true) :
    ∃ t, exec (.tWake die) s = .next t ∧
      t.dies[die]? = some { d with link := .unresponsive, missed := some s.ts.toNat, woken := none } ∧ t.mem = s.mem ∧
      t.cores = s.cores :=
  ⟨_, rfl, (die_modDie_self hd _).trans (congrArg some (if_pos h)), rfl, rfl⟩

theorem tWake_keeps (h : ∀ d, s.dies[die]? = some d → d.overslept s.ts.toNat = false) :
    ∃ t, exec (.tWake die) s = .next t ∧ t.dies = s.dies ∧ t.mem = s.mem ∧ t.cores = s.cores :=
  ⟨_, rfl, modDie_eq_self fun d hd => if_neg (by simp [h d hd]), rfl, rfl⟩

theorem tDead_of_none (hd : s.dies[die]? = none) : exec (.tDead die) s = .next s := by
  change execTDead die s = _
  simp only [execTDead, hd, Option.any_none, Bool.false_eq_true, if_false]

theorem exec_tDead (hd : s.dies[die]? = some d) :
    exec (.tDead die) s = .next (if d.dead s.ts.toNat then s.loseDie die else s) := by
  change execTDead die s = _
  simp only [execTDead, hd, Option.any_some]

theorem tDead_of_other (hd : s.dies[die]? = some d) (hl : d.link ≠ .unresponsive) : exec (.tDead die) s = .next s := by
  rw [exec_tDead hd, if_neg fun h => hl (dead_iff.mp h).1]

theorem tDead_unresponsive {t : Nat} (hd : s.dies[die]? = some d) (hl : d.link = .unresponsive) (ht : d.missed = some t) :
    exec (.tDead die) s = .next (if t + 2000000 ≤ s.ts.toNat then s.loseDie die else s) := by
  have hdead : d.dead s.ts.toNat = true ↔ t + 2000000 ≤ s.ts.toNat := by
    simp only [dead_iff, hl, ht, true_and, Option.some.injEq, forall_eq']
  by_cases h : t + 2000000 ≤ s.ts.toNat
  · rw [exec_tDead hd, if_pos h, if_pos (hdead.mpr h)]
  · rw [exec_tDead hd, if_neg h, if_neg (mt hdead.mp h)]

end Dies

/-! ### A lost die -/

section Lost

variable {s : State} {die : Nat}

/-- What is said of the dies stands whatever changes memory. -/
theorem writes_of_dies (Q : List Die → Prop) : Writes fun s => Q s.dies where
  of_eq {s t} h hl := by
    have hd : t.dies = s.dies := congrArg (fun p => p.2.2.2.2.1) hl
    rwa [hd]
  useLink l h := by rwa [useLink_dies]
  put k bs h := by rwa [put_dies]
  setPoison _ h := h
  setRecorders _ h := h
  setCleans _ h := h
  keepMem _ h := h

/-- The link of a die is lost, and it holds no request. -/
def Lost (die : Nat) (s : State) : Prop := ∃ e, s.dies[die]? = some e ∧ e.link = .lost ∧ e.held = []

theorem stores_lost (die : Nat) : Stores (Lost die) :=
  (writes_of_dies fun ds => ∃ e, ds[die]? = some e ∧ e.link = .lost ∧ e.held = []).stores

/-- A die that is lost stays so under any change that keeps lost links lost and gives them no request. -/
theorem lost_modDie {f : Die → Die} (h : Lost die s) (n : Nat)
    (hf : ∀ e, e.link = .lost → (f e).link = .lost ∧ (f e).held = e.held) : Lost die (s.modDie n f) := by
  obtain ⟨e, he, hlost, hheld⟩ := h
  obtain ⟨hlost', hheld'⟩ := hf e hlost
  by_cases hn : die = n
  · subst hn
    exact ⟨f e, die_modDie_self he f, hlost', hheld'.trans hheld⟩
  · exact ⟨e, (die_modDie_of_ne hn f).trans he, hlost, hheld⟩

theorem lost_sleepDie (h : Lost die s) (n : Nat) : Lost die (s.sleepDie n) :=
  lost_modDie h n fun e he => by simp [he]

theorem lost_wakeDie (h : Lost die s) (n : Nat) : Lost die (s.wakeDie n) :=
  lost_modDie h n fun e he => by simp [he]

theorem lost_followPower (h : Lost die s) (n : Nat) : Lost die (s.followPower n) := by
  unfold State.followPower
  split
  · exact lost_sleepDie ((stores_lost die).foldl _ (fun s c hs => (stores_lost die).preemptScope _ hs) h) n
  · exact lost_wakeDie h n

theorem lost_takeRequest (h : Lost die s) (r : Request) : Lost die (s.takeRequest r) := by
  cases r with
  | power n p => exact lost_followPower (lost_modDie (f := fun x => { x with want := p }) h n fun e he => ⟨he, rfl⟩) n
  | preempt sc => exact (stores_lost die).preemptScope _ h
  | quiesce => exact (stores_lost die).preemptScope _ h
  | quiesceEnd => exact h
  | follow n => exact lost_followPower h n

theorem lost_takeRequests (h : Lost die s) (n : Nat) : Lost die (s.takeRequests n) := by
  induction n generalizing s with
  | zero => exact h
  | succ n ih =>
    unfold State.takeRequests
    split
    · exact h
    · next r rest _ =>
      have hrest : Lost die { s with mp3 := rest } := h
      split
      · exact ih (lost_takeRequest hrest r)
      · exact h

theorem lost_settle (h : Lost die s) : Lost die s.settle := by
  unfold State.settle
  exact (stores_lost die).foldl _ (fun s n hs => lost_sleepDie hs n) (lost_takeRequests h _)

theorem lost_loseDie {d : Die} (hd : s.dies[die]? = some d) : Lost die (s.loseDie die) := by
  have hP := stores_lost die
  have hdies : Stores fun t : State => t.dies = s.dies := (writes_of_dies (· = s.dies)).stores
  unfold State.loseDie
  extract_lets held s1 s2 cores s3
  have h1 : s1.dies = s.dies := hdies.foldl _ (fun t _ ht => hdies.reply _ ht) (hdies.loseLines die rfl)
  have h2 : Lost die s2 := ⟨_, die_modDie_self ((congrArg (·[die]?) h1).trans hd) _, rfl, rfl⟩
  have h3 : Lost die s3 := hP.foldl _ (fun t c ht => hP.setCore _ _ (hP.foldl _ (fun u n hu => hP.loseGang c n hu) ht)) h2
  exact lost_settle h3

end Lost

/-! ### Remote pushes over a port (R328, R386) -/

section Port

variable {x : Ctx} {s : State} {d : BitVec 7} {l ea w : Nat} {r : BitVec 1024}

theorem sendPush_waits (hup : s.routeDown (nbits w 27 10) = false) (hp : s.routePaused (nbits w 27 10) .enqueue = true) :
    x.sendPush s d l ea w r = .wait := by
  unfold Ctx.sendPush
  rw [if_neg (by simp [hup]), if_pos hp]

theorem sendPush_fails {q : Push} {t : State} {u : Unit} (hdown : s.routeDown (nbits w 27 10) = true)
    (hq : q = Push.mk (BitVec.ofNat 18 (nbits w 27 10)) (nbits w 8 0) r x.g.ctx x.g.root x.g.jtab x.core x.g.gk
      (x.slotOf l) ((x.th l).winbase.toNat * 8 + d.toNat) x.slot ea w true none) (ht : s.pushDone q = .ok t u) :
    x.sendPush s d l ea w r = .ok t (·.setV d.toNat 2) [] := by
  unfold Ctx.sendPush
  rw [if_pos hdown, ← hq, ht]
  rfl

end Port

/-- Settles O47: the dies' requests, waking and loss, a link's flits, pauses and limits, and the pushes over a port,
each by the equation of its step. -/
theorem diesAndLinks : Obligations.DiesAndLinks := by
  unfold Obligations.DiesAndLinks
  refine ⟨⟨?_, ?_, ?_, ?_, ?_, ?_, ?_, ?_, ?_, ?_, ?_, ?_, ?_⟩, ?_, ?_, ?_, ?_, ?_, ?_, ?_, ?_, ?_, ?_, ?_, ?_, ?_, ?_, ?_,
    ?_, ?_, ?_, ?_, ?_, ?_, ?_, ?_⟩
  · exact fun die line s hd => ⟨congrArg _ (atDie_of_none hd _), linkUp_of_none hd, tDead_of_none hd⟩
  · exact fun die line s d hd hl => hostSnoop_up hd hl
  · exact fun die line s d hd hl => ⟨_, exec_hostSnoop die line s, atDie_wakes hd hl _⟩
  · exact fun die line s d hd hl => ⟨_, exec_hostSnoop die line s, atDie_holds hd hl _⟩
  · exact fun die line s d hd hl => hostSnoop_lost hd hl
  · exact fun die s d hd hl hlive => linkUp_serves hd hl hlive
  · exact fun die s d hd hdead => linkUp_of_dead hd hdead
  · exact fun die s d hd hl => linkUp_of_other hd hl
  · exact fun die s d w hd hl hw hts => tWake_overslept hd (overslept_iff.mpr ⟨hl, by simpa [hw] using hts⟩)
  · exact fun die s h => tWake_keeps fun d hd => not_overslept (h d hd)
  · exact fun die s d hd hl => tDead_of_other hd hl
  · exact fun die s d t hd hl ht => tDead_unresponsive hd hl ht
  · exact fun die s d hd _ => lost_loseDie hd
  · exact fun l n s h => ⟨retryRequest_of_down h, linkDown_of_down h⟩
  · exact fun l n s x h hx hb => retryRequest_resends h hx hb
  · exact fun l n s x h hx hb => retryRequest_takes_down h hx hb
  · exact fun x n => ⟨resend_buf x n, fun k => mem_resend_wire⟩
  · exact fun s x n f hf => sent_keeps_buf hf
  · exact fun s x n k hk hn => mem_sent hk hn
  · exact fun s x n h => sent_of_le h
  · exact fun l s h => linkDown_of_up h
  · exact fun l s => downLink_down s l
  · exact fun die s d hd hl => downLink_die hd hl
  · exact fun l n s x hx => flitAcknowledgement_takes hx
  · exact fun s x rest ack h => ⟨receive_drops h (.inl rfl) ack, _, rfl, receive_takes h ack⟩
  · exact fun s x n rest bad ack h => ⟨fun hn => receive_drops h (.inr hn) ack, fun hn => by
      rw [receive_again h hn, link_setLink rfl]⟩
  · exact fun s x => ⟨by rw [dropFlit_link], dropFlit_logSeq s x, dropFlit_agenda s x⟩
  · exact fun s l c hc hn => pauseCheck_pauses hc hn
  · exact fun s l c hc hn => pauseCheck_resumes hc hn
  · exact fun l c s => pause_pauses s l c
  · exact fun l c s => resume_frees s l c
  · exact fun x ts => late_iff
  · exact fun s x salt c h => freeClass_not_paused h
  · exact fun s l h => flitClock_next h
  · exact fun x s d l ea w r hup hp => sendPush_waits hup hp
  · exact fun x s d l ea w r q t u hdown hq ht => sendPush_fails hdown hq ht

end Sys2Proof.Laws
end
